-- ==== Sys2Proof/Word.lean ====
section
/-!
DEFINITION. The word types of the HRN-7140 and their plainest arithmetic (R7, R10 of spec/00_scope.md).
-/
namespace Sys2Proof

/-- One byte of storage (R68). -/
abbrev Byte := BitVec 8

/-- One 32-bit instruction word or lane register (R57, R134). -/
abbrev Word := BitVec 32

/-- One 64-bit scalar, register pair, address or channel element (R144, R164). -/
abbrev DWord := BitVec 64

/-- A set of the five floating-point flags, laid out as `$fflags` [4:0] (R125). -/
abbrev Flags := BitVec 5

/-- The skein width W of the HRN-7140 (R2). -/
abbrev skeinWidth : Nat := 32

end Sys2Proof
end

