-- ==== Sys2Proof/Config.lean ====
section
/-!
DEFINITION. What the specification leaves open: free values (opaque constants with no body) and the fixed figures of the
HRN-7140 (R13, R19, R66). The log entries of notes/assumptions name each free value.
-/
namespace Sys2Proof.Config

/-- Free choice number n of the memory order, where a load may return an older value (R82; log entry 6): none for the instant
at which its line entered the core's snapshot, else how many of the newest writes it does not see. -/
opaque loadAge : Nat → Option Nat
/-- Free choice number n: whether a held-back store reaches its home now (R79, R85; log entry 6). -/
opaque drainNow : Nat → Bool
/-- Free choice number n: whether ACCESS_AT_HOME passes over a thread's store to another thread's (R79; log entry 6). -/
opaque drainOther : Nat → Bool
/-- A 16 B block of a line written under the first key and read under the second, by the block's place (R305, R385, R391: the
decryption under the current key; log entry 9). -/
opaque redecrypt : BitVec 256 → BitVec 256 → Nat → BitVec 128 → BitVec 128
/-- The fresh key that firmware loads in slot 0 at reset number n (R385, R386; log entry 9). -/
opaque freshKey : Nat → BitVec 256
/-- The wrapping key SHAKE256(fused secret, seed) (R392; log entry 9). -/
opaque wrappingKey : BitVec 256 → BitVec 256
/-- AES Key Unwrap under a wrapping key: the key, or none when the integrity value is wrong (R392; log entry 9). -/
opaque unwrap : BitVec 256 → BitVec 320 → Option (BitVec 256)
/-- SHAKE256 with 512 bits of output (R389; log entry 9). -/
opaque shake256 : List (BitVec 8) → BitVec 512
/-- The digest measured into register i at bring-up number n: of images 0 to 2, and of the fuses (R386, R389; log entry 9). -/
opaque digest : Nat → Nat → List (BitVec 8)
/-- Security version of firmware image i at bring-up number n (R388, R390; log entry 9). -/
opaque securityVersion : Nat → Nat → BitVec 16
/-- The fused minimum security version of image i (R388; log entry 9). -/
opaque minimumVersion : Nat → BitVec 16
/-- Whether the signature of image i at bring-up number n verifies (R388; log entry 9). -/
opaque imageSigned : Nat → Nat → Bool
/-- The length of image i at bring-up number n, and the space reserved for it (R388; log entry 9). -/
opaque imageLength : Nat → Nat → Nat
opaque imageSpace : Nat → Nat
/-- Byte i of the device identity public key (R390; log entry 9). -/
opaque identityKey : Nat → BitVec 8
/-- Byte i of the ML-DSA-65 signature over a report (R390; log entry 9). -/
opaque signature : List (BitVec 8) → Nat → BitVec 8
/-- Whether step k of bring-up number n fails otherwise: a rail, the link, a stack (R386; log entry 3). -/
opaque stepFails : Nat → Nat → Bool
/-- Whether a decoder that works below the bound of R341 raises 0x0B02 on a chunk (free by R341; log entry 12). -/
opaque decoderSlow : Nat → Bool
/-- A value the specification gives no result for, number n (log entry 2). -/
opaque freeValue : Nat → BitVec 64
/-- The kind, coded as `cgn.kind`, of a `cg.launch` in a record of 0x030B: R265 has no code for it (log entry 22). -/
opaque graphKind : BitVec 4
/-- The kind, coded as `cgn.kind`, of a `coll.start` in a record of 0x030B: R265 has no code for it (log entry 22). -/
opaque collKind : BitVec 4

/-- The metric of `w.dist`, which no rule gives: false for squared Euclidean, true for negated inner product (R132, R286;
log entry 19). -/
opaque walkMetric : Bool
/-- Free choice number n: whether a save row fails as it is written or read (R486; log entry 20). -/
opaque saveRowFails : Nat → Bool

/-- The rounding mode of a walker thread's instructions that name `$fmode`: no rule gives walker threads one (log entry
18); codes 1 to 5 of R123, any other read as `rne`. -/
opaque walkerMode : BitVec 3

/-- Cores of the device (R13). -/
abbrev cores : Nat := 192
/-- Skein contexts of a core (R31). -/
abbrev contexts : Nat := 128
/-- Lane registers of a core's pool (R57). -/
abbrev poolRegs : Nat := 131072
/-- Bytes of one tile slice (R19, R66). -/
abbrev sliceBytes : Nat := 0x800000
/-- First physical address of the tile slices (R66). -/
abbrev tileBase : Nat := 0x1000000000000
/-- First physical address of the control and status space (R66). -/
abbrev ctlBase : Nat := 0x2000000000000
/-- First physical address of the stack-direct views (R66). -/
abbrev stackBase : Nat := 0x100000000000
/-- First physical address of the remote-device windows (R66). -/
abbrev remoteBase : Nat := 0x8000000000000
/-- First address past the populated interleaved HBM view (R66). -/
abbrev hbmEnd : Nat := 0xEE6B280000
/-- First offset past the populated part of one stack (R66). -/
abbrev stackEnd : Nat := 0xEE6B28000

end Sys2Proof.Config
end

