-- ==== Sys2Proof/Syntax.lean ====
section
/-!
DEFINITION. The instructions and device steps of the HRN-7140: one constructor of `Instr` for each row of
spec/opcode_table.json. Rows with an encoding carry the operand fields of spec/06_encoding_and_assembly.md (R137-R151);
rows without one are the atomic steps of the device's other agents and carry what the outside world or the agent
brings to the step.
-/
namespace Sys2Proof

/-- An L-form source field: a lane register, or a channel popped or peeked (R137). -/
inductive Src where
  | reg (n : Fin 128)
  | pop (c : Fin 32)
  | peek (c : Fin 32)
deriving DecidableEq, Repr

/-- An L-form destination field: a lane register, or a channel pushed (R137). -/
inductive Dst where
  | reg (n : Fin 128)
  | push (c : Fin 32)
deriving DecidableEq, Repr

/-- A U-form source field: a k register, or a channel popped or peeked (R137, R290). -/
inductive USrc where
  | k (n : Fin 64)
  | pop (c : Fin 32)
  | peek (c : Fin 32)
deriving DecidableEq, Repr

/-- A U-form destination field: a k register (k16 to k63 by R144), or a channel pushed (R290). -/
inductive UDst where
  | k (n : Fin 64)
  | push (c : Fin 32)
deriving DecidableEq, Repr

/-- The sixteen type codes of R142. -/
inductive Ty where
  | i8 | i16 | i32 | i64 | n8 | n16 | n32 | n64
  | f64 | f32 | bf16 | h16 | e5m2 | e4m3 | e3m2 | e2m1
deriving DecidableEq, Repr

/-- The pack codes of R143. -/
inductive Pack where
  | one | x2 | x4 | x8
deriving DecidableEq, Repr

/-- The rounding modes of R123; `dyn` is mode 0b000, the mode in `$fmode`. -/
inductive RMode where
  | dyn | rne | rtz | rup | rdn | rodd
deriving DecidableEq, Repr

/-- A rounding code: bits [2:0] the mode, bit [3] `.sat` (R123). -/
structure Rc where
  mode : RMode
  sat : Bool
deriving DecidableEq, Repr

/-- The type, pack and rounding fields of an XC second word (R141). -/
structure Fmt where
  ty : Ty
  pk : Pack
  rc : Rc
deriving DecidableEq, Repr

/-- One side of a `cvt`: a type of R142, or `e8m0` by XV bits 6 and 7 (R141). -/
inductive CvtTy where
  | ty (t : Ty)
  | e8m0
deriving DecidableEq, Repr

/-- The fields of an XV second word (R141). -/
structure CvtFmt where
  rc : Rc
  dst : CvtTy
  dpk : Pack
  src : CvtTy
  spk : Pack
deriving DecidableEq, Repr

/-- Scopes of R77, coded 0 to 3 (R141). -/
inductive Scope where
  | core | cluster | dev | dom
deriving DecidableEq, Repr

/-- The order field of an atomic (R141). -/
inductive AtomOrder where
  | none | rel | acq | ar
deriving DecidableEq, Repr

/-- The address operand of an XM instruction: base pair, index register with its log2 scale, signed offset in units
of the access size (R141, R193). -/
structure MemAddr where
  base : Fin 128
  index : Option (Fin 128 × Fin 4)
  off : BitVec 9
deriving DecidableEq, Repr

/-- The offset operand of `lrot`, `lxor` and `lbcast` (R188). -/
inductive LaneOff where
  | const (n : Fin 16)
  | width (n : Fin 5)
  | widthLess1 (n : Fin 5)
deriving DecidableEq, Repr

/-- The predicate of a BP branch; absent when `p.use` is 0 (R139). -/
structure BrPred where
  neg : Bool
  p : Fin 8
deriving DecidableEq, Repr

/-- The `cond` codes of `sbr` (R139). -/
inductive SCond where
  | always | z | nz | lt | ge | gt | le
deriving DecidableEq, Repr

/-- The conditions of `cmp` (R185). -/
inductive CmpCond where
  | eq | ne | lt | le | gt | ge | ord | un
deriving DecidableEq, Repr

/-- The operations of `lred` and `lscan` (R191). -/
inductive RedOp where
  | add | min | max | and | or | xor
deriving DecidableEq, Repr

/-- The modes of `movk` (R169). -/
inductive MovkMode where
  | full | lo | hi
deriving DecidableEq, Repr

/-- The kinds of a named barrier (R215). -/
inductive BarKind where
  | team | gang | engine
deriving DecidableEq, Repr

/-- The states `buf.set` names (R247). -/
inductive BufSetTo where
  | empty | full | draining
deriving DecidableEq, Repr

/-- A thread: a lane thread of a core's residency slot, or a walker thread of the device (R17, R29, R283). -/
inductive Who where
  | lane (core slot tid : Nat)
  | walk (n : Nat)
deriving DecidableEq, Repr

/-- A holder of a TLB: a core (R101) or a search base die (R114). -/
inductive TlbUnit where
  | core (c : Nat)
  | die (s : Nat)
deriving DecidableEq, Repr

/-- A synchronising object that the starvation report of R55 times. -/
inductive SyncObj where
  | barrier (n : Nat)
  | channel (n : Nat)
  | hank (addr : Nat)
deriving DecidableEq, Repr

/-- A unit that can be fenced (R413). -/
inductive FenceUnit where
  | core (c : Nat)
  | slice (c : Nat)
  | stack (s : Nat)
  | fabric (f : Nat)
  | walker (w : Nat)
  | port (p : Nat)
deriving DecidableEq, Repr

/-- What a verification of a stored line finds (R426). -/
inductive Soundness where
  | sound | correctable | uncorrectable
deriving DecidableEq, Repr

/-- The queue whose head a COMMAND_HEAD step tests (R239, R242). -/
inductive EngineQueue where
  | matrix (core : Nat)
  | copy (core : Nat)
  | fabric (f slot : Nat)
  | round (slot : Nat)
deriving DecidableEq, Repr

/-- The read-modify-write operations of R198 with their results; used by REMOTE_ACCESS for another device's atomics. -/
inductive AtomOp where
  | xchg | add | and | or | xor | min | max | ld | st
deriving DecidableEq, Repr

/-- The access a REMOTE_ACCESS step performs for another device (R376). -/
inductive RemoteKind where
  | load
  | store (bytes : List Byte)
  | atom (op : AtomOp) (ty : Ty) (value : DWord)
  | cas (ty : Ty) (old new : DWord)
deriving DecidableEq, Repr

/-- One instruction or device step of spec/opcode_table.json. -/
inductive Instr where
  -- Integer and bit instructions, one word (R167)
  | addI32 (d : Dst) (a b : Src)
  | subI32 (d : Dst) (a b : Src)
  | mulI32 (d : Dst) (a b : Src)
  | mulhI32 (d : Dst) (a b : Src)
  | minI32 (d : Dst) (a b : Src)
  | maxI32 (d : Dst) (a b : Src)
  | and (d : Dst) (a b : Src)
  | or (d : Dst) (a b : Src)
  | xor (d : Dst) (a b : Src)
  | not (d : Dst) (a : Src)
  | shl (d : Dst) (a b : Src)
  | shr (d : Dst) (a b : Src)
  | sra (d : Dst) (a b : Src)
  | mov (d : Dst) (a : Src)
  | clz (d : Dst) (a : Src)
  | popc (d : Dst) (a : Src)
  | addI32Imm (d : Dst) (a : Src) (i : BitVec 8)
  | andImm (d : Dst) (a : Src) (i : BitVec 8)
  | orImm (d : Dst) (a : Src) (i : BitVec 8)
  | xorImm (d : Dst) (a : Src) (i : BitVec 8)
  | shlImm (d : Dst) (a : Src) (i : BitVec 5)
  | shrImm (d : Dst) (a : Src) (i : BitVec 5)
  | sraImm (d : Dst) (a : Src) (i : BitVec 5)
  | movi (d : Dst) (i : BitVec 16)
  | movhi (d : Fin 128) (i : BitVec 16)
  | movk (d : Dst) (k : Fin 64) (m : MovkMode)
  | ctz (d : Dst) (a : Src)
  | bitrev (d : Dst) (a : Src)
  | rds (d : Dst) (sr : BitVec 8)
  | wrs (sr : BitVec 8) (a : Src)
  | pmovFromReg (n : Fin 8) (a : Src)
  | pmovToReg (d : Dst) (n : Fin 8)
  | pmovPred (n m : Fin 8)
  | pnot (n m : Fin 8)
  -- Floating point, one word (R176-R180)
  | addF32 (d : Dst) (a b : Src)
  | subF32 (d : Dst) (a b : Src)
  | mulF32 (d : Dst) (a b : Src)
  | divF32 (d : Dst) (a b : Src)
  | minF32 (d : Dst) (a b : Src)
  | maxF32 (d : Dst) (a b : Src)
  | sqrtF32 (d : Dst) (a : Src)
  | rsqrtF32 (d : Dst) (a : Src)
  | rcpF32 (d : Dst) (a : Src)
  | exp2F32 (d : Dst) (a : Src)
  | log2F32 (d : Dst) (a : Src)
  | sinF32 (d : Dst) (a : Src)
  | cosF32 (d : Dst) (a : Src)
  | tanhF32 (d : Dst) (a : Src)
  | fclassF32 (d : Dst) (a : Src)
  | absF32 (d : Dst) (a : Src)
  -- Cross-lane and predicate (R187-R190)
  | lperm (d : Dst) (a b : Src)
  | lrot (d : Dst) (a : Src) (o : LaneOff)
  | lxor (d : Dst) (a : Src) (o : LaneOff)
  | lbcast (d : Dst) (a : Src) (o : LaneOff)
  | lballot (d : Dst) (a : Src)
  | lmatch (d : Dst) (a : Src)
  | pand (n m k : Fin 8)
  | por (n m k : Fin 8)
  | pxor (n m k : Fin 8)
  -- Lane access to engines (R259, R272, R273) and the remaining integer forms
  | accRead (d : Dst) (a : Src)
  | accWrite (a b : Src)
  | cardNext (d : Dst) (p : Fin 8)
  | cardFeed (n : Fin 64) (a b : Src)
  | crc (d : Dst) (a b : Src)
  | absdI32 (d : Dst) (a b : Src)
  | mulhN32 (d : Dst) (a b : Src)
  -- Control (R202-R213)
  | br (p : Option BrPred) (off : BitVec 19)
  | call (p : Option BrPred) (off : BitVec 19)
  | ret
  | jr (a : Fin 128)
  | calr (a : Fin 128)
  | switch (i : Src) (off : BitVec 16)
  | converge
  | reform
  | spawn (d : Dst) (a b : Fin 128)
  | exit
  | trap (n : BitVec 8)
  | brk (n : BitVec 8)
  | yield
  | sleep (n : BitVec 8)
  | gwait (d : Dst) (a : Fin 128)
  | gwaitPoll (d : Dst) (a : Fin 128)
  | phase (s : Scope)
  -- Barriers, hanks, bounds, pool, channels (R214-R238)
  | arrive (d : Dst) (nb : Fin 16)
  | wait (nb : Fin 16) (b : Src)
  | barOwe (d : Dst) (nb : Fin 16) (b : Fin 128)
  | barTest (p : Fin 8) (nb : Fin 16) (b : Src)
  | hankPush (p : Fin 8) (a : Fin 128) (b : Src)
  | hankPop (d : Fin 128) (a : Fin 128) (p : Fin 8)
  | hankPopWait (d : Fin 128) (a : Fin 128) (p : Fin 8)
  | hankSteal (d : Fin 128) (a : Fin 128) (p : Fin 8)
  | hankSize (d a : Fin 128)
  | boundMin (a : Fin 128) (nat dev : Bool) (i : Fin 16)
  | boundMinSet (a : Fin 128) (nat dev : Bool) (i : Fin 16)
  | boundMax (a : Fin 128) (nat dev : Bool) (i : Fin 16)
  | boundMaxSet (a : Fin 128) (nat dev : Bool) (i : Fin 16)
  | boundGet (d : Fin 128) (dev : Bool) (i : Fin 16)
  | regclaim (n : BitVec 8)
  | regrel (n : BitVec 8)
  | chpoll (d : Dst) (c : Fin 32)
  | wSend (a : Src) (b : Fin 128)
  | wRecv (d : Fin 128)
  -- Uniform instructions, one word (R217-R303)
  | sadd (d : UDst) (a b : USrc)
  | ssub (d : UDst) (a b : USrc)
  | sand (d : UDst) (a b : USrc)
  | sor (d : UDst) (a b : USrc)
  | sxor (d : UDst) (a b : USrc)
  | sshl (d : UDst) (a b : USrc)
  | sshr (d : UDst) (a b : USrc)
  | smov (d : UDst) (a : USrc)
  | smovi (d : UDst) (i : BitVec 16)
  | smovh (d : Fin 64) (i : BitVec 16)
  | sbr (c : SCond) (k : Fin 64) (off : BitVec 15)
  | rdsr (d : UDst) (sr : BitVec 8)
  | wrsr (sr : BitVec 8) (a : USrc)
  | barInit (nb : Fin 16) (a : Fin 64) (kind : BarKind)
  | hankInit (a b : Fin 64)
  | chbind (c : Fin 32) (a : Fin 64)
  | chfree (c : Fin 32)
  | guardSet (g : Fin 8) (a : Fin 64)
  | mxAcquire
  | mxRelease
  | mxIssue (a : Fin 64)
  | accAlloc (d a : Fin 64)
  | accFree (a : Fin 64)
  | accZero (a : Fin 64)
  | accDrain (a b : Fin 64)
  | accPack (a b : Fin 64)
  | xfer (d a b : Fin 64)
  | xferMc (d a b : Fin 64)
  | bufDecl (a : Fin 64)
  | bufSet (n : Fin 64) (st : BufSetTo)
  | cardOpenX (a : Fin 64)
  | cardOpenM (a : Fin 64)
  | cardSplit (a : Fin 64)
  | cardSave (a : Fin 64)
  | cardRestore (a : Fin 64)
  | cardClose
  | sfUnbind (a : Fin 64)
  | ctxsave (d a b : Fin 64)
  | ctxload (d a b : Fin 64)
  | tsync
  | replay
  | idle (d a : Fin 64)
  | halt
  | errack (a b : Fin 64)
  -- Lane instructions of page 0 (R171-R196)
  | add (f : Fmt) (d : Dst) (a b : Src)
  | sub (f : Fmt) (d : Dst) (a b : Src)
  | mul (f : Fmt) (d : Dst) (a b : Src)
  | mulh (f : Fmt) (d : Dst) (a b : Src)
  | div (f : Fmt) (d : Dst) (a b : Src)
  | rem (f : Fmt) (d : Dst) (a b : Src)
  | min (f : Fmt) (d : Dst) (a b : Src)
  | max (f : Fmt) (d : Dst) (a b : Src)
  | abs (f : Fmt) (d : Dst) (a : Src)
  | neg (f : Fmt) (d : Dst) (a : Src)
  | absd (f : Fmt) (d : Dst) (a b : Src)
  | sqrt (f : Fmt) (d : Dst) (a : Src)
  | fma (f : Fmt) (d : Dst) (a b c : Src)
  | mad (f : Fmt) (d : Dst) (a b c : Src)
  | madw (f : Fmt) (d : Dst) (a b c : Src)
  | scalb (f : Fmt) (d : Dst) (a b : Src)
  | rnd (f : Fmt) (d : Dst) (a : Src)
  | cvt (f : CvtFmt) (d : Dst) (a : Src)
  | pack (t : Ty) (d : Dst) (a b : Src)
  | unpack (t : Ty) (d : Dst) (a : Src)
  | cmp (c : CmpCond) (t : Ty) (p : Fin 8) (a b : Src)
  | sel (t : Ty) (p : Fin 8) (neg : Bool) (d : Dst) (a b : Src)
  | lea (signed : Bool) (off : BitVec 14) (sh : Fin 4) (d : Dst) (a b : Src)
  | bfe (signed : Bool) (pos : BitVec 5) (len : BitVec 6) (d : Dst) (a : Src)
  | bfi (pos : BitVec 5) (len : BitVec 6) (d : Dst) (a b : Src)
  | fsh (d : Dst) (a b c : Src)
  | lscan (op : RedOp) (excl : Bool) (t : Ty) (rc : Rc) (d : Dst) (a : Src)
  | lred (op : RedOp) (t : Ty) (rc : Rc) (d : Dst) (a : Src)
  | ld (t : Ty) (d : Dst) (m : MemAddr)
  | st (t : Ty) (v : Src) (m : MemAddr)
  | gld (t : Ty) (d : Dst) (m : MemAddr)
  | gst (t : Ty) (v : Src) (m : MemAddr)
  -- Page 1: atomics, prefetch and walker instructions (R197-R199, R285-R287)
  | atomXchg (t : Ty) (sc : Scope) (o : AtomOrder) (d : Fin 128) (m : MemAddr)
  | atomAdd (t : Ty) (sc : Scope) (o : AtomOrder) (d : Fin 128) (m : MemAddr)
  | atomAnd (t : Ty) (sc : Scope) (o : AtomOrder) (d : Fin 128) (m : MemAddr)
  | atomOr (t : Ty) (sc : Scope) (o : AtomOrder) (d : Fin 128) (m : MemAddr)
  | atomXor (t : Ty) (sc : Scope) (o : AtomOrder) (d : Fin 128) (m : MemAddr)
  | atomMin (t : Ty) (sc : Scope) (o : AtomOrder) (d : Fin 128) (m : MemAddr)
  | atomMax (t : Ty) (sc : Scope) (o : AtomOrder) (d : Fin 128) (m : MemAddr)
  | atomLd (t : Ty) (sc : Scope) (o : AtomOrder) (d : Fin 128) (m : MemAddr)
  | atomSt (t : Ty) (sc : Scope) (o : AtomOrder) (d : Fin 128) (m : MemAddr)
  | cas (t : Ty) (sc : Scope) (o : AtomOrder) (d a b c : Fin 128)
  | pfch (t : Ty) (m : MemAddr)
  | wHop (a : Src)
  | wEmit (a : Fin 128) (n : Fin 32)
  | wDist (d a : Fin 128) (q : Fin 32)
  | wHeap (p : Fin 8) (a : Fin 128) (h : Fin 32)
  | wVisit (p : Fin 8) (a : Src) (t : Fin 32)
  -- Uniform page 0 (R151)
  | launch (d a : Fin 64)
  | xferTr (t : Ty) (cf : BitVec 16) (d a b : Fin 64)
  | cgLaunch (cf : BitVec 16) (a b : Fin 64)
  | sfLoad (fab : Fin 64) (d a : Fin 64)
  | sfBind (a b : Fin 64)
  | sfRun (cf : BitVec 16) (a b : Fin 64)
  | srchIssue (cf : BitVec 16) (a b : Fin 64)
  | srchVer (d a : Fin 64)
  | srchVerRead (d a : Fin 64)
  | collStart (cf : BitVec 16) (a : Fin 64)
  | tlbinvAll
  | tlbinvAsid (a : Fin 64)
  | tlbinvVa (a b : Fin 64)
  | dirReclaim (a b : Fin 64)
  | keyselLoad (a b : Fin 64)
  | keyselErase (a b : Fin 64)
  -- Steps of the core (R41-R64, R36, R213) and of memory (R79, R102, R108, R196, R395, R450)
  | draw (core : Nat)
  | registerGrant (core : Nat)
  | convergeStarveRelease (who : Who)
  | forcing (who : Who)
  | starvation (core slot : Nat) (o : SyncObj)
  | claimDeadlock (core : Nat)
  | coreRestart (core : Nat)
  | implicitRelease (who : Who) (n : Nat)
  | tableWalk (u : TlbUnit) (asid root : Nat) (va : DWord)
  | runAheadRollback (id : Nat)
  | batchEntryDeferred
  | gatherAccess (core : Nat)
  | accessAtHome
  -- Engine commands (R239-R274, R457, R467, R474)
  | commandHead (q : EngineQueue)
  | commandComplete (id : Nat)
  | commandEnd (id : Nat) (code : BitVec 16) (addr : DWord)
  | commandHold (id : Nat) (va : DWord)
  | multicastAbandon (id : Nat)
  | graphNodeIssue (core : Nat)
  | carderDeal (core : Nat)
  -- Stream fabric (R339, R341)
  | streamChunk (f slot : Nat)
  | cycleViolation (f slot node cycles : Nat)
  -- Search (R346-R364, R485)
  | searchBlockStart (stack : Nat)
  | searchNop (stack : Nat)
  | qload (stack : Nat)
  | hinit (stack : Nat)
  | scan (stack : Nat)
  | cent (stack : Nat)
  | hmerge (stack : Nat)
  | hout (stack : Nat)
  | vclr (stack : Nat)
  | walk (stack : Nat)
  | searchPreempt (stack : Nat)
  | searchResume (stack : Nat)
  | walkerThreadStart (stack : Nat)
  | hopTakeup (stack : Nat)
  | walkerMessage (dst : Nat)
  | exitNotice (stack : Nat)
  | walkStalled (stack : Nat)
  -- Launch front end (R105, R306-R319, R371, R490)
  | lqTailDoorbell (q : Fin 64) (v : BitVec 17)
  | lqEnable (q : Fin 64)
  | lqDisable (q : Fin 64)
  | lqDisableEffect (q : Fin 64)
  | recordAdmission
  | extentTranslation (g : Nat)
  | gridRecord (g : Nat)
  | gangRecord (g : Nat)
  | graphRecord (g : Nat)
  | waitOnValue (g : Nat)
  | waitOnValuePoll (g : Nat)
  | signalRecord (g : Nat)
  | teamPlacement
  | teamRetire (core slot : Nat)
  | gridRetire (g : Nat)
  -- Completions of instructions that take more than one step (R225, R111, R298, R301, R299)
  | phaseComplete (core ctx : Nat) (s : Scope) (pc : DWord)
  | tsyncComplete (core ctx : Nat) (pc : DWord)
  | tlbinvComplete (core ctx : Nat) (pc : DWord)
  | ctxsaveWrite (core ctx : Nat) (pc : DWord)
  | idleTimer (core slot : Nat)
  -- The host (R92, R368-R374, R385-R395, R420, R491, R492)
  | hostMemoryWrite (bar : Nat) (off : Nat) (bytes : List Byte) (ep : Bool)
  | hostMemoryRead (bar : Nat) (off : Nat) (n : Nat)
  | pcieUnsupportedRequest (addr : DWord)
  | pcieError (aerBit : Nat)
  | hostLinkDown
  | supervisorMailbox (v : DWord)
  | coldReset
  | warmReset
  | kseedLock
  | privLock
  | domainJoin (refused : Bool) (members : List Nat)
  | attestationStart
  | attestationDone
  | coreResume (core : Nat)
  | eqHeadWrite (n : Fin 4) (v : BitVec 32)
  | bqHeadWrite (v : BitVec 16)
  | registerWrite (off : Nat) (size : Nat) (v : DWord)
  -- Platform and failures (R381, R384, R413-R427, R501)
  | powerSample (pkgW coreA : Nat) (badRails : List (Fin 7))
  | temperatureSample (clusters stks : List Nat)
  | scrub (pa : Nat) (found : Soundness)
  | unitFence (u : FenceUnit)
  | coreIssueHang (core : Nat)
  | deviceStop
  | deviceStopLinkDrop
  -- The Eorex domain (R376-R379, R463, R493-R497)
  | remoteAccess (dev : Nat) (pa : Nat) (size : Nat) (key : Fin 64) (k : RemoteKind)
  | directoryRequest (dev : Nat) (line : Nat) (store : Bool)
  | snoop (line : Nat) (keep : Bool)
  | snoopReply (line : Nat) (data : List Byte)
  | invalidation (line : Nat)
  | snoopTimeout (line : Nat)
  | eorexPortFailure (port : Nat) (retries : Nat)
  | deviceLossNotice (dev : Nat)
  | collectiveDelivery (group round : Nat) (contribs : List (List Byte))
  | collectiveTimeout (group round : Nat) (mask : DWord)
  | collectiveAbort (group round : Nat) (code : BitVec 16) (mask : DWord)
  -- Rows the table lists last
  | illegalEncoding (w1 w2 : Word)
  | sleepEnd (who : Who)
  | hostLinkRetrained
  | powerDown
deriving DecidableEq, Repr

end Sys2Proof
end

