-- ==== Sys2Proof/Machine/State.lean ====
section
/-!
DEFINITION. The state of the HRN-7140 as plain data, and the machine right after reset (R385). Sparse tables are lists
of key and value pairs; an absent key stands for the reset value of that entry. Every field is listed with its rule in
INVENTORY.md, section State.
-/
namespace Sys2Proof.Machine

/-- A sparse table: at most one pair per key, an absent key at its reset value. -/
abbrev Table (κ α : Type) := List (κ × α)

/-- A residency slot of a core (R44). -/
abbrev TeamId := Nat × Nat

/-- What stops the machine. The model has one such case: `noSuchAgent` is raised by an event step that names a unit the
device does not have (a core above 191, a fabric above 63, ...). Safe: no such step exists in the hardware (R13, R17). -/
inductive Fault where
  | noSuchAgent
deriving DecidableEq, Repr

/-- What the model refuses. `notModelled` names an instruction without a meaning; safe. -/
inductive Refusal where
  | notModelled (mnemonic : String)
deriving DecidableEq, Repr

/-- A device step that is due, or that the outside world brings (R367, R379): the agenda's entries. Each stands for the
constructor of `Instr` of the same name, and `Machine/Agenda.lean` runs it by the same meaning. -/
inductive Due where
  -- Steps of the core (R41-R64, R36, R213) and of memory (R79, R102, R108, R196, R395, R450)
  | draw (core : Nat)
  | registerGrant (core : Nat)
  | convergeStarveRelease (who : Who)
  | forcing (who : Who)
  | starvation (core slot : Nat) (o : SyncObj)
  | claimDeadlock (core : Nat)
  | coreRestart (core : Nat)
  | implicitRelease (who : Who) (n : Nat)
  | tableWalk (u : TlbUnit) (asid root : Nat) (va : DWord)
  | runAheadRollback (id : Nat)
  | batchEntryDeferred
  | gatherAccess (core : Nat)
  | accessAtHome
  -- Engine commands (R239-R274, R457, R467, R474)
  | commandHead (q : EngineQueue)
  | commandComplete (id : Nat)
  | commandEnd (id : Nat) (code : BitVec 16) (addr : DWord)
  | commandHold (id : Nat) (va : DWord)
  | multicastAbandon (id : Nat)
  | graphNodeIssue (core : Nat)
  | carderDeal (core : Nat)
  -- Stream fabric (R339, R341)
  | streamChunk (f slot : Nat)
  | cycleViolation (f slot node cycles : Nat)
  -- Search (R346-R364, R485)
  | searchBlockStart (stack : Nat)
  | searchNop (stack : Nat)
  | qload (stack : Nat)
  | hinit (stack : Nat)
  | scan (stack : Nat)
  | cent (stack : Nat)
  | hmerge (stack : Nat)
  | hout (stack : Nat)
  | vclr (stack : Nat)
  | walk (stack : Nat)
  | searchPreempt (stack : Nat)
  | searchResume (stack : Nat)
  | walkerThreadStart (stack : Nat)
  | hopTakeup (stack : Nat)
  | walkerMessage (dst : Nat)
  | exitNotice (stack : Nat)
  | walkStalled (stack : Nat)
  -- Launch front end (R105, R306-R319, R371, R490)
  | lqTailDoorbell (q : Fin 64) (v : BitVec 17)
  | lqEnable (q : Fin 64)
  | lqDisable (q : Fin 64)
  | lqDisableEffect (q : Fin 64)
  | recordAdmission
  | extentTranslation (g : Nat)
  | gridRecord (g : Nat)
  | gangRecord (g : Nat)
  | graphRecord (g : Nat)
  | waitOnValue (g : Nat)
  | waitOnValuePoll (g : Nat)
  | signalRecord (g : Nat)
  | teamPlacement
  | teamRetire (core slot : Nat)
  | gridRetire (g : Nat)
  -- Completions of instructions that take more than one step (R225, R111, R298, R301, R299)
  | phaseComplete (core ctx : Nat) (s : Scope) (pc : DWord)
  | tsyncComplete (core ctx : Nat) (pc : DWord)
  | tlbinvComplete (core ctx : Nat) (pc : DWord)
  | ctxsaveWrite (core ctx : Nat) (pc : DWord)
  | idleTimer (core slot : Nat)
  -- The host (R92, R368-R374, R385-R395, R420, R491, R492)
  | hostMemoryWrite (bar : Nat) (off : Nat) (bytes : List Byte) (ep : Bool)
  | hostMemoryRead (bar : Nat) (off : Nat) (n : Nat)
  | pcieUnsupportedRequest (addr : DWord)
  | pcieError (aerBit : Nat)
  | hostLinkDown
  | supervisorMailbox (v : DWord)
  | coldReset
  | warmReset
  | kseedLock
  | privLock
  | domainJoin (refused : Bool) (members : List Nat)
  | attestationStart
  | attestationDone
  | coreResume (core : Nat)
  | eqHeadWrite (n : Fin 4) (v : BitVec 32)
  | bqHeadWrite (v : BitVec 16)
  | registerWrite (off : Nat) (size : Nat) (v : DWord)
  -- Platform and failures (R381, R384, R413-R427, R501)
  | powerSample (pkgW coreA : Nat) (badRails : List (Fin 7))
  | temperatureSample (clusters stks : List Nat)
  | scrub (pa : Nat) (found : Soundness)
  | unitFence (u : FenceUnit)
  | coreIssueHang (core : Nat)
  | deviceStop
  | deviceStopLinkDrop
  -- The Eorex domain (R376-R379, R463, R493-R497)
  | remoteAccess (dev : Nat) (pa : Nat) (size : Nat) (key : Fin 64) (k : RemoteKind)
  | directoryRequest (dev : Nat) (line : Nat) (store : Bool)
  | snoop (line : Nat) (keep : Bool)
  | snoopReply (line : Nat) (data : List Byte)
  | invalidation (line : Nat)
  | snoopTimeout (line : Nat)
  | eorexPortFailure (port : Nat) (retries : Nat)
  | deviceLossNotice (dev : Nat)
  | collectiveDelivery (group round : Nat) (contribs : List (List Byte))
  | collectiveTimeout (group round : Nat) (mask : DWord)
  | collectiveAbort (group round : Nat) (code : BitVec 16) (mask : DWord)
  -- Rows the table lists last
  | illegalEncoding (w1 w2 : Word)
  | sleepEnd (who : Who)
  | hostLinkRetrained
  | powerDown
deriving DecidableEq, Repr

/-! ### Threads, skeins, teams -/

/-- What a blocking wait waits for (R214), with the wait of a W skein or a spawned thread for registers (R40, R48). -/
inductive WaitOn where
  | bar (nb : Nat)
  | chan (c : Nat)
  | carder (chan : Option Nat)
  | hank (addr : Nat)
  | claim (n : Nat)
  | child (handle : Nat)
  | regs (n : Nat)
deriving DecidableEq, Repr

/-- The states of R30; an exited thread has no record. -/
inductive TState where
  | ready
  | blocked (w : WaitOn)
  | held
  | filing
  | filed (bobbin : Nat)
  | parked
deriving DecidableEq, Repr

/-- The unit that holds a command: its place in R239's table of queues. -/
inductive Engine where
  | matrix (core : Nat)
  | copy (core : Nat)
  | walker (core : Nat)
  | fabric (fab slot : Nat)
  | search (stack : Nat)
  | round (slot : Nat)
deriving DecidableEq, Repr

/-- A stall that is not a blocking wait (R214): the condition that ends it. -/
inductive Stall where
  | none
  | until (clk : Nat)
  | events (mask : BitVec 4)
  | completion
  | owner
  | ownerRoom
  | queueRoom (e : Engine)
  | bank (lo n : Nat)
  | teamIdle
  | handle (fab slot : Nat)
  | carder
  | childTable
  | gather
  | walkRoom (n : Nat)
  | message
  | peer (w : Nat)
  | hopRoom (stack : Nat)
  | emitRoom (c : Nat)
  | grant (line : Nat)
deriving DecidableEq, Repr

/-- The seven `$trap` registers (R145, R433). -/
structure TrapRegs where
  code : Word := 0
  op : Word := 0
  d : Word := 0
  a : Word := 0
  b : Word := 0
  imm : Word := 0
  pc : DWord := 0
deriving DecidableEq, Repr

/-- The checkpoint of R108 step 2. -/
structure Checkpoint where
  pc : DWord
  regs : List Word
  preds : BitVec 8
  rstack : List DWord
  fflags : Flags
  waited : Bool := false
  trapActive : Bool := false
deriving DecidableEq, Repr

/-- An exact value with a special case: the distance latch and heap entries of R132, R133. -/
inductive DistVal where
  | fin (num : Int) (den : Nat)
  | negInf
  | posInf
  | nan
deriving DecidableEq, Repr

/-- The search context a walker thread carries (R283, R362). -/
structure WalkCtx where
  stack : Nat
  block : Nat
  cmd : Nat
  origin : Nat
  core : Nat
  team : Nat
  asid : Nat
deriving DecidableEq, Repr

/-- Whose a write is (R77, R78): the threads that made it, and the core of the party, which the host, another device and the
device's own units have none of; `far` marks another device. -/
structure Party where
  whos : List Who := []
  core : Option Nat := none
  far : Bool := false
deriving DecidableEq, Repr

/-- The numbers of the newest writes at the instants of a thread's last acquires, by scope, and of its start (R79, R154). -/
structure Acq where
  core : Nat := 0
  cluster : Nat := 0
  dev : Nat := 0
  dom : Nat := 0
  start : Nat := 0
deriving DecidableEq, Repr

/-- A write that a thread has seen in a range (R82), or that a wait on an engine barrier acquires (R89). -/
structure Seen where
  loc : Nat
  n : Nat
  seq : Nat
deriving DecidableEq, Repr

/-- The state of one thread (R28, R30, R433); walker threads (R283) use the same record. -/
structure Thread where
  pc : DWord := 0
  regs : List Word := []
  preds : BitVec 8 := 0
  rstack : List DWord := []
  fflags : Flags := 0
  state : TState := .ready
  stall : Stall := .none
  ctx : Nat := 0
  lane : Nat := 0
  waited : Bool := false
  pass : Nat := 0
  yielding : Bool := false
  sleepIdle : Nat := 0
  lastIssue : Nat := 0
  readySince : Nat := 0
  heldSince : Nat := 0
  released : Bool := false
  trapActive : Bool := false
  trap : TrapRegs := {}
  refault : Nat := 0
  refaultPc : DWord := 0
  refetch : Bool := false
  retried : Bool := false
  runAhead : Option Nat := none
  ck : Option Checkpoint := none
  unkRegs : List Nat := []
  unkPreds : BitVec 8 := 0
  nextFile : DWord := 0
  args : List Word := []
  order : Nat := 0
  walk : Option WalkCtx := none
  latch : Option DistVal := none
  msgs : List (List Word) := []
  stopped : Bool := false
  idling : Bool := false
  forced : Bool := false
  acq : Acq := {}
  seen : List Seen := []
deriving DecidableEq, Repr

/-- A skein context in use (R31), with k16 to k63 (R144). -/
structure Skein where
  slot : Nat
  pipe : Nat
  formed : Nat
  ks : List DWord := List.replicate 48 0
  readySince : Option Nat := none
  passed : Nat := 0
  young : Bool := false
  granted : Bool := true
  owes : Nat := 0
deriving DecidableEq, Repr

/-- A named barrier (R215); one that `bar.owe` reached before any declaration has `declared` false (R216, R220). `wrote` holds
what the engine commands that arrived in the current phase wrote, `wroteLast` the same of the last completed one (R89). -/
structure Bar where
  kind : BarKind
  cls : Nat
  count : Nat
  pending : Nat
  quota : Nat
  balance : Int
  phase : Bool := false
  members : List Who := []
  arrived : List Who := []
  lastOp : Nat := 0
  blockedSince : Option Nat := none
  reported : Bool := false
  declared : Bool := true
  wrote : List Seen := []
  wroteLast : List Seen := []
deriving DecidableEq, Repr

/-- What a channel is bound to (R226, R282). -/
inductive ChanKind where
  | team
  | gang
  | carder
  | emissions
deriving DecidableEq, Repr

/-- A bound channel (R226 to R230). -/
structure Chan where
  kind : ChanKind
  cls : Nat
  owner : TeamId
  depth : Nat
  off : Nat
  elems : List DWord := []
  desc : DWord := 0
  lastOp : Nat := 0
  blockedSince : Option Nat := none
  reported : Bool := false
deriving DecidableEq, Repr

/-- Buffer states of R74. -/
inductive BufState where
  | empty
  | filling
  | full
  | draining
deriving DecidableEq, Repr

/-- Who may fill a buffer (R73). -/
inductive BufProd where
  | team
  | engine
  | any
deriving DecidableEq, Repr

/-- A declared buffer: byte offset from `$tile.base`, byte size (R73). -/
structure Buf where
  off : Nat
  size : Nat
  prod : BufProd
  state : BufState := .empty
deriving DecidableEq, Repr

/-- A live hank (R231); its entries stand in the ring in tile memory, keyed by the header's location. -/
structure Hank where
  owner : TeamId
  cls : Nat
  scope : Scope
  cap : Nat
  top : Nat := 0
  bottom : Nat := 0
  va : DWord := 0
  lastOp : Nat := 0
  blockedSince : Option Nat := none
  reported : Bool := false
deriving DecidableEq, Repr

/-- A resident or saved team (R44, R47). -/
structure Team where
  grid : Nat
  index : Nat
  size : Nat
  gridSize : Nat
  depth : Nat := 0
  cls : Nat := 0
  sup : Bool := false
  debug : Bool := false
  ks : List DWord := List.replicate 16 0
  fmode : BitVec 3 := 1
  fmodeNew : Option (Nat × BitVec 3) := none
  tileBase : Nat := 0
  tileSize : Nat := 0
  accBase : Nat := 0
  accCount : Nat := 0
  banks : List Nat := []
  regs : Nat := 32
  bars : Table Nat Bar := []
  chans : Table Nat Chan := []
  guards : List (Option Bool) := List.replicate 8 none
  guardsNew : List (Nat × Option Bool) := []
  bufs : Table Nat Buf := []
  bufsNew : List (Nat × BufState) := []
  asid : Nat := 0
  root : Nat := 0
  queue : Nat := 0
  prio : Nat := 0
  events : BitVec 4 := 0
  eventsClear : BitVec 4 := 0
  timers : List Nat := []
  children : List Nat := []
  saved : Bool := false
  saving : Bool := false
  replayed : Bool := false
  views : Table Nat (Acq × List Seen) := []
  ending : Option (Nat × Nat × Nat) := none
deriving DecidableEq, Repr

/-- A bobbin in use (R38); its threads are those filed in it. -/
structure Bobbin where
  slot : Nat
  pc : DWord
  threads : List (Nat × Nat)
deriving DecidableEq, Repr

/-- A waiting request on a core's register pool (R40, R48, R58, R59). -/
inductive PoolReq where
  | claim (slot tid n : Nat)
  | spawn (slot tid n : Nat)
  | skein (ctx : Nat)
deriving DecidableEq, Repr

/-! ### Engines -/

/-- A completion field (R240). -/
structure CompField where
  rel : Bool := false
  guard : Option (Nat × Bool) := none
  arrive : Option Nat := none
deriving DecidableEq, Repr

/-- One operand of a matrix operation (R250, R251). -/
structure MxOperand where
  ty : Ty
  addr : DWord
  stride : Nat
  tag : Nat
  rel : Bool
  cnt : Nat
  mc : Bool
  tr : Bool
  src : Nat
  scale : Option DWord
deriving DecidableEq, Repr

/-- A matrix operation's parameters (R250). -/
structure MxOp where
  m : Nat
  n : Nat
  k : Nat
  bank : Nat
  zero : Bool
  a : MxOperand
  b : MxOperand
  sparse : Option DWord
  block : DWord
deriving DecidableEq, Repr

/-- A round of a collective (R377): `op` 1 to 4, and an element type for a reduction. -/
structure CollOp where
  group : Nat
  round : Nat
  op : Nat
  ty : Option Ty
  k : Nat
  tmo : Nat
  src : DWord
  dst : DWord
  count : Nat
  members : List Nat
deriving DecidableEq, Repr

/-- What an engine command does (R239, R265); a search lists its `hout` ranges with their records' indexes (R345). -/
inductive CmdOp where
  | xfer (dst src : DWord) (len : Nat)
  | xferMc (off src : DWord) (len mask : Nat)
  | xferTr (dst src : DWord) (ty : Ty) (rows cols dstr sstr : Nat)
  | mx (op : MxOp)
  | accZero (bank count : Nat)
  | accDrain (dst : DWord) (ctl : DWord)
  | accPack (dst : DWord) (ctl : DWord)
  | graph (gid : Nat)
  | sfRun (fab slot : Nat) (dst : DWord)
  | search (stack block : Nat) (houts : List (Nat × DWord × Nat))
  | coll (r : CollOp)
deriving DecidableEq, Repr

/-- A buffer by core, residency slot and number. -/
structure BufRef where
  core : Nat
  slot : Nat
  num : Nat
deriving DecidableEq, Repr

/-- A write of an engine that its command has not yet released (R88); `home` numbers the newest write before it at its home,
where it had to be performed before its release (R101, R305). -/
structure EngWrite where
  loc : Nat
  key : Nat
  bytes : List Byte
  poison : Bool := false
  home : Option Nat := none
deriving DecidableEq, Repr

/-- An engine command between issue and completion (R239): `acq` is the number of the newest write at its issue (R87),
`writes` what it has written, newest first; `laterDsts` and `laterRels` are the buffers in other cores' slices that its leaving
of the head has yet to reach (R76). A matrix operation's `stage` is 1 once its banks are written; a round's `stage` is 0 before it has contributed its source
(then in `image`), 1 until the round is delivered and 2 once its result (then in `image`) is here. -/
structure Cmd where
  id : Nat
  engine : Engine
  team : TeamId
  tag : Nat
  asid : Nat
  grid : Nat
  op : CmdOp
  cf : CompField := {}
  node : Option (Nat × Nat) := none
  left : Bool := false
  holdVa : Option DWord := none
  waitReplay : Bool := false
  retried : Bool := false
  refault : Nat := 0
  dsts : List BufRef := []
  rels : List BufRef := []
  laterDsts : List BufRef := []
  laterRels : List BufRef := []
  done : Nat := 0
  info0 : Nat := 0
  info1 : Nat := 0
  image : List Byte := []
  stage : Nat := 0
  acq : Nat := 0
  writes : List EngWrite := []
deriving DecidableEq, Repr

/-- A live command graph (R265, R266); a graph record's (R320) keeps its array's contents and its counts here. -/
structure Graph where
  core : Nat
  team : TeamId
  addr : DWord
  loc : Nat
  n : Nat
  slot : Nat := 0
  ready : List (Nat × Nat)
  running : List Nat := []
  finished : Nat := 0
  dead : Bool := false
  cf : CompField := {}
  cmd : Nat := 0
  record : Option Nat := none
  started : Bool := false
  image : List Byte := []
  counts : List Nat := []
deriving DecidableEq, Repr

/-- A multicast transfer in course (R253, R474): `data` holds the bytes that have entered its holding slots so far. -/
structure Multicast where
  core : Nat
  addr : Nat
  bytes : Nat
  tag : Nat
  want : Nat
  cmds : List Nat
  presented : Nat
  start : Nat
  data : List Byte := []
deriving DecidableEq, Repr

/-- The gang that issues the current instruction: the MODEL's own record (log entry 5). -/
structure Issue where
  core : Nat := 0
  ctx : Nat := 0
  lanes : List (Nat × Who) := []
  pc : DWord := 0
  w1 : Word := 0
  w2 : Word := 0
  two : Bool := false
  runAhead : Option Nat := none
deriving DecidableEq, Repr

/-- One lane's request in a core's gather collector (R196), with the clk of its entry, the gang's instruction and, for a load
performed, its value. -/
structure GatherReq where
  who : Who
  va : DWord
  size : Nat
  store : Option DWord
  dst : Option (Dst × Bool) := none
  ty : Ty := .i32
  loc : Nat
  key : Nat := 0
  line : Bool := false
  tso : Bool := false
  since : Nat := 0
  iss : Issue
  val : Option DWord := none
deriving DecidableEq, Repr

/-- A stream of an open record (R268). -/
structure CStream where
  addr : DWord
  vals : DWord
  enc : Nat
  len : Nat
  base : Nat
deriving DecidableEq, Repr

/-- A carder's open record and cursor (R268 to R274): `mode` is 1 for intersect, 2 for merge; `fed` holds the buffered
entries of fed streams, `fedLast` the last coordinate decoded of each and `fedEnd` those that have ended; `heldAt` is the last
address at which it was held. A split is in course while `spJ` is below `spK`. -/
structure Carder where
  slot : Nat
  mode : Nat
  record : DWord
  vt : Nat := 0
  streams : List CStream := []
  posA : Nat := 0
  posB : Nat := 0
  spJ : Nat := 0
  spA : Nat := 0
  spB : Nat := 0
  spN : Nat := 0
  spK : Nat := 0
  split : Nat := 0
  fib : List Nat := []
  port : List DWord := []
  fed : Table Nat (List (Word × Word)) := []
  fedLast : Table Nat Nat := []
  fedEnd : List Nat := []
  done : Bool := false
  faulted : Bool := false
  acq : Nat := 0
  held : Option Nat := none
  heldAt : Nat := 0
  retried : Bool := false
  refault : Nat := 0
deriving DecidableEq, Repr

/-- What a saved cursor's record has no room for: the buffered entries of its fed streams, kept by the device for the team that
saved it (R274; log entry 72). -/
structure FedKept where
  slot : Nat
  cursor : List Byte
  fed : Table Nat (List (Word × Word))
  fedLast : Table Nat Nat
  fedEnd : List Nat
deriving DecidableEq, Repr

/-- The state of one core (R19, R43, R56, R59, R61). -/
structure Core where
  drawtime : Nat := 0x100
  starve : Nat := 0x10000
  drawtimeNew : Option Nat := none
  starveNew : Option Nat := none
  free : Nat := Config.poolRegs
  poolQueue : List PoolReq := []
  bobbins : Table Nat Bobbin := []
  lastDraw : Nat := 0
  claimSince : Option Nat := none
  gated : Bool := false
  restartAt : Option Nat := none
  halted : Bool := false
  haltAt : Nat := 0
  fenced : Bool := false
  owner : Option Nat := none
  ownerQueue : List Nat := []
  carder : Option Carder := none
  fedKept : List FedKept := []
  gather : List GatherReq := []
  saveTags : Table Nat Nat := []
  saveCount : Nat := 0
  uniformClk : Nat := 0
  accPoison : List Nat := []
deriving DecidableEq, Repr

/-! ### Memory -/

/-- A store issued and not yet at its home (R78 to R82): its thread's core and place, its location, its bytes, the widest
scope it has been released at (0 none, 1 core, 2 cluster), and the clk by which it reaches the home (R91). A store of a walk,
which its completion releases (R361), has `home` as an engine's write does. -/
structure PendStore where
  who : Who
  core : Nat
  loc : Nat
  bytes : List Byte
  rel : Nat := 0
  key : Nat := 0
  due : Option Nat := none
  home : Option Nat := none
deriving DecidableEq, Repr

/-- A write performed at its home, in the order of the homes (R81): its number, whose it is, the key slot and location, and the
bytes that it replaced. -/
structure Wrote where
  seq : Nat
  party : Party
  key : Nat
  loc : Nat
  old : List Byte
deriving DecidableEq, Repr

/-- A translation held by a TLB (R101). -/
structure TlbEntry where
  asid : Nat
  base : Nat
  log : Nat
  leaf : DWord
deriving DecidableEq, Repr

/-- Memory and translation state (R66, R82, R101, R102, R423). `hist` lists the writes at the homes, newest first, and `seq`
counts them: the MODEL's own record of what an older load value may be (log entry 6); `early` numbers those that an implicit
release has performed and that nothing on the device has met since, which a host load may still precede (R85, R95); `snaps`
gives for each line of a core's snapshot the count at which it was filled. -/
structure Mem where
  cells : List Host.Cell := []
  poison : List Nat := []
  lineKeys : Table Nat (BitVec 256) := []
  keys : Table Nat (BitVec 256) := []
  stores : List PendStore := []
  seq : Nat := 0
  hist : List Wrote := []
  early : List Nat := []
  snaps : Table Nat (Table Nat Nat) := []
  tlbs : Table TlbUnit (List TlbEntry) := []
  walkCache : List (Nat × Nat × Nat × DWord) := []
  walkQueue : List (TlbUnit × Nat × Nat × DWord) := []
deriving DecidableEq, Repr

/-! ### Launch front end -/

/-- A launch queue's registers (R371). -/
structure LaunchQueue where
  base : DWord := 0
  size : Nat := 0
  prio : Nat := 0
  priv : Bool := false
  en : Bool := false
  tail : Nat := 0
  done : Nat := 0
  head : Nat := 0
  stop : Bool := false
  code : Nat := 0
  disabling : Bool := false
  live : List Nat := []
deriving DecidableEq, Repr

/-- One run of an extent table (R105): virtual base, bytes, physical base, the first page's leaf and its level. -/
structure ExtRun where
  va : Nat
  bytes : Nat
  pa : Nat
  leaf : DWord
  level : Nat := 0
deriving DecidableEq, Repr

/-- One extent of a launch (R104, R105). -/
structure Extent where
  base : Nat
  len : Nat
  write : Bool
  runs : List ExtRun := []
deriving DecidableEq, Repr

/-- Kinds of launch records (R308). -/
inductive RecKind where
  | grid
  | gang
  | graph
  | waitOn
  | signal
deriving DecidableEq, Repr

/-- How far a record has come (R307, R313). -/
inductive RecState where
  | checked
  | held
  | translated
  | admitted
  | completed
deriving DecidableEq, Repr

/-- A kernel's declarations (R312). -/
structure Kernel where
  entry : DWord
  tile : Nat
  acc : Nat
  regs : Nat
  threads : Nat
  ext : Nat
  decls : List (DWord × DWord)
deriving DecidableEq, Repr

/-- A launch record in course, with its grid (R307 to R320). -/
structure Grid where
  kind : RecKind
  queue : Nat
  prio : Nat
  unit : Nat := 0
  seq : Nat
  cls : Nat := 0
  fence : Bool := false
  sup : Bool := false
  debug : Bool := false
  irq : Bool := false
  parent : Option TeamId := none
  parentGrid : Option Nat := none
  handle : Nat := 0
  depth : Nat := 0
  asid : Nat := 0
  root : Nat := 0
  teams : Nat := 0
  doneAddr : DWord := 0
  args : List DWord := []
  addr : DWord := 0
  value : DWord := 0
  mask : DWord := 0
  cond : Nat := 0
  nodes : Nat := 0
  core : Nat := 0
  extents : List (Nat × Extent) := []
  kernel : Option Kernel := none
  state : RecState := .checked
  retry : Bool := false
  retried : Bool := false
  admitted : Nat := 0
  placed : Nat := 0
  retired : Nat := 0
  status : Nat := 0
  ended : Bool := false
  cluster : Nat := 0
  gangBars : Table Nat Bar := []
  gangChans : Table Nat Chan := []
  lastPoll : Nat := 0
  pendAt : Option Nat := none
deriving DecidableEq, Repr

/-- Launch front end and task scheduler (R306 to R320). -/
structure Front where
  queues : Table Nat LaunchQueue := []
  skip : List Nat := List.replicate 8 0
  rr : List Nat := List.replicate 8 71
  grids : Table Nat Grid := []
  nextGrid : Nat := 1
  lastAdmit : Nat := 0
  lastPlace : Nat := 0
  admitCount : Nat := 0
deriving DecidableEq, Repr

/-! ### Stream fabrics and search -/

/-- A node of a loaded stream graph (R333). -/
structure SgNode where
  op : Nat
  ina : Nat
  inb : Nat
  p1 : Nat
  p2 : DWord
  table : List Byte := []
deriving DecidableEq, Repr

/-- How a run ended (R479): its code, the node or 0x3F, the chunk, the code's own figure, the graph input bytes consumed
and the output that stands. -/
structure FabEnd where
  code : Nat
  node : Nat
  chunk : Nat
  info : Nat
  consumed : Nat
  stands : List Byte
deriving DecidableEq, Repr

/-- A fabric slot in use (R275, R276, R332); a run whose nodes wait for one another for good is `stuck` (R340). -/
structure FabSlot where
  owner : TeamId
  wdcyc : Nat
  wdx : Nat
  chunk : Nat
  out : Nat
  outp : Nat
  stat : DWord
  nodes : List SgNode
  bind : Option (DWord × Nat × Nat × Bool) := none
  spent : Bool := false
  run : Option Nat := none
  dst : DWord := 0
  input : List Byte := []
  output : Option (List Byte) := none
  doomed : Option FabEnd := none
  stuck : Bool := false
  unusable : Bool := false
deriving DecidableEq, Repr

/-- A top-k heap (R349, R355): entries in ranking order. -/
structure Heap where
  cap : Nat := 0
  asid : Option Nat := none
  entries : List (DistVal × Nat) := []
  offered : Nat := 0
deriving DecidableEq, Repr

/-- A query slot (R348, R349). -/
structure QSlot where
  dim : Nat
  fmt : Ty
  bytes : List Byte
deriving DecidableEq, Repr

/-- One search command (R347). -/
structure SearchCmd where
  op : Nat
  q : Nat
  h : Nat
  t : Nat
  cur : Bool
  metric : Bool
  fmt : Nat
  stk : Nat
  dim : Nat
  addr : DWord
  count : Nat
  snap : Nat
  fval : Nat
  fmask : Nat
  fcond : Nat
  arg : DWord
deriving DecidableEq, Repr

/-- The fault that ends a walk, with its thread's number (R484). -/
structure WalkEnd where
  code : Nat
  addr : DWord
  walker : Nat
  info0 : DWord := 0
  info1 : DWord := 0
deriving DecidableEq, Repr

/-- A command block (R345, R346): `dim` counts the elements of the current record whose distance is summed, in `part`, with
the record's id (R364); `snapAcq` numbers the newest write when a scan read the published version (R351), and `parkedAt` is the
last address at which it was parked. -/
structure Block where
  entry : Nat
  cmdId : Nat
  core : Nat
  team : TeamId
  asid : Nat
  root : Nat
  prio : Nat
  order : Nat
  records : List SearchCmd
  pos : Nat := 0
  cursor : Nat := 0
  dim : Nat := 0
  part : DistVal := .fin 0 1
  recId : Nat := 0
  snapTaken : Option Nat := none
  snapAcq : Nat := 0
  walkLeft : Nat := 0
  walkLive : Nat := 0
  walkOrd : Nat := 0
  walkEnd : Option WalkEnd := none
  lastWalk : Nat := 0
  wrote : Nat := 0
  parked : Bool := false
  parkedAt : Nat := 0
  retried : Bool := false
  refault : Nat := 0
  started : Bool := false
  preempting : Bool := false
  stores : List PendStore := []
deriving DecidableEq, Repr

/-- A walker message (R362): the two words of its header, the registers of a send or a hop, and the next PC of a hop. -/
structure WalkMsg where
  h0 : DWord
  h1 : DWord
  body : List Word := []
  pc : DWord := 0
deriving DecidableEq, Repr

/-- One search base die (R345 to R366). -/
structure SearchDie where
  slots : Table Nat QSlot := []
  heaps : Table Nat Heap := []
  visited : Table Nat (Nat × List Nat) := []
  blocks : List Block := []
  running : Option Nat := none
  preempted : List Nat := []
  hops : List WalkMsg := []
  sends : List WalkMsg := []
  notices : List WalkMsg := []
  saveLost : Bool := false
deriving DecidableEq, Repr

/-! ### The domain -/

/-- A line of the home directory (R379, R463): the devices that hold a copy, the owner, the requests waiting in their
order of arrival, and the clk of the snoop sent to the owner. -/
structure DirEntry where
  copies : List Nat := []
  owner : Option Nat := none
  ownerLost : Bool := false
  lostOwner : Nat := 0
  waiting : List (Nat × Bool) := []
  snooped : Option Nat := none
deriving DecidableEq, Repr

/-- The Eorex domain as this device sees it (R375 to R379, R495 to R497): `aborted` holds, by group, the round, code and
contribution mask of its last abort; `reply` and `replyCode` what this device last answered another with. -/
structure Domain where
  dev : Nat := 0
  members : List Nat := []
  lost : List Nat := []
  dir : Table Nat DirEntry := []
  held : Table Nat Bool := []
  aborted : Table Nat (Nat × Nat × Nat) := []
  portDown : List Nat := []
  reply : List Byte := []
  replyCode : Nat := 0
deriving DecidableEq, Repr

/-! ### Errors, platform, host -/

/-- An error queue's registers (R420). -/
structure ErrQueue where
  base : Nat := 0
  ovf : Bool := false
  log : Nat := 0
  tail : Nat := 0
  head : Nat := 0
  lost : Nat := 0
deriving DecidableEq, Repr

/-- A batch entry of R110 with what its record says: the reporting unit, the thread where one faulted, the faulting access and
its address (R395, R452). -/
structure BatchEntry where
  code : Nat
  core : Nat
  asid : Nat
  pc : DWord
  granules : List (Nat × Bool × Bool)
  refault : Nat
  team : Option TeamId
  tag : Nat
  kind : Nat := 1
  index : Nat
  tid : Option Nat := none
  access : Nat
  addr : DWord
deriving DecidableEq, Repr

/-- What an error record says (R419). -/
structure ErrRec where
  code : Nat
  sev : Nat
  kind : Nat
  index : Nat := 0
  thr : Option Nat := none
  slot : Nat := 0
  asid : Nat := 0
  pc : DWord := 0
  addr : DWord := 0
  phys : Bool := false
  tag : Nat := 0
  info0 : DWord := 0
  info1 : DWord := 0
deriving DecidableEq, Repr

/-- Error queues and the batch ring (R393, R395, R420, R421): `raised` holds the records of the clk, which its end writes in
their order. -/
structure Errs where
  raised : List ErrRec := []
  queues : List ErrQueue := List.replicate 4 {}
  seq : Nat := 0
  corrected : Table (Nat × Nat) (Nat × Nat) := []
  bqBase : Nat := 0
  bqLog : Nat := 0
  bqTail : Nat := 0
  bqHead : Nat := 0
  batchSeq : Nat := 0
  waiting : List BatchEntry := []
deriving DecidableEq, Repr

/-- A run-ahead (R108): the skein, its private scalars (R289), its count and its batch. -/
structure RunAhead where
  id : Nat
  core : Nat
  ctx : Nat
  count : Nat := 0
  ks : List DWord
  unkKs : List Nat := []
  granules : List (Nat × Bool × Bool)
  code : Nat
  pc : DWord
  asid : Nat
  access : Nat
  addr : DWord
  whos : List Who
  stoppedWhos : List Who := []
deriving DecidableEq, Repr

/-- The supervisor instruction that a completion event finishes (R298, R301). -/
structure Pending where
  core : Nat
  ctx : Nat
  slot : Nat
  area : DWord
  dest : Nat
deriving DecidableEq, Repr

/-- The MSI-X table after reset (R369): by the PCI Express rules each of the 67 entries is masked, and the rest is 0 (log
entry 70). -/
def msixReset : List Byte := (List.range 67).flatMap (fun _ => List.replicate 12 0 ++ [1, 0, 0, 0])

/-- Management block, power, link and fence state (R380 to R395, R415, R491 to R493). -/
structure Plat where
  boot : BitVec 8 := 0
  trip : Bool := false
  thermTrip : Bool := false
  msDom : Bool := false
  ready : Bool := true
  lkKseed : Bool := false
  lkPriv : Bool := false
  domEn : Bool := false
  domDev : Nat := 0
  pwLim : Nat := 2000
  pwFrac : Nat := 16
  pwAvg : Nat := 0
  samples : List Nat := []
  lastFall : Option Nat := none
  lastRise : Option Nat := none
  hotDie : Bool := false
  tpStack : Nat := 0
  tpCore : Nat := 0
  hotStacks : List Nat := []
  hkSlot : Nat := 0
  kseed : List Byte := List.replicate 32 0
  wrapKey : Option (BitVec 256) := none
  attNonce : List Byte := List.replicate 32 0
  attAddr : Nat := 0
  atBusy : Bool := false
  meas : List (BitVec 512) := []
  resets : Nat := 0
  fsSlice : List Nat := []
  fsStack : List Nat := []
  fsFabric : List Nat := []
  fsWalker : List Nat := []
  fsPort : List Nat := []
  sliceErrs : Table Nat (List (Nat × Nat)) := []
  stopped : Bool := false
  stopAt : Nat := 0
  off : Bool := false
  linkUp : Bool := true
  msix : List Byte := msixReset
  msixPend : List Nat := []
  sent : List Nat := []
  reply : List Byte := []
  replyPoison : Bool := false
deriving DecidableEq, Repr

/-- Clock, agenda and issue of the model (log entries 2, 4, 5). -/
structure Sys where
  clk : Nat := 0
  agenda : List Due := []
  turns : List (Nat × Nat) := []
  issue : Issue := {}
  free : Nat := 0
  nextOrder : Nat := 0
  nextCmd : Nat := 0
  nextRun : Nat := 0
deriving DecidableEq, Repr

/-- Bound registers and the published version (R235, R280). -/
structure Sync where
  cluster : Table Nat DWord := []
  device : Table Nat DWord := []
  published : Word := 0
deriving DecidableEq, Repr

/-- The whole machine. -/
structure State where
  sys : Sys := {}
  threads : Table Who Thread := []
  skeins : Table (Nat × Nat) Skein := []
  teams : Table TeamId Team := []
  cores : Table Nat Core := []
  hanks : Table Nat Hank := []
  mem : Mem := {}
  accs : Table Nat DWord := []
  sync : Sync := {}
  cmds : List Cmd := []
  graphs : Table Nat Graph := []
  casts : List Multicast := []
  runs : List RunAhead := []
  pend : List Pending := []
  front : Front := {}
  fabs : Table (Nat × Nat) FabSlot := []
  dies : Table Nat SearchDie := []
  dom : Domain := {}
  errs : Errs := {}
  plat : Plat := {}
deriving DecidableEq, Repr

/-- Measuring a digest d into a register sets m := SHAKE256(m ‖ d) (R389). -/
def measured (m : BitVec 512) (d : List Byte) : BitVec 512 :=
  Config.shake256 ((List.range 64).map (fun i => m.extractLsb' (8 * i) 8) ++ d)

/-- Measurement i of bring-up number n, which stopped at step `failed` or at none (R386, R389): it starts at zero, and step 1
extends register 0, step 3 registers 1 and 2, step 4 register 3. -/
def measurement (n failed i : Nat) : BitVec 512 :=
  let step := if i = 0 then 1 else if i ≤ 2 then 3 else 4
  if i ≤ 3 ∧ (failed = 0 ∨ step < failed) then measured 0 (Config.digest n i) else 0

/-- The machine right after reset number n, whose bring-up stopped at step `failed`, 0 for none (R385, R386, R389), with the
values that log entries 1 to 3 name. -/
def State.resetNumber (n failed : Nat) : State :=
  { plat := { meas := (List.range 8).map (measurement n failed), resets := n, ready := failed = 0, boot := BitVec.ofNat 8 failed },
    mem := { keys := if failed = 0 then [(0, Config.freshKey n)] else [] } }

/-- The machine right after reset (R385). -/
def State.reset : State := State.resetNumber 0 0

end Sys2Proof.Machine
end

