-- ==== Sys2Proof/Machine/Bits.lean ====
section
/-!
DEFINITION. Helpers over sparse tables, bytes and bit fields: byte order is decided here once (R7, little-endian).
-/
namespace Sys2Proof.Machine

/-- The value of a key, if the table lists it. -/
def Table.find [DecidableEq κ] : Table κ α → κ → Option α
  | [], _ => none
  | (k', v) :: t, k => if k' = k then some v else Table.find t k

/-- The table with one key's value replaced, or added at the end. -/
def Table.put [DecidableEq κ] : Table κ α → κ → α → Table κ α
  | [], k, v => [(k, v)]
  | (k', v') :: t, k, v => if k' = k then (k, v) :: t else (k', v') :: Table.put t k v

/-- The table without a key. -/
def Table.del [DecidableEq κ] (t : Table κ α) (k : κ) : Table κ α := t.filter (fun p => !decide (p.1 = k))

/-- The table with one listed value changed. -/
def Table.upd [DecidableEq κ] (t : Table κ α) (k : κ) (f : α → α) : Table κ α :=
  match t.find k with
  | some v => t.put k (f v)
  | none => t

/-- Bits [hi:lo] of a number. -/
def bitsOf (x hi lo : Nat) : Nat := x / 2 ^ lo % 2 ^ (hi + 1 - lo)

/-- Bits [hi:lo] of a 64-bit word as a number. -/
def dfield (x : DWord) (hi lo : Nat) : Nat := bitsOf x.toNat hi lo

/-- Bit n of a 64-bit word. -/
def dbit (x : DWord) (n : Nat) : Bool := x.getLsbD n

/-- The low w bits of n as a two's-complement number. -/
def signedOf (w n : Nat) : Int := if n % 2 ^ w < 2 ^ (w - 1) then (n % 2 ^ w : Nat) else (n % 2 ^ w : Nat) - (2 ^ w : Nat)

/-- An integer modulo 2^w. -/
def wrapTo (w : Nat) (i : Int) : Nat := (i % ((2 ^ w : Nat) : Int)).toNat

def dw (n : Nat) : DWord := BitVec.ofNat 64 n
def wd (n : Nat) : Word := BitVec.ofNat 32 n

/-- n as `count` bytes, least significant first (R7). -/
def bytesOf : Nat → Nat → List Byte
  | 0, _ => []
  | c + 1, n => BitVec.ofNat 8 n :: bytesOf c (n / 256)

/-- The number that bytes spell, least significant first (R7). -/
def numOfBytes : List Byte → Nat
  | [] => 0
  | b :: bs => b.toNat + 256 * numOfBytes bs

/-- n rounded up to a multiple of a. -/
def alignUp (a n : Nat) : Nat := (n + a - 1) / a * a

/-- The first m elements, with a default where the list is short. -/
def padTo (m : Nat) (d : α) (l : List α) : List α := (l ++ List.replicate m d).take m

/-- A list with one element replaced; unchanged where the index is beyond it. -/
def setAt (l : List α) (n : Nat) (v : α) : List α := l.set n v

/-- A number added to a list of numbers once. -/
def addOnce [DecidableEq α] (l : List α) (x : α) : List α := if x ∈ l then l else l ++ [x]

/-- Insertion in a list kept in rising order, once. -/
def insertNat : List Nat → Nat → List Nat
  | [], x => [x]
  | y :: ys, x => if x < y then x :: y :: ys else if x = y then y :: ys else y :: insertNat ys x

/-- Insertion before the first element that x precedes; `le a b` says that a may stand before b. -/
def insertBy (le : α → α → Bool) (x : α) : List α → List α
  | [] => [x]
  | y :: ys => if le y x then y :: insertBy le x ys else x :: y :: ys

/-- A stable sort. -/
def sortBy (le : α → α → Bool) (l : List α) : List α := l.foldl (fun acc x => insertBy le x acc) []

/-- The sum of a list of numbers. -/
def sumOf : List Nat → Nat
  | [] => 0
  | x :: xs => x + sumOf xs

/-- The least of a list of numbers, 0 for none. -/
def leastOf : List Nat → Nat
  | [] => 0
  | [x] => x
  | x :: xs => Nat.min x (leastOf xs)

/-- Words of a 64-bit element array in bytes. -/
def dwordsOf (bs : List Byte) (off : Nat) : DWord := dw (numOfBytes ((bs.drop off).take 8))

/-- One step of CRC-32C over a byte, reflected polynomial 0x82F63B78 (R175). -/
def crcBit : Nat → BitVec 32 → BitVec 32
  | 0, c => c
  | n + 1, c => crcBit n (if c.getLsbD 0 then (c >>> 1) ^^^ 0x82F63B78#32 else c >>> 1)

def crcByte (c : BitVec 32) (b : Byte) : BitVec 32 := crcBit 8 (c ^^^ b.setWidth 32)

/-- CRC-32C as chapter 12 uses it: from all ones, the final state inverted (R336). -/
def crc32c (bs : List Byte) : BitVec 32 := ~~~(bs.foldl crcByte 0xFFFFFFFF#32)

end Sys2Proof.Machine
end

