-- ==== Sys2Proof/Machine/Memory.lean ====
section
/-!
DEFINITION. Locations, home memory, the store buffer and the core snapshots: spec/03_memory_and_consistency.md and the
key and poison rules of R305, R391, R423 to R425.
-/
namespace Sys2Proof.Machine

/-! ### Cells in canonical form: addresses strictly rising, no listed byte equal to zero -/

/-- Memory's canonical form: addresses strictly rising, no listed zero byte. -/
def cellsWf : List Host.Cell → Bool
  | [] => true
  | [(_, b)] => b != 0
  | (a, b) :: (a', b') :: t => b != 0 && a < a' && cellsWf ((a', b') :: t)

/-- The byte at a location; what an unlisted location reads as is zero (log entry 1). -/
def cellGet : List Host.Cell → Nat → Byte
  | [], _ => 0
  | (a', b) :: t, a => if a' = a then b else cellGet t a

/-- A byte written; writing zero removes the entry. -/
def cellPut : List Host.Cell → Nat → Byte → List Host.Cell
  | [], a, v => if v = 0 then [] else [(a, v)]
  | (a', b) :: t, a, v =>
    if a < a' then (if v = 0 then (a', b) :: t else (a, v) :: (a', b) :: t)
    else if a = a' then (if v = 0 then t else (a, v) :: t)
    else (a', b) :: cellPut t a v

/-- Bytes written from a location upward. -/
def cellPuts : List Host.Cell → Nat → List Byte → List Host.Cell
  | m, _, [] => m
  | m, a, b :: bs => cellPuts (cellPut m a b) (a + 1) bs

/-- Memory is in canonical form. -/
abbrev Mem.wf (m : Mem) : Prop := cellsWf m.cells = true

/-! ### Locations (R66 to R69) -/

/-- The interleaved address of offset o of stack k (R67). -/
def interleaved (k o : Nat) : Nat := o / 4096 * 65536 + k * 4096 + o % 4096

/-- The location that a physical address names, one number for every view (R68); none where it is unpopulated (R66).
`members` lists the devices whose windows exist (R376). -/
def locOf (dev : Nat) (members : List Nat) (pa : Nat) : Option Nat :=
  if pa < 0x10000000000 then (if pa < Config.hbmEnd then some pa else none)
  else if Config.stackBase ≤ pa ∧ pa < Config.stackBase + 16 * 0x1000000000 then
    let k := (pa - Config.stackBase) / 0x1000000000
    let o := (pa - Config.stackBase) % 0x1000000000
    if o < Config.stackEnd then some (interleaved k o) else none
  else if Config.tileBase ≤ pa ∧ pa < Config.tileBase + Config.cores * Config.sliceBytes then some pa
  else if Config.ctlBase ≤ pa ∧ pa < Config.ctlBase + 0x100000000 then some pa
  else if Config.remoteBase ≤ pa ∧ pa < Config.remoteBase + 288 * 0x40000000000 then
    let d := (pa - Config.remoteBase) / 0x40000000000
    let o := (pa - Config.remoteBase) % 0x40000000000
    let inner := if o < Config.hbmEnd then some o
      else if 0x10000000000 ≤ o ∧ o < 0x10000000000 + Config.cores * Config.sliceBytes then
        some (Config.tileBase + (o - 0x10000000000))
      else none
    if d = dev then inner
    else if d ∈ members then inner.map (fun _ => pa) else none
  else none

def State.loc (s : State) (pa : Nat) : Option Nat := locOf s.dom.dev s.dom.members pa

def isHbm (loc : Nat) : Bool := loc < Config.hbmEnd
def isTile (loc : Nat) : Bool := Config.tileBase ≤ loc && loc < Config.tileBase + Config.cores * Config.sliceBytes
def isCtl (loc : Nat) : Bool := Config.ctlBase ≤ loc && loc < Config.ctlBase + 0x100000000
def isRemote (loc : Nat) : Bool := Config.remoteBase ≤ loc
def stackOf (loc : Nat) : Nat := loc / 4096 % 16
def sliceOf (loc : Nat) : Nat := (loc - Config.tileBase) / Config.sliceBytes
def remoteDev (loc : Nat) : Nat := (loc - Config.remoteBase) / 0x40000000000
def controllerOf (loc : Nat) : Nat := stackOf loc * 4 + loc / 1024 % 4

/-- A location in a fenced slice or stack (R414 step 4). -/
def State.fencedLoc (s : State) (loc : Nat) : Bool :=
  if isHbm loc then s.plat.fsStack.contains (stackOf loc)
  else if isTile loc then s.plat.fsSlice.contains (sliceOf loc) else false

/-! ### Home memory -/

/-- The 16 bytes of a block. -/
def Mem.block (m : Mem) (n : Nat) : BitVec 128 :=
  BitVec.ofNat 128 (numOfBytes ((List.range 16).map (fun i => cellGet m.cells (16 * n + i))))

/-- One byte at its home, decrypted under a key slot (R305, R391). -/
def Mem.byteAt (m : Mem) (key loc : Nat) : Byte :=
  let b := cellGet m.cells loc
  if isHbm loc then
    match m.lineKeys.find (loc / 64), m.keys.find key with
    | some k0, some k => if k0 = k then b else
      (Config.redecrypt k0 k (loc / 16) (m.block (loc / 16))).extractLsb' (8 * (loc % 16)) 8
    | _, _ => b
  else b

/-- Bytes at their home from a location upward. -/
def Mem.read (m : Mem) (key loc : Nat) : Nat → List Byte
  | 0 => []
  | n + 1 => m.byteAt key loc :: Mem.read m key (loc + 1) n

/-- A line read through another key is rewritten under the key of the write that touches it (R305, R366). -/
def Mem.rekey (m : Mem) (key loc : Nat) : Mem :=
  if isHbm loc then
    match m.keys.find key with
    | some k =>
      if m.lineKeys.find (loc / 64) = some k then m
      else { m with cells := cellPuts m.cells (loc / 64 * 64) (m.read key (loc / 64 * 64) 64),
                    lineKeys := m.lineKeys.put (loc / 64) k }
    | none => m
  else m

/-- Bytes of one line written at their home; a write of the whole line clears its poison (R425). -/
def Mem.writeLine (m : Mem) (key loc : Nat) (bs : List Byte) : Mem :=
  let m := m.rekey key loc
  { m with cells := cellPuts m.cells loc bs,
           poison := if loc % 64 = 0 ∧ bs.length = 64 then m.poison.filter (· != loc / 64) else m.poison }

/-- Bytes written at their home from a location upward, line by line; `fuel` bounds the lines. -/
def Mem.writeGo (m : Mem) (key loc : Nat) (bs : List Byte) : Nat → Mem
  | 0 => m
  | fuel + 1 =>
    if bs.isEmpty then m else
    let n := 64 - loc % 64
    Mem.writeGo (m.writeLine key loc (bs.take n)) key (loc + n) (bs.drop n) fuel

def Mem.write (m : Mem) (key loc : Nat) (bs : List Byte) : Mem := m.writeGo key loc bs (bs.length / 64 + 2)

/-- Two byte ranges that share a byte. -/
def meets (a n b m : Nat) : Bool := decide (a < b + m) && decide (b < a + n)

/-- Bytes `new` at a place laid over the bytes that stand from loc on. -/
def lay (bs : List Byte) (loc place : Nat) (new : List Byte) : List Byte :=
  (List.range bs.length).map fun i =>
    if place ≤ loc + i ∧ loc + i < place + new.length then new.getD (loc + i - place) 0 else bs.getD i 0

/-- A party's write performed at its home: it joins the coherence order of its bytes as their newest (R81, R85), and the
history keeps what stood before it. -/
def Mem.put (m : Mem) (p : Party) (key loc : Nat) (bs : List Byte) : Mem :=
  { m.write key loc bs with
    seq := m.seq + 1,
    hist := { seq := m.seq + 1, party := p, key, loc, old := m.read key loc bs.length } :: m.hist }

/-- The bytes that stand of a write performed when `home` writes had been: the later writes of others come after it (R81). -/
def Mem.under (m : Mem) (home : Option Nat) (key loc : Nat) (bs : List Byte) : List Byte :=
  match home with
  | none => bs
  | some q =>
    let now := m.read key loc bs.length
    bs.zipIdx.map (fun p =>
      if m.hist.any (fun e => decide (q < e.seq) && meets e.loc e.old.length (loc + p.2) 1) then now.getD p.2 0 else p.1)

/-- A run of a location's lines marked poisoned (R423). -/
def Mem.poisonLine (m : Mem) (line : Nat) : Mem := { m with poison := insertNat m.poison line }

def Mem.poisoned (m : Mem) (loc n : Nat) : Bool :=
  (List.range ((loc + n - 1) / 64 - loc / 64 + 1)).any (fun i => m.poison.contains (loc / 64 + i))

def State.setMem (s : State) (m : Mem) : State := { s with mem := m }

/-- A write performed at its home by a party of the device. -/
def State.write (s : State) (p : Party) (key loc : Nat) (bs : List Byte) : State := s.setMem (s.mem.put p key loc bs)

/-! ### Held-back stores, releases and acquires (R77 to R81, R85) -/

/-- A held-back store reaches its home (R79, R85); a store to fenced memory is not performed (R414). -/
def State.performOne (s : State) (p : PendStore) : State :=
  if s.fencedLoc p.loc then s else s.write { whos := [p.who], core := some p.core } p.key p.loc p.bytes

/-- A store reaches its home by an implicit release (R79): until something on the device meets it, a host load may precede it
(R85, R95); a `tso` store stands there for every party (R91). -/
def State.performEarly (s : State) (p : PendStore) : State :=
  let t := s.performOne p
  if t.mem.seq = s.mem.seq || p.due.isSome then t
  else t.setMem { t.mem with early := t.mem.seq :: t.mem.early }

/-- Every write performed stands at its home for every party: the device has met one, or has released wide (R78, R85). -/
def State.arrived (s : State) : State := s.setMem { s.mem with early := [] }

/-- The held-back stores that q chooses, each with the older ones of its thread, and the rest: what an implicit release
performs is a prefix of a thread's stores in program order (R79). -/
def splitStores (q : PendStore → Bool) : List PendStore → List PendStore × List PendStore
  | [] => ([], [])
  | x :: xs =>
    let r := splitStores q xs
    if q x || r.1.any (fun y => y.who = x.who) then (x :: r.1, r.2) else (r.1, x :: r.2)

/-- The first n stores of a thread, and the rest. -/
def splitFirst (w : Who) : Nat → List PendStore → List PendStore × List PendStore
  | _, [] => ([], [])
  | n, x :: xs =>
    if x.who = w ∧ 0 < n then let r := splitFirst w (n - 1) xs; (x :: r.1, r.2)
    else let r := splitFirst w n xs; (r.1, x :: r.2)

/-- The chosen stores reach their homes, oldest first, each behind the older ones of its thread (R79). -/
def State.performStores (s : State) (q : PendStore → Bool) : State :=
  let r := splitStores q s.mem.stores
  r.1.foldl State.performOne (s.setMem { s.mem with stores := r.2 })

/-- The store of a list that a free choice takes: the first, unless the choice passes over its thread to one whose stores come
later. -/
def pickStore (n : Nat) : PendStore → List PendStore → PendStore
  | p, [] => p
  | p, q :: qs =>
    if decide (q.who ≠ p.who) && Config.drainOther n then pickStore (n + 1) q qs else pickStore n p qs

/-- The oldest held-back store of one thread reaches its home (R79). -/
def State.drainOne (s : State) : State :=
  match s.mem.stores with
  | [] => s
  | p :: ps =>
    let w := (pickStore s.sys.free p ps).who
    match s.mem.stores.find? (fun q => q.who = w) with
    | some q => ({ s.setMem { s.mem with stores := s.mem.stores.erase q } with
        sys := { s.sys with free := s.sys.free + s.mem.stores.length } }).performEarly q
    | none => s

/-- Every store of a thread reaches its home. -/
def State.drainOf (s : State) (w : Who) : State := s.performStores (fun p => p.who = w)

/-- A release by a thread at a scope (R78): the narrow scopes mark its stores, the wide ones perform them. -/
def State.release (s : State) (w : Who) (sc : Scope) : State :=
  match sc with
  | .core => s.setMem { s.mem with stores := s.mem.stores.map (fun p => if p.who = w then { p with rel := Nat.max p.rel 1 } else p) }
  | .cluster => s.setMem { s.mem with stores := s.mem.stores.map (fun p => if p.who = w then { p with rel := 2 } else p) }
  | .dev | .dom => (s.drainOf w).arrived

/-- Whether a held-back store has been released at the scope of its pair with a party on a core (R77); one that has been
released wider stands at its home. -/
def PendStore.releasedTo (p : PendStore) (core : Nat) : Bool :=
  (decide (p.core = core) && decide (1 ≤ p.rel)) || (decide (p.core / 8 = core / 8) && decide (2 ≤ p.rel))

/-- The instant of an acquire at a scope, which is one at every narrower scope (R78). -/
def Acq.at (a : Acq) (sc : Scope) (seq : Nat) : Acq :=
  match sc with
  | .core => { a with core := seq }
  | .cluster => { a with core := seq, cluster := seq }
  | .dev => { a with core := seq, cluster := seq, dev := seq }
  | .dom => { a with core := seq, cluster := seq, dev := seq, dom := seq }

/-- A core's snapshot is marked stale (R82). -/
def State.staleSnap (s : State) (core : Nat) : State := s.arrived.setMem { s.arrived.mem with snaps := s.mem.snaps.del core }

/-- An acquire by a thread of a core at a scope (R78): the stores released to its core reach their homes, its snapshot is
stale, and what stands at the homes now is required for its later loads (R82). -/
def State.acquire (s : State) (w : Who) (core : Nat) (sc : Scope) : State :=
  let s := (s.performStores (·.releasedTo core)).staleSnap core
  { s with threads := s.threads.upd w (fun t => { t with acq := t.acq.at sc s.mem.seq }) }

/-- The start of a thread, an acquire at every scope (R78, R79); it alone bears on the thread's fetches (R154). -/
def State.startView (s : State) (w : Who) (core : Nat) : State :=
  let s := s.acquire w core .dom
  { s with threads := s.threads.upd w (fun t => { t with acq := { t.acq with start := s.mem.seq }, seen := [] }) }

/-! ### The value of a load (R82) -/

/-- The bytes of held-back stores, oldest first, laid over older bytes. -/
def overlay (bs : List Byte) (loc : Nat) (ps : List PendStore) : List Byte :=
  ps.foldl (fun bs p => lay bs loc p.loc p.bytes) bs

/-- A thread's own held-back stores (R82: it always sees them). -/
def State.ownStores (s : State) (w : Who) : List PendStore := s.mem.stores.filter (fun p => p.who = w)

/-- A free choice: the counter of log entry 2 advances. -/
def State.tickFree (s : State) : State := { s with sys := { s.sys with free := s.sys.free + 1 } }

/-- The write touches bytes of a range. -/
def Wrote.on (e : Wrote) (loc n : Nat) : Bool := meets e.loc e.old.length loc n

/-- The thread's last acquire at the scope of its pair with a write's party (R77, R79). -/
def Acq.before (a : Acq) (core : Nat) (p : Party) : Nat :=
  if p.far then a.dom
  else match p.core with
    | some c => if c = core then a.core else if c / 8 = core / 8 then a.cluster else a.dev
    | none => a.dev

/-- The write is required for a load of a range by a thread (R82): its own, or released before its last acquire, or older
than one it has seen there. A write under another key is never looked behind. -/
def Wrote.required (e : Wrote) (w : Who) (core : Nat) (acq : Acq) (seen : List Seen) (key loc n : Nat) : Bool :=
  decide (w ∈ e.party.whos) || decide (e.key ≠ key) || decide (e.seq ≤ acq.before core e.party) ||
    seen.any (fun x => meets x.loc x.n loc n && decide (e.seq ≤ x.seq))

/-- The bytes of a range as they stood before the newest of its writes, which are undone newest first as long as none is
required and `back` goes further; with the number of the newest write kept, 0 for none. -/
def viewGo (req : Wrote → Bool) (back : Nat → Wrote → Bool) (loc : Nat) (bs : List Byte) (i : Nat) :
    List Wrote → List Byte × Nat
  | [] => (bs, 0)
  | e :: es =>
    if !e.on loc bs.length then viewGo req back loc bs i es
    else if req e || !back i e then (bs, e.seq)
    else viewGo req back loc (lay bs loc e.loc e.old) (i + 1) es

/-- What a load finds at the homes: the newest bytes or, where the newest write is not required, older ones by free choice:
as they stood when the core's snapshot took the line (`fill`), or some writes back (R82; log entry 6). -/
def State.viewBytes (s : State) (req : Wrote → Bool) (fill : Option Nat) (key loc n : Nat) : State × List Byte × Nat :=
  let bs := s.mem.read key loc n
  match s.mem.hist.find? (·.on loc n) with
  | none => (s, bs, 0)
  | some e =>
    if req e then (s, bs, 0)
    else
      let age := Config.loadAge s.sys.free
      let r := viewGo req (fun i x => match age, fill with
        | none, some f => decide (f < x.seq)
        | none, none => false
        | some k, _ => decide (i < k)) loc bs 0 s.mem.hist
      (s.tickFree, r.1, r.2)

/-- A thread has seen a write of a range, so that none of its later loads there looks behind it (R82). -/
def State.sawWrite (s : State) (w : Who) (loc n seq : Nat) : State :=
  if seq = 0 then s
  else { s.arrived with threads := s.threads.upd w (fun t => { t with seen := { loc, n, seq } :: t.seen.filter (fun x => !(x.loc == loc && x.n == n)) }) }

/-- What is required for a load of a range by a thread of a core. -/
def State.requiredFor (s : State) (w : Who) (core key loc n : Nat) (e : Wrote) : Bool :=
  match s.threads.find w with
  | some t => e.required w core t.acq t.seen key loc n
  | none => true

/-- The newest bytes at the home, seen by a thread: a `tso` or `line` load (R91, R93), or an atomic (R85). -/
def State.readHome (s : State) (w : Who) (core key loc n : Nat) : State × List Byte :=
  (match s.mem.hist.find? (·.on loc n) with
    | some e => if s.requiredFor w core key loc n e then s.arrived else s.sawWrite w loc n e.seq
    | none => s, s.mem.read key loc n)

/-- What a host load finds at the home (R92): the newest bytes, or by free choice those before some writes that have only been
released implicitly and that nothing has met (R95; log entry 6). What it finds stands there from then on. -/
def State.hostView (s : State) (key loc n : Nat) : State × List Byte :=
  let bs := s.mem.read key loc n
  if s.mem.early.isEmpty then (s, bs)
  else
    let r := viewGo (fun e => decide (e.key ≠ key) || !s.mem.early.contains e.seq)
      (fun i _ => decide (i < (Config.loadAge s.sys.free).getD 0)) loc bs 0 s.mem.hist
    let met (q : Nat) : Bool := decide (q ≤ r.2) && s.mem.hist.any (fun e => e.seq == q && e.on loc n)
    ((s.setMem { s.mem with early := s.mem.early.filter (fun q => !met q) }).tickFree, r.1)

/-- When a core's snapshot took a line: at the first load of the line in a phase, or a prefetch (R82, R197). -/
def State.fillLine (s : State) (core line : Nat) : State × Nat :=
  let snap := (s.mem.snaps.find core).getD []
  match snap.find line with
  | some q => (s, q)
  | none => (s.setMem { s.mem with snaps := s.mem.snaps.put core (snap.put line s.mem.seq) }, s.mem.seq)

/-- The value of a load by R82: an ordinary page as the snapshot or a later instant gives it, a `tso` or `line` page at the
home (R91, R93), each with the thread's own held-back stores. -/
def State.loadValue (s : State) (w : Who) (core key loc n : Nat) (atHome : Bool) : State × List Byte :=
  let r : State × List Byte :=
    if atHome then s.readHome w core key loc n
    else
      let (s, fill) := s.fillLine core (loc / 64)
      let (s, bs, seq) := s.viewBytes (s.requiredFor w core key loc n) (some fill) key loc n
      (s.sawWrite w loc n seq, bs)
  (r.1, overlay r.2 loc (r.1.ownStores w))

/-- A thread's store: held back (R79), on a `tso` page for 2 µs at the most (R91), or performed at once at its home. -/
def State.storeValue (s : State) (w : Who) (core key loc : Nat) (bs : List Byte) (atHome : Bool) (due : Option Nat) : State :=
  if atHome then (s.drainOf w).write { whos := [w], core := some core } key loc bs
  else s.setMem { s.mem with stores := s.mem.stores ++ [{ who := w, core, loc, bytes := bs, key, due }] }

end Sys2Proof.Machine
end

