-- ==== Sys2Proof/WellFormed.lean ====
section
/-!
DEFINITION. Which instructions exist: the types, packings, rounding codes, register pairs and numbers that each
instruction accepts (R137, R143, R144, R146, R152 items 4 and 7; the tables of spec/07_lane_instructions.md). A term of
`Instr` that fails `Instr.wf` has no legal encoding; for the device steps `wf` bounds the numbers of units (R17).
-/
namespace Sys2Proof

/-- Storage width in bits (R120): 8 for `e3m2`, the width of the type otherwise. -/
def Ty.bits : Ty → Nat
  | .i8 | .n8 | .e5m2 | .e4m3 | .e3m2 => 8
  | .i16 | .n16 | .bf16 | .h16 => 16
  | .i32 | .n32 | .f32 => 32
  | .i64 | .n64 | .f64 => 64
  | .e2m1 => 4

/-- The types `i8` to `i64` and `n8` to `n64` (R166). -/
def Ty.isInt : Ty → Bool
  | .i8 | .i16 | .i32 | .i64 | .n8 | .n16 | .n32 | .n64 => true
  | _ => false

/-- The signed integer types (R115). -/
def Ty.isSigned : Ty → Bool
  | .i8 | .i16 | .i32 | .i64 => true
  | _ => false

/-- "wide fp": `f64`, `f32`, `bf16`, `h16` (R166). -/
def Ty.isWideFp : Ty → Bool
  | .f64 | .f32 | .bf16 | .h16 => true
  | _ => false

/-- A type whose operands are even pairs (R163). -/
def Ty.wide (t : Ty) : Bool := t.bits == 64

/-- The packing that R143 pairs with a type; `one` where it pairs none. -/
def Ty.packOf : Ty → Pack
  | .i16 | .n16 | .bf16 | .h16 => .x2
  | .i8 | .n8 | .e5m2 | .e4m3 | .e3m2 => .x4
  | .e2m1 => .x8
  | _ => .one

/-- Elements of a packed value (R143). -/
def Pack.count : Pack → Nat
  | .one => 1 | .x2 => 2 | .x4 => 4 | .x8 => 8

/-- The pack field is 0b00 or the pack that R143 pairs with the type. -/
def packOk (t : Ty) (p : Pack) : Bool := p == .one || p == t.packOf

/-- Rounding code "0" of R166. -/
def Rc.isZero (r : Rc) : Bool := r.mode == .dyn && !r.sat

/-- Rounding code "sat" of R166. -/
def Rc.isSat (r : Rc) : Bool := r.mode == .dyn

/-- The register field of a 64-bit operand names an even register (R137). -/
def evenReg (n : Fin 128) : Bool := n.val % 2 == 0

def Src.ok (wide : Bool) : Src → Bool
  | .reg n => !wide || evenReg n
  | _ => true

def Dst.ok (wide : Bool) : Dst → Bool
  | .reg n => !wide || evenReg n
  | _ => true

/-- A U-form destination names k16 to k63 or a channel (R144). -/
def UDst.ok : UDst → Bool
  | .k n => 16 ≤ n.val
  | .push _ => true

def kDst (n : Fin 64) : Bool := 16 ≤ n.val

/-- A base is an even pair; the index may be any register (R141). -/
def MemAddr.ok (m : MemAddr) : Bool := evenReg m.base

/-- Types of `ld`, `st`, `gld`, `gst` and `pfch`: all but `e2m1` (R193). -/
def Ty.isAccess (t : Ty) : Bool := t != .e2m1

/-- The 32- and 64-bit integers. -/
def Ty.isInt3264 : Ty → Bool
  | .i32 | .n32 | .i64 | .n64 => true
  | _ => false

/-- The atomic types: 32- and 64-bit integers, `f32`, `f64` (R198). -/
def Ty.isAtomic : Ty → Bool
  | .i32 | .n32 | .i64 | .n64 | .f32 | .f64 => true
  | _ => false

/-- Special registers that are 64 bits wide (R145, R294). -/
def srWide (n : Nat) : Bool := n == 0x0B || n == 0x1E || n == 0x81

/-- Supervisor register numbers, assigned or not (R146). -/
def srSupervisor (n : Nat) : Bool := 0x80 ≤ n && n ≤ 0xBF

/-- The user-level special registers of R145. -/
def srUser (n : Nat) : Bool := n ≤ 0x14 || (0x18 ≤ n && n ≤ 0x1E)

/-- Special registers of thread scope (R145). -/
def srThread (n : Nat) : Bool := n == 0 || n == 1 || n == 0x0D || n == 0x0F || (0x18 ≤ n && n ≤ 0x1E)

/-- User-level registers that may be written: `$fmode`, `$fflags`, `$drawtime`, `$starve` (R145). -/
def srWritable (n : Nat) : Bool := n == 0x0C || n == 0x0D || n == 0x13 || n == 0x14

/-- The types, packings and rounding codes of the two-source arithmetic of R171, with the operands paired by type. -/
def arith3 (f : Fmt) (tyOk rcOk : Bool) (d : Dst) (srcs : List Src) : Bool :=
  tyOk && packOk f.ty f.pk && rcOk && d.ok f.ty.wide && srcs.all (·.ok f.ty.wide)

/-- int: sat; fp: any (R171). -/
def rcSatOrAny (f : Fmt) : Bool := !f.ty.isInt || f.rc.isSat

def CvtTy.width : CvtTy → Nat
  | .ty t => t.bits
  | .e8m0 => 8

def CvtTy.packOk : CvtTy → Pack → Bool
  | .ty t, p => Sys2Proof.packOk t p
  | .e8m0, p => p == .one

def CvtTy.isInt : CvtTy → Bool
  | .ty t => t.isInt
  | .e8m0 => false

/-- Elements converted by one `cvt` (R182). -/
def CvtFmt.count (f : CvtFmt) : Nat := Nat.max f.spk.count f.dpk.count

/-- A side needs a pair when its n × w bits exceed 32 (R182). -/
def CvtFmt.srcBits (f : CvtFmt) : Nat := f.count * f.src.width
def CvtFmt.dstBits (f : CvtFmt) : Nat := f.count * f.dst.width

/-- The rounding codes of R183: `sat` between integers, any otherwise. A conversion from `e8m0` to `e8m0` is in no row. -/
def CvtFmt.ok (f : CvtFmt) : Bool :=
  f.src.packOk f.spk && f.dst.packOk f.dpk && f.srcBits ≤ 64 && f.dstBits ≤ 64 &&
  (if f.src.isInt && f.dst.isInt then f.rc.isSat else true) &&
  !(f.src == .e8m0 && f.dst == .e8m0)

/-- `lred` and `lscan`: types and rounding codes of R191. -/
def redOk (op : RedOp) (t : Ty) (rc : Rc) : Bool :=
  t.isAtomic &&
  (match op with
   | .add => t.isInt3264 && rc.isZero || !t.isInt3264
   | .min | .max => rc.isZero
   | .and | .or | .xor => t.isInt3264 && rc.isZero)

def bitFieldOk (pos : BitVec 5) (len : BitVec 6) : Bool :=
  1 ≤ len.toNat && len.toNat ≤ 32 && pos.toNat + len.toNat ≤ 32

/-- Numbers of the units that the device steps name (R17, R21). -/
def coreOk (c : Nat) : Bool := c < 192
def stackOk (s : Nat) : Bool := s < 16
def slotOk (s : Nat) : Bool := s < 16
def devOk (d : Nat) : Bool := d < 288

def Who.ok : Who → Bool
  | .lane c s t => coreOk c && slotOk s && t < 1024
  | .walk n => n < 8192

def FenceUnit.ok : FenceUnit → Bool
  | .core c | .slice c => coreOk c
  | .stack s => stackOk s
  | .fabric f => f < 64
  | .walker w => w < 512
  | .port p => p < 18

def TlbUnit.ok : TlbUnit → Bool
  | .core c => coreOk c
  | .die s => stackOk s

def EngineQueue.ok : EngineQueue → Bool
  | .matrix c | .copy c => coreOk c
  | .fabric f s => f < 64 && s < 8
  | .round n => n < 16

/-- A completion field whose reserved bits are zero (R152, R240): [15:11] always, the sense and slot where it is not
guarded, the barrier where it does not arrive. -/
def cfOk (x : Nat) : Bool :=
  x / 2048 % 32 == 0 && (x / 256 % 2 == 1 || x / 32 % 8 + x / 512 % 2 == 0) && (x / 16 % 2 == 1 || x % 16 == 0)

/-- An instruction that has an encoding, or a device step that names units the device has. The d field of `xfer.mc` and `xfer.tr`
may be any scalar (R263, R264; log entry 83). -/
def Instr.wf : Instr → Bool
  | .addI32 .. | .subI32 .. | .mulI32 .. | .mulhI32 .. | .minI32 .. | .maxI32 .. | .and .. | .or .. | .xor .. => true
  | .not .. | .shl .. | .shr .. | .sra .. | .mov .. | .clz .. | .popc .. | .addI32Imm .. | .andImm .. => true
  | .orImm .. | .xorImm .. | .shlImm .. | .shrImm .. | .sraImm .. | .movi .. | .movhi .. => true
  | .movk d _ m => d.ok (m == .full)
  | .ctz .. | .bitrev .. => true
  | .rds d sr => (srUser sr.toNat && d.ok (srWide sr.toNat)) || srSupervisor sr.toNat
  | .wrs sr _ => srWritable sr.toNat || srSupervisor sr.toNat
  | .pmovFromReg .. | .pmovToReg .. | .pmovPred .. | .pnot .. => true
  | .addF32 .. | .subF32 .. | .mulF32 .. | .divF32 .. | .minF32 .. | .maxF32 .. | .sqrtF32 .. | .rsqrtF32 .. => true
  | .rcpF32 .. | .exp2F32 .. | .log2F32 .. | .sinF32 .. | .cosF32 .. | .tanhF32 .. | .fclassF32 .. | .absF32 .. => true
  | .lperm .. | .lrot .. | .lxor .. | .lbcast .. | .lballot .. | .lmatch .. | .pand .. | .por .. | .pxor .. => true
  | .accRead d _ => d.ok true
  | .accWrite _ b => b.ok true
  | .cardNext d _ => d.ok true
  | .cardFeed .. | .crc .. | .absdI32 .. | .mulhN32 .. | .br .. | .call .. | .ret => true
  | .jr a | .calr a => evenReg a
  | .switch .. | .converge | .reform => true
  | .spawn _ a _ => evenReg a
  | .exit | .trap _ | .brk _ | .yield | .sleep _ => true
  | .gwait _ a | .gwaitPoll _ a => evenReg a
  | .phase _ | .arrive .. | .wait .. | .barOwe .. | .barTest .. => true
  | .hankPush _ a b => evenReg a && b.ok true
  | .hankPop d a _ | .hankPopWait d a _ | .hankSteal d a _ => evenReg d && evenReg a
  | .hankSize _ a => evenReg a
  | .boundMin a .. | .boundMinSet a .. | .boundMax a .. | .boundMaxSet a .. => evenReg a
  | .boundGet d .. => evenReg d
  | .regclaim _ | .regrel _ | .chpoll .. => true
  | .wSend .. | .wRecv _ => true
  | .sadd d .. | .ssub d .. | .sand d .. | .sor d .. | .sxor d .. | .sshl d .. | .sshr d .. => d.ok
  | .smov d _ | .smovi d _ => d.ok
  | .smovh d _ => kDst d
  | .sbr c k _ => c != .always || k == 0
  | .rdsr d sr => d.ok && ((srUser sr.toNat && !srThread sr.toNat) || srSupervisor sr.toNat)
  | .wrsr sr _ => (srWritable sr.toNat && !srThread sr.toNat) || srSupervisor sr.toNat
  | .barInit .. | .hankInit .. | .chbind .. | .chfree .. | .guardSet .. | .mxAcquire | .mxRelease | .mxIssue _ => true
  | .accAlloc d _ => kDst d
  | .accFree _ | .accZero _ | .accDrain .. | .accPack .. => true
  | .xfer d _ _ => kDst d
  | .xferMc .. => true
  | .bufDecl _ | .bufSet .. | .cardOpenX _ | .cardOpenM _ | .cardSplit _ | .cardSave _ | .cardRestore _ => true
  | .cardClose | .sfUnbind _ => true
  | .ctxsave d _ _ => kDst d
  | .ctxload d _ _ => kDst d
  | .tsync | .replay | .halt | .errack .. => true
  | .idle d _ => kDst d
  | .add f d a b | .sub f d a b | .mul f d a b => arith3 f true (rcSatOrAny f) d [a, b]
  | .mulh f d a b => arith3 f (f.ty.isInt3264 && f.pk == .one) f.rc.isZero d [a, b]
  | .div f d a b =>
      arith3 f ((f.ty.isInt3264 || f.ty == .f64 || f.ty == .f32) && f.pk == .one) (!f.ty.isInt || f.rc.isZero) d [a, b]
  | .rem f d a b => arith3 f (f.ty.isInt3264 && f.pk == .one) f.rc.isZero d [a, b]
  | .min f d a b | .max f d a b => arith3 f true f.rc.isZero d [a, b]
  | .abs f d a | .neg f d a => arith3 f true (if f.ty.isInt then f.rc.isSat else f.rc.isZero) d [a]
  | .absd f d a b => arith3 f true (!f.ty.isInt || f.rc.isZero) d [a, b]
  | .sqrt f d a => arith3 f (f.ty.isWideFp && f.pk == .one) true d [a]
  | .fma f d a b c => arith3 f (!f.ty.isInt) true d [a, b, c]
  | .mad f d a b c => arith3 f f.ty.isInt f.rc.isSat d [a, b, c]
  | .madw f d a b c =>
      f.rc.isSat &&
      (match f.ty with
       | .i8 | .n8 => f.pk == .x4
       | .i16 | .n16 => f.pk == .x2
       | .i32 | .n32 => f.pk == .one
       | _ => false) &&
      (a.ok false && b.ok false) && c.ok (f.ty.bits == 32) && d.ok (f.ty.bits == 32)
  | .scalb f d a b => arith3 f (f.ty.isWideFp && f.pk == .one) true d [a] && b.ok false
  | .rnd f d a => arith3 f (f.ty.isWideFp && f.pk == .one) (!f.rc.sat) d [a]
  | .cvt f d a => f.ok && d.ok (32 < f.dstBits) && a.ok (32 < f.srcBits)
  | .pack t _ _ _ => t.packOf != .one
  | .unpack t d _ => t.packOf != .one && d.ok true
  | .cmp c t _ a b => (!(c == .ord || c == .un) || !t.isInt) && a.ok t.wide && b.ok t.wide
  | .sel t _ _ d a b => t.isAtomic && d.ok t.wide && a.ok t.wide && b.ok t.wide
  | .lea _ _ _ d a _ => d.ok true && a.ok true
  | .bfe _ p l _ _ => bitFieldOk p l
  | .bfi p l _ _ _ => bitFieldOk p l
  | .fsh .. => true
  | .lscan op _ t rc d a => redOk op t rc && d.ok t.wide && a.ok t.wide
  | .lred op t rc d a => redOk op t rc && d.ok t.wide && a.ok t.wide
  | .ld t d m | .gld t d m => t.isAccess && d.ok t.wide && m.ok
  | .st t v m | .gst t v m => t.isAccess && v.ok t.wide && m.ok
  | .atomXchg t _ _ d m | .atomAdd t _ _ d m | .atomLd t _ _ d m | .atomSt t _ _ d m =>
      t.isAtomic && (!t.wide || evenReg d) && m.ok
  | .atomAnd t _ _ d m | .atomOr t _ _ d m | .atomXor t _ _ d m | .atomMin t _ _ d m | .atomMax t _ _ d m =>
      t.isInt3264 && (!t.wide || evenReg d) && m.ok
  | .cas t _ _ d a b c => t.isInt3264 && evenReg a && (!t.wide || (evenReg d && evenReg b && evenReg c))
  | .pfch t m => t.isAccess && m.ok
  | .wHop _ => true
  | .wEmit a _ | .wDist _ a _ | .wHeap _ a _ => evenReg a
  | .wVisit .. => true
  | .launch d _ => kDst d
  | .xferTr t cf _ _ _ => t != .e2m1 && !t.wide && cfOk cf.toNat
  | .cgLaunch cf _ _ | .sfRun cf _ _ | .srchIssue cf _ _ | .collStart cf _ => cfOk cf.toNat
  | .sfLoad _ d _ => kDst d
  | .sfBind .. => true
  | .srchVer d _ | .srchVerRead d _ => kDst d
  | .tlbinvAll | .tlbinvAsid _ | .tlbinvVa .. | .dirReclaim .. | .keyselLoad .. | .keyselErase .. => true
  | .draw c | .registerGrant c | .claimDeadlock c | .coreRestart c | .gatherAccess c => coreOk c
  | .convergeStarveRelease w | .forcing w | .sleepEnd w | .implicitRelease w _ => w.ok
  | .starvation c sl _ => coreOk c && slotOk sl
  | .tableWalk u .. => u.ok
  | .runAheadRollback _ | .batchEntryDeferred | .accessAtHome => true
  | .commandHead q => q.ok
  | .commandComplete _ | .commandEnd .. | .commandHold .. | .multicastAbandon _ => true
  | .graphNodeIssue c | .carderDeal c => coreOk c
  | .streamChunk f s => f < 64 && s < 8
  | .cycleViolation f s _ _ => f < 64 && s < 8
  | .searchBlockStart s | .searchNop s | .qload s | .hinit s | .scan s | .cent s | .hmerge s | .hout s => stackOk s
  | .vclr s | .walk s | .searchPreempt s | .searchResume s | .walkerThreadStart s | .hopTakeup s => stackOk s
  | .walkerMessage n => n < 8192
  | .exitNotice s | .walkStalled s => stackOk s
  | .lqTailDoorbell .. | .lqEnable _ | .lqDisable _ | .lqDisableEffect _ | .recordAdmission => true
  | .extentTranslation _ | .gridRecord _ | .gangRecord _ | .graphRecord _ | .waitOnValue _ | .waitOnValuePoll _ => true
  | .signalRecord _ | .teamPlacement | .gridRetire _ => true
  | .teamRetire c s => coreOk c && slotOk s
  | .phaseComplete c .. | .tsyncComplete c .. | .tlbinvComplete c .. | .ctxsaveWrite c .. => coreOk c
  | .idleTimer c s => coreOk c && slotOk s
  | .hostMemoryWrite b _ bs _ => (b == 0 || b == 2 || b == 4) && 1 ≤ bs.length
  | .hostMemoryRead b _ n => (b == 0 || b == 2 || b == 4) && 1 ≤ n && n ≤ 4096
  | .pcieUnsupportedRequest _ | .pcieError _ | .hostLinkDown | .supervisorMailbox _ | .coldReset | .warmReset => true
  | .domainJoin _ ms => ms.all devOk
  | .kseedLock | .privLock | .attestationStart | .attestationDone => true
  | .coreResume c | .coreIssueHang c => coreOk c
  | .eqHeadWrite .. | .bqHeadWrite _ => true
  | .registerWrite _ size _ => size == 4 || size == 8
  | .powerSample .. => true
  | .temperatureSample cs ss => cs.length == 24 && ss.length == 16
  | .scrub .. => true
  | .unitFence u => u.ok
  | .deviceStop | .deviceStopLinkDrop => true
  | .remoteAccess d pa size _ k => devOk d && pa % size == 0 && (match k with
      | .load => [1, 2, 4, 8, 16, 32, 64].contains size
      | .store bs => [1, 2, 4, 8, 16, 32, 64].contains size && bs.length == size
      | .atom _ t _ | .cas t _ _ => size == t.bits / 8 && (size == 4 || size == 8))
  | .directoryRequest d .. => devOk d
  | .snoop .. | .invalidation _ | .snoopTimeout _ => true
  | .snoopReply _ data => data.length == 64
  | .eorexPortFailure p _ => p < 18
  | .deviceLossNotice d => devOk d
  | .collectiveDelivery .. | .collectiveTimeout .. | .collectiveAbort .. => true
  | .illegalEncoding .. | .hostLinkRetrained | .powerDown => true

end Sys2Proof
end

