-- ==== Sys2Proof/Machine/Ops.lean ====
section
/-!
DEFINITION. The named operations over the machine: accessors, error records (R418 to R421), taking a trap and returning
from it (R429 to R436), ending a team, registers and skeins, filing and held threads (R31 to R64).
-/
namespace Sys2Proof.Machine

/-! ### Accessors -/

def State.now (s : State) : Nat := s.sys.clk
def State.core (s : State) (c : Nat) : Core := (s.cores.find c).getD {}
def State.setCore (s : State) (c : Nat) (k : Core) : State := { s with cores := s.cores.put c k }
def State.modCore (s : State) (c : Nat) (f : Core → Core) : State := s.setCore c (f (s.core c))
def State.thread (s : State) (w : Who) : Option Thread := s.threads.find w
def State.setThread (s : State) (w : Who) (t : Thread) : State := { s with threads := s.threads.put w t }
def State.modThread (s : State) (w : Who) (f : Thread → Thread) : State := { s with threads := s.threads.upd w f }
def State.dropThread (s : State) (w : Who) : State := { s with threads := s.threads.del w }
def State.team (s : State) (t : TeamId) : Option Team := s.teams.find t
def State.modTeam (s : State) (t : TeamId) (f : Team → Team) : State := { s with teams := s.teams.upd t f }
def State.setTeam (s : State) (t : TeamId) (v : Team) : State := { s with teams := s.teams.put t v }
def State.skein (s : State) (c x : Nat) : Option Skein := s.skeins.find (c, x)
def State.modSkein (s : State) (c x : Nat) (f : Skein → Skein) : State := { s with skeins := s.skeins.upd (c, x) f }
def State.setSys (s : State) (y : Sys) : State := { s with sys := y }
def State.setErrs (s : State) (e : Errs) : State := { s with errs := e }
def State.setPlat (s : State) (p : Plat) : State := { s with plat := p }
def State.setFront (s : State) (f : Front) : State := { s with front := f }
def State.setDom (s : State) (d : Domain) : State := { s with dom := d }
def State.setSync (s : State) (y : Sync) : State := { s with sync := y }
def State.grid (s : State) (g : Nat) : Option Grid := s.front.grids.find g
def State.modGrid (s : State) (g : Nat) (f : Grid → Grid) : State :=
  s.setFront { s.front with grids := s.front.grids.upd g f }
def State.die (s : State) (k : Nat) : SearchDie := (s.dies.find k).getD {}
def State.modDie (s : State) (k : Nat) (f : SearchDie → SearchDie) : State :=
  { s with dies := s.dies.put k (f (s.die k)) }
def State.queue (s : State) (q : Nat) : LaunchQueue := (s.front.queues.find q).getD {}
def State.modQueue (s : State) (q : Nat) (f : LaunchQueue → LaunchQueue) : State :=
  s.setFront { s.front with queues := s.front.queues.put q (f (s.queue q)) }
def State.cmd (s : State) (id : Nat) : Option Cmd := s.cmds.find? (fun c => c.id == id)
def State.modCmd (s : State) (id : Nat) (f : Cmd → Cmd) : State :=
  { s with cmds := s.cmds.map (fun c => if c.id = id then f c else c) }
def State.dropCmd (s : State) (id : Nat) : State := { s with cmds := s.cmds.filter (fun c => c.id != id) }

/-- Device steps put at the end of the agenda (log entry 4). -/
def State.due (s : State) (es : List Due) : State :=
  s.setSys { s.sys with agenda := s.sys.agenda ++ es }

/-- The core on which a thread runs; for a walker thread, the requesting core of its search (R362). -/
def State.coreOf (s : State) : Who → Nat
  | .lane c _ _ => c
  | .walk n => match s.thread (.walk n) with
    | some t => (t.walk.map (·.core)).getD 0
    | none => 0

def State.teamIdOf (s : State) : Who → TeamId
  | .lane c k _ => (c, k)
  | .walk n => match s.thread (.walk n) with
    | some t => (t.walk.map (fun x => (x.core, x.team))).getD (0, 0)
    | none => (0, 0)

def whoTid : Who → Nat
  | .lane _ _ t => t
  | .walk n => n

def whoIsWalk : Who → Bool
  | .lane _ _ _ => false
  | .walk _ => true

/-- The stack of a walker thread (R17). -/
def walkerStack (n : Nat) : Nat := n / 512

/-- A walker message's header (R362): `wm.kind`, `wm.stk`, `wm.src` and `wm.dst`; then the search it belongs to. -/
def walkMsg (kind stk src dst : Nat) (x : WalkCtx) : WalkMsg :=
  { h0 := BitVec.ofNat 64 (kind + stk * 2 ^ 4 + src * 2 ^ 8 + dst * 2 ^ 21),
    h1 := BitVec.ofNat 64 (x.asid + x.origin * 2 ^ 16 + x.block * 2 ^ 20 + x.cmd * 2 ^ 26 + x.core * 2 ^ 36 + x.team * 2 ^ 44) }

def WalkMsg.src (m : WalkMsg) : Nat := dfield m.h0 20 8
def WalkMsg.dst (m : WalkMsg) : Nat := dfield m.h0 33 21

/-- The search context that a message carries, on the stack it goes to. -/
def WalkMsg.ctx (m : WalkMsg) : WalkCtx :=
  { stack := dfield m.h0 7 4, asid := dfield m.h1 15 0, origin := dfield m.h1 19 16, block := dfield m.h1 25 20,
    cmd := dfield m.h1 35 26, core := dfield m.h1 43 36, team := dfield m.h1 47 44 }

/-- The tag of a team's grid: `lr.seq` (R419). -/
def State.tagOf (s : State) (t : TeamId) : Nat :=
  match s.team t with
  | some v => match s.grid v.grid with
    | some g => g.seq
    | none => 0
  | none => 0

/-! ### Lane registers, predicates and scalars -/

/-- A lane register (R57). -/
def Thread.rd (t : Thread) (n : Nat) : Word := t.regs.getD n 0
/-- An even/odd pair, the low half in the even register (R57). -/
def Thread.rd2 (t : Thread) (n : Nat) : DWord := (t.rd n).setWidth 64 ||| ((t.rd (n + 1)).setWidth 64 <<< 32)
/-- A lane register written; its value is known again in a run-ahead (R109). -/
def Thread.wr (t : Thread) (n : Nat) (v : Word) : Thread :=
  { t with regs := t.regs.set n v, unkRegs := t.unkRegs.filter (· != n) }
def Thread.wr2 (t : Thread) (n : Nat) (v : DWord) : Thread :=
  (t.wr n (v.setWidth 32)).wr (n + 1) ((v >>> 32).setWidth 32)
def Thread.holding (t : Thread) : Nat := t.regs.length
def Thread.pred (t : Thread) (n : Nat) : Bool := t.preds.getLsbD n
def setBit8 (x : BitVec 8) (n : Nat) (b : Bool) : BitVec 8 :=
  if b then x ||| (1#8 <<< n) else x &&& ~~~(1#8 <<< n)
def Thread.setPred (t : Thread) (n : Nat) (b : Bool) : Thread :=
  { t with preds := setBit8 t.preds n b, unkPreds := setBit8 t.unkPreds n false }

/-- k0 to k15 are the team's, k16 to k63 the skein's, or a run-ahead's private copy (R144, R289). -/
def State.readK (s : State) (n : Nat) : DWord :=
  let i := s.sys.issue
  if n < 16 then
    match s.skein i.core i.ctx with
    | some k => match s.team (i.core, k.slot) with
      | some t => t.ks.getD n 0
      | none => 0
    | none => 0
  else
    match i.runAhead with
    | some r => match s.runs.find? (fun x => x.id == r) with
      | some x => x.ks.getD (n - 16) 0
      | none => 0
    | none => match s.skein i.core i.ctx with
      | some k => k.ks.getD (n - 16) 0
      | none => 0

/-- A skein scalar written; k0 to k15 are read-only (R144). -/
def State.writeK (s : State) (n : Nat) (v : DWord) : State :=
  let i := s.sys.issue
  if n < 16 then s else
  match i.runAhead with
  | some r => { s with runs := s.runs.map (fun x =>
      if x.id = r then { x with ks := x.ks.set (n - 16) v, unkKs := x.unkKs.filter (· != n) } else x) }
  | none => s.modSkein i.core i.ctx (fun k => { k with ks := k.ks.set (n - 16) v })

/-! ### Changes that take effect on the next clk -/

/-- Writes of `$fmode` and of the event latch take effect on the clk after them (R124, R293); sets of guard slots and of buffer
states come first on the clk on which they reach the core's slots and its slice, the one after their issue (R76, R245). -/
def Team.takeMode (t : Team) : Team :=
  { t with fmode := (t.fmodeNew.map (·.2)).getD t.fmode, fmodeNew := none, events := t.events &&& ~~~t.eventsClear, eventsClear := 0,
           guards := t.guardsNew.foldl (fun gs g => gs.set g.1 g.2) t.guards, guardsNew := [],
           bufs := t.bufsNew.foldl (fun bs x => bs.upd x.1 (fun b => { b with state := x.2 })) t.bufs, bufsNew := [] }

/-- Writes of `$drawtime` and `$starve` take effect on the clk after them (R293). -/
def Core.takeTimes (k : Core) : Core :=
  { k with drawtime := k.drawtimeNew.getD k.drawtime, starve := k.starveNew.getD k.starve, drawtimeNew := none, starveNew := none }

/-! ### Error records (R418 to R421) -/

/-- The 64 bytes of an error record (R419). -/
def ErrRec.bytes (r : ErrRec) (seq dev clk : Nat) : List Byte :=
  bytesOf 8 (seq % 2 ^ 32 * 2 ^ 32 + r.sev * 2 ^ 25 + (if r.thr.isSome then 2 ^ 24 else 0) + r.kind * 2 ^ 20 + r.code) ++
  bytesOf 8 (dev * 2 ^ 46 + r.asid * 2 ^ 16 + r.index) ++
  bytesOf 8 r.pc.toNat ++ bytesOf 8 r.addr.toNat ++
  bytesOf 8 (r.tag % 2 ^ 32 * 2 ^ 32 + (if r.phys then 2 ^ 31 else 0) + r.slot * 2 ^ 10 + r.thr.getD 0) ++
  bytesOf 8 r.info0.toNat ++ bytesOf 8 r.info1.toNat ++ bytesOf 8 clk

/-- The queue a severity chooses (R418). -/
def sevQueue (sev : Nat) : Nat :=
  if sev = 0 then 0 else if sev ≤ 2 then 1 else if sev = 3 then 2 else 3

/-- Whether an MSI-X vector's entry is masked (R369; bit 0 of its vector control word). -/
def State.masked (s : State) (v : Nat) : Bool := (s.plat.msix.getD (16 * v + 12) 0).getLsbD 0

/-- An MSI-X message: dropped while the link is down (R492), pending once while masked (R373). -/
def State.interrupt (s : State) (v : Nat) : State :=
  if !s.plat.linkUp then s
  else if s.masked v then s.setPlat { s.plat with msixPend := insertNat s.plat.msixPend v }
  else s.setPlat { s.plat with sent := s.plat.sent ++ [v] }

/-- Event n of R299 set in the latch of every supervisor team, saved ones included; a clearing not yet in effect spares it. -/
def State.latchEvent (s : State) (n : Nat) : State :=
  { s with teams := s.teams.map (fun p => if p.2.sup then (p.1, { p.2 with events := p.2.events ||| (1#4 <<< n), eventsClear := p.2.eventsClear &&& ~~~(1#4 <<< n) }) else p) }

/-- An error record raised: the end of the clk writes it (R421). -/
def State.record (s : State) (r : ErrRec) : State := s.setErrs { s.errs with raised := s.errs.raised ++ [r] }

/-- A fault code of some class and detail that no rule gives, in the form of R416: free choice number n. -/
def freeCode (n : Nat) : Nat :=
  let v := (Config.freeValue n).toNat
  (1 + v % 16) * 256 + 1 + v / 16 % 255

/-- An error record: written to its ring under key slot 0 (log entry 82) or counted lost, then `ev.err` and vector 64 (R420,
R421). -/
def State.writeRecord (s : State) (r : ErrRec) : State :=
  let q := sevQueue r.sev
  let e := s.errs.queues.getD q {}
  let s := s.setErrs { s.errs with seq := s.errs.seq + 1 }
  if e.log = 0 ∨ (e.tail + 2 ^ 32 - e.head) % 2 ^ 32 = 2 ^ e.log then
    s.setErrs { s.errs with queues := s.errs.queues.set q { e with ovf := true, lost := Nat.min (e.lost + 1) (2 ^ 32 - 1) } }
  else
    let s := s.setErrs { s.errs with queues := s.errs.queues.set q { e with tail := (e.tail + 1) % 2 ^ 32 } }
    let s := match s.loc (e.base + 64 * (e.tail % 2 ^ e.log)) with
      | some l => if s.fencedLoc l then s else s.write {} 0 l (r.bytes (s.errs.seq - 1) s.dom.dev s.now)
      | none => s
    (s.latchEvent 0).interrupt 64

/-- The order of the records of one clk: by `er.kind`, then by `er.index` (R421). -/
def ErrRec.before (a b : ErrRec) : Bool := a.kind < b.kind || (a.kind == b.kind && a.index ≤ b.index)

/-- The records of the clk written in their order. -/
def State.writeRecords (s : State) : State :=
  (sortBy ErrRec.before s.errs.raised).foldl State.writeRecord (s.setErrs { s.errs with raised := [] })

/-- At most one severity-0 record per ms for a unit; the others are counted (R421). -/
def State.corrected (s : State) (kind index : Nat) (loc : Nat) : State :=
  let prev := s.errs.corrected.find (kind, index)
  let cnt := (prev.map (·.2)).getD 0 + 1
  match prev with
  | some (t, _) =>
    if s.now < t + 2500000 then s.setErrs { s.errs with corrected := s.errs.corrected.put (kind, index) (t, cnt) }
    else (s.setErrs { s.errs with corrected := s.errs.corrected.put (kind, index) (s.now, 0) }).record
      { code := 0x0F02, sev := 0, kind, index, addr := dw loc, phys := true, info0 := dw cnt }
  | none => (s.setErrs { s.errs with corrected := s.errs.corrected.put (kind, index) (s.now, 0) }).record
      { code := 0x0F02, sev := 0, kind, index, addr := dw loc, phys := true, info0 := dw cnt }

/-- The unit that reports a memory location (R419): a slice, or a memory controller. -/
def memUnit (loc : Nat) : Nat × Nat := if isTile loc then (2, sliceOf loc) else (4, controllerOf loc)

/-- An uncorrectable error found in a line: poison and one 0x0F03 record (R423); a line already marked is no new
detection. -/
def State.poisonDetected (s : State) (kind index loc : Nat) : State :=
  if s.mem.poison.contains (loc / 64) then s
  else (s.setMem (s.mem.poisonLine (loc / 64))).record
    { code := 0x0F03, sev := 1, kind, index, addr := dw (loc / 64 * 64), phys := true }

/-! ### The register pool, skeins and bobbins -/

/-- The event that readies a thread on a gated core restarts the core 48 clk later (R64). -/
def State.wakeCore (s : State) (c : Nat) : State :=
  let k := s.core c
  if k.gated ∧ k.restartAt = none then s.setCore c { k with restartAt := some (s.now + 48) } else s

/-- A thread becomes ready (R30). -/
def State.ready (s : State) (w : Who) : State :=
  (s.modThread w (fun t => { t with state := .ready, readySince := s.now, stall := .none })).wakeCore (s.coreOf w)

/-- A blocked thread's wait completes with its instruction: it goes on after it (R221). -/
def State.readyPast (s : State) (w : Who) (len : Nat) : State :=
  (s.modThread w (fun t => { t with pc := t.pc + dw len })).ready w

/-- The threads of a team with their names. -/
def State.threadsOf (s : State) (t : TeamId) : List (Who × Thread) :=
  s.threads.filter (fun p => match p.1 with
    | .lane c k _ => c = t.1 ∧ k = t.2
    | .walk _ => false)

/-- Whether a thread is in a skein, not in a bobbin nor on its way there (R30). -/
def Thread.inSkein (t : Thread) : Bool :=
  match t.state with
  | .filing => false
  | .filed _ => false
  | _ => true

/-- The threads of one skein in lane order (R31). -/
def State.skeinThreads (s : State) (c x : Nat) : List (Who × Thread) :=
  let ms := s.threads.filter (fun p => match p.1 with
    | .lane c' _ _ => c' = c ∧ p.2.ctx = x ∧ p.2.inSkein
    | .walk _ => false)
  (List.range 32).filterMap (fun l => ms.find? (fun p => p.2.lane = l))

/-- The threads on a core. -/
def State.coreThreads (s : State) (c : Nat) : List (Who × Thread) :=
  s.threads.filter (fun p => match p.1 with
    | .lane c' _ _ => c' = c
    | .walk _ => false)

def State.freeContexts (s : State) (c : Nat) : List Nat :=
  (List.range Config.contexts).filter (fun x => (s.skein c x).isNone)

/-- The pipe with the fewest skeins, the lowest on a tie (R41, R318). -/
def State.bestPipe (s : State) (c : Nat) : Nat :=
  let cnt (p : Nat) := (s.skeins.filter (fun k => k.1.1 = c ∧ k.2.pipe = p)).length
  (List.range 4).foldl (fun b p => if cnt p < cnt b then p else b) 0

/-- The next owner of a core's matrix engine (R248). -/
def State.passOwner (s : State) (c : Nat) : State :=
  let k := s.core c
  match k.ownerQueue with
  | [] => s.setCore c { k with owner := none }
  | x :: xs => s.setCore c { k with owner := some x, ownerQueue := xs }

/-- A skein context freed: matrix ownership passes, and its place in the owner queue is lost (R31, R248, R324). -/
def State.freeSkein (s : State) (c x : Nat) : State :=
  let s := { s with skeins := s.skeins.del (c, x) }
  let s := s.modCore c (fun k => { k with ownerQueue := k.ownerQueue.filter (· != x),
                                          poolQueue := k.poolQueue.filter (fun r => r != .skein x) })
  if (s.core c).owner = some x then s.passOwner c else s

/-- A skein left with no thread frees its context (R31). -/
def State.sweepSkein (s : State) (c x : Nat) : State :=
  if (s.skeinThreads c x).isEmpty then s.freeSkein c x else s

/-- Filing order of R39: the bobbin that carries the key and has room, or a free one. -/
def State.bobbinFor (s : State) (c slot : Nat) (pc : DWord) : Option Nat :=
  let k := s.core c
  match k.bobbins.find? (fun b => b.2.slot = slot ∧ b.2.pc = pc) with
  | some (n, b) => if b.threads.length < 64 then some n else none
  | none => (List.range 64).find? (fun n => (k.bobbins.find n).isNone)

/-- One filing thread placed in its bobbin, where one can take it (R39). -/
def State.fileOne (s : State) (c : Nat) (w : Who) : State :=
  match w, s.thread w with
  | .lane _ slot tid, some t =>
    match s.bobbinFor c slot t.nextFile with
    | some n =>
      let b := (s.core c).bobbins.find n |>.getD { slot, pc := t.nextFile, threads := [] }
      let s := s.modCore c (fun k => { k with bobbins := k.bobbins.put n { b with threads := b.threads ++ [(tid, s.now)] } })
      s.modThread w (fun t => { t with state := .filed n })
    | none => s
  | _, _ => s

/-- The names of threads in state filing on a core, in the order they began (R39); one that waits for registers (R40)
is not among them. -/
def State.filingOf (s : State) (c : Nat) : List Who :=
  let fs := (s.coreThreads c).filter (fun p => p.2.state = .filing)
  let fs := fs.filter (fun p => match p.1 with
    | .lane _ slot _ => p.2.holding > 0 || (match s.team (c, slot) with
      | some t => decide (t.cls = 2)
      | none => true)
    | .walk _ => false)
  (sortBy (fun (a b : Who × Thread) => decide (a.2.order ≤ b.2.order)) fs).map (·.1)

/-- Waiting filing threads placed in bobbins (R39, step BOBBIN_FILING). -/
def State.fileAll (s : State) (c : Nat) : State := (s.filingOf c).foldl (fun s w => s.fileOne c w) s

/-- Whether R36 releases the threads of a skein held at A: every other is at or above A, has left, or has waited. -/
def releaseDue (ms : List (Who × Thread)) (a : DWord) : Bool :=
  ms.all (fun p => p.2.waited || a.toNat ≤ p.2.pc.toNat || (p.2.state = .held ∧ p.2.pc = a))

/-- Held threads of a skein that R36 releases become ready, to issue their `converge` together. -/
def State.releaseHeld (s : State) (c x : Nat) : State :=
  let ms := s.skeinThreads c x
  let go := ms.filter (fun p => p.2.state = .held ∧ releaseDue ms p.2.pc)
  go.foldl (fun s p => (s.modThread p.1 (fun t => { t with released := true })).ready p.1) s

/-! ### Taking a trap (R429 to R436) -/

/-- A failed check: its code and what its record says (R419, R452). -/
structure Fail where
  code : Nat
  addr : DWord := 0
  phys : Bool := false
  info0 : DWord := 0
  info1 : DWord := 0
deriving DecidableEq, Repr

/-- Whether two residency slots belong to one grid that ends as a whole: a C grid or a gang (R436 step 5). -/
def State.endsTogether (s : State) (g : Nat) : Bool :=
  match s.grid g with
  | some r => r.cls = 0 || r.kind = .gang
  | none => false

/-- A thread leaves the device: its held-back stores reach their homes (R79), its registers return to the pool, its skein
context may free (R50). -/
def State.removeThread (s : State) (w : Who) : State :=
  match w, s.thread w with
  | .lane c slot tid, some t =>
    let s := (s.drainOf w).dropThread w
    let s := s.modCore c (fun k => { k with
      free := k.free + t.holding,
      poolQueue := k.poolQueue.filter (fun r => match r with
        | .claim sl ti _ => !(sl = slot ∧ ti = tid)
        | .spawn sl ti _ => !(sl = slot ∧ ti = tid)
        | .skein _ => true),
      bobbins := (k.bobbins.map (fun b =>
        if b.2.slot = slot then (b.1, { b.2 with threads := b.2.threads.filter (fun x => x.1 != tid) }) else b)).filter
          (fun b => !b.2.threads.isEmpty) })
    if t.inSkein then s.sweepSkein c t.ctx else s
  | .walk _, _ => s.dropThread w
  | _, none => s

/-- One team ends: its threads stop at once, its waits and claims are withdrawn (R436 steps 1 and 2), and its
bobbins are free for threads that wait in filing (R39). It retires at a
later TEAM_RETIRE step, when its engine commands are done. -/
def State.stopTeam (s : State) (t : TeamId) (e : Nat × Nat × Nat) : State :=
  match s.team t with
  | some v =>
    if v.ending.isSome then s else
    let s := s.modTeam t (fun v => { v with ending := some e })
    let ws := (s.threadsOf t).map (·.1)
    let s := { s with runs := s.runs.filter (fun r => !(r.whos.any (fun w => w ∈ ws))) }
    (ws.foldl (fun s w => s.removeThread w) s).fileAll t.1
  | none => s

/-- A team ends with a code, and with it the other teams of a C grid or a gang (R436); the grid's status is the code of
the first team that ended. `info` is what the team's record says further (R432). -/
def State.endTeam (s : State) (t : TeamId) (code info0 info1 : Nat) : State :=
  match s.team t with
  | some v =>
    let s := s.modGrid v.grid (fun g => if g.ended then g else { g with ended := true, status := code })
    let s := s.stopTeam t (code, info0, info1)
    if s.endsTogether v.grid then
      ((s.teams.filter (fun p => p.2.grid = v.grid)).map (·.1)).foldl (fun s t => s.stopTeam t (code, 0, 0)) s
    else s
  | none => s

/-- The trap registers an instruction's words give (R153). -/
def trapFields (w1 w2 : Word) (two : Bool) (pc : DWord) (code : Nat) : TrapRegs :=
  { code := wd code,
    op := wd (w1.toNat / 2 ^ 24 * 2 ^ 24 +
      (if two then w2.toNat / 2 ^ 24 * 2 ^ 16 + w2.toNat / 2 ^ 20 % 16 * 2 ^ 12 + w2.toNat / 2 ^ 16 % 16 * 2 ^ 8 + 1 else 0)),
    d := wd (w1.toNat / 2 ^ 16 % 256), a := wd (w1.toNat / 2 ^ 8 % 256), b := wd (w1.toNat % 256),
    imm := wd (if two then w2.toNat % 2 ^ 16 else w1.toNat % 2 ^ 24), pc }

/-- The length of the issuing instruction in bytes (R134). -/
def Issue.len (i : Issue) : Nat := if i.two then 8 else 4

/-- The record of a trap: severity 2, for every code but 0x0101 and the software traps (R422). -/
def State.trapRecord (s : State) (w : Who) (f : Fail) : State :=
  if f.code = 0x0101 ∨ f.code ≤ 1 then s else
  match w with
  | .lane c slot tid => s.record
      { code := f.code, sev := 2, kind := 1, index := c, thr := some tid, slot,
        asid := ((s.team (c, slot)).map (·.asid)).getD 0, pc := s.sys.issue.pc, addr := f.addr, phys := f.phys,
        tag := s.tagOf (c, slot), info0 := f.info0, info1 := f.info1 }
  | .walk _ => s

/-- The address of a skein's trap handler: k63 (R431). -/
def State.handler (s : State) (c x : Nat) : DWord := ((s.skein c x).map (fun k => k.ks.getD 47 0)).getD 0

/-- TAKING A TRAP (R431): the double fault ends the team (R432); the trap registers are set, and the record
is written (R422); a handler missing or misaligned ends the team with the code, and otherwise `trap_active` becomes 1 and the pc goes to the handler in k63. The new lane set
starts with a pass count of 0. -/
def State.trapLane (s : State) (w : Who) (f : Fail) : State :=
  match w, s.thread w with
  | .lane c slot _, some t =>
    if t.trapActive then s.endTeam (c, slot) 0x030A t.trap.code.toNat f.code
    else
      let i := s.sys.issue
      let h := s.handler c t.ctx
      let regs := trapFields i.w1 i.w2 i.two i.pc f.code
      if h = 0 ∨ h.toNat % 4 ≠ 0 then
        ((s.setThread w { t with trap := regs }).trapRecord w f).endTeam (c, slot) f.code 0 0
      else
        (s.setThread w { t with trap := regs, trapActive := true, pc := h, pass := 0, stall := .none,
                                state := .ready, released := false }).trapRecord w f
  | _, _ => s

/-- Faulting lanes enter the trap in increasing lane order (R431). -/
def State.trapLanes (s : State) (fs : List (Who × Fail)) : State := fs.foldl (fun s p => s.trapLane p.1 p.2) s

/-- THE RETURN FROM A TRAP is `jr`, which clears `trap_active` (R432, R434). -/
def State.returnFromTrap (s : State) (w : Who) (target : DWord) : State :=
  s.modThread w (fun t => { t with trapActive := false, pc := target })

end Sys2Proof.Machine
end

