-- ==== Sys2Proof/Machine/Translate.lean ====
section
/-!
DEFINITION. Address translation, the checks on one access, declared buffers and batched page faults:
spec/04_address_translation.md, R73 to R76, R450 to R460.
-/
namespace Sys2Proof.Machine

/-! ### Page-table entries and walks (R96 to R102) -/

/-- The first virtual-address bit of each level's index (R96). -/
def levelShift : Nat → Nat
  | 0 => 16
  | 1 => 21
  | 2 => 30
  | 3 => 39
  | _ => 48

def levelIndex (lv va : Nat) : Nat := bitsOf va (if lv = 4 then 56 else levelShift (lv + 1) - 1) (levelShift lv)

def pteValid (e : DWord) : Bool := dbit e 0
def pteLeaf (e : DWord) : Bool := dbit e 1
def pteWrite (e : DWord) : Bool := dbit e 2
def pteExec (e : DWord) : Bool := dbit e 3
def pteUser (e : DWord) : Bool := dbit e 4
def pteTso (e : DWord) : Bool := dbit e 5
def pteLine (e : DWord) : Bool := dbit e 6
def pteAddr (e : DWord) : Nat := dfield e 51 8 * 256
def pteKey (e : DWord) : Nat := dfield e 57 52

/-- The ranges of R66 that hold memory of this device, populated or not (R98). -/
def inMemoryRanges (a : Nat) : Bool :=
  a < 0x10000000000 || (Config.stackBase ≤ a && a < Config.stackBase + 16 * 0x1000000000) ||
  (Config.tileBase ≤ a && a < Config.tileBase + Config.cores * Config.sliceBytes)

def inLeafRanges (a : Nat) : Bool :=
  inMemoryRanges a || isCtl a ||
  (Config.remoteBase ≤ a && a < Config.remoteBase + 288 * 0x40000000000)

/-- A valid entry that R98 makes malformed at its level. -/
def pteMalformed (lv : Nat) (e : DWord) : Bool :=
  dfield e 63 58 != 0 || dbit e 7 ||
  (if pteLeaf e then
    3 ≤ lv || pteAddr e % 2 ^ levelShift lv != 0 || (pteTso e && pteLine e) || !inLeafRanges (pteAddr e)
  else
    lv == 0 || (2 ≤ lv && pteAddr e % 4096 != 0) || !inMemoryRanges (pteAddr e))

/-- What a table walk finds (R98, R102, R451). -/
inductive WalkRes where
  | leaf (e : DWord) (log : Nat)
  | invalid
  | malformed (lv : Nat) (e : DWord)
  | unreadable (lv : Nat)
deriving DecidableEq, Repr

/-- One walk from a level's table downward, each entry a load at its home under key slot 0 (R100, R391). Entries of
levels 4 to 1 come from the walk cache where it holds them (R102); its oldest entry leaves a full one, and a hit makes an entry
the newest (log entry 80). -/
def State.walkGo (s : State) (asid va table : Nat) : Nat → State × WalkRes
  | 0 => (s, .invalid)
  | fuel + 1 =>
    let lv := fuel
    let pre := va / 2 ^ levelShift lv
    let use (s : State) (e : DWord) : State × WalkRes :=
      if !pteValid e then (s, .invalid)
      else if pteMalformed lv e then (s, .malformed lv e)
      else
        let s := if 1 ≤ lv then
          s.setMem { s.mem with walkCache := ((s.mem.walkCache.filter (fun c => !(c.1 = asid ∧ c.2.1 = lv ∧ c.2.2.1 = pre))) ++
            [(asid, lv, pre, e)]).reverse.take 256 |>.reverse } else s
        if pteLeaf e then (s, .leaf e (levelShift lv)) else State.walkGo s asid va (pteAddr e) fuel
    match s.mem.walkCache.find? (fun c => c.1 = asid ∧ c.2.1 = lv ∧ c.2.2.1 = pre ∧ 1 ≤ lv) with
    | some c => use s c.2.2.2
    | none =>
      match s.loc (table + 8 * levelIndex lv va) with
      | none => (s, .unreadable lv)
      | some l =>
        if s.fencedLoc l ∨ s.mem.poisoned l 8 then (s, .unreadable lv)
        else use s.arrived (dw (numOfBytes (s.mem.read 0 l 8)))

/-- A whole walk from the root table (R96). -/
def State.walkTable (s : State) (asid root va : Nat) : State × WalkRes := s.walkGo asid (va % 2 ^ 57) root 5

/-- Capacity of a TLB (R101, R114). -/
def tlbCap : TlbUnit → Nat
  | .core _ => 2048
  | .die _ => 1024

def State.tlb (s : State) (u : TlbUnit) : List TlbEntry := (s.mem.tlbs.find u).getD []

/-- A translation installed; the oldest leaves a full TLB (log entry 80). -/
def State.tlbFill (s : State) (u : TlbUnit) (e : TlbEntry) : State :=
  let l := (s.tlb u).filter (fun x => !(x.asid = e.asid ∧ x.base = e.base ∧ x.log = e.log)) ++ [e]
  s.setMem { s.mem with tlbs := s.mem.tlbs.put u (l.drop (l.length - tlbCap u)) }

/-- The TLB, or a walk that fills it; no invalid entry is ever held (R101). -/
def State.tlbLookup (s : State) (u : TlbUnit) (asid root va : Nat) : State × WalkRes :=
  let v := va % 2 ^ 57
  match (s.tlb u).find? (fun e => e.asid = asid ∧ e.base = v / 2 ^ e.log) with
  | some e => (s, .leaf e.leaf e.log)
  | none =>
    match s.walkTable asid root va with
    | (s, .leaf e log) => (s.tlbFill u { asid, base := v / 2 ^ log, log, leaf := e }, .leaf e log)
    | r => r

/-- The run of an extent table that holds an address (R106). -/
def Grid.extRun (g : Grid) (va : Nat) : Option (Extent × ExtRun) :=
  (g.extents.filterMap (fun p =>
    if p.2.base ≤ va ∧ va < p.2.base + p.2.len then
      (p.2.runs.find? (fun r => r.va ≤ va ∧ va < r.va + r.bytes)).map (fun r => (p.2, r))
    else none)).head?

/-! ### Accesses (R450) -/

/-- Kinds of access, numbered as `er.info0` [2:0] (R452). -/
inductive AccKind where
  | load | store | atomic | fetch | engRead | engWrite | walk
deriving DecidableEq, Repr

def AccKind.num : AccKind → Nat
  | .load => 0 | .store => 1 | .atomic => 2 | .fetch => 3 | .engRead => 4 | .engWrite => 5 | .walk => 6

def AccKind.writes : AccKind → Bool
  | .store | .atomic | .engWrite => true
  | _ => false

/-- Who asks: the address space, the level, and whether it is a plain lane load or store (R454). -/
structure Access where
  core : Nat
  team : TeamId
  unit : TlbUnit
  asid : Nat
  root : Nat
  grid : Option Nat
  user : Bool
  kind : AccKind
  va : DWord
  size : Nat
  align : Nat
  plain : Bool := false
  lane : Bool := false
deriving DecidableEq, Repr

/-- Where an admitted access goes. -/
structure Target where
  loc : Nat
  key : Nat := 0
  tso : Bool := false
  line : Bool := false
deriving DecidableEq, Repr

/-- The outcome of steps 1 to 8 of R450. -/
inductive AccRes where
  | ok (t : Target)
  | fault (f : Fail)
  | page (va : Nat)
deriving DecidableEq, Repr

/-- Bits [63:57] all equal to bit 56 (R65). -/
def canonical (va : DWord) : Bool := dfield va 63 56 == 0 || dfield va 63 56 == 255

def Access.fail (a : Access) (code lv : Nat) (e : DWord) : AccRes :=
  .fault { code, addr := a.va, info0 := dw (a.kind.num + 16 * lv), info1 := e }

/-- Steps 6 to 8 of R450 for a leaf or an extent's run. -/
def State.vetted (s : State) (a : Access) (leaf : DWord) (lv pa : Nat) (roExtent : Bool) : AccRes :=
  let ctl := isCtl pa
  if roExtent && a.kind.writes then a.fail 0x0705 0 0
  else if (a.kind.writes && !pteWrite leaf) || (a.kind = .fetch && !pteExec leaf) || (a.user && !pteUser leaf) ||
      (ctl && a.user) then a.fail 0x0704 lv leaf
  else if (pteLine leaf && !a.lane) || (ctl && !(a.plain && (a.size = 4 || a.size = 8))) then a.fail 0x0506 0 0
  else
    match s.loc pa with
    | none => .fault { code := 0x0503, addr := dw pa, phys := true, info0 := dw a.kind.num }
    | some l => .ok { loc := l, key := pteKey leaf, tso := pteTso leaf, line := pteLine leaf }

/-- The alias window of R71. -/
def aliasBase : Nat := 0x00FFFFFFFF800000
def inAlias (va : DWord) : Bool := aliasBase ≤ va.toNat && va.toNat ≤ 0x00FFFFFFFFFFFFFF

/-- The level of a leaf by the bits its page covers (R96). -/
def leafLevel (log : Nat) : Nat := if log = 16 then 0 else if log = 21 then 1 else 2

/-- Steps 1 to 8 of R450: everything that is checked at issue. -/
def State.checkIssue (s : State) (a : Access) : State × AccRes :=
  let va := a.va.toNat
  if !canonical a.va then (s, a.fail 0x0501 0 0)
  else if a.user && dbit a.va 56 then (s, a.fail 0x0504 0 0)
  else if va % a.align ≠ 0 then (s, a.fail 0x0502 0 0)
  else if inAlias a.va && a.unit == .core a.core then
    let o := va - aliasBase
    let own := match s.team a.team with
      | some t => t.tileBase ≤ o && o + a.size ≤ t.tileBase + t.tileSize
      | none => false
    if a.user && !own then (s, a.fail 0x0505 0 0)
    else (s, .ok { loc := Config.tileBase + a.core * Config.sliceBytes + o })
  else
    match (a.grid.bind s.grid).bind (fun g => g.extRun va) with
    | some (e, r) => (s, s.vetted a r.leaf r.level (r.pa + (va - r.va)) (!e.write))
    | none =>
      match s.tlbLookup a.unit a.asid a.root va with
      | (s, .leaf e log) => (s, s.vetted a e (leafLevel log)
                              (pteAddr e + va % 2 ^ log) false)
      | (s, .invalid) => (s, .page va)
      | (s, .malformed lv e) => (s, a.fail 0x0703 lv e)
      | (s, .unreadable lv) => (s, a.fail 0x0706 lv 0)

/-! ### Declared buffers and the regions the device keeps (R73 to R76, R227, R231, R266) -/

/-- What stands at a tile location. -/
inductive Region where
  | buf (r : BufRef) (b : Buf)
  | busy (kind core slot : Nat)
deriving DecidableEq, Repr

def overlaps (a n b m : Nat) : Bool := a < b + m && b < a + n

/-- Bytes of a queue: depth times 8, rounded up to 64 (R227). -/
def Chan.bytes (c : Chan) : Nat := alignUp 64 (8 * c.depth)
def Hank.bytes (h : Hank) : Nat := 64 + 8 * 2 ^ h.cap

/-- The regions that a byte range of a slice touches: declared buffers, bound queues, live hanks, live graphs. -/
def State.regionsAt (s : State) (loc n : Nat) : List Region :=
  if !isTile loc then [] else
  let c := sliceOf loc
  let base := Config.tileBase + c * Config.sliceBytes
  let ofTeam (p : TeamId × Team) : List Region :=
    (p.2.bufs.filterMap (fun b =>
      if overlaps (base + p.2.tileBase + b.2.off) b.2.size loc n then
        some (.buf { core := c, slot := p.1.2, num := b.1 } b.2) else none)) ++
    (p.2.chans.filterMap (fun q =>
      if q.2.kind = .team ∧ overlaps (base + p.2.tileBase + q.2.off) q.2.bytes loc n then
        some (.busy 0 c p.1.2) else none))
  ((s.teams.filter (fun p => p.1.1 = c)).flatMap ofTeam) ++
  (s.front.grids.flatMap (fun g => g.2.gangChans.filterMap (fun q =>
    match s.team q.2.owner with
    | some t => if q.2.owner.1 = c ∧ overlaps (base + t.tileBase + q.2.off) q.2.bytes loc n then
        some (.busy 0 c q.2.owner.2) else none
    | none => none))) ++
  (s.hanks.filterMap (fun h => if overlaps h.1 h.2.bytes loc n then some (.busy 1 c h.2.owner.2) else none)) ++
  (s.graphs.filterMap (fun g => if g.2.record.isNone ∧ overlaps g.2.loc (64 * g.2.n) loc n then
    some (.busy 2 c g.2.team.2) else none))

def BufState.num : BufState → Nat
  | .empty => 0 | .filling => 1 | .full => 2 | .draining => 3

/-- The record fields of a buffer-state violation (R452). -/
def bufFail (kind : AccKind) (va : DWord) : Region → Fail
  | .buf r b => { code := 0x0601, addr := va,
                  info0 := dw (kind.num + r.num * 256 + b.state.num * 2 ^ 14), info1 := dw (r.core + 256 * r.slot) }
  | .busy k c t => { code := 0x0601, addr := va,
                     info0 := dw (kind.num + 128 + k * 256 + 2 ^ 14), info1 := dw (c + 256 * t) }

/-- Whether a region refuses a thread's access (R74, R227). -/
def regionRefuses (kind : AccKind) (team : TeamId) : Region → Bool
  | .busy _ _ _ => true
  | .buf r b =>
    if kind.writes then
      !(b.state = .empty && (b.prod = .any || (b.prod = .team && team = (r.core, r.slot))))
    else b.state = .filling

/-- Steps 9 to 12 of R450 at the home of a thread's access: fence, key slot, buffer state, poison. -/
def State.checkHome (s : State) (a : Access) (t : Target) : Option Fail :=
  if s.fencedLoc t.loc then
    if a.kind.writes then some { code := 0x0F05, addr := dw t.loc, phys := true, info0 := dw a.kind.num }
    else some { code := 0x0F01, addr := a.va, info0 := dw a.kind.num }
  else if isHbm t.loc && (s.mem.keys.find t.key).isNone then some { code := 0x1004, addr := a.va, info0 := dw a.kind.num }
  else
    match (s.regionsAt t.loc a.size).find? (regionRefuses a.kind a.team) with
    | some r => some (bufFail a.kind a.va r)
    | none =>
      if isRemote t.loc && s.dom.lost.contains (remoteDev t.loc) then
        some { code := 0x0F01, addr := a.va, info1 := dw 0x0D06 }
      else if a.kind != .store && s.mem.poisoned t.loc a.size then
        some { code := 0x0F01, addr := a.va, info0 := dw a.kind.num }
      else none

/-- Every byte range of a wider read checked for poison; a whole access by its pieces. -/
def State.bufGet (s : State) (r : BufRef) : Option Buf :=
  (s.team (r.core, r.slot)).bind (fun t => t.bufs.find r.num)

def State.bufSetState (s : State) (r : BufRef) (st : BufState) : State :=
  s.modTeam (r.core, r.slot) (fun t => { t with bufs := t.bufs.upd r.num (fun b => { b with state := st }) })

/-! ### The batch ring (R108 to R113, R395, R456 to R460) -/

/-- The 512 bytes of a batch entry (R110). -/
def BatchEntry.bytes (b : BatchEntry) (seq : Nat) : List Byte :=
  padTo 512 0 (bytesOf 8 (seq % 2 ^ 32 * 2 ^ 32 + b.granules.length * 2 ^ 16 + b.code) ++
    bytesOf 8 (b.core * 2 ^ 16 + b.asid) ++ bytesOf 8 b.pc.toNat ++ bytesOf 8 0 ++
    b.granules.flatMap (fun g => bytesOf 8 (g.1 / 65536 * 65536 + (if g.2.2 then 2 else 0) + (if g.2.1 then 1 else 0))))

def Errs.ringFull (e : Errs) : Bool :=
  e.bqLog = 0 || (e.bqTail + 65536 - e.bqHead) % 65536 = 2 ^ e.bqLog % 65536

/-- The record that goes with a batch entry; `idx` is its index, none where the entry was dropped (R395, R452). -/
def State.batchRecord (s : State) (b : BatchEntry) (idx : Option Nat) : State :=
  let dropped := idx.isNone
  s.record { code := b.code, sev := 1, kind := b.kind, index := b.index, thr := b.tid, slot := (b.team.map (·.2)).getD 0,
             asid := b.asid, pc := b.pc, tag := b.tag,
             addr := if dropped then dw (((b.granules.head?).map (·.1)).getD 0) else b.addr,
             info0 := dw (b.access + (idx.getD 0 % 65536) * 2 ^ 16 + (if b.code = 0x0702 then b.refault * 2 ^ 32 else 0) +
               (if dropped then 2 ^ 40 else 0)),
             info1 := if dropped then dw b.granules.length else 0 }

/-- A batch entry written at the producer index under key slot 0, or lost where its place is unpopulated or fenced (log entry
82), then its record, `ev.batch` and vector 65 (R110, R299, R373). -/
def State.batchWrite (s : State) (b : BatchEntry) : State :=
  let e := s.errs
  let idx := e.bqTail
  let s := match s.loc (e.bqBase + 512 * (idx % 2 ^ e.bqLog)) with
    | some l => if s.fencedLoc l then s else s.write {} 0 l (b.bytes e.batchSeq)
    | none => s
  let s := s.setErrs { s.errs with bqTail := (idx + 1) % 65536, batchSeq := e.batchSeq + 1 }
  ((s.batchRecord b (some idx)).latchEvent 1).interrupt 65

/-- A batch entry made: written, or waiting for room, or dropped with its own record (R395). -/
def State.batch (s : State) (b : BatchEntry) : State :=
  if s.errs.ringFull || !s.errs.waiting.isEmpty then
    if s.errs.waiting.length < 64 then s.setErrs { s.errs with waiting := s.errs.waiting ++ [b] }
    else s.batchRecord b none
  else s.batchWrite b

/-- One granule added to a batch in the order first met: one already listed adds nothing (R110, R456). -/
def addGranule (l : List (Nat × Bool × Bool)) (va : Nat) (store fetch : Bool) : List (Nat × Bool × Bool) :=
  let g := va / 65536 * 65536
  if l.any (fun x => x.1 = g) then l else l ++ [(g, store, fetch)]

/-- A fault of a thread's access: a refault, counted, where `replay` has retried that access, the fetch or an access of the
instruction at that PC; else a first fault (R113, R459). -/
def Thread.fault701 (t : Thread) (pc : DWord) (fetch : Bool) : Thread × Nat :=
  if t.retried && t.refaultPc == pc && t.refetch == fetch then ({ t with refault := Nat.min 255 (t.refault + 1) }, 0x0702)
  else ({ t with refaultPc := pc, refetch := fetch, refault := 0, retried := false }, 0x0701)

/-- The checkpoint of R108 step 2. -/
def Thread.checkpoint (t : Thread) (pc : DWord) : Checkpoint :=
  { pc, regs := t.regs, preds := t.preds, rstack := t.rstack, fflags := t.fflags, waited := t.waited,
    trapActive := t.trapActive }

/-- Rolled back to its checkpoint and parked (R108 step 4). -/
def Thread.rollback (t : Thread) : Thread :=
  match t.ck with
  | some k => { t with pc := k.pc, regs := k.regs, preds := k.preds, rstack := k.rstack, fflags := k.fflags,
                       waited := k.waited, trapActive := k.trapActive,
                       state := .parked, runAhead := none, ck := none, unkRegs := [], unkPreds := 0, stall := .none,
                       yielding := false }
  | none => { t with state := .parked, runAhead := none, stall := .none }

/-- The end of a run-ahead: one batch entry, and at one instant every thread rolls back and parks (R108, R110). -/
def State.rollbackRun (s : State) (id : Nat) : State :=
  match s.runs.find? (fun r => r.id = id) with
  | some r =>
    let s := { s with runs := s.runs.filter (fun r => r.id ≠ id) }
    let s := r.whos.foldl (fun s w => s.modThread w Thread.rollback) s
    let tm := (r.whos.head?).map s.teamIdOf
    s.batch { code := r.code, core := r.core, asid := r.asid, pc := r.pc, granules := r.granules,
              refault := ((r.whos.head?).bind s.thread |>.map (·.refault)).getD 0, team := tm,
              tag := (tm.map s.tagOf).getD 0, index := r.core, tid := (r.whos.head?).map whoTid, access := r.access, addr := r.addr }
  | none => s

/-- The faulting lanes of one instruction start a run-ahead (R108): one lane set, checkpointed at the instruction, with
the destination registers unknown and the pc past the instruction; `kind` and `va` are those of the first fault, the code and
the refault count those of the first lane (log entry 81). -/
def State.startRun (s : State) (ws : List Who) (kind : AccKind) (va : Nat) (granules : List (Nat × Bool × Bool)) (unk : List Nat) : State :=
  match ws with
  | [] => s
  | w0 :: _ =>
    let i := s.sys.issue
    let id := s.sys.nextRun
    let code := match s.thread w0 with
      | some t => (t.fault701 i.pc false).2
      | none => 0x0701
    let ks := match s.skein i.core i.ctx with
      | some k => k.ks
      | none => []
    let s := s.setSys { s.sys with nextRun := id + 1 }
    let s := ws.foldl (fun s w => s.modThread w (fun t =>
      let t := (t.fault701 i.pc false).1
      { t with ck := some (t.checkpoint i.pc), runAhead := some id, pc := i.pc + dw i.len, unkRegs := unk, pass := 0 })) s
    let asid := ((s.team (s.teamIdOf w0)).map (·.asid)).getD 0
    let s := { s with runs := s.runs ++ [{ id, core := i.core, ctx := i.ctx, ks, granules := granules.take 33, code, pc := i.pc,
                                           asid, access := kind.num, addr := dw va, whos := ws }] }
    if 33 ≤ granules.length then s.rollbackRun id else s

/-- A fault at an instruction fetch leaves nothing to run ahead: the lanes park at once with one granule (R456). -/
def State.parkFetch (s : State) (ws : List Who) (va : Nat) : State :=
  match ws with
  | [] => s
  | w0 :: _ =>
    let i := s.sys.issue
    let code := match s.thread w0 with
      | some t => (t.fault701 i.pc true).2
      | none => 0x0701
    let s := ws.foldl (fun s w => s.modThread w (fun t =>
      { (t.fault701 i.pc true).1 with state := .parked, ck := some (t.checkpoint i.pc) })) s
    let s := ws.foldl (fun s w => s.modThread w Thread.rollback) s
    let tm := s.teamIdOf w0
    s.batch { code, core := i.core, asid := ((s.team tm).map (·.asid)).getD 0, pc := i.pc,
              granules := addGranule [] va false true,
              refault := ((s.thread w0).map (·.refault)).getD 0, team := some tm, tag := s.tagOf tm, index := i.core,
              tid := some (whoTid w0), access := AccKind.fetch.num, addr := dw va }

/-- The access that succeeds ends the count of its refaults (R459). -/
def Thread.accessOk (t : Thread) (pc : DWord) : Thread :=
  if t.refaultPc = pc then { t with refault := 0, retried := false } else t

/-- A retried fetch that succeeds ends its count in the same way (R456, R459). -/
def Thread.fetchOk (t : Thread) : Thread := if t.retried && t.refetch then { t with refault := 0, retried := false } else t

/-- A thread that has left the instruction it was retried at has accessed what that needed (R113, R459). -/
def Thread.movedOn (t : Thread) : Thread :=
  if t.retried && t.runAhead.isNone && t.state != .parked && t.pc != t.refaultPc then { t with refault := 0, retried := false } else t

end Sys2Proof.Machine
end

