-- ==== Sys2Proof/Machine/Directory.lean ====
section
/-!
DEFINITION. The home directory of coherent lines: requests, grants and recalls (R93, R379, R463, R464).
-/
namespace Sys2Proof.Machine

def State.dirEntry (s : State) (line : Nat) : DirEntry := (s.dom.dir.find line).getD {}

/-- Whether another device than `self` holds a copy. -/
def DirEntry.copied (e : DirEntry) (self : Nat) : Bool := e.copies.any (· != self)

/-- An entry in its table; a line of which no other device holds a copy or is the owner, and with no request, needs none
(R379). -/
def State.setDir (s : State) (line : Nat) (e : DirEntry) : State :=
  let idle := !e.copied s.dom.dev && e.owner.isNone && e.waiting.isEmpty && !e.ownerLost
  s.setDom { s.dom with dir := if idle then s.dom.dir.del line else s.dom.dir.put line e }

/-- An entry that takes space in the directory: one with another device's copy, an owner, or a lost owner (R379, R463). -/
def DirEntry.granted (e : DirEntry) (self : Nat) : Bool := e.copied self || e.owner.isSome || e.ownerLost

/-- Entries that the directory holds (R379). -/
def dirCapacity : Nat := 1048576

/-- Entries that take space now. -/
def State.dirCount (s : State) : Nat := (s.dom.dir.filter (fun p => p.2.granted s.dom.dev)).length

/-- Threads that stall for a line's grant go on. -/
def State.grantThreads (s : State) (line : Nat) : State :=
  { s with threads := s.threads.map (fun p => if p.2.stall = .grant line then (p.1, { p.2 with stall := .none }) else p) }

/-- A line with no copy and no owner. -/
def DirEntry.dropped (e : DirEntry) : DirEntry := { e with copies := [], owner := none, snooped := none }

/-- Room for a new entry (R379): the oldest entry is recalled, at once where it is shared, through its owner's
write-back where it is owned. An owner-lost entry is never recalled (R463). -/
def State.dirRecall (s : State) (line : Nat) : State × Bool :=
  if (s.dirEntry line).granted s.dom.dev then (s, true)
  else if s.dirCount < dirCapacity then (s, true)
  else
    match s.dom.dir.find? (fun p => p.2.granted s.dom.dev && !p.2.ownerLost) with
    | some (l, e) =>
      match e.owner with
      | some _ =>
        (s.setDir l { e with snooped := some (e.snooped.getD s.now),
                             waiting := if (s.dom.dev, true) ∈ e.waiting then e.waiting else (s.dom.dev, true) :: e.waiting }, false)
      | none => (s.setDir l e.dropped, true)
    | none => (s, false)

/-- The grant of R379's table to a device that no other owner stands before: copies of others are invalidated at the
grant of a store. The home takes part as a device does; a line that it owns, or that it alone holds, is one that no other
device holds. -/
def DirEntry.grant (e : DirEntry) (self dev : Nat) (store : Bool) : DirEntry :=
  if store then { e with copies := [], owner := if dev = self then none else some dev, snooped := none }
  else if e.owner = some dev then e
  else { e with copies := addOnce e.copies dev }

/-- The waiting requests of a line handled one at a time in their order (R379); `fuel` bounds them. -/
def State.dirServe (s : State) (line : Nat) : Nat → State
  | 0 => s
  | fuel + 1 =>
    let e := s.dirEntry line
    match e.waiting with
    | [] => s
    | (d, st) :: rest =>
      if e.ownerLost then
        ((s.setDir line { e with waiting := rest }).grantThreads line).dirServe line fuel
      else
        match e.owner with
        | some o =>
          if o = d then ((s.setDir line { (e.grant s.dom.dev d st) with waiting := rest }).grantThreads line).dirServe line fuel
          else s.setDir line { e with snooped := some (e.snooped.getD s.now) }
        | none =>
          let (s, room) := if d = s.dom.dev then (s, true) else s.dirRecall line
          if room then
            ((s.setDir line { ((s.dirEntry line).grant s.dom.dev d st) with waiting := rest }).grantThreads line).dirServe line fuel
          else s

def State.dirRun (s : State) (line : Nat) : State := s.dirServe line ((s.dirEntry line).waiting.length + 1)

/-- A request at the home (R379). -/
def State.dirRequest (s : State) (dev line : Nat) (store : Bool) : State :=
  let e := s.dirEntry line
  let s := if (dev, store) ∈ e.waiting then s else s.setDir line { e with waiting := e.waiting ++ [(dev, store)] }
  s.dirRun line

/-- Whether an access by this device to one of its own lines waits for another owner (R379). -/
def State.needsGrant (s : State) (loc : Nat) : Bool :=
  let e := s.dirEntry (loc / 64)
  !e.ownerLost && e.owner.isSome

/-- The error reply of an owner-lost line (R463, R464). -/
def State.lineLost (s : State) (loc : Nat) : Bool := (s.dirEntry (loc / 64)).ownerLost

/-- A store of this device is performed: every other copy has been invalidated (R93, R379). -/
def State.dropCopies (s : State) (loc : Nat) : State :=
  let e := s.dirEntry (loc / 64)
  if e.copies.isEmpty then s else s.setDir (loc / 64) { e with copies := [] }

end Sys2Proof.Machine
end

