-- ==== Sys2Proof/Machine/Flags.lean ====
section
/-!
DEFINITION. The floating-point flags (R125) and the rounding mode in force (R123, R124).
-/
namespace Sys2Proof.Machine

/-! ### Flags (R125) -/

def flNV : Flags := 0b10000#5
def flDZ : Flags := 0b01000#5
def flOF : Flags := 0b00100#5
def flUF : Flags := 0b00010#5
def flNX : Flags := 0b00001#5
/-- A flag when a condition holds. -/
def flIf (c : Bool) (f : Flags) : Flags := if c then f else 0

/-! ### Rounding modes (R123, R124) -/

/-- The mode of a `$fmode` code. -/
def modeOf (c : BitVec 3) : RMode :=
  if c = 2 then .rtz else if c = 3 then .rup else if c = 4 then .rdn else if c = 5 then .rodd else .rne

/-- The mode a thread's instruction rounds in: its code's, or the team's `$fmode` (R123); a walker thread's `$fmode` is a
free value (log entry 18). -/
def State.roundMode (s : State) (w : Who) (m : RMode) : RMode :=
  match m with
  | .dyn => if whoIsWalk w then modeOf Config.walkerMode else
    match s.team (s.teamIdOf w) with
    | some t => modeOf t.fmode
    | none => .rne
  | m => m

/-- A write of `$fmode` by a thread, or by `wrsr` with rank 0: it takes effect on later clk; the write of the highest
`$tid` on one clk prevails (R124, R293). -/
def State.writeFmode (s : State) (t : TeamId) (rank : Nat) (v : DWord) : State :=
  let c := v.setWidth 3
  if c = 0 ∨ c = 6 ∨ c = 7 then s
  else s.modTeam t (fun x => match x.fmodeNew with
    | some (r, _) => if rank < r then x else { x with fmodeNew := some (rank, c) }
    | none => { x with fmodeNew := some (rank, c) })

end Sys2Proof.Machine
end

