-- ==== Sys2Proof/Machine/Float.lean ====
section
/-!
DEFINITION. Number formats and exact arithmetic (spec/05_number_formats.md): decoding, rounding, overflow and flags, and
the exact results of the floating-point operations (R116 to R126, R176 to R181).
-/
namespace Sys2Proof.Machine

/-! ### Formats (R116, R117) -/

/-- How a format encodes its special values: infinities and NaNs, `e4m3`'s one NaN, or none. -/
inductive Specials where
  | ieee | oneNan | none
deriving DecidableEq, Repr

/-- A floating-point format: exponent bits, mantissa bits, bias, special values (R116). -/
structure FpFmt where
  e : Nat
  m : Nat
  bias : Nat
  sp : Specials
deriving DecidableEq, Repr

def f64F : FpFmt := { e := 11, m := 52, bias := 1023, sp := .ieee }
def f32F : FpFmt := { e := 8, m := 23, bias := 127, sp := .ieee }
def bf16F : FpFmt := { e := 8, m := 7, bias := 127, sp := .ieee }
def h16F : FpFmt := { e := 5, m := 10, bias := 15, sp := .ieee }
def e5m2F : FpFmt := { e := 5, m := 2, bias := 15, sp := .ieee }
def e4m3F : FpFmt := { e := 4, m := 3, bias := 7, sp := .oneNan }
def e3m2F : FpFmt := { e := 3, m := 2, bias := 3, sp := .none }
def e2m1F : FpFmt := { e := 2, m := 1, bias := 1, sp := .none }

/-- The format of a floating-point type (R142). -/
def tyFmt : Ty → Option FpFmt
  | .f64 => some f64F | .f32 => some f32F | .bf16 => some bf16F | .h16 => some h16F
  | .e5m2 => some e5m2F | .e4m3 => some e4m3F | .e3m2 => some e3m2F | .e2m1 => some e2m1F
  | _ => none

def FpFmt.bits (f : FpFmt) : Nat := 1 + f.e + f.m
/-- The sign bit's weight. -/
def FpFmt.signBit (f : FpFmt) : Nat := 2 ^ (f.e + f.m)

/-- The magnitude code of +∞ where the format has one (R117). -/
def FpFmt.infCode (f : FpFmt) : Nat := (2 ^ f.e - 1) * 2 ^ f.m

/-- The magnitude code of the largest finite value (R116). -/
def FpFmt.maxCode (f : FpFmt) : Nat :=
  match f.sp with
  | .ieee => f.infCode - 1
  | .oneNan => 2 ^ (f.e + f.m) - 2
  | .none => 2 ^ (f.e + f.m) - 1

/-- The canonical NaN (R118); +0 where the format has none (R122, R126). -/
def FpFmt.nanCode (f : FpFmt) : Nat :=
  match f.sp with
  | .ieee => f.infCode + 2 ^ (f.m - 1)
  | .oneNan => 2 ^ (f.e + f.m) - 1
  | .none => 0

def FpFmt.hasInf (f : FpFmt) : Bool := f.sp = .ieee

/-- A decoded value: exact where finite, num / den with num not zero. -/
inductive FVal where
  | nan (sig : Bool)
  | inf (neg : Bool)
  | zero (neg : Bool)
  | fin (num : Int) (den : Nat)
deriving DecidableEq, Repr

/-- An integer with a sign bit. -/
def withSign (neg : Bool) (n : Nat) : Int := if neg then -(n : Int) else n

/-- The value of a magnitude code: its mantissa times a power of two (R116). -/
def FpFmt.magnitude (f : FpFmt) (neg : Bool) (c : Nat) : FVal :=
  let ex := c / 2 ^ f.m
  let mant := if ex = 0 then c else 2 ^ f.m + c % 2 ^ f.m
  let k := Nat.max ex 1
  if mant = 0 then .zero neg
  else if f.bias + f.m ≤ k then .fin (withSign neg (mant * 2 ^ (k - (f.bias + f.m)))) 1
  else .fin (withSign neg mant) (2 ^ (f.bias + f.m - k))

/-- DECODING of R116 and R117; bits above the format are ignored (R120). -/
def FpFmt.decode (f : FpFmt) (code : Nat) : FVal :=
  let neg := code / f.signBit % 2 = 1
  let c := code % f.signBit
  match f.sp with
  | .ieee => if c = f.infCode then .inf neg else if f.infCode < c then .nan (decide (c % 2 ^ f.m / 2 ^ (f.m - 1) = 0))
             else f.magnitude neg c
  | .oneNan => if c = f.nanCode then .nan false else f.magnitude neg c
  | .none => f.magnitude neg c

/-! ### Rounding (R121 to R123) -/

/-- floor(log2(n / d)) for positive n and d. -/
def floorLog2 (n d : Nat) : Int :=
  let l : Int := (n.log2 : Int) - (d.log2 : Int)
  if (if 0 ≤ l then d * 2 ^ l.toNat ≤ n else d ≤ n * 2 ^ (-l).toNat) then l else l - 1

/-- num / den as an integer in a mode, and whether it differs (the choice of R121 between lo and hi). -/
def roundInt (m : RMode) (num : Int) (den : Nat) : Int × Bool :=
  let lo := num / (den : Int)
  let r := (num % (den : Int)).toNat
  if r = 0 then (lo, false)
  else
    (match m with
      | .rtz => if num < 0 then lo + 1 else lo
      | .rup => lo + 1
      | .rdn => lo
      | .rodd => if lo % 2 = 0 then lo + 1 else lo
      | .dyn | .rne => if 2 * r < den then lo else if den < 2 * r then lo + 1 else if lo % 2 = 0 then lo else lo + 1, true)

def FpFmt.signed (f : FpFmt) (neg : Bool) (c : Nat) : Nat := if neg then f.signBit + c else c

/-- `overflow_result` (R122). -/
def FpFmt.overflow (f : FpFmt) (m : RMode) (sat neg : Bool) : Nat :=
  match f.sp with
  | .none => f.signed neg f.maxCode
  | .oneNan => if sat then f.signed neg f.maxCode else f.nanCode
  | .ieee =>
    let big := f.signed neg f.infCode
    let max := f.signed neg f.maxCode
    if sat then max else
    match m with
    | .rtz | .rodd => max
    | .rup => if neg then max else big
    | .rdn => if neg then big else max
    | .dyn | .rne => big

/-- `round_f` for a non-zero exact value num / den, with its flags (R121, R122, R125). -/
def FpFmt.round (f : FpFmt) (m : RMode) (sat : Bool) (num : Int) (den : Nat) : Nat × Flags :=
  let neg := decide (num < 0)
  let lg := floorLog2 num.natAbs den
  let e := max lg (1 - (f.bias : Int))
  let k := e - f.m
  let (y, nx) := roundInt m (if k < 0 then num * 2 ^ (-k).toNat else num) (if 0 ≤ k then den * 2 ^ k.toNat else den)
  let c := (e + f.bias - 1).toNat * 2 ^ f.m + y.natAbs
  if f.maxCode < c then (f.overflow m sat neg, flOF ||| flNX)
  else (f.signed neg c, flIf nx flNX ||| flIf (nx && decide (lg < 1 - (f.bias : Int))) flUF)

/-- An exact result encoded, with the flags it already raised: rounding, and the special cases of R122. An infinity
that the target lacks or that `.sat` excludes raises nv, unless a division by zero made it. -/
def FpFmt.finish (f : FpFmt) (m : RMode) (sat : Bool) (r : FVal × Flags) : Nat × Flags :=
  match r.1 with
  | .nan _ => (f.nanCode, r.2 ||| flIf (f.sp = .none) flNV)
  | .inf neg =>
    if f.hasInf && !sat then (f.signed neg f.infCode, r.2)
    else
      let fl := if r.2 &&& flDZ = 0 then r.2 ||| flNV else r.2
      if f.sp = .oneNan && !sat then (f.nanCode, fl) else (f.signed neg f.maxCode, fl)
  | .zero neg => (f.signed neg 0, r.2)
  | .fin n d => let (c, fl) := f.round m sat n d; (c, r.2 ||| fl)

/-! ### Exact operations -/

def FVal.isSig : FVal → Bool
  | .nan s => s
  | _ => false
def FVal.isNan : FVal → Bool
  | .nan _ => true
  | _ => false
/-- nv for a signalling operand (R118). -/
def sigFlag (xs : List FVal) : Flags := flIf (xs.any FVal.isSig) flNV

def FVal.negate : FVal → FVal
  | .nan s => .nan s
  | .inf n => .inf (!n)
  | .zero n => .zero (!n)
  | .fin n d => .fin (-n) d

def FVal.isNeg : FVal → Bool
  | .nan _ => false
  | .inf n => n
  | .zero n => n
  | .fin n _ => n < 0

def FVal.magn : FVal → FVal
  | .nan s => .nan s
  | .inf _ => .inf false
  | .zero _ => .zero false
  | .fin n d => .fin n.natAbs d

/-- An exact quotient, with the sign given to a zero. -/
def FVal.ofFrac (zneg : Bool) (n : Int) (d : Nat) : FVal := if n = 0 then .zero zneg else .fin n d

/-- The sign of an exact zero sum (R121). -/
def zeroSum (m : RMode) (a b : Bool) : Bool := if a = b then a else m = .rdn

/-- The exact sum (R121, R176). -/
def FVal.add (m : RMode) (a b : FVal) : FVal × Flags :=
  let fl := sigFlag [a, b]
  match a, b with
  | .nan _, _ | _, .nan _ => (.nan false, fl)
  | .inf x, .inf y => if x = y then (.inf x, fl) else (.nan false, fl ||| flNV)
  | .inf x, _ | _, .inf x => (.inf x, fl)
  | .zero x, .zero y => (.zero (zeroSum m x y), fl)
  | .zero _, z | z, .zero _ => (z, fl)
  | .fin n d, .fin n' d' => (FVal.ofFrac (m = .rdn) (n * d' + n' * d) (d * d'), fl)

/-- The exact product (R121, R176). -/
def FVal.mul (a b : FVal) : FVal × Flags :=
  let fl := sigFlag [a, b]
  let s := a.isNeg != b.isNeg
  match a, b with
  | .nan _, _ | _, .nan _ => (.nan false, fl)
  | .inf _, .zero _ | .zero _, .inf _ => (.nan false, fl ||| flNV)
  | .inf _, _ | _, .inf _ => (.inf s, fl)
  | .zero _, _ | _, .zero _ => (.zero s, fl)
  | .fin n d, .fin n' d' => (.fin (n * n') (d * d'), fl)

/-- The exact quotient (R176). -/
def FVal.div (a b : FVal) : FVal × Flags :=
  let fl := sigFlag [a, b]
  let s := a.isNeg != b.isNeg
  match a, b with
  | .nan _, _ | _, .nan _ => (.nan false, fl)
  | .inf _, .inf _ | .zero _, .zero _ => (.nan false, fl ||| flNV)
  | .inf _, _ => (.inf s, fl)
  | _, .inf _ | .zero _, _ => (.zero s, fl)
  | .fin _ _, .zero _ => (.inf s, fl ||| flDZ)
  | .fin n d, .fin n' d' => (.fin (withSign s (n.natAbs * d')) (d * n'.natAbs), fl)

/-- The exact a × b + c (R176): 0 × ∞ raises nv whatever c holds. -/
def FVal.fma (m : RMode) (a b c : FVal) : FVal × Flags :=
  let p := FVal.mul a b
  let r := FVal.add m p.1 c
  (r.1, p.2 ||| r.2)

/-- The exact difference, and its magnitude for `absd` (R171, R176). -/
def FVal.sub (m : RMode) (a b : FVal) : FVal × Flags := FVal.add m a b.negate
def FVal.absd (m : RMode) (a b : FVal) : FVal × Flags :=
  let r := FVal.sub m a b
  (r.1.magn, r.2)

/-- The integer square root bit by bit, from bit `fuel - 1` downward. -/
def sqrtGo (n : Nat) : Nat → Nat → Nat
  | 0, r => r
  | b + 1, r => let t := r + 2 ^ b; sqrtGo n b (if t * t ≤ n then t else r)

/-- floor(√n) for n below 2^(2·bits). -/
def isqrt (bits n : Nat) : Nat := sqrtGo n bits 0

/-- √(n / d) to 160 significant bits, with half a unit added where it is not exact: no boundary of a format of R116 lies
between that and the exact root, so R121 rounds both alike. -/
def sqrtFrac (n d : Nat) : Int × Nat :=
  let l := floorLog2 n d
  let k := (320 - l).toNat / 2
  let j := (l - 320).toNat / 2 + 1
  if l ≤ 320 then
    let x := n * 2 ^ (2 * k) / d
    let r := isqrt 163 x
    if r * r * d = n * 2 ^ (2 * k) then ((r : Int), 2 ^ k) else ((2 * r + 1 : Nat), 2 ^ (k + 1))
  else
    let x := n / (d * 2 ^ (2 * j))
    let r := isqrt 163 x
    if r * r * (d * 2 ^ (2 * j)) = n then ((r * 2 ^ j : Nat), 1) else (((2 * r + 1) * 2 ^ (j - 1) : Nat), 1)

/-- The exact square root (R176). -/
def FVal.sqrt (a : FVal) : FVal × Flags :=
  match a with
  | .nan s => (.nan false, flIf s flNV)
  | .zero n => (.zero n, 0)
  | .inf n => if n then (.nan false, flNV) else (.inf false, 0)
  | .fin n d => if n < 0 then (.nan false, flNV) else
      let r := sqrtFrac n.natAbs d
      (.fin r.1 r.2, 0)

/-- a × 2^b (R171, R176). Beyond ±8192 the result overflows, or is a fraction of the smallest subnormal, whatever b is. -/
def FVal.scalb (a : FVal) (b : Int) : FVal × Flags :=
  match a with
  | .nan s => (.nan false, flIf s flNV)
  | .fin n d =>
    let b := max (-8192) (min 8192 b)
    (if 0 ≤ b then .fin (n * 2 ^ b.toNat) d else .fin n (d * 2 ^ (-b).toNat), 0)
  | v => (v, 0)

/-- -1, 0 or 1 as a is below, equal to or above b, for values that are no NaN; the zeros are equal (R185). -/
def FVal.order (a b : FVal) : Int :=
  let q (v : FVal) : Int × Nat := match v with
    | .fin n d => (n, d)
    | _ => (0, 1)
  match a, b with
  | .inf x, .inf y => if x = y then 0 else if x then -1 else 1
  | .inf x, _ => if x then -1 else 1
  | _, .inf y => if y then 1 else -1
  | a, b => let l := (q a).1 * (q b).2; let r := (q b).1 * (q a).2; if l < r then -1 else if r < l then 1 else 0

/-- `min` and `max` of codes (R177): exact, −0 below +0. -/
def FpFmt.minMax (f : FpFmt) (wantMax : Bool) (x y : Nat) : Nat × Flags :=
  let x := x % 2 ^ f.bits
  let y := y % 2 ^ f.bits
  let a := f.decode x
  let b := f.decode y
  let fl := sigFlag [a, b]
  if a.isNan && b.isNan then (f.nanCode, fl)
  else if a.isNan then (y, fl)
  else if b.isNan then (x, fl)
  else
    let o := a.order b
    let less := if o = 0 then a.isNeg && !b.isNeg else o = -1
    ((if less != wantMax then x else y), fl)

/-- `abs` and `neg` of codes (R178). -/
def FpFmt.absCode (f : FpFmt) (x : Nat) : Nat × Flags :=
  let a := f.decode x
  if a.isNan then (f.nanCode, sigFlag [a]) else (x % f.signBit, 0)
def FpFmt.negCode (f : FpFmt) (x : Nat) : Nat × Flags :=
  let a := f.decode x
  if a.isNan then (f.nanCode, sigFlag [a])
  else (f.signed (x / f.signBit % 2 = 0) (x % f.signBit), 0)

/-- `rnd` (R181). -/
def FpFmt.rnd (f : FpFmt) (m : RMode) (x : Nat) : Nat × Flags :=
  match f.decode x with
  | .nan s => (f.nanCode, flIf s flNV)
  | .fin n d =>
    let (y, nx) := roundInt m n d
    ((f.finish m false (FVal.ofFrac (decide (n < 0)) y 1, 0)).1, flIf nx flNX)
  | _ => (x % 2 ^ f.bits, 0)

/-- `fclass` (R180) of a binary32 code: the number of the bit set. -/
def fclassBit (x : Nat) : Nat :=
  match f32F.decode x with
  | .nan s => if s then 8 else 9
  | .inf n => if n then 0 else 7
  | .zero n => if n then 3 else 4
  | .fin n _ =>
    let sub := decide (x % 2 ^ 31 < 2 ^ 23)
    if n < 0 then (if sub then 2 else 1) else (if sub then 5 else 6)

/-! ### Comparison (R185) -/

/-- Whether a comparison of two values holds, and its flags. -/
def FVal.cmp (c : CmpCond) (a b : FVal) : Bool × Flags :=
  let un := a.isNan || b.isNan
  let ordered := match c with
    | .lt | .le | .gt | .ge => true
    | _ => false
  let fl := if ordered then flIf un flNV else sigFlag [a, b]
  let o := a.order b
  (match c with
    | .eq => !un && o == 0
    | .ne => un || o != 0
    | .lt => !un && o == -1
    | .le => !un && o != 1
    | .gt => !un && o == 1
    | .ge => !un && o != -1
    | .ord => !un
    | .un => un, fl)

/-! ### Conversions (R115, R119, R122, R183) -/

/-- The bounds of an integer type of w bits (R115). -/
def intMin (sgn : Bool) (w : Nat) : Int := if sgn then -(2 ^ (w - 1) : Int) else 0
def intMax (sgn : Bool) (w : Nat) : Int := if sgn then (2 ^ (w - 1) : Int) - 1 else (2 ^ w : Int) - 1
def clampInt (sgn : Bool) (w : Nat) (x : Int) : Int := max (intMin sgn w) (min (intMax sgn w) x)

/-- Floating point to integer (R115). -/
def FVal.toInt (m : RMode) (sgn : Bool) (w : Nat) (a : FVal) : Int × Flags :=
  match a with
  | .nan _ => (0, flNV)
  | .inf n => (if n then intMin sgn w else intMax sgn w, flNV)
  | .zero _ => (0, 0)
  | .fin n d =>
    let (y, nx) := roundInt m n d
    if clampInt sgn w y = y then (y, flIf nx flNX) else (clampInt sgn w y, flNV)

/-- The value of an `e8m0` code (R119). -/
def e8m0Value (c : Nat) : FVal :=
  if c = 255 then .nan false
  else if 127 ≤ c then .fin ((2 ^ (c - 127) : Nat) : Int) 1 else .fin 1 (2 ^ (127 - c))

/-- Conversion to `e8m0` (R119). -/
def FVal.toE8m0 (m : RMode) (sat : Bool) (a : FVal) : Nat × Flags :=
  match a with
  | .fin n d =>
    if n < 0 then (0xFF, flNV) else
    let x := n.natAbs
    let fl := floorLog2 x d
    let pow := if 0 ≤ fl then x = d * 2 ^ fl.toNat else x * 2 ^ (-fl).toNat = d
    let half := if 0 ≤ fl then 2 * x < 3 * (d * 2 ^ fl.toNat) else 2 * x * 2 ^ (-fl).toNat < 3 * d
    let k := match m with
      | .rtz | .rdn => fl
      | .rup => if pow then fl else fl + 1
      | .rodd => if pow ∨ (fl + 127) % 2 ≠ 0 then fl else fl + 1
      | .dyn | .rne => if half then fl else fl + 1
    if k < -127 then (0, flUF ||| flNX)
    else if 127 < k then ((if sat then 0xFE else 0xFF), flOF ||| flNX)
    else ((k + 127).toNat, flIf (!decide pow) flNX)
  | _ => (0xFF, flNV)

/-! ### Special functions (R179): fixed-point values to 600 fraction bits (log entry 8) -/

/-- Fraction bits of the fixed-point values. -/
def fixBits : Nat := 600
def fixOne : Int := (2 ^ fixBits : Nat)
def fixMul (a b : Int) : Int := a * b / fixOne

/-- The Taylor series of e^r for |r| < 1: `fuel` terms from term n on. -/
def expGo (r : Int) : Nat → Nat → Int → Int → Int
  | 0, _, _, acc => acc
  | f + 1, n, t, acc =>
    let t := fixMul t r / (n : Int)
    expGo r f (n + 1) t (acc + t)

def fixExp (r : Int) : Int := expGo r 150 1 fixOne fixOne

/-- The series of atanh(1/x) or atan(1/x) over odd powers: `alt` alternates the signs. -/
def atanGo (alt : Bool) (x2 : Int) : Nat → Nat → Int → Int → Int
  | 0, _, _, acc => acc
  | f + 1, n, t, acc =>
    let d := t / ((2 * n + 1 : Nat) : Int)
    atanGo alt x2 f (n + 1) (t / x2) (if alt && n % 2 == 1 then acc - d else acc + d)

/-- ln 2 = 2 atanh(1/3) in fixed point. -/
def fixLn2 : Int := 2 * atanGo false 9 200 0 (fixOne / 3) 0

/-- π with 1200 fraction bits, by Machin's formula. -/
def fixPi : Int :=
  let one : Int := (2 ^ 1200 : Nat)
  4 * (4 * atanGo true 25 270 0 (one / 5) 0 - atanGo true 57121 120 0 (one / 239) 0)

/-- num / den in fixed point; den is a power of two below 2^fixBits. -/
def toFix (num : Int) (den : Nat) : Int := num * fixOne / (den : Int)

/-- e^y for a fixed-point y: mantissa in fixed point and binary exponent. -/
def fixExpSplit (y : Int) : Int × Int :=
  let k := y / fixLn2
  (fixExp (y - k * fixLn2), k)

/-- A fixed-point mantissa times 2^k. -/
def ofFix (v k : Int) : FVal :=
  if v = 0 then .zero false
  else if 0 ≤ k then .fin (v * 2 ^ k.toNat) (2 ^ fixBits) else .fin v (2 ^ (fixBits + (-k).toNat))

/-- 2^x (R179). -/
def FVal.exp2 (a : FVal) : FVal × Flags :=
  match a with
  | .nan s => (.nan false, flIf s flNV)
  | .inf n => (if n then .zero false else .inf false, 0)
  | .zero _ => (.fin 1 1, 0)
  | .fin n d =>
    if 200 * (d : Int) < n then (.fin (2 ^ 200 : Nat) 1, 0)
    else if n < -200 * (d : Int) then (.fin 1 (2 ^ 200), 0)
    else
      let k := n / (d : Int)
      let r := n % (d : Int)
      if r = 0 then (if 0 ≤ k then .fin (2 ^ k.toNat : Nat) 1 else .fin 1 (2 ^ (-k).toNat), 0)
      else (ofFix (fixExp (fixMul (toFix r d) fixLn2)) k, 0)

/-- log2 x (R179). -/
def FVal.log2 (a : FVal) : FVal × Flags :=
  match a with
  | .nan s => (.nan false, flIf s flNV)
  | .inf n => if n then (.nan false, flNV) else (.inf false, 0)
  | .zero _ => (.inf true, flDZ)
  | .fin n d =>
    if n < 0 then (.nan false, flNV) else
    let x := n.natAbs
    let k := floorLog2 x d
    -- m in [1, 2) as p / q
    let p := if 0 ≤ k then x else x * 2 ^ (-k).toNat
    let q := if 0 ≤ k then d * 2 ^ k.toNat else d
    if p = q then (FVal.ofFrac false k 1, 0)
    else
      let z : Int := ((p - q : Nat) : Int) * fixOne / ((p + q : Nat) : Int)
      let z2 := fixMul z z
      let rec go : Nat → Nat → Int → Int → Int
        | 0, _, _, acc => acc
        | f + 1, i, t, acc => go f (i + 1) (fixMul t z2) (acc + t / ((2 * i + 1 : Nat) : Int))
      let ln := 2 * go 200 0 z 0
      (ofFix (k * fixOne + ln * fixOne / fixLn2) 0, 0)

/-- The sine and cosine series of a fixed-point r with |r| < 1. -/
def sinGo (r2 : Int) : Nat → Nat → Int → Int → Int
  | 0, _, _, acc => acc
  | f + 1, n, t, acc =>
    let t := -(fixMul t r2) / (((n + 1) * (n + 2) : Nat) : Int)
    sinGo r2 f (n + 2) t (acc + t)

def fixSin (r : Int) : Int := sinGo (fixMul r r) 90 1 r r
def fixCos (r : Int) : Int := sinGo (fixMul r r) 90 0 fixOne fixOne

/-- sin or cos (R179): the argument reduced by multiples of π / 2 to [−π/4, π/4]. -/
def FVal.trig (cosine : Bool) (a : FVal) : FVal × Flags :=
  match a with
  | .nan s => (.nan false, flIf s flNV)
  | .inf _ => (.nan false, flNV)
  | .zero n => (if cosine then .fin 1 1 else .zero n, 0)
  | .fin n d =>
    let x : Int := n * (2 ^ 1200 : Nat) / (d : Int)
    let h := fixPi / 2
    let k := (x + h / 2) / h
    let r := (x - k * h) / (2 ^ 600 : Nat)
    let q := ((if cosine then k + 1 else k) % 4).toNat
    let v := if q % 2 = 0 then fixSin r else fixCos r
    (ofFix (if 2 ≤ q then -v else v) 0, 0)

/-- tanh x = (e^2x − 1) / (e^2x + 1) (R179). -/
def FVal.tanh (a : FVal) : FVal × Flags :=
  match a with
  | .nan s => (.nan false, flIf s flNV)
  | .inf n => (.fin (if n then -1 else 1) 1, 0)
  | .zero n => (.zero n, 0)
  | .fin n d =>
    let neg := decide (n < 0)
    let x := toFix (Nat.min n.natAbs (64 * d)) d
    let (e, k) := fixExpSplit (2 * x)
    let e := e * 2 ^ k.toNat
    (.fin (withSign neg (e - fixOne).toNat) (e + fixOne).toNat, 0)

/-- 1/√x (R179). -/
def FVal.rsqrt (a : FVal) : FVal × Flags :=
  match a with
  | .nan s => (.nan false, flIf s flNV)
  | .zero n => (.inf n, flDZ)
  | .inf n => if n then (.nan false, flNV) else (.zero false, 0)
  | .fin n d => if n < 0 then (.nan false, flNV) else
      let r := sqrtFrac d n.natAbs
      (.fin r.1 r.2, 0)

/-- 1/x (R179). -/
def FVal.rcp (a : FVal) : FVal × Flags := FVal.div (.fin 1 1) a

end Sys2Proof.Machine
end

