-- ==== Sys2Proof/Machine/Operands.lean ====
section
/-!
DEFINITION. Operand forms and the way every instruction of a gang acts on them: registers, pairs and channels (R137,
R138, R226 to R230), the checks made lane by lane (R429, R430), run-ahead (R109, R435), and the same for U-form
instructions (R288 to R290).
-/
namespace Sys2Proof.Machine

/-! ### Channels (R226 to R230) -/

/-- The channel cN of a team; a gang queue is one object of the gang (R226). -/
def State.chan (s : State) (t : TeamId) (n : Nat) : Option Chan :=
  match s.team t with
  | some v =>
    match v.chans.find n with
    | some c => some c
    | none => (s.grid v.grid).bind (fun g => g.gangChans.find n)
  | none => none

/-- A channel changed in its one place. -/
def State.modChan (s : State) (t : TeamId) (n : Nat) (f : Chan → Chan) : State :=
  match s.team t with
  | some v =>
    if (v.chans.find n).isSome then s.modTeam t (fun v => { v with chans := v.chans.upd n f })
    else s.modGrid v.grid (fun g => { g with gangChans := g.gangChans.upd n f })
  | none => s

/-- The most elements a channel can hold: a queue's depth, or the 32 of a port (R226, R272). -/
def Chan.room (c : Chan) : Nat :=
  match c.kind with
  | .team | .gang => c.depth
  | .carder | .emissions => 32

/-- A queue of R226, as against an engine port. -/
def Chan.isQueue (c : Chan) : Bool :=
  match c.kind with
  | .team | .gang => true
  | .carder | .emissions => false

/-- The end marker of R272. -/
def endMarker : DWord := 0xFFFFFFFFFFFFFFFF#64

/-- The carder of a core when the team holds it open (R269). -/
def State.carderOf (s : State) (t : TeamId) : Option Carder :=
  match (s.core t.1).carder with
  | some k => if k.slot = t.2 then some k else none
  | none => none

/-- One element popped, if the channel can give one now. The carder gives end markers once its last element has been
dealt, or when the team has none open (R272). -/
def State.popOne (s : State) (t : TeamId) (n : Nat) : Option (State × DWord) :=
  match s.chan t n with
  | some c =>
    match c.kind with
    | .carder =>
      match s.carderOf t with
      | some k =>
        match k.port with
        | e :: es => some (s.modCore t.1 (fun q => { q with carder := some { k with port := es } }), e)
        | [] => if k.done then some (s, endMarker) else none
      | none => some (s, endMarker)
    | _ =>
      match c.elems with
      | e :: es => some (s.modChan t n (fun c => { c with elems := es, lastOp := s.now, reported := false, blockedSince := none }), e)
      | [] => none
  | none => none

/-- The element at the head, left where it stands. -/
def State.peekOne (s : State) (t : TeamId) (n : Nat) : Option DWord :=
  match s.chan t n with
  | some c =>
    match c.kind with
    | .carder =>
      match s.carderOf t with
      | some k => k.port.head? <|> (if k.done then some endMarker else none)
      | none => some endMarker
    | _ => c.elems.head?
  | none => none

/-- Elements ready to pop (R229). -/
def State.chanCount (s : State) (t : TeamId) (n : Nat) : Nat :=
  match s.chan t n with
  | some c =>
    match c.kind with
    | .carder => ((s.carderOf t).map (fun k => k.port.length)).getD 0
    | _ => c.elems.length
  | none => 0

def State.pushOne (s : State) (t : TeamId) (n : Nat) (v : DWord) : State :=
  s.modChan t n (fun c => { c with elems := c.elems ++ [v], lastOp := s.now, reported := false, blockedSince := none })

/-- Whether a class may block on an object (R52): signallers of class C always; P signallers of its own team or gang
for C and P waiters. -/
def waitLegal (waiter signaller : Nat) : Bool := signaller == 0 || (signaller == 1 && waiter ≤ 1)

/-- Every thread blocked on a channel becomes ready, to issue again (R30; log entry 75). -/
def State.wakeChan (s : State) (t : TeamId) (n : Nat) : State :=
  let gang := match s.chan t n with
    | some c => c.kind = .gang
    | none => false
  let mine (p : TeamId) : Bool := p = t || (gang && (match s.team p, s.team t with
    | some a, some b => a.grid = b.grid
    | _, _ => false))
  (s.threads.filter (fun p => p.2.state = .blocked (.chan n) ∧ mine (s.teamIdOf p.1))).foldl (fun s p => s.ready p.1) s

/-- Whether a thread is blocked on its core's carder. -/
def TState.onCarder : TState → Bool
  | .blocked (.carder _) => true
  | _ => false

def State.wakeCarder (s : State) (t : TeamId) : State :=
  ((s.threadsOf t).filter (fun p => p.2.state.onCarder)).foldl (fun s p => s.ready p.1) s

/-! ### L-form instructions -/

/-- What an L-form instruction names: sources with their width (true for 64 bits), destination, further registers, the
predicates it reads and the one it writes, the checks of its own, the page fault its address meets at issue, and whether its lanes read each other. -/
structure LaneSpec where
  srcs : List (Src × Bool) := []
  dst : Option (Dst × Bool) := none
  more : List Nat := []
  preds : List Nat := []
  pdst : Option Nat := none
  cross : Bool := false
  check : State → Who → Thread → Option Fail := fun _ _ _ => none
  page : State → Who → Thread → Option (Nat × AccKind) := fun _ _ _ => none

/-- One lane of a gang with its source values; `known` is false where a run-ahead does not know them (R109). -/
structure LaneIn where
  lane : Nat
  who : Who
  t : Thread
  vals : List DWord := []
  known : Bool := true

/-- Where the lane goes next. -/
inductive Next where
  | adv
  | goto (pc : DWord)
  | stay
  | gone
deriving DecidableEq, Repr

/-- What the instruction does in one lane. -/
structure LaneOut where
  res : Option DWord := none
  fl : Flags := 0
  pred : Option (Nat × Bool) := none
  fault : Option Fail := none
  page : Option (Nat × AccKind) := none
  next : Next := .adv
  block : Option WaitOn := none
  stall : Stall := .none
  known : Bool := true

def Src.regs (s : Src) (wide : Bool) : List Nat :=
  match s with
  | .reg n => if wide then [n.val, n.val + 1] else [n.val]
  | _ => []

def Dst.regs (d : Dst) (wide : Bool) : List Nat :=
  match d with
  | .reg n => if wide then [n.val, n.val + 1] else [n.val]
  | .push _ => []

def Src.chan : Src → Option Nat
  | .reg _ => none
  | .pop c | .peek c => some c.val

def LaneSpec.regs (sp : LaneSpec) : List Nat :=
  sp.srcs.flatMap (fun x => Src.regs x.1 x.2) ++ ((sp.dst.map (fun x => Dst.regs x.1 x.2)).getD []) ++ sp.more

/-- Registers whose value the instruction reads. -/
def LaneSpec.reads (sp : LaneSpec) : List Nat := sp.srcs.flatMap (fun x => Src.regs x.1 x.2) ++ sp.more

def LaneSpec.chans (sp : LaneSpec) : List Nat :=
  sp.srcs.filterMap (fun x => Src.chan x.1) ++ (match sp.dst with
    | some (.push c, _) => [c.val]
    | _ => [])

/-- Whether a run-ahead knows what the lane reads (R109). -/
def LaneSpec.knows (sp : LaneSpec) (t : Thread) : Bool :=
  sp.reads.all (fun n => !t.unkRegs.contains n) && sp.preds.all (fun p => !t.unkPreds.getLsbD p)

/-- The step of R430 that a check belongs to, by its code. -/
def Fail.stage (f : Fail) : Nat :=
  if f.code = 0x0101 then 1
  else if f.code = 0x1001 ∨ f.code = 0x1002 then 2
  else match f.code / 256 with
    | 3 => 4
    | 4 => 5
    | 5 | 6 | 7 | 15 | 16 => 6
    | _ => 3

/-- The first check that fails in one lane: the level, then registers, then the instruction's other checks (R430 step 2 on). -/
def LaneSpec.laneCheck (sp : LaneSpec) (s : State) (w : Who) (t : Thread) : Option Fail :=
  let own := if sp.knows t then sp.check s w t else none
  if sp.regs.any (fun n => t.holding ≤ n) && own.all (fun f => 3 ≤ f.stage) then some { code := 0x0201 } else own

/-- The check that decides, of a lane's own and that of its channel operands, by the order of R430. -/
def firstFail (own chan : Option Fail) : Option Fail :=
  match own, chan with
  | none, c => c
  | some f, some c => if c.stage < f.stage then some c else some f
  | some f, none => some f

/-- The channel that a source uses, and whether it pops. -/
def Src.use : Src → Option (Bool × Nat)
  | .reg _ => none
  | .pop c => some (true, c.val)
  | .peek c => some (false, c.val)

/-- How many elements n lanes need of one channel: one for each pop, and one more for a peek that comes last (R138). -/
def elemsNeeded (uses : List (Bool × Nat)) (c n : Nat) : Nat :=
  let mine := uses.filter (fun u => u.2 = c)
  let pops := (mine.filter (·.1)).length
  n * pops + (match mine.getLast? with
    | some (false, _) => 1
    | _ => 0)

/-- The checks of channel operands (R439): bound, deep enough for the lanes at hand, a wait that R214 allows, a class
not weaker than the signallers'. A push to a port that only pops is taken as an absent object (log entry 14). -/
def State.chanCheck (s : State) (t : TeamId) (walker : Bool) (uses : List (Bool × Nat)) (push : Option Nat) (n : Nat) :
    Option Fail :=
  let cs := uses.map (·.2) ++ push.toList
  if cs.isEmpty then none
  else if walker || cs.any (fun c => (s.chan t c).isNone) then some { code := 0x0205 }
  else if ((push.bind (s.chan t)).any (fun k => !k.isQueue)) then some { code := 0x0205 }
  else if cs.any (fun c => (s.chan t c).any (fun k =>
      decide (k.room < Nat.max (elemsNeeded uses c n) (if push = some c then n else 0)))) then
    some { code := 0x0206 }
  else
    let cls := ((s.team t).map (·.cls)).getD 0
    let bad (f : Nat → Bool) := cs.any (fun c => (s.chan t c).any (fun k => k.isQueue && f k.cls))
    if bad (fun sig => !waitLegal cls sig) then some { code := 0x0301 }
    else if bad (fun sig => sig < cls) then some { code := 0x0304 }
    else none

/-- One lane's sources in field order (R138): none where a channel cannot give its element now. -/
def State.popLane (s : State) (t : TeamId) (th : Thread) : List (Src × Bool) → Option (State × List DWord)
  | [] => some (s, [])
  | (.reg n, wide) :: r =>
    (State.popLane s t th r).map (fun p => (p.1, (if wide then th.rd2 n.val else (th.rd n.val).setWidth 64) :: p.2))
  | (.pop c, _) :: r =>
    match s.popOne t c.val with
    | some (s, v) => (State.popLane s t th r).map (fun p => (p.1, v :: p.2))
    | none => none
  | (.peek c, _) :: r =>
    match s.peekOne t c.val with
    | some v => (State.popLane s t th r).map (fun p => (p.1, v :: p.2))
    | none => none

/-- Every lane's sources, in increasing lane order, as one step of each channel's order (R138). -/
def State.popLanes (s : State) (srcs : List (Src × Bool)) : List LaneIn → Option (State × List LaneIn)
  | [] => some (s, [])
  | l :: ls =>
    match s.popLane (s.teamIdOf l.who) l.t srcs with
    | some (s', vs) => (State.popLanes s' srcs ls).map (fun p => (p.1, { l with vals := vs } :: p.2))
    | none => none

/-- Whether the pushes of n lanes find room (R138). -/
def State.pushRoom (s : State) (t : TeamId) (dst : Option (Dst × Bool)) (n : Nat) : Bool :=
  match dst with
  | some (.push c, _) => match s.chan t c.val with
    | some k => k.elems.length + n ≤ k.room
    | none => false
  | _ => true

/-- A lane blocks: it sets its waited bit and issues again when its wait completes (R30, R36). -/
def State.blockLane (s : State) (w : Who) (on : WaitOn) : State :=
  s.modThread w (fun t => { t with state := .blocked on, waited := true })

/-- The first moment a C or P thread blocks on an object starts its stretch (R55). -/
def Chan.noteBlock (c : Chan) (now : Nat) : Chan :=
  if c.blockedSince.isSome then c else { c with blockedSince := some now }

/-- A result written to its destination register, or held back for the push (R138). -/
def Thread.putDst (t : Thread) (dst : Option (Dst × Bool)) (v : DWord) : Thread :=
  match dst with
  | some (.reg n, false) => t.wr n.val (v.setWidth 32)
  | some (.reg n, true) => t.wr2 n.val v
  | _ => t

/-- The destination unknown (R109). -/
def Thread.unknown (t : Thread) (dst : Option (Dst × Bool)) (p : Option Nat) : Thread :=
  { t with unkRegs := ((dst.map (fun x => Dst.regs x.1 x.2)).getD []).foldl addOnce t.unkRegs,
           unkPreds := match p with
             | some n => setBit8 t.unkPreds n true
             | none => t.unkPreds }

/-- What one lane's outcome changes in its thread; the waited bit is set by a lane that really blocks (R36; log entry 74). -/
def Thread.apply (t : Thread) (pc : DWord) (len : Nat) (dst : Option (Dst × Bool)) (o : LaneOut) : Thread :=
  let t := if o.known then
      let t := match o.res with
        | some v => t.putDst dst v
        | none => t
      let t := match o.pred with
        | some (n, b) => t.setPred n b
        | none => t
      { t with fflags := t.fflags ||| o.fl }
    else t.unknown dst (o.pred.map (·.1))
  let t := match o.next with
    | .adv => { t with pc := pc + dw len }
    | .goto p => { t with pc := p }
    | .stay | .gone => t
  match o.block with
  | some w => { t with state := .blocked w, waited := true }
  | none => { t with stall := o.stall }

/-- A run-ahead's lane sets of the lanes that fail stop (R108, R435): every lane of the gang in the same plies. -/
def State.stopSets (s : State) (bad : List (Nat × Who)) : State :=
  let i := s.sys.issue
  let plies := bad.map (fun b => b.1 / 4)
  let stop := (i.lanes.filter (fun l => plies.contains (l.1 / 4))).map (·.2)
  { s with runs := s.runs.map (fun r => if some r.id = i.runAhead then
      { r with stoppedWhos := stop.foldl addOnce r.stoppedWhos } else r) }

/-- Granules added to a run-ahead's batch (R109). -/
def State.addGranules (s : State) (gs : List (Nat × AccKind)) : State :=
  let i := s.sys.issue
  { s with runs := s.runs.map (fun r => if some r.id = i.runAhead then
      { r with granules := (gs.foldl (fun l g => addGranule l g.1 g.2.writes false) r.granules).take 33 } else r) }

/-- The end of a walk at a fault of one of its threads, noted for the search unit's own step (R484). -/
def State.walkFault (s : State) (w : Who) (f : Fail) : State :=
  match s.thread w with
  | some t =>
    match t.walk with
    | some x => s.modDie x.origin (fun d => { d with blocks := d.blocks.map (fun b =>
        if b.entry = x.block ∧ b.walkEnd.isNone then
          { b with walkEnd := some { code := f.code, addr := f.addr, walker := whoTid w, info0 := f.info0, info1 := f.info1 } } else b) })
    | none => s
  | none => s

/-- Faults after the act: traps for lane threads, the end of the walk for walker threads, the stop of the lane set in a
run-ahead (R422, R429, R435, R484). -/
def State.raise (s : State) (fs : List (Nat × Who × Fail)) : State :=
  if s.sys.issue.runAhead.isSome then s.stopSets (fs.map (fun f => (f.1, f.2.1)))
  else fs.foldl (fun s f => match f.2.1 with
    | .lane _ _ _ => s.trapLane f.2.1 f.2.2
    | .walk _ => s.walkFault f.2.1 f.2.2) s

/-- A walker thread whose access meets an invalid entry parks alone, with its batch entry and the record 0x0C01 (R482 to
R484). -/
def State.parkWalker (s : State) (w : Who) (va : Nat) (kind : AccKind) : State :=
  match (s.thread w).bind (fun t => t.walk.map (fun x => (t, x))) with
  | some (t, x) =>
    let (t, code) := t.fault701 s.sys.issue.pc (kind == .fetch)
    let s := s.setThread w { t with state := .parked }
    let tm : TeamId := (x.core, x.team)
    let idx := (s.errs.bqTail + s.errs.waiting.length) % 65536
    let s := s.batch { code, core := x.core, asid := x.asid, pc := 0, granules := addGranule [] va kind.writes (kind == .fetch),
                       refault := t.refault, team := some tm, tag := s.tagOf tm, kind := 6, index := x.stack, access := kind.num,
                       addr := dw va }
    s.record { code := 0x0C01, sev := 1, kind := 6, index := x.stack, slot := x.team, asid := x.asid, tag := s.tagOf tm, addr := dw va,
               info0 := dw (x.cmd + idx * 65536) }
  | none => s

/-- Page faults after the act: a run-ahead's batch grows, a walker thread parks, the lanes of an ordinary gang start
a run-ahead as one lane set (R108, R109, R484). -/
def State.pageFaults (s : State) (dst : Option (Dst × Bool)) (ps : List (Who × Nat × AccKind)) : State :=
  if s.sys.issue.runAhead.isSome then s.addGranules (ps.map (·.2))
  else
    let walks := ps.filter (fun p => whoIsWalk p.1)
    let s := walks.foldl (fun (s : State) p => s.parkWalker p.1 p.2.1 p.2.2) s
    match ps.filter (fun p => !whoIsWalk p.1) with
    | [] => s
    | f :: fs => s.startRun ((f :: fs).map (·.1)) f.2.2 f.2.1
        ((f :: fs).foldl (fun l p => addGranule l p.2.1 p.2.2.writes false) [])
        ((dst.map (fun x => Dst.regs x.1 x.2)).getD [])

/-- Lanes of a run-ahead whose access is not performed: their results are unknown and they go on (R109). -/
def State.pagedAhead (s : State) (sp : LaneSpec) (ws : List Who) : State :=
  let i := s.sys.issue
  ws.foldl (fun s w => s.modThread w (fun t => { (t.unknown sp.dst sp.pdst) with pc := i.pc + dw i.len })) s

/-- Lanes whose access meets an invalid entry at issue: they leave the gang before its channel step (R429) and start a
run-ahead, or in a run-ahead add their granules and go on with an unknown result (R108, R109). -/
def State.pagedLanes (s : State) (sp : LaneSpec) (pg : List (LaneIn × Nat × AccKind)) : State :=
  let s := if s.sys.issue.runAhead.isSome then s.pagedAhead sp (pg.map (·.1.who)) else s
  if pg.isEmpty then s else s.pageFaults sp.dst (pg.map (fun p => (p.1.who, p.2)))

/-- The channels that the sources use, the one that the destination pushes, and the use of each source. -/
def LaneSpec.pops (sp : LaneSpec) : List Nat := sp.srcs.filterMap (fun x => Src.chan x.1)
def LaneSpec.push (sp : LaneSpec) : Option Nat :=
  match sp.dst with
  | some (.push c, _) => some c.val
  | _ => none
def LaneSpec.uses (sp : LaneSpec) : List (Bool × Nat) := sp.srcs.filterMap (fun (x : Src × Bool) => Src.use x.1)

/-- The lanes of the issuing gang. -/
def State.lanesIn (s : State) (sp : LaneSpec) : List LaneIn :=
  s.sys.issue.lanes.filterMap (fun l => (s.thread l.2).map (fun t => ({ lane := l.1, who := l.2, t, known := sp.knows t } : LaneIn)))

/-- Waiters on the channels that an instruction popped issue again. -/
def State.wakePops (s : State) (team : TeamId) (pops : List Nat) : State := pops.foldl (fun s c => s.wakeChan team c) s

/-- A result as it is pushed: a 32-bit one has a high half of zero (R164). -/
def LaneSpec.pushed (sp : LaneSpec) (v : DWord) : DWord :=
  match sp.dst with
  | some (_, false) => (v.setWidth 32).setWidth 64
  | _ => v

/-- What the lanes of a gang leave behind: registers, predicates, flags and pcs, then the pushes in lane order (R138, R162). -/
def State.writeLanes (s : State) (i : Issue) (sp : LaneSpec) (team : TeamId) (rs : List (LaneIn × LaneOut)) : State :=
  let s := rs.foldl (fun s r =>
    if r.2.fault.isSome ∨ (r.2.page.isSome ∧ i.runAhead.isNone) ∨ r.2.next = .gone then s
    else s.modThread r.1.who (fun t => t.apply i.pc i.len sp.dst r.2)) s
  match sp.push with
  | some c =>
    let vs := rs.filterMap (fun (r : LaneIn × LaneOut) => if r.2.fault.isSome ∨ r.2.page.isSome then none else r.2.res.map sp.pushed)
    if vs.isEmpty then s else (vs.foldl (fun (s : State) v => s.pushOne team c v) s).wakeChan team c
  | none => s

/-- The pages and faults that the act met, and the end of the instruction (R36, R108, R429). -/
def State.endLanes (s : State) (i : Issue) (sp : LaneSpec) (pg : List (LaneIn × Nat × AccKind)) (rs : List (LaneIn × LaneOut)) : State :=
  let late := rs.filterMap (fun r => r.2.page.map (fun p => (r.1, p)))
  let s := if i.runAhead.isSome then s.addGranules ((pg ++ late).map (·.2)) |>.pagedAhead sp (pg.map (·.1.who))
    else s.pagedLanes sp (pg ++ late)
  let faults := rs.filterMap (fun r => r.2.fault.map (fun f => (r.1.lane, r.1.who, f)))
  let s := if faults.isEmpty then s else s.raise faults
  s.releaseHeld i.core i.ctx

/-- The instruction acts on its lanes, whose sources have been read; those that a run-ahead does not know only go on (R109). -/
def State.actLanes (s : State) (i : Issue) (sp : LaneSpec) (team : TeamId) (pg : List (LaneIn × Nat × AccKind))
    (act : State → List LaneIn → State × List LaneOut) (ls : List LaneIn) : State :=
  let acting := if sp.cross then ls else ls.filter (·.known)
  let blind := if sp.cross then [] else ls.filter (fun l => !l.known)
  let r := act (s.wakePops team sp.pops) acting
  let s := blind.foldl (fun s l => s.modThread l.who (fun t => { (t.unknown sp.dst sp.pdst) with pc := i.pc + dw i.len })) r.1
  let rs := acting.zip r.2
  (s.writeLanes i sp team rs).endLanes i sp pg rs

/-- The lanes block on a channel operand that cannot complete (R138, R214). -/
def State.blockLanes (s : State) (sp : LaneSpec) (team : TeamId) (pg : List (LaneIn × Nat × AccKind)) (ls : List LaneIn) (c : Nat) : State :=
  let on := match s.chan team c with
    | some k => if k.kind = .carder then WaitOn.carder (some c) else .chan c
    | none => .chan c
  let s := s.modChan team c (fun k => k.noteBlock s.now)
  (ls.foldl (fun s l => s.blockLane l.who on) s).pagedLanes sp pg |>.releaseHeld s.sys.issue.core s.sys.issue.ctx

/-- The first channel that cannot give the lanes what their sources take of it. -/
def State.lacking (s : State) (sp : LaneSpec) (ls : List LaneIn) : Nat :=
  (sp.pops.find? (fun c => (s.popLanes (sp.srcs.filter (fun x => Src.chan x.1 = some c)) ls).isNone)).getD 0

/-- The check of the channel operands of some lanes of one gang. -/
def State.chanFail (s : State) (sp : LaneSpec) (ls : List LaneIn) : Option Fail :=
  match ls with
  | [] => none
  | l :: _ => s.chanCheck (s.teamIdOf l.who) (whoIsWalk l.who) sp.uses sp.push ls.length

/-- The lanes that have passed every check read their sources and act, or block (R138, R429). -/
def State.goLanes (s : State) (sp : LaneSpec) (act : State → List LaneIn → State × List LaneOut) (ls : List LaneIn) : State :=
  let pg := ls.filterMap (fun l => if l.known then (sp.page s l.who l.t).map (fun p => (l, p)) else none)
  let ls := ls.filter (fun l => !pg.any (fun p => p.1.who = l.who))
  match ls with
  | [] => (s.pagedLanes sp pg).releaseHeld s.sys.issue.core s.sys.issue.ctx
  | l0 :: _ =>
    let team := s.teamIdOf l0.who
    match s.popLanes sp.srcs ls with
    | none => s.blockLanes sp team pg ls (s.lacking sp ls)
    | some (s', ls') =>
      if s'.pushRoom team sp.dst ls.length then s'.actLanes s.sys.issue sp team pg act ls'
      else s.blockLanes sp team pg ls (sp.push.getD 0)

/-- THE GANG ACTS: the checks lane by lane, the channel step, the instruction's own act on the lanes that remain, then
results, flags, predicates, pushes and the pc (R138, R162, R429); the lanes whose checks fail trap last, so that what the
others did stands where a trap ends the team (R435). A run-ahead stops before a channel operand (R109). -/
def State.runLanes (s : State) (sp : LaneSpec) (act : State → List LaneIn → State × List LaneOut) : State :=
  if s.sys.issue.runAhead.isSome && !sp.chans.isEmpty then s.stopSets s.sys.issue.lanes else
  let all := s.lanesIn sp
  let chanBad := s.chanFail sp (all.filter (fun l => (sp.laneCheck s l.who l.t).all (fun f => 3 < f.stage)))
  let fails (l : LaneIn) : Option Fail := firstFail (sp.laneCheck s l.who l.t)
    (if (sp.laneCheck s l.who l.t).all (fun f => 3 < f.stage) then chanBad else none)
  let bad := all.filterMap (fun l => (fails l).map (fun f => (l.lane, l.who, f)))
  let ls := all.filter (fun l => (fails l).isNone)
  let s := if ls.isEmpty then s else s.goLanes sp act ls
  let s := if bad.isEmpty then s else s.raise bad
  if ls.isEmpty then s.releaseHeld s.sys.issue.core s.sys.issue.ctx else s

/-- A gang whose lanes act each for itself without changing anything else. -/
def State.runPure (s : State) (sp : LaneSpec) (f : State → LaneIn → LaneOut) : State :=
  s.runLanes sp (fun s ls => (s, ls.map (f s)))

/-- A gang whose lanes act one after the other on the machine, in increasing lane order. -/
def foldLanes (f : State → LaneIn → State × LaneOut) : State → List LaneIn → State × List LaneOut
  | s, [] => (s, [])
  | s, l :: ls =>
    let (s, o) := f s l
    let (s, os) := foldLanes f s ls
    (s, o :: os)

def State.runSeq (s : State) (sp : LaneSpec) (f : State → LaneIn → State × LaneOut) : State :=
  s.runLanes sp (foldLanes f)

/-! ### U-form instructions (R288 to R290) -/

/-- What a U-form instruction does. -/
structure UOut where
  res : Option DWord := none
  fault : Option Fail := none
  next : Next := .adv
  stall : Stall := .none

/-- The first thread of the issuing gang. -/
def State.leader (s : State) : Who := ((s.sys.issue.lanes.head?).map (·.2)).getD (.lane 0 0 0)

def State.issueTeam (s : State) : TeamId := s.teamIdOf s.leader

/-- Every lane of the gang takes the same next pc (R288). -/
def State.gangGo (s : State) (f : Thread → Thread) : State :=
  s.sys.issue.lanes.foldl (fun s l => s.modThread l.2 f) s

/-- A fault of a U-form instruction is raised in every thread of the gang (R429). -/
def State.gangRaise (s : State) (f : Fail) : State :=
  (s.raise (s.sys.issue.lanes.map (fun l => (l.1, l.2, f)))).releaseHeld s.sys.issue.core s.sys.issue.ctx

/-- A k register unknown to the issuing run-ahead (R289). -/
def State.kUnknown (s : State) (n : Nat) : Bool :=
  match s.sys.issue.runAhead with
  | some r => (s.runs.find? (fun x => x.id = r)).any (fun x => x.unkKs.contains n)
  | none => false

def State.forgetK (s : State) (n : Nat) : State :=
  { s with runs := s.runs.map (fun x => if some x.id = s.sys.issue.runAhead then { x with unkKs := addOnce x.unkKs n } else x) }

/-- U-form sources in field order (R138): none where a channel cannot give its element now. -/
def State.popU (s : State) (t : TeamId) : List USrc → Option (State × List DWord)
  | [] => some (s, [])
  | .k n :: r => (State.popU s t r).map (fun p => (p.1, s.readK n.val :: p.2))
  | .pop c :: r =>
    match s.popOne t c.val with
    | some (s, v) => (State.popU s t r).map (fun p => (p.1, v :: p.2))
    | none => none
  | .peek c :: r =>
    match s.peekOne t c.val with
    | some v => (State.popU s t r).map (fun p => (p.1, v :: p.2))
    | none => none

def uchan : USrc → Option Nat
  | .k _ => none
  | .pop c | .peek c => some c.val

def uuse : USrc → Option (Bool × Nat)
  | .k _ => none
  | .pop c => some (true, c.val)
  | .peek c => some (false, c.val)

/-- The channel that a U-form destination pushes. -/
def upush : Option UDst → Option Nat
  | some (.push c) => some c.val
  | _ => none

/-- What a U-form instruction leaves behind: its fault in every thread of the gang, or its result and the gang's one next pc
(R288, R429), and the held threads that R36 then releases. -/
def State.endU (s : State) (i : Issue) (team : TeamId) (dst : Option UDst) (o : UOut) : State :=
  let s := match o.fault with
    | some f => s.gangRaise f
    | none =>
      let s := match o.res, dst with
        | some v, some (.k n) => s.writeK n.val v
        | some v, some (.push c) => (s.pushOne team c.val v).wakeChan team c.val
        | _, _ => s
      match o.next with
      | .adv => s.gangGo (fun t => { t with pc := i.pc + dw i.len, stall := o.stall })
      | .goto p => s.gangGo (fun t => { t with pc := p, stall := o.stall })
      | .stay => s.gangGo (fun t => { t with stall := o.stall })
      | .gone => s
  s.releaseHeld i.core i.ctx

/-- The first channel that cannot give a U-form instruction what its sources take of it. -/
def State.lackingU (s : State) (team : TeamId) (srcs : List USrc) : Nat :=
  ((srcs.filterMap uchan).find? (fun c => (s.popU team (srcs.filter (fun x => uchan x = some c))).isNone)).getD 0

/-- The gang of a U-form instruction blocks on a channel operand that cannot complete (R214, R290). -/
def State.blockU (s : State) (team : TeamId) (c : Nat) : State :=
  let i := s.sys.issue
  let on := match s.chan team c with
    | some k => if k.kind = .carder then WaitOn.carder (some c) else .chan c
    | none => .chan c
  let s := s.modChan team c (fun k => k.noteBlock s.now)
  (i.lanes.foldl (fun s l => s.blockLane l.2 on) s).releaseHeld i.core i.ctx

/-- Whether a run-ahead does not know one of the k registers read (R289). -/
def State.unknownU (s : State) (srcs : List USrc) : Bool :=
  srcs.any (fun x => match x with
    | .k n => s.kUnknown n.val
    | _ => false)

/-- A U-form instruction issued once for its gang: one check, one channel element for each operand, one act (R288,
R290, R429). -/
def State.runU (s : State) (srcs : List USrc) (dst : Option UDst) (act : State → List DWord → State × UOut) : State :=
  let i := s.sys.issue
  let team := s.issueTeam
  let pops := srcs.filterMap uchan
  let push := upush dst
  if i.runAhead.isSome && !(pops ++ push.toList).isEmpty then s.stopSets i.lanes else
  match s.chanCheck team false (srcs.filterMap uuse) push 1 with
  | some f => s.gangRaise f
  | none =>
    if s.unknownU srcs then
      let s := match dst with
        | some (.k n) => s.forgetK n.val
        | _ => s
      s.gangGo (fun t => { t with pc := i.pc + dw i.len })
    else
    match s.popU team srcs with
    | none => s.blockU team (s.lackingU team srcs)
    | some (s', vs) =>
      if !s'.pushRoom team (push.map (fun c => (Dst.push (Fin.ofNat 32 c), true))) 1 then s.blockU team (push.getD 0) else
      let r := act (s'.wakePops team pops) vs
      r.1.endU i team dst r.2

end Sys2Proof.Machine
end

