-- ==== Sys2Proof/Machine/Integer.lean ====
section
/-!
DEFINITION. Integer, bit, move and packing instructions, and the way packed elements are computed
(spec/07_lane_instructions.md, R163, R167 to R175, R184, R126).
-/
namespace Sys2Proof.Machine

/-! ### Operand shapes -/

/-- Source i of a lane, whole or its low 32 bits. -/
def LaneIn.v (l : LaneIn) (i : Nat) : DWord := l.vals.getD i 0
def LaneIn.w (l : LaneIn) (i : Nat) : Word := (l.v i).setWidth 32

/-- One 32-bit source, one 32-bit result. -/
def State.lane1 (s : State) (d : Dst) (a : Src) (f : Word → Word) : State :=
  s.runPure { srcs := [(a, false)], dst := some (d, false) } (fun _ l => { res := some ((f (l.w 0)).setWidth 64) })

/-- Two 32-bit sources, one 32-bit result. -/
def State.lane2 (s : State) (d : Dst) (a b : Src) (f : Word → Word → Word) : State :=
  s.runPure { srcs := [(a, false), (b, false)], dst := some (d, false) }
    (fun _ l => { res := some ((f (l.w 0) (l.w 1)).setWidth 64) })

/-! ### One-word instructions (R167, R168) -/

def mulHigh (a b : Word) : Word := wd (wrapTo 64 (a.toInt * b.toInt) / 2 ^ 32)
def mulHighNat (a b : Word) : Word := wd (a.toNat * b.toNat / 2 ^ 32)
/-- `sra` (R168): for 32 and above the sign fills the register. -/
def shiftArith (a b : Word) : Word := a.sshiftRight (Nat.min b.toNat 31)
def leadingZeros (a : Word) : Word := if a = 0 then 32 else wd (31 - a.toNat.log2)
def bitReverse (a : Word) : Word := (List.range 32).foldl (fun r i => if a.getLsbD i then r ||| (1#32 <<< (31 - i)) else r) 0
def trailingZeros (a : Word) : Word := leadingZeros (bitReverse a)
def popCount (a : Word) : Word := wd ((List.range 32).filter (fun i => a.getLsbD i)).length
def absDiff (a b : Word) : Word := wd (a.toInt - b.toInt).natAbs

/-- `add.i32` (R167). -/
def execAddI32 (d : Dst) (a b : Src) (s : State) : Host.Outcome State Fault Refusal := .next (s.lane2 d a b (· + ·))
/-- `sub.i32` (R167). -/
def execSubI32 (d : Dst) (a b : Src) (s : State) : Host.Outcome State Fault Refusal := .next (s.lane2 d a b (· - ·))
/-- `mul.i32` (R167). -/
def execMulI32 (d : Dst) (a b : Src) (s : State) : Host.Outcome State Fault Refusal := .next (s.lane2 d a b (· * ·))
/-- `mulh.i32` (R167). -/
def execMulhI32 (d : Dst) (a b : Src) (s : State) : Host.Outcome State Fault Refusal := .next (s.lane2 d a b mulHigh)
/-- `min.i32` (R167). -/
def execMinI32 (d : Dst) (a b : Src) (s : State) : Host.Outcome State Fault Refusal :=
  .next (s.lane2 d a b (fun x y => if y.slt x then y else x))
/-- `max.i32` (R167). -/
def execMaxI32 (d : Dst) (a b : Src) (s : State) : Host.Outcome State Fault Refusal :=
  .next (s.lane2 d a b (fun x y => if x.slt y then y else x))
/-- `and` (R167). -/
def execAnd (d : Dst) (a b : Src) (s : State) : Host.Outcome State Fault Refusal := .next (s.lane2 d a b (· &&& ·))
/-- `or` (R167). -/
def execOr (d : Dst) (a b : Src) (s : State) : Host.Outcome State Fault Refusal := .next (s.lane2 d a b (· ||| ·))
/-- `xor` (R167). -/
def execXor (d : Dst) (a b : Src) (s : State) : Host.Outcome State Fault Refusal := .next (s.lane2 d a b (· ^^^ ·))
/-- `not` (R167). -/
def execNot (d : Dst) (a : Src) (s : State) : Host.Outcome State Fault Refusal := .next (s.lane1 d a (~~~ ·))
/-- `shl` (R168). -/
def execShl (d : Dst) (a b : Src) (s : State) : Host.Outcome State Fault Refusal :=
  .next (s.lane2 d a b (fun x y => x <<< y.toNat))
/-- `shr` (R168). -/
def execShr (d : Dst) (a b : Src) (s : State) : Host.Outcome State Fault Refusal :=
  .next (s.lane2 d a b (fun x y => x >>> y.toNat))
/-- `sra` (R168). -/
def execSra (d : Dst) (a b : Src) (s : State) : Host.Outcome State Fault Refusal := .next (s.lane2 d a b shiftArith)
/-- `mov` (R167). -/
def execMov (d : Dst) (a : Src) (s : State) : Host.Outcome State Fault Refusal := .next (s.lane1 d a id)
/-- `clz` (R167). -/
def execClz (d : Dst) (a : Src) (s : State) : Host.Outcome State Fault Refusal := .next (s.lane1 d a leadingZeros)
/-- `popc` (R167). -/
def execPopc (d : Dst) (a : Src) (s : State) : Host.Outcome State Fault Refusal := .next (s.lane1 d a popCount)
/-- `add.i32` with an immediate (R167). -/
def execAddI32Imm (d : Dst) (a : Src) (i : BitVec 8) (s : State) : Host.Outcome State Fault Refusal :=
  .next (s.lane1 d a (· + i.signExtend 32))
/-- `and` with an immediate (R167). -/
def execAndImm (d : Dst) (a : Src) (i : BitVec 8) (s : State) : Host.Outcome State Fault Refusal :=
  .next (s.lane1 d a (· &&& i.setWidth 32))
/-- `or` with an immediate (R167). -/
def execOrImm (d : Dst) (a : Src) (i : BitVec 8) (s : State) : Host.Outcome State Fault Refusal :=
  .next (s.lane1 d a (· ||| i.setWidth 32))
/-- `xor` with an immediate (R167). -/
def execXorImm (d : Dst) (a : Src) (i : BitVec 8) (s : State) : Host.Outcome State Fault Refusal :=
  .next (s.lane1 d a (· ^^^ i.setWidth 32))
/-- `shl` with an immediate (R167). -/
def execShlImm (d : Dst) (a : Src) (i : BitVec 5) (s : State) : Host.Outcome State Fault Refusal :=
  .next (s.lane1 d a (· <<< i.toNat))
/-- `shr` with an immediate (R167). -/
def execShrImm (d : Dst) (a : Src) (i : BitVec 5) (s : State) : Host.Outcome State Fault Refusal :=
  .next (s.lane1 d a (· >>> i.toNat))
/-- `sra` with an immediate (R167). -/
def execSraImm (d : Dst) (a : Src) (i : BitVec 5) (s : State) : Host.Outcome State Fault Refusal :=
  .next (s.lane1 d a (·.sshiftRight i.toNat))
/-- `movi` (R167): the immediate sign-extended. -/
def execMovi (d : Dst) (i : BitVec 16) (s : State) : Host.Outcome State Fault Refusal :=
  .next (s.runPure { dst := some (d, false) } (fun _ _ => { res := some ((i.signExtend 32).setWidth 64) }))
/-- `movhi` (R167): the high half of a register that it reads. -/
def execMovhi (d : Fin 128) (i : BitVec 16) (s : State) : Host.Outcome State Fault Refusal :=
  .next (s.lane1 (.reg d) (.reg d) (fun x => i ++ x.setWidth 16))

/-- `movk` (R169): a team constant or skein scalar as it stands for the lane's skein. -/
def execMovk (d : Dst) (k : Fin 64) (m : MovkMode) (s : State) : Host.Outcome State Fault Refusal :=
  .next (s.runPure { dst := some (d, m == .full) } (fun s _ =>
    let v := s.readK k.val
    { res := some (match m with
        | .full => v
        | .lo => v &&& 0xFFFFFFFF#64
        | .hi => v >>> 32),
      known := !s.kUnknown k.val }))

/-- `ctz` (R167). -/
def execCtz (d : Dst) (a : Src) (s : State) : Host.Outcome State Fault Refusal := .next (s.lane1 d a trailingZeros)
/-- `bitrev` (R167). -/
def execBitrev (d : Dst) (a : Src) (s : State) : Host.Outcome State Fault Refusal := .next (s.lane1 d a bitReverse)
/-- `crc` (R175): byte 0 first, least significant bit first. -/
def execCrc (d : Dst) (a b : Src) (s : State) : Host.Outcome State Fault Refusal :=
  .next (s.lane2 d a b (fun x y => (bytesOf 4 y.toNat).foldl crcByte x))
/-- `absd.i32` (R167). -/
def execAbsdI32 (d : Dst) (a b : Src) (s : State) : Host.Outcome State Fault Refusal := .next (s.lane2 d a b absDiff)
/-- `mulh.n32` (R167). -/
def execMulhN32 (d : Dst) (a b : Src) (s : State) : Host.Outcome State Fault Refusal := .next (s.lane2 d a b mulHighNat)

/-! ### Elements (R120, R163, R171) -/

/-- Element e of width w. -/
def elemAt (w : Nat) (v : DWord) (e : Nat) : Nat := v.toNat / 2 ^ (w * e) % 2 ^ w

/-- Elements of width w side by side, element 0 lowest. -/
def joinElems (w : Nat) (l : List Nat) : DWord := dw (l.foldr (fun x acc => x % 2 ^ w + acc * 2 ^ w) 0)

/-- The exact value of an integer element (R115). -/
def intVal (t : Ty) (x : Nat) : Int := if t.isSigned then signedOf t.bits x else ((x % 2 ^ t.bits : Nat) : Int)

/-- An integer element wrapped or clamped (R171). -/
def intElem (t : Ty) (sat : Bool) (x : Int) : Nat := wrapTo t.bits (if sat then clampInt t.isSigned t.bits x else x)

/-- An unpacked narrow integer result extended to 32 bits (R163). -/
def extendTo32 (signed : Bool) (w x : Nat) : Nat := if signed && w < 32 then wrapTo 32 (signedOf w x) else x

/-- An operation on every element of a format; `signed` says how an unpacked narrow result is extended. -/
def eachElem (f : Fmt) (signed : Bool) (vs : List DWord) (op : List Nat → Nat × Flags) : DWord × Flags :=
  let w := f.ty.bits
  let rs := (List.range f.pk.count).map (fun e => op (vs.map (fun v => elemAt w v e)))
  let fl := rs.foldl (fun a r => a ||| r.2) 0
  match f.pk with
  | .one => (dw (extendTo32 signed w ((rs.map (·.1)).headD 0)), fl)
  | _ => (joinElems w (rs.map (·.1)), fl)

/-- An element-wise instruction over sources of its own type (R171, R126). -/
def State.elementwise (s : State) (f : Fmt) (signed : Bool) (d : Dst) (srcs : List Src)
    (op : RMode → List Nat → Nat × Flags) : State :=
  s.runPure { srcs := srcs.map (fun x => (x, f.ty.wide)), dst := some (d, f.ty.wide) } (fun s l =>
    let r := eachElem f signed l.vals (op (s.roundMode l.who f.rc.mode))
    { res := some r.1, fl := r.2 })

/-- An operation given exactly for integers and for floating point (R171, R176). -/
def exactOp (f : Fmt) (i : List Int → Int) (g : RMode → List FVal → FVal × Flags) (m : RMode) (xs : List Nat) :
    Nat × Flags :=
  match tyFmt f.ty with
  | none => (intElem f.ty f.rc.sat (i (xs.map (intVal f.ty))), 0)
  | some F => F.finish m f.rc.sat (g m (xs.map F.decode))

def FVal.at (vs : List FVal) (i : Nat) : FVal := vs.getD i (.zero false)
def intAt (vs : List Int) (i : Nat) : Int := vs.getD i 0

/-- `add` (R171, R176). -/
def execAdd (f : Fmt) (d : Dst) (a b : Src) (s : State) : Host.Outcome State Fault Refusal :=
  .next (s.elementwise f f.ty.isSigned d [a, b]
    (exactOp f (fun x => intAt x 0 + intAt x 1) (fun m v => FVal.add m (FVal.at v 0) (FVal.at v 1))))
/-- `sub` (R171, R176). -/
def execSub (f : Fmt) (d : Dst) (a b : Src) (s : State) : Host.Outcome State Fault Refusal :=
  .next (s.elementwise f f.ty.isSigned d [a, b]
    (exactOp f (fun x => intAt x 0 - intAt x 1) (fun m v => FVal.sub m (FVal.at v 0) (FVal.at v 1))))
/-- `mul` (R171, R176). -/
def execMul (f : Fmt) (d : Dst) (a b : Src) (s : State) : Host.Outcome State Fault Refusal :=
  .next (s.elementwise f f.ty.isSigned d [a, b]
    (exactOp f (fun x => intAt x 0 * intAt x 1) (fun _ v => FVal.mul (FVal.at v 0) (FVal.at v 1))))

/-- `mulh` (R171): the high half of the 2N-bit product. -/
def execMulh (f : Fmt) (d : Dst) (a b : Src) (s : State) : Host.Outcome State Fault Refusal :=
  .next (s.elementwise f f.ty.isSigned d [a, b] (fun _ xs =>
    let p := intVal f.ty (xs.getD 0 0) * intVal f.ty (xs.getD 1 0)
    (wrapTo (2 * f.ty.bits) p / 2 ^ f.ty.bits, 0)))

/-- The quotient of R172, with dz for a zero divisor. -/
def intDiv (t : Ty) (x y : Nat) : Nat × Flags :=
  if intVal t y = 0 then (2 ^ t.bits - 1, flDZ) else (intElem t false ((intVal t x).tdiv (intVal t y)), 0)
/-- The remainder of R172. -/
def intRem (t : Ty) (x y : Nat) : Nat × Flags :=
  if intVal t y = 0 then (x, flDZ) else (intElem t false ((intVal t x).tmod (intVal t y)), 0)

/-- `div` (R172, R176). -/
def execDiv (f : Fmt) (d : Dst) (a b : Src) (s : State) : Host.Outcome State Fault Refusal :=
  .next (s.elementwise f f.ty.isSigned d [a, b] (fun m xs =>
    match tyFmt f.ty with
    | none => intDiv f.ty (xs.getD 0 0) (xs.getD 1 0)
    | some F => F.finish m f.rc.sat (FVal.div (F.decode (xs.getD 0 0)) (F.decode (xs.getD 1 0)))))
/-- `rem` (R172). -/
def execRem (f : Fmt) (d : Dst) (a b : Src) (s : State) : Host.Outcome State Fault Refusal :=
  .next (s.elementwise f f.ty.isSigned d [a, b] (fun _ xs => intRem f.ty (xs.getD 0 0) (xs.getD 1 0)))

/-- The minimum or maximum of two elements (R171, R177). -/
def minMaxElem (t : Ty) (wantMax : Bool) (xs : List Nat) : Nat × Flags :=
  let x := xs.getD 0 0
  let y := xs.getD 1 0
  match tyFmt t with
  | none => (if decide (intVal t x < intVal t y) != wantMax then x else y, 0)
  | some F => F.minMax wantMax x y

/-- `min` (R171, R177). -/
def execMin (f : Fmt) (d : Dst) (a b : Src) (s : State) : Host.Outcome State Fault Refusal :=
  .next (s.elementwise f f.ty.isSigned d [a, b] (fun _ => minMaxElem f.ty false))
/-- `max` (R171, R177). -/
def execMax (f : Fmt) (d : Dst) (a b : Src) (s : State) : Host.Outcome State Fault Refusal :=
  .next (s.elementwise f f.ty.isSigned d [a, b] (fun _ => minMaxElem f.ty true))

/-- `abs` (R171, R178). -/
def execAbs (f : Fmt) (d : Dst) (a : Src) (s : State) : Host.Outcome State Fault Refusal :=
  .next (s.elementwise f f.ty.isSigned d [a] (fun _ xs =>
    match tyFmt f.ty with
    | none => (intElem f.ty f.rc.sat (intVal f.ty (xs.getD 0 0)).natAbs, 0)
    | some F => F.absCode (xs.getD 0 0)))
/-- `neg` (R171, R178). -/
def execNeg (f : Fmt) (d : Dst) (a : Src) (s : State) : Host.Outcome State Fault Refusal :=
  .next (s.elementwise f f.ty.isSigned d [a] (fun _ xs =>
    match tyFmt f.ty with
    | none => (intElem f.ty f.rc.sat (-(intVal f.ty (xs.getD 0 0))), 0)
    | some F => F.negCode (xs.getD 0 0)))

/-- `absd` (R171): a natural result of the same width for integers, zero-extended (R163). -/
def execAbsd (f : Fmt) (d : Dst) (a b : Src) (s : State) : Host.Outcome State Fault Refusal :=
  .next (s.elementwise f false d [a, b] (fun m xs =>
    match tyFmt f.ty with
    | none => ((intVal f.ty (xs.getD 0 0) - intVal f.ty (xs.getD 1 0)).natAbs, 0)
    | some F => F.finish m f.rc.sat (FVal.absd m (F.decode (xs.getD 0 0)) (F.decode (xs.getD 1 0)))))

/-- `mad` (R171). -/
def execMad (f : Fmt) (d : Dst) (a b c : Src) (s : State) : Host.Outcome State Fault Refusal :=
  .next (s.elementwise f f.ty.isSigned d [a, b, c]
    (exactOp f (fun x => intAt x 0 * intAt x 1 + intAt x 2) (fun m v => FVal.fma m (FVal.at v 0) (FVal.at v 1) (FVal.at v 2))))

/-- `madw` (R173): the exact sum of products added to a wider c, then wrapped or clamped. -/
def execMadw (f : Fmt) (d : Dst) (a b c : Src) (s : State) : Host.Outcome State Fault Refusal :=
  let wide := f.ty.bits == 32
  let w := if wide then 64 else 32
  .next (s.runPure { srcs := [(a, false), (b, false), (c, wide)], dst := some (d, wide) } (fun _ l =>
    let prod (e : Nat) : Int := intVal f.ty (elemAt f.ty.bits (l.v 0) e) * intVal f.ty (elemAt f.ty.bits (l.v 1) e)
    let c0 : Int := if f.ty.isSigned then signedOf w (l.v 2).toNat else (((l.v 2).toNat % 2 ^ w : Nat) : Int)
    let x := (List.range f.pk.count).foldl (fun acc e => acc + prod e) c0
    { res := some (dw (wrapTo w (if f.rc.sat then clampInt f.ty.isSigned w x else x))) }))

/-! ### Bit fields and addresses (R174) -/

/-- `bfe` (R174). -/
def execBfe (signed : Bool) (pos : BitVec 5) (len : BitVec 6) (d : Dst) (a : Src) (s : State) :
    Host.Outcome State Fault Refusal :=
  .next (s.lane1 d a (fun x =>
    let f := x.toNat / 2 ^ pos.toNat % 2 ^ len.toNat
    wd (if signed then wrapTo 32 (signedOf len.toNat f) else f)))

/-- `bfi` (R174). -/
def execBfi (pos : BitVec 5) (len : BitVec 6) (d : Dst) (a b : Src) (s : State) : Host.Outcome State Fault Refusal :=
  let m : Word := wd ((2 ^ len.toNat - 1) * 2 ^ pos.toNat)
  .next (s.lane2 d a b (fun x y => (x &&& ~~~m) ||| ((y <<< pos.toNat) &&& m)))

/-- `fsh` (R174). -/
def execFsh (d : Dst) (a b c : Src) (s : State) : Host.Outcome State Fault Refusal :=
  .next (s.runPure { srcs := [(a, false), (b, false), (c, false)], dst := some (d, false) } (fun _ l =>
    { res := some ((((l.w 0 ++ l.w 1 : BitVec 64) <<< ((l.w 2).toNat % 32)) >>> 32)) }))

/-- `lea` (R174). -/
def execLea (signed : Bool) (off : BitVec 14) (sh : Fin 4) (d : Dst) (a b : Src) (s : State) :
    Host.Outcome State Fault Refusal :=
  .next (s.runPure { srcs := [(a, true), (b, false)], dst := some (d, true) } (fun _ l =>
    let i : DWord := if signed then (l.w 1).signExtend 64 else (l.w 1).setWidth 64
    { res := some (l.v 0 + (i <<< sh.val) + off.signExtend 64) }))

/-! ### Packing (R184) -/

/-- A byte that holds an 8-bit element or an `e3m2` one, whose bits [7:6] are ignored and written as zero (R120). -/
def elemByte (t : Ty) (x : Nat) : Nat := x % (if t = .e3m2 then 64 else 256)

/-- `pack` (R184). -/
def packWords (t : Ty) (a b : Word) : Word :=
  match t.packOf with
  | .x2 => wd (a.toNat % 65536 + b.toNat % 65536 * 65536)
  | .x4 => wd (elemByte t a.toNat + elemByte t (a.toNat / 65536) * 2 ^ 8 + elemByte t b.toNat * 2 ^ 16 +
      elemByte t (b.toNat / 65536) * 2 ^ 24)
  | .x8 =>
    let low (x : Word) : Nat := x.toNat % 16 + x.toNat / 2 ^ 8 % 16 * 2 ^ 4 + x.toNat / 2 ^ 16 % 16 * 2 ^ 8 + x.toNat / 2 ^ 24 % 16 * 2 ^ 12
    wd (low a + low b * 65536)
  | .one => a

/-- `pack` (R184). -/
def execPack (t : Ty) (d : Dst) (a b : Src) (s : State) : Host.Outcome State Fault Refusal :=
  .next (s.lane2 d a b (packWords t))

/-- `unpack` (R184): the pair, low register first. -/
def unpackWord (t : Ty) (a : Word) : DWord :=
  let ext (w u e : Nat) : Nat :=
    let x := if w = 8 then elemByte t (a.toNat / 2 ^ (w * e)) else a.toNat / 2 ^ (w * e) % 2 ^ w
    if t.isSigned then wrapTo u (signedOf w x) else x
  match t.packOf with
  | .x2 => dw (ext 16 32 0 + ext 16 32 1 * 2 ^ 32)
  | .x4 => dw (ext 8 16 0 + ext 8 16 1 * 2 ^ 16 + ext 8 16 2 * 2 ^ 32 + ext 8 16 3 * 2 ^ 48)
  | .x8 => joinElems 8 ((List.range 8).map (fun e => a.toNat / 2 ^ (4 * e) % 16))
  | .one => a.setWidth 64

/-- `unpack` (R184). -/
def execUnpack (t : Ty) (d : Dst) (a : Src) (s : State) : Host.Outcome State Fault Refusal :=
  .next (s.runPure { srcs := [(a, false)], dst := some (d, true) } (fun _ l => { res := some (unpackWord t (l.w 0)) }))

end Sys2Proof.Machine
end

