-- ==== Sys2Proof/Machine/Sync.lean ====
section
/-!
DEFINITION. Synchronising objects: named barriers (R215 to R224), channels (R226 to R230), hanks (R231 to R234), bound
registers (R235 to R237) and the register pool (R58 to R60, R238), with the meanings of their instructions.
-/
namespace Sys2Proof.Machine

/-! ### Named barriers -/

/-- A team's barrier n; a gang barrier is one instance of the gang (R215). None where it is not declared (R216). -/
def State.bar (s : State) (t : TeamId) (n : Nat) : Option Bar :=
  match s.team t with
  | some v =>
    match v.bars.find n with
    | some b => some b
    | none => (s.grid v.grid).bind (fun g => g.gangBars.find n)
  | none => none

def State.modBar (s : State) (t : TeamId) (n : Nat) (f : Bar → Bar) : State :=
  match s.team t with
  | some v =>
    if (v.bars.find n).isSome then s.modTeam t (fun v => { v with bars := v.bars.upd n f })
    else s.modGrid v.grid (fun g => { g with gangBars := g.gangBars.upd n f })
  | none => s

/-- Whether a thread belongs to the team, or for a gang object to a team of the same gang (R45). -/
def State.sharesBar (s : State) (gang : Bool) (t : TeamId) (w : Who) : Bool :=
  match w with
  | .walk _ => false
  | .lane c k _ => (c, k) = t || (gang && (match s.team (c, k), s.team t with
    | some a, some b => a.grid = b.grid
    | _, _ => false))

/-- An acquire of some ranges alone, as they were written by then (R89, R90): those writes are required for the thread's later
loads there. -/
def State.acquireRanges (s : State) (w : Who) (core : Nat) (rs : List Seen) : State :=
  rs.foldl (fun (s : State) x =>
    if s.mem.hist.any (fun e => e.on x.loc x.n && decide (e.seq ≤ x.seq) && !s.requiredFor w core e.key x.loc x.n e) then
      s.sawWrite w x.loc x.n x.seq
    else s) s

/-- The acquire of a completed wait on a barrier: by the barrier's kind for signallers that are threads (R78), and of exactly
what the engine commands that arrived in the phase wrote (R89). -/
def State.barAcquire (s : State) (w : Who) (b : Bar) : State :=
  let core := s.coreOf w
  let s := match b.kind with
    | .team => s.acquire w core .core
    | .gang => s.acquire w core .cluster
    | .engine => s
  s.acquireRanges w core b.wroteLast

/-- The completion of a phase when pending and balance are both 0 (R218): the phase flips, the counts start again, and
every thread blocked in wait on the barrier goes on past its wait. -/
def State.checkComplete (s : State) (t : TeamId) (n : Nat) : State :=
  match s.bar t n with
  | some b =>
    if b.pending = 0 ∧ b.balance = 0 ∧ 0 < b.count then
      let s := s.modBar t n (fun b => { b with phase := !b.phase, pending := b.count, balance := b.quota, arrived := [],
                                                blockedSince := none, wroteLast := b.wrote, wrote := [] })
      (s.threads.filter (fun p => p.2.state = .blocked (.bar n) ∧ s.sharesBar (b.kind = .gang) t p.1)).foldl
        (fun s p => (s.barAcquire p.1 { b with wroteLast := b.wrote }).readyPast p.1 4) s
    else s
  | none => s

/-- Whether a balance stays within 48 signed bits (R215, R218). -/
def balanceOk (x : Int) : Bool := -(2 ^ 47 : Int) ≤ x && x < (2 ^ 47 : Int)

/-- One arrival (R218), with none where pending is 0 or the balance would leave its range. -/
def State.arriveOne (s : State) (t : TeamId) (n : Nat) (bytes : Nat) : Option State :=
  match s.bar t n with
  | some b =>
    if b.pending = 0 ∨ !balanceOk (b.balance - bytes) then none
    else some ((s.modBar t n (fun b => { b with pending := b.pending - 1, balance := b.balance - bytes, lastOp := s.now,
                                                 reported := false })).checkComplete t n)
  | none => none

/-- The arrival of an engine command with its byte count and what it wrote (R89); an overrun is not counted and writes 0x030B
(R218, R471). `kind` is the command's kind as `cgn.kind` codes it. -/
def State.engineArrive (s : State) (t : TeamId) (n bytes kind tag : Nat) (wrote : List Seen) : State :=
  match s.team t with
  | none => s
  | some v =>
    if v.ending.isSome then s else
    match (s.modBar t n (fun b => { b with wrote := b.wrote ++ wrote })).arriveOne t n bytes with
    | some s => s
    | none =>
      let past := match s.bar t n with
        | some b => decide (b.pending ≠ 0)
        | none => false
      s.record { code := 0x030B, sev := 1, kind := 1, index := t.1, slot := t.2, tag, asid := v.asid,
                 info0 := dw (n + kind * 2 ^ 20 + (if past then 2 ^ 24 else 0)), info1 := dw bytes }

/-- A member's exit from a team or gang barrier: it arrives unless it has arrived or pending is already 0, and lowers the count (R224). -/
def State.exitBar (s : State) (t : TeamId) (w : Who) (n : Nat) : State :=
  match s.bar t n with
  | some b =>
    if b.kind = .engine ∨ !(w ∈ b.members) then s else
    let ph := b.phase
    let s := if w ∈ b.arrived ∨ b.pending = 0 then s else (s.arriveOne t n 0).getD s
    let flipped := (s.bar t n).any (fun b => b.phase != ph)
    s.modBar t n (fun b => { b with count := b.count - 1, pending := if flipped then b.pending - 1 else b.pending,
                                     members := b.members.filter (· != w), arrived := b.arrived.filter (· != w) })
  | none => s

def State.exitBars (s : State) (t : TeamId) (w : Who) : State := (List.range 16).foldl (fun s n => s.exitBar t w n) s

def State.clsOf (s : State) (w : Who) : Nat := ((s.team (s.teamIdOf w)).map (·.cls)).getD 0

/-- A barrier put in its one place: the team's table, or the gang's (R215). -/
def State.putBar (s : State) (t : TeamId) (n : Nat) (b : Bar) : State :=
  let s := s.modTeam t (fun v => { v with bars := v.bars.del n })
  match s.team t with
  | some v =>
    let s := s.modGrid v.grid (fun g => if b.kind = .gang then { g with gangBars := g.gangBars.put n b } else g)
    if b.kind = .gang then s else s.modTeam t (fun v => { v with bars := v.bars.put n b })
  | none => s

/-- A barrier that is not declared: count, pending, quota and balance 0 (R215, R216). -/
def undeclaredBar (cls : Nat) : Bar := { kind := .team, cls, count := 0, pending := 0, quota := 0, balance := 0, declared := false }

/-- A thread weaker than the barrier's signaller class (R219). -/
def arriveCheck (n : Nat) (s : State) (w : Who) (_ : Thread) : Option Fail :=
  if (s.bar (s.teamIdOf w) n).any (fun b => b.declared && decide (b.cls < s.clsOf w)) then some { code := 0x0304 } else none

/-- A wait that R214 forbids (R221). -/
def waitCheck (n : Nat) (s : State) (w : Who) (_ : Thread) : Option Fail :=
  if (s.bar (s.teamIdOf w) n).any (fun b => b.declared && b.kind != .engine && !waitLegal (s.clsOf w) b.cls) then some { code := 0x0301 }
  else none

/-- `bar.owe d, nbN, b` (R220). A barrier that is not declared keeps what it is owed. -/
def execBarOwe (d : Dst) (nb : Fin 16) (b : Fin 128) (s : State) : Host.Outcome State Fault Refusal :=
  .next (s.runSeq { srcs := [(.reg b, false)], dst := some (d, false) } (fun s l =>
    let t := s.teamIdOf l.who
    let n : Int := ((l.vals.getD 0 0).toNat % 2 ^ 32 : Nat)
    match s.bar t nb.val with
    | some b =>
      if !balanceOk (b.balance + n) then (s, { fault := some { code := 0x0306 } })
      else ((s.modBar t nb.val (fun b => { b with balance := b.balance + n })).checkComplete t nb.val,
            { res := some (if b.phase then 1 else 0) })
    | none => (s.putBar t nb.val { undeclaredBar (s.clsOf l.who) with balance := n }, { res := some 0 })))

/-- `wait nbN, b` (R221): W threads may wait only on an engine barrier (R214). A wait on a barrier that is not declared
never completes (R216). -/
def execWait (nb : Fin 16) (b : Src) (s : State) : Host.Outcome State Fault Refusal :=
  .next (s.runSeq { srcs := [(b, false)], check := waitCheck nb.val }
    (fun s l =>
      let t := s.teamIdOf l.who
      let stay : LaneOut := { next := .stay, block := some (.bar nb.val) }
      match s.bar t nb.val with
      | some bar =>
        if bar.declared && bar.phase != (l.vals.getD 0 0).getLsbD 0 then (s.barAcquire l.who bar, {})
        else (s.modBar t nb.val (fun b => if b.blockedSince.isSome then b else { b with blockedSince := some s.now }), stay)
      | none => (s, stay)))

/-- `bar.test pN, nbN, b` (R222). -/
def execBarTest (p : Fin 8) (nb : Fin 16) (b : Src) (s : State) : Host.Outcome State Fault Refusal :=
  .next (s.runPure { srcs := [(b, false)] } (fun s l =>
    let ph := ((s.bar (s.teamIdOf l.who) nb.val).map (·.phase)).getD false
    { pred := some (p.val, ph != (l.vals.getD 0 0).getLsbD 0) }))

def barKindNum : BarKind → Nat
  | .team => 0 | .gang => 1 | .engine => 2

/-- A barrier initialised (R216): no members, the phase 0. The class is C for an engine barrier, else the team's. -/
def freshBar (k : BarKind) (cls count quota : Nat) : Bar :=
  { kind := k, cls := if k = .engine then 0 else cls, count, pending := count, quota, balance := quota }

def State.isGang (s : State) (t : TeamId) : Bool :=
  match (s.team t).bind (fun v => s.grid v.grid) with
  | some g => g.kind = .gang
  | none => false

def State.barBlocked (s : State) (t : TeamId) (n : Nat) : Bool :=
  let gang := (s.bar t n).any (fun b => b.kind = .gang)
  s.threads.any (fun p => p.2.state = .blocked (.bar n) && s.sharesBar gang t p.1)

/-- `bar.init nbN, kA, kind` (R217): the checks in the order of R430: class 0x02, then class 0x03. -/
def execBarInit (nb : Fin 16) (a : Fin 64) (kind : BarKind) (s : State) : Host.Outcome State Fault Refusal :=
  .next (s.runU [.k a] none (fun s vs =>
    let v := vs.getD 0 0
    let t := s.issueTeam
    let count := dfield v 15 0
    if count = 0 ∨ dfield v 63 48 ≠ 0 then (s, { fault := some { code := 0x0207 } })
    else if kind = .gang ∧ !s.isGang t then (s, { fault := some { code := 0x0308 } })
    else if (s.bar t nb.val).any (fun b => b.pending != b.count || decide (b.balance ≠ b.quota)) || s.barBlocked t nb.val then
      (s, { fault := some { code := 0x0307 } })
    else (s.putBar t nb.val (freshBar kind (s.clsOf s.leader) count (dfield v 47 16)), {})))

/-! ### Channels -/

/-- Whether a byte range lies in a team's reservation and touches nothing the device keeps there; `bufs` counts
declared buffers too. -/
def State.rangeFree (s : State) (t : TeamId) (off n : Nat) : Bool :=
  match s.team t with
  | some v => (s.regionsAt (Config.tileBase + t.1 * Config.sliceBytes + v.tileBase + off) n).isEmpty
  | none => false

def State.inReservation (s : State) (t : TeamId) (off n : Nat) : Bool :=
  match s.team t with
  | some v => off + n ≤ v.tileSize
  | none => false

/-- A channel descriptor applied (R226): the fault, or the binding done. -/
def State.bindChan (s : State) (t : TeamId) (n : Nat) (desc : DWord) : Except Fail State :=
  let kind := dfield desc 63 62
  let port := dfield desc 61 56
  let depth := dfield desc 36 24
  let off := 64 * dfield desc 22 6
  let cls := ((s.team t).map (·.cls)).getD 0
  let gridOf := ((s.team t).map (·.grid)).getD 0
  let bytes := alignUp 64 (8 * depth)
  let resv := dfield desc 55 37 ≠ 0 ∨ dbit desc 23 ∨ dfield desc 5 0 ≠ 0
  if kind = 3 ∨ resv ∨ (kind = 2 ∧ (depth ≠ 0 ∨ off ≠ 0 ∨ (port ≠ 1 ∧ port ≠ 2))) ∨
      (kind ≠ 2 ∧ (port ≠ 0 ∨ depth = 0 ∨ 4096 < depth ∨ !s.inReservation t off bytes)) then .error { code := 0x0207 }
  else if (s.chan t n).isSome ∨
      (kind = 1 ∧ s.isGang t ∧ s.teams.any (fun p => p.2.grid = gridOf && (s.chan p.1 n).isSome)) ∨
      (kind ≠ 2 ∧ !s.rangeFree t off bytes) then .error { code := 0x0208 }
  else if kind = 1 ∧ !s.isGang t then .error { code := 0x0308 }
  else
    let ch : Chan := { kind := if kind = 0 then .team else if kind = 1 then .gang else if port = 1 then .carder else .emissions,
                       cls := if kind = 2 then 0 else cls, owner := t, depth, off, desc, lastOp := s.now }
    if kind = 1 then .ok (s.modGrid gridOf (fun g => { g with gangChans := g.gangChans.put n ch }))
    else .ok (s.modTeam t (fun v => { v with chans := v.chans.put n ch }))

/-- `chbind cN, kA` (R226). -/
def execChbind (c : Fin 32) (a : Fin 64) (s : State) : Host.Outcome State Fault Refusal :=
  .next (s.runU [.k a] none (fun s vs =>
    match s.bindChan s.issueTeam c.val (vs.getD 0 0) with
    | .ok s => (s, {})
    | .error f => (s, { fault := some f })))

/-- `chfree cN` (R230). -/
def execChfree (c : Fin 32) (s : State) : Host.Outcome State Fault Refusal :=
  .next (s.runU [] none (fun s _ =>
    let t := s.issueTeam
    match s.chan t c.val with
    | none => (s, { fault := some { code := 0x0205 } })
    | some k =>
      let gang := decide (k.kind = .gang)
      let blocked := s.threads.any (fun p => s.sharesBar gang t p.1 &&
        (p.2.state = .blocked (.chan c.val) || p.2.state = .blocked (.carder (some c.val))))
      if blocked then (s, { fault := some { code := 0x0309 } })
      else if gang then
        (match s.team t with
          | some v => s.modGrid v.grid (fun g => { g with gangChans := g.gangChans.del c.val })
          | none => s, {})
      else (s.modTeam t (fun v => { v with chans := v.chans.del c.val }), {})))

/-- `chpoll d, cN` (R229): an unbound channel gives 0. -/
def execChpoll (d : Dst) (c : Fin 32) (s : State) : Host.Outcome State Fault Refusal :=
  .next (s.runPure { dst := some (d, false) } (fun s l =>
    { res := some (if whoIsWalk l.who then 0 else dw (s.chanCount (s.teamIdOf l.who) c.val)) }))

/-! ### Hanks -/

def Hank.count (h : Hank) : Nat := (h.bottom + 2 ^ 32 - h.top) % 2 ^ 32

/-- The header words that the device keeps (R231). -/
def Hank.header (h : Hank) : List Byte :=
  bytesOf 8 (h.bottom * 2 ^ 32 + h.top) ++
  bytesOf 8 (h.owner.1 * 2 ^ 32 + h.owner.2 * 2 ^ 28 + h.cls * 2 ^ 8 +
    (match h.scope with
      | .core => 0 | .cluster => 1 | .dev | .dom => 2) * 2 ^ 6 + h.cap)

/-- A hank changed; its header in tile memory follows (R231). -/
def State.putHank (s : State) (loc : Nat) (h : Hank) : State :=
  let s := { s with hanks := s.hanks.put loc h }
  s.write {} 0 loc h.header

/-- The address space and level of a lane's accesses. -/
def State.laneAccess (s : State) (w : Who) (kind : AccKind) (va : DWord) (size align : Nat) : Access :=
  let t := s.teamIdOf w
  match w with
  | .lane c _ _ =>
    match s.team t with
    | some v => { core := c, team := t, unit := .core c, asid := v.asid, root := v.root, grid := some v.grid,
                  user := !v.sup, kind, va, size, align, lane := true }
    | none => { core := c, team := t, unit := .core c, asid := 0, root := 0, grid := none, user := true, kind, va, size, align }
  | .walk n =>
    let x := (s.thread w).bind (·.walk)
    let blk := x.bind (fun x => (s.die x.origin).blocks.find? (fun b => b.entry = x.block))
    { core := t.1, team := t, unit := .die (walkerStack n), asid := (x.map (·.asid)).getD 0,
      root := (blk.map (·.root)).getD 0, grid := none, user := !(s.team t).any (·.sup), kind, va, size, align }

/-- What a hank instruction finds at its address (R233, R234). -/
inductive HankAt where
  | live (loc : Nat) (h : Hank)
  | bad (f : Fail)
  | page (va : Nat) (kind : AccKind)

/-- Where an address leads whatever the requester may do there, and the live hank whose header it is: none where it leads to
no memory of this device. -/
def State.hankPeek (s : State) (w : Who) (va : DWord) : Option (Nat × Option Hank) :=
  match (s.checkIssue { s.laneAccess w .load va 8 1 with user := false, lane := true }).2 with
  | .ok t => if isRemote t.loc then none else some (t.loc, s.hanks.find t.loc)
  | _ => none

/-- The memory checks of a hank operation, steps 1 to 8 of R450 and the fences and poison marks of its header at the home. -/
def State.hankAt (s : State) (w : Who) (va : DWord) (writes : Bool) : State × HankAt :=
  let kind : AccKind := if writes then .atomic else .load
  match s.checkIssue (s.laneAccess w kind va 8 1) with
  | (s, .page v) => (s, .page v kind)
  | (s, .fault f) => (s, .bad f)
  | (s, .ok t) =>
    if isRemote t.loc then (s, .bad { code := 0x0506, addr := va })
    else if s.fencedLoc t.loc then
      (s, .bad (if writes then { code := 0x0F05, addr := dw t.loc, phys := true, info0 := 2 } else { code := 0x0F01, addr := va }))
    else match s.hanks.find t.loc with
      | some h => if s.mem.poisoned t.loc 64 then (s, .bad { code := 0x0F01, addr := va, info0 := dw kind.num }) else (s, .live t.loc h)
      | none => (s, .bad { code := 0x0406, addr := va })

/-- Whether a core lies within a hank's scope of its home core (R77, R233). -/
def hankReach (h : Hank) (core : Nat) : Bool :=
  match h.scope with
  | .core => core = h.owner.1
  | .cluster => core / 8 = h.owner.1 / 8
  | .dev | .dom => true

/-- Threads blocked on a hank become ready, to issue again (R30). -/
def State.wakeHank (s : State) (loc : Nat) : State :=
  (s.threads.filter (fun p => p.2.state = .blocked (.hank loc))).foldl (fun s p => s.ready p.1) s

/-- The checks of a hank operation at its issue, in the order of R430: the wait that R214 forbids, the cases of R234, then
memory. An address that leads nowhere has its memory check alone. -/
def hankCheck (a : Fin 128) (writes waits : Bool) (allowed : State → Who → Hank → Bool) (s : State) (w : Who) (t : Thread) :
    Option Fail :=
  let va := t.rd2 a.val
  let memory : Option Fail := match (s.hankAt w va writes).2 with
    | .bad f => some f
    | _ => none
  match s.hankPeek w va with
  | some (_, some h) =>
    if waits && !(h.owner = s.teamIdOf w && waitLegal (s.clsOf w) h.cls) then some { code := 0x0301 }
    else if !allowed s w h then some { code := 0x0406, addr := va }
    else memory
  | some (_, none) => some { code := 0x0406, addr := va }
  | none => memory

/-- The page that a hank operation's address meets at issue. -/
def hankPage (a : Fin 128) (writes : Bool) (s : State) (w : Who) (t : Thread) : Option (Nat × AccKind) :=
  match (s.hankAt w (t.rd2 a.val) writes).2 with
  | .page v k => some (v, k)
  | _ => none

/-- The operands of a hank operation with its checks. -/
def hankSpec (a : Fin 128) (writes waits : Bool) (allowed : State → Who → Hank → Bool) (srcs : List (Src × Bool))
    (dst : Option (Dst × Bool)) : LaneSpec :=
  { srcs, dst, more := [a.val, a.val + 1], check := hankCheck a writes waits allowed, page := hankPage a writes }

/-- A thread of the owner team (R233). -/
def hankOwns (s : State) (w : Who) (h : Hank) : Bool := h.owner = s.teamIdOf w

/-- A thread on a core within the hank's scope (R233). -/
def hankNear (s : State) (w : Who) (h : Hank) : Bool := hankReach h (s.coreOf w)

/-- One hank operation of one lane at a live header. One that adds or takes an entry breaks a stretch of R55; a pop of an empty
hank and a push to a full one do not (log entry 78). -/
def State.hankOp (s : State) (l : LaneIn) (va : DWord) (writes : Bool)
    (op : State → Nat → Hank → State × LaneOut) : State × LaneOut :=
  match s.hankAt l.who va writes with
  | (s, .page v k) => (s, { page := some (v, k) })
  | (s, .bad f) => (s, { fault := some f })
  | (s, .live loc h) => op (s.modThread l.who (fun t => t.accessOk s.sys.issue.pc)) loc { h with lastOp := s.now, reported := false }

/-- An entry of a ring read, where its line is not poisoned (R423). -/
def State.ringEntry (s : State) (loc : Nat) (va : DWord) : Except Fail DWord :=
  if s.mem.poisoned loc 8 then .error { code := 0x0F01, addr := va, info0 := dw AccKind.atomic.num }
  else .ok (dw (numOfBytes (s.mem.read 0 loc 8)))

def ringLoc (loc : Nat) (h : Hank) (i : Nat) : Nat := loc + 64 + 8 * (i % 2 ^ h.cap)

/-- `hank.push pN, a, b` (R233). -/
def execHankPush (p : Fin 8) (a : Fin 128) (b : Src) (s : State) : Host.Outcome State Fault Refusal :=
  .next (s.runSeq (hankSpec a true false hankOwns [(b, true)] none) (fun s l =>
    s.hankOp l (l.t.rd2 a.val) true (fun s loc h =>
      if h.count < 2 ^ h.cap then
        let s := s.write {} 0 (ringLoc loc h h.bottom) (bytesOf 8 (l.vals.getD 0 0).toNat)
        ((s.putHank loc { h with bottom := (h.bottom + 1) % 2 ^ 32, blockedSince := none }).wakeHank loc, { pred := some (p.val, true) })
      else (s, { pred := some (p.val, false) }))))

/-- The index below the bottom, modulo 2^32 (R231). -/
def Hank.newest (h : Hank) : Nat := (h.bottom + 2 ^ 32 - 1) % 2 ^ 32

/-- An entry taken: the counters move and the lane gets the value; a poisoned one faults. -/
def State.tookEntry (s : State) (loc : Nat) (h : Hank) (p : Fin 8) : Except Fail DWord → State × LaneOut
  | .ok v => (s.putHank loc { h with blockedSince := none }, { res := some v, pred := some (p.val, true) })
  | .error f => (s, { fault := some f })

/-- `hank.pop d, a, pN` (R233). -/
def execHankPop (d a : Fin 128) (p : Fin 8) (s : State) : Host.Outcome State Fault Refusal :=
  .next (s.runSeq (hankSpec a true false hankOwns [] (some (.reg d, true))) (fun s l =>
    s.hankOp l (l.t.rd2 a.val) true (fun s loc h =>
      if 0 < h.count then s.tookEntry loc { h with bottom := h.newest } p (s.ringEntry (ringLoc loc h h.newest) (l.t.rd2 a.val)) else (s, { pred := some (p.val, false) }))))

/-- `hank.pop.wait d, a, pN` (R214, R233). -/
def execHankPopWait (d a : Fin 128) (p : Fin 8) (s : State) : Host.Outcome State Fault Refusal :=
  .next (s.runSeq (hankSpec a true true hankOwns [] (some (.reg d, true))) (fun s l =>
    s.hankOp l (l.t.rd2 a.val) true (fun s loc h =>
      if 0 < h.count then s.tookEntry loc { h with bottom := h.newest } p (s.ringEntry (ringLoc loc h h.newest) (l.t.rd2 a.val))
      else
        ({ s with hanks := s.hanks.upd loc (fun h => { h with blockedSince := some (h.blockedSince.getD s.now) }) },
         { next := .stay, block := some (.hank loc) }))))

/-- `hank.steal d, a, pN` (R233, R234). -/
def execHankSteal (d a : Fin 128) (p : Fin 8) (s : State) : Host.Outcome State Fault Refusal :=
  .next (s.runSeq (hankSpec a true false hankNear [] (some (.reg d, true))) (fun s l =>
    s.hankOp l (l.t.rd2 a.val) true (fun s loc h =>
      if 0 < h.count then
        s.tookEntry loc { h with top := (h.top + 1) % 2 ^ 32 } p (s.ringEntry (ringLoc loc h h.top) (l.t.rd2 a.val))
      else (s, { pred := some (p.val, false) }))))

/-- `hank.size d, a` (R233, R234). -/
def execHankSize (d a : Fin 128) (s : State) : Host.Outcome State Fault Refusal :=
  .next (s.runSeq (hankSpec a false false hankNear [] (some (.reg d, false))) (fun s l =>
    s.hankOp l (l.t.rd2 a.val) false (fun s _ h => (s, { res := some (dw h.count) }))))

/-- The checks of R232 on a header's place, in their order, with the overlap that R231 forbids last. -/
def State.hankInitFail (s : State) (t : TeamId) (loc : Nat) (h : Hank) : Option Fail :=
  let off := loc - (Config.tileBase + t.1 * Config.sliceBytes)
  let inside := isTile loc && (s.team t).any (fun v => v.tileBase ≤ off && off + h.bytes ≤ v.tileBase + v.tileSize)
  if isTile loc && sliceOf loc != t.1 then some { code := 0x0407 }
  else if !inside then some { code := 0x0207 }
  else if (s.hanks.find loc).isSome then some { code := 0x0407 }
  else if 64 ≤ (s.hanks.filter (fun x => x.2.owner.1 = t.1)).length then some { code := 0x0407 }
  else if !(s.regionsAt loc h.bytes).isEmpty then some { code := 0x0208 }
  else none

/-- `hank.init kA, kB` (R232): its checks in its own order, then those of memory; an address that leads nowhere has the memory
check alone, one on another device lies outside the reservation. -/
def execHankInit (a b : Fin 64) (s : State) : Host.Outcome State Fault Refusal :=
  .next (s.runU [.k a, .k b] none (fun s vs =>
    let va := vs.getD 0 0
    let cw := vs.getD 1 0
    let t := s.issueTeam
    let cap := dfield cw 3 0
    let sc := dfield cw 5 4
    if cap < 3 ∨ 12 < cap ∨ sc = 3 ∨ dfield cw 63 6 ≠ 0 ∨ va.toNat % 64 ≠ 0 then (s, { fault := some { code := 0x0207 } })
    else
      let h : Hank := { owner := t, cls := s.clsOf s.leader,
                        scope := if sc = 0 then .core else if sc = 1 then .cluster else .dev, cap, va, lastOp := s.now }
      let own : Option Fail := match (s.checkIssue { s.laneAccess s.leader .load va 8 1 with user := false }).2 with
        | .ok tg => s.hankInitFail t tg.loc h
        | _ => none
      match own, s.checkIssue (s.laneAccess s.leader .store va 8 8) with
      | some f, _ => (s, { fault := some f })
      | none, (s, .page v) =>
        (s.startRun (s.sys.issue.lanes.map (·.2)) .store v (addGranule [] v true false) [], { next := .gone })
      | none, (s, .fault f) => (s, { fault := some f })
      | none, (s, .ok tg) =>
        if s.fencedLoc tg.loc then (s, { fault := some { code := 0x0F05, addr := dw tg.loc, phys := true, info0 := 1 } })
        else (s.putHank tg.loc h, {})))

/-! ### Bound registers -/

def State.bound (s : State) (dev : Bool) (core i : Nat) : DWord :=
  if dev then (s.sync.device.find i).getD 0 else (s.sync.cluster.find (core / 8 * 16 + i)).getD 0

def State.setBound (s : State) (dev : Bool) (core i : Nat) (v : DWord) : State :=
  if dev then s.setSync { s.sync with device := s.sync.device.put i v }
  else s.setSync { s.sync with cluster := s.sync.cluster.put (core / 8 * 16 + i) v }

/-- a < b as `n64` or `i64` (R236). -/
def lessBy (nat : Bool) (a b : DWord) : Bool := if nat then a.ult b else a.slt b

/-- One bound update for every lane in order (R236). -/
def State.boundStep (s : State) (a : Fin 128) (dev : Bool) (i : Fin 16) (f : DWord → DWord → DWord) :
    Host.Outcome State Fault Refusal :=
  .next (s.runSeq { srcs := [(.reg a, true)] } (fun s l =>
    let c := s.coreOf l.who
    (s.setBound dev c i.val (f (l.vals.getD 0 0) (s.bound dev c i.val)), {})))

/-- `bound.min` (R236). -/
def execBoundMin (a : Fin 128) (nat dev : Bool) (i : Fin 16) (s : State) : Host.Outcome State Fault Refusal :=
  s.boundStep a dev i (fun v r => if lessBy nat v r then v else r)
/-- `bound.min.set` (R236). -/
def execBoundMinSet (a : Fin 128) (_nat dev : Bool) (i : Fin 16) (s : State) : Host.Outcome State Fault Refusal :=
  s.boundStep a dev i (fun v _ => v)
/-- `bound.max` (R236). -/
def execBoundMax (a : Fin 128) (nat dev : Bool) (i : Fin 16) (s : State) : Host.Outcome State Fault Refusal :=
  s.boundStep a dev i (fun v r => if lessBy nat r v then v else r)
/-- `bound.max.set` (R236). -/
def execBoundMaxSet (a : Fin 128) (_nat dev : Bool) (i : Fin 16) (s : State) : Host.Outcome State Fault Refusal :=
  s.boundStep a dev i (fun v _ => v)

/-- `bound.get d, index` (R84, R237): the newest value of the register's order (log entry 15). -/
def execBoundGet (d : Fin 128) (dev : Bool) (i : Fin 16) (s : State) : Host.Outcome State Fault Refusal :=
  .next (s.runPure { dst := some (.reg d, true) } (fun s l => { res := some (s.bound dev (s.coreOf l.who) i.val) }))

/-! ### Register pool -/

/-- A grant at once where nobody waits and the registers are there (R58, R59). -/
def Core.canGrant (k : Core) (n : Nat) : Bool := k.poolQueue.isEmpty && n ≤ k.free

def claimOk (hold n : Nat) : Bool := n != 0 && n % 8 == 0 && hold + n ≤ 128
def relOk (hold n : Nat) : Bool := n != 0 && n % 8 == 0 && 32 ≤ hold - n && n ≤ hold

/-- `regclaim n` (R58, R238). -/
def execRegclaim (n : BitVec 8) (s : State) : Host.Outcome State Fault Refusal :=
  .next (s.runSeq { check := fun _ _ t => if claimOk t.holding n.toNat then none else some { code := 0x0204 } } (fun s l =>
    match l.who with
    | .lane c slot tid =>
      if (s.core c).canGrant n.toNat then
        let s := s.modCore c (fun k => { k with free := k.free - n.toNat })
        (s.modThread l.who (fun t => { t with regs := t.regs ++ List.replicate n.toNat 0 }), {})
      else (s.modCore c (fun k => { k with poolQueue := k.poolQueue ++ [.claim slot tid n.toNat] }),
            { next := .stay, block := some (.claim n.toNat) })
    | .walk _ => (s, {})))

/-- `regrel n` (R58, R238). -/
def execRegrel (n : BitVec 8) (s : State) : Host.Outcome State Fault Refusal :=
  .next (s.runSeq { check := fun _ _ t => if relOk t.holding n.toNat then none else some { code := 0x0204 } } (fun s l =>
    let s := s.modCore (s.coreOf l.who) (fun k => { k with free := k.free + n.toNat })
    (s.modThread l.who (fun t => { t with regs := t.regs.take (t.holding - n.toNat) }), {})))

/-- The registers a request asks for. -/
def State.reqSize (s : State) (c : Nat) : PoolReq → Nat
  | .claim _ _ n => n
  | .spawn _ _ n => n
  | .skein x => ((s.skein c x).map (·.owes)).getD 0

/-- The registers of a started thread: v0 and v1 of a spawned one, else zero (R57, R207). -/
def Thread.freshRegs (t : Thread) (n : Nat) : List Word := padTo n 0 t.args

/-- REGISTER_GRANT: the oldest request of a core's pool granted where its registers are there (R59); a younger one
waits behind it. -/
def execRegisterGrant (core : Nat) (s : State) : Host.Outcome State Fault Refusal :=
  if Config.cores ≤ core then .fault .noSuchAgent else
  match (s.core core).poolQueue with
  | [] => .next s
  | r :: rs =>
    let n := s.reqSize core r
    if (s.core core).free < n then .next s
    else
      let s := s.modCore core (fun k => { k with poolQueue := rs, free := k.free - n })
      match r with
      | .claim slot tid _ =>
        let w := Who.lane core slot tid
        .next ((s.modThread w (fun t => { t with regs := t.regs ++ List.replicate n 0 })).readyPast w 4)
      | .spawn slot tid _ =>
        let w := Who.lane core slot tid
        .next ((s.modThread w (fun t => { t with regs := t.freshRegs n })).fileAll core)
      | .skein x =>
        let per := match s.skein core x with
          | some k => ((s.team (core, k.slot)).map (·.regs)).getD 32
          | none => 32
        let s := s.modSkein core x (fun k => { k with granted := true, owes := 0 })
        .next ((s.skeinThreads core x).foldl (fun s p =>
          if p.2.state = .blocked (.regs per) then
            (s.modThread p.1 (fun t => { t with regs := if t.regs.isEmpty then t.freshRegs per else t.regs })).ready p.1
          else s) s)

/-- $pool.waiting (R60). -/
def State.poolWaiting (s : State) (c : Nat) : Nat :=
  sumOf ((s.core c).poolQueue.map (fun r => match r with
    | .claim _ _ _ => 1
    | .spawn _ _ _ => 0
    | .skein x => (s.skeinThreads c x).length))

end Sys2Proof.Machine
end

