-- ==== Sys2Proof/Machine/Reach.lean ====
section
/-!
DEFINITION. A thread's access performed: effective addresses (R193), the checks at the home for lane and walker threads
(R361, R450, R464, R484), loads and stores in memory (R82, R91, R93, R361) and the gather collector (R196).
-/
namespace Sys2Proof.Machine

/-! ### Effective addresses (R193) -/

def effAddr (m : MemAddr) (t : Thread) (size : Nat) : DWord :=
  let i : DWord := match m.index with
    | some (r, sh) => (t.rd r.val).signExtend 64 <<< sh.val
    | none => 0
  t.rd2 m.base.val + i + BitVec.ofInt 64 (m.off.toInt * size)

def indexRegs (m : MemAddr) : List Nat := (m.index.map (fun x => x.1.val)).toList

/-- The bytes that an access type moves (R193). -/
def tySize (t : Ty) : Nat := t.bits / 8

/-- A loaded value placed in its register or pair (R163, R193). -/
def loadExt (t : Ty) (bs : List Byte) : DWord :=
  let n := numOfBytes bs
  dw (match t with
    | .i8 => wrapTo 32 (signedOf 8 n)
    | .i16 => wrapTo 32 (signedOf 16 n)
    | .e3m2 => n % 64
    | _ => n)

/-- The bytes a store writes (R193). -/
def storeBytes (t : Ty) (v : DWord) : List Byte :=
  bytesOf (tySize t) (match t with
    | .e3m2 => v.toNat % 64
    | _ => v.toNat)

/-! ### Walks' own stores (R88, R361) -/

/-- The command block whose walk a walker thread serves (R362). -/
def State.walkBlock (s : State) (w : Who) : Option (WalkCtx × Block) :=
  match (s.thread w).bind (·.walk) with
  | some x => ((s.die x.origin).blocks.find? (fun b => b.entry = x.block)).map (fun b => (x, b))
  | none => none

def State.modBlock (s : State) (stack entry : Nat) (f : Block → Block) : State :=
  s.modDie stack (fun d => { d with blocks := d.blocks.map (fun b => if b.entry = entry then f b else b) })

/-! ### Reaching memory -/

/-- What stops an access at its home: the error reply of a lost line (R464), then steps 9 to 12 of R450. -/
def State.homeFault (s : State) (a : Access) (tg : Target) : Option Fail :=
  if tg.line && s.lineLost tg.loc then some { code := 0x0F01, addr := a.va, info0 := dw a.kind.num, info1 := 0x0D04 }
  else s.checkHome a tg

/-- Steps 1 to 12 of R450 with the walker's own stack, in which its loads, stores and atomics lie (R361), and the error reply of a lost line (R464). -/
def State.reach (s : State) (w : Who) (a : Access) : State × AccRes :=
  match s.checkIssue a with
  | (s, .ok tg) =>
    let away : Bool := match w with
      | .walk n => a.kind != .fetch && !(isHbm tg.loc && stackOf tg.loc == walkerStack n)
      | .lane _ _ _ => false
    if away then (s, .fault { code := 0x0C03, addr := a.va, info0 := dw a.kind.num })
    else match s.homeFault a tg with
      | some f => (s, .fault f)
      | none => (s, .ok tg)
  | r => r

/-- Bytes that the specification gives no value for: the memory of another device (log entry 10). -/
def State.freeBytes (s : State) (n : Nat) : State × List Byte :=
  (s.setSys { s.sys with free := s.sys.free + (n + 7) / 8 },
   (List.range n).map (fun i => (Config.freeValue (s.sys.free + i / 8)).extractLsb' (8 * (i % 8)) 8))

/-- A copy or the ownership that another device's home grants for a `line` access (R93, R379). -/
def State.holdLine (s : State) (tg : Target) (own : Bool) : State :=
  if isRemote tg.loc && tg.line then
    s.setDom { s.dom with held := s.dom.held.put (tg.loc / 64) (own || (s.dom.held.find (tg.loc / 64)).getD false) }
  else s

/-- A load performed (R82, R91, R93; R361 for a walker thread). A load from a `tso` page, on this device or another, is
followed by an acquire at dev scope (R78). -/
def State.loadAt (s : State) (w : Who) (tg : Target) (n : Nat) : State × List Byte :=
  match w with
  | .walk _ =>
    if isRemote tg.loc then (s.holdLine tg false).freeBytes n
    else (s.arrived, overlay (s.mem.read tg.key tg.loc n) tg.loc ((s.walkBlock w).map (·.2.stores) |>.getD []))
  | .lane c _ _ =>
    let (s, bs) := if isRemote tg.loc then (s.holdLine tg false).freeBytes n
      else s.loadValue w c tg.key tg.loc n (tg.tso || tg.line)
    (if tg.tso then s.acquire w c .dev else s, bs)

/-- How long a `tso` store may be held back: 2 µs (R91). -/
def tsoHold : Nat := 5000

/-- A store performed or held back (R79, R91, R93): at the home at once on a `line` page and in a declared buffer (R76),
within 2 µs on a `tso` page, whose store is preceded by a release at dev scope (R78); a walker thread's stands until its walk
completes (R88); one to another device leaves this machine (log entry 10). -/
def State.storeAt (s : State) (w : Who) (tg : Target) (bs : List Byte) : State :=
  match w with
  | .walk n =>
    if isRemote tg.loc then s.holdLine tg true
    else match s.walkBlock w with
      | some (x, b) => s.modBlock x.origin b.entry (fun b =>
          { b with stores := b.stores ++ [{ who := .walk n, core := x.core, loc := tg.loc, bytes := bs, key := tg.key }] })
      | none => s
  | .lane c _ _ =>
    let s := if tg.tso then s.release w .dev else s
    if isRemote tg.loc then s.holdLine tg true
    else
      (if tg.line then s.dropCopies tg.loc else s).storeValue w c tg.key tg.loc bs
        (tg.line || !(s.regionsAt tg.loc bs.length).isEmpty) (if tg.tso then some (s.now + tsoHold) else none)

/-- The stores of one instruction that together cover a line written as one line (R195, R466). -/
def coalesce (l : List (Target × List Byte)) : List (Target × List Byte) :=
  let lines := l.foldl (fun acc p => addOnce acc (p.1.loc / 64)) []
  lines.flatMap fun ln =>
    let mine := l.filter (fun p => p.1.loc / 64 = ln)
    let byteOf (i : Nat) : Option Byte :=
      ((mine.filter (fun p => p.1.loc ≤ ln * 64 + i && ln * 64 + i < p.1.loc + p.2.length)).getLast?).map
        (fun p => p.2.getD (ln * 64 + i - p.1.loc) 0)
    let bs := (List.range 64).map byteOf
    match mine with
    | p :: _ => if bs.all (·.isSome) then [({ p.1 with loc := ln * 64 }, bs.map (·.getD 0))] else mine
    | [] => []

/-! ### Grants of coherent lines (R379) -/

/-- A gang one of whose accesses awaits a line's grant stalls as a whole, having asked for every such line; it issues
again at the grant. None where no lane waits. -/
def State.awaitGrants (s : State) (kind : AccKind) (addr : Thread → DWord) (size : Nat) : Option State :=
  if s.sys.issue.runAhead.isSome || s.dom.dir.isEmpty then none
  else
    let need := s.sys.issue.lanes.filterMap (fun l =>
      match s.thread l.2 with
      | some t =>
        match (s.checkIssue (s.laneAccess l.2 kind (addr t) size size)).2 with
        | .ok tg => if tg.line && isHbm tg.loc && s.needsGrant tg.loc then some (tg.loc / 64) else none
        | _ => none
      | none => none)
    match need with
    | [] => none
    | ln :: _ =>
      let s := need.foldl (fun s l => s.dirRequest s.dom.dev l kind.writes) s
      if (s.dirEntry ln).owner.isSome then some (s.gangGo (fun t => { t with stall := .grant ln })) else none

/-! ### The gather collector (R196) -/

/-- Whether a request waits for its line's access. -/
def GatherReq.waiting (g : GatherReq) : Bool := g.val.isNone

/-- The line accesses outstanding in a collector: one for each line of its loads and of its stores not yet performed. -/
def gatherLines (gs : List GatherReq) : List (Nat × Bool) :=
  (gs.filter (·.waiting)).foldl (fun acc g => addOnce acc (g.loc / 64, g.store.isSome)) []

def gatherRoom : Nat := 512

def GatherReq.target (g : GatherReq) : Target := { loc := g.loc, key := g.key, tso := g.tso, line := g.line }

/-- Whether two requests are served by one access: one line, all loads or all stores (R196). -/
def GatherReq.merges (g h : GatherReq) : Bool := g.loc / 64 == h.loc / 64 && g.store.isSome == h.store.isSome

/-- One request performed at its line's access: the home checks, then the load's value kept or the store performed at its
home. -/
def State.gatherOne (s : State) (c : Nat) (g : GatherReq) : State :=
  let a := s.laneAccess g.who (if g.store.isSome then .store else .load) g.va g.size g.size
  let drop (s : State) : State := s.modCore c (fun k => { k with gather := k.gather.filter (fun x => decide (x ≠ g)) })
  match s.homeFault a g.target with
  | some f =>
    let iss := s.sys.issue
    let s := drop s
    let s := (s.setSys { s.sys with issue := g.iss }).trapLane g.who f
    s.setSys { s.sys with issue := iss }
  | none =>
    match g.store with
    | some v =>
      let s := (drop s).modThread g.who (fun t => t.accessOk g.iss.pc)
      if isRemote g.loc then s else s.write { whos := [g.who], core := some c } g.key g.loc (storeBytes g.ty v)
    | none =>
      let (s, bs) := s.loadAt g.who g.target g.size
      s.modCore c (fun k => { k with gather := k.gather.map (fun x => if x = g then { x with val := some (loadExt g.ty bs) } else x) })

/-- One access of a line serves every waiting request to it of its kind, in their order of entry; the stores of one follow
those that their threads hold back (R81, R196). -/
def State.gatherGroup (s : State) (c : Nat) (g : GatherReq) : State :=
  let gs := (s.core c).gather.filter (fun (x : GatherReq) => x.waiting && x.merges g)
  let s := if g.store.isSome then s.performStores (fun p => gs.any (fun x => x.who = p.who)) else s
  gs.foldl (fun (s : State) x => s.gatherOne c x) s

/-- Whether two requests are of one instruction of one gang. -/
def GatherReq.sameGang (g h : GatherReq) : Bool :=
  g.iss.ctx = h.iss.ctx && g.iss.pc = h.iss.pc && g.iss.lanes = h.iss.lanes && g.store.isSome = h.store.isSome

/-- A gang whose loads have all returned: results written or pushed in lane order, and its lanes go on together. A push
that finds no room waits for it. -/
def State.gatherFinish (s : State) (c : Nat) (g : GatherReq) : State :=
  let mine := (s.core c).gather.filter (g.sameGang ·)
  if mine.any (·.waiting) then s
  else if !s.pushRoom (s.teamIdOf g.who) g.dst mine.length then s
  else
    let s := s.modCore c (fun k => { k with gather := k.gather.filter (fun x => !g.sameGang x) })
    let s := mine.foldl (fun s x => s.modThread x.who (fun t =>
      { (t.putDst g.dst (x.val.getD 0)).accessOk g.iss.pc with pc := g.iss.pc + dw g.iss.len, stall := .none, readySince := s.now })) s
    let s := match g.dst with
      | some (.push ch, _) =>
        (mine.foldl (fun (s : State) (x : GatherReq) => s.pushOne (s.teamIdOf x.who) ch.val (x.val.getD 0)) s).wakeChan (s.teamIdOf g.who) ch.val
      | _ => s
    (s.wakeCore c).releaseHeld c g.iss.ctx

/-- Gangs that stalled for room issue again once their core's collector has some. -/
def State.gatherWake (s : State) (c : Nat) : State :=
  if gatherRoom ≤ (gatherLines (s.core c).gather).length then s
  else { s with threads := s.threads.map (fun p =>
    if s.coreOf p.1 = c ∧ p.2.stall = .gather ∧ !((s.core c).gather.any (fun g => g.who = p.1)) then
      (p.1, { p.2 with stall := .none }) else p) }

/-- The clk for which a line's access may wait for requests to merge (R196). -/
def gatherWindow : Nat := 32

/-- How many line accesses of a collector are due: the window of their first request is over. -/
def State.gatherDue (s : State) (c : Nat) : Nat :=
  (gatherLines ((s.core c).gather.filter (fun g => g.since + gatherWindow ≤ s.now))).length

/-- Every gang of a collector whose loads have all returned goes on. -/
def State.gatherSettle (s : State) (c : Nat) : State :=
  ((s.core c).gather.filter (fun (x : GatherReq) => x.store.isNone)).foldl (fun (s : State) (g : GatherReq) =>
    if (s.core c).gather.contains g then s.gatherFinish c g else s) s

/-- GATHER_ACCESS: the line of the oldest request whose window is over is accessed once for every request to it of the same
kind (R196). -/
def execGatherAccess (core : Nat) (s : State) : Host.Outcome State Fault Refusal :=
  let s := match (s.core core).gather.find? (fun g => g.waiting && decide (g.since + gatherWindow ≤ s.now)) with
    | some g => s.gatherGroup core g
    | none => s
  .next ((s.gatherSettle core).gatherWake core)

/-- The lines that hold a thread's `gst` stores are accessed: before its release, and before a later access of its own
(R195, R196, R210). -/
def State.flushGather (s : State) (w : Who) : State :=
  let c := s.coreOf w
  ((s.core c).gather.filter (fun g => g.who = w ∧ g.store.isSome)).foldl (fun s g =>
    if (s.core c).gather.contains g then s.gatherGroup c g else s) s

/-- The `gst` stores of the issuing gang's lanes are performed first (R195). -/
def State.flushGang (s : State) : State := s.sys.issue.lanes.foldl (fun s l => s.flushGather l.2) s

end Sys2Proof.Machine
end

