-- ==== Sys2Proof/Machine/Control.lean ====
section
/-!
DEFINITION. Control instructions: branches, calls, regrouping, spawn, exit, traps, sleep, child waits, arrivals and phases
(spec/08_control_and_synchronisation.md, R201 to R213, R219, R225), with the steps CONVERGE_STARVE_RELEASE, SLEEP_END and
PHASE_COMPLETE.
-/
namespace Sys2Proof.Machine

/-- pc + 4 × offset (R136). -/
def branchTarget (pc : DWord) (off : Int) : DWord := pc + BitVec.ofInt 64 (4 * off)

/-- Whether a BP instruction is taken in a lane (R139). -/
def brTaken (p : Option BrPred) (t : Thread) : Bool :=
  match p with
  | none => true
  | some q => t.pred q.p.val != q.neg

def predOf (p : Option BrPred) : List Nat := (p.map (fun q => q.p.val)).toList

/-- A loop boundary of a walker thread whose block is being pre-empted stops it (R360, R364). -/
def State.walkBoundary (s : State) (w : Who) : State :=
  match (s.thread w).bind (·.walk) with
  | some x =>
    if (s.die x.origin).blocks.any (fun b => b.entry = x.block && b.preempting) then
      s.modThread w (fun t => { t with stopped := true })
    else s
  | none => s

/-- A taken transfer to a lower address is a loop boundary (R360). -/
def State.goto (s : State) (l : LaneIn) (target : DWord) : State × LaneOut :=
  let s := if whoIsWalk l.who && target.ult s.sys.issue.pc then s.walkBoundary l.who else s
  (s, { next := .goto target })

/-- `br` (R202). -/
def execBr (p : Option BrPred) (off : BitVec 19) (s : State) : Host.Outcome State Fault Refusal :=
  .next (s.runSeq { preds := predOf p } (fun s l =>
    if brTaken p l.t then s.goto l (branchTarget s.sys.issue.pc off.toInt) else (s, {})))

/-- The return stack's depth: 16, or 4 for a walker thread (R203, R283). -/
def stackDepth (w : Who) : Nat := if whoIsWalk w then 4 else 16

/-- Overflow in the lanes that take the call (R203). -/
def callCheck (p : Option BrPred) (_ : State) (w : Who) (t : Thread) : Option Fail :=
  if brTaken p t && stackDepth w ≤ t.rstack.length then some { code := 0x0202 } else none

/-- A call taken: the return address is pushed (R202). -/
def State.callTo (s : State) (l : LaneIn) (target : DWord) : State × LaneOut :=
  (s.modThread l.who (fun t => { t with rstack := (s.sys.issue.pc + 4) :: t.rstack })).goto l target

/-- `call` (R202, R203). -/
def execCall (p : Option BrPred) (off : BitVec 19) (s : State) : Host.Outcome State Fault Refusal :=
  .next (s.runSeq { preds := predOf p, check := callCheck p } (fun s l =>
    if brTaken p l.t then s.callTo l (branchTarget s.sys.issue.pc off.toInt) else (s, {})))

def retCheck (_ : State) (_ : Who) (t : Thread) : Option Fail := if t.rstack.isEmpty then some { code := 0x0203 } else none

/-- `ret` (R202, R203). -/
def execRet (s : State) : Host.Outcome State Fault Refusal :=
  .next (s.runSeq { check := retCheck } (fun s l =>
    (s.modThread l.who (fun t => { t with rstack := t.rstack.drop 1 })).goto l (l.t.rstack.headD 0)))

/-- A jump target whose bits [1:0] are not zero (R136). -/
def targetFail (target : DWord) : Option Fail :=
  if target.toNat % 4 ≠ 0 then some { code := 0x0502, addr := target, info0 := 3 } else none

def jrCheck (a : Nat) (_ : State) (_ : Who) (t : Thread) : Option Fail := targetFail (t.rd2 a)

/-- `jr a` (R202): also the return from a trap (R432, R434). -/
def execJr (a : Fin 128) (s : State) : Host.Outcome State Fault Refusal :=
  .next (s.runSeq { srcs := [(.reg a, true)], check := jrCheck a.val } (fun s l =>
    let target := l.vals.getD 0 0
    (s.returnFromTrap l.who target).goto l target))

/-- A call through a register: operand checks before the target's (R430). -/
def calrCheck (a : Nat) (s : State) (w : Who) (t : Thread) : Option Fail :=
  match callCheck none s w t with
  | some f => some f
  | none => targetFail (t.rd2 a)

/-- `calr a` (R202, R203). -/
def execCalr (a : Fin 128) (s : State) : Host.Outcome State Fault Refusal :=
  .next (s.runSeq { srcs := [(.reg a, true)], check := calrCheck a.val } (fun s l => s.callTo l (l.vals.getD 0 0)))

/-- `switch` (R204). -/
def execSwitch (i : Src) (off : BitVec 16) (s : State) : Host.Outcome State Fault Refusal :=
  .next (s.runPure { srcs := [(i, false)] } (fun s l =>
    let n : Nat := (l.vals.getD 0 0).toNat % 2 ^ 32
    if n < 8 then { next := .goto (branchTarget s.sys.issue.pc (off.toInt + (n : Nat))) } else {}))

/-- One thread issues its `converge`: it goes past it, its waited bit cleared (R36). -/
def Thread.converged (t : Thread) (pc : DWord) : Thread :=
  { t with pc := pc + 4, waited := false, state := .ready, released := false }

/-- `converge` (R36, R205): the lanes are held; when R36 releases the threads held there, they issue it as one gang. -/
def execConverge (s : State) : Host.Outcome State Fault Refusal :=
  let i := s.sys.issue
  let ws := i.lanes.map (·.2)
  if i.runAhead.isSome then .next (s.gangGo (fun t => t.converged i.pc))
  else
    let s := s.gangGo (fun t => if t.released then t else { t with state := .held, heldSince := s.now })
    let ms := s.skeinThreads i.core i.ctx
    let due := releaseDue ms i.pc
    let go := ms.filter (fun p => p.2.pc = i.pc ∧ ((p.2.released ∧ p.1 ∈ ws) ∨ (due ∧ p.2.state = .held)))
    .next ((go.foldl (fun s p => s.modThread p.1 (fun t => { t.converged i.pc with lastIssue := s.now })) s).releaseHeld i.core i.ctx)

/-- Whether a thread has been held for `$starve` clk (R36); the timers of a halted core stand (R300), and a team that is being
saved holds its threads (R301). -/
def State.heldOut (s : State) (w : Who) (t : Thread) : Bool :=
  t.state == .held && !(s.core (s.coreOf w)).halted && !(s.team (s.teamIdOf w)).any (fun v => v.saving || v.saved) &&
    decide (t.heldSince + (s.core (s.coreOf w)).starve ≤ s.now)

/-- CONVERGE_STARVE_RELEASE: a thread held for `$starve` clk is released (R36). -/
def execConvergeStarveRelease (who : Who) (s : State) : Host.Outcome State Fault Refusal :=
  match s.thread who with
  | some t =>
    if s.heldOut who t then .next ((s.modThread who (fun t => { t with released := true })).ready who) else .next s
  | none => .next s

/-- One thread leaves its skein for a bobbin (R39). -/
def State.startFiling (s : State) (w : Who) (next : DWord) : State :=
  let n := s.sys.nextOrder
  (s.setSys { s.sys with nextOrder := n + 1 }).modThread w (fun t =>
    { t with state := .filing, nextFile := next, pc := next, order := n, pass := 0 })

/-- `reform` (R39, R206). -/
def execReform (s : State) : Host.Outcome State Fault Refusal :=
  let i := s.sys.issue
  let s := i.lanes.foldl (fun s l => s.startFiling l.2 (i.pc + 4)) s
  .next (((s.fileAll i.core).sweepSkein i.core i.ctx).releaseHeld i.core i.ctx)

/-- The lowest $tid that no live thread of the team holds (R207). -/
def State.freeTid (s : State) (t : TeamId) (size : Nat) : Option Nat :=
  (List.range size).find? (fun n => (s.thread (.lane t.1 t.2 n)).isNone)

/-- A new thread in state filing (R40, R207): its registers come from the pool now in a C or P team, at its first draw
in a W team. -/
def State.createThread (s : State) (t : TeamId) (v : Team) (tid : Nat) (entry : DWord) (args : List Word) : State :=
  let w := Who.lane t.1 t.2 tid
  let s := s.setThread w { pc := entry, args, readySince := s.now, lastIssue := s.now }
  let s := s.startFiling w entry
  let s := s.startView w t.1
  if v.cls = 2 then s
  else if (s.core t.1).canGrant v.regs then
    (s.modCore t.1 (fun k => { k with free := k.free - v.regs })).modThread w (fun t => { t with regs := t.freshRegs v.regs })
  else s.modCore t.1 (fun k => { k with poolQueue := k.poolQueue ++ [.spawn t.2 tid v.regs] })

/-- `spawn d, a, b` (R207): the target's alignment first, then the free $tid (log entry 16). -/
def execSpawn (d : Dst) (a b : Fin 128) (s : State) : Host.Outcome State Fault Refusal :=
  .next (s.runSeq { srcs := [(.reg a, true), (.reg b, false)], dst := some (d, false), check := jrCheck a.val } (fun s l =>
    let entry := l.vals.getD 0 0
    let t := s.teamIdOf l.who
    match s.team t with
    | some v =>
      match s.freeTid t v.size with
      | some n =>
        let s := s.createThread t v n entry [(l.vals.getD 1 0).setWidth 32, wd (whoTid l.who)]
        (s.fileAll t.1, { res := some (dw n) })
      | none => (s, { fault := some { code := 0x0404 } })
    | none => (s, { fault := some { code := 0x0404 } })))

/-- Engine work that a team has issued and that has not retired (R50). -/
def State.outstanding (s : State) (t : TeamId) : Bool :=
  s.cmds.any (fun c => c.team = t) ||
  s.graphs.any (fun g => g.2.team = t && !g.2.running.isEmpty && g.2.record.isNone)

/-- A graph's nodes not yet issued are abandoned when the team's last thread exits (R266). -/
def State.abandonGraphs (s : State) (t : TeamId) : State :=
  let gone := s.graphs.filter (fun g => g.2.team = t ∧ g.2.record.isNone ∧ g.2.running.isEmpty)
  let s := { s with graphs := (s.graphs.map (fun g => if g.2.team = t ∧ g.2.record.isNone then (g.1, { g.2 with ready := [], dead := true }) else g)) }
  gone.foldl (fun s g => { (s.dropCmd g.2.cmd) with graphs := s.graphs.del g.1 }) s

/-- One thread's exit (R50, R210, R224): its release at dom scope, its barriers, then its slot and registers. -/
def State.exitThread (s : State) (w : Who) : State :=
  let s := (s.flushGather w).release w .dom
  let t := s.teamIdOf w
  match w with
  | .lane _ _ _ => (s.exitBars t w).removeThread w
  | .walk n =>
    let s := match (s.thread w).bind (·.walk) with
      | some x => (s.modDie x.origin (fun d => { d with notices := d.notices ++ [walkMsg 3 x.origin n 0 x] })).due [.exitNotice x.origin]
      | none => s
    s.dropThread w

/-- `exit` (R50, R210): the last live thread of a team stalls until the team's engine operations have retired. -/
def execExit (s : State) : Host.Outcome State Fault Refusal :=
  .next (s.runSeq {} (fun s l =>
    match l.who with
    | .walk _ => (s.exitThread l.who, { next := .gone })
    | .lane c k _ =>
      let last := (s.threadsOf (c, k)).length ≤ 1
      let s := if last then s.abandonGraphs (c, k) else s
      if last && s.outstanding (c, k) then (s, { next := .stay, stall := .teamIdle })
      else (s.exitThread l.who, { next := .gone })))

def trapCheck (code : Nat) (_ : State) (_ : Who) (_ : Thread) : Option Fail := some { code }

/-- `trap n` (R211): $trap.imm is n, as the word's low bits are (R153). -/
def execTrap (_n : BitVec 8) (s : State) : Host.Outcome State Fault Refusal :=
  .next (s.runPure { check := trapCheck 0x0000 } (fun _ _ => {}))

/-- Whether `brk` traps: the debug flag of the team's launch record (R211, R308). -/
def brkCheck (s : State) (w : Who) (_ : Thread) : Option Fail :=
  if (s.team (s.teamIdOf w)).any (·.debug) then some { code := 0x0001 } else none

/-- `brk n` (R211). -/
def execBrk (_n : BitVec 8) (s : State) : Host.Outcome State Fault Refusal :=
  .next (s.runPure { check := brkCheck } (fun _ _ => {}))

/-- `yield` (R212). -/
def execYield (s : State) : Host.Outcome State Fault Refusal :=
  let i := s.sys.issue
  let s := s.runPure {} (fun _ _ => {})
  if i.runAhead.isSome then .next s
  else .next ((s.gangGo (fun t => { t with yielding := true })).modSkein i.core i.ctx (fun k => { k with young := true }))

/-- `sleep n` (R213): 16 × (n + 1) clk, which count no time toward forcing. -/
def execSleep (n : BitVec 8) (s : State) : Host.Outcome State Fault Refusal :=
  let d := 16 * (n.toNat + 1)
  if s.sys.issue.runAhead.isSome then .next (s.runPure {} (fun _ _ => {}))
  else .next ((s.runPure {} (fun s _ => { stall := .until (s.now + d) })).gangGo (fun t => { t with sleepIdle := t.sleepIdle + d }))

/-- SLEEP_END: the sleep is over and the thread is eligible again (R213). -/
def execSleepEnd (who : Who) (s : State) : Host.Outcome State Fault Refusal :=
  .next (s.modThread who (fun t => match t.stall with
    | .until c => if c ≤ s.now then { t with stall := .none } else t
    | _ => t))

/-- The handle of a child of the team (R209). -/
def gwaitCheck (a : Nat) (wait : Bool) (s : State) (w : Who) (t : Thread) : Option Fail :=
  let h := (t.rd2 a).toNat
  if !((s.team (s.teamIdOf w)).any (fun v => v.children.contains h)) then some { code := 0x0205 }
  else if wait && (s.grid h).any (fun g => g.cls != 0) then some { code := 0x0301 }
  else none

/-- A child's status, once it has retired (R209). -/
def State.childStatus (s : State) (h : Nat) : Option Nat :=
  match s.grid h with
  | some g => if g.state = .completed then some g.status else none
  | none => none

/-- `gwait d, a` (R209). -/
def execGwait (d : Dst) (a : Fin 128) (s : State) : Host.Outcome State Fault Refusal :=
  .next (s.runSeq { srcs := [(.reg a, true)], dst := some (d, false), check := gwaitCheck a.val true } (fun s l =>
    match s.childStatus (l.vals.getD 0 0).toNat with
    | some st => (s.acquire l.who (s.coreOf l.who) .dom, { res := some (dw st) })
    | none => (s, { next := .stay, block := some (.child (l.vals.getD 0 0).toNat) })))

/-- `gwait.poll d, a` (R209). -/
def execGwaitPoll (d : Dst) (a : Fin 128) (s : State) : Host.Outcome State Fault Refusal :=
  .next (s.runSeq { srcs := [(.reg a, true)], dst := some (d, false), check := gwaitCheck a.val false } (fun s l =>
    match s.childStatus (l.vals.getD 0 0).toNat with
    | some st => (s.acquire l.who (s.coreOf l.who) .dom, { res := some (dw st) })
    | none => (s, { res := some 0xFFFFFFFF#64 })))

/-- `arrive d, nbN` (R219). -/
def execArrive (d : Dst) (nb : Fin 16) (s : State) : Host.Outcome State Fault Refusal :=
  .next (s.runSeq { dst := some (d, false), check := arriveCheck nb.val }
    (fun s l =>
      let t := s.teamIdOf l.who
      match s.bar t nb.val with
      | some b =>
        if b.pending = 0 then (s, { fault := some { code := 0x0306 } })
        else
          let s := match b.kind with
            | .team => (s.flushGather l.who).release l.who .core
            | .gang => (s.flushGather l.who).release l.who .cluster
            | .engine => s
          let s := s.modBar t nb.val (fun b => { b with members := addOnce b.members l.who, arrived := addOnce b.arrived l.who })
          ((s.arriveOne t nb.val 0).getD s, { res := some (if b.phase then 1 else 0) })
      | none => (s, { fault := some { code := 0x0306 } })))

/-- `phase.s` (R225): its release now; the thread stalls until PHASE_COMPLETE. -/
def execPhase (sc : Scope) (s : State) : Host.Outcome State Fault Refusal :=
  let i := s.sys.issue
  let s := s.runSeq {} (fun s l => ((s.flushGather l.who).release l.who sc, { next := .stay, stall := .completion }))
  .next (s.due [.phaseComplete i.core i.ctx sc i.pc])

/-- The stalled threads of a skein at a pc, which a completion step lets go on. -/
def State.completing (s : State) (core ctx : Nat) (pc : DWord) : List Who :=
  ((s.skeinThreads core ctx).filter (fun p => p.2.stall = .completion ∧ p.2.pc = pc)).map (·.1)

/-- Threads past their stalled instruction. -/
def State.passAll (s : State) (ws : List Who) (len : Nat) : State :=
  ws.foldl (fun s w => s.modThread w (fun t => { t with pc := t.pc + dw len, stall := .none })) s

/-- PHASE_COMPLETE: the release has been performed; the acquire follows it (R78, R225). -/
def execPhaseComplete (core ctx : Nat) (sc : Scope) (pc : DWord) (s : State) : Host.Outcome State Fault Refusal :=
  let ws := s.completing core ctx pc
  .next ((ws.foldl (fun (s : State) w => s.acquire w core sc) s).passAll ws 4)

/-- IMPLICIT_RELEASE: the first n of a thread's held-back stores reach their homes (R79). -/
def execImplicitRelease (who : Who) (n : Nat) (s : State) : Host.Outcome State Fault Refusal :=
  let r := splitFirst who n s.mem.stores
  .next (r.1.foldl State.performEarly (s.setMem { s.mem with stores := r.2 }))

end Sys2Proof.Machine
end

