-- ==== Sys2Proof/Machine/Registers.lean ====
section
/-!
DEFINITION. The control and status space (R66): management block (R393 to R395), MSI-X structures (R369), mailboxes
(R374), launch-queue blocks (R371, R489, R490), error-queue blocks (R420) and fence status (R415), read and written by
the host and by supervisor threads.
-/
namespace Sys2Proof.Machine

def boolBit (b : Bool) (n : Nat) : Nat := if b then 2 ^ n else 0

/-- A set of unit numbers as a bit mask. -/
def maskOf (l : List Nat) : Nat := l.foldl (fun m n => m ||| 2 ^ n) 0

def State.fencedCores (s : State) : List Nat := (s.cores.filter (fun c => c.2.fenced)).map (·.1)
def State.haltedCores (s : State) : List Nat := (s.cores.filter (fun c => c.2.halted)).map (·.1)

/-- The 8 bytes of the launch-queue block at its offset (R371). -/
def LaunchQueue.read (q : LaunchQueue) (o : Nat) : Nat :=
  if o = 0 then q.base.toNat
  else if o = 8 then q.size * 2 ^ 16 + q.prio * 2 ^ 8 + boolBit q.priv 1 + boolBit q.en 0
  else if o = 16 then q.tail
  else if o = 24 then q.done * 2 ^ 32 + q.head
  else if o = 32 then boolBit q.stop 16 + q.code
  else 0

/-- The 8 bytes of an error-queue block at its offset (R420). -/
def ErrQueue.read (e : ErrQueue) (o : Nat) : Nat :=
  if o = 0 then e.base
  else if o = 8 then boolBit e.ovf 8 + e.log
  else if o = 16 then e.tail
  else if o = 24 then e.head
  else if o = 32 then e.lost
  else 0

/-- The 8 bytes of the fence status registers (R415). -/
def State.fenceRead (s : State) (o : Nat) : Nat :=
  if o < 0x18 then maskOf s.fencedCores / 2 ^ (8 * o)
  else if o < 0x30 then maskOf s.plat.fsSlice / 2 ^ (8 * (o - 0x18))
  else if o = 0x30 then maskOf s.plat.fsStack
  else if o = 0x38 then maskOf s.plat.fsFabric
  else if 0x40 ≤ o ∧ o < 0x80 then maskOf s.plat.fsWalker / 2 ^ (8 * (o - 0x40))
  else if o = 0x80 then maskOf s.plat.fsPort
  else 0

/-- The 8 bytes of the management block (R393). -/
def State.mgRead (s : State) (o : Nat) : Nat :=
  let p := s.plat
  if o = 0 then 0x7140 * 2 ^ 16 + 0xB0 * 2 ^ 8
  else if o = 8 then p.boot.toNat * 2 ^ 8 + boolBit p.trip 2 + boolBit p.msDom 1 + boolBit p.ready 0
  else if o = 0x18 then boolBit p.lkKseed 1 + boolBit p.lkPriv 0
  else if o = 0x20 then boolBit p.domEn 31 + p.domDev
  else if o = 0x28 then p.pwLim
  else if o = 0x30 then p.pwFrac * 2 ^ 16 + p.pwAvg
  else if o = 0x38 then p.tpStack * 2 ^ 8 + p.tpCore
  else if o = 0x40 then p.hkSlot
  else if o = 0x48 then s.errs.bqBase
  else if o = 0x50 then s.errs.bqLog * 2 ^ 32 + s.errs.bqTail * 2 ^ 16 + s.errs.bqHead
  else if o = 0xA0 then p.attAddr
  else if o = 0xA8 then boolBit p.atBusy 1
  else if 0x100 ≤ o ∧ o < 0x118 then maskOf s.haltedCores / 2 ^ (8 * (o - 0x100))
  else if 0x200 ≤ o ∧ o < 0x400 then (p.meas.getD ((o - 0x200) / 64) 0).toNat / 2 ^ (8 * ((o - 0x200) % 64))
  else 0

/-- An aligned 8-byte read of the control space (R66); reserved offsets read as zero (R4). -/
def State.ctlRead8 (s : State) (o : Nat) : DWord :=
  if o < 0x1000 then dw (s.mgRead o)
  else if o < 0x1080 then dw (numOfBytes (s.mem.read 0 (Config.ctlBase + o) 8))
  else if 0x2000 ≤ o ∧ o < 0x2430 then dwordsOf s.plat.msix (o - 0x2000)
  else if 0x3000 ≤ o ∧ o < 0x3010 then dw (maskOf s.plat.msixPend / 2 ^ (8 * (o - 0x3000)))
  else if 0x10000 ≤ o ∧ o < 0x11000 then dw ((s.queue ((o - 0x10000) / 64)).read ((o - 0x10000) % 64))
  else if 0x20000 ≤ o ∧ o < 0x20100 then dw ((s.errs.queues.getD ((o - 0x20000) / 64) {}).read ((o - 0x20000) % 64))
  else if 0x20400 ≤ o ∧ o < 0x20488 then dw (s.fenceRead (o - 0x20400))
  else 0

/-- A read of the control space of 1 to 8 bytes. -/
def State.ctlRead (s : State) (o n : Nat) : List Byte :=
  ((bytesOf 8 (s.ctlRead8 (o / 8 * 8)).toNat).drop (o % 8)).take n

/-! ### Launch queues (R371, R372, R489, R490) -/

/-- A queue stops: its code and record, nothing more is read from it (R489). -/
def State.stopQueue (s : State) (q code : Nat) (addr info0 info1 : DWord) : State :=
  (s.modQueue q (fun r => { r with stop := true, code })).record
    { code, sev := 3, kind := 10, index := q, addr, phys := true, info0, info1 }

/-- The address of a queue's ring slot (R306, R371). -/
def LaunchQueue.slotAddr (q : LaunchQueue) (unit : Nat) : DWord := (q.base &&& 0x7FFFFFFFFFFFFFFF#64) + dw (64 * unit)

/-- The records waiting on a value read their location again at each doorbell (R319). -/
def State.pollWaits (s : State) : State :=
  s.due ((s.front.grids.filter (fun g => g.2.kind = .waitOn ∧ g.2.state = .admitted)).map (fun g => .waitOnValuePoll g.1))

/-- The doorbell (R319, R371, R489): out of range it stops the queue and the old tail stays (log entry 17); on a stopped queue
it sets `lq.tail` and starts no read of its ring; on a disabled one it is a plain write (R490). -/
def State.doorbell (s : State) (q v : Nat) : State :=
  let r := s.queue q
  if !r.en then s.modQueue q (fun r => { r with tail := v })
  else if r.stop then (s.modQueue q (fun r => { r with tail := v })).pollWaits
  else
    let occ := (r.tail + r.size - r.done) % Nat.max r.size 1
    let adv := (v + r.size - r.tail) % Nat.max r.size 1
    if r.size ≤ v ∨ r.size ≤ occ + adv then (s.stopQueue q 0x0E02 (r.slotAddr r.head) (dw v) 0).pollWaits
    else (s.modQueue q (fun r => { r with tail := v })).pollWaits

/-- A write of 1 to `lq.en` (R371): while it is 0 it sets head and done to the tail; a pending disable is withdrawn
(log entry 17). -/
def State.enableQueue (s : State) (q : Nat) : State :=
  s.modQueue q (fun r => if r.en then { r with disabling := false }
    else { r with en := true, head := r.tail, done := r.tail, disabling := false })

/-- Whether a record has been read and not admitted (R307). -/
def Grid.waiting (g : Grid) : Bool :=
  match g.state with
  | .checked | .held | .translated => true
  | .admitted | .completed => false

/-- The waiting head of a queue forgotten: it is read afresh (R490). -/
def State.dropHead (s : State) (q : Nat) : State :=
  s.setFront { s.front with grids := s.front.grids.filter (fun g => !(g.2.waiting && g.2.parentGrid.isNone && g.2.queue == q)) }

/-- The instant at which a disable takes effect: `lq.done` has reached `lq.head` (R490). -/
def State.disableEffect (s : State) (q : Nat) : State :=
  let r := s.queue q
  if r.disabling && r.done == r.head then
    (s.modQueue q (fun r => { r with en := false, stop := false, code := 0, disabling := false })).dropHead q
  else s

/-- A write of 0 to `lq.en` (R490). -/
def State.disableQueue (s : State) (q : Nat) : State :=
  (s.modQueue q (fun r => if r.en then { r with disabling := true } else r)).disableEffect q

/-- A write of the control word of a queue (R371). -/
def State.lqCtl (s : State) (q : Nat) (v m : Nat) : State :=
  let r := s.queue q
  let new := (r.read 8 &&& (2 ^ 64 - 1 - m)) ||| (v &&& m)
  let s := if r.en then s else
    s.modQueue q (fun r => { r with size := bitsOf new 39 16, prio := bitsOf new 10 8,
                                    priv := if s.plat.lkPriv then r.priv else bitsOf new 1 1 = 1 })
  if bitsOf m 0 0 = 0 then s
  else if bitsOf v 0 0 = 1 then s.enableQueue q else s.disableQueue q

/-! ### Error queues and the batch ring -/

/-- The consumer index of an error queue moved (R303, R420): none where it lies beyond the producer. -/
def State.ackQueue (s : State) (n v : Nat) : Option State :=
  let e := s.errs.queues.getD n {}
  let d := (v + 2 ^ 32 - e.head) % 2 ^ 32
  if d ≤ (e.tail + 2 ^ 32 - e.head) % 2 ^ 32 then
    some (s.setErrs { s.errs with queues := s.errs.queues.set n { e with head := v, ovf := false } })
  else if 2 ^ 31 ≤ d then some s
  else none

/-- The host's write of `bq.head` (R395): beyond `bq.tail` it has no effect; room lets a waiting entry be written. -/
def State.batchHead (s : State) (v : Nat) : State :=
  let e := s.errs
  if (v + 65536 - e.bqHead) % 65536 ≤ (e.bqTail + 65536 - e.bqHead) % 65536 then
    (s.setErrs { e with bqHead := v }).due (if e.waiting.isEmpty then [] else [.batchEntryDeferred])
  else s

/-- BATCH_ENTRY_DEFERRED: the oldest waiting entry is written where the ring has room (R395). -/
def execBatchEntryDeferred (s : State) : Host.Outcome State Fault Refusal :=
  match s.errs.waiting with
  | [] => .next s
  | b :: bs => if s.errs.ringFull then .next s else .next ((s.setErrs { s.errs with waiting := bs }).batchWrite b)

/-! ### Locks, domain, attestation, run control -/

/-- `lk.kseed` set: the wrapping key is derived from the seed (R392, R394). -/
def State.lockKseed (s : State) : State :=
  if s.plat.lkKseed then s
  else s.setPlat { s.plat with lkKseed := true, wrapKey := some (Config.wrappingKey (BitVec.ofNat 256 (numOfBytes s.plat.kseed))) }

/-- `dom.en` set: `$dev` takes `dom.dev` at that moment (R387). -/
def State.domEnable (s : State) : State :=
  if s.plat.domEn then s
  else (s.setPlat { s.plat with domEn := true }).setDom { s.dom with dev := s.plat.domDev }

/-- `at.go`: the device starts the report (R390). -/
def State.attest (s : State) : State :=
  if s.plat.atBusy then s else (s.setPlat { s.plat with atBusy := true }).due [.attestationDone]

/-- The 8 KiB report's bytes (R390). -/
def State.report (s : State) : List Byte :=
  let head := bytesOf 8 (s.mgRead 0) ++
    bytesOf 8 (sumOf ((List.range 3).map (fun i => (Config.securityVersion s.plat.resets i).toNat * 2 ^ (16 * i)))) ++
    List.replicate 48 0 ++ s.plat.attNonce ++ s.plat.meas.flatMap (fun m => bytesOf 64 m.toNat) ++
    (List.range 1952).map Config.identityKey
  padTo 8192 0 (head ++ (List.range 3309).map (Config.signature head))

/-- ATTESTATION_DONE: the report reaches its home before `at.busy` clears (R390). -/
def execAttestationDone (s : State) : Host.Outcome State Fault Refusal :=
  if !s.plat.atBusy then .next s
  else
    let put (s : State) (addr : Nat) (bs : List Byte) : State := match s.loc addr with
      | some l => if s.fencedLoc l then s else s.write {} s.plat.hkSlot l bs
      | none => s
    let bs := s.report
    let s := put (put s s.plat.attAddr (bs.take 4096)) (s.plat.attAddr + 4096) (bs.drop 4096)
    .next (s.setPlat { s.plat with atBusy := false })

/-- ATTESTATION_START: a write of `at.go` (R390). -/
def execAttestationStart (s : State) : Host.Outcome State Fault Refusal := .next s.attest

/-- The instants from which a thread's forcing and holding are timed, moved on by the time its core was halted (R300). -/
def Thread.later (t : Thread) (d : Nat) : Thread :=
  { t with lastIssue := t.lastIssue + d, readySince := t.readySince + d, heldSince := t.heldSince + d }

/-- The stretches of R55 of barriers, channels and hanks, moved on in the same way. -/
def laterBars (d : Nat) (bs : Table Nat Bar) : Table Nat Bar :=
  bs.map (fun b => (b.1, { b.2 with lastOp := b.2.lastOp + d, blockedSince := b.2.blockedSince.map (· + d) }))
def laterChans (d : Nat) (cs : Table Nat Chan) : Table Nat Chan :=
  cs.map (fun c => (c.1, { c.2 with lastOp := c.2.lastOp + d, blockedSince := c.2.blockedSince.map (· + d) }))
def Team.later (t : Team) (d : Nat) : Team := { t with bars := laterBars d t.bars, chans := laterChans d t.chans }
def Hank.later (h : Hank) (d : Nat) : Hank := { h with lastOp := h.lastOp + d, blockedSince := h.blockedSince.map (· + d) }

/-- Whether a grid has a team on a core whose timers run (R300). -/
def State.timedElsewhere (s : State) (g c : Nat) : Bool :=
  s.teams.any (fun t => t.2.grid = g && t.1.1 != c && !(s.core t.1.1).halted)

/-- A halted core resumes: its threads go on from their saved pcs, and its timers from where they stopped (R300). -/
def State.resumeCore (s : State) (c : Nat) : State :=
  if !(s.core c).halted then s else
  let d := s.now - (s.core c).haltAt
  let s := s.modCore c (fun k => { k with halted := false, lastDraw := k.lastDraw + d, bobbins := k.bobbins.map (fun b =>
    (b.1, { b.2 with threads := b.2.threads.map (fun x => (x.1, x.2 + d)) })) })
  let ws := (s.coreThreads c).map (·.1)
  let s := ws.foldl (fun (s : State) w => s.modThread w (fun t => t.later d)) s
  let s := (List.range 16).foldl (fun (s : State) n => s.modTeam (c, n) (fun t => t.later d)) s
  let gs := ((s.teams.filter (fun t => t.1.1 = c)).map (fun t => t.2.grid)).filter (fun g => !s.timedElsewhere g c)
  let s := (gs.foldl addOnce []).foldl (fun (s : State) g =>
    s.modGrid g (fun x => { x with gangBars := laterBars d x.gangBars, gangChans := laterChans d x.gangChans })) s
  let hanks : Table Nat Hank := s.hanks.map (fun h => (h.1, if h.2.owner.1 = c then h.2.later d else h.2))
  { s with hanks }

/-! ### Resets (R385 to R389) -/

/-- A firmware image is refused (R388). -/
def imageRefused (n i : Nat) : Bool :=
  !Config.imageSigned n i || (Config.securityVersion n i).ult (Config.minimumVersion i) || decide (Config.imageSpace i < Config.imageLength n i)

/-- The step at which bring-up number n stops, 0 for none (R386, R388): image 0 is verified at step 1, images 1 and 2 at
step 3. -/
def bootStep (n : Nat) : Nat :=
  if imageRefused n 0 || Config.stepFails n 1 then 1
  else if Config.stepFails n 2 then 2
  else if imageRefused n 1 || imageRefused n 2 || Config.stepFails n 3 then 3
  else if Config.stepFails n 4 then 4 else 0

/-- The cells of HBM, which no reset clears (R385). -/
def Mem.hbm (m : Mem) : List Host.Cell := m.cells.filter (fun c => isHbm c.1)

/-- What a warm reset keeps: HBM with the keys its lines were written under and its poison marks, `ms.trip` and the
host link (R385, R393, R425). -/
def State.warmReset (s : State) : State :=
  let n := s.plat.resets + 1
  let r := State.resetNumber n (bootStep n)
  { r with
    mem := { r.mem with cells := s.mem.hbm, lineKeys := s.mem.lineKeys, poison := s.mem.poison.filter (fun l => isHbm (l * 64)) },
    plat := { r.plat with trip := s.plat.trip, linkUp := s.plat.linkUp } }

/-! ### Writes -/

/-- Bits of x under a mask replaced by those of v. -/
def merge (x v m : Nat) : Nat := (x &&& (2 ^ 64 - 1 - m)) ||| (v &&& m)

/-- Eight bytes of a byte list merged with a masked write. -/
def mergeBytes (l : List Byte) (i v m : Nat) : List Byte :=
  l.take i ++ bytesOf 8 (merge (numOfBytes ((l.drop i).take 8)) v m) ++ l.drop (i + 8)

/-- A write of the management block, register by register (R393, R394). -/
def State.mgWrite (s : State) (o v m : Nat) : State :=
  let p := s.plat
  let w := v &&& m
  if o = 8 then (if bitsOf w 2 2 = 1 then s.setPlat { p with trip := false } else s)
  else if o = 0x10 then (if bitsOf w 0 0 = 1 then s.warmReset else s)
  else if o = 0x18 then
    let s := if bitsOf w 1 1 = 1 then s.lockKseed else s
    if bitsOf w 0 0 = 1 then s.setPlat { s.plat with lkPriv := true } else s
  else if o = 0x20 then
    let new := merge (s.mgRead 0x20) v m
    let s := if p.domEn then s else s.setPlat { p with domDev := bitsOf new 8 0 }
    if bitsOf w 31 31 = 1 then s.domEnable
    else if bitsOf m 31 31 = 1 then s.setPlat { s.plat with domEn := false, msDom := false } |>.setDom { s.dom with dev := 0, members := [], held := [] }
    else s
  else if o = 0x28 then
    let n := bitsOf (merge p.pwLim v m) 15 0
    s.setPlat { p with pwLim := if 2000 < n then 2000 else if n < 500 then 500 else n }
  else if o = 0x40 then s.setPlat { p with hkSlot := bitsOf (merge p.hkSlot v m) 5 0 }
  else if o = 0x48 then
    if s.errs.bqTail ≠ s.errs.bqHead then s
    else s.setErrs { s.errs with bqBase := bitsOf (merge s.errs.bqBase v m) 51 9 * 512 }
  else if o = 0x50 then
    let new := merge (s.mgRead 0x50) v m
    let l := bitsOf new 35 32
    let s := if s.errs.bqTail ≠ s.errs.bqHead ∨ bitsOf m 35 32 = 0 then s
      else (s.setErrs { s.errs with bqLog := if l < 4 then 0 else l }).due
        (if s.errs.waiting.isEmpty ∨ l < 4 then [] else [.batchEntryDeferred])
    if bitsOf m 15 0 = 0 then s else s.batchHead (bitsOf new 15 0)
  else if 0x60 ≤ o ∧ o < 0x80 then
    if p.lkKseed then s
    else s.setPlat { p with kseed := mergeBytes p.kseed (o - 0x60) v m }
  else if 0x80 ≤ o ∧ o < 0xA0 then
    if p.atBusy then s
    else s.setPlat { p with attNonce := mergeBytes p.attNonce (o - 0x80) v m }
  else if o = 0xA0 then
    if p.atBusy then s else s.setPlat { p with attAddr := bitsOf (merge p.attAddr v m) 51 12 * 4096 }
  else if o = 0xA8 then (if bitsOf w 0 0 = 1 then s.attest else s)
  else if 0x120 ≤ o ∧ o < 0x138 then
    (List.range 64).foldl (fun s i => if bitsOf w i i = 1 then s.resumeCore (8 * (o - 0x120) + i) else s) s
  else s

/-- A write of a launch queue's block (R371); bits 6 to 0 of a base are stored as zero (log entry 71). -/
def State.lqWrite (s : State) (q o v m : Nat) : State :=
  let r := s.queue q
  if o = 0 then
    if r.en then s else s.modQueue q (fun r => { r with base := dw (merge r.base.toNat v m) &&& 0xFFFFFFFFFFFFFF80#64 })
  else if o = 8 then s.lqCtl q v m
  else if o = 16 then (if m % 2 ^ 17 = 0 then s else s.doorbell q (bitsOf (merge r.tail v m) 16 0))
  else s

/-- A write of an error queue's block (R420). -/
def State.eqWrite (s : State) (n o v m : Nat) : State :=
  let e := s.errs.queues.getD n {}
  let busy := e.head ≠ e.tail
  if o = 0 then
    if busy then s else s.setErrs { s.errs with queues := s.errs.queues.set n { e with base := bitsOf (merge e.base v m) 51 12 * 4096 } }
  else if o = 8 then
    let l := bitsOf (merge e.log v m) 4 0
    let log := if busy ∨ bitsOf m 4 0 = 0 then e.log else if 6 ≤ l ∧ l ≤ 16 then l else 0
    let ovf := e.ovf && decide (bitsOf (v &&& m) 8 8 = 0)
    s.setErrs { s.errs with queues := s.errs.queues.set n { e with ovf, log } }
  else if o = 24 then (if bitsOf m 31 0 = 0 then s else (s.ackQueue n (bitsOf (merge e.head v m) 31 0)).getD s)
  else s

/-- A masked write of an aligned 8-byte word of the control space; bits 31 to 1 of an MSI-X entry's vector control are reserved
(R4, R369). -/
def State.ctlWrite8 (s : State) (host : Bool) (o v m : Nat) : State :=
  if o < 0x1000 then s.mgWrite o v m
  else if o < 0x1080 then
    let s := s.setMem (s.mem.write 0 (Config.ctlBase + o)
      (bytesOf 8 (merge (numOfBytes (s.mem.read 0 (Config.ctlBase + o) 8)) v m)))
    if o = 0x1038 && host then s.latchEvent 2
    else if o = 0x1078 && !host then s.interrupt 66
    else s
  else if 0x2000 ≤ o ∧ o < 0x2430 then
    if host then
      let i := o - 0x2000
      let m := if i % 16 = 8 then m % 2 ^ 33 else m
      let b := mergeBytes s.plat.msix i v m
      let s := s.setPlat { s.plat with msix := b }
      let vec := i / 16
      if s.plat.msixPend.contains vec ∧ !s.masked vec then
        (s.setPlat { s.plat with msixPend := s.plat.msixPend.filter (· != vec) }).interrupt vec
      else s
    else s
  else if 0x10000 ≤ o ∧ o < 0x11000 then s.lqWrite ((o - 0x10000) / 64) ((o - 0x10000) % 64) v m
  else if 0x20000 ≤ o ∧ o < 0x20100 then s.eqWrite ((o - 0x20000) / 64) ((o - 0x20000) % 64) v m
  else s

/-- A write of 1 to 8 bytes inside one aligned word. -/
def State.ctlWrite (s : State) (host : Bool) (o : Nat) (bs : List Byte) : State :=
  let sh := 8 * (o % 8)
  s.ctlWrite8 host (o / 8 * 8) (numOfBytes bs * 2 ^ sh) ((2 ^ (8 * bs.length) - 1) * 2 ^ sh)

end Sys2Proof.Machine
end

