-- ==== Sys2Proof/Machine/Access.lean ====
section
/-!
DEFINITION. Loads, stores, gathers, scatters, prefetch and atomics (spec/07_lane_instructions.md, R193 to R200), with the
memory steps ACCESS_AT_HOME and TABLE_WALK.
-/
namespace Sys2Proof.Machine


/-- Steps 1 to 8 of R450 made at issue, before the channel step (R429). -/
def issueFault (m : MemAddr) (t : Ty) (kind : AccKind) (plain : Bool) (s : State) (w : Who) (th : Thread) : Option Fail :=
  match (s.checkIssue { s.laneAccess w kind (effAddr m th (tySize t)) (tySize t) (tySize t) with plain }).2 with
  | .fault f => some f
  | _ => none

def issuePage (m : MemAddr) (t : Ty) (kind : AccKind) (plain : Bool) (s : State) (w : Who) (th : Thread) :
    Option (Nat × AccKind) :=
  match (s.checkIssue { s.laneAccess w kind (effAddr m th (tySize t)) (tySize t) (tySize t) with plain }).2 with
  | .page v => some (v, kind)
  | _ => none

/-- The operands of an access: the address registers, with the data register of a store (R193). -/
def accessSpec (m : MemAddr) (srcs : List (Src × Bool)) (dst : Option (Dst × Bool)) : LaneSpec :=
  { srcs := srcs ++ [(.reg m.base, true)], dst, more := indexRegs m }

/-- The operands of a plain load or store with its checks at issue. -/
def memSpec (m : MemAddr) (t : Ty) (kind : AccKind) (plain : Bool) (srcs : List (Src × Bool)) (dst : Option (Dst × Bool)) :
    LaneSpec :=
  { accessSpec m srcs dst with check := issueFault m t kind plain, page := issuePage m t kind plain }

def State.ahead (s : State) : Bool := s.sys.issue.runAhead.isSome

/-- A thread's plain load where steps 1 to 12 allow it: the control space, or memory. -/
def State.loadTarget (s : State) (w : Who) (tg : Target) (n : Nat) : State × List Byte :=
  if isCtl tg.loc then (s, s.ctlRead (tg.loc - Config.ctlBase) n) else s.loadAt w tg n

def State.storeTarget (s : State) (w : Who) (tg : Target) (bs : List Byte) : State :=
  if isCtl tg.loc then s.ctlWrite false (tg.loc - Config.ctlBase) bs else s.storeAt w tg bs

/-- One lane's access checked; on success `go` acts at the target. A run-ahead's load returns unknown and its store is
not performed (R109). -/
def State.accessLane (s : State) (l : LaneIn) (a : Access) (go : State → Target → State × LaneOut) : State × LaneOut :=
  match s.reach l.who a with
  | (s, .page v) => (s, { page := some (v, a.kind), known := false })
  | (s, .fault f) => (s, { fault := some f })
  | (s, .ok tg) =>
    if s.ahead then (s, { known := false })
    else go (s.modThread l.who (fun t => t.accessOk s.sys.issue.pc)) tg

/-- `ld` (R193, R194). -/
def execLd (t : Ty) (d : Dst) (m : MemAddr) (s : State) : Host.Outcome State Fault Refusal :=
  match s.awaitGrants .load (effAddr m · (tySize t)) (tySize t) with
  | some s => .next s
  | none => .next (s.flushGang.runSeq (memSpec m t .load true [] (some (d, t.wide))) (fun s l =>
      let a := { s.laneAccess l.who .load (effAddr m l.t (tySize t)) (tySize t) (tySize t) with plain := true }
      s.accessLane l a (fun s tg =>
        let (s, bs) := s.loadTarget l.who tg (tySize t)
        (s, { res := some (loadExt t bs) }))))

/-- Every lane's store checked in lane order; the admitted ones with their targets (R194). -/
def State.storeChecks (s : State) (t : Ty) (m : MemAddr) : List LaneIn → State × List (LaneOut × Option (Who × Target × List Byte))
  | [] => (s, [])
  | l :: ls =>
    let a := { s.laneAccess l.who .store (effAddr m l.t (tySize t)) (tySize t) (tySize t) with plain := true }
    let r : State × LaneOut × Option (Who × Target × List Byte) :=
      match s.reach l.who a with
      | (s, .page v) => (s, { page := some (v, .store), known := false }, none)
      | (s, .fault f) => (s, { fault := some f }, none)
      | (s, .ok tg) => (s, {}, if s.ahead then none else some (l.who, tg, storeBytes t (l.v 0)))
    let rest := r.1.storeChecks t m ls
    (rest.1, (r.2.1, r.2.2) :: rest.2)

/-- The stores of one line's lanes performed together at the home, after what these lanes hold back: as one line where they
cover it (R466), else in increasing lane order with no other store between them (R195). -/
def State.storeJoint (s : State) (ps : List (Who × Target × List Byte)) : State :=
  let s := s.performStores (fun p => ps.any (fun q => q.1 = p.who))
  let s := match ps with
    | p :: _ => if p.2.1.line then s.dropCopies p.2.1.loc else s
    | [] => s
  match (coalesce (ps.map (·.2))).filter (fun q => q.2.length = 64) with
  | q :: _ => s.write { whos := ps.map (·.1), core := (ps.head?).map (fun p => s.coreOf p.1) } q.1.key q.1.loc q.2
  | [] => ps.foldl (fun (s : State) p => s.write { whos := [p.1], core := some (s.coreOf p.1) } p.2.1.key p.2.1.loc p.2.2) s

/-- Whether a line's stores by several lanes are performed together: they meet at one location, or cover the line. -/
def jointLine (ps : List (Who × Target × List Byte)) : Bool :=
  ps.any (fun p => decide (1 < (ps.filter (fun q => meets p.2.1.loc p.2.2.length q.2.1.loc q.2.2.length)).length)) ||
    (coalesce (ps.map (·.2))).any (fun q => q.2.length = 64)

/-- The stores of one instruction issued at one instant (R195): a line's together where they meet or cover it, the others
each on its own. -/
def State.storeAll (s : State) (ps : List (Who × Target × List Byte)) : State :=
  let s := ps.foldl (fun (s : State) p => s.modThread p.1 (fun t => t.accessOk s.sys.issue.pc)) s
  let lines := (ps.filter (fun p => isHbm p.2.1.loc || isTile p.2.1.loc)).foldl (fun acc p => addOnce acc (p.2.1.loc / 64)) []
  let onLine (ln : Nat) := ps.filter (fun p => p.2.1.loc / 64 = ln)
  let joint := lines.filter (fun ln => jointLine (onLine ln))
  let s := joint.foldl (fun s ln => s.storeJoint (onLine ln)) s
  (ps.filter (fun p => !joint.contains (p.2.1.loc / 64))).foldl (fun s p => s.storeTarget p.1 p.2.1 p.2.2) s

/-- `st` (R193 to R195). A run-ahead needs only the address (R109). -/
def execSt (t : Ty) (v : Src) (m : MemAddr) (s : State) : Host.Outcome State Fault Refusal :=
  match s.awaitGrants .store (effAddr m · (tySize t)) (tySize t) with
  | some s => .next s
  | none => .next (s.flushGang.runLanes (memSpec m t .store true (if s.ahead then [] else [(v, t.wide)]) none) (fun s ls =>
      let r := s.storeChecks t m ls
      (r.1.storeAll (r.2.filterMap (·.2)), r.2.map (·.1))))

/-! ### Gathers (R196) -/

/-- The distinct line accesses that a gang's requests would add to its collector. -/
def State.gatherNeeds (s : State) (store : Bool) (m : MemAddr) (size : Nat) : List (Nat × Bool) :=
  let i := s.sys.issue
  i.lanes.foldl (fun acc l =>
    match s.thread l.2 with
    | some t =>
      match (s.checkIssue (s.laneAccess l.2 (if store then .store else .load) (effAddr m t size) size size)).2 with
      | .ok tg => addOnce acc (tg.loc / 64, store)
      | _ => acc
    | none => acc) (gatherLines (s.core i.core).gather)

/-- The gang stalls at issue while its requests would exceed the collector (R196): such a stall is no blocking wait. -/
def State.gatherFull (s : State) (store : Bool) (m : MemAddr) (size : Nat) : Bool :=
  !s.ahead && decide (gatherRoom < (s.gatherNeeds store m size).length)

/-- One lane's request: steps 1 to 8 at issue, then entry in the collector. A `tso` or `line` page's, whose accesses take effect
in program order (R91, R93), is performed as it enters. -/
def State.gatherLane (s : State) (l : LaneIn) (t : Ty) (m : MemAddr) (st : Option DWord) (dst : Option (Dst × Bool)) :
    State × LaneOut :=
  let kind := if st.isSome then AccKind.store else .load
  let a := s.laneAccess l.who kind (effAddr m l.t (tySize t)) (tySize t) (tySize t)
  match s.checkIssue a with
  | (s, .page v) => (s, { page := some (v, if st.isSome then .store else .load), known := false })
  | (s, .fault f) => (s, { fault := some f })
  | (s, .ok tg) =>
    if s.ahead then (s, { known := false, fault := s.checkHome a tg })
    else
      let g : GatherReq := { who := l.who, va := a.va, size := a.size, store := st, dst, ty := t, loc := tg.loc, key := tg.key,
                             line := tg.line, tso := tg.tso, iss := s.sys.issue, since := s.now }
      let enter (s : State) (g : GatherReq) : State := s.modCore a.core (fun k => { k with gather := k.gather ++ [g] })
      if tg.tso || tg.line then
        match s.homeFault a tg, st with
        | some f, _ => (s, { fault := some f })
        | none, some v => (((s.flushGather l.who).modThread l.who (fun t => t.accessOk s.sys.issue.pc)).storeAt l.who tg (storeBytes t v), {})
        | none, none =>
          let (s, bs) := s.loadAt l.who tg g.size
          (enter s { g with val := some (loadExt t bs) }, { next := .stay, stall := .gather })
      else (enter s g, if st.isSome then {} else { next := .stay, stall := .gather })

/-- `gld` (R193, R196): its lanes go on when every lane's data has returned. -/
def execGld (t : Ty) (d : Dst) (m : MemAddr) (s : State) : Host.Outcome State Fault Refusal :=
  match s.awaitGrants .load (effAddr m · (tySize t)) (tySize t) with
  | some s => .next s
  | none =>
    let s := s.flushGang
    if s.gatherFull false m (tySize t) then .next (s.gangGo (fun t => { t with stall := .gather }))
    else .next ((s.runSeq (memSpec m t .load false [] (some (d, t.wide))) (fun s l => s.gatherLane l t m none (some (d, t.wide)))).gatherSettle
      s.sys.issue.core)

/-- `gst` (R193, R196): its lanes go on once every request has entered. -/
def execGst (t : Ty) (v : Src) (m : MemAddr) (s : State) : Host.Outcome State Fault Refusal :=
  match s.awaitGrants .store (effAddr m · (tySize t)) (tySize t) with
  | some s => .next s
  | none =>
    if s.gatherFull true m (tySize t) then .next (s.gangGo (fun t => { t with stall := .gather }))
    else .next (s.runSeq (memSpec m t .store false (if s.ahead then [] else [(v, t.wide)]) none) (fun s l =>
      s.gatherLane l t m (some (l.v 0)) none))

/-! ### Prefetch (R197) -/

/-- The line of an address enters a core's snapshot, as at a first load of the line in the phase (R82, R197); a `tso` or `line`
page and another device's memory have no place there (R91, R93). -/
def State.prefetchLine (s : State) (core : Nat) (tg : Target) : State :=
  if isCtl tg.loc || isRemote tg.loc || tg.tso || tg.line then s else (s.fillLine core (tg.loc / 64)).1

/-- Whether a lane's address can be had without a walk. -/
def State.knownVa (s : State) (a : Access) : Bool :=
  let va := a.va
  !canonical va || (a.user && dbit va 56) || inAlias va || ((a.grid.bind s.grid).bind (fun g => g.extRun va.toNat)).isSome ||
    (s.tlb a.unit).any (fun e => e.asid = a.asid && e.base = va.toNat % 2 ^ 57 / 2 ^ e.log)

/-- Requests that the device's table walkers hold at once, and how many they serve together (R102). -/
def walkRoom : Nat := 1024
def walkers : Nat := 32

/-- A prefetch of one address: a known translation fills the snapshot line at once, another once TABLE_WALK has made its walk;
no check raises anything. -/
def State.prefetch (s : State) (w : Who) (va : DWord) : State :=
  let a := s.laneAccess w .load va 1 1
  if s.knownVa a then
    match (s.checkIssue a).2 with
    | .ok tg => s.prefetchLine a.core tg
    | _ => s
  else s.setMem { s.mem with walkQueue := s.mem.walkQueue ++ [(a.unit, a.asid, a.root, va)] }

/-- `pfch` (R197): it changes no register or flag and raises no fault. A gang whose walks find the walkers' queue full waits at
its source (R102). -/
def execPfch (t : Ty) (m : MemAddr) (s : State) : Host.Outcome State Fault Refusal :=
  let walks := s.sys.issue.lanes.filter (fun l => match s.thread l.2 with
    | some th => !s.knownVa (s.laneAccess l.2 .load (effAddr m th (tySize t)) 1 1)
    | none => false)
  if !s.ahead && !walks.isEmpty && decide (walkRoom < s.mem.walkQueue.length + walks.length) then
    .next (s.gangGo (fun t => { t with stall := .walkRoom walks.length }))
  else .next (s.runSeq (accessSpec m [] none) (fun s l =>
    (if s.ahead then s else s.prefetch l.who (effAddr m l.t (tySize t)), {})))

/-- TABLE_WALK: a queued walk completes and fills its TLB where it finds a leaf (R101, R102), and the prefetched line enters the
snapshot of the core that asked (R197). -/
def execTableWalk (u : TlbUnit) (asid root : Nat) (va : DWord) (s : State) : Host.Outcome State Fault Refusal :=
  let s := s.setMem { s.mem with walkQueue := s.mem.walkQueue.erase (u, asid, root, va) }
  match u, s.tlbLookup u asid root va.toNat with
  | .core c, (s, .leaf e log) =>
    match s.loc (pteAddr e + va.toNat % 2 ^ log) with
    | some l => .next (s.prefetchLine c { loc := l, tso := pteTso e, line := pteLine e })
    | none => .next s
  | _, (s, _) => .next s

/-- ACCESS_AT_HOME: the oldest held-back store of one thread, freely chosen, is performed at its home (R79, R85); a `tso` store
whose time is over comes first, behind its thread's older ones (R91). -/
def execAccessAtHome (s : State) : Host.Outcome State Fault Refusal :=
  match s.mem.stores.find? (fun p => p.due.any (· ≤ s.now)) with
  | some p => .next (s.performStores (fun q => q = p))
  | none => .next s.drainOne

/-! ### Atomics (R198 to R200) -/

/-- The new value of a location, if the operation writes one, with its flags (R198). -/
def atomNew (op : AtomOp) (t : Ty) (old v : Nat) : Option Nat × Flags :=
  let w := t.bits
  match op with
  | .xchg | .st => (some (v % 2 ^ w), 0)
  | .ld => (none, 0)
  | .and => (some (old &&& v % 2 ^ w), 0)
  | .or => (some (old ||| v % 2 ^ w), 0)
  | .xor => (some (old ^^^ v % 2 ^ w), 0)
  | .min => (some (if intVal t v < intVal t old then v % 2 ^ w else old), 0)
  | .max => (some (if intVal t old < intVal t v then v % 2 ^ w else old), 0)
  | .add =>
    match tyFmt t with
    | some F => let r := F.finish .rne false (FVal.add .rne (F.decode old) (F.decode v)); (some r.1, r.2)
    | none => (some ((old + v) % 2 ^ w), 0)

def atomRel : AtomOrder → Bool
  | .rel | .ar => true
  | .none | .acq => false
def atomAcq : AtomOrder → Bool
  | .acq | .ar => true
  | .none | .rel => false

/-- Stores of a walk performed at their homes as its block's (R88, R361). -/
def State.performBlockStores (s : State) (ps : List PendStore) : State :=
  (ps.map (fun p => { p with bytes := s.mem.under p.home p.key p.loc p.bytes })).foldl (fun (s : State) p =>
    if s.fencedLoc p.loc then s else s.write { core := some p.core } p.key p.loc p.bytes) s

/-- A walk's stores performed and released at its completion (R88, R361). -/
def State.performWalk (s : State) (stack entry : Nat) : State :=
  match (s.die stack).blocks.find? (fun b => b.entry = entry) with
  | some b => (s.modBlock stack entry (fun b => { b with stores := [] })).performBlockStores b.stores
  | none => s

/-- A walker thread's own earlier stores to the place of its atomic reach the home (R85, R361): those of its aligned 8 bytes. -/
def State.performWalkAt (s : State) (w : Who) (loc : Nat) : State :=
  match s.walkBlock w with
  | some (x, b) =>
    let here (p : PendStore) : Bool := decide (p.loc / 8 = loc / 8)
    (s.modBlock x.origin b.entry (fun b => { b with stores := b.stores.filter (fun p => !here p) })).performBlockStores
      (b.stores.filter here)
  | none => s

/-- The gang's own earlier stores reach the home before its atomics, so that nothing comes between those of its lanes, and with
an acquire the stores that it will see (R85, R200). -/
def State.atomicsBegin (s : State) (o : AtomOrder) : State :=
  if s.ahead then s else
  let i := s.sys.issue
  s.flushGang.performStores (fun p => i.lanes.any (fun l => l.2 = p.who) || (atomAcq o && p.releasedTo i.core))

/-- The thread's own earlier stores reach the home, which is a release of them at every scope (R78, R85, R86). -/
def State.beforeAtomic (s : State) (w : Who) (loc : Nat) : State :=
  match w with
  | .walk _ => s.performWalkAt w loc
  | .lane _ _ _ => s.drainOf w

/-- An acquire boundary follows the atomic (R86). -/
def State.afterAtomic (s : State) (w : Who) (sc : Scope) (o : AtomOrder) : State :=
  match w with
  | .walk _ => s
  | .lane c _ _ => if atomAcq o then s.acquire w c sc else s

/-- Whose an atomic's write is: the lane's thread, or the walk's (R77, R361). -/
def State.atomParty (s : State) (w : Who) : Party :=
  match w with
  | .walk _ => { core := some (s.coreOf w) }
  | .lane c _ _ => { whos := [w], core := some c }

/-- One read-modify-write at its home (R85, R198): `f` gives the new value, if any, from the old one. -/
def State.atomicAt (s : State) (w : Who) (sc : Scope) (o : AtomOrder) (tg : Target) (n : Nat) (f : Nat → Option Nat × Flags) :
    State × Nat × Flags :=
  let s := s.beforeAtomic w tg.loc
  let (s, bs) := if isRemote tg.loc then s.freeBytes n else s.readHome w (s.coreOf w) tg.key tg.loc n
  let old := numOfBytes bs
  let r := f old
  let s := match r.1 with
    | some v =>
      if isRemote tg.loc then s.holdLine tg true
      else (if tg.line then s.dropCopies tg.loc else s).write (s.atomParty w) tg.key tg.loc (bytesOf n v)
    | none => s
  (s.afterAtomic w sc o, old, r.2)

/-- One `atom` (R198): d supplies the operand and, but for `st`, receives the old value. Lanes act in increasing order
(R200). -/
def State.atom (s : State) (op : AtomOp) (t : Ty) (sc : Scope) (o : AtomOrder) (d : Fin 128) (m : MemAddr) : State :=
  match s.awaitGrants .atomic (effAddr m · (tySize t)) (tySize t) with
  | some s => s
  | none =>
    let dst : Option (Dst × Bool) := match op with
      | .st => none
      | _ => some (.reg d, t.wide)
    (s.atomicsBegin o).runSeq (accessSpec m [(.reg d, t.wide)] dst) (fun s l =>
      let a := s.laneAccess l.who .atomic (effAddr m l.t (tySize t)) (tySize t) (tySize t)
      s.accessLane l a (fun s tg =>
        let r := s.atomicAt l.who sc o tg (tySize t) (fun old => atomNew op t old (l.v 0).toNat)
        (r.1, { res := match op with
                  | .st => none
                  | _ => some (dw r.2.1),
                fl := r.2.2 })))

/-- `atom.xchg` (R198). -/
def execAtomXchg (t : Ty) (sc : Scope) (o : AtomOrder) (d : Fin 128) (m : MemAddr) (s : State) :
    Host.Outcome State Fault Refusal := .next (s.atom .xchg t sc o d m)
/-- `atom.add` (R198). -/
def execAtomAdd (t : Ty) (sc : Scope) (o : AtomOrder) (d : Fin 128) (m : MemAddr) (s : State) :
    Host.Outcome State Fault Refusal := .next (s.atom .add t sc o d m)
/-- `atom.and` (R198). -/
def execAtomAnd (t : Ty) (sc : Scope) (o : AtomOrder) (d : Fin 128) (m : MemAddr) (s : State) :
    Host.Outcome State Fault Refusal := .next (s.atom .and t sc o d m)
/-- `atom.or` (R198). -/
def execAtomOr (t : Ty) (sc : Scope) (o : AtomOrder) (d : Fin 128) (m : MemAddr) (s : State) :
    Host.Outcome State Fault Refusal := .next (s.atom .or t sc o d m)
/-- `atom.xor` (R198). -/
def execAtomXor (t : Ty) (sc : Scope) (o : AtomOrder) (d : Fin 128) (m : MemAddr) (s : State) :
    Host.Outcome State Fault Refusal := .next (s.atom .xor t sc o d m)
/-- `atom.min` (R198). -/
def execAtomMin (t : Ty) (sc : Scope) (o : AtomOrder) (d : Fin 128) (m : MemAddr) (s : State) :
    Host.Outcome State Fault Refusal := .next (s.atom .min t sc o d m)
/-- `atom.max` (R198). -/
def execAtomMax (t : Ty) (sc : Scope) (o : AtomOrder) (d : Fin 128) (m : MemAddr) (s : State) :
    Host.Outcome State Fault Refusal := .next (s.atom .max t sc o d m)
/-- `atom.ld` (R198). -/
def execAtomLd (t : Ty) (sc : Scope) (o : AtomOrder) (d : Fin 128) (m : MemAddr) (s : State) :
    Host.Outcome State Fault Refusal := .next (s.atom .ld t sc o d m)
/-- `atom.st` (R198). -/
def execAtomSt (t : Ty) (sc : Scope) (o : AtomOrder) (d : Fin 128) (m : MemAddr) (s : State) :
    Host.Outcome State Fault Refusal := .next (s.atom .st t sc o d m)

/-- `cas` (R199): the comparison is of bits. -/
def execCas (t : Ty) (sc : Scope) (o : AtomOrder) (d a b c : Fin 128) (s : State) : Host.Outcome State Fault Refusal :=
  match s.awaitGrants .atomic (fun th => th.rd2 a.val) (tySize t) with
  | some s => .next s
  | none => .next ((s.atomicsBegin o).runSeq { srcs := [(.reg a, true), (.reg b, t.wide), (.reg c, t.wide)], dst := some (.reg d, t.wide) } (fun s l =>
      let ac := s.laneAccess l.who .atomic (l.v 0) (tySize t) (tySize t)
      s.accessLane l ac (fun s tg =>
        let r := s.atomicAt l.who sc o tg (tySize t) (fun old =>
          (if old = (l.v 1).toNat % 2 ^ t.bits then some ((l.v 2).toNat % 2 ^ t.bits) else none, 0))
        (r.1, { res := some (dw r.2.1) }))))

end Sys2Proof.Machine
end

