-- ==== Sys2Proof/Decode.lean ====
section
/-!
DEFINITION. The decoder of spec/06_encoding_and_assembly.md (R134-R152), total on any two words and rejecting by name,
and the encoder written from the same tables. A one-word instruction ignores its second word; the length is fixed by
the opcode alone (R134).
-/
namespace Sys2Proof

/-- Why a word pair is an illegal encoding, 0x0101: the items of R152. -/
inductive DecodeError where
  /-- item 1: the opcode is unassigned in its form -/
  | unassignedOpcode
  /-- item 2: an escape whose page or sub-opcode is unassigned -/
  | unassignedSub
  /-- items 3 and 4: a reserved field is not zero, or a field value is reserved -/
  | reservedField
  /-- item 5: a class-1 field stands where a register or a number is needed -/
  | needsRegister
  /-- item 6: rounding code 0b110 or 0b111 -/
  | badRounding
  /-- item 7: type, pack or rounding code that the instruction does not accept, or an odd pair -/
  | notAccepted
deriving DecidableEq, Repr

abbrev Dec := Except DecodeError

/-- Bits [hi:lo] of a word as a number (R7). -/
def field (w : Word) (hi lo : Nat) : Nat := w.toNat / 2 ^ lo % 2 ^ (hi - lo + 1)

def opcodeOf (w : Word) : Nat := field w 30 24
def isUForm (w : Word) : Bool := field w 31 31 == 1

/-- The opcode alone fixes the length: 0x70 to 0x7F take a second word (R134). -/
def isTwoWord (w : Word) : Bool := 0x70 ≤ opcodeOf w

def fD (w : Word) : Nat := field w 23 16
def fA (w : Word) : Nat := field w 15 8
def fB (w : Word) : Nat := field w 7 0

/-- A class-1 field's channel; bits [6:5] are 0b00, or 0b10 for a peek in a source (R137). -/
def srcOf (n : Nat) : Dec Src :=
  if n < 128 then .ok (.reg (Fin.ofNat 128 n))
  else if n / 32 % 4 == 0 then .ok (.pop (Fin.ofNat 32 n))
  else if n / 32 % 4 == 2 then .ok (.peek (Fin.ofNat 32 n))
  else .error .reservedField

def dstOf (n : Nat) : Dec Dst :=
  if n < 128 then .ok (.reg (Fin.ofNat 128 n))
  else if n / 32 % 4 == 0 then .ok (.push (Fin.ofNat 32 n))
  else .error .reservedField

/-- A field that must name a register (R152 item 5). -/
def regOf (n : Nat) : Dec (Fin 128) :=
  if n < 128 then .ok (Fin.ofNat 128 n) else .error .needsRegister

/-- U-form fields: values 64 to 127 are reserved (R137). -/
def usrcOf (n : Nat) : Dec USrc :=
  if n < 64 then .ok (.k (Fin.ofNat 64 n))
  else if n < 128 then .error .reservedField
  else if n / 32 % 4 == 0 then .ok (.pop (Fin.ofNat 32 n))
  else if n / 32 % 4 == 2 then .ok (.peek (Fin.ofNat 32 n))
  else .error .reservedField

def udstOf (n : Nat) : Dec UDst :=
  if n < 64 then .ok (.k (Fin.ofNat 64 n))
  else if n < 128 then .error .reservedField
  else if n / 32 % 4 == 0 then .ok (.push (Fin.ofNat 32 n))
  else .error .reservedField

def kOf (n : Nat) : Dec (Fin 64) :=
  if n < 64 then .ok (Fin.ofNat 64 n) else .error (if n < 128 then .reservedField else .needsRegister)

/-- A number field of `m` values; the bits above are reserved (R140). -/
def numOf (m : Nat) [NeZero m] (n : Nat) : Dec (Fin m) :=
  if n < m then .ok (Fin.ofNat m n) else .error .reservedField

/-- A field the instruction does not use is reserved (R140, R166). -/
def zero (n : Nat) : Dec Unit := if n == 0 then .ok () else .error .reservedField

/-- `rnd` bits [2:0] of a rounding code (R123). -/
def rmodeOf (n : Nat) : Dec RMode :=
  match n with
  | 0 => .ok .dyn
  | 1 => .ok .rne
  | 2 => .ok .rtz
  | 3 => .ok .rup
  | 4 => .ok .rdn
  | 5 => .ok .rodd
  | _ => .error .badRounding

def rcOf (n : Nat) : Dec Rc := do return ⟨← rmodeOf (n % 8), n / 8 == 1⟩

/-- The sixteen type codes (R142). -/
def tyOf (n : Nat) : Ty :=
  match n with
  | 0 => .i8 | 1 => .i16 | 2 => .i32 | 3 => .i64
  | 4 => .n8 | 5 => .n16 | 6 => .n32 | 7 => .n64
  | 8 => .f64 | 9 => .f32 | 10 => .bf16 | 11 => .h16
  | 12 => .e5m2 | 13 => .e4m3 | 14 => .e3m2 | _ => .e2m1

def packOf (n : Nat) : Pack :=
  match n with
  | 0 => .one | 1 => .x2 | 2 => .x4 | _ => .x8

def scopeOf (n : Nat) : Scope :=
  match n with
  | 0 => .core | 1 => .cluster | 2 => .dev | _ => .dom

def orderOf (n : Nat) : AtomOrder :=
  match n with
  | 0 => .none | 1 => .rel | 2 => .acq | _ => .ar

/-- The offset codes of R188. -/
def laneOffOf (n : Nat) : Dec LaneOff :=
  match n / 64 with
  | 0 => if n < 16 then .ok (.const (Fin.ofNat 16 n)) else .error .reservedField
  | 1 => if n % 64 < 5 then .ok (.width (Fin.ofNat 5 (n % 64))) else .error .reservedField
  | 2 => if n % 64 < 5 then .ok (.widthLess1 (Fin.ofNat 5 (n % 64))) else .error .reservedField
  | _ => .error .reservedField

/-- A BP predicate: with `p.use` 0 bits [22:19] are reserved (R139). -/
def brPredOf (w : Word) : Dec (Option BrPred) :=
  if field w 23 23 == 1 then .ok (some ⟨field w 22 22 == 1, Fin.ofNat 8 (field w 21 19)⟩)
  else if field w 22 19 == 0 then .ok none else .error .reservedField

def scondOf (n : Nat) : Dec SCond :=
  match n with
  | 0 => .ok .always | 1 => .ok .z | 2 => .ok .nz | 3 => .ok .lt
  | 4 => .ok .ge | 5 => .ok .gt | 6 => .ok .le | _ => .error .reservedField

def bv8 (n : Nat) : BitVec 8 := BitVec.ofNat 8 n
def bv16 (n : Nat) : BitVec 16 := BitVec.ofNat 16 n

/-! First-word formats: T3 with its fields as the table of the instruction uses them, I8, D16, S. -/

def t3 (k : Dst → Src → Src → Instr) (w : Word) : Dec Instr := do
  return k (← dstOf (fD w)) (← srcOf (fA w)) (← srcOf (fB w))

def t2 (k : Dst → Src → Instr) (w : Word) : Dec Instr := do
  zero (fB w)
  return k (← dstOf (fD w)) (← srcOf (fA w))

def i8 (k : Dst → Src → BitVec 8 → Instr) (w : Word) : Dec Instr := do
  return k (← dstOf (fD w)) (← srcOf (fA w)) (bv8 (fB w))

def i5 (k : Dst → Src → BitVec 5 → Instr) (w : Word) : Dec Instr := do
  if fB w < 32 then return k (← dstOf (fD w)) (← srcOf (fA w)) (BitVec.ofNat 5 (fB w))
  else throw .reservedField

def iOff (k : Dst → Src → LaneOff → Instr) (w : Word) : Dec Instr := do
  return k (← dstOf (fD w)) (← srcOf (fA w)) (← laneOffOf (fB w))

def pred3 (k : Fin 8 → Fin 8 → Fin 8 → Instr) (w : Word) : Dec Instr := do
  return k (← numOf 8 (fD w)) (← numOf 8 (fA w)) (← numOf 8 (fB w))

def t0 (i : Instr) (w : Word) : Dec Instr := do
  zero (field w 23 0)
  return i

def immOnly (k : BitVec 8 → Instr) (w : Word) : Dec Instr := do
  zero (field w 23 8)
  return k (bv8 (fB w))

def boundOp (k kSet : Fin 128 → Bool → Bool → Fin 16 → Instr) (w : Word) : Dec Instr := do
  zero (fD w)
  zero (field w 7 7)
  let a ← regOf (fA w)
  let nat := field w 5 5 == 1
  let dev := field w 4 4 == 1
  let i := Fin.ofNat 16 (field w 3 0)
  if field w 6 6 == 1 then return kSet a nat dev i else return k a nat dev i

def u3 (k : UDst → USrc → USrc → Instr) (w : Word) : Dec Instr := do
  return k (← udstOf (fD w)) (← usrcOf (fA w)) (← usrcOf (fB w))

def k1 (k : Fin 64 → Instr) (w : Word) : Dec Instr := do
  zero (fD w)
  zero (fB w)
  return k (← kOf (fA w))

def k2 (k : Fin 64 → Fin 64 → Instr) (w : Word) : Dec Instr := do
  zero (fD w)
  return k (← kOf (fA w)) (← kOf (fB w))

def k3 (k : Fin 64 → Fin 64 → Fin 64 → Instr) (w : Word) : Dec Instr := do
  return k (← kOf (fD w)) (← kOf (fA w)) (← kOf (fB w))

def kd1 (k : Fin 64 → Fin 64 → Instr) (w : Word) : Dec Instr := do
  zero (fB w)
  return k (← kOf (fD w)) (← kOf (fA w))

/-- `movk` mode in the b field (R169). -/
def movkModeOf (n : Nat) : Dec MovkMode :=
  match n with
  | 0 => .ok .full | 1 => .ok .lo | 2 => .ok .hi | _ => .error .reservedField

/-- L-form one-word opcodes 0x00 to 0x1F (R147, R167, R187). -/
def decodeL0 (op : Nat) (w : Word) : Dec Instr :=
  match op with
  | 0x00 => t3 .addI32 w
  | 0x01 => t3 .subI32 w
  | 0x02 => t3 .mulI32 w
  | 0x03 => t3 .mulhI32 w
  | 0x04 => t3 .minI32 w
  | 0x05 => t3 .maxI32 w
  | 0x06 => t3 .and w
  | 0x07 => t3 .or w
  | 0x08 => t3 .xor w
  | 0x09 => t2 .not w
  | 0x0A => t3 .shl w
  | 0x0B => t3 .shr w
  | 0x0C => t3 .sra w
  | 0x0D => t2 .mov w
  | 0x0E => t2 .clz w
  | 0x0F => t2 .popc w
  | 0x10 => i8 .addI32Imm w
  | 0x11 => i8 .andImm w
  | 0x12 => i8 .orImm w
  | 0x13 => i8 .xorImm w
  | 0x14 => i5 .shlImm w
  | 0x15 => i5 .shrImm w
  | 0x16 => i5 .sraImm w
  | 0x17 => do return .movi (← dstOf (fD w)) (bv16 (field w 15 0))
  | 0x18 => do return .movhi (← regOf (fD w)) (bv16 (field w 15 0))
  | 0x19 => do return .movk (← dstOf (fD w)) (← numOf 64 (fA w)) (← movkModeOf (fB w))
  | 0x1A => t2 .ctz w
  | 0x1B => t2 .bitrev w
  | 0x1C => do zero (fB w); return .rds (← dstOf (fD w)) (bv8 (fA w))
  | 0x1D => do zero (fD w); return .wrs (bv8 (fA w)) (← srcOf (fB w))
  | 0x1E =>
    match fB w with
    | 0 => do return .pmovFromReg (← numOf 8 (fD w)) (← srcOf (fA w))
    | 1 => do return .pmovToReg (← dstOf (fD w)) (← numOf 8 (fA w))
    | 2 => do return .pmovPred (← numOf 8 (fD w)) (← numOf 8 (fA w))
    | _ => .error .reservedField
  | 0x1F => do zero (fB w); return .pnot (← numOf 8 (fD w)) (← numOf 8 (fA w))
  | _ => .error .unassignedOpcode

/-- L-form one-word opcodes 0x20 to 0x3F (R147). -/
def decodeL2 (op : Nat) (w : Word) : Dec Instr :=
  match op with
  | 0x20 => t3 .addF32 w
  | 0x21 => t3 .subF32 w
  | 0x22 => t3 .mulF32 w
  | 0x23 => t3 .divF32 w
  | 0x24 => t3 .minF32 w
  | 0x25 => t3 .maxF32 w
  | 0x26 => t2 .sqrtF32 w
  | 0x27 => t2 .rsqrtF32 w
  | 0x28 => t2 .rcpF32 w
  | 0x29 => t2 .exp2F32 w
  | 0x2A => t2 .log2F32 w
  | 0x2B => t2 .sinF32 w
  | 0x2C => t2 .cosF32 w
  | 0x2D => t2 .tanhF32 w
  | 0x2E => t2 .fclassF32 w
  | 0x2F => t2 .absF32 w
  | 0x30 => t3 .lperm w
  | 0x31 => iOff .lrot w
  | 0x32 => iOff .lxor w
  | 0x33 => iOff .lbcast w
  | 0x34 => t2 .lballot w
  | 0x35 => t2 .lmatch w
  | 0x36 => pred3 .pand w
  | 0x37 => pred3 .por w
  | 0x38 => pred3 .pxor w
  | 0x39 => t2 .accRead w
  | 0x3A => do zero (fD w); return .accWrite (← srcOf (fA w)) (← srcOf (fB w))
  | 0x3B => do zero (fA w); return .cardNext (← dstOf (fD w)) (← numOf 8 (fB w))
  | 0x3C => do return .cardFeed (← numOf 64 (fD w)) (← srcOf (fA w)) (← srcOf (fB w))
  | 0x3D => t3 .crc w
  | 0x3E => t3 .absdI32 w
  | 0x3F => t3 .mulhN32 w
  | _ => .error .unassignedOpcode

/-- L-form one-word opcodes 0x40 to 0x5F (R147, R202-R238, R284). -/
def decodeL4 (op : Nat) (w : Word) : Dec Instr :=
  match op with
  | 0x40 => do return .br (← brPredOf w) (BitVec.ofNat 19 (field w 18 0))
  | 0x41 => do return .call (← brPredOf w) (BitVec.ofNat 19 (field w 18 0))
  | 0x42 => t0 .ret w
  | 0x43 => do zero (fD w); zero (fB w); return .jr (← regOf (fA w))
  | 0x44 => do zero (fD w); zero (fB w); return .calr (← regOf (fA w))
  | 0x45 => do return .switch (← srcOf (fD w)) (bv16 (field w 15 0))
  | 0x46 => t0 .converge w
  | 0x47 => t0 .reform w
  | 0x48 => do return .spawn (← dstOf (fD w)) (← regOf (fA w)) (← regOf (fB w))
  | 0x49 => t0 .exit w
  | 0x4A => immOnly .trap w
  | 0x4B => immOnly .brk w
  | 0x4C => t0 .yield w
  | 0x4D => immOnly .sleep w
  | 0x4E =>
    match fB w with
    | 0 => do return .gwait (← dstOf (fD w)) (← regOf (fA w))
    | 1 => do return .gwaitPoll (← dstOf (fD w)) (← regOf (fA w))
    | _ => .error .reservedField
  | 0x4F => do zero (field w 23 2); return .phase (scopeOf (field w 1 0))
  | 0x50 => do zero (fB w); return .arrive (← dstOf (fD w)) (← numOf 16 (fA w))
  | 0x51 => do zero (fD w); return .wait (← numOf 16 (fA w)) (← srcOf (fB w))
  | 0x52 => do return .barOwe (← dstOf (fD w)) (← numOf 16 (fA w)) (← regOf (fB w))
  | 0x53 => do return .barTest (← numOf 8 (fD w)) (← numOf 16 (fA w)) (← srcOf (fB w))
  | 0x54 => do return .hankPush (← numOf 8 (fD w)) (← regOf (fA w)) (← srcOf (fB w))
  | 0x55 => do
    zero (field w 7 4)
    let d ← regOf (fD w)
    let a ← regOf (fA w)
    let p := Fin.ofNat 8 (field w 2 0)
    if field w 3 3 == 1 then return .hankPopWait d a p else return .hankPop d a p
  | 0x56 => do return .hankSteal (← regOf (fD w)) (← regOf (fA w)) (← numOf 8 (fB w))
  | 0x57 => do zero (fB w); return .hankSize (← regOf (fD w)) (← regOf (fA w))
  | 0x58 => boundOp .boundMin .boundMinSet w
  | 0x59 => boundOp .boundMax .boundMaxSet w
  | 0x5A => do
    zero (fA w)
    zero (field w 7 5)
    return .boundGet (← regOf (fD w)) (field w 4 4 == 1) (Fin.ofNat 16 (field w 3 0))
  | 0x5B => immOnly .regclaim w
  | 0x5C => immOnly .regrel w
  | 0x5D => do zero (fB w); return .chpoll (← dstOf (fD w)) (← numOf 32 (fA w))
  | 0x5E => do zero (fD w); return .wSend (← srcOf (fA w)) (← regOf (fB w))
  | 0x5F => do zero (field w 15 0); return .wRecv (← regOf (fD w))
  | _ => .error .unassignedOpcode

/-- U-form one-word opcodes (R150). -/
def decodeU (op : Nat) (w : Word) : Dec Instr :=
  match op with
  | 0x00 => u3 .sadd w
  | 0x01 => u3 .ssub w
  | 0x02 => u3 .sand w
  | 0x03 => u3 .sor w
  | 0x04 => u3 .sxor w
  | 0x05 => u3 .sshl w
  | 0x06 => u3 .sshr w
  | 0x07 => do zero (fB w); return .smov (← udstOf (fD w)) (← usrcOf (fA w))
  | 0x08 => do return .smovi (← udstOf (fD w)) (bv16 (field w 15 0))
  | 0x09 => do return .smovh (← kOf (fD w)) (bv16 (field w 15 0))
  | 0x0A => do return .sbr (← scondOf (field w 23 21)) (Fin.ofNat 64 (field w 20 15)) (BitVec.ofNat 15 (field w 14 0))
  | 0x0B => do zero (fB w); return .rdsr (← udstOf (fD w)) (bv8 (fA w))
  | 0x0C => do zero (fD w); return .wrsr (bv8 (fA w)) (← usrcOf (fB w))
  | 0x0D => do
    let n ← numOf 16 (fD w)
    let k ← kOf (fA w)
    match fB w with
    | 0 => return .barInit n k .team
    | 1 => return .barInit n k .gang
    | 2 => return .barInit n k .engine
    | _ => throw .reservedField
  | 0x0E => k2 .hankInit w
  | 0x0F => do zero (fB w); return .chbind (← numOf 32 (fD w)) (← kOf (fA w))
  | 0x10 => do zero (field w 15 0); return .chfree (← numOf 32 (fD w))
  | 0x11 => do zero (fB w); return .guardSet (← numOf 8 (fD w)) (← kOf (fA w))
  | 0x12 => t0 .mxAcquire w
  | 0x13 => t0 .mxRelease w
  | 0x14 => k1 .mxIssue w
  | 0x15 => kd1 .accAlloc w
  | 0x16 => k1 .accFree w
  | 0x17 => k1 .accZero w
  | 0x18 => k2 .accDrain w
  | 0x19 => k2 .accPack w
  | 0x1A => k3 .xfer w
  | 0x1B => k3 .xferMc w
  | 0x1C => k1 .bufDecl w
  | 0x1D => do
    zero (fA w)
    let n ← numOf 64 (fD w)
    match fB w with
    | 0 => return .bufSet n .empty
    | 1 => return .bufSet n .full
    | 2 => return .bufSet n .draining
    | _ => throw .reservedField
  | 0x1E => k1 .cardOpenX w
  | 0x1F => k1 .cardOpenM w
  | 0x20 => k1 .cardSplit w
  | 0x21 => k1 .cardSave w
  | 0x22 => k1 .cardRestore w
  | 0x23 => t0 .cardClose w
  | 0x24 => k1 .sfUnbind w
  | 0x25 => k3 .ctxsave w
  | 0x26 => k3 .ctxload w
  | 0x27 => t0 .tsync w
  | 0x28 => t0 .replay w
  | 0x29 => kd1 .idle w
  | 0x2A => t0 .halt w
  | 0x2B => k2 .errack w
  | _ => .error .unassignedOpcode

/-! Second words (R141). -/

def subOp (w2 : Word) : Nat := field w2 31 24

def fmtOf (w2 : Word) : Dec Fmt := do
  return ⟨tyOf (field w2 19 16), packOf (field w2 15 14), ← rcOf (field w2 23 20)⟩

/-- XC with two sources: the c field and bits [13:8] are reserved (R171). -/
def xc3 (k : Fmt → Dst → Src → Src → Instr) (w1 w2 : Word) : Dec Instr := do
  zero (field w2 13 0)
  return k (← fmtOf w2) (← dstOf (fD w1)) (← srcOf (fA w1)) (← srcOf (fB w1))

def xc2 (k : Fmt → Dst → Src → Instr) (w1 w2 : Word) : Dec Instr := do
  zero (field w2 13 0)
  zero (fB w1)
  return k (← fmtOf w2) (← dstOf (fD w1)) (← srcOf (fA w1))

def xc4 (k : Fmt → Dst → Src → Src → Src → Instr) (w1 w2 : Word) : Dec Instr := do
  zero (field w2 13 8)
  return k (← fmtOf w2) (← dstOf (fD w1)) (← srcOf (fA w1)) (← srcOf (fB w1)) (← srcOf (field w2 7 0))

def cvtTyOf (e8 : Bool) (n : Nat) : Dec CvtTy :=
  if e8 then (if n == 0 then .ok .e8m0 else .error .reservedField) else .ok (.ty (tyOf n))

def decodeCvt (w1 w2 : Word) : Dec Instr := do
  zero (field w2 5 0)
  zero (fB w1)
  let d ← cvtTyOf (field w2 7 7 == 1) (field w2 19 16)
  let s ← cvtTyOf (field w2 6 6 == 1) (field w2 15 12)
  return .cvt ⟨← rcOf (field w2 23 20), d, packOf (field w2 9 8), s, packOf (field w2 11 10)⟩
    (← dstOf (fD w1)) (← srcOf (fA w1))

/-- `pack` and `unpack` take rounding code 0 and the pack that R143 pairs with the type (R184). -/
def packFields (w2 : Word) : Dec Ty := do
  zero (field w2 13 0)
  zero (field w2 23 20)
  let t := tyOf (field w2 19 16)
  if t.packOf != .one && packOf (field w2 15 14) == t.packOf then return t else throw .notAccepted

def cmpCondOf (n : Nat) : Dec CmpCond :=
  match n with
  | 0 => .ok .eq | 1 => .ok .ne | 2 => .ok .lt | 3 => .ok .le
  | 4 => .ok .gt | 5 => .ok .ge | 6 => .ok .ord | 7 => .ok .un | _ => .error .reservedField

def redOpOf (n : Nat) : Dec RedOp :=
  match n with
  | 0 => .ok .add | 1 => .ok .min | 2 => .ok .max | 3 => .ok .and | 4 => .ok .or | 5 => .ok .xor
  | _ => .error .reservedField

/-- `i32` or `n32` in the type field, rounding code 0: whether the type is signed (R174). -/
def signed32 (w2 : Word) : Dec Bool := do
  zero (field w2 23 20)
  match tyOf (field w2 19 16) with
  | .i32 => return true
  | .n32 => return false
  | _ => throw .notAccepted

/-- The XM address fields; with `ix` 0 the b field and the scale are reserved (R141). -/
def memOf (w1 w2 : Word) : Dec MemAddr := do
  let base ← regOf (fA w1)
  let off := BitVec.ofNat 9 (field w2 8 0)
  if field w2 11 11 == 1 then
    return ⟨base, some (← regOf (fB w1), Fin.ofNat 4 (field w2 10 9)), off⟩
  else do
    zero (fB w1)
    zero (field w2 10 9)
    return ⟨base, none, off⟩

/-- Loads, stores and prefetch treat scope, order and `aop` as reserved (R193). -/
def memPlain (w1 w2 : Word) : Dec MemAddr := do
  zero (field w2 23 20)
  zero (field w2 15 12)
  memOf w1 w2

def decodePage0 (w1 w2 : Word) : Dec Instr :=
  match subOp w2 with
  | 0x00 => xc3 .add w1 w2
  | 0x01 => xc3 .sub w1 w2
  | 0x02 => xc3 .mul w1 w2
  | 0x03 => xc3 .mulh w1 w2
  | 0x04 => xc3 .div w1 w2
  | 0x05 => xc3 .rem w1 w2
  | 0x06 => xc3 .min w1 w2
  | 0x07 => xc3 .max w1 w2
  | 0x08 => xc2 .abs w1 w2
  | 0x09 => xc2 .neg w1 w2
  | 0x0A => xc3 .absd w1 w2
  | 0x0B => xc2 .sqrt w1 w2
  | 0x0C => xc4 .fma w1 w2
  | 0x0D => xc4 .mad w1 w2
  | 0x0E => xc4 .madw w1 w2
  | 0x0F => xc3 .scalb w1 w2
  | 0x10 => xc2 .rnd w1 w2
  | 0x11 => decodeCvt w1 w2
  | 0x12 => do return .pack (← packFields w2) (← dstOf (fD w1)) (← srcOf (fA w1)) (← srcOf (fB w1))
  | 0x13 => do zero (fB w1); return .unpack (← packFields w2) (← dstOf (fD w1)) (← srcOf (fA w1))
  | 0x14 => do
    zero (field w2 23 20)
    zero (field w2 15 4)
    return .cmp (← cmpCondOf (field w2 3 0)) (tyOf (field w2 19 16)) (← numOf 8 (fD w1)) (← srcOf (fA w1)) (← srcOf (fB w1))
  | 0x15 => do
    zero (field w2 23 20)
    zero (field w2 15 4)
    return .sel (tyOf (field w2 19 16)) (Fin.ofNat 8 (field w2 2 0)) (field w2 3 3 == 1)
      (← dstOf (fD w1)) (← srcOf (fA w1)) (← srcOf (fB w1))
  | 0x16 => do
    return .lea (← signed32 w2) (BitVec.ofNat 14 (field w2 15 2)) (Fin.ofNat 4 (field w2 1 0))
      (← dstOf (fD w1)) (← srcOf (fA w1)) (← srcOf (fB w1))
  | 0x17 => do
    zero (fB w1)
    zero (field w2 15 11)
    return .bfe (← signed32 w2) (BitVec.ofNat 5 (field w2 4 0)) (BitVec.ofNat 6 (field w2 10 5))
      (← dstOf (fD w1)) (← srcOf (fA w1))
  | 0x18 => do
    zero (field w2 15 11)
    if (← signed32 w2) then throw .notAccepted
    return .bfi (BitVec.ofNat 5 (field w2 4 0)) (BitVec.ofNat 6 (field w2 10 5))
      (← dstOf (fD w1)) (← srcOf (fA w1)) (← srcOf (fB w1))
  | 0x19 => do
    zero (field w2 15 8)
    if (← signed32 w2) then throw .notAccepted
    return .fsh (← dstOf (fD w1)) (← srcOf (fA w1)) (← srcOf (fB w1)) (← srcOf (field w2 7 0))
  | 0x1A => do
    zero (fB w1)
    zero (field w2 15 5)
    return .lscan (← redOpOf (field w2 3 0)) (field w2 4 4 == 1) (tyOf (field w2 19 16)) (← rcOf (field w2 23 20))
      (← dstOf (fD w1)) (← srcOf (fA w1))
  | 0x1B => do
    zero (fB w1)
    zero (field w2 15 4)
    return .lred (← redOpOf (field w2 3 0)) (tyOf (field w2 19 16)) (← rcOf (field w2 23 20))
      (← dstOf (fD w1)) (← srcOf (fA w1))
  | 0x1C => do return .ld (tyOf (field w2 19 16)) (← dstOf (fD w1)) (← memPlain w1 w2)
  | 0x1D => do return .st (tyOf (field w2 19 16)) (← srcOf (fD w1)) (← memPlain w1 w2)
  | 0x1E => do return .gld (tyOf (field w2 19 16)) (← dstOf (fD w1)) (← memPlain w1 w2)
  | 0x1F => do return .gst (tyOf (field w2 19 16)) (← srcOf (fD w1)) (← memPlain w1 w2)
  | _ => .error .unassignedSub

/-- `atom`: the `aop` field selects the operation (R198). -/
def decodeAtom (w1 w2 : Word) : Dec Instr := do
  let t := tyOf (field w2 19 16)
  let sc := scopeOf (field w2 23 22)
  let o := orderOf (field w2 21 20)
  let d ← regOf (fD w1)
  let m ← memOf w1 w2
  match field w2 15 12 with
  | 0 => return .atomXchg t sc o d m
  | 1 => return .atomAdd t sc o d m
  | 2 => return .atomAnd t sc o d m
  | 3 => return .atomOr t sc o d m
  | 4 => return .atomXor t sc o d m
  | 5 => return .atomMin t sc o d m
  | 6 => return .atomMax t sc o d m
  | 7 => return .atomLd t sc o d m
  | 8 => return .atomSt t sc o d m
  | _ => throw .reservedField

/-- Walker instructions of page 1: the rounding code, the type and imm16 above the number are reserved (R283, R286). -/
def walkNum (w2 : Word) : Dec (Fin 32) := do
  zero (field w2 23 16)
  zero (field w2 15 5)
  return Fin.ofNat 32 (field w2 4 0)

def decodePage1 (w1 w2 : Word) : Dec Instr :=
  match subOp w2 with
  | 0x00 => decodeAtom w1 w2
  | 0x01 => do
    zero (field w2 15 8)
    return .cas (tyOf (field w2 19 16)) (scopeOf (field w2 23 22)) (orderOf (field w2 21 20))
      (← regOf (fD w1)) (← regOf (fA w1)) (← regOf (fB w1)) (← regOf (field w2 7 0))
  | 0x02 => do zero (fD w1); return .pfch (tyOf (field w2 19 16)) (← memPlain w1 w2)
  | 0x03 => do zero (fD w1); zero (fB w1); zero (field w2 23 0); return .wHop (← srcOf (fA w1))
  | 0x04 => do zero (fD w1); zero (fB w1); return .wEmit (← regOf (fA w1)) (← walkNum w2)
  | 0x05 => do zero (fB w1); return .wDist (← regOf (fD w1)) (← regOf (fA w1)) (← walkNum w2)
  | 0x06 => do zero (fB w1); return .wHeap (← numOf 8 (fD w1)) (← regOf (fA w1)) (← walkNum w2)
  | 0x07 => do zero (fB w1); return .wVisit (← numOf 8 (fD w1)) (← srcOf (fA w1)) (← walkNum w2)
  | _ => .error .unassignedSub

/-- U-form page 0: X16 with rounding code 0, and type 0 but for `xfer.tr` (R151, R208, R264, R296). -/
def decodeUPage0 (w1 w2 : Word) : Dec Instr := do
  zero (field w2 23 20)
  let imm := bv16 (field w2 15 0)
  match subOp w2 with
  | 0x01 => return .xferTr (tyOf (field w2 19 16)) imm (← kOf (fD w1)) (← kOf (fA w1)) (← kOf (fB w1))
  | sub =>
    if sub > 0x0B then throw .unassignedSub
    zero (field w2 19 16)
    match sub with
    | 0x00 => do zero (field w2 15 0); kd1 .launch w1
    | 0x02 => k2 (.cgLaunch imm) w1
    | 0x03 => do kd1 (.sfLoad (← numOf 64 (field w2 15 0))) w1
    | 0x04 => do zero (field w2 15 0); k2 .sfBind w1
    | 0x05 => k2 (.sfRun imm) w1
    | 0x06 => k2 (.srchIssue imm) w1
    | 0x07 =>
      match field w2 15 0 with
      | 0 => kd1 .srchVer w1
      | 1 => kd1 .srchVerRead w1
      | _ => throw .reservedField
    | 0x08 => k1 (.collStart imm) w1
    | 0x09 =>
      match field w2 15 0 with
      | 0 => t0 .tlbinvAll w1
      | 1 => k1 .tlbinvAsid w1
      | 2 => k2 .tlbinvVa w1
      | _ => throw .reservedField
    | 0x0A => do zero (field w2 15 0); k2 .dirReclaim w1
    | _ => do zero (field w2 15 0); k2 .keyselLoad w1

/-- The form and the opcode choose the table that reads the fields (R134, R135, R147 to R151). -/
def decodeRaw (w1 w2 : Word) : Dec Instr :=
  let op := opcodeOf w1
  if isUForm w1 then
    if op < 0x70 then decodeU op w1
    else if op == 0x70 then decodeUPage0 w1 w2
    else .error .unassignedSub
  else if op < 0x20 then decodeL0 op w1
  else if op < 0x40 then decodeL2 op w1
  else if op < 0x70 then decodeL4 op w1
  else if op == 0x70 then decodePage0 w1 w2
  else if op == 0x71 then decodePage1 w1 w2
  else .error .unassignedSub

/-- The decoder: the fields as the formats place them, and then the types, packings, codes and pairs that the
instruction accepts (R152). -/
def decode (w1 w2 : Word) : Dec Instr := do
  let i ← decodeRaw w1 w2
  if i.wf then return i else throw .notAccepted

/-- The instruction the decoder reads from a table row's bits: the first word in bits [31:0], the second in
bits [63:32]. -/
def decodeTableWord (nbits w : Nat) : Option Instr :=
  let v := w % 2 ^ nbits
  match decode (BitVec.ofNat 32 v) (BitVec.ofNat 32 (v / 2 ^ 32)) with
  | .ok i => some i
  | .error _ => none

/-! The encoder. -/

def Src.enc : Src → Nat
  | .reg n => n.val
  | .pop c => 0x80 + c.val
  | .peek c => 0xC0 + c.val

def Dst.enc : Dst → Nat
  | .reg n => n.val
  | .push c => 0x80 + c.val

def USrc.enc : USrc → Nat
  | .k n => n.val
  | .pop c => 0x80 + c.val
  | .peek c => 0xC0 + c.val

def UDst.enc : UDst → Nat
  | .k n => n.val
  | .push c => 0x80 + c.val

def Ty.enc : Ty → Nat
  | .i8 => 0 | .i16 => 1 | .i32 => 2 | .i64 => 3
  | .n8 => 4 | .n16 => 5 | .n32 => 6 | .n64 => 7
  | .f64 => 8 | .f32 => 9 | .bf16 => 10 | .h16 => 11
  | .e5m2 => 12 | .e4m3 => 13 | .e3m2 => 14 | .e2m1 => 15

def Pack.enc : Pack → Nat
  | .one => 0 | .x2 => 1 | .x4 => 2 | .x8 => 3

def RMode.enc : RMode → Nat
  | .dyn => 0 | .rne => 1 | .rtz => 2 | .rup => 3 | .rdn => 4 | .rodd => 5

def Rc.enc (r : Rc) : Nat := r.mode.enc + (if r.sat then 8 else 0)

def Scope.enc : Scope → Nat
  | .core => 0 | .cluster => 1 | .dev => 2 | .dom => 3

def AtomOrder.enc : AtomOrder → Nat
  | .none => 0 | .rel => 1 | .acq => 2 | .ar => 3

def LaneOff.enc : LaneOff → Nat
  | .const n => n.val
  | .width n => 64 + n.val
  | .widthLess1 n => 128 + n.val

def BrPred.enc : Option BrPred → Nat
  | none => 0
  | some p => 16 + (if p.neg then 8 else 0) + p.p.val

def SCond.enc : SCond → Nat
  | .always => 0 | .z => 1 | .nz => 2 | .lt => 3 | .ge => 4 | .gt => 5 | .le => 6

def CmpCond.enc : CmpCond → Nat
  | .eq => 0 | .ne => 1 | .lt => 2 | .le => 3 | .gt => 4 | .ge => 5 | .ord => 6 | .un => 7

def RedOp.enc : RedOp → Nat
  | .add => 0 | .min => 1 | .max => 2 | .and => 3 | .or => 4 | .xor => 5

def MovkMode.enc : MovkMode → Nat
  | .full => 0 | .lo => 1 | .hi => 2

def BarKind.enc : BarKind → Nat
  | .team => 0 | .gang => 1 | .engine => 2

def BufSetTo.enc : BufSetTo → Nat
  | .empty => 0 | .full => 1 | .draining => 2

def boolNat (b : Bool) : Nat := if b then 1 else 0

/-- A first word from its opcode byte (the form in bit 31) and the fields d, a, b (R139). -/
def word4 (op d a b : Nat) : Word := BitVec.ofNat 32 (op * 2 ^ 24 + d * 2 ^ 16 + a * 2 ^ 8 + b)

/-- A second word from its sub-opcode, rounding-code field, type field and low half (R141). -/
def word2 (sub rc ty lo : Nat) : Word := BitVec.ofNat 32 (sub * 2 ^ 24 + rc * 2 ^ 20 + ty * 2 ^ 16 + lo)

def encPair (p : Word) (q : Word) : Option (List Word) := some [p, q]
def enc1 (p : Word) : Option (List Word) := some [p]

def MemAddr.encB (m : MemAddr) : Nat :=
  match m.index with
  | none => 0
  | some (r, _) => r.val

/-- Bits [11:0] of an XM word. -/
def MemAddr.encLo (m : MemAddr) : Nat :=
  (match m.index with
   | none => 0
   | some (_, s) => 2 ^ 11 + s.val * 2 ^ 9) + m.off.toNat

def encXC3 (sub : Nat) (f : Fmt) (d : Dst) (a b : Src) : Option (List Word) :=
  encPair (word4 0x70 d.enc a.enc b.enc) (word2 sub f.rc.enc f.ty.enc (f.pk.enc * 2 ^ 14))

def encXC2 (sub : Nat) (f : Fmt) (d : Dst) (a : Src) : Option (List Word) :=
  encPair (word4 0x70 d.enc a.enc 0) (word2 sub f.rc.enc f.ty.enc (f.pk.enc * 2 ^ 14))

def encXC4 (sub : Nat) (f : Fmt) (d : Dst) (a b c : Src) : Option (List Word) :=
  encPair (word4 0x70 d.enc a.enc b.enc) (word2 sub f.rc.enc f.ty.enc (f.pk.enc * 2 ^ 14 + c.enc))

def encMem (sub : Nat) (t : Ty) (d : Nat) (m : MemAddr) : Option (List Word) :=
  encPair (word4 0x70 d m.base.val m.encB) (word2 sub 0 t.enc m.encLo)

def encAtom (aop : Nat) (t : Ty) (sc : Scope) (o : AtomOrder) (d : Fin 128) (m : MemAddr) : Option (List Word) :=
  encPair (word4 0x71 d.val m.base.val m.encB) (word2 0 (sc.enc * 4 + o.enc) t.enc (aop * 2 ^ 12 + m.encLo))

def encBound (op : Nat) (a : Fin 128) (set nat dev : Bool) (i : Fin 16) : Option (List Word) :=
  enc1 (word4 op 0 a.val (boolNat set * 64 + boolNat nat * 32 + boolNat dev * 16 + i.val))

def CvtTy.enc : CvtTy → Nat
  | .ty t => t.enc
  | .e8m0 => 0

def CvtTy.flag : CvtTy → Nat
  | .ty _ => 0
  | .e8m0 => 1

def encUPage (sub ty imm d a b : Nat) : Option (List Word) :=
  encPair (word4 0xF0 d a b) (word2 sub 0 ty imm)

def encSigned (s : Bool) : Nat := if s then 2 else 6

/-- The words of an instruction, first word first; none for a device step, which has no encoding. -/
def encode : Instr → Option (List Word)
  | .addI32 d a b => enc1 (word4 0x00 d.enc a.enc b.enc)
  | .subI32 d a b => enc1 (word4 0x01 d.enc a.enc b.enc)
  | .mulI32 d a b => enc1 (word4 0x02 d.enc a.enc b.enc)
  | .mulhI32 d a b => enc1 (word4 0x03 d.enc a.enc b.enc)
  | .minI32 d a b => enc1 (word4 0x04 d.enc a.enc b.enc)
  | .maxI32 d a b => enc1 (word4 0x05 d.enc a.enc b.enc)
  | .and d a b => enc1 (word4 0x06 d.enc a.enc b.enc)
  | .or d a b => enc1 (word4 0x07 d.enc a.enc b.enc)
  | .xor d a b => enc1 (word4 0x08 d.enc a.enc b.enc)
  | .not d a => enc1 (word4 0x09 d.enc a.enc 0)
  | .shl d a b => enc1 (word4 0x0A d.enc a.enc b.enc)
  | .shr d a b => enc1 (word4 0x0B d.enc a.enc b.enc)
  | .sra d a b => enc1 (word4 0x0C d.enc a.enc b.enc)
  | .mov d a => enc1 (word4 0x0D d.enc a.enc 0)
  | .clz d a => enc1 (word4 0x0E d.enc a.enc 0)
  | .popc d a => enc1 (word4 0x0F d.enc a.enc 0)
  | .addI32Imm d a i => enc1 (word4 0x10 d.enc a.enc i.toNat)
  | .andImm d a i => enc1 (word4 0x11 d.enc a.enc i.toNat)
  | .orImm d a i => enc1 (word4 0x12 d.enc a.enc i.toNat)
  | .xorImm d a i => enc1 (word4 0x13 d.enc a.enc i.toNat)
  | .shlImm d a i => enc1 (word4 0x14 d.enc a.enc i.toNat)
  | .shrImm d a i => enc1 (word4 0x15 d.enc a.enc i.toNat)
  | .sraImm d a i => enc1 (word4 0x16 d.enc a.enc i.toNat)
  | .movi d i => enc1 (word4 0x17 d.enc (i.toNat / 256) (i.toNat % 256))
  | .movhi d i => enc1 (word4 0x18 d.val (i.toNat / 256) (i.toNat % 256))
  | .movk d k m => enc1 (word4 0x19 d.enc k.val m.enc)
  | .ctz d a => enc1 (word4 0x1A d.enc a.enc 0)
  | .bitrev d a => enc1 (word4 0x1B d.enc a.enc 0)
  | .rds d sr => enc1 (word4 0x1C d.enc sr.toNat 0)
  | .wrs sr a => enc1 (word4 0x1D 0 sr.toNat a.enc)
  | .pmovFromReg n a => enc1 (word4 0x1E n.val a.enc 0)
  | .pmovToReg d n => enc1 (word4 0x1E d.enc n.val 1)
  | .pmovPred n m => enc1 (word4 0x1E n.val m.val 2)
  | .pnot n m => enc1 (word4 0x1F n.val m.val 0)
  | .addF32 d a b => enc1 (word4 0x20 d.enc a.enc b.enc)
  | .subF32 d a b => enc1 (word4 0x21 d.enc a.enc b.enc)
  | .mulF32 d a b => enc1 (word4 0x22 d.enc a.enc b.enc)
  | .divF32 d a b => enc1 (word4 0x23 d.enc a.enc b.enc)
  | .minF32 d a b => enc1 (word4 0x24 d.enc a.enc b.enc)
  | .maxF32 d a b => enc1 (word4 0x25 d.enc a.enc b.enc)
  | .sqrtF32 d a => enc1 (word4 0x26 d.enc a.enc 0)
  | .rsqrtF32 d a => enc1 (word4 0x27 d.enc a.enc 0)
  | .rcpF32 d a => enc1 (word4 0x28 d.enc a.enc 0)
  | .exp2F32 d a => enc1 (word4 0x29 d.enc a.enc 0)
  | .log2F32 d a => enc1 (word4 0x2A d.enc a.enc 0)
  | .sinF32 d a => enc1 (word4 0x2B d.enc a.enc 0)
  | .cosF32 d a => enc1 (word4 0x2C d.enc a.enc 0)
  | .tanhF32 d a => enc1 (word4 0x2D d.enc a.enc 0)
  | .fclassF32 d a => enc1 (word4 0x2E d.enc a.enc 0)
  | .absF32 d a => enc1 (word4 0x2F d.enc a.enc 0)
  | .lperm d a b => enc1 (word4 0x30 d.enc a.enc b.enc)
  | .lrot d a o => enc1 (word4 0x31 d.enc a.enc o.enc)
  | .lxor d a o => enc1 (word4 0x32 d.enc a.enc o.enc)
  | .lbcast d a o => enc1 (word4 0x33 d.enc a.enc o.enc)
  | .lballot d a => enc1 (word4 0x34 d.enc a.enc 0)
  | .lmatch d a => enc1 (word4 0x35 d.enc a.enc 0)
  | .pand n m k => enc1 (word4 0x36 n.val m.val k.val)
  | .por n m k => enc1 (word4 0x37 n.val m.val k.val)
  | .pxor n m k => enc1 (word4 0x38 n.val m.val k.val)
  | .accRead d a => enc1 (word4 0x39 d.enc a.enc 0)
  | .accWrite a b => enc1 (word4 0x3A 0 a.enc b.enc)
  | .cardNext d p => enc1 (word4 0x3B d.enc 0 p.val)
  | .cardFeed n a b => enc1 (word4 0x3C n.val a.enc b.enc)
  | .crc d a b => enc1 (word4 0x3D d.enc a.enc b.enc)
  | .absdI32 d a b => enc1 (word4 0x3E d.enc a.enc b.enc)
  | .mulhN32 d a b => enc1 (word4 0x3F d.enc a.enc b.enc)
  | .br p o => enc1 (BitVec.ofNat 32 (0x40 * 2 ^ 24 + BrPred.enc p * 2 ^ 19 + o.toNat))
  | .call p o => enc1 (BitVec.ofNat 32 (0x41 * 2 ^ 24 + BrPred.enc p * 2 ^ 19 + o.toNat))
  | .ret => enc1 (word4 0x42 0 0 0)
  | .jr a => enc1 (word4 0x43 0 a.val 0)
  | .calr a => enc1 (word4 0x44 0 a.val 0)
  | .switch i o => enc1 (word4 0x45 i.enc (o.toNat / 256) (o.toNat % 256))
  | .converge => enc1 (word4 0x46 0 0 0)
  | .reform => enc1 (word4 0x47 0 0 0)
  | .spawn d a b => enc1 (word4 0x48 d.enc a.val b.val)
  | .exit => enc1 (word4 0x49 0 0 0)
  | .trap n => enc1 (word4 0x4A 0 0 n.toNat)
  | .brk n => enc1 (word4 0x4B 0 0 n.toNat)
  | .yield => enc1 (word4 0x4C 0 0 0)
  | .sleep n => enc1 (word4 0x4D 0 0 n.toNat)
  | .gwait d a => enc1 (word4 0x4E d.enc a.val 0)
  | .gwaitPoll d a => enc1 (word4 0x4E d.enc a.val 1)
  | .phase s => enc1 (word4 0x4F 0 0 s.enc)
  | .arrive d nb => enc1 (word4 0x50 d.enc nb.val 0)
  | .wait nb b => enc1 (word4 0x51 0 nb.val b.enc)
  | .barOwe d nb b => enc1 (word4 0x52 d.enc nb.val b.val)
  | .barTest p nb b => enc1 (word4 0x53 p.val nb.val b.enc)
  | .hankPush p a b => enc1 (word4 0x54 p.val a.val b.enc)
  | .hankPop d a p => enc1 (word4 0x55 d.val a.val p.val)
  | .hankPopWait d a p => enc1 (word4 0x55 d.val a.val (8 + p.val))
  | .hankSteal d a p => enc1 (word4 0x56 d.val a.val p.val)
  | .hankSize d a => enc1 (word4 0x57 d.val a.val 0)
  | .boundMin a n dv i => encBound 0x58 a false n dv i
  | .boundMinSet a n dv i => encBound 0x58 a true n dv i
  | .boundMax a n dv i => encBound 0x59 a false n dv i
  | .boundMaxSet a n dv i => encBound 0x59 a true n dv i
  | .boundGet d dv i => enc1 (word4 0x5A d.val 0 (boolNat dv * 16 + i.val))
  | .regclaim n => enc1 (word4 0x5B 0 0 n.toNat)
  | .regrel n => enc1 (word4 0x5C 0 0 n.toNat)
  | .chpoll d c => enc1 (word4 0x5D d.enc c.val 0)
  | .wSend a b => enc1 (word4 0x5E 0 a.enc b.val)
  | .wRecv d => enc1 (word4 0x5F d.val 0 0)
  | .sadd d a b => enc1 (word4 0x80 d.enc a.enc b.enc)
  | .ssub d a b => enc1 (word4 0x81 d.enc a.enc b.enc)
  | .sand d a b => enc1 (word4 0x82 d.enc a.enc b.enc)
  | .sor d a b => enc1 (word4 0x83 d.enc a.enc b.enc)
  | .sxor d a b => enc1 (word4 0x84 d.enc a.enc b.enc)
  | .sshl d a b => enc1 (word4 0x85 d.enc a.enc b.enc)
  | .sshr d a b => enc1 (word4 0x86 d.enc a.enc b.enc)
  | .smov d a => enc1 (word4 0x87 d.enc a.enc 0)
  | .smovi d i => enc1 (word4 0x88 d.enc (i.toNat / 256) (i.toNat % 256))
  | .smovh d i => enc1 (word4 0x89 d.val (i.toNat / 256) (i.toNat % 256))
  | .sbr c k o => enc1 (BitVec.ofNat 32 (0x8A * 2 ^ 24 + c.enc * 2 ^ 21 + k.val * 2 ^ 15 + o.toNat))
  | .rdsr d sr => enc1 (word4 0x8B d.enc sr.toNat 0)
  | .wrsr sr a => enc1 (word4 0x8C 0 sr.toNat a.enc)
  | .barInit nb a k => enc1 (word4 0x8D nb.val a.val k.enc)
  | .hankInit a b => enc1 (word4 0x8E 0 a.val b.val)
  | .chbind c a => enc1 (word4 0x8F c.val a.val 0)
  | .chfree c => enc1 (word4 0x90 c.val 0 0)
  | .guardSet g a => enc1 (word4 0x91 g.val a.val 0)
  | .mxAcquire => enc1 (word4 0x92 0 0 0)
  | .mxRelease => enc1 (word4 0x93 0 0 0)
  | .mxIssue a => enc1 (word4 0x94 0 a.val 0)
  | .accAlloc d a => enc1 (word4 0x95 d.val a.val 0)
  | .accFree a => enc1 (word4 0x96 0 a.val 0)
  | .accZero a => enc1 (word4 0x97 0 a.val 0)
  | .accDrain a b => enc1 (word4 0x98 0 a.val b.val)
  | .accPack a b => enc1 (word4 0x99 0 a.val b.val)
  | .xfer d a b => enc1 (word4 0x9A d.val a.val b.val)
  | .xferMc d a b => enc1 (word4 0x9B d.val a.val b.val)
  | .bufDecl a => enc1 (word4 0x9C 0 a.val 0)
  | .bufSet n s => enc1 (word4 0x9D n.val 0 s.enc)
  | .cardOpenX a => enc1 (word4 0x9E 0 a.val 0)
  | .cardOpenM a => enc1 (word4 0x9F 0 a.val 0)
  | .cardSplit a => enc1 (word4 0xA0 0 a.val 0)
  | .cardSave a => enc1 (word4 0xA1 0 a.val 0)
  | .cardRestore a => enc1 (word4 0xA2 0 a.val 0)
  | .cardClose => enc1 (word4 0xA3 0 0 0)
  | .sfUnbind a => enc1 (word4 0xA4 0 a.val 0)
  | .ctxsave d a b => enc1 (word4 0xA5 d.val a.val b.val)
  | .ctxload d a b => enc1 (word4 0xA6 d.val a.val b.val)
  | .tsync => enc1 (word4 0xA7 0 0 0)
  | .replay => enc1 (word4 0xA8 0 0 0)
  | .idle d a => enc1 (word4 0xA9 d.val a.val 0)
  | .halt => enc1 (word4 0xAA 0 0 0)
  | .errack a b => enc1 (word4 0xAB 0 a.val b.val)
  | .add f d a b => encXC3 0x00 f d a b
  | .sub f d a b => encXC3 0x01 f d a b
  | .mul f d a b => encXC3 0x02 f d a b
  | .mulh f d a b => encXC3 0x03 f d a b
  | .div f d a b => encXC3 0x04 f d a b
  | .rem f d a b => encXC3 0x05 f d a b
  | .min f d a b => encXC3 0x06 f d a b
  | .max f d a b => encXC3 0x07 f d a b
  | .abs f d a => encXC2 0x08 f d a
  | .neg f d a => encXC2 0x09 f d a
  | .absd f d a b => encXC3 0x0A f d a b
  | .sqrt f d a => encXC2 0x0B f d a
  | .fma f d a b c => encXC4 0x0C f d a b c
  | .mad f d a b c => encXC4 0x0D f d a b c
  | .madw f d a b c => encXC4 0x0E f d a b c
  | .scalb f d a b => encXC3 0x0F f d a b
  | .rnd f d a => encXC2 0x10 f d a
  | .cvt f d a =>
    encPair (word4 0x70 d.enc a.enc 0) (word2 0x11 f.rc.enc f.dst.enc
      (f.src.enc * 2 ^ 12 + f.spk.enc * 2 ^ 10 + f.dpk.enc * 2 ^ 8 + f.dst.flag * 2 ^ 7 + f.src.flag * 2 ^ 6))
  | .pack t d a b => encPair (word4 0x70 d.enc a.enc b.enc) (word2 0x12 0 t.enc (t.packOf.enc * 2 ^ 14))
  | .unpack t d a => encPair (word4 0x70 d.enc a.enc 0) (word2 0x13 0 t.enc (t.packOf.enc * 2 ^ 14))
  | .cmp c t p a b => encPair (word4 0x70 p.val a.enc b.enc) (word2 0x14 0 t.enc c.enc)
  | .sel t p n d a b => encPair (word4 0x70 d.enc a.enc b.enc) (word2 0x15 0 t.enc (boolNat n * 8 + p.val))
  | .lea s o sh d a b =>
    encPair (word4 0x70 d.enc a.enc b.enc) (word2 0x16 0 (encSigned s) (o.toNat * 4 + sh.val))
  | .bfe s p l d a => encPair (word4 0x70 d.enc a.enc 0) (word2 0x17 0 (encSigned s) (l.toNat * 32 + p.toNat))
  | .bfi p l d a b => encPair (word4 0x70 d.enc a.enc b.enc) (word2 0x18 0 6 (l.toNat * 32 + p.toNat))
  | .fsh d a b c => encPair (word4 0x70 d.enc a.enc b.enc) (word2 0x19 0 6 c.enc)
  | .lscan op e t rc d a =>
    encPair (word4 0x70 d.enc a.enc 0) (word2 0x1A rc.enc t.enc (boolNat e * 16 + op.enc))
  | .lred op t rc d a => encPair (word4 0x70 d.enc a.enc 0) (word2 0x1B rc.enc t.enc op.enc)
  | .ld t d m => encMem 0x1C t d.enc m
  | .st t v m => encMem 0x1D t v.enc m
  | .gld t d m => encMem 0x1E t d.enc m
  | .gst t v m => encMem 0x1F t v.enc m
  | .atomXchg t sc o d m => encAtom 0 t sc o d m
  | .atomAdd t sc o d m => encAtom 1 t sc o d m
  | .atomAnd t sc o d m => encAtom 2 t sc o d m
  | .atomOr t sc o d m => encAtom 3 t sc o d m
  | .atomXor t sc o d m => encAtom 4 t sc o d m
  | .atomMin t sc o d m => encAtom 5 t sc o d m
  | .atomMax t sc o d m => encAtom 6 t sc o d m
  | .atomLd t sc o d m => encAtom 7 t sc o d m
  | .atomSt t sc o d m => encAtom 8 t sc o d m
  | .cas t sc o d a b c =>
    encPair (word4 0x71 d.val a.val b.val) (word2 0x01 (sc.enc * 4 + o.enc) t.enc c.val)
  | .pfch t m => encPair (word4 0x71 0 m.base.val m.encB) (word2 0x02 0 t.enc m.encLo)
  | .wHop a => encPair (word4 0x71 0 a.enc 0) (word2 0x03 0 0 0)
  | .wEmit a n => encPair (word4 0x71 0 a.val 0) (word2 0x04 0 0 n.val)
  | .wDist d a q => encPair (word4 0x71 d.val a.val 0) (word2 0x05 0 0 q.val)
  | .wHeap p a h => encPair (word4 0x71 p.val a.val 0) (word2 0x06 0 0 h.val)
  | .wVisit p a t => encPair (word4 0x71 p.val a.enc 0) (word2 0x07 0 0 t.val)
  | .launch d a => encUPage 0x00 0 0 d.val a.val 0
  | .xferTr t cf d a b => encUPage 0x01 t.enc cf.toNat d.val a.val b.val
  | .cgLaunch cf a b => encUPage 0x02 0 cf.toNat 0 a.val b.val
  | .sfLoad f d a => encUPage 0x03 0 f.val d.val a.val 0
  | .sfBind a b => encUPage 0x04 0 0 0 a.val b.val
  | .sfRun cf a b => encUPage 0x05 0 cf.toNat 0 a.val b.val
  | .srchIssue cf a b => encUPage 0x06 0 cf.toNat 0 a.val b.val
  | .srchVer d a => encUPage 0x07 0 0 d.val a.val 0
  | .srchVerRead d a => encUPage 0x07 0 1 d.val a.val 0
  | .collStart cf a => encUPage 0x08 0 cf.toNat 0 a.val 0
  | .tlbinvAll => encUPage 0x09 0 0 0 0 0
  | .tlbinvAsid a => encUPage 0x09 0 1 0 a.val 0
  | .tlbinvVa a b => encUPage 0x09 0 2 0 a.val b.val
  | .dirReclaim a b => encUPage 0x0A 0 0 0 a.val b.val
  | .keyselLoad a b => encUPage 0x0B 0 0 0 a.val b.val
  | .keyselErase a b => encUPage 0x0B 0 0 0 a.val b.val
  | _ => none

end Sys2Proof
end

