-- ==== Sys2Proof/Machine/Uniform.lean ====
section
/-!
DEFINITION. Uniform instructions: scalar arithmetic, the uniform branch, special registers, and the supervisor
instructions but for the team context switch (spec/10_uniform_and_system_instructions.md, R288 to R305).
-/
namespace Sys2Proof.Machine

/-! ### Scalar arithmetic (R290) -/

/-- A scalar result of two sources. -/
def State.scalar2 (s : State) (d : UDst) (a b : USrc) (f : DWord → DWord → DWord) : State :=
  s.runU [a, b] (some d) (fun s vs => (s, { res := some (f (vs.getD 0 0) (vs.getD 1 0)) }))

/-- `sadd` (R290). -/
def execSadd (d : UDst) (a b : USrc) (s : State) : Host.Outcome State Fault Refusal := .next (s.scalar2 d a b (· + ·))
/-- `ssub` (R290). -/
def execSsub (d : UDst) (a b : USrc) (s : State) : Host.Outcome State Fault Refusal := .next (s.scalar2 d a b (· - ·))
/-- `sand` (R290). -/
def execSand (d : UDst) (a b : USrc) (s : State) : Host.Outcome State Fault Refusal := .next (s.scalar2 d a b (· &&& ·))
/-- `sor` (R290). -/
def execSor (d : UDst) (a b : USrc) (s : State) : Host.Outcome State Fault Refusal := .next (s.scalar2 d a b (· ||| ·))
/-- `sxor` (R290). -/
def execSxor (d : UDst) (a b : USrc) (s : State) : Host.Outcome State Fault Refusal := .next (s.scalar2 d a b (· ^^^ ·))
/-- `sshl` (R290): 0 for 64 and above. -/
def execSshl (d : UDst) (a b : USrc) (s : State) : Host.Outcome State Fault Refusal :=
  .next (s.scalar2 d a b (fun x y => if 64 ≤ y.toNat then 0 else x <<< y.toNat))
/-- `sshr` (R290): 0 for 64 and above. -/
def execSshr (d : UDst) (a b : USrc) (s : State) : Host.Outcome State Fault Refusal :=
  .next (s.scalar2 d a b (fun x y => if 64 ≤ y.toNat then 0 else x >>> y.toNat))
/-- `smov` (R290). -/
def execSmov (d : UDst) (a : USrc) (s : State) : Host.Outcome State Fault Refusal :=
  .next (s.runU [a] (some d) (fun s vs => (s, { res := some (vs.getD 0 0) })))
/-- `smovi` (R290). -/
def execSmovi (d : UDst) (i : BitVec 16) (s : State) : Host.Outcome State Fault Refusal :=
  .next (s.runU [] (some d) (fun s _ => (s, { res := some (i.signExtend 64) })))
/-- `smovh` (R290): it reads its destination. -/
def execSmovh (d : Fin 64) (i : BitVec 16) (s : State) : Host.Outcome State Fault Refusal :=
  .next (s.runU [.k d] (some (.k d)) (fun s vs => (s, { res := some ((vs.getD 0 0 <<< 16) ||| i.setWidth 64) })))

/-- The tests of `sbr` (R139, R291). -/
def scondHolds (c : SCond) (v : DWord) : Bool :=
  match c with
  | .always => true
  | .z => v == 0
  | .nz => v != 0
  | .lt => v.slt 0
  | .ge => !v.slt 0
  | .gt => decide (0 < v.toInt)
  | .le => !decide (0 < v.toInt)

/-- `sbr` (R291): the whole gang takes one next pc. -/
def execSbr (c : SCond) (k : Fin 64) (off : BitVec 15) (s : State) : Host.Outcome State Fault Refusal :=
  .next (s.runU [.k k] none (fun s vs =>
    (s, { next := if scondHolds c (vs.getD 0 0) then .goto (branchTarget s.sys.issue.pc off.toInt) else .adv })))

/-! ### Special registers (R145, R146, R292 to R294) -/

def State.isSup (s : State) (t : TeamId) : Bool := (s.team t).any (·.sup)

/-- The supervisor registers of R294. -/
def svAssigned (n : Nat) : Bool := (0x80 ≤ n && n ≤ 0x84) || n == 0x90 || n == 0x91

/-- The residency slots of a core whose team satisfies a predicate, as a mask. -/
def State.slotMask (s : State) (c : Nat) (p : Team → Bool) : Nat :=
  maskOf ((s.teams.filter (fun x => x.1.1 = c && p x.2)).map (·.1.2))

/-- The value of a special register read by a thread (R145, R294). -/
def State.readSr (s : State) (w : Who) (n : Nat) : DWord :=
  let id := s.teamIdOf w
  let t := (s.team id).getD { grid := 0, index := 0, size := 0, gridSize := 0 }
  let th := (s.thread w).getD {}
  let c := s.core id.1
  match n with
  | 0x00 => dw (whoTid w)
  | 0x01 => dw th.lane
  | 0x02 => dw t.index
  | 0x03 => dw t.size
  | 0x04 => dw t.gridSize
  | 0x05 => dw id.1
  | 0x06 => dw (id.1 / 8)
  | 0x07 => dw s.dom.dev
  | 0x08 => dw skeinWidth
  | 0x09 => dw t.depth
  | 0x0A => dw t.cls
  | 0x0B => dw s.now
  | 0x0C => t.fmode.setWidth 64
  | 0x0D => th.fflags.setWidth 64
  | 0x0E => dw c.free
  | 0x0F => dw th.holding
  | 0x10 => dw (s.poolWaiting id.1)
  | 0x11 => dw t.tileBase
  | 0x12 => dw t.tileSize
  | 0x13 => dw c.drawtime
  | 0x14 => dw c.starve
  | 0x18 => th.trap.code.setWidth 64
  | 0x19 => th.trap.op.setWidth 64
  | 0x1A => th.trap.d.setWidth 64
  | 0x1B => th.trap.a.setWidth 64
  | 0x1C => th.trap.b.setWidth 64
  | 0x1D => th.trap.imm.setWidth 64
  | 0x1E => th.trap.pc
  | 0x80 => dw t.asid
  | 0x81 => dw t.root
  | 0x82 => dw (t.queue + t.prio * 2 ^ 8)
  | 0x83 => dw id.2
  | 0x84 => t.events.setWidth 64
  | 0x90 => dw (s.slotMask id.1 (fun t => !t.saved))
  | 0x91 => dw (s.slotMask id.1 (fun t => t.saved))
  | _ => 0

/-- Read checks of R294: the level first, then the assignment and the even pair of a 64-bit register (R146), which `pairOk` says
the destination can be. -/
def srReadFail (s : State) (t : TeamId) (n : Nat) (pairOk : Bool) : Option Fail :=
  if srSupervisor n then
    if !s.isSup t then some { code := 0x1002 }
    else if svAssigned n && (pairOk || !srWide n) then none else some { code := 0x0101 }
  else none

/-- Write checks of R146 and R294. -/
def srWriteFail (s : State) (t : TeamId) (n : Nat) : Option Fail :=
  if srSupervisor n then
    if !s.isSup t then some { code := 0x1002 } else if n = 0x84 then none else some { code := 0x0101 }
  else if (n = 0x13 ∨ n = 0x14) ∧ !s.isSup t then some { code := 0x1002 }
  else none

/-- A special register written, with its own clamping (R43, R56, R124, R125, R299); all but the thread's own take their value on
the next clk (R293). -/
def State.writeSr (s : State) (w : Who) (rank n : Nat) (v : DWord) : State :=
  let id := s.teamIdOf w
  match n with
  | 0x0C => s.writeFmode id rank v
  | 0x0D => s.modThread w (fun t => { t with fflags := v.setWidth 5 })
  | 0x13 => s.modCore id.1 (fun c => { c with drawtimeNew := some (Nat.max 16 (v.toNat % 2 ^ 16)) })
  | 0x14 => s.modCore id.1 (fun c => { c with starveNew := some (Nat.max 4096 (v.toNat % 2 ^ 24)) })
  | 0x84 => s.modTeam id (fun t => { t with eventsClear := t.eventsClear ||| v.setWidth 4 })
  | _ => s

/-- `rds` (R170). -/
def execRds (d : Dst) (sr : BitVec 8) (s : State) : Host.Outcome State Fault Refusal :=
  .next (s.runPure { dst := some (d, srWide sr.toNat), check := fun s w _ => srReadFail s (s.teamIdOf w) sr.toNat (d.ok true) }
    (fun s l => { res := some (s.readSr l.who sr.toNat) }))

/-- `wrs` (R170); skipped in a run-ahead (R109). -/
def execWrs (sr : BitVec 8) (a : Src) (s : State) : Host.Outcome State Fault Refusal :=
  if s.ahead then .next (s.runPure {} (fun _ _ => {}))
  else .next (s.runSeq { srcs := [(a, false)], check := fun s w _ => srWriteFail s (s.teamIdOf w) sr.toNat }
    (fun s l => (s.writeSr l.who (whoTid l.who + 1) sr.toNat ((l.w 0).setWidth 64), {})))

/-- `rdsr` (R292). The level is checked before any operand (R430); a k register holds 64 bits. -/
def execRdsr (d : UDst) (sr : BitVec 8) (s : State) : Host.Outcome State Fault Refusal :=
  match srReadFail s s.issueTeam sr.toNat true with
  | some f => .next (s.gangRaise f)
  | none => .next (s.runU [] (some d) (fun s _ => (s, { res := some (s.readSr s.leader sr.toNat) })))

/-- `wrsr` (R292, R293); skipped in a run-ahead (R289). The level is checked before any operand (R430). -/
def execWrsr (sr : BitVec 8) (a : USrc) (s : State) : Host.Outcome State Fault Refusal :=
  if s.ahead then .next (s.gangGo (fun t => { t with pc := s.sys.issue.pc + 4 }))
  else
    match srWriteFail s s.issueTeam sr.toNat with
    | some f => .next (s.gangRaise f)
    | none => .next (s.runU [a] none (fun s vs => (s.writeSr s.leader 0 sr.toNat (vs.getD 0 0 &&& 0xFFFFFFFF#64), {})))

/-! ### Memory read by a U-form instruction -/

/-- Bytes a U-form instruction reads as a load by its gang's first thread. -/
inductive URead where
  | ok (bs : List Byte)
  | fault (f : Fail)
  | page (va : Nat)

/-- Reads of n bytes from va on, line by line. -/
def State.uReadGo (s : State) (w : Who) (va : DWord) (n : Nat) : Nat → State × URead
  | 0 => (s, .ok [])
  | fuel + 1 =>
    if n = 0 then (s, .ok []) else
    let k := Nat.min n (64 - va.toNat % 64)
    match s.reach w (s.laneAccess w .load va k 1) with
    | (s, .page v) => (s, .page v)
    | (s, .fault f) => (s, .fault f)
    | (s, .ok tg) =>
      let (s, bs) := s.loadAt w tg k
      match s.uReadGo w (va + dw k) (n - k) fuel with
      | (s, .ok rest) => (s, .ok (bs ++ rest))
      | r => r

/-- A read whose address must be a multiple of `align`. -/
def State.uRead (s : State) (va : DWord) (n align : Nat) : State × URead :=
  if va.toNat % align ≠ 0 then (s, .fault { code := 0x0502, addr := va })
  else s.uReadGo s.leader va n (n / 64 + 2)

/-- A page fault of a U-form instruction's own read: every lane of the gang runs ahead (R108, R429). -/
def State.uPage (s : State) (va : Nat) (d : Option Nat) : State × UOut :=
  let s := s.startRun (s.sys.issue.lanes.map (·.2)) .load va (addGranule [] va false false) []
  (match d with
    | some k => { s with runs := s.runs.map (fun r => if r.id + 1 = s.sys.nextRun then { r with unkKs := addOnce r.unkKs k } else r) }
    | none => s, { next := .gone })

/-! ### Supervisor instructions (R296 to R305) -/

/-- A supervisor instruction: skipped in a run-ahead with its destination unknown (R289), 0x1001 at user level. -/
def State.runSup (s : State) (srcs : List (Fin 64)) (dst : Option (Fin 64)) (act : State → List DWord → State × UOut) : State :=
  let i := s.sys.issue
  if s.ahead then
    (match dst with
      | some d => s.forgetK d.val
      | none => s).gangGo (fun t => { t with pc := i.pc + dw i.len })
  else if !s.isSup s.issueTeam then s.gangRaise { code := 0x1001 }
  else s.runU (srcs.map .k) (dst.map .k) act

/-- The issuing skein stalls until the instruction's completion step (R296). -/
def stallForCompletion : UOut := { next := .stay, stall := .completion }

/-- Every gather request of the device performed. -/
def State.flushGathers (s : State) : State :=
  s.cores.foldl (fun s c => ((s.core c.1).gather.filter (fun (g : GatherReq) => g.waiting)).foldl
    (fun (s : State) (g : GatherReq) => if (s.core c.1).gather.contains g then s.gatherGroup c.1 g else s) s) s

/-- The writes that engines and walks have made and not yet released take their places at their homes: later writes come after
them (R81), and no load returns them before their release (R82, R88). -/
def State.settleWrites (s : State) : State :=
  let at_ (h : Option Nat) : Option Nat := h.or (some s.mem.seq)
  let cmds := s.cmds.map (fun c => { c with writes := c.writes.map (fun x => { x with home := at_ x.home }) })
  let dies : Table Nat SearchDie := s.dies.map (fun d => (d.1, { d.2 with blocks := d.2.blocks.map (fun b =>
    { b with stores := b.stores.map (fun p => { p with home := at_ p.home }) }) }))
  { s with cmds, dies }

/-- Every access that has been issued is performed: those of the gather collectors, the held-back stores, and the writes of
engines and walks (R101, R298, R305). -/
def State.performAll (s : State) : State := (s.flushGathers.performStores (fun _ => true)).settleWrites

/-- `tsync` (R111, R297): the gang's stores go home; TSYNC_COMPLETE follows. -/
def execTsync (s : State) : Host.Outcome State Fault Refusal :=
  .next (s.runSup [] none (fun s _ =>
    let s := s.sys.issue.lanes.foldl (fun s l => (s.flushGather l.2).drainOf l.2) s
    (s.due [.tsyncComplete s.sys.issue.core s.sys.issue.ctx s.sys.issue.pc], stallForCompletion)))

/-- TSYNC_COMPLETE: the walk cache has dropped every entry (R111). -/
def execTsyncComplete (core ctx : Nat) (pc : DWord) (s : State) : Host.Outcome State Fault Refusal :=
  .next ((s.setMem { s.mem with walkCache := [] }).passAll (s.completing core ctx pc) 4)

/-- Translations dropped from every TLB, and table entries from the walk cache (R101, R298). -/
def State.dropTranslations (s : State) (p : TlbEntry → Bool) (q : Nat → Bool) : State :=
  s.setMem { s.mem with tlbs := s.mem.tlbs.map (fun u => (u.1, u.2.filter (fun e => !p e))),
                        walkCache := s.mem.walkCache.filter (fun c => !q c.1),
                        walkQueue := s.mem.walkQueue.filter (fun c => !q c.2.1) }

/-- An invalidation: the translations are dropped, and the instruction completes once every access that used them has been
performed (R101, R298). -/
def State.tlbinv (s : State) (p : TlbEntry → Bool) (q : Nat → Bool) : State × UOut :=
  ((s.dropTranslations p q).due [.tlbinvComplete s.sys.issue.core s.sys.issue.ctx s.sys.issue.pc], stallForCompletion)

/-- `tlbinv.all` (R298). -/
def execTlbinvAll (s : State) : Host.Outcome State Fault Refusal :=
  .next (s.runSup [] none (fun s _ => s.tlbinv (fun _ => true) (fun _ => true)))

/-- `tlbinv.asid` (R298). -/
def execTlbinvAsid (a : Fin 64) (s : State) : Host.Outcome State Fault Refusal :=
  .next (s.runSup [a] none (fun s vs =>
    let v := vs.getD 0 0
    if dfield v 63 16 ≠ 0 then (s, { fault := some { code := 0x0207 } })
    else s.tlbinv (fun e => e.asid = dfield v 15 0) (fun x => x = dfield v 15 0)))

/-- `tlbinv.va` (R298). -/
def execTlbinvVa (a b : Fin 64) (s : State) : Host.Outcome State Fault Refusal :=
  .next (s.runSup [a, b] none (fun s vs =>
    let v := vs.getD 0 0
    let va := vs.getD 1 0
    if dfield v 63 16 ≠ 0 then (s, { fault := some { code := 0x0207 } })
    else if !canonical va then (s, { fault := some { code := 0x0501, addr := va } })
    else s.tlbinv (fun e => e.asid = dfield v 15 0 && e.base = va.toNat % 2 ^ 57 / 2 ^ e.log) (fun x => x = dfield v 15 0)))

/-- TLBINV_COMPLETE: every access that used the dropped translations has been performed (R101, R298). -/
def execTlbinvComplete (core ctx : Nat) (pc : DWord) (s : State) : Host.Outcome State Fault Refusal :=
  .next (s.performAll.passAll (s.completing core ctx pc) 8)

/-- A parked thread that `replay` readies (R112, R459). -/
def Thread.replayed (t : Thread) (now : Nat) : Thread :=
  if t.state = .parked then { t with state := .ready, retried := true, readySince := now } else t

/-- A parked search block retried (R482). -/
def Block.replayed (b : Block) : Block := if b.parked then { b with parked := false, retried := true } else b

/-- A held command retried (R457). -/
def Cmd.replayed (c : Cmd) : Cmd := if c.holdVa.isSome then { c with waitReplay := false, retried := true } else c

/-- A held carder retried, as a held command is (R457). -/
def Carder.replayed (k : Carder) : Carder := if k.held.isSome then { k with held := none, retried := true } else k

/-- The stretches of R446 of the objects that parked threads may signal start again at the replay (R460). -/
def restartBars (now : Nat) (bs : Table Nat Bar) : Table Nat Bar := bs.map (fun b => (b.1, { b.2 with lastOp := now }))
def restartChans (now : Nat) (cs : Table Nat Chan) : Table Nat Chan := cs.map (fun c => (c.1, { c.2 with lastOp := now }))

def State.restartStretches (s : State) : State :=
  let parked := ((s.threads.filter (fun (p : Who × Thread) => p.2.state = .parked)).map (fun p => s.teamIdOf p.1)).foldl addOnce []
  let grids := (parked.filterMap (fun t => (s.team t).map (·.grid))).foldl addOnce []
  let s := parked.foldl (fun (s : State) t => s.modTeam t (fun x => { x with bars := restartBars s.now x.bars, chans := restartChans s.now x.chans })) s
  let s := grids.foldl (fun (s : State) g =>
    s.modGrid g (fun x => { x with gangBars := restartBars s.now x.gangBars, gangChans := restartChans s.now x.gangChans })) s
  let waits (a : Nat) : Bool := s.threads.any (fun (p : Who × Thread) => p.2.state = .blocked (.hank a) && parked.contains (s.teamIdOf p.1))
  { s with hanks := s.hanks.map (fun h => (h.1, if waits h.1 then { h.2 with lastOp := s.now } else h.2)) }

/-- The one instant of `replay` (R112): parked threads, held commands, held launches and parked blocks are retried; saved
teams' parked threads are readied in their image (R301). -/
def State.replayNow (s : State) : State :=
  let s := s.restartStretches
  let cs := (s.threads.filter (fun (p : Who × Thread) => p.2.state = .parked)).map (fun p => s.coreOf p.1)
  let ts : Table Who Thread := s.threads.map (fun p => (p.1, p.2.replayed s.now))
  let saved : Table TeamId Team := s.teams.map (fun p => (p.1, { p.2 with replayed := p.2.replayed || p.2.saved }))
  let dies : Table Nat SearchDie := s.dies.map (fun p => (p.1, { p.2 with blocks := p.2.blocks.map Block.replayed }))
  let cores : Table Nat Core := s.cores.map (fun p => (p.1, { p.2 with carder := p.2.carder.map Carder.replayed }))
  let s := { s with threads := ts, cores := cores, cmds := s.cmds.map Cmd.replayed, teams := saved, dies := dies }
  let s := cs.foldl State.wakeCore s
  let held := s.front.grids.filter (fun (g : Nat × Grid) => g.2.state = .held)
  held.foldl (fun (s : State) g => (s.modGrid g.1 (fun x => { x with retry := true, retried := true })).due [.extentTranslation g.1]) s

/-- `replay` (R112, R297). -/
def execReplay (s : State) : Host.Outcome State Fault Refusal := .next (s.runSup [] none (fun s _ => (s.replayNow, {})))

/-- `idle kD, kA` (R299). The interval starts at the first issue; a later issue of the same wait only tests the latch. -/
def execIdle (d a : Fin 64) (s : State) : Host.Outcome State Fault Refusal :=
  .next (s.runSup [a] (some d) (fun s vs =>
    let v := vs.getD 0 0
    let t := s.issueTeam
    let mask : BitVec 4 := v.setWidth 4
    if dfield v 15 4 ≠ 0 ∨ dfield v 63 40 ≠ 0 then (s, { fault := some { code := 0x0207 } })
    else
      let again := (s.thread s.leader).any (·.idling)
      let n := dfield v 39 16
      let s := if again || !mask.getLsbD 3 then s
        else if n = 0 then s.modTeam t (fun x => { x with events := x.events ||| 8#4 })
        else s.modTeam t (fun x => { x with timers := x.timers ++ [s.now + n] })
      let hit := (((s.team t).map (·.events)).getD 0) &&& mask
      if hit = 0 then (s.gangGo (fun x => { x with idling := true }), { next := .stay, stall := .events mask })
      else ((s.modTeam t (fun x => { x with events := x.events &&& ~~~hit })).gangGo (fun x => { x with idling := false }),
            { res := some (hit.setWidth 64) })))

/-- IDLE_TIMER: an interval of the team has expired (R299). -/
def execIdleTimer (core slot : Nat) (s : State) : Host.Outcome State Fault Refusal :=
  .next (s.modTeam (core, slot) (fun t =>
    if t.timers.any (· ≤ s.now) then
      { t with timers := t.timers.filter (fun c => decide (s.now < c)), events := t.events ||| 8#4 } else t))

/-- `halt` (R300): issue on the core stops after it; run-ahead lane sets roll back and park. -/
def execHalt (s : State) : Host.Outcome State Fault Refusal :=
  .next (s.runSup [] none (fun s _ =>
    let c := s.sys.issue.core
    let s := (s.runs.filter (fun r => r.core = c)).foldl (fun s r => s.rollbackRun r.id) s
    (s.modCore c (fun k => { k with halted := true, haltAt := if k.halted then k.haltAt else s.now }), {})))

/-- `errack kA, kB` (R303). -/
def execErrack (a b : Fin 64) (s : State) : Host.Outcome State Fault Refusal :=
  .next (s.runSup [a, b] none (fun s vs =>
    let q := vs.getD 0 0
    let v := vs.getD 1 0
    if dfield q 63 8 ≠ 0 ∨ dfield v 63 32 ≠ 0 then (s, { fault := some { code := 0x0207 } })
    else if 4 ≤ dfield q 7 0 then (s, { fault := some { code := 0x0205 } })
    else match s.ackQueue (dfield q 7 0) (dfield v 31 0) with
      | some s => (s, {})
      | none => (s, { fault := some { code := 0x0207 } })))

/-- `dir.reclaim kA, kB` (R304): an owner-lost line homed here takes new contents at one instant. -/
def execDirReclaim (a b : Fin 64) (s : State) : Host.Outcome State Fault Refusal :=
  .next (s.runSup [a, b] none (fun s vs =>
    let va := vs.getD 0 0
    match s.checkIssue (s.laneAccess s.leader .store va 1 1) with
    | (s, .fault f) => (s, { fault := some f })
    | (s, .page v) => s.uPage v none
    | (s, .ok tg) =>
      if isRemote tg.loc || !tg.line || !s.lineLost tg.loc then (s, { fault := some { code := 0x0D03 } })
      else
        match s.uRead (vs.getD 1 0) 64 1 with
        | (s, .fault f) => (s, { fault := some f })
        | (s, .page v) => s.uPage v none
        | (s, .ok bs) =>
          let ln := tg.loc / 64
          match s.checkHome (s.laneAccess s.leader .store va 64 1) tg with
          | some f => (s, { fault := some f })
          | none =>
            let s := s.write {} tg.key (ln * 64) bs
            let e := s.dirEntry ln
            ((s.setDir ln { waiting := e.waiting }).dirRun ln, {})))

/-- The integrity of a wrapped-key record and its key (R392). -/
def State.unwrapKey (s : State) (bs : List Byte) : Option (BitVec 256) :=
  match s.plat.wrapKey with
  | some k =>
    if numOfBytes (bs.take 8) = 1 && (bs.drop 0x30).all (· == 0) then
      Config.unwrap k (BitVec.ofNat 320 (numOfBytes ((bs.drop 8).take 40)))
    else none
  | none => none

/-- A key slot changed once every access issued before has been performed (R305); no later load looks behind the change. -/
def State.setKey (s : State) (slot : Nat) (k : Option (BitVec 256)) : State :=
  let s := s.performAll
  match k with
  | some k => s.setMem { s.mem with keys := s.mem.keys.put slot k, hist := [] }
  | none => s.setMem { s.mem with keys := s.mem.keys.del slot, hist := [] }

/-- `keysel` (R305): kA[7:6] names the operation, so one encoding serves both; slot 0 is the firmware's. -/
def State.keysel (s : State) (a b : Fin 64) : State :=
  s.runSup [a, b] none (fun s vs =>
    let v := vs.getD 0 0
    let slot := dfield v 5 0
    if slot = 0 then (s, { fault := some { code := 0x1003 } })
    else if dfield v 63 8 ≠ 0 ∨ 1 < dfield v 7 6 ∨ (dfield v 7 6 = 1 ∧ vs.getD 1 0 ≠ 0) then (s, { fault := some { code := 0x0207 } })
    else if dfield v 7 6 = 1 then (s.setKey slot none, {})
    else
      match s.uRead (vs.getD 1 0) 128 1 with
      | (s, .fault f) => (s, { fault := some f })
      | (s, .page va) => s.uPage va none
      | (s, .ok bs) =>
        match s.unwrapKey bs with
        | some k => (s.setKey slot (some k), {})
        | none => (s, { fault := some { code := 0x1003 } }))

/-- `keysel` with the load operation (R305). -/
def execKeyselLoad (a b : Fin 64) (s : State) : Host.Outcome State Fault Refusal := .next (s.keysel a b)
/-- `keysel` with the erase operation (R305). -/
def execKeyselErase (a b : Fin 64) (s : State) : Host.Outcome State Fault Refusal := .next (s.keysel a b)

end Sys2Proof.Machine
end

