-- ==== Sys2Proof/Machine/Engines.lean ====
section
/-!
DEFINITION. Engine commands: the completion field and guards (R239 to R245), the checks at issue (R241, R451), buffers at
the head of a queue (R242), the engine's reads and writes (R87, R88, R424, R450), settlement (R243, R467), declared
buffers and guard slots (R246, R247), and the copy engine (R262 to R264).
-/
namespace Sys2Proof.Machine

/-! ### Completion fields (R240) -/

def cfOf (x : Nat) : CompField :=
  { rel := x / 1024 % 2 = 1, guard := if x / 256 % 2 = 1 then some (x / 32 % 8, x / 512 % 2 = 1) else none,
    arrive := if x / 16 % 2 = 1 then some (x % 16) else none }

/-- The kind of a command as `cgn.kind` codes it (R265, R471); it has no code for a graph or a round (log entry 22). -/
def CmdOp.kind : CmdOp → Nat
  | .xfer .. => 1 | .xferMc .. => 2 | .xferTr .. => 3 | .mx _ => 4 | .accZero .. => 5 | .accDrain .. => 6
  | .accPack .. => 7 | .sfRun .. => 8 | .search .. => 9 | .coll _ => Config.collKind.toNat | .graph _ => Config.graphKind.toNat

/-- A team's command, as it enters its queue. -/
def State.mkCmd (s : State) (t : TeamId) (e : Engine) (op : CmdOp) (cf : CompField) : Cmd :=
  { id := s.sys.nextCmd, engine := e, team := t, tag := s.tagOf t, asid := ((s.team t).map (·.asid)).getD 0,
    grid := ((s.team t).map (·.grid)).getD 0, op, cf, acq := s.mem.seq }

/-! ### Addresses and ranges of a command -/

/-- An engine's access for a command: translated as an access of the issuing core (R106, R107, R262). -/
def State.engAccess (s : State) (c : Cmd) (kind : AccKind) (va : DWord) (n : Nat) : Access :=
  { core := c.team.1, team := c.team, unit := .core c.team.1, asid := c.asid,
    root := ((s.team c.team).map (·.root)).getD (((s.grid c.grid).map (·.root)).getD 0), grid := some c.grid,
    user := !(match s.team c.team with
      | some v => v.sup
      | none => (s.grid c.grid).any (·.sup)), kind, va, size := n, align := 1 }

/-- A range that a command reads or writes: virtual, or a place in a tile slice with the offset it was named by. -/
inductive Rng where
  | va (a : DWord) (n : Nat)
  | tile (loc n : Nat) (off : DWord)
deriving DecidableEq, Repr

/-- A range cut at 64 KiB boundaries, the smallest leaf (R96). -/
def pagesGo : Nat → DWord → Nat → List (DWord × Nat)
  | 0, _, _ => []
  | fuel + 1, va, n =>
    if n = 0 then [] else
    let k := Nat.min n (65536 - va.toNat % 65536)
    (va, k) :: pagesGo fuel (va + dw k) (n - k)

def pagesOf (va : DWord) (n : Nat) : List (DWord × Nat) := pagesGo (n / 65536 + 2) va n

/-- A piece of a range at its location. -/
structure Piece where
  va : DWord
  loc : Nat
  n : Nat

/-- The pieces of a command's ranges that are mapped now. -/
def State.pieces (s : State) (c : Cmd) (kind : AccKind) (rs : List Rng) : List Piece :=
  rs.flatMap fun r => match r with
    | .tile l n o => [{ va := o, loc := l, n }]
    | .va a n => (pagesOf a n).filterMap fun p =>
        match (s.checkIssue (s.engAccess c kind p.1 p.2)).2 with
        | .ok t => some { va := p.1, loc := t.loc, n := p.2 }
        | _ => none

/-- The core's team of the issuer's team gang (R263). -/
def State.gangTeamOn (s : State) (t : TeamId) (core : Nat) : Option TeamId :=
  match s.team t with
  | some v =>
    if s.isGang t then ((s.teams.filter (fun p => p.2.grid = v.grid && p.1.1 = core)).map (·.1)).head? else none
  | none => none

/-- The cores that a mask of R263 names. -/
def maskCores (core mask : Nat) : List Nat := ((List.range 8).filter (fun i => mask.testBit i)).map (fun i => core / 8 * 8 + i)

/-- Where an `xfer.mc` writes, one place for each receiver. -/
def State.mcPlaces (s : State) (t : TeamId) (off mask : Nat) : List Nat :=
  (maskCores t.1 mask).filterMap fun c =>
    ((s.gangTeamOn t c).bind s.team).map (fun v => Config.tileBase + c * Config.sliceBytes + v.tileBase + off)

/-- Storage bits of a type (R120). -/
def storageBits (t : Ty) : Nat := t.bits

def bytesFor (count bits : Nat) : Nat := (count * bits + 7) / 8

/-- The fields of R260's control word. -/
def adBank (w : DWord) : Nat := dfield w 8 0
def adCount (w : DWord) : Nat := dfield w 26 9
def adType (w : DWord) : Ty := tyOf (dfield w 30 27)
def adClr (w : DWord) : Bool := dbit w 36
def adInt (w : DWord) : Bool := dbit w 35

/-- The bytes an `acc.drain` writes (R260). -/
def drainBytes (w : DWord) : Nat := bytesFor (adCount w) (storageBits (adType w))
/-- The largest image of an `acc.pack` (R241). -/
def packMax (w : DWord) : Nat :=
  let t := adCount w
  alignUp 64 (8 * t) + 32 * t + t * alignUp 64 (bytesFor 256 (storageBits (adType w)))

/-- The lines of an operand's layout and the elements of one (R251, R252). -/
def MxOp.kStored (o : MxOp) (side : Nat) : Nat := if side = 0 ∧ o.sparse.isSome then o.k / 2 else o.k
def MxOp.outer (o : MxOp) (side : Nat) : Nat := if side = 0 then o.m else o.n
def MxOp.lines (o : MxOp) (side : Nat) (p : MxOperand) : Nat × Nat :=
  if p.tr then (o.kStored side, o.outer side) else (o.outer side, o.kStored side)
def MxOp.blocks (o : MxOp) : Nat := (o.k + 31) / 32

def MxOp.operandRange (o : MxOp) (side : Nat) (p : MxOperand) : List Rng :=
  if p.src = 3 then [] else
  let (l, e) := o.lines side p
  (List.range l).map (fun i => .va (p.addr + dw (i * p.stride)) (bytesFor e (storageBits p.ty)))

def MxOp.scaleRange (o : MxOp) (side : Nat) (p : MxOperand) : List Rng :=
  match p.scale with
  | some a => if p.src = 3 then [] else [.va a (o.outer side * o.blocks)]
  | none => []

/-- The bytes of a round's source and of its result (R356, R378). -/
def CollOp.bytes (r : CollOp) : Nat :=
  match r.ty with
  | some t => r.count * (storageBits t / 8)
  | none => alignUp 64 (16 + 16 * r.k)

/-- The ranges a command reads. -/
def State.srcRanges (s : State) (c : Cmd) : List Rng :=
  match c.op with
  | .xfer _ a n => [.va a n]
  | .xferMc _ a n _ => [.va a n]
  | .xferTr _ a t rows cols _ sstr => (List.range rows).map (fun i => .va (a + dw (i * sstr)) (cols * (storageBits t / 8)))
  | .mx o => o.operandRange 0 o.a ++ o.operandRange 1 o.b ++ o.scaleRange 0 o.a ++ o.scaleRange 1 o.b ++
      (match o.sparse with
        | some m => [.va m (o.m * o.k / 8)]
        | none => [])
  | .sfRun f sl d => match (s.fabs.find (f, sl)).bind (·.bind) with
    | some (a, mem, str, wr) => if wr then [.va d str] else [.va a mem]
    | none => []
  | .coll r => [.va r.src r.bytes]
  | _ => []

/-- The ranges a command writes. -/
def State.dstRanges (s : State) (c : Cmd) : List Rng :=
  match c.op with
  | .xfer d _ n => [.va d n]
  | .xferMc off _ n m => (s.mcPlaces c.team off.toNat m).map (fun l => .tile l n off)
  | .xferTr d _ t rows cols dstr _ => (List.range cols).map (fun j => .va (d + dw (j * dstr)) (rows * (storageBits t / 8)))
  | .accDrain d w => [.va d (drainBytes w)]
  | .accPack d w => [.va d (packMax w)]
  | .sfRun f sl d => match (s.fabs.find (f, sl)).bind (·.bind) with
    | some (a, mem, str, wr) => if wr then [.va a mem] else [.va d str]
    | none => []
  | .search _ _ hs => hs.map (fun h => .va h.2.1 h.2.2)
  | .coll r => [.va r.dst r.bytes]
  | _ => []

/-! ### Checks at issue (R241, R451) -/

/-- The codes of R451 that refuse a command at issue. -/
def refusedAtIssue : List Nat := [0x0501, 0x0504, 0x0505, 0x0506, 0x0705]

def State.rangeFail (s : State) (c : Cmd) (kind : AccKind) (r : Rng) : Option Fail :=
  match r with
  | .tile _ _ _ => none
  | .va a n => (pagesOf a n).findSome? fun p =>
      match (s.checkIssue (s.engAccess c kind p.1 p.2)).2 with
      | .fault f => if refusedAtIssue.contains f.code then some f else none
      | _ => none

/-- The location of a declared buffer. -/
def State.bufLoc (s : State) (r : BufRef) (b : Buf) : Nat :=
  Config.tileBase + r.core * Config.sliceBytes + ((s.team (r.core, r.slot)).map (·.tileBase)).getD 0 + b.off

def overlapLen (a n b m : Nat) : Nat := Nat.min (a + n) (b + m) - Nat.max a b

/-- Whether the pieces hold the whole of a buffer. -/
def State.holdsBuf (s : State) (ps : List Piece) (r : BufRef) (b : Buf) : Bool :=
  sumOf (ps.map (fun p => overlapLen p.loc p.n (s.bufLoc r b) b.size)) == b.size

/-- Whether engines of a command's team may fill a buffer (R73). -/
def engineMay (b : Buf) (r : BufRef) (t : TeamId) : Bool :=
  match b.prod with
  | .any => true
  | .engine => (r.core, r.slot) = t
  | .team => false

/-- Whether every byte of some ranges is mapped now. -/
def State.allMapped (s : State) (c : Cmd) (kind : AccKind) (rs : List Rng) : Bool :=
  rs.all fun r => match r with
    | .tile .. => true
    | .va a n => (pagesOf a n).all fun p => match (s.checkIssue (s.engAccess c kind p.1 p.2)).2 with
        | .ok _ => true
        | _ => false

/-- The refusals of R241 and R227 for one destination. Whether a range with a page that is not mapped yet holds a whole buffer
shows only once it is mapped. -/
def State.destFail (s : State) (c : Cmd) (rs : List Rng) : Option Fail :=
  let ps := s.pieces c .engWrite rs
  ps.findSome? fun p => (s.regionsAt p.loc p.n).findSome? fun r =>
    match r with
    | .busy .. => some (bufFail .engWrite p.va r)
    | .buf ref b =>
      if engineMay b ref c.team && (s.holdsBuf ps ref b || !s.allMapped c .engWrite rs) then none else some (bufFail .engWrite p.va r)

/-- The destinations of a command, each by itself: every `hout` range of a block is one (R241, R345). -/
def State.dests (s : State) (c : Cmd) : List (List Rng) :=
  match c.op with
  | .search .. => (s.dstRanges c).map (fun r => [r])
  | _ => [s.dstRanges c]

def State.srcFail (s : State) (ps : List Piece) : Option Fail :=
  ps.findSome? fun p => (s.regionsAt p.loc p.n).findSome? fun r =>
    match r with
    | .busy .. => some (bufFail .engRead p.va r)
    | .buf .. => none

/-- The memory checks of a command at its issue. -/
def State.cmdRefused (s : State) (c : Cmd) : Option Fail :=
  let src := s.srcRanges c
  let dst := s.dstRanges c
  (src.findSome? (s.rangeFail c .engRead)) <|> (dst.findSome? (s.rangeFail c .engWrite)) <|>
    s.srcFail (s.pieces c .engRead src) <|> (s.dests c).findSome? (s.destFail c)

/-! ### Queues (R239) -/

def engineDepth : Engine → Nat
  | .matrix _ => 16 | .copy _ => 32 | .walker _ => 8 | .fabric _ _ | .round _ => 1 | .search _ => 64

/-- Commands that take a place in a queue: those not yet past its head, and a held one; a graph, a run and a block keep
theirs until they are done. -/
def State.queued (s : State) (e : Engine) : Nat :=
  (s.cmds.filter (fun c => c.engine = e && (match e with
    | .matrix _ | .copy _ => !c.left || c.waitReplay
    | _ => true))).length

/-- Whether a queue has room; a handle that runs, be it for a stream operand, has none (R277). -/
def State.hasRoom (s : State) (e : Engine) : Bool :=
  s.queued e < engineDepth e && (match e with
    | .fabric f k => !(s.fabs.find (f, k)).any (·.run.isSome)
    | _ => true)

/-- The release of a command's issue by every thread of the gang (R78, R241); stores that others have released to the
core's engines are performed with them (R79, R87). -/
def State.issueRelease (s : State) : State :=
  let c := s.sys.issue.core
  let s := s.sys.issue.lanes.foldl (fun s l => (s.flushGather l.2).release l.2 .dom) s
  s.performStores (·.releasedTo c)

/-- A checked command enters its queue; its loads' acquire is at this instant (R87). -/
def State.enqueue (s : State) (c : Cmd) : State :=
  ({ s with cmds := s.cmds ++ [{ c with id := s.sys.nextCmd, acq := s.mem.seq }] }).setSys { s.sys with nextCmd := s.sys.nextCmd + 1 }

/-- What the checks of an engine instruction find: a command, a fault, a page its record meets. -/
inductive Prep where
  | ok (op : CmdOp) (cf : CompField)
  | fail (f : Fail)
  | page (va : Nat)

/-- The issue of an engine instruction: a full queue stalls the skein, with no waited bit (R239). -/
def State.issueCmd (s : State) (e : Engine) (p : Prep) : State × UOut :=
  match p with
  | .fail f => (s, { fault := some f })
  | .page va => s.uPage va none
  | .ok op cf =>
    let c := s.mkCmd s.issueTeam e op cf
    match s.cmdRefused c with
    | some f => (s, { fault := some f })
    | none => if s.hasRoom e then (s.issueRelease.enqueue c, {}) else (s, { next := .stay, stall := .queueRoom e })

/-! ### The head of a queue (R242, R245) -/

/-- A command's guard: none while it is unresolved, else whether the command runs. -/
def State.guardOf (s : State) (c : Cmd) : Option Bool :=
  match c.cf.guard with
  | none => some true
  | some (g, sense) => (((s.team c.team).bind (fun t => t.guards.getD g none))).map (· == sense)

def bufRefs (rs : List Region) : List (BufRef × Buf) :=
  rs.filterMap fun r => match r with
    | .buf ref b => some (ref, b)
    | .busy .. => none

def State.bufsIn (s : State) (ps : List Piece) : List (BufRef × Buf) :=
  (ps.flatMap (fun p => bufRefs (s.regionsAt p.loc p.n))).foldl addOnce []

/-- The key of a multicast operand: source core, address, tile bytes, tag (R253). -/
def State.castKey (s : State) (c : Cmd) (o : MxOp) (side : Nat) (p : MxOperand) : Nat × Nat × Nat × Nat :=
  let (l, e) := o.lines side p
  let loc := match s.pieces c .engRead [.va p.addr 1] with
    | q :: _ => q.loc
    | [] => 0
  (sliceOf loc, loc, l * bytesFor e (storageBits p.ty), p.tag)

/-- Whether a transfer is one under a key. -/
def Multicast.keyed (k : Multicast) (key : Nat × Nat × Nat × Nat) : Bool := (k.core, k.addr, k.bytes, k.tag) == key

/-- Whether a transfer under a key is live with room for one more engine. -/
def Multicast.joins (k : Multicast) (key : Nat × Nat × Nat × Nat) : Bool := k.keyed key && decide (k.presented < k.want)

/-- Whether every chunk of a transfer has entered a holding slot (R253). -/
def Multicast.loaded (k : Multicast) : Bool := decide (k.bytes ≤ k.data.length)

/-- Whether an operand's bytes come from the holding slots of a transfer that has read all of its source: an engine that takes
part in it, or joins it, reads no buffer (R253). -/
def State.fromSlots (s : State) (c : Cmd) (o : MxOp) (side : Nat) (p : MxOperand) : Bool :=
  p.mc && s.casts.any (fun k => k.loaded && k.keyed (s.castKey c o side p) && (k.cmds.contains c.id || decide (k.presented < k.want)))

/-- The operand ranges that a command reads from memory. -/
def State.readRanges (s : State) (c : Cmd) : List Rng :=
  match c.op with
  | .mx o =>
    (if s.fromSlots c o 0 o.a then [] else o.operandRange 0 o.a) ++ (if s.fromSlots c o 1 o.b then [] else o.operandRange 1 o.b) ++
      o.scaleRange 0 o.a ++ o.scaleRange 1 o.b ++ (match o.sparse with
        | some m => [.va m (o.m * o.k / 8)]
        | none => [])
  | _ => s.srcRanges c

/-- The operands of a matrix operation whose source buffers it releases (R251). -/
def State.relRanges (s : State) (c : Cmd) : List Rng :=
  match c.op with
  | .mx o => (if o.a.rel && !s.fromSlots c o 0 o.a then o.operandRange 0 o.a else []) ++
      (if o.b.rel && !s.fromSlots c o 1 o.b then o.operandRange 1 o.b else [])
  | _ => if c.cf.rel then s.srcRanges c else []

/-- The buffers a command fills and releases, where its buffers let it leave the head (R74). -/
def State.headBufs (s : State) (c : Cmd) : Option (List BufRef × List BufRef) :=
  let dst := s.bufsIn (s.pieces c .engWrite (s.dstRanges c))
  let src := s.bufsIn (s.pieces c .engRead (s.readRanges c))
  if dst.all (fun b => b.2.state = .empty) && src.all (fun b => b.2.state = .full || b.2.state = .draining) then
    some (dst.map (·.1), (s.bufsIn (s.pieces c .engRead (s.relRanges c))).map (·.1))
  else none

/-- A command leaves the head: its destinations become filling and its releasing sources draining, on this clk in the issuing
core's slice and on a later one in another's (R75, R76, R242). -/
def State.leaveHead (s : State) (c : Cmd) (dsts rels : List BufRef) : State :=
  let here (r : BufRef) : Bool := r.core == c.team.1
  let s := (dsts.filter here).foldl (fun s r => s.bufSetState r .filling) s
  let s := (rels.filter here).foldl (fun s r => s.bufSetState r .draining) s
  s.modCmd c.id (fun c => { c with left := true, dsts, rels, laterDsts := dsts.filter (fun r => !here r), laterRels := rels.filter (fun r => !here r) })

/-- The changes of one command that reach other slices on this clk: a destination that is not empty any longer is awaited, and
a source that has been emptied meanwhile stays so (R74, R76). -/
def State.arriveBufsOf (s : State) (c : Cmd) : State :=
  let stays (st : BufState) (r : BufRef) : Bool := (s.bufGet r).all (fun b => b.state == st)
  let s := (c.laterDsts.filter (stays .empty)).foldl (fun s r => s.bufSetState r .filling) s
  let s := (c.laterRels.filter (stays .full)).foldl (fun s r => s.bufSetState r .draining) s
  s.modCmd c.id (fun x => { x with laterDsts := c.laterDsts.filter (fun r => !stays .empty r), laterRels := [] })

def State.arriveBufs (s : State) : State :=
  (s.cmds.filter (fun c => !c.laterDsts.isEmpty || !c.laterRels.isEmpty)).foldl State.arriveBufsOf s

/-- Whether a running command may read its sources: none of them stands in a buffer that is empty, or that another fills
(R74). -/
def State.srcReady (s : State) (c : Cmd) : Bool :=
  c.stage != 0 || (s.bufsIn (s.pieces c .engRead (s.readRanges c))).all (fun b =>
    b.2.state = .full || b.2.state = .draining || c.dsts.contains b.1)

/-! ### An engine's own accesses (R87, R88, R424, R450) -/

/-- What one access of an engine comes to. -/
inductive EngRes (α : Type) where
  | ok (a : α)
  | hold (va : Nat)
  | bad (f : Fail)

/-- An engine's access to bytes of one line: steps 1 to 10 of R450, a place in a buffer that the command does not fill,
and the home of a lost device. -/
def State.engLine (s : State) (c : Cmd) (kind : AccKind) (va : DWord) (n : Nat) : State × EngRes Target :=
  match s.checkIssue (s.engAccess c kind va n) with
  | (s, .page v) => (s, .hold v)
  | (s, .fault f) => (s, .bad f)
  | (s, .ok t) =>
    if kind.writes && s.fencedLoc t.loc then
      (s, .bad { code := 0x0F05, addr := dw t.loc, phys := true, info0 := dw kind.num })
    else if isHbm t.loc && (s.mem.keys.find t.key).isNone then (s, .bad { code := 0x1004, addr := va, info0 := dw kind.num })
    else if isRemote t.loc && s.dom.lost.contains (remoteDev t.loc) then
      (s, .bad { code := 0x0F01, addr := va, info1 := dw 0x0D06 })
    else
      match if kind.writes then (s.regionsAt t.loc n).find? (fun r => match r with
          | .busy .. => true
          | .buf ref _ => !c.dsts.contains ref) else none with
      | some r => (s, .bad (bufFail kind va r))
      | none => (s, .ok t)

/-- What a command has written and not yet released, newest first (R88). -/
def State.cmdWrites (s : State) (c : Cmd) : List EngWrite := ((s.cmd c.id).map (·.writes)).getD []

/-- The bytes at an engine's target and whether they are poisoned: a load whose acquire was at the command's issue (R87), over
which its own writes lie; fenced memory reads as poisoned (R414). -/
def State.engFetch (s : State) (c : Cmd) (t : Target) (n : Nat) : State × List Byte × Bool :=
  if isRemote t.loc then
    let (s, bs) := s.freeBytes n
    (s, bs, false)
  else
    let poison := s.fencedLoc t.loc || s.mem.poisoned t.loc n
    let own := (s.cmdWrites c).filter (fun x => meets x.loc x.bytes.length t.loc n)
    let (s, bs, _) := s.viewBytes (fun e => decide (e.key ≠ t.key) || decide (e.seq ≤ c.acq)) none t.key t.loc n
    (s.arrived, own.foldr (fun x bs => lay bs t.loc x.loc x.bytes) bs, poison || own.any (·.poison))

/-- An engine's write within one line, kept until its command completes (R88); bytes that derive from a poisoned line poison it
(R424). -/
def State.engStore (s : State) (c : Cmd) (t : Target) (bs : List Byte) (poison : Bool) : State :=
  if isRemote t.loc then s
  else s.modCmd c.id (fun c => { c with writes := { loc := t.loc, key := t.key, bytes := bs, poison } :: c.writes })

/-- One write of an engine on a core performed at its home. -/
def State.engPerform (s : State) (core : Nat) (x : EngWrite) : State :=
  if s.fencedLoc x.loc then s else
  let s := s.write { core := some core } x.key x.loc x.bytes
  if x.poison then s.setMem (s.mem.poisonLine (x.loc / 64)) else s

/-- Adjoining ranges joined. -/
def joinRange (l : List Seen) (x : Seen) : List Seen :=
  match l with
  | y :: ys => if y.loc + y.n = x.loc then { y with n := y.n + x.n } :: ys else x :: y :: ys
  | [] => [x]

/-- The instant of a command's completion: everything it has written is released together (R88); with the ranges written, which
its arrival releases to the waiters of its barrier (R89). -/
def State.releaseWrites (s : State) (c : Cmd) : State × List Seen :=
  let ws := (s.cmdWrites c).reverse.map (fun x => { x with bytes := s.mem.under x.home x.key x.loc x.bytes })
  let s := ws.foldl (fun (s : State) x => s.engPerform c.team.1 x) (s.modCmd c.id (fun c => { c with writes := [] }))
  (s, ws.foldl (fun l x => joinRange l { loc := x.loc, n := x.bytes.length, seq := s.mem.seq }) [])

/-- Bytes from va on, line by line, with whether any is poisoned. -/
def State.engReadGo (s : State) (c : Cmd) (va : DWord) (n : Nat) : Nat → State × EngRes (List Byte × Bool)
  | 0 => (s, .ok ([], false))
  | fuel + 1 =>
    if n = 0 then (s, .ok ([], false)) else
    let k := Nat.min n (64 - va.toNat % 64)
    match s.engLine c .engRead va k with
    | (s, .hold v) => (s, .hold v)
    | (s, .bad f) => (s, .bad f)
    | (s, .ok t) =>
      let (s, bs, p) := s.engFetch c t k
      match s.engReadGo c (va + dw k) (n - k) fuel with
      | (s, .ok (rest, q)) => (s, .ok (bs ++ rest, p || q))
      | r => r

def State.engRead (s : State) (c : Cmd) (va : DWord) (n : Nat) : State × EngRes (List Byte × Bool) :=
  s.engReadGo c va n (n / 64 + 2)

/-- Bytes written from va on, line by line, each line poisoned where `bad` says so of its bytes' offset and number; the
bytes done are counted, since lines already performed stand (R457, R467). -/
def State.engWriteGo (s : State) (c : Cmd) (va : DWord) (bs : List Byte) (bad : Nat → Nat → Bool) (done : Nat) :
    Nat → State × Nat × EngRes Unit
  | 0 => (s, done, .ok ())
  | fuel + 1 =>
    if bs.length ≤ done then (s, done, .ok ()) else
    let a := va + dw done
    let k := Nat.min (bs.length - done) (64 - a.toNat % 64)
    match s.engLine c .engWrite a k with
    | (s, .hold v) => (s, done, .hold v)
    | (s, .bad f) => (s, done, .bad f)
    | (s, .ok t) => (s.engStore c t ((bs.drop done).take k) (bad done k)).engWriteGo c va bs bad (done + k) fuel

def State.engWrite (s : State) (c : Cmd) (va : DWord) (bs : List Byte) (bad : Nat → Nat → Bool) (done : Nat) :
    State × Nat × EngRes Unit := s.engWriteGo c va bs bad done (bs.length / 64 + 2)

/-- The lines of a range marked poisoned where they can be reached (R467 step 2). -/
def State.poisonRange (s : State) (c : Cmd) (r : Rng) (done : Nat) : State :=
  let ps := s.pieces c .engWrite [r]
  let mark (s : State) (loc n : Nat) : State :=
    if isRemote loc || n = 0 then s else
    (List.range ((loc + n - 1) / 64 - loc / 64 + 1)).foldl (fun (s : State) i =>
      s.setMem (s.mem.poisonLine (loc / 64 + i))) s
  let start : DWord := match r with
    | .va a _ => a
    | .tile _ _ o => o
  ps.foldl (fun (s : State) p =>
    let o := (p.va - start).toNat
    if o + p.n ≤ done then s
    else if done ≤ o then mark s p.loc p.n
    else mark s (p.loc + (done - o)) (p.n - (done - o))) s

/-! ### Settlement (R243, R467) -/

/-- A word of a node, in memory or in the contents a graph record keeps (R265, R320). -/
def State.nodeWord (s : State) (g : Graph) (i : Nat) (off : Nat) : DWord :=
  if g.record.isSome then dwordsOf g.image (64 * i + off) else dw (numOfBytes (s.mem.read 0 (g.loc + 64 * i + off) 8))

/-- A node's count of predecessors not yet finished. -/
def State.nodeCount (s : State) (g : Graph) (i : Nat) : Nat :=
  if g.record.isSome then g.counts.getD i 0 else dfield (s.nodeWord g i 0) 15 0

/-- A node's count written. -/
def State.setCount (s : State) (gid : Nat) (g : Graph) (i n : Nat) : State :=
  if g.record.isSome then { s with graphs := s.graphs.upd gid (fun g => { g with counts := g.counts.set i n }) }
  else s.setMem (s.mem.write 0 (g.loc + 64 * i) (bytesOf 2 n))

/-- A node finishes: the counts of its successors fall, and those that reach 0 become issuable (R266, R321). -/
def State.nodeFinished (s : State) (gid i : Nat) : State :=
  match s.graphs.find gid with
  | none => s
  | some g =>
    let w := s.nodeWord g i 0
    let succ := ((List.range (Nat.min 8 (dfield w 19 16))).map (fun k =>
      dfield (s.nodeWord g i (0x30 + 8 * (k / 4))) (16 * (k % 4) + 15) (16 * (k % 4)))).filter (fun k => k < g.n)
    let s := { s with graphs := s.graphs.put gid { g with finished := g.finished + 1, running := g.running.filter (· != i) } }
    succ.foldl (fun (s : State) k =>
      let n := match s.graphs.find gid with
        | some g => s.nodeCount g k
        | none => 0
      if n = 0 then s else
      let s := s.setCount gid g k (n - 1)
      if n = 1 ∧ !g.dead then
        { s with graphs := s.graphs.upd gid (fun g => { g with ready := g.ready ++ [(s.now, k)] }) } else s) s

/-- A command leaves the machine: multicasts forget it, and its node, if it has one, finishes. -/
def State.retireCmd (s : State) (c : Cmd) : State :=
  let s := { (s.dropCmd c.id) with casts := (s.casts.map (fun k => { k with cmds := k.cmds.filter (· != c.id) })).filter (fun k => !k.cmds.isEmpty) }
  match c.node with
  | some (g, i) => s.nodeFinished g i
  | none => s

/-- A round's completion is a release and an acquire by every participant of the places that its descriptor names (R90): held
back stores to them reach their homes, and what stands there is required for later loads. -/
def State.roundBoundary (s : State) (c : Cmd) : State :=
  match c.op with
  | .coll _ =>
    let ps := s.pieces c .engRead (s.srcRanges c) ++ s.pieces c .engWrite (s.dstRanges c)
    let s := s.performStores (fun p => ps.any (fun x => meets x.loc x.n p.loc p.bytes.length))
    let rs : List Seen := ps.map (fun x => { loc := x.loc, n := x.n, seq := s.mem.seq })
    s.threads.foldl (fun (s : State) p => match p.1 with
      | .lane k _ _ => s.acquireRanges p.1 k rs
      | .walk _ => s) s
  | _ => s

/-- Completion, or steps 4 and 5 of an end: what was written is released, destinations become full, sources still draining
empty, and one arrival is made (R75, R88, R243, R467). -/
def State.settle (s : State) (c : Cmd) (bytes : Nat) : State :=
  let r := s.releaseWrites c
  let s := r.1.roundBoundary c
  let s := c.dsts.foldl (fun s r => s.bufSetState r .full) s
  let s := c.rels.foldl (fun (s : State) r =>
    if (s.bufGet r).any (fun b => b.state = .draining) then s.bufSetState r .empty else s) s
  let s := match c.cf.arrive with
    | some n => s.engineArrive c.team n bytes c.op.kind c.tag r.2
    | none => s
  s.retireCmd c

/-- The record of a command's end (R467 step 6, R471). -/
def State.endRecord (s : State) (c : Cmd) (code : Nat) (addr : DWord) (phys : Bool) (kind index : Nat) (i0 i1 : Nat) : State :=
  s.record { code, sev := 3, kind, index, slot := c.team.2 % 16, asid := c.asid, tag := c.tag, addr, phys, info0 := dw i0, info1 := dw i1 }

/-- What remains of a range of which some bytes are done. -/
def Rng.after (k : Nat) : Rng → Rng
  | .va a n => .va (a + dw k) (n - k)
  | r => r

/-- The ranges that a command has yet to read and to write (R457): `done` counts the bytes of its image or copy, or the rows of a
transposed destination. -/
def State.restRanges (s : State) (c : Cmd) : List Rng × List Rng :=
  let rd := s.srcRanges c
  let wr := s.dstRanges c
  match c.op with
  | .xfer .. | .xferMc .. => (rd.map (Rng.after c.done), wr.map (Rng.after c.done))
  | .xferTr .. => (rd, wr.drop c.done)
  | .accDrain .. | .accPack .. | .sfRun .. | .coll _ => (rd, wr.map (Rng.after c.done))
  | _ => (rd, wr)

/-- The batch entry and record of a hold (R457): the faulting granule and up to 32 more of the command's remaining ranges, in
address order. -/
def State.holdBatch (s : State) (c : Cmd) (va : Nat) (code : Nat) : State :=
  let look (kind : AccKind) (rs : List Rng) : List (Nat × Bool) := rs.flatMap fun r => match r with
    | .tile .. => []
    | .va a n => (pagesOf a n).filterMap fun p =>
        match (s.checkIssue (s.engAccess c kind p.1 1)).2 with
        | .page v => some (v / 65536 * 65536, kind.writes)
        | _ => none
  let reads := look .engRead (s.restRanges c).1
  let rest := reads ++ look .engWrite (s.restRanges c).2
  let g := va / 65536 * 65536
  let writes (g : Nat) : Bool := rest.any (fun x => x.1 = g && x.2)
  let kind : AccKind := if reads.any (fun x => x.1 = g) || !writes g then .engRead else .engWrite
  let more := sortBy (fun (a b : Nat) => decide (a ≤ b)) (rest.map (·.1))
  let gs := more.foldl (fun l x => addGranule l x (writes x) false) (addGranule [] va (writes g) false)
  s.batch { code, core := c.team.1, asid := c.asid, pc := 0, granules := gs.take 33, refault := c.refault, team := some c.team,
            tag := c.tag, index := c.team.1, access := kind.num, addr := dw va }

/-! ### Guard slots and declared buffers (R244 to R247) -/

/-- `guard.set gN, kA` (R244): the set reaches the core's slots on the next clk, ahead of that clk's heads (R245). -/
def execGuardSet (g : Fin 8) (a : Fin 64) (s : State) : Host.Outcome State Fault Refusal :=
  .next (s.runU [.k a] none (fun s vs =>
    let v := (vs.getD 0 0).toNat
    if 2 < v then (s, { fault := some { code := 0x0207 } })
    else (s.modTeam s.issueTeam (fun t => { t with guardsNew := t.guardsNew ++ [(g.val, if v = 2 then none else some (v == 1))] }), {})))

/-- A buffer descriptor applied for a team (R73, R246): the fault, or the declaration made, before which the stores issued to
its bytes reach the slice (R76, R79). -/
def State.declareBuffer (s : State) (t : TeamId) (v : DWord) : Except Fail State :=
  let num := dfield v 43 38
  let prod := dfield v 37 36
  let size := 64 * dfield v 35 18
  let off := 64 * dfield v 17 0
  let old := (s.team t).bind (fun x => x.bufs.find num)
  if dfield v 63 44 ≠ 0 ∨ prod = 3 ∨ 64 * 131072 < size then .error { code := 0x0207 }
  else if size = 0 then
    match old with
    | none => .error { code := 0x0205 }
    | some b =>
      if b.state = .empty then .ok (s.modTeam t (fun x => { x with bufs := x.bufs.del num }))
      else .error (bufFail .store 0 (.buf { core := t.1, slot := t.2, num } b))
  else if !s.inReservation t off size then .error { code := 0x0207 }
  else if old.isSome || !s.rangeFree t off size then .error { code := 0x0208 }
  else
    let b : Buf := { off, size, prod := if prod = 0 then .team else if prod = 1 then .engine else .any }
    let base := Config.tileBase + t.1 * Config.sliceBytes + ((s.team t).map (·.tileBase)).getD 0 + off
    .ok ((s.performStores (fun p => meets base size p.loc p.bytes.length)).modTeam t (fun x => { x with bufs := x.bufs.put num b }))

/-- `buf.decl kA` (R246). -/
def execBufDecl (a : Fin 64) (s : State) : Host.Outcome State Fault Refusal :=
  .next (s.runU [.k a] none (fun s vs =>
    match s.declareBuffer s.issueTeam (vs.getD 0 0) with
    | .ok s => (s, {})
    | .error f => (s, { fault := some f })))

/-- The changes of R75 that `buf.set` may make. -/
def bufSetOk (x : BufSetTo) (st : BufState) : Bool :=
  match x with
  | .full => st = .empty
  | .draining => st = .full
  | .empty => st = .full || st = .draining

def bufStateOf : BufSetTo → BufState
  | .empty => .empty | .full => .full | .draining => .draining

/-- `buf.set n, state` (R247): a release and an acquire at dev scope around the change (R78), which reaches the slice on the next
clk, ahead of that clk's accesses (R76). -/
def execBufSet (n : Fin 64) (x : BufSetTo) (s : State) : Host.Outcome State Fault Refusal :=
  .next (s.runU [] none (fun s _ =>
    let t := s.issueTeam
    match (s.team t).bind (fun x => x.bufs.find n.val) with
    | none => (s, { fault := some { code := 0x0205 } })
    | some b =>
      if bufSetOk x b.state then
        let s := s.sys.issue.lanes.foldl (fun (s : State) l => (s.flushGather l.2).release l.2 .dev) s
        (s.sys.issue.lanes.foldl (fun (s : State) l => s.acquire l.2 t.1 .dev)
          (s.modTeam t (fun v => { v with bufsNew := v.bufsNew ++ [(n.val, bufStateOf x)] })), {})
      else (s, { fault := some (bufFail .store 0 (.buf { core := t.1, slot := t.2, num := n.val } b)) })))

/-! ### The copy engine (R262 to R264) -/

/-- The checks of `xfer` (R262). -/
def prepXfer (d a b : DWord) : Prep :=
  let n := dfield b 31 0
  let cf := dfield b 63 48
  if n = 0 ∨ n % 64 ≠ 0 ∨ d.toNat % 64 ≠ 0 ∨ a.toNat % 64 ≠ 0 ∨ dfield b 47 32 ≠ 0 ∨ !cfOk cf ∨
      overlaps d.toNat n a.toNat n then .fail { code := 0x0207 }
  else .ok (.xfer d a n) (cfOf cf)

/-- The checks of `xfer.mc` (R263). -/
def State.prepXferMc (s : State) (t : TeamId) (d a b : DWord) : Prep :=
  let n := dfield b 31 0
  let mask := dfield b 39 32
  let cf := dfield b 63 48
  if mask = 0 ∨ dfield b 47 40 ≠ 0 ∨ !cfOk cf then .fail { code := 0x0207 }
  else if (maskCores t.1 mask).any (fun c => (s.gangTeamOn t c).isNone) then .fail { code := 0x0506, addr := d, info0 := 5 }
  else if (maskCores t.1 mask).any (fun c => ((s.gangTeamOn t c).bind s.team).any (fun v => v.tileSize < d.toNat + n)) then
    .fail { code := 0x0505, addr := d, info0 := 5 }
  else .ok (.xferMc d a n mask) (cfOf cf)

def tileDim (n : Nat) : Nat := 16 * 2 ^ n

/-- The checks of `xfer.tr` (R264). -/
def prepXferTr (t : Ty) (cf : Nat) (d a b : DWord) : Prep :=
  let size := storageBits t / 8
  let cols := tileDim (dfield b 51 50)
  let rows := tileDim (dfield b 49 48)
  let dstr := dfield b 47 24
  let sstr := dfield b 23 0
  if dfield b 63 52 ≠ 0 ∨ dstr < rows * size ∨ sstr < cols * size ∨ dstr % size ≠ 0 ∨ sstr % size ≠ 0 ∨
      d.toNat % size ≠ 0 ∨ a.toNat % size ≠ 0 then .fail { code := 0x0207 }
  else .ok (.xferTr d a t rows cols dstr sstr) (cfOf cf)

/-- `xfer kD, kA, kB` (R262). -/
def execXfer (d a b : Fin 64) (s : State) : Host.Outcome State Fault Refusal :=
  .next (s.runU [.k d, .k a, .k b] none (fun s vs =>
    s.issueCmd (.copy s.sys.issue.core) (prepXfer (vs.getD 0 0) (vs.getD 1 0) (vs.getD 2 0))))

/-- `xfer.mc kD, kA, kB` (R263). -/
def execXferMc (d a b : Fin 64) (s : State) : Host.Outcome State Fault Refusal :=
  .next (s.runU [.k d, .k a, .k b] none (fun s vs =>
    s.issueCmd (.copy s.sys.issue.core) (s.prepXferMc s.issueTeam (vs.getD 0 0) (vs.getD 1 0) (vs.getD 2 0))))

/-- `xfer.tr.T kD, kA, kB` (R264). -/
def execXferTr (t : Ty) (cf : BitVec 16) (d a b : Fin 64) (s : State) : Host.Outcome State Fault Refusal :=
  .next (s.runU [.k d, .k a, .k b] none (fun s vs =>
    s.issueCmd (.copy s.sys.issue.core) (prepXferTr t cf.toNat (vs.getD 0 0) (vs.getD 1 0) (vs.getD 2 0))))

/-- How far a command's run has come. -/
inductive Ran where
  | done (bytes : Nat)
  | hold (va : Nat)
  | bad (f : Fail) (i0 i1 : Nat)
  | wait

def ranOf (r : EngRes Unit) (bytes : Nat) : Ran :=
  match r with
  | .ok _ => .done bytes
  | .hold v => .hold v
  | .bad f => .bad f f.info0.toNat f.info1.toNat

/-- How far a command has written, kept where it holds or ends. -/
def State.setDone (s : State) (c : Cmd) (n : Nat) : State := s.modCmd c.id (fun c => { c with done := n })

/-- A linear copy, piece by piece of the destination's lines. -/
def State.copyGo (s : State) (c : Cmd) (dst src : DWord) (n done : Nat) : Nat → State × Nat × EngRes Unit
  | 0 => (s, done, .ok ())
  | fuel + 1 =>
    if n ≤ done then (s, done, .ok ()) else
    let a := dst + dw done
    let k := Nat.min (n - done) (64 - a.toNat % 64)
    match s.engRead c (src + dw done) k with
    | (s, .hold v) => (s, done, .hold v)
    | (s, .bad f) => (s, done, .bad f)
    | (s, .ok (bs, p)) =>
      match s.engLine c .engWrite a k with
      | (s, .hold v) => (s, done, .hold v)
      | (s, .bad f) => (s, done, .bad f)
      | (s, .ok t) => (s.engStore c t bs p).copyGo c dst src n (done + k) fuel

/-- A multicast copy: each piece is read once and written at every receiver (R263). -/
def State.copyMcGo (s : State) (c : Cmd) (places : List Nat) (off : Nat) (src : DWord) (n done : Nat) : Nat → State × Nat × EngRes Unit
  | 0 => (s, done, .ok ())
  | fuel + 1 =>
    if n ≤ done then (s, done, .ok ()) else
    let k := Nat.min (n - done) (64 - (off + done) % 64)
    match s.engRead c (src + dw done) k with
    | (s, .hold v) => (s, done, .hold v)
    | (s, .bad f) => (s, done, .bad f)
    | (s, .ok (bs, p)) =>
      match places.find? (fun l => s.fencedLoc l) with
      | some l => (s, done, .bad { code := 0x0F05, addr := dw l, phys := true, info0 := 5 })
      | none => (places.foldl (fun (s : State) l => s.engStore c { loc := l + done } bs p) s).copyMcGo c places off src n (done + k) fuel

/-- A byte of a destination element: the high bits of a stored `e3m2` element are 0 (R120). -/
def trByte (t : Ty) (b : Byte) : Byte := if t = .e3m2 then b &&& 0x3F else b

/-- Elements (i, j) of a source column for one destination row (R264). -/
def State.columnGo (s : State) (c : Cmd) (a : DWord) (size sstr : Nat) : Nat → State × EngRes (List Byte × List Bool)
  | 0 => (s, .ok ([], []))
  | rows + 1 =>
    match s.columnGo c a size sstr rows with
    | (s, .ok (bs, ps)) =>
      match s.engRead c (a + dw (rows * sstr)) size with
      | (s, .ok (e, p)) => (s, .ok (bs ++ e, ps ++ List.replicate size p))
      | (s, .hold v) => (s, .hold v)
      | (s, .bad f) => (s, .bad f)
    | r => r

/-- A transposing copy, row by row of the destination; `done` counts rows. -/
def State.transGo (s : State) (c : Cmd) (dst src : DWord) (t : Ty) (rows dstr sstr cols : Nat) (j : Nat) : Nat → State × Nat × EngRes Unit
  | 0 => (s, j, .ok ())
  | fuel + 1 =>
    if cols ≤ j then (s, j, .ok ()) else
    match s.columnGo c (src + dw (j * (storageBits t / 8))) (storageBits t / 8) sstr rows with
    | (s, .hold v) => (s, j, .hold v)
    | (s, .bad f) => (s, j, .bad f)
    | (s, .ok (bs, ps)) =>
      match s.engWrite c (dst + dw (j * dstr)) (bs.map (trByte t)) (fun o k => ((ps.drop o).take k).any id) 0 with
      | (s, _, .hold v) => (s, j, .hold v)
      | (s, _, .bad f) => (s, j, .bad f)
      | (s, _, .ok _) => s.transGo c dst src t rows dstr sstr cols (j + 1) fuel

/-- A copy command run from where it stands, with the bytes of its arrival (R243). -/
def State.runCopy (s : State) (c : Cmd) : State × Ran :=
  match c.op with
  | .xfer d a n =>
    let (s, k, r) := s.copyGo c d a n c.done (n / 64 + 2)
    (s.setDone c k, ranOf r n)
  | .xferMc off a n m =>
    let places := s.mcPlaces c.team off.toNat m
    let (s, k, r) := s.copyMcGo c places off.toNat a n c.done (n / 64 + 2)
    (s.setDone c k, ranOf r (n * places.length))
  | .xferTr d a t rows cols dstr sstr =>
    let (s, j, r) := s.transGo c d a t rows dstr sstr cols c.done (cols + 1)
    (s.setDone c j, ranOf r (rows * cols * (storageBits t / 8)))
  | _ => (s, .wait)

/-- The byte count of a copy's or a drain's arrival, whether it completes or ends (R243, R468). -/
def State.copyBytes (s : State) (c : Cmd) : Nat :=
  match c.op with
  | .xfer _ _ n => n
  | .xferMc off _ n m => n * (s.mcPlaces c.team off.toNat m).length
  | .xferTr _ _ t rows cols _ _ => rows * cols * (storageBits t / 8)
  | .accDrain _ w => drainBytes w
  | _ => 0

/-- What an ended copy has not written (R467 step 2). -/
def State.poisonCopy (s : State) (c : Cmd) : State :=
  match c.op with
  | .xferTr d _ t rows cols dstr _ =>
    ((List.range cols).filter (fun j => decide (c.done ≤ j))).foldl (fun (s : State) j =>
      s.poisonRange c (.va (d + dw (j * dstr)) (rows * (storageBits t / 8))) 0) s
  | _ => (s.dstRanges c).foldl (fun (s : State) r => match r with
      | .va .. => s.poisonRange c r c.done
      | .tile l n o => s.poisonRange c (.tile l n o) c.done) s

end Sys2Proof.Machine
end

