-- ==== Sys2Proof/Machine/Carder.lean ====
section
/-!
DEFINITION. The coordinate engine: streams and open records (R268, R269), dealing (R270, R271), the port (R272), feeding
(R273), the cursor (R274, R477) and its checks (R475, R476).
-/
namespace Sys2Proof.Machine

/-! ### Records (R268, R269) -/

def streamOfWords (w : Nat → DWord) : CStream :=
  { addr := w 0, vals := w 1, enc := dfield (w 2) 34 32, len := dfield (w 2) 31 0, base := dfield (w 3) 31 0 }

/-- A stream descriptor's reserved fields and its encoding, in its mode and place. -/
def streamWordsOk (merge : Bool) (i : Nat) (w : Nat → DWord) : Bool :=
  let enc := dfield (w 2) 34 32
  dfield (w 2) 63 35 = 0 && dfield (w 3) 63 32 = 0 && enc ≤ 5 && (enc != 5 || (w 0 == 0 && dfield (w 2) 31 0 = 0)) &&
  (merge || w 1 == 0) && (enc != 2 || (!merge && i = 1))

/-- An open record parsed (R269): its values' type and its streams; none where it is malformed. -/
def openRecordOf (merge : Bool) (bs : List Byte) : Option (Nat × List CStream) :=
  let h := dwordsOf bs 0
  let n := dfield h 6 0
  let w (i k : Nat) : DWord := dwordsOf bs (64 + 32 * i + 8 * k)
  if dfield h 63 10 = 0 && !dbit h 7 && (if merge then dfield h 9 8 ≤ 1 && 1 ≤ n && n ≤ 64 else dfield h 9 8 = 0 && n = 2) &&
      ((bs.drop 8).take 56).all (· == 0) && (List.range n).all (fun i => streamWordsOk merge i (w i)) then
    some (dfield h 9 8, (List.range n).map (fun i => streamOfWords (w i)))
  else none

/-- The bytes that an open record takes, by its first word. -/
def openRecordBytes (h : DWord) : Nat := 64 + 32 * Nat.min 64 (dfield h 6 0)

/-- An open record read by the issuing gang. -/
def State.readOpen (s : State) (va : DWord) : State × URead :=
  match s.uRead va 64 1 with
  | (s, .ok h) =>
    match s.uRead (va + 64) (openRecordBytes (dwordsOf h 0) - 64) 1 with
    | (s, .ok r) => (s, .ok (h ++ r))
    | r => r
  | r => r

/-- Whether another team holds the core's carder open (R269). -/
def State.carderTaken (s : State) (t : TeamId) : Bool :=
  match (s.core t.1).carder with
  | some k => k.slot != t.2
  | none => false

def State.setCarder (s : State) (core : Nat) (k : Option Carder) : State := s.modCore core (fun c => { c with carder := k })

/-- A carder opened for a team: its reads see what was released to its core before (R87, R403). -/
def State.openCarder (s : State) (t : TeamId) (k : Carder) : State × UOut :=
  let s := (s.performStores (·.releasedTo t.1)).arrived
  (s.setCarder t.1 (some { k with acq := s.mem.seq }), {})

/-- `card.open` in either mode (R269). -/
def State.cardOpen (s : State) (merge : Bool) (a : Fin 64) : State :=
  s.runU [.k a] none (fun s vs =>
    let va := vs.getD 0 0
    let t := s.issueTeam
    match s.readOpen va with
    | (s, .fault f) => (s, { fault := some f })
    | (s, .page p) => s.uPage p none
    | (s, .ok bs) =>
      match openRecordOf merge bs with
      | none => (s, { fault := some { code := 0x0902 } })
      | some (vt, streams) =>
        if s.carderTaken t then (s, { next := .stay, stall := .carder })
        else s.openCarder t { slot := t.2, mode := if merge then 2 else 1, record := va, vt, streams,
                              fib := if merge then List.replicate streams.length 0 else [] })

/-- `card.open.x kA` (R269). -/
def execCardOpenX (a : Fin 64) (s : State) : Host.Outcome State Fault Refusal := .next (s.cardOpen false a)
/-- `card.open.m kA` (R269). -/
def execCardOpenM (a : Fin 64) (s : State) : Host.Outcome State Fault Refusal := .next (s.cardOpen true a)

/-! ### Decoding (R268, R475) -/

/-- What stands at an ordinal of a stream. -/
inductive Entry where
  | coord (c pos len : Nat) (val : Word)
  | ended
  | need
  | bad (code ord : Nat)
  | fail (f : Fail)
  | page (va : Nat)

/-- The carder's reads are an engine's reads for its team. -/
def State.carderCmd (s : State) (core : Nat) (k : Carder) : Cmd :=
  { s.mkCmd (core, k.slot) (.walker core) (.graph 0) {} with acq := k.acq }

/-- A number of n bytes read for the carder; a poisoned line is 0x0F01 (R424). -/
def State.carderNum (s : State) (c : Cmd) (va : DWord) (n : Nat) : State × (Nat ⊕ Entry) :=
  match s.engRead c va n with
  | (s, .ok (bs, false)) => (s, .inl (numOfBytes bs))
  | (s, .ok (_, true)) => (s, .inr (.fail { code := 0x0F01, addr := va, info0 := dw AccKind.engRead.num }))
  | (s, .hold v) => (s, .inr (.page v))
  | (s, .bad f) => (s, .inr (.fail f))

def coordMax : Nat := 0xFFFFFFFE
def posMax : Nat := 2 ^ 24 - 2

/-- A coordinate and position checked (R475): the addition of the base in a list or bitmap is 0x0901, any other excess
0x0904. -/
def checkedEntry (st : CStream) (ord c pos len : Nat) (val : Word) : Entry :=
  let c := c + st.base
  if coordMax < c then .bad (if st.enc = 0 ∨ st.enc = 1 ∨ st.enc = 3 then 0x0901 else 0x0904) ord
  else if posMax < pos then .bad 0x0904 ord
  else .coord c pos len val

/-- The next set bit of a bitmap at or after bit k, byte by byte. -/
def State.nextBit (s : State) (c : Cmd) (st : CStream) (k : Nat) : Nat → State × (Option Nat ⊕ Entry)
  | 0 => (s, .inl none)
  | fuel + 1 =>
    if st.len ≤ k then (s, .inl none) else
    match s.carderNum c (st.addr + dw (k / 8)) 1 with
    | (s, .inr e) => (s, .inr e)
    | (s, .inl b) =>
      match (List.range 8).find? (fun i => k % 8 ≤ i && b.testBit i && decide (k / 8 * 8 + i < st.len)) with
      | some i => (s, .inl (some (k / 8 * 8 + i)))
      | none => s.nextBit c st (k / 8 * 8 + 8) fuel

/-- The ord-th set bit of a bitmap. -/
def State.ordBit (s : State) (c : Cmd) (st : CStream) (k : Nat) : Nat → State × (Option Nat ⊕ Entry)
  | 0 => s.nextBit c st k (st.len / 8 + 2)
  | ord + 1 =>
    match s.nextBit c st k (st.len / 8 + 2) with
    | (s, .inl (some j)) => s.ordBit c st (j + 1) ord
    | r => r

/-- The coordinate of an ordinal in run pairs; each run must start above the end of the one before (R475). -/
def State.runGo (s : State) (c : Cmd) (st : CStream) (ord pair before lastEnd : Nat) : Nat → State × Entry
  | 0 => (s, .ended)
  | fuel + 1 =>
    if st.len ≤ pair then (s, .ended) else
    match s.carderNum c (st.addr + dw (8 * pair)) 4 with
    | (s, .inr e) => (s, e)
    | (s, .inl start) =>
      match s.carderNum c (st.addr + dw (8 * pair + 4)) 4 with
      | (s, .inr e) => (s, e)
      | (s, .inl n) =>
        if 0 < pair ∧ start < lastEnd then (s, .bad 0x0901 pair)
        else if ord < before + n then (s, checkedEntry st ord (start + (ord - before)) ord 1 0)
        else s.runGo c st ord (pair + 1) (before + n) (start + n) fuel

/-- The next row of a CSR stream that is not empty, at or after row k (R268). -/
def State.csrGo (s : State) (c : Cmd) (st : CStream) (k : Nat) : Nat → State × Nat × Entry
  | 0 => (s, k, .ended)
  | fuel + 1 =>
    if st.len ≤ k then (s, k, .ended) else
    match s.carderNum c (st.addr + dw (4 * k)) 4 with
    | (s, .inr e) => (s, k, e)
    | (s, .inl p) =>
      match s.carderNum c (st.addr + dw (4 * k + 4)) 4 with
      | (s, .inr e) => (s, k, e)
      | (s, .inl q) =>
        if q < p then (s, k, .bad 0x0901 k)
        else if q = p then s.csrGo c st (k + 1) fuel
        else (s, k, checkedEntry st k k p (q - p) 0)

/-- The entry at an ordinal of stream i, with the ordinal where it stands (a CSR stream skips empty rows). -/
def State.entryAt (s : State) (core : Nat) (k : Carder) (i ord : Nat) : State × Nat × Entry :=
  let c := s.carderCmd core k
  let st := k.streams.getD i { addr := 0, vals := 0, enc := 0, len := 0, base := 0 }
  let w := if st.enc = 0 then 2 else 4
  match st.enc with
  | 0 | 1 =>
    if st.len ≤ ord then (s, ord, .ended) else
    match s.carderNum c (st.addr + dw (w * ord)) w with
    | (s, .inr e) => (s, ord, e)
    | (s, .inl v) =>
      if ord = 0 then (s, ord, checkedEntry st ord v ord 1 0)
      else
        match s.carderNum c (st.addr + dw (w * (ord - 1))) w with
        | (s, .inr e) => (s, ord, e)
        | (s, .inl u) => (s, ord, if v ≤ u then .bad 0x0901 ord else checkedEntry st ord v ord 1 0)
  | 2 => s.csrGo c st ord (st.len + 1)
  | 3 =>
    match s.ordBit c st 0 ord with
    | (s, .inr e) => (s, ord, e)
    | (s, .inl none) => (s, ord, .ended)
    | (s, .inl (some b)) => (s, ord, checkedEntry st ord b ord 1 0)
  | 4 =>
    let (s, e) := s.runGo c st ord 0 0 0 (st.len + 1)
    (s, ord, e)
  | _ =>
    match (k.fed.find i).getD [] with
    | (x, v) :: _ =>
      (s, ord, if (k.fedLast.find i).any (fun l => decide (x.toNat ≤ l)) then .bad 0x0901 ord else checkedEntry st ord x.toNat ord 1 v)
    | [] => (s, ord, if k.fedEnd.contains i then .ended else .need)

/-- A stream's ordinal passed; a fed entry leaves its buffer. -/
def Carder.pass (k : Carder) (i : Nat) : Carder :=
  match k.fed.find i with
  | some ((x, _) :: r) => { k with fed := k.fed.put i r, fedLast := k.fedLast.put i x.toNat }
  | _ => k

/-! ### Dealing (R270, R271) -/

/-- What one deal comes to. -/
inductive Deal where
  | elem (k : Carder) (e : DWord)
  | finished (k : Carder)
  | wait (k : Carder)
  | fault (k : Carder) (f : Fail)
  | page (k : Carder) (va : Nat)

/-- A stream's own fault, as its record gives it (R471): the stream and the mode, and a figure. -/
def Carder.streamFault (k : Carder) (code stream info1 : Nat) : Deal :=
  .fault k { code, info0 := dw (stream + (if k.mode = 2 then 256 else 0)), info1 := dw info1 }

def dealElem (len posB posA : Nat) : DWord := dw (len * 2 ^ 48 + posB * 2 ^ 24 + posA)

/-- The next segment of the split survivor in course (R270). -/
def Carder.segment (k : Carder) : Deal :=
  let q := k.spN / k.spK
  let r := k.spN % k.spK
  let len := q + (if k.spJ < r then 1 else 0)
  let start := k.spB + k.spJ * q + Nat.min k.spJ r
  .elem { k with spJ := k.spJ + 1 } (dealElem len start k.spA)

/-- The last segment of the last split survivor, and whether it is the newest element of the port: its split still stands in the
cursor then (R406). -/
def Carder.splitShown (k : Carder) : Bool :=
  decide (k.spJ < k.spK) || (decide (0 < k.spK) && (match ({ k with spJ := k.spK - 1 } : Carder).segment with
    | .elem _ e => k.port.getLast? == some e
    | _ => false))

/-- A survivor's first element (R270, R475). -/
def Carder.survivor (k : Carder) (pa pb n : Nat) : Deal :=
  if k.split = 0 then
    if 65535 < n then k.streamFault 0x0905 1 (n * 2 ^ 32 + pa) else .elem k (dealElem n pb pa)
  else if n ≤ k.split then .elem k (dealElem n pb pa)
  else ({ k with spJ := 0, spA := pa, spB := pb, spN := n, spK := (n + k.split - 1) / k.split }).segment

/-- Intersection from the cursor to the next element (R270). -/
def State.intersect (s : State) (core : Nat) (k : Carder) : Nat → State × Deal
  | 0 => (s, .wait k)
  | fuel + 1 =>
    match s.entryAt core k 0 k.posA with
    | (s, _, .page v) => (s, .page k v)
    | (s, _, .bad code o) => (s, k.streamFault code 0 o)
    | (s, _, .fail f) => (s, .fault k f)
    | (s, _, .ended) => (s, .finished k)
    | (s, _, .need) => (s, .wait k)
    | (s, _, .coord a pa _ _) =>
      match s.entryAt core k 1 k.posB with
      | (s, _, .page v) => (s, .page k v)
      | (s, _, .bad code o) => (s, k.streamFault code 1 o)
      | (s, _, .fail f) => (s, .fault k f)
      | (s, _, .ended) => (s, .finished k)
      | (s, ob, .need) => (s, .wait { k with posB := ob })
      | (s, ob, .coord b pb n _) =>
        if a < b then s.intersect core ({ k with posA := k.posA + 1, posB := ob }.pass 0) fuel
        else if b < a then s.intersect core ({ k with posB := ob + 1 }.pass 1) fuel
        else
          match Carder.survivor k pa pb n with
          | .elem k' e => (s, .elem (({ k' with posA := k.posA + 1, posB := ob + 1 }.pass 0).pass 1) e)
          | r => (s, r)

/-- The fibres' entries, in order. -/
def State.fibreEntries (s : State) (core : Nat) (k : Carder) : List (Nat × Nat) → State × List (Nat × Nat × Entry)
  | [] => (s, [])
  | (i, ord) :: r =>
    let (s, _, e) := s.entryAt core k i ord
    let (s, es) := s.fibreEntries core k r
    (s, (i, ord, e) :: es)

/-- The value of a fibre at a position: fed, or from its value array (R268, R271). -/
def State.fibreValue (s : State) (c : Cmd) (st : CStream) (pos : Nat) (val : Word) : State × (Nat ⊕ Entry) :=
  if st.enc = 5 then (s, .inl val.toNat) else s.carderNum c (st.vals + dw (4 * pos)) 4

def State.fibreValues (s : State) (c : Cmd) (k : Carder) : List (Nat × Nat × Word) → State × (List Nat ⊕ Entry)
  | [] => (s, .inl [])
  | (i, pos, v) :: r =>
    match s.fibreValue c (k.streams.getD i { addr := 0, vals := 0, enc := 0, len := 0, base := 0 }) pos v with
    | (s, .inr e) => (s, .inr e)
    | (s, .inl n) =>
      match s.fibreValues c k r with
      | (s, .inl ns) => (s, .inl (n :: ns))
      | e => e

/-- The sum of the values at a coordinate: exact and rounded once, or modulo 2^32 (R271). -/
def mergeSum (vt : Nat) (vs : List Nat) : Nat :=
  if vt = 1 then sumOf vs % 2 ^ 32
  else
    match vs.map f32F.decode with
    | [] => 0
    | v :: r => (f32F.finish .rne false (r.foldl (fun a x => (FVal.add .rne a x).1) v, 0)).1

/-- The merge's next element (R271). -/
def State.mergeNext (s : State) (core : Nat) (k : Carder) : State × Deal :=
  let (s, es) := s.fibreEntries core k (k.fib.zipIdx.map (fun x => (x.2, x.1)))
  match es.findSome? (fun e => match e.2.2 with
      | .page v => some (Deal.page k v)
      | .bad code o => some (k.streamFault code e.1 o)
      | .fail f => some (.fault k f)
      | _ => none) with
  | some d => (s, d)
  | none =>
    if es.any (fun e => match e.2.2 with
        | .need => true
        | _ => false) then (s, .wait k)
    else
      let cs := es.filterMap (fun e => match e.2.2 with
        | .coord c pos _ v => some (c, e.1, pos, v)
        | _ => none)
      if cs.isEmpty then (s, .finished k)
      else
        let c := leastOf (cs.map (·.1))
        let mine := cs.filter (fun x => x.1 = c)
        match s.fibreValues (s.carderCmd core k) k (mine.map (fun x => (x.2.1, x.2.2.1, x.2.2.2))) with
        | (s, .inr (.page v)) => (s, .page k v)
        | (s, .inr (.fail f)) => (s, .fault k f)
        | (s, .inr _) => (s, .wait k)
        | (s, .inl vs) =>
          let k := mine.foldl (fun (k : Carder) x => { k with fib := k.fib.set x.2.1 (k.fib.getD x.2.1 0 + 1) }.pass x.2.1) k
          (s, .elem k (dw (mergeSum k.vt vs * 2 ^ 32 + c)))

/-- The fault marker (R476). -/
def faultMarker (code : Nat) : DWord := dw (code * 2 ^ 32 + 0xFFFFFFFF)

/-- Waiters on the carder, and on the team's channels bound to it, issue again. -/
def State.wakePort (s : State) (t : TeamId) : State :=
  let chans := ((s.team t).map (fun v => (v.chans.filter (fun c => c.2.kind = .carder)).map (·.1))).getD []
  chans.foldl (fun (s : State) c => s.wakeChan t c) (s.wakeCarder t)

/-- Waiters on the port wake where entries have left a fed buffer (R273). -/
def State.wakeFed (s : State) (t : TeamId) (old new : Carder) : State := if old.fed = new.fed then s else s.wakePort t

/-- CARDER_DEAL: the core's carder deals its next element where the port has room (R270 to R272, R476). -/
def execCarderDeal (core : Nat) (s : State) : Host.Outcome State Fault Refusal :=
  if Config.cores ≤ core then .fault .noSuchAgent else
  match (s.core core).carder with
  | none => .next s
  | some k =>
    if k.done || k.held.isSome || decide (32 ≤ k.port.length) then .next s else
    let t : TeamId := (core, k.slot)
    let before := k
    let fuel := sumOf (k.streams.map (·.len)) + sumOf (k.fed.map (fun f => f.2.length)) + 4
    let (s, d) := if k.spJ < k.spK then (s, k.segment) else if k.mode = 1 then s.intersect core k fuel else s.mergeNext core k
    match d with
    | .elem k e => .next ((s.setCarder core (some { k with port := k.port ++ [e], retried := false, refault := 0 })).wakePort t)
    | .finished k => .next ((s.setCarder core (some { k with done := true })).wakePort t)
    | .wait k => .next ((s.setCarder core (some k)).wakeFed t before k)
    | .fault k f =>
      let s := s.record { code := f.code, sev := 3, kind := 1, index := core, slot := k.slot, asid := ((s.team t).map (·.asid)).getD 0,
                          tag := s.tagOf t, addr := f.addr, phys := f.phys, info0 := f.info0, info1 := f.info1 }
      .next ((s.setCarder core (some { k with port := k.port ++ [faultMarker f.code], done := true, faulted := true })).wakePort t)
    | .page k va =>
      let again := k.retried && k.heldAt / 64 == va / 64
      let s := s.wakeFed t before k
      let k := { k with held := some va, heldAt := va, refault := if again then Nat.min 255 (k.refault + 1) else 0 }
      let entry : BatchEntry := { code := if again then 0x0702 else 0x0701, core := core, asid := ((s.team t).map (·.asid)).getD 0,
                                  pc := 0, granules := addGranule [] va false false, refault := k.refault, team := some t,
                                  tag := s.tagOf t, index := core, access := AccKind.engRead.num, addr := dw va }
      .next ((s.setCarder core (some k)).batch entry)

/-! ### The port and feeding (R272, R273) -/

/-- Whether a pop of n elements is ready (R272). -/
def State.portReady (s : State) (t : TeamId) (n : Nat) : Bool :=
  match s.carderOf t with
  | some k => n ≤ k.port.length || k.done
  | none => true

/-- One element from the port for one lane; the end marker where it is empty. -/
def State.takePort (s : State) (t : TeamId) : State × DWord :=
  match s.carderOf t with
  | some k =>
    match k.port with
    | e :: es => (s.setCarder t.1 (some { k with port := es }), e)
    | [] => (s, endMarker)
  | none => (s, endMarker)

/-- `card.next d, pN` (R272). -/
def execCardNext (d : Dst) (p : Fin 8) (s : State) : Host.Outcome State Fault Refusal :=
  .next (s.runLanes { dst := some (d, true), pdst := some p.val } (fun s ls =>
    match ls with
    | [] => (s, [])
    | l0 :: _ =>
      let t := s.teamIdOf l0.who
      if s.portReady t ls.length then
        foldLanes (fun s _ =>
          let (s, e) := s.takePort t
          (s, if e = endMarker then { pred := some (p.val, false) } else { res := some e, pred := some (p.val, true) })) s ls
      else (s, ls.map (fun _ => { next := .stay, block := some (.carder none) }))))

/-- A stream of the team's open carder that is fed. -/
def State.fedStream (s : State) (t : TeamId) (n : Nat) : Option Carder :=
  (s.carderOf t).bind (fun k => if (k.streams[n]?).any (fun st => st.enc = 5) then some k else none)

/-- The buffered entries that a gang's lanes would add, by the sources that they would read: none where a channel cannot give
its elements yet. -/
def State.feedNeed (s : State) (a b : Src) : Nat :=
  let srcs := [(a, false), (b, false)]
  ((s.popLanes srcs (s.lanesIn { srcs })).map (fun p => (p.2.filter (fun l => l.w 0 != 0xFFFFFFFF#32)).length)).getD 0

/-- `card.feed n, a, b` (R273): a push to an engine port, so the gang blocks while the buffer lacks room for its lanes. -/
def execCardFeed (n : Fin 64) (a b : Src) (s : State) : Host.Outcome State Fault Refusal :=
  let t := s.issueTeam
  let full := (s.fedStream t n.val).any (fun k => decide (64 < ((k.fed.find n.val).getD []).length + s.feedNeed a b))
  if full then .next ((s.sys.issue.lanes.foldl (fun s l => s.blockLane l.2 (.carder none)) s).releaseHeld s.sys.issue.core s.sys.issue.ctx)
  else
    .next (s.runSeq { srcs := [(a, false), (b, false)],
                      check := fun s w _ => if (s.fedStream (s.teamIdOf w) n.val).isSome then none else some { code := 0x0903 } }
      (fun s l =>
        match s.fedStream t n.val with
        | none => (s, {})
        | some k =>
          if k.fedEnd.contains n.val then (s, {})
          else if l.w 0 = 0xFFFFFFFF#32 then (s.setCarder t.1 (some { k with fedEnd := k.fedEnd ++ [n.val] }), {})
          else (s.setCarder t.1 (some { k with fed := k.fed.put n.val ((k.fed.find n.val).getD [] ++ [(l.w 0, l.w 1)]) }), {})))

/-- `card.split kA` (R270). -/
def execCardSplit (a : Fin 64) (s : State) : Host.Outcome State Fault Refusal :=
  .next (s.runU [.k a] none (fun s vs =>
    let v := (vs.getD 0 0).toNat
    let t := s.issueTeam
    if 65536 ≤ v then (s, { fault := some { code := 0x0207 } })
    else
      match s.carderOf t with
      | none => (s, { fault := some { code := 0x0902 } })
      | some k => (s.setCarder t.1 (some { k with split := v }), {})))

/-- `card.close` (R274). -/
def execCardClose (s : State) : Host.Outcome State Fault Refusal :=
  .next (s.runU [] none (fun s _ =>
    let t := s.issueTeam
    ((if (s.carderOf t).isSome then s.setCarder t.1 none else s).wakePort t, {})))

/-! ### The cursor (R274, R477) -/

/-- The 576 bytes of a cursor record. -/
def Carder.cursor (k : Carder) : List Byte :=
  let k := if k.splitShown then k else { k with spJ := 0, spA := 0, spB := 0, spN := 0, spK := 0 }
  let mode := if k.faulted then 3 else k.mode
  let nfib := if k.mode = 2 then k.streams.length else 0
  padTo 64 0 (bytesOf 8 (nfib * 2 ^ 16 + k.port.length * 16 + mode) ++ bytesOf 8 k.record.toNat ++
    bytesOf 8 (k.posB * 2 ^ 24 + k.posA) ++ bytesOf 8 (k.spJ * 2 ^ 48 + k.spB * 2 ^ 24 + k.spA) ++
    bytesOf 8 (k.split * 2 ^ 40 + k.spK * 2 ^ 24 + k.spN)) ++
  padTo 256 0 (k.fib.flatMap (bytesOf 4)) ++ padTo 256 0 (k.port.flatMap (fun e => bytesOf 8 e.toNat))

/-- A saved carder's fed buffers kept beside its record (R274; log entry 72). -/
def State.keepFed (s : State) (core : Nat) (k : Carder) : State :=
  if k.fed.isEmpty && k.fedLast.isEmpty && k.fedEnd.isEmpty then s else
  let x : FedKept := { slot := k.slot, cursor := k.cursor, fed := k.fed, fedLast := k.fedLast, fedEnd := k.fedEnd }
  s.modCore core (fun c => { c with fedKept := x :: c.fedKept.filter (fun y => y.slot != x.slot || y.cursor != x.cursor) })

/-- A restored carder with the buffers that were kept for its record. -/
def Carder.withFed (k : Carder) (kept : List FedKept) (bs : List Byte) : Carder :=
  match kept.find? (fun x => x.slot = k.slot ∧ x.cursor = bs) with
  | some x => { k with fed := x.fed, fedLast := x.fedLast, fedEnd := x.fedEnd }
  | none => k

/-- The place a cursor record may take: its location, a fault or a page. -/
def State.cursorPlace (s : State) (t : TeamId) (va : DWord) (kind : AccKind) : State × AccRes :=
  if va.toNat % 64 ≠ 0 then (s, .fault { code := 0x0207 })
  else
    match s.checkIssue { s.laneAccess s.leader kind va 64 64 with size := 576 } with
    | (s, .ok tg) =>
      let inside := match s.team t with
        | some v =>
          let b := Config.tileBase + t.1 * Config.sliceBytes + v.tileBase
          b ≤ tg.loc && tg.loc + 576 ≤ b + v.tileSize
        | none => false
      if inside && (s.regionsAt tg.loc 576).isEmpty then (s, .ok tg) else (s, .fault { code := 0x0207 })
    | r => r

/-- `card.save kA` (R274). -/
def execCardSave (a : Fin 64) (s : State) : Host.Outcome State Fault Refusal :=
  .next (s.runU [.k a] none (fun s vs =>
    let t := s.issueTeam
    match s.carderOf t with
    | none => (s, { fault := some { code := 0x0902 } })
    | some k =>
      match s.cursorPlace t (vs.getD 0 0) .store with
      | (s, .fault f) => (s, { fault := some f })
      | (s, .page v) => s.uPage v none
      | (s, .ok tg) =>
        let s := s.sys.issue.lanes.foldl (fun (s : State) l => (s.flushGather l.2).drainOf l.2) s
        (((s.write { whos := s.sys.issue.lanes.map (·.2), core := some t.1 } tg.key tg.loc k.cursor).keepFed t.1 k).setCarder t.1 none, {})))

/-- The length of a stream in its ordinals; none for a fed stream. -/
def State.ordinals (s : State) (core : Nat) (k : Carder) (i : Nat) : Option Nat :=
  let st := k.streams.getD i { addr := 0, vals := 0, enc := 0, len := 0, base := 0 }
  match st.enc with
  | 5 => none
  | 4 => some (sumOf ((List.range st.len).map (fun j => match (s.carderNum (s.carderCmd core k) (st.addr + dw (8 * j + 4)) 4).2 with
      | .inl n => n
      | .inr _ => 0)))
  | _ => some st.len

/-- Whether a record shows a split all of whose segments have been dealt, the last of them its newest element: as a save leaves
it then (R406). -/
def cursorDealt (bs : List Byte) : Bool :=
  let w (i : Nat) : DWord := dwordsOf bs (8 * i)
  let n := dfield (w 0) 9 4
  let k : Carder := { slot := 0, mode := 1, record := 0, spA := dfield (w 3) 23 0, spB := dfield (w 3) 47 24, spN := dfield (w 4) 23 0,
                      spK := dfield (w 4) 39 24, spJ := dfield (w 4) 39 24,
                      port := (List.range n).map (fun e => dwordsOf bs (0x140 + 8 * e)) }
  dfield (w 3) 63 48 == k.spK && k.splitShown

/-- A cursor record's own checks (R477); a split whose last segment is still in the port is no malformed one (R406; log entry
73). -/
def cursorOk (bs : List Byte) : Bool :=
  let w (i : Nat) : DWord := dwordsOf bs (8 * i)
  let mode := dfield (w 0) 3 0
  dfield (w 0) 63 23 = 0 && dfield (w 0) 15 10 = 0 && 1 ≤ mode && mode ≤ 3 && dfield (w 0) 9 4 ≤ 32 && dfield (w 2) 63 48 = 0 &&
  dfield (w 4) 63 56 = 0 && (List.range 3).all (fun i => w (5 + i) == 0) &&
  (dfield (w 4) 39 24 = 0 || dfield (w 3) 63 48 < dfield (w 4) 39 24 || cursorDealt bs)

/-- A carder as a cursor record describes it, on an open record's streams. -/
def carderOfCursor (slot : Nat) (bs : List Byte) (merge : Bool) (vt : Nat) (streams : List CStream) : Carder :=
  let w (i : Nat) : DWord := dwordsOf bs (8 * i)
  let faulted := dfield (w 0) 3 0 = 3
  { slot, mode := if merge then 2 else 1, record := w 1, vt, streams, posA := dfield (w 2) 23 0, posB := dfield (w 2) 47 24,
    spJ := dfield (w 3) 63 48, spA := dfield (w 3) 23 0, spB := dfield (w 3) 47 24, spN := dfield (w 4) 23 0,
    spK := dfield (w 4) 39 24, split := dfield (w 4) 55 40,
    fib := if merge then (List.range streams.length).map (fun f => numOfBytes ((bs.drop (0x40 + 4 * f)).take 4)) else [],
    port := (List.range (dfield (w 0) 9 4)).map (fun e => dwordsOf bs (0x140 + 8 * e)), done := faulted, faulted }

/-- Whether every ordinal of a cursor lies within its stream (R477). -/
def State.ordinalsOk (s : State) (core : Nat) (k : Carder) : Bool :=
  let ok (i ord : Nat) : Bool := match s.ordinals core k i with
    | some n => ord ≤ n
    | none => true
  if k.mode = 2 then k.fib.zipIdx.all (fun x => ok x.2 x.1) else ok 0 k.posA && ok 1 k.posB

/-- A cursor record and its open record read for a team: the carder they describe, or why there is none. -/
def State.restoreCarder (s : State) (rd : State → DWord → Nat → State × URead) (t : TeamId) (bs : List Byte) :
    State × (Carder ⊕ URead) :=
  if !cursorOk bs then (s, .inr (.fault { code := 0x0902 }))
  else
    let w0 := dwordsOf bs 0
    let merge := dfield w0 3 0 = 2 || (dfield w0 3 0 = 3 && dfield w0 22 16 ≠ 0)
    let rec_ := dwordsOf bs 8
    match rd s rec_ 64 with
    | (s, .ok h) =>
      match rd s (rec_ + 64) (openRecordBytes (dwordsOf h 0) - 64) with
      | (s, .ok r) =>
        match openRecordOf merge (h ++ r) with
        | none => (s, .inr (.fault { code := 0x0902 }))
        | some (vt, streams) =>
          let k := (carderOfCursor t.2 bs merge vt streams).withFed (s.core t.1).fedKept bs
          if dfield w0 22 16 = (if merge then streams.length else 0) && s.ordinalsOk t.1 k then (s, .inl k)
          else (s, .inr (.fault { code := 0x0902 }))
      | (s, e) => (s, .inr e)
    | (s, e) => (s, .inr e)

/-- `card.restore kA` (R274, R477). -/
def execCardRestore (a : Fin 64) (s : State) : Host.Outcome State Fault Refusal :=
  .next (s.runU [.k a] none (fun s vs =>
    let t := s.issueTeam
    match s.uRead (vs.getD 0 0) 576 64 with
    | (s, .fault f) => (s, { fault := some f })
    | (s, .page v) => s.uPage v none
    | (s, .ok bs) =>
      match s.restoreCarder (fun s va n => s.uRead va n 1) t bs with
      | (s, .inr (.page v)) => s.uPage v none
      | (s, .inr (.fault f)) => (s, { fault := some f })
      | (s, .inr (.ok _)) => (s, {})
      | (s, .inl k) => if s.carderTaken t then (s, { next := .stay, stall := .carder }) else s.openCarder t k))

end Sys2Proof.Machine
end

