-- ==== Sys2Proof/Machine/Fabric.lean ====
section
/-!
DEFINITION. The stream fabrics: descriptors (R332 to R335), the operators (R336 to R338), runs by chunks with their
watchdog and checks (R339 to R342), status (R344, R479, R480), and the instructions `sf.load`, `sf.bind`, `sf.run` and
`sf.unbind` (R275 to R278).
-/
namespace Sys2Proof.Machine

/-! ### Streams of bytes

Each byte carries the count of graph input bytes consumed when it was emitted, from which its chunk follows (R341). -/

abbrev Tagged := List (Nat × Byte)

def tagAll (n : Nat) (bs : List Byte) : Tagged := bs.map (fun b => (n, b))
def untag (t : Tagged) : List Byte := t.map (·.2)

/-- A stop of a node: the code, the figure of R471, the output bytes that stand (none of the run's where it is empty), and
the graph input consumed. -/
structure Viol where
  code : Nat
  info : Nat := 0
  keep : Option Nat
  pos : Nat
deriving DecidableEq, Repr

/-- What a node has emitted on its two ports. -/
structure NodeRun where
  out0 : Tagged := []
  out1 : Tagged := []
  viol : Option Viol := none
  ended : Bool := false

/-- One unit of an operator's work on the bytes before it. -/
inductive Unit1 (σ : Type) where
  | need
  | take (n : Nat) (out0 out1 : List Byte) (st : σ)
  | bad (code info : Nat) (keep : Option Nat)

/-- The chunk of a tag (R341). -/
def chunkOf (size pos : Nat) : Nat := (pos - 1) / size

/-- Output bytes attributed to chunks before the one of a position (R480). -/
def keptBefore (size pos : Nat) (out : Tagged) : Nat := (out.filter (fun t => decide (chunkOf size t.1 < chunkOf size pos))).length

/-- Units of work as far as the input reaches; `outLen` counts what has gone out on port 0. -/
def unitsGo {σ : Type} (step : σ → Nat → Tagged → Unit1 σ) (size : Nat) (st : σ) (inp : Tagged) (r : NodeRun) : Nat → NodeRun × σ × Tagged
  | 0 => (r, st, inp)
  | fuel + 1 =>
    if inp.isEmpty then (r, st, inp) else
    match step st r.out0.length inp with
    | .need => (r, st, inp)
    | .take n o0 o1 st' =>
      let pos := ((inp.take n).getLast?.map (·.1)).getD 0
      unitsGo step size st' (inp.drop n) { r with out0 := r.out0 ++ tagAll pos o0, out1 := r.out1 ++ tagAll pos o1 } fuel
    | .bad code info keep =>
      let pos := (inp.head?.map (·.1)).getD 0
      ({ r with viol := some { code, info, keep := some (keep.getD (keptBefore size pos r.out0)), pos } }, st, [])

/-- A node's whole work on what its input has brought: its units, and at the input's end what is left. -/
def runUnitsOf {σ : Type} (step : σ → Nat → Tagged → Unit1 σ) (fin : σ → Tagged → Option (List Byte × List Byte)) (size : Nat) (st : σ)
    (inp : Tagged) (final : Bool) (total : Nat) : NodeRun :=
  let (r, st, rest) := unitsGo step size st inp {} (inp.length + 1)
  if r.viol.isSome || !final then r
  else
    match fin st rest with
    | some (o0, o1) => { r with out0 := r.out0 ++ tagAll total o0, out1 := r.out1 ++ tagAll total o1, ended := true }
    | none => { r with viol := some { code := 0x0B01, info := r.out0.length, keep := some (keptBefore size total r.out0), pos := total } }

/-! ### Operators (R335 to R338) -/

def widthOf (code : Nat) : Nat := 2 ^ code

/-- Whole units of n bytes mapped by f, with a state; nothing may be left at the end. -/
def elementwiseOp {σ : Type} (n : Nat) (f : σ → List Byte → List Byte × σ) (st : σ) (size : Nat) (inp : Tagged) (final : Bool)
    (total : Nat) : NodeRun :=
  runUnitsOf (fun st _ t => if t.length < n then .need else
      let (o, st) := f st (untag (t.take n))
      .take n o [] st)
    (fun _ rest => if rest.isEmpty then some ([], []) else none) size st inp final total

/-- The canonical symbol of a code of a length, if there is one (R337). -/
def pdecGo (counts : List Nat) (syms : List Byte) (len code : Nat) (first off : Nat) : Option Byte :=
  match counts, len with
  | c :: _, 1 => if first ≤ code ∧ code < first + c then some (syms.getD (off + (code - first)) 0) else none
  | c :: cs, n + 2 => pdecGo cs syms (n + 1) code ((first + c) * 2) (off + c)
  | _, _ => none

/-- A table of 288 bytes (R337). -/
def tableCounts (t : List Byte) : List Nat := (List.range 16).map (fun i => numOfBytes ((t.drop (2 * i)).take 2))
def tableSyms (t : List Byte) : List Byte := (t.drop 32).take 256
def tableOk (t : List Byte) : Bool :=
  let cs := tableCounts t
  sumOf cs ≤ 256 && sumOf ((cs.zipIdx).map (fun c => c.1 * 2 ^ (15 - c.2))) ≤ 65536

/-- The state of `pdec` inside a block. -/
structure PdecSt where
  open_ : Bool := false
  raw : Bool := false
  tab : Nat := 0
  bytes : Nat := 0
  syms : Nat := 0
  code : Nat := 0
  len : Nat := 0
  crc : BitVec 32 := 0xFFFFFFFF#32
  want : Nat := 0
  start : Nat := 0

/-- The bits of one payload byte, from bit 7 down; none for a violation. -/
def pdecBits (table : List Byte) (b : Byte) : Nat → PdecSt → List Byte → Option (PdecSt × List Byte)
  | 0, st, out => some (st, out)
  | i + 1, st, out =>
    let bit := if b.getLsbD i then 1 else 0
    if st.syms = 0 then (if bit = 0 then pdecBits table b i st out else none)
    else
      let code := st.code * 2 + bit
      let len := st.len + 1
      match pdecGo (tableCounts table) (tableSyms table) len code 0 0 with
      | some y => pdecBits table b i { st with code := 0, len := 0, syms := st.syms - 1 } (out ++ [y])
      | none => if 16 ≤ len then none else pdecBits table b i { st with code, len } out

def pdecStep (tables : List Byte) (st : PdecSt) (outLen : Nat) (t : Tagged) : Unit1 PdecSt :=
  if !st.open_ then
    if t.length < 16 then .need else
    let h := untag (t.take 16)
    let w0 := numOfBytes (h.take 8)
    let w1 := numOfBytes (h.drop 8)
    let raw := bitsOf w0 63 63 = 1
    let tab := bitsOf w0 49 48
    let nb := bitsOf w0 47 24
    let ns := bitsOf w0 23 0
    if bitsOf w0 62 50 ≠ 0 ∨ tables.length ≤ 288 * tab ∨ nb = 0 ∨ ns = 0 ∨ (raw ∧ nb ≠ ns) ∨ 2 ^ 32 ≤ w1 then .bad 0x0B01 outLen none
    else .take 16 [] [] { open_ := true, raw, tab, bytes := nb, syms := ns, want := w1, start := outLen }
  else
    match t with
    | [] => .need
    | (_, b) :: _ =>
      let crc := crcByte st.crc b
      let r := if st.raw then some ({ st with syms := st.syms - 1 }, [b])
        else pdecBits ((tables.drop (288 * st.tab)).take 288) b 8 st []
      match r with
      | none => .bad 0x0B01 outLen none
      | some (st, out) =>
        if st.bytes = 1 then
          if st.syms ≠ 0 then .bad 0x0B01 outLen none
          else if (~~~crc).toNat ≠ st.want then .bad 0x0B03 (st.want * 2 ^ 32 + (~~~crc).toNat) (some st.start)
          else .take 1 out [] {}
        else if st.syms = 0 then .bad 0x0B01 outLen none
        else .take 1 out [] { st with bytes := st.bytes - 1, crc }

def runPdec (tables : List Byte) (size : Nat) (inp : Tagged) (final : Bool) (total : Nat) : NodeRun :=
  runUnitsOf (pdecStep tables) (fun st rest => if !st.open_ && rest.isEmpty then some ([], []) else none) size ({} : PdecSt) inp final total

def runRle (w size : Nat) (inp : Tagged) (final : Bool) (total : Nat) : NodeRun :=
  runUnitsOf (fun (_ : Unit) o t => if t.length < 2 + w then .need else
      let n := numOfBytes (untag (t.take 2))
      if n = 0 then .bad 0x0B01 o none else .take (2 + w) (List.replicate n (untag ((t.drop 2).take w))).flatten [] ())
    (fun _ rest => if rest.isEmpty then some ([], []) else none) size () inp final total

def runDict (iw ew entries : Nat) (table : List Byte) (size : Nat) (inp : Tagged) (final : Bool) (total : Nat) : NodeRun :=
  runUnitsOf (fun (_ : Unit) o t => if t.length < iw then .need else
      let i := numOfBytes (untag (t.take iw))
      if entries ≤ i then .bad 0x0B01 o none else .take iw ((table.drop (ew * i)).take ew) [] ())
    (fun _ rest => if rest.isEmpty then some ([], []) else none) size () inp final total

/-- Bits held back by `bunp` and `bpk`: the value and how many. -/
def emitFields (b w : Nat) (sx : Bool) (acc have_ : Nat) : Nat → List Byte × Nat × Nat
  | 0 => ([], acc, have_)
  | fuel + 1 =>
    if have_ < b then ([], acc, have_) else
    let x := acc % 2 ^ b
    let v := if sx then wrapTo (8 * w) (signedOf b x) else x
    let (o, a, h) := emitFields b w sx (acc / 2 ^ b) (have_ - b) fuel
    (bytesOf w v ++ o, a, h)

def runBunp (b w : Nat) (sx : Bool) (size : Nat) (inp : Tagged) (final : Bool) (total : Nat) : NodeRun :=
  elementwiseOp 1 (fun (st : Nat × Nat) bs =>
    let (o, a, h) := emitFields b w sx (st.1 + numOfBytes bs * 2 ^ st.2) (st.2 + 8) 9
    (o, (a, h))) (0, 0) size inp final total

def runBpk (b w size : Nat) (inp : Tagged) (final : Bool) (total : Nat) : NodeRun :=
  runUnitsOf (fun (st : Nat × Nat) _ t => if t.length < w then .need else
      let (o, a, h) := emitFields 8 1 false (st.1 + numOfBytes (untag (t.take w)) % 2 ^ b * 2 ^ st.2) (st.2 + b) 6
      .take w o [] (a, h))
    (fun st rest => if rest.isEmpty then some (if st.2 = 0 then [] else bytesOf 1 st.1, []) else none) size (0, 0) inp final total

/-- The elements of packed bytes (R120). -/
def elemsOfBytes (bits : Nat) (bs : List Byte) : List Nat :=
  if bits = 4 then bs.flatMap (fun b => [b.toNat % 16, b.toNat / 16])
  else (List.range (bs.length / (bits / 8))).map (fun i => numOfBytes ((bs.drop (i * (bits / 8))).take (bits / 8)))

/-- Elements packed in bytes, a zero high nibble after an odd count (R120). -/
def bytesOfElems (bits : Nat) : List Nat → List Byte
  | [] => []
  | [x] => if bits = 4 then [BitVec.ofNat 8 (x % 16)] else bytesOf (bits / 8) x
  | x :: y :: r =>
    if bits = 4 then BitVec.ofNat 8 (x % 16 + y % 16 * 16) :: bytesOfElems bits r
    else bytesOf (bits / 8) x ++ bytesOfElems bits (y :: r)

/-- The exact value of an element. -/
def elemValue (t : Ty) (x : Nat) : FVal :=
  match tyFmt t with
  | some F => F.decode x
  | none => FVal.ofFrac false (intVal t x) 1

/-- An exact value as an element of a type. -/
def elemOf (t : Ty) (m : RMode) (sat : Bool) (v : FVal) : Nat :=
  match tyFmt t with
  | some F => (F.finish m sat (v, 0)).1
  | none => wrapTo t.bits (v.toInt m t.isSigned t.bits).1

def sqScale (f : Nat) : FVal := f32F.decode f

/-- A power of two as an exact value. -/
def pow2Val (k : Int) : FVal := if 0 ≤ k then .fin (2 ^ k.toNat : Nat) 1 else .fin 1 (2 ^ (-k).toNat)

/-- Whether an exact value is finite, and its magnitude as a fraction. -/
def finiteOf (v : FVal) : Option (Nat × Nat) :=
  match v with
  | .fin n d => some (n.natAbs, d)
  | .zero _ => some (0, 1)
  | _ => none

/-- The `e8m0` code of a group (R338). -/
def groupScale (dst : Ty) (vs : List FVal) : Nat :=
  let a := (vs.filterMap finiteOf).foldl (fun (m : Nat × Nat) x => if m.1 * x.2 < x.1 * m.2 then x else m) (0, 1)
  if a.1 = 0 then 0x7F else
  match tyFmt dst with
  | some D =>
    match D.decode D.maxCode with
    | .fin n d => (FVal.toE8m0 .rup false (.fin ((a.1 * d : Nat) : Int) (a.2 * n.natAbs))).1
    | _ => 0x7F
  | none => 0x7F

/-- One group in block-scale mode: the code, then the elements (R338). -/
def sqGroup (dst : Ty) (m : RMode) (sat : Bool) (f : FVal) (src : Ty) (xs : List Nat) : List Byte :=
  let vs := xs.map (fun x => (FVal.mul (elemValue src x) f).1)
  let c := groupScale dst vs
  BitVec.ofNat 8 c :: bytesOfElems dst.bits (vs.map (fun v => elemOf dst m sat (FVal.mul v (pow2Val (127 - (c : Int)))).1))

def modeNum : Nat → RMode
  | 1 => .rne | 2 => .rtz | 3 => .rup | 4 => .rdn | 5 => .rodd | _ => .dyn

def runSq (p1 : Nat) (p2 : DWord) (size : Nat) (inp : Tagged) (final : Bool) (total : Nat) : NodeRun :=
  let src := tyOf (dfield p2 3 0)
  let dst := tyOf (dfield p2 7 4)
  let m := modeNum (dfield p2 10 8)
  let sat := dbit p2 11
  let f := sqScale p1
  if dbit p2 12 then
    let n := bytesFor 32 src.bits
    runUnitsOf (fun (_ : Unit) _ t => if t.length < n then .need else
        .take n (sqGroup dst m sat f src (elemsOfBytes src.bits (untag (t.take n)))) [] ())
      (fun _ rest => if rest.isEmpty then some ([], [])
        else if 8 ≤ src.bits && rest.length % (src.bits / 8) != 0 then none
        else some (sqGroup dst m sat f src (elemsOfBytes src.bits (untag rest)), [])) size () inp final total
  else
    let n := bytesFor 1 src.bits
    runUnitsOf (fun (st : List Nat) _ t => if t.length < n then .need else
        let es := st ++ (elemsOfBytes src.bits (untag (t.take n))).map (fun x => elemOf dst m sat (FVal.mul (elemValue src x) f).1)
        let k := if dst.bits = 4 then es.length / 2 * 2 else es.length
        .take n (bytesOfElems dst.bits (es.take k)) [] (es.drop k))
      (fun st rest => if rest.isEmpty then some (bytesOfElems dst.bits st, []) else none) size [] inp final total

def runLtr (r c w size : Nat) (inp : Tagged) (final : Bool) (total : Nat) : NodeRun :=
  elementwiseOp (r * c * w) (fun (_ : Unit) bs =>
    ((List.range (r * c)).flatMap (fun p => (bs.drop ((p % r * c + p / r) * w)).take w), ())) () size inp final total

def filtHolds (cond x y : Nat) : Bool :=
  match cond with
  | 0 => x == y
  | 1 => x != y
  | 2 => decide (x < y)
  | 3 => decide (y ≤ x)
  | 4 => Nat.land x y == y
  | _ => Nat.land x y != 0

def runFilt (p1 : Nat) (p2 : DWord) (size : Nat) (inp : Tagged) (final : Bool) (total : Nat) : NodeRun :=
  let r := bitsOf p1 12 0
  let off := bitsOf p1 25 13
  let w := widthOf (bitsOf p1 27 26)
  runUnitsOf (fun (_ : Unit) o t => if t.length < r then .need
      else if r < off + w then .bad 0x0B01 o none
      else
        let bs := untag (t.take r)
        .take r (if filtHolds (bitsOf p1 30 28) (numOfBytes ((bs.drop off).take w)) p2.toNat then bs else []) [] ())
    (fun _ rest => if rest.isEmpty then some ([], []) else none) size () inp final total

def runSplit (deal : Bool) (r size : Nat) (inp : Tagged) (final : Bool) (total : Nat) : NodeRun :=
  if deal then
    runUnitsOf (fun (odd : Bool) _ t => if t.length < r then .need else
        let bs := untag (t.take r)
        .take r (if odd then [] else bs) (if odd then bs else []) (!odd))
      (fun odd rest => some (if odd then [] else untag rest, if odd then untag rest else [])) size false inp final total
  else { out0 := inp, out1 := inp, ended := final }

/-- Records alternately from two inputs; when one has ended the rest of the other follows (R336). -/
def alternateGo (r : Nat) (fa fb : Bool) (a b : Tagged) : Nat → Tagged
  | 0 => []
  | fuel + 1 =>
    if a.isEmpty && fa then (if fb then b else b.take (b.length / r * r))
    else if a.length < r && !fa then []
    else a.take r ++ alternateGo r fb fa b (a.drop r) fuel

def runJoin (alt : Bool) (r : Nat) (a b : Tagged) (fa fb : Bool) : NodeRun :=
  { out0 := if alt then alternateGo r fa fb a b (a.length + b.length + 2) else a ++ (if fa then b else []), ended := fa && fb }

def runCrc (verify : Bool) (inp : Tagged) (final : Bool) (total : Nat) : NodeRun :=
  if verify then
    let n := inp.length - 4
    let body := inp.take n
    if !final then { out0 := body }
    else if inp.length < 4 then { viol := some { code := 0x0B01, info := 0, keep := some 0, pos := total } }
    else
      let want := numOfBytes (untag (inp.drop n))
      let got := (crc32c (untag body)).toNat
      if want = got then { out0 := body, ended := true }
      else { out0 := body, viol := some { code := 0x0B03, info := want * 2 ^ 32 + got, keep := none, pos := total } }
  else { out0 := if final then inp ++ tagAll total (bytesOf 4 (crc32c (untag inp)).toNat) else inp, ended := final }

/-- One node on its inputs (R335, R336). -/
def runNode (nd : SgNode) (size : Nat) (a b : Tagged) (fa fb : Bool) (total : Nat) : NodeRun :=
  let w := widthOf (nd.p1 % 4)
  match nd.op with
  | 0x00 => { out0 := a, ended := fa }
  | 0x01 => runPdec nd.table size a fa total
  | 0x02 => runRle w size a fa total
  | 0x03 => runDict (1 + nd.p1 % 2) (widthOf (bitsOf nd.p1 2 1)) (bitsOf nd.p1 28 16) nd.table size a fa total
  | 0x04 => elementwiseOp w (fun (y : Nat) bs => let v := (y + numOfBytes bs) % 2 ^ (8 * w); (bytesOf w v, v)) nd.p2.toNat size a fa total
  | 0x05 => elementwiseOp w (fun (y : Nat) bs => (bytesOf w (numOfBytes bs + 2 ^ (8 * w) - y % 2 ^ (8 * w)), numOfBytes bs)) nd.p2.toNat size a fa total
  | 0x06 => runBunp (nd.p1 % 64) (widthOf (bitsOf nd.p1 7 6)) (bitsOf nd.p1 8 8 = 1) size a fa total
  | 0x07 => runBpk (nd.p1 % 64) (widthOf (bitsOf nd.p1 7 6)) size a fa total
  | 0x08 => runSq nd.p1 nd.p2 size a fa total
  | 0x09 => runLtr (bitsOf nd.p1 7 0) (bitsOf nd.p1 15 8) (widthOf (bitsOf nd.p1 17 16)) size a fa total
  | 0x0A => runFilt nd.p1 nd.p2 size a fa total
  | 0x0B => runSplit (nd.p1 % 2 = 1) (bitsOf nd.p1 13 1) size a fa total
  | 0x0C => runJoin (nd.p1 % 2 = 1) (bitsOf nd.p1 13 1) a b fa fb
  | _ => runCrc (nd.p1 % 2 = 1) a fa total

/-! ### Graphs -/

/-- The decoders that the watchdog bounds (R341), with the rate of their time bound. -/
def decoderRate : Nat → Option Nat
  | 0x01 => some 32
  | 0x02 => some 256
  | 0x03 => some 64
  | _ => none

def inChunk (size c : Nat) (t : Tagged) : Tagged := t.filter (fun x => chunkOf size x.1 = c)

/-- The expansion limit of one decoder over the chunks so far (R341). -/
def expansion (wdx size : Nat) (inp : Tagged) (r : NodeRun) (chunks : Nat) : NodeRun :=
  match (List.range chunks).find? (fun c => (inChunk size c inp).length * wdx < (inChunk size c r.out0).length) with
  | some c =>
    let lim := (inChunk size c inp).length * wdx
    let pos := (((inChunk size c r.out0).drop lim).head?.map (·.1)).getD 0
    let v : Viol := { code := 0x0B01, info := (inChunk size c r.out0).length, keep := some (r.out0.filter (fun x => decide (chunkOf size x.1 < c))).length, pos }
    match r.viol with
    | some w => if w.pos < pos then r else { r with viol := some v }
    | none => { r with viol := some v }
  | none => r

/-- The source of an input: the graph's input, or a node's port; with whether it has ended. -/
def inputOf (runs : Table Nat NodeRun) (graph : Tagged) (final : Bool) (code : Nat) : Option (Tagged × Bool) :=
  if 128 ≤ code then some (graph, final)
  else (runs.find (code % 64)).map (fun r => (if code / 64 % 2 = 1 then r.out1 else r.out0, r.ended))

/-- One pass over the nodes whose inputs are known. A node named in `cut` keeps only so many bytes and never ends. -/
def passNodes (sl : FabSlot) (graph : Tagged) (final : Bool) (chunks total : Nat) (cut : Option (Nat × Nat)) (runs : Table Nat NodeRun) :
    Table Nat NodeRun :=
  (sl.nodes.zipIdx).foldl (fun runs x =>
    if (runs.find x.2).isSome then runs else
    let nd := x.1
    match inputOf runs graph final nd.ina, (if nd.op = 0x0C then inputOf runs graph final nd.inb else some ([], true)) with
    | some (a, fa), some (b, fb) =>
      let r := runNode nd sl.chunk a b fa fb total
      let r := if (decoderRate nd.op).isSome then expansion sl.wdx sl.chunk a r chunks else r
      let r := match cut with
        | some (i, k) => if i = x.2 then { r with out0 := r.out0.take k, out1 := r.out1.take k, ended := false } else r
        | none => r
      runs.put x.2 (if r.viol.isSome then { r with ended := false } else r)
    | _, _ => runs) runs

def evalGraph (sl : FabSlot) (graph : Tagged) (final : Bool) (chunks total : Nat) (cut : Option (Nat × Nat)) : Table Nat NodeRun :=
  (List.range sl.nodes.length).foldl (fun runs _ => passNodes sl graph final chunks total cut runs) []

/-! ### Full connections (R340) -/

/-- Graph input with each byte's position. -/
def tagInput (bs : List Byte) : Tagged := (bs.zipIdx).map (fun x => (x.2 + 1, x.1))

/-- The bytes that a connection between nodes holds (R340). -/
def linkBytes : Nat := 256

/-- How far a node has come: the bytes it has taken from each input and put out on each port. -/
structure Flow where
  a : Nat := 0
  b : Nat := 0
  e0 : Nat := 0
  e1 : Nat := 0
deriving DecidableEq

/-- A node's work on the whole of its inputs: their lengths, and for each byte on a port the input bytes taken before it. -/
structure Trace where
  la : Nat
  lb : Nat
  t0 : List Nat
  t1 : List Nat
  ended : Bool

/-- A stream with each byte's own position. -/
def ownTags (t : Tagged) : Tagged := (untag t).zipIdx.map (fun x => (x.2 + 1, x.1))

def traceOf (sl : FabSlot) (graph : Tagged) (final : Bool) (runs : Table Nat NodeRun) (nd : SgNode) : Trace :=
  let (a, fa) := (inputOf runs graph final nd.ina).getD ([], false)
  let (b, fb) := if nd.op = 0x0C then (inputOf runs graph final nd.inb).getD ([], false) else ([], true)
  let r := runNode nd sl.chunk (ownTags a) (ownTags b) fa fb a.length
  { la := a.length, lb := b.length, t0 := r.out0.map (·.1), t1 := r.out1.map (·.1), ended := r.ended }

/-- A record or byte taken by a `join`: from which input, where it can take one. -/
def joinSide (nd : SgNode) (tr : Trace) (f : Flow) (availA availB : Nat) (endA endB : Bool) : Option Bool :=
  let doneA := endA && f.a == tr.la
  let doneB := endB && f.b == tr.lb
  let r := if nd.p1 % 2 = 1 then bitsOf nd.p1 13 1 else 2 ^ 64
  let fromA := !doneA && (doneB || decide (f.a / r ≤ f.b / r))
  if fromA then (if f.a < availA then some true else none) else (if f.b < availB then some false else none)

/-- A `join` takes and passes on bytes while its output connection has room. -/
def joinFlow (nd : SgNode) (tr : Trace) (availA availB : Nat) (endA endB : Bool) (cap : Nat) : Nat → Flow → Flow
  | 0, f => f
  | fuel + 1, f =>
    if cap ≤ f.e0 then f else
    match joinSide nd tr f availA availB endA endB with
    | some true => joinFlow nd tr availA availB endA endB cap fuel { f with a := f.a + 1, e0 := f.e0 + 1 }
    | some false => joinFlow nd tr availA availB endA endB cap fuel { f with b := f.b + 1, e0 := f.e0 + 1 }
    | none => f

/-- One node goes on as far as its inputs and its output connections let it. -/
def nodeFlow (nd : SgNode) (tr : Trace) (availA availB : Nat) (endA endB : Bool) (cap0 cap1 : Nat) (f : Flow) : Flow :=
  if nd.op = 0x0C then joinFlow nd tr availA availB endA endB cap0 (availA + availB) f
  else
    let stop (t : List Nat) (cap : Nat) : Nat := ((t.drop cap).head?).getD availA
    let a := Nat.min availA (Nat.min (stop tr.t0 cap0) (stop tr.t1 cap1))
    let out (t : List Nat) (cap : Nat) : Nat := Nat.min cap (t.takeWhile (· ≤ a)).length
    { f with a, e0 := out tr.t0 cap0, e1 := out tr.t1 cap1 }

/-- One pass over the nodes of a graph. -/
def flowPass (sl : FabSlot) (trs : List Trace) (input : Nat) (final : Bool) (fs : List Flow) : List Flow :=
  (sl.nodes.zip trs).zipIdx.foldl (fun fs x =>
    let nd := x.1.1
    let i := x.2
    let flow (k : Nat) : Flow := fs.getD k {}
    let avail (code : Nat) : Nat := if 128 ≤ code then input else if code / 64 % 2 = 1 then (flow (code % 64)).e1 else (flow (code % 64)).e0
    let ends (code : Nat) : Bool := if 128 ≤ code then final else ((trs[code % 64]?).any (fun t =>
      t.ended && (flow (code % 64)).a == t.la && (flow (code % 64)).b == t.lb))
    let taken (port : Nat) : Option Nat := sl.nodes.zipIdx.findSome? (fun y =>
      if y.1.ina = i + 64 * port then some (flow y.2).a
      else if y.1.op = 0x0C ∧ y.1.inb = i + 64 * port then some (flow y.2).b else none)
    let cap (port : Nat) : Nat := match taken port with
      | some n => n + linkBytes
      | none => 2 ^ 64
    fs.set i (nodeFlow nd x.1.2 (avail nd.ina) (if nd.op = 0x0C then avail nd.inb else 0) (ends nd.ina) (ends nd.inb) (cap 0) (cap 1) (flow i))) fs

/-- Passes until none changes anything. -/
def flowGo (sl : FabSlot) (trs : List Trace) (input : Nat) (final : Bool) : Nat → List Flow → List Flow
  | 0, fs => fs
  | fuel + 1, fs =>
    let gs := flowPass sl trs input final fs
    if gs = fs then fs else flowGo sl trs input final fuel gs

/-- The graph input bytes that the first node takes before every node waits for another, where the connections are full (R340);
only a graph with a `join` can come to that. -/
def accepted (sl : FabSlot) (input : List Byte) (final : Bool) : Nat :=
  if sl.nodes.all (fun nd => nd.op != 0x0C) then input.length else
  let g := tagInput input
  let runs := evalGraph sl g final ((input.length + sl.chunk - 1) / sl.chunk) input.length none
  let trs := sl.nodes.map (traceOf sl g final runs)
  let fuel := input.length + sumOf (trs.map (fun t => t.t0.length + t.t1.length)) + 1
  let fs := flowGo sl trs input.length final fuel (List.replicate sl.nodes.length {})
  ((sl.nodes.zip fs).findSome? (fun x => if x.1.ina = 128 then some x.2.a else none)).getD input.length

def outputOf (sl : FabSlot) (runs : Table Nat NodeRun) : List Byte :=
  match runs.find sl.out with
  | some r => untag (if sl.outp = 1 then r.out1 else r.out0)
  | none => []

/-- The output so far, and the first violation of the lowest node (R479). -/
def evalRun (sl : FabSlot) (input : List Byte) (final : Bool) : List Byte × Option FabEnd :=
  let g := tagInput input
  let chunks := (input.length + sl.chunk - 1) / sl.chunk
  let runs := evalGraph sl g final chunks input.length none
  let bad := (List.range sl.nodes.length).findSome? (fun i => ((runs.find i).bind (·.viol)).map (fun v => (i, v)))
  match bad with
  | none => (outputOf sl runs, none)
  | some (i, v) =>
    let stands := match v.keep with
      | none => []
      | some k => outputOf sl (evalGraph sl g false chunks input.length (some (i, k)))
    (stands, some { code := v.code, node := i, chunk := chunkOf sl.chunk v.pos, info := v.info, consumed := v.pos, stands })

/-! ### The descriptor (R332 to R335) -/

def sgNodeOf (w0 w1 : DWord) : SgNode :=
  { op := dfield w0 4 0, ina := dfield w0 15 8, inb := dfield w0 23 16, p1 := dfield w0 63 32, p2 := w1 }

def typeOk (p2 : DWord) : Bool :=
  dfield p2 63 13 = 0 && (1 ≤ dfield p2 10 8 && dfield p2 10 8 ≤ 5) &&
  (!dbit p2 12 || (12 ≤ dfield p2 7 4))

/-- A node's parameters within their ranges and its reserved fields zero (R335). -/
def paramsOk (nd : SgNode) : Bool :=
  let p := nd.p1
  let q := nd.p2
  match nd.op with
  | 0x00 => p = 0 && q = 0
  | 0x01 => p < 4 && q.toNat % 64 = 0
  | 0x02 => p < 4 && q = 0
  | 0x03 => bitsOf p 15 3 = 0 && bitsOf p 31 29 = 0 && 1 ≤ bitsOf p 28 16 && bitsOf p 28 16 ≤ 4096 && q.toNat % 64 = 0
  | 0x04 | 0x05 => p < 4 && q.toNat < 2 ^ (8 * widthOf p)
  | 0x06 => p < 512 && q = 0 && 1 ≤ p % 64 && p % 64 ≤ 32 && bitsOf p 7 6 < 3 && p % 64 ≤ 8 * widthOf (bitsOf p 7 6)
  | 0x07 => p < 256 && q = 0 && 1 ≤ p % 64 && p % 64 ≤ 32 && bitsOf p 7 6 < 3 && p % 64 ≤ 8 * widthOf (bitsOf p 7 6)
  | 0x08 => typeOk q
  | 0x09 => p < 2 ^ 18 && q = 0 && 2 ≤ bitsOf p 7 0 && bitsOf p 7 0 ≤ 64 && 2 ≤ bitsOf p 15 8 && bitsOf p 15 8 ≤ 64 &&
      bitsOf p 7 0 * bitsOf p 15 8 * widthOf (bitsOf p 17 16) ≤ 4096
  | 0x0A => p < 2 ^ 31 && 1 ≤ bitsOf p 12 0 && bitsOf p 12 0 ≤ 4096 && bitsOf p 30 28 < 6
  | 0x0B | 0x0C => p < 2 ^ 14 && q = 0 && (if p % 2 = 1 then 1 ≤ bitsOf p 13 1 else bitsOf p 13 1 = 0)
  | 0x0D => p < 2 && q = 0
  | _ => false

/-- An input code that names the graph input, or a port that exists (R333, R334). -/
def inputOk (ns : List SgNode) (code : Nat) : Bool :=
  if 128 ≤ code then code = 128
  else code % 64 < ns.length && (code / 64 = 0 || (ns.getD (code % 64) { op := 0, ina := 0, inb := 0, p1 := 0, p2 := 0 }).op = 0x0B)

def inputsOf (nd : SgNode) : List Nat := if nd.op = 0x0C then [nd.ina, nd.inb] else [nd.ina]

/-- Nodes that no path reaches twice: repeatedly the nodes whose inputs are settled. -/
def settledGo (ns : List SgNode) (done : List Nat) : Nat → List Nat
  | 0 => done
  | fuel + 1 =>
    settledGo ns ((List.range ns.length).filter (fun i =>
      (inputsOf (ns.getD i { op := 0, ina := 0, inb := 0, p1 := 0, p2 := 0 })).all (fun c => decide (128 ≤ c) || done.contains (c % 64)))) fuel

/-- The checks of R334 but for the tables'. -/
def graphOk (h0 stat : DWord) (rest : Bool) (raw : List (DWord × DWord)) : Bool :=
  let ns := raw.map (fun r => sgNodeOf r.1 r.2)
  let n := dfield h0 7 0
  let out := dfield h0 21 16 + 64 * dfield h0 22 22
  let uses := ns.flatMap inputsOf
  let ports := (ns.zipIdx).flatMap (fun x => if x.1.op = 0x0B then [x.2, x.2 + 64] else [x.2])
  dfield h0 63 56 = 0 && dfield h0 31 29 = 0 && !dbit h0 23 && dfield h0 15 8 = 0 && rest &&
  1 ≤ n && n ≤ 64 && 1 ≤ dfield h0 55 40 && 1 ≤ dfield h0 39 32 && 12 ≤ dfield h0 28 24 && dfield h0 28 24 ≤ 16 &&
  stat.toNat % 32 = 0 &&
  raw.all (fun r => dfield r.1 31 24 = 0 && dfield r.1 7 5 = 0 && (dfield r.1 4 0 = 0x0C || dfield r.1 23 16 = 0)) &&
  ns.all paramsOk && ns.all (fun nd => (inputsOf nd).all (inputOk ns)) && inputOk ns out && out < 128 &&
  (uses.filter (· == 128)).length = 1 &&
  ports.all (fun p => (uses.filter (· == p)).length = (if p = out then 0 else 1)) &&
  (settledGo ns [] (ns.length + 1)).length = ns.length

/-- The bytes of a node's table. -/
def tableBytes (nd : SgNode) : Nat :=
  match nd.op with
  | 0x01 => 288 * (nd.p1 % 4 + 1)
  | 0x03 => widthOf (bitsOf nd.p1 2 1) * bitsOf nd.p1 28 16
  | _ => 0

def tablesOk (nd : SgNode) : Bool :=
  nd.op != 0x01 || (List.range (nd.p1 % 4 + 1)).all (fun i => tableOk ((nd.table.drop (288 * i)).take 288))

/-- Table memory that a fabric's slots hold (R330). -/
def State.tableUsed (s : State) (fab : Nat) : Nat :=
  sumOf ((s.fabs.filter (fun f => f.1.1 = fab)).map (fun f => sumOf (f.2.nodes.map tableBytes)))

/-- The tables of the nodes read in turn. -/
def State.readTables (s : State) : List SgNode → State × (URead ⊕ List SgNode)
  | [] => (s, .inr [])
  | nd :: ns =>
    let n := tableBytes nd
    match (if n = 0 then (s, .ok []) else s.uRead nd.p2 n 1) with
    | (s, .ok bs) =>
      match State.readTables s ns with
      | (s, .inr l) => (s, .inr ({ nd with table := bs } :: l))
      | r => r
    | (s, e) => (s, .inl e)

def allOnes : DWord := 0xFFFFFFFFFFFFFFFF#64

/-- `sf.load kD, kA` (R275): the descriptor is checked before a slot is sought. -/
def execSfLoad (fab d a : Fin 64) (s : State) : Host.Outcome State Fault Refusal :=
  .next (s.runU [.k a] (some (.k d)) (fun s vs =>
    let va := vs.getD 0 0
    match s.uRead va 64 1 with
    | (s, .fault f) => (s, { fault := some f })
    | (s, .page p) => s.uPage p (some d.val)
    | (s, .ok h) =>
      let h0 := dwordsOf h 0
      let n := dfield h0 7 0
      if n = 0 ∨ 64 < n then (s, { fault := some { code := 0x0B04 } })
      else
        match s.uRead (va + 64) (16 * n) 1 with
        | (s, .fault f) => (s, { fault := some f })
        | (s, .page p) => s.uPage p (some d.val)
        | (s, .ok body) =>
          let raw := (List.range n).map (fun i => (dwordsOf body (16 * i), dwordsOf body (16 * i + 8)))
          if !graphOk h0 (dwordsOf h 8) ((h.drop 16).all (· == 0)) raw then (s, { fault := some { code := 0x0B04 } })
          else
            match s.readTables (raw.map (fun r => sgNodeOf r.1 r.2)) with
            | (s, .inl (.page p)) => s.uPage p (some d.val)
            | (s, .inl (.fault f)) => (s, { fault := some f })
            | (s, .inl (.ok _)) => (s, {})
            | (s, .inr nodes) =>
              if !nodes.all tablesOk || decide (65536 < s.tableUsed fab.val + sumOf (nodes.map tableBytes)) then
                (s, { fault := some { code := 0x0B04 } })
              else if s.plat.fsFabric.contains fab.val then (s, { res := some allOnes })
              else
                match (List.range 8).find? (fun k => (s.fabs.find (fab.val, k)).isNone) with
                | none => (s, { res := some allOnes })
                | some k =>
                  let sl : FabSlot := { owner := s.issueTeam, wdcyc := dfield h0 55 40, wdx := dfield h0 39 32, chunk := 2 ^ dfield h0 28 24,
                                        out := dfield h0 21 16, outp := dfield h0 22 22, stat := dwordsOf h 8, nodes }
                  ({ s with fabs := s.fabs.put (fab.val, k) sl }, { res := some (dw (fab.val + 64 * k)) })))

/-- A handle's slot, where the team may name it (R275, R487). -/
def State.handle (s : State) (t : TeamId) (v : DWord) : Option ((Nat × Nat) × FabSlot) :=
  if 2 ^ 9 ≤ v.toNat then none else
  let key := (dfield v 5 0, dfield v 8 6)
  match s.fabs.find key with
  | some sl => if sl.owner = t ∧ !sl.unusable ∧ !s.plat.fsFabric.contains key.1 then some (key, sl) else none
  | none => none

def State.modFab (s : State) (k : Nat × Nat) (f : FabSlot → FabSlot) : State := { s with fabs := s.fabs.upd k f }

/-- Whether a run, or a command that waits to run, holds a slot. -/
def State.fabBusy (s : State) (k : Nat × Nat) : Bool :=
  ((s.fabs.find k).any (·.run.isSome)) || s.cmds.any (fun c => c.engine = .fabric k.1 k.2)

/-- `sf.bind kA, kB` (R276). -/
def execSfBind (a b : Fin 64) (s : State) : Host.Outcome State Fault Refusal :=
  .next (s.runU [.k a, .k b] none (fun s vs =>
    match s.handle s.issueTeam (vs.getD 0 0) with
    | none => (s, { fault := some { code := 0x0B05 } })
    | some (key, _) =>
      match s.uRead (vs.getD 1 0) 32 1 with
      | (s, .fault f) => (s, { fault := some f })
      | (s, .page p) => s.uPage p none
      | (s, .ok r) =>
        let addr := dwordsOf r 0
        let mem := dwordsOf r 8
        let str := dwordsOf r 16
        let dir := dwordsOf r 24
        if addr.toNat % 64 ≠ 0 ∨ 2 ^ 40 ≤ mem.toNat ∨ 2 ^ 40 ≤ str.toNat ∨ 2 ≤ dir.toNat then (s, { fault := some { code := 0x0B04 } })
        else if s.fabBusy key then (s, { next := .stay, stall := .handle key.1 key.2 })
        else (s.modFab key (fun sl => { sl with bind := some (addr, mem.toNat, str.toNat, dbit dir 0), spent := false }), {})))

/-- Whether a backing region leaves the fabric's stack, as far as its pages are mapped: each 4 KiB granule lies in one stack,
in either view (R67, R331). -/
def State.backingOut (s : State) (c : Cmd) (fab : Nat) (addr : DWord) (n : Nat) : Bool :=
  (List.range ((addr.toNat % 4096 + n + 4095) / 4096)).any (fun i =>
    let va := if i = 0 then addr else dw ((addr.toNat / 4096 + i) * 4096)
    match (s.checkIssue (s.engAccess c .engRead va 1)).2 with
    | .ok t => !(isHbm t.loc && stackOf t.loc == fab / 4)
    | _ => false)

/-- The checks of `sf.run` (R277, R331). -/
def State.prepSfRun (s : State) (t : TeamId) (cf : Nat) (a b : DWord) : Engine × Prep :=
  match s.handle t a with
  | none => (.fabric 0 0, .fail { code := 0x0B05 })
  | some (key, sl) =>
    let busy := s.fabBusy key
    match sl.bind with
    | none => (.fabric key.1 key.2, .fail { code := 0x0B05 })
    | some (addr, mem, _, _) =>
      let c := s.mkCmd t (.fabric key.1 key.2) (.sfRun key.1 key.2 b) (cfOf cf)
      if sl.spent && !busy then (.fabric key.1 key.2, .fail { code := 0x0B05 })
      else if s.backingOut c key.1 addr mem then (.fabric key.1 key.2, .fail { code := 0x0B06 })
      else (.fabric key.1 key.2, .ok (.sfRun key.1 key.2 b) (cfOf cf))

/-- `sf.run kA, kB` (R277): on a handle already running it stalls. -/
def execSfRun (cf : BitVec 16) (a b : Fin 64) (s : State) : Host.Outcome State Fault Refusal :=
  .next (s.runU [.k a, .k b] none (fun s vs =>
    let (e, p) := s.prepSfRun s.issueTeam cf.toNat (vs.getD 0 0) (vs.getD 1 0)
    s.issueCmd e p))

/-- `sf.unbind kA` (R278). -/
def execSfUnbind (a : Fin 64) (s : State) : Host.Outcome State Fault Refusal :=
  .next (s.runU [.k a] none (fun s vs =>
    match s.handle s.issueTeam (vs.getD 0 0) with
    | none => (s, { fault := some { code := 0x0B05 } })
    | some (key, _) =>
      if s.fabBusy key then (s, { next := .stay, stall := .handle key.1 key.2 })
      else ({ s with fabs := s.fabs.del key }, {})))

/-! ### Runs (R339 to R344) -/

/-- A run starts on a slot: its binding is spent (R276). -/
def State.startFabric (s : State) (key : Nat × Nat) (id : Nat) (dst : DWord) : State :=
  s.modFab key (fun sl => { sl with run := some id, spent := true, dst, input := [], output := none, doomed := none, stuck := false })

/-- The status record (R344, R479), written as any other bytes of the command are. -/
def State.writeStatus (s : State) (c : Cmd) (stat : DWord) (inBytes : Nat) (out : List Byte) (code : Nat) : State × EngRes Unit :=
  if stat = 0 then (s, .ok ()) else
  let r := s.engWrite c stat (bytesOf 8 inBytes ++ bytesOf 8 out.length ++ bytesOf 8 (code * 2 ^ 32 + (crc32c out).toNat) ++ bytesOf 8 0)
    (fun _ _ => false) 0
  (r.1, r.2.2)

/-- The limit on a run's whole output (R277, R343): passed, or at the end not met. -/
def outputEnd (bind : DWord × Nat × Nat × Bool) (out : List Byte) (final : Bool) (chunk consumed : Nat) : Option FabEnd :=
  let (_, mem, str, wr) := bind
  let lim := if wr then mem else str
  let e : FabEnd := { code := 0x0B01, node := 0x3F, chunk, info := out.length, consumed, stands := out.take lim }
  if lim < out.length then some e
  else if final && !wr && out.length < str then some e
  else none

/-- The chunks on which a decoder's time limit lies below the bound of R341, by node, with the bound. -/
def slowChunks (sl : FabSlot) (input : List Byte) (final : Bool) (c : Nat) : List (Nat × Nat) :=
  let g := tagInput input
  let runs := evalGraph sl g final (c + 1) input.length none
  (sl.nodes.zipIdx).filterMap fun x =>
    match decoderRate x.1.op, inputOf runs g final x.1.ina, runs.find x.2 with
    | some r, some (a, _), some o =>
      let i := (inChunk sl.chunk c a).length
      let bound := 2 * ((i + 255) / 256 + ((inChunk sl.chunk c o.out0).length + r - 1) / r) + 64
      if 64 * sl.wdcyc < bound then some (x.2, bound) else none
    | _, _, _ => none

/-- Whether a run's source lets it read (R74). -/
def State.streamReady (s : State) (c : Cmd) : Bool :=
  match c.op with
  | .sfRun .. => s.srcReady c
  | _ => true

/-- STREAM_CHUNK: the next input chunk of a slot's run passes through its graph (R339). -/
def execStreamChunk (f slot : Nat) (s : State) : Host.Outcome State Fault Refusal :=
  match s.fabs.find (f, slot) with
  | none => .next s
  | some sl =>
    match sl.run.bind s.cmd, sl.bind with
    | some c, some (addr, mem, str, wr) =>
      if sl.output.isSome || sl.doomed.isSome || sl.stuck || c.waitReplay || !s.streamReady c then .next s else
      let total := if wr then str else mem
      let at_ := sl.input.length
      let k := Nat.min sl.chunk (total - at_)
      match s.engRead c ((if wr then sl.dst else addr) + dw at_) k with
      | (s, .hold va) => .next (s.due [.commandHold c.id (dw va)])
      | (s, .bad e) =>
        let fe : FabEnd := { code := e.code, node := 0x3F, chunk := at_ / sl.chunk, info := e.info1.toNat, consumed := at_, stands := (evalRun sl sl.input false).1 }
        .next ((s.modFab (f, slot) (fun sl => { sl with doomed := some fe })).due [.commandEnd c.id (BitVec.ofNat 16 e.code) e.addr])
      | (s, .ok (bs, p)) =>
        if p then
          let fe : FabEnd := { code := 0x0F01, node := 0x3F, chunk := at_ / sl.chunk, info := 0, consumed := at_, stands := (evalRun sl sl.input false).1 }
          .next ((s.modFab (f, slot) (fun sl => { sl with doomed := some fe })).due
            [.commandEnd c.id 0x0F01#16 ((if wr then sl.dst else addr) + dw at_)])
        else
          let input := sl.input ++ bs
          let final := total ≤ input.length
          let (out, bad) := evalRun sl input final
          let taken := accepted sl input final
          if taken < input.length && !bad.any (fun e => decide (e.consumed ≤ taken)) then
            .next (s.modFab (f, slot) (fun sl => { sl with input, stuck := true }))
          else
          let bad := bad <|> outputEnd (addr, mem, str, wr) out final (at_ / sl.chunk) input.length
          let s := s.modFab (f, slot) (fun sl => { sl with input, doomed := bad, output := if final && bad.isNone then some out else none })
          match bad with
          | some e => .next (s.due [.commandEnd c.id (BitVec.ofNat 16 e.code) 0])
          | none =>
            match slowChunks sl input final (at_ / sl.chunk) with
            | [] => .next s
            | (node, bound) :: _ =>
              let s := s.tickFree
              if Config.decoderSlow (s.sys.free - 1) then
                let s := s.tickFree
                let past := 64 * sl.wdcyc + 1 + (Config.freeValue (s.sys.free - 1)).toNat % (bound - 64 * sl.wdcyc)
                .next (s.due [.cycleViolation f slot node past])
              else .next s
    | _, _ => .next s

/-- A run doomed at a node on a chunk: what was attributed to the chunks before it stands (R480). -/
def FabSlot.doomAt (sl : FabSlot) (code node chunk info : Nat) : FabEnd :=
  { code, node, chunk, info, consumed := sl.input.length, stands := (evalRun sl (sl.input.take (chunk * sl.chunk)) false).1 }

/-- A failed verification on a connection or at a stage, which comes to a run from outside: 0x0B03 at the node and on the chunk
that the event's address gives, in bits 5 to 0 and from bit 16 (R342, R480; log entry 68). -/
def State.checkFailed (s : State) (id : Nat) (code : Nat) (addr : DWord) : State :=
  if code != 0x0B03 then s else
  { s with fabs := s.fabs.map (fun x => if x.2.run = some id ∧ x.2.doomed.isNone then
      (x.1, { x.2 with doomed := some (x.2.doomAt code (dfield addr 5 0) (dfield addr 47 16) 0), output := none }) else x) }

/-- CYCLE_VIOLATION: a decoder's working time on a chunk passed its limit; the run ends (R341, R480). -/
def execCycleViolation (f slot node cycles : Nat) (s : State) : Host.Outcome State Fault Refusal :=
  match s.fabs.find (f, slot) with
  | none => .next s
  | some sl =>
    match sl.run, sl.doomed with
    | some id, none =>
      let e := sl.doomAt 0x0B02 node ((sl.input.length - 1) / sl.chunk) cycles
      .next ((s.modFab (f, slot) (fun sl => { sl with doomed := some e, output := none })).due [.commandEnd id 0x0B02#16 0])
    | _, _ => .next s

/-- A completed `sf.run`: its output written, then its status record (R343, R344). -/
def State.runFabric (s : State) (c : Cmd) (f slot : Nat) : State × Ran :=
  match s.fabs.find (f, slot) with
  | none => (s, .bad { code := 0x0B05 } 0 0)
  | some sl =>
    match sl.output, sl.bind with
    | some out, some (addr, _, _, wr) =>
      let (s, k, r) := s.engWrite c (if wr then addr else sl.dst) out (fun _ _ => false) c.done
      let s := s.setDone c k
      match r with
      | .ok _ =>
        match s.writeStatus c sl.stat sl.input.length out 0 with
        | (s, .ok _) => (s.modFab (f, slot) (fun sl => { sl with run := none, input := [], output := none }), .done out.length)
        | (s, r) => (s, ranOf r out.length)
      | r => (s, ranOf r out.length)
    | _, _ => (s, .wait)

/-- What stands of an ended run's output: whole lines, unless it is the whole output (R479). -/
def standing (e : FabEnd) (lim : Nat) : List Byte :=
  if e.stands.length = lim then e.stands else e.stands.take (e.stands.length / 64 * 64)

/-- Steps 2 and 3 of an `sf.run`'s end, with the bytes of its arrival (R468, R479, R480). -/
def State.endFabric (s : State) (c : Cmd) (f slot code : Nat) : State × Nat :=
  match s.fabs.find (f, slot) with
  | none => (s, 0)
  | some sl =>
    match sl.bind with
    | none => (s, 0)
    | some (addr, mem, str, wr) =>
      let e := sl.doomed.getD { code, node := 0x3F, chunk := 0, info := 0, consumed := sl.input.length,
                                stands := if sl.run = some c.id then sl.output.getD (evalRun sl sl.input false).1 else [] }
      let out := standing e (if wr then mem else str)
      let (s, k, _) := s.engWrite c (if wr then addr else sl.dst) out (fun _ _ => false) c.done
      let s := if wr then s else s.poisonRange c (.va sl.dst str) k
      let stands := if k = out.length then out else out.take (k / 64 * 64)
      let s := (s.writeStatus c sl.stat e.consumed stands code).1
      (s.modFab (f, slot) (fun sl => { sl with run := none, input := [], output := none }), if wr then k else str)

end Sys2Proof.Machine
end

