-- ==== Sys2Proof/Machine/FloatOps.lean ====
section
/-!
DEFINITION. Floating-point instructions, conversions, comparison and selection (spec/07_lane_instructions.md, R176 to
R183, R185, R186).
-/
namespace Sys2Proof.Machine

/-- A one-word binary32 instruction that rounds by `$fmode` and does not saturate (R176, R179). -/
def State.f32op (s : State) (d : Dst) (srcs : List Src) (g : RMode → List FVal → FVal × Flags) : State :=
  s.runPure { srcs := srcs.map (·, false), dst := some (d, false) } (fun s l =>
    let m := s.roundMode l.who .dyn
    let r := f32F.finish m false (g m (l.vals.map (fun v => f32F.decode v.toNat)))
    { res := some (dw r.1), fl := r.2 })

/-- A one-word binary32 instruction on codes that rounds nothing. -/
def State.f32code (s : State) (d : Dst) (srcs : List Src) (g : List Nat → Nat × Flags) : State :=
  s.runPure { srcs := srcs.map (·, false), dst := some (d, false) } (fun _ l =>
    let r := g (l.vals.map (fun v => v.toNat % 2 ^ 32))
    { res := some (dw r.1), fl := r.2 })

/-- `add.f32` (R176). -/
def execAddF32 (d : Dst) (a b : Src) (s : State) : Host.Outcome State Fault Refusal :=
  .next (s.f32op d [a, b] (fun m v => FVal.add m (FVal.at v 0) (FVal.at v 1)))
/-- `sub.f32` (R176). -/
def execSubF32 (d : Dst) (a b : Src) (s : State) : Host.Outcome State Fault Refusal :=
  .next (s.f32op d [a, b] (fun m v => FVal.sub m (FVal.at v 0) (FVal.at v 1)))
/-- `mul.f32` (R176). -/
def execMulF32 (d : Dst) (a b : Src) (s : State) : Host.Outcome State Fault Refusal :=
  .next (s.f32op d [a, b] (fun _ v => FVal.mul (FVal.at v 0) (FVal.at v 1)))
/-- `div.f32` (R176). -/
def execDivF32 (d : Dst) (a b : Src) (s : State) : Host.Outcome State Fault Refusal :=
  .next (s.f32op d [a, b] (fun _ v => FVal.div (FVal.at v 0) (FVal.at v 1)))
/-- `min.f32` (R177). -/
def execMinF32 (d : Dst) (a b : Src) (s : State) : Host.Outcome State Fault Refusal :=
  .next (s.f32code d [a, b] (fun x => f32F.minMax false (x.getD 0 0) (x.getD 1 0)))
/-- `max.f32` (R177). -/
def execMaxF32 (d : Dst) (a b : Src) (s : State) : Host.Outcome State Fault Refusal :=
  .next (s.f32code d [a, b] (fun x => f32F.minMax true (x.getD 0 0) (x.getD 1 0)))
/-- `sqrt.f32` (R176). -/
def execSqrtF32 (d : Dst) (a : Src) (s : State) : Host.Outcome State Fault Refusal :=
  .next (s.f32op d [a] (fun _ v => FVal.sqrt (FVal.at v 0)))
/-- `rsqrt.f32` (R179). -/
def execRsqrtF32 (d : Dst) (a : Src) (s : State) : Host.Outcome State Fault Refusal :=
  .next (s.f32op d [a] (fun _ v => FVal.rsqrt (FVal.at v 0)))
/-- `rcp.f32` (R179). -/
def execRcpF32 (d : Dst) (a : Src) (s : State) : Host.Outcome State Fault Refusal :=
  .next (s.f32op d [a] (fun _ v => FVal.rcp (FVal.at v 0)))
/-- `exp2.f32` (R179). -/
def execExp2F32 (d : Dst) (a : Src) (s : State) : Host.Outcome State Fault Refusal :=
  .next (s.f32op d [a] (fun _ v => FVal.exp2 (FVal.at v 0)))
/-- `log2.f32` (R179). -/
def execLog2F32 (d : Dst) (a : Src) (s : State) : Host.Outcome State Fault Refusal :=
  .next (s.f32op d [a] (fun _ v => FVal.log2 (FVal.at v 0)))
/-- `sin.f32` (R179). -/
def execSinF32 (d : Dst) (a : Src) (s : State) : Host.Outcome State Fault Refusal :=
  .next (s.f32op d [a] (fun _ v => FVal.trig false (FVal.at v 0)))
/-- `cos.f32` (R179). -/
def execCosF32 (d : Dst) (a : Src) (s : State) : Host.Outcome State Fault Refusal :=
  .next (s.f32op d [a] (fun _ v => FVal.trig true (FVal.at v 0)))
/-- `tanh.f32` (R179). -/
def execTanhF32 (d : Dst) (a : Src) (s : State) : Host.Outcome State Fault Refusal :=
  .next (s.f32op d [a] (fun _ v => FVal.tanh (FVal.at v 0)))
/-- `fclass.f32` (R180). -/
def execFclassF32 (d : Dst) (a : Src) (s : State) : Host.Outcome State Fault Refusal :=
  .next (s.f32code d [a] (fun x => (2 ^ fclassBit (x.getD 0 0), 0)))
/-- `abs.f32` (R178). -/
def execAbsF32 (d : Dst) (a : Src) (s : State) : Host.Outcome State Fault Refusal :=
  .next (s.f32code d [a] (fun x => f32F.absCode (x.getD 0 0)))

/-- A floating-point element instruction; no integer type reaches it (R171). -/
def fpOp (f : Fmt) (g : RMode → List FVal → FVal × Flags) : RMode → List Nat → Nat × Flags :=
  exactOp f (fun _ => 0) g

/-- `sqrt` (R176). -/
def execSqrt (f : Fmt) (d : Dst) (a : Src) (s : State) : Host.Outcome State Fault Refusal :=
  .next (s.elementwise f false d [a] (fpOp f (fun _ v => FVal.sqrt (FVal.at v 0))))
/-- `fma` (R176). -/
def execFma (f : Fmt) (d : Dst) (a b c : Src) (s : State) : Host.Outcome State Fault Refusal :=
  .next (s.elementwise f false d [a, b, c] (fpOp f (fun m v => FVal.fma m (FVal.at v 0) (FVal.at v 1) (FVal.at v 2))))
/-- `scalb` (R176): the second source is a 32-bit signed value. -/
def execScalb (f : Fmt) (d : Dst) (a b : Src) (s : State) : Host.Outcome State Fault Refusal :=
  .next (s.runPure { srcs := [(a, f.ty.wide), (b, false)], dst := some (d, f.ty.wide) } (fun s l =>
    match tyFmt f.ty with
    | some F =>
      let r := F.finish (s.roundMode l.who f.rc.mode) f.rc.sat (FVal.scalb (F.decode (l.v 0).toNat) (l.w 1).toInt)
      { res := some (dw r.1), fl := r.2 }
    | none => {}))
/-- `rnd` (R181). -/
def execRnd (f : Fmt) (d : Dst) (a : Src) (s : State) : Host.Outcome State Fault Refusal :=
  .next (s.elementwise f false d [a] (fun m xs =>
    match tyFmt f.ty with
    | some F => F.rnd m (xs.getD 0 0)
    | none => (0, 0)))

/-! ### Conversion (R182, R183) -/

/-- One element converted (R183). -/
def cvtElem (m : RMode) (sat : Bool) (dst src : CvtTy) (x : Nat) : Nat × Flags :=
  let toFp (F : FpFmt) (v : FVal) (fl : Flags) : Nat × Flags := F.finish m sat (v, fl)
  match src with
  | .ty st =>
    match tyFmt st with
    | some S =>
      let v := S.decode x
      let sg := sigFlag [v]
      match dst with
      | .ty dt =>
        match tyFmt dt with
        | some D => toFp D v sg
        | none => let r := v.toInt m dt.isSigned dt.bits; (wrapTo dt.bits r.1, r.2)
      | .e8m0 => FVal.toE8m0 m sat v
    | none =>
      let n := intVal st x
      match dst with
      | .ty dt =>
        match tyFmt dt with
        | some D => toFp D (FVal.ofFrac false n 1) 0
        | none => (intElem dt (sat && decide (dt.bits < st.bits)) n, 0)
      | .e8m0 => FVal.toE8m0 m sat (FVal.ofFrac false n 1)
  | .e8m0 =>
    let v := e8m0Value x
    match dst with
    | .ty dt =>
      match tyFmt dt with
      | some D => toFp D v 0
      | none => let r := v.toInt m dt.isSigned dt.bits; (wrapTo dt.bits r.1, r.2)
    | .e8m0 => (x, 0)

/-- Whether a converted result is extended by its sign (R163). -/
def cvtSigned : CvtTy → Bool
  | .ty t => t.isSigned
  | .e8m0 => false

/-- `cvt` (R182, R183). -/
def execCvt (f : CvtFmt) (d : Dst) (a : Src) (s : State) : Host.Outcome State Fault Refusal :=
  .next (s.runPure { srcs := [(a, decide (32 < f.srcBits))], dst := some (d, decide (32 < f.dstBits)) } (fun s l =>
    let m := s.roundMode l.who f.rc.mode
    let rs := (List.range f.count).map (fun e => cvtElem m f.rc.sat f.dst f.src (elemAt f.src.width (l.v 0) e))
    let fl := rs.foldl (fun a r => a ||| r.2) 0
    let v := if f.count = 1 then dw (extendTo32 (cvtSigned f.dst) f.dst.width ((rs.map (·.1)).headD 0))
      else joinElems f.dst.width (rs.map (·.1))
    { res := some v, fl := fl }))

/-! ### Comparison and selection (R185, R186) -/

/-- Whether a comparison of two integers holds (R185); `ord` and `un` are no integer conditions. -/
def intCmp (c : CmpCond) (x y : Int) : Bool :=
  match c with
  | .eq => x == y | .ne => x != y | .lt => decide (x < y) | .le => decide (x ≤ y)
  | .gt => decide (y < x) | .ge => decide (y ≤ x) | .ord => true | .un => false

def cmpElem (c : CmpCond) (t : Ty) (x y : Nat) : Bool × Flags :=
  match tyFmt t with
  | none => (intCmp c (intVal t x) (intVal t y), 0)
  | some F => FVal.cmp c (F.decode x) (F.decode y)

/-- `cmp` (R185). -/
def execCmp (c : CmpCond) (t : Ty) (p : Fin 8) (a b : Src) (s : State) : Host.Outcome State Fault Refusal :=
  .next (s.runPure { srcs := [(a, t.wide), (b, t.wide)], pdst := some p.val } (fun _ l =>
    let r := cmpElem c t (l.v 0).toNat (l.v 1).toNat
    { pred := some (p.val, r.1), fl := r.2 }))

/-- `sel` (R186). -/
def execSel (t : Ty) (p : Fin 8) (neg : Bool) (d : Dst) (a b : Src) (s : State) : Host.Outcome State Fault Refusal :=
  .next (s.runPure { srcs := [(a, t.wide), (b, t.wide)], dst := some (d, t.wide), preds := [p.val] } (fun _ l =>
    { res := some (if l.t.pred p.val != neg then l.v 0 else l.v 1) }))

end Sys2Proof.Machine
end

