-- ==== Sys2Proof/Machine/Matrix.lean ====
section
/-!
DEFINITION. The matrix engine and the accumulator banks: ownership (R248), parameter blocks (R249 to R251), operand
fetch (R252 to R255, R472, R473), multicast (R253, R474), the sums (R128, R129, R256), banks (R257 to R259), drain and
pack (R260, R261, R478).
-/
namespace Sys2Proof.Machine

/-! ### Ownership (R248, R324) -/

/-- `mx.acquire` (R248). -/
def execMxAcquire (s : State) : Host.Outcome State Fault Refusal :=
  .next (s.runU [] none (fun s _ =>
    let i := s.sys.issue
    let k := s.core i.core
    match k.owner with
    | none => (s.setCore i.core { k with owner := some i.ctx, ownerQueue := k.ownerQueue.filter (· != i.ctx) }, {})
    | some o =>
      if o = i.ctx then (s, {})
      else if k.ownerQueue.contains i.ctx then (s, { next := .stay, stall := .owner })
      else if 8 ≤ k.ownerQueue.length then (s, { next := .stay, stall := .ownerRoom })
      else (s.setCore i.core { k with ownerQueue := k.ownerQueue ++ [i.ctx] }, { next := .stay, stall := .owner })))

/-- `mx.release` (R248). -/
def execMxRelease (s : State) : Host.Outcome State Fault Refusal :=
  .next (s.runU [] none (fun s _ =>
    let i := s.sys.issue
    if (s.core i.core).owner = some i.ctx then (s.passOwner i.core, {}) else (s, { fault := some { code := 0x0802 } })))

/-! ### Accumulator banks (R257 to R259) -/

/-- An accumulator element's place in the table. -/
def accKey (core idx : Nat) : Nat := core * 131072 + idx
def State.acc (s : State) (core idx : Nat) : DWord := (s.accs.find (accKey core idx)).getD 0
def State.setAcc (s : State) (core idx : Nat) (v : DWord) : State := { s with accs := s.accs.put (accKey core idx) v }

/-- The banks of a range. -/
def bankList (lo n : Nat) : List Nat := (List.range n).map (fun i => lo + i)

/-- The banks a matrix-queue command names. -/
def CmdOp.banks : CmdOp → List Nat
  | .mx o => bankList o.bank ((o.m * o.n + 255) / 256)
  | .accZero b n => bankList b n
  | .accDrain _ w => bankList (adBank w) ((adCount w + 255) / 256)
  | .accPack _ w => bankList (adBank w) (adCount w)
  | _ => []

/-- Whether a queued or running matrix-queue command of the core names one of the banks (R258, R259). -/
def State.banksNamed (s : State) (core : Nat) (bs : List Nat) : Bool :=
  s.cmds.any (fun c => c.engine = .matrix core && c.op.banks.any (fun b => bs.contains b))

def State.heldBanks (s : State) (t : TeamId) : List Nat := ((s.team t).map (·.banks)).getD []

/-- `acc.alloc kD, kA` (R257): the lowest run of free banks. -/
def execAccAlloc (d a : Fin 64) (s : State) : Host.Outcome State Fault Refusal :=
  .next (s.runU [.k a] (some (.k d)) (fun s vs =>
    let n := (vs.getD 0 0).toNat
    let t := s.issueTeam
    if n = 0 ∨ 512 < n then (s, { fault := some { code := 0x0207 } })
    else
      match s.team t with
      | some v =>
        match (List.range (v.accCount + 1 - n)).find? (fun i => (bankList (v.accBase + i) n).all (fun b => !v.banks.contains b)) with
        | some i => (s.modTeam t (fun x => { x with banks := (bankList (v.accBase + i) n).foldl insertNat x.banks }),
                     { res := some (dw (v.accBase + i)) })
        | none => (s, { res := some allOnes })
      | none => (s, { res := some allOnes })))

/-- A bank range word's check (R258). -/
def State.bankRange (s : State) (t : TeamId) (w : DWord) (cfAllowed : Bool) : Except Fail (Nat × Nat) :=
  let b := dfield w 8 0
  let n := dfield w 18 9
  let cf := dfield w 63 48
  if n = 0 ∨ 512 < n ∨ dfield w 47 19 ≠ 0 ∨ (if cfAllowed then !cfOk cf else cf != 0) then .error { code := 0x0207 }
  else if 512 < b + n ∨ !(bankList b n).all (fun x => (s.heldBanks t).contains x) then .error { code := 0x0405 }
  else .ok (b, n)

/-- `acc.free kA` (R258): it stalls while a command names a bank of the range. -/
def execAccFree (a : Fin 64) (s : State) : Host.Outcome State Fault Refusal :=
  .next (s.runU [.k a] none (fun s vs =>
    let t := s.issueTeam
    match s.bankRange t (vs.getD 0 0) false with
    | .error f => (s, { fault := some f })
    | .ok (b, n) =>
      if s.banksNamed t.1 (bankList b n) then (s, { next := .stay, stall := .bank b n })
      else (s.modTeam t (fun v => { v with banks := v.banks.filter (fun x => !(bankList b n).contains x) }), {})))

def State.prepAccZero (s : State) (t : TeamId) (w : DWord) : Prep :=
  match s.bankRange t w true with
  | .error f => .fail f
  | .ok (b, n) => .ok (.accZero b n) (cfOf (dfield w 63 48))

/-- `acc.zero kA` (R258). -/
def execAccZero (a : Fin 64) (s : State) : Host.Outcome State Fault Refusal :=
  .next (s.runU [.k a] none (fun s vs => s.issueCmd (.matrix s.sys.issue.core) (s.prepAccZero s.issueTeam (vs.getD 0 0))))

/-- The rounding mode of the control word, taken from `$fmode` at issue where it names it (R123, R260). -/
def State.drainMode (s : State) (t : TeamId) (w : DWord) : DWord :=
  if dfield w 33 31 = 0 then w ||| ((((s.team t).map Team.fmode).getD 1).setWidth 64 : DWord) <<< 31 else w

/-- The checks of `acc.drain` and `acc.pack` (R260, R442). -/
def State.prepDrain (s : State) (t : TeamId) (pack : Bool) (a w : DWord) : Prep :=
  let n := adCount w
  let cf := dfield w 63 48
  let banks := bankList (adBank w) (if pack then n else (n + 255) / 256)
  if dfield w 47 37 ≠ 0 ∨ 5 < dfield w 33 31 ∨ a.toNat % 64 ≠ 0 ∨ n = 0 ∨ (if pack then 512 else 131072) < n ∨ !cfOk cf then
    .fail { code := 0x0207 }
  else if 512 < adBank w + banks.length ∨ !banks.all (fun b => (s.heldBanks t).contains b) then .fail { code := 0x0405 }
  else
    let w := s.drainMode t w
    .ok (if pack then .accPack a w else .accDrain a w) (cfOf cf)

/-- `acc.drain kA, kB` (R260). -/
def execAccDrain (a b : Fin 64) (s : State) : Host.Outcome State Fault Refusal :=
  .next (s.runU [.k a, .k b] none (fun s vs =>
    s.issueCmd (.matrix s.sys.issue.core) (s.prepDrain s.issueTeam false (vs.getD 0 0) (vs.getD 1 0))))

/-- `acc.pack kA, kB` (R260, R261). -/
def execAccPack (a b : Fin 64) (s : State) : Host.Outcome State Fault Refusal :=
  .next (s.runU [.k a, .k b] none (fun s vs =>
    s.issueCmd (.matrix s.sys.issue.core) (s.prepDrain s.issueTeam true (vs.getD 0 0) (vs.getD 1 0))))

/-- The index that a source names when no channel gives it. -/
def srcIndex (a : Src) (t : Thread) : Option Nat :=
  match a with
  | .reg n => some ((t.rd n.val).toNat % 131072)
  | _ => none

def accCheck (a : Src) (s : State) (w : Who) (t : Thread) : Option Fail :=
  match srcIndex a t with
  | some i => if (s.heldBanks (s.teamIdOf w)).contains (i / 256) then none else some { code := 0x0405 }
  | none => none

/-- Whether a queued or running matrix-queue command of a team names a bank. -/
def State.bankBusy (s : State) (t : TeamId) (b : Nat) : Bool :=
  s.cmds.any (fun c => c.engine = .matrix t.1 && c.team = t && c.op.banks.contains b)

/-- A gang that pops or peeks waits before it does: for the team's matrix commands where a channel gives the index, else for
the banks that its lanes name (R138, R259). -/
def State.accWaits (s : State) (a b : Src) : Bool :=
  if (Src.chan a).isSome then s.cmds.any (fun c => c.engine = .matrix s.sys.issue.core && c.team = s.issueTeam && !c.op.banks.isEmpty)
  else (Src.chan b).isSome && s.sys.issue.lanes.any (fun l => (s.thread l.2).any (fun t =>
    (srcIndex a t).any (fun i => s.bankBusy s.issueTeam (i / 256))))

/-- One lane's access to an accumulator element. -/
def State.accLane (s : State) (l : LaneIn) (f : State → Nat → Nat → State × LaneOut) : State × LaneOut :=
  let idx := (l.v 0).toNat % 131072
  let t := s.teamIdOf l.who
  if !(s.heldBanks t).contains (idx / 256) then (s, { fault := some { code := 0x0405 } })
  else if s.bankBusy t (idx / 256) then
    (s, { next := .stay, stall := .bank (idx / 256) 1 })
  else f s t.1 idx

/-- `acc.read d, a` (R259, R465). -/
def execAccRead (d : Dst) (a : Src) (s : State) : Host.Outcome State Fault Refusal :=
  if s.accWaits a a then .next (s.gangGo (fun t => { t with stall := .bank 0 512 })) else
  .next (s.runSeq { srcs := [(a, false)], dst := some (d, true), check := accCheck a } (fun s l =>
    s.accLane l (fun s c idx =>
      if (s.core c).accPoison.contains (idx / 256) then (s, { fault := some { code := 0x0F01 } })
      else (s, { res := some (s.acc c idx) }))))

/-- `acc.write a, b` (R259). -/
def execAccWrite (a b : Src) (s : State) : Host.Outcome State Fault Refusal :=
  if s.accWaits a b then .next (s.gangGo (fun t => { t with stall := .bank 0 512 })) else
  .next (s.runSeq { srcs := [(a, false), (b, true)], check := accCheck a } (fun s l =>
    s.accLane l (fun s c idx => (s.setAcc c idx (l.v 1), {}))))

/-! ### The parameter block (R250, R251) -/

/-- The formats of R250: alone, or the three pairs. -/
def mxFormat : Ty → Bool
  | .e2m1 | .e3m2 | .e4m3 | .e5m2 | .i8 | .n8 | .h16 | .bf16 | .f32 => true
  | _ => false

def mxPair (a b : Ty) : Bool :=
  mxFormat a && mxFormat b && (a = b || (match a, b with
    | .e3m2, .e2m1 | .e2m1, .e3m2 | .e4m3, .e5m2 | .e5m2, .e4m3 | .i8, .n8 | .n8, .i8 => true
    | _, _ => false))

def mxScalable : Ty → Bool
  | .e5m2 | .e4m3 | .e3m2 | .e2m1 => true
  | _ => false

/-- An operand's control word and addresses (R251). -/
def mxOperandOf (ty : Ty) (addr ctl scl : DWord) (scaled : Bool) : MxOperand :=
  { ty, addr, stride := dfield ctl 47 16, tag := dfield ctl 15 8, rel := dbit ctl 7, cnt := dfield ctl 6 4, mc := dbit ctl 3,
    tr := dbit ctl 2, src := dfield ctl 1 0, scale := if scaled then some scl else none }

/-- Whether an operand's fields are in range, e elements to a line of its layout (R251, R252). -/
def mxOperandOk (p : MxOperand) (ctl scl : DWord) (e : Nat) : Bool :=
  dfield ctl 63 48 = 0 && (p.mc || (p.tag = 0 && p.cnt = 0)) && (!p.mc || (p.src = 1 && 1 ≤ p.cnt)) &&
  (!p.rel || p.src < 2) &&
  (if p.src = 3 then p.stride = 0 && !p.tr
   else p.stride % 16 = 0 && bytesFor e (storageBits p.ty) ≤ p.stride && p.addr.toNat % 16 = 0) &&
  ((p.scale.isSome && p.src != 3) || scl = 0)

/-- A parameter block read (R250): none where a field is out of range or reserved. -/
def mxBlockOf (bs : List Byte) (block : DWord) : Option (MxOp × CompField) :=
  let w (i : Nat) : DWord := dwordsOf bs (8 * i)
  let w0 := w 0
  let w1 := w 1
  let m := dfield w0 15 0
  let n := dfield w0 31 16
  let k := dfield w0 47 32
  let cf := dfield w1 47 32
  let fa := tyOf (dfield w1 3 0)
  let fb := tyOf (dfield w1 7 4)
  let sparse := dbit w1 10
  let a := mxOperandOf fa (w 2) (w 3) (w 4) (dbit w1 8)
  let b := mxOperandOf fb (w 5) (w 6) (w 7) (dbit w1 9)
  let op : MxOp := { m, n, k, bank := dfield w1 20 12, zero := dbit w1 11, a, b, sparse := if sparse then some (w 8) else none, block }
  if dfield w0 63 48 = 0 && 1 ≤ m && m ≤ 512 && 1 ≤ n && n ≤ 512 && 1 ≤ k && k ≤ 4096 && m * n ≤ 131072 &&
      dfield w1 63 48 = 0 && dfield w1 31 21 = 0 && cfOk cf && cf / 1024 % 2 = 0 && mxPair fa fb &&
      (!dbit w1 8 || mxScalable fa) && (!dbit w1 9 || mxScalable fb) && (!sparse || k % 32 = 0) && (sparse || w 8 == 0) &&
      op.bank + (m * n + 255) / 256 ≤ 512 && mxOperandOk a (w 3) (w 4) (op.lines 0 a).2 && mxOperandOk b (w 6) (w 7) (op.lines 1 b).2 &&
      (List.range 6).all (fun i => w (9 + i) == 0) then
    some (op, cfOf cf)
  else none

/-- Whether a stream-source operand's handle may be read (R252). -/
def State.streamOk (s : State) (t : TeamId) (p : MxOperand) : Bool :=
  p.src != 3 || (match s.handle t p.addr with
    | some (_, sl) => !sl.spent && (match sl.bind with
      | some (_, _, _, wr) => !wr
      | none => false)
    | none => false)

/-- The checks of `mx.issue` on a block that has been read (R249 to R252). -/
def State.prepMx (s : State) (t : TeamId) (bs : List Byte) (block : DWord) : Prep :=
  match mxBlockOf bs block with
  | none => .fail { code := 0x0803 }
  | some (op, cf) =>
    if !s.streamOk t op.a || !s.streamOk t op.b then .fail { code := 0x0B05 }
    else if !(CmdOp.banks (.mx op)).all (fun b => (s.heldBanks t).contains b) then .fail { code := 0x0405 }
    else .ok (.mx op) cf

/-- `mx.issue kA` (R249). -/
def execMxIssue (a : Fin 64) (s : State) : Host.Outcome State Fault Refusal :=
  .next (s.runU [.k a] none (fun s vs =>
    let i := s.sys.issue
    let va := vs.getD 0 0
    if (s.core i.core).owner ≠ some i.ctx then (s, { fault := some { code := 0x0802 } })
    else if va.toNat % 128 ≠ 0 then (s, { fault := some { code := 0x0803 } })
    else
      match s.uRead va 0x78 1 with
      | (s, .fault f) => (s, { fault := some f })
      | (s, .page p) => s.uPage p none
      | (s, .ok bs) => s.issueCmd (.matrix i.core) (s.prepMx s.issueTeam bs va)))

/-! ### Operand fetch (R252 to R255, R472, R473) -/

/-- Whether a location lies in the slices that a source names (R252). -/
def sliceAllowed (src core loc : Nat) : Bool :=
  if src = 0 then isTile loc && sliceOf loc == core
  else if src = 1 then isTile loc && sliceOf loc / 8 == core / 8
  else true

/-- Bytes of an operand; sources 0b00 and 0b01 only from their slices, and a poisoned line ends the operation. -/
def State.mxRead (s : State) (c : Cmd) (side src : Nat) (va : DWord) (n : Nat) : State × EngRes (List Byte) :=
  let out := (s.pieces c .engRead [.va va n]).find? (fun p => !sliceAllowed src c.team.1 p.loc || !sliceAllowed src c.team.1 (p.loc + p.n - 1))
  match out with
  | some p => (s, .bad { code := 0x0805, addr := p.va, info0 := dw side })
  | none =>
    match s.engRead c va n with
    | (s, .ok (bs, false)) => (s, .ok bs)
    | (s, .ok (_, true)) => (s, .bad { code := 0x0F01, addr := va, info0 := 4 })
    | (s, .hold v) => (s, .hold v)
    | (s, .bad f) => (s, .bad f)

/-- The lines of an operand's layout in order. -/
def State.mxLines (s : State) (c : Cmd) (side : Nat) (p : MxOperand) (n : Nat) : Nat → State × EngRes (List (List Byte))
  | 0 => (s, .ok [])
  | l + 1 =>
    match s.mxLines c side p n l with
    | (s, .ok ls) =>
      match s.mxRead c side p.src (p.addr + dw (l * p.stride)) n with
      | (s, .ok bs) => (s, .ok (ls ++ [bs]))
      | (s, .hold v) => (s, .hold v)
      | (s, .bad f) => (s, .bad f)
    | r => r

/-- A command presents its key: it joins a live transfer that has room, or starts one (R253). A page that is not mapped yet
gives no key, and the command presents it when it runs again. -/
def State.present (s : State) (c : Cmd) (o : MxOp) (side : Nat) (p : MxOperand) : State :=
  if !p.mc || (s.pieces c .engRead [.va p.addr 1]).isEmpty then s else
  let key := s.castKey c o side p
  if s.casts.any (·.joins key) then
    { s with casts := s.casts.map (fun k => if k.joins key then { k with cmds := k.cmds ++ [c.id], presented := k.presented + 1 } else k) }
  else { s with casts := s.casts ++ [{ core := key.1, addr := key.2.1, bytes := key.2.2.1, tag := key.2.2.2, want := p.cnt + 1,
                                       cmds := [c.id], presented := 1, start := s.now }] }

/-- The transfer a command's operand takes part in. -/
def State.castOf (s : State) (c : Cmd) (o : MxOp) (side : Nat) (p : MxOperand) : Option Multicast :=
  s.casts.find? (fun k => k.keyed (s.castKey c o side p) && k.cmds.contains c.id)

/-- The source buffers of a transfer's releasing operands become empty when its last chunk has entered a slot (R253). -/
def State.castRelease (s : State) (k : Multicast) : State :=
  (s.cmds.filter (fun c => k.cmds.contains c.id)).foldl (fun (s : State) c =>
    match c.op with
    | .mx o =>
      let mine := s.bufsIn (s.pieces c .engRead ((if o.a.rel && o.a.mc then o.operandRange 0 o.a else []) ++
        (if o.b.rel && o.b.mc then o.operandRange 1 o.b else [])))
      let refs := (mine.map (·.1)).filter (fun r => c.rels.contains r)
      (refs.foldl (fun (s : State) r => s.bufSetState r .empty) s).modCmd c.id (fun c => { c with rels := c.rels.filter (fun r => !refs.contains r) })
    | _ => s) s

/-- A chunk of a multicast transfer: 16 KiB (R253). -/
def chunkBytes : Nat := 16384

/-- The holding slots that a transfer keeps: every chunk read until all its engines have presented the key, whereupon they
drain them (R253). -/
def Multicast.slots (k : Multicast) : Nat := if k.want ≤ k.presented then 0 else (k.data.length + chunkBytes - 1) / chunkBytes

/-- The slots in use of the 64 of a cluster's crossbar (R20, R253). -/
def State.slotsUsed (s : State) (cluster : Nat) : Nat :=
  sumOf ((s.casts.filter (fun k => k.core / 8 = cluster)).map Multicast.slots)

/-- Whether a further chunk of a transfer may enter a slot: 4 a transfer, 64 a cluster (R253). -/
def State.chunkRoom (s : State) (k : Multicast) : Bool := decide (k.slots < 4) && decide (s.slotsUsed (k.core / 8) < 64)

/-- The pieces of bytes o to o + m of a layout of l lines of n bytes, in order. -/
def layoutPieces (addr : DWord) (stride n l o m : Nat) : List (DWord × Nat) :=
  (List.range l).filterMap (fun i =>
    let lo := Nat.max o (i * n)
    let hi := Nat.min (o + m) ((i + 1) * n)
    if lo < hi then some (addr + dw (i * stride + (lo - i * n)), hi - lo) else none)

/-- The bytes of some pieces of an operand's source in order. -/
def State.mxPieces (s : State) (c : Cmd) (side src : Nat) : List (DWord × Nat) → State × EngRes (List Byte)
  | [] => (s, .ok [])
  | p :: ps =>
    match s.mxRead c side src p.1 p.2 with
    | (s, .ok bs) =>
      match s.mxPieces c side src ps with
      | (s, .ok rest) => (s, .ok (bs ++ rest))
      | r => r
    | r => r

/-- The next chunk of a transfer read into a holding slot, by an engine that takes part in it (R253). -/
def State.castEnter (s : State) (c : Cmd) (side : Nat) (p : MxOperand) (n l : Nat) (k : Multicast) : State × EngRes Multicast :=
  if k.loaded || !s.chunkRoom k then (s, .ok k) else
  match s.mxPieces c side p.src (layoutPieces p.addr p.stride n l k.data.length (Nat.min chunkBytes (k.bytes - k.data.length))) with
  | (s, .hold v) => (s, .hold v)
  | (s, .bad f) => (s, .bad f)
  | (s, .ok bs) =>
    let q := { k with data := k.data ++ bs }
    let s := { s with casts := s.casts.map (fun x => if x = k then q else x) }
    (if q.loaded then s.castRelease q else s, .ok q)

/-- The bytes of a stream, cut in rows (R252). -/
def streamRows (rows r : Nat) (bs : List Byte) : List (List Byte) := (List.range rows).map (fun i => (bs.drop (i * r)).take r)

/-- The bytes of one row of a stream-source operand (R472). -/
def MxOp.streamRow (o : MxOp) (side : Nat) (p : MxOperand) : Nat :=
  (if p.scale.isSome then o.blocks else 0) + bytesFor (o.kStored side) (storageBits p.ty)

/-- What an operand's fetch gives: rows of A or columns of B as codes, and their scale codes. -/
structure Fetched where
  rows : List (List Nat)
  scales : List (List Nat)

/-- One stream row cut in scale bytes and elements, block by block (R252). -/
def cutStream (o : MxOp) (side : Nat) (p : MxOperand) (bs : List Byte) : List Nat × List Nat :=
  let per := if side = 0 ∧ o.sparse.isSome then 16 else 32
  let kx := o.kStored side
  let r := (List.range o.blocks).foldl (fun (acc : List Nat × List Nat × List Byte) b =>
    let n := Nat.min per (kx - per * b)
    let (sc, rest) := if p.scale.isSome then ([((acc.2.2.head?).map (·.toNat)).getD 0], acc.2.2.drop 1) else ([0x7F], acc.2.2)
    let nb := bytesFor n (storageBits p.ty)
    (acc.1 ++ (elemsOfBytes (storageBits p.ty) (rest.take nb)).take n, acc.2.1 ++ sc, rest.drop nb)) ([], [], bs)
  (r.1, r.2.1)

def transposeRows (n : Nat) (rows : List (List Nat)) : List (List Nat) := (List.range n).map (fun j => rows.map (fun r => r.getD j 0))

/-- The lines of an operand from its source; none while a transfer or a stream is not complete. -/
def State.operandLines (s : State) (c : Cmd) (o : MxOp) (side : Nat) (p : MxOperand) : State × Option (EngRes (List (List Byte))) :=
  let (l, e) := o.lines side p
  let n := bytesFor e (storageBits p.ty)
  if p.src = 3 then
    match s.fabs.find (dfield p.addr 5 0, dfield p.addr 8 6) with
    | some sl => if sl.run = some c.id then (s, (sl.output.map (fun bs => .ok (streamRows (o.outer side) (o.streamRow side p) bs)))) else (s, none)
    | none => (s, some (.bad { code := 0x0B05 }))
  else if p.mc then
    let s := if (s.castOf c o side p).isNone then s.present c o side p else s
    match s.castOf c o side p with
    | none =>
      match s.mxRead c side p.src p.addr 1 with
      | (s, .hold v) => (s, some (.hold v))
      | (s, .bad f) => (s, some (.bad f))
      | (s, .ok _) => (s, none)
    | some k =>
      match s.castEnter c side p n l k with
      | (s, .hold v) => (s, some (.hold v))
      | (s, .bad f) => (s, some (.bad f))
      | (s, .ok k) => (s, if k.loaded && decide (k.want ≤ k.presented) then some (.ok (streamRows l n k.data)) else none)
  else
    let (s, r) := s.mxLines c side p n l
    (s, some r)

/-- The scale codes of an operand from memory (R254). -/
def State.operandScales (s : State) (c : Cmd) (o : MxOp) (side : Nat) (p : MxOperand) : State × EngRes (List (List Nat)) :=
  match p.scale with
  | none => (s, .ok (List.replicate (o.outer side) (List.replicate o.blocks 0x7F)))
  | some a =>
    match s.mxRead c side 2 a (o.outer side * o.blocks) with
    | (s, .ok bs) => (s, .ok (streamRows (o.outer side) o.blocks bs |>.map (fun r => r.map (·.toNat))))
    | (s, .hold v) => (s, .hold v)
    | (s, .bad f) => (s, .bad f)

/-- A whole operand (R252 to R254). -/
def State.fetchOperand (s : State) (c : Cmd) (o : MxOp) (side : Nat) (p : MxOperand) : State × Option (EngRes Fetched) :=
  match s.operandLines c o side p with
  | (s, none) => (s, none)
  | (s, some (.hold v)) => (s, some (.hold v))
  | (s, some (.bad f)) => (s, some (.bad f))
  | (s, some (.ok ls)) =>
    if p.src = 3 then
      let cut := ls.map (cutStream o side p)
      (s, some (.ok { rows := cut.map (·.1), scales := cut.map (·.2) }))
    else
      let es := ls.map (fun b => (elemsOfBytes (storageBits p.ty) b).take (o.lines side p).2)
      let rows := if p.tr then transposeRows (o.outer side) es else es
      match s.operandScales c o side p with
      | (s, .ok scales) => (s, some (.ok { rows, scales }))
      | (s, .hold v) => (s, some (.hold v))
      | (s, .bad f) => (s, some (.bad f))

/-- A sparse row spread over its K positions by its nibbles (R255); none where an order is broken, with the group. -/
def spreadRow (k : Nat) (stored : List Nat) (nib : Nat → Nat) : Except Nat (List Nat) :=
  match (List.range (k / 4)).find? (fun g => nib g / 4 % 4 ≤ nib g % 4) with
  | some g => .error g
  | none => .ok ((List.range k).map (fun i =>
      let g := i / 4
      if i % 4 = nib g % 4 then stored.getD (2 * g) 0
      else if i % 4 = nib g / 4 % 4 then stored.getD (2 * g + 1) 0 else 0))

/-- The rows of a sparse A. -/
def spreadRows (k : Nat) (rows : List (List Nat)) (metaBytes : List Byte) : Except (Nat × Nat) (List (List Nat)) :=
  (rows.zipIdx).foldr (fun x acc =>
    match spreadRow k x.1 (fun g => (metaBytes.getD (x.2 * (k / 8) + g / 2) 0).toNat / 16 ^ (g % 2) % 16), acc with
    | .ok r, .ok rs => .ok (r :: rs)
    | .error g, _ => .error (x.2, g)
    | _, .error e => .error e) (.ok [])

/-! ### The sums (R128, R129) -/

/-- A sum of products in course: an exact fraction over a power of two, and the special cases. -/
structure BlockSum where
  num : Int := 0
  den : Nat := 1
  nan : Bool := false
  pinf : Bool := false
  ninf : Bool := false
  allNegZero : Bool := true
  fl : Flags := 0

/-- One product added (R128). -/
def BlockSum.add (b : BlockSum) (x y : FVal) : BlockSum :=
  let sig := FVal.isSig x || FVal.isSig y
  match (FVal.mul x y).1 with
  | .nan _ => { b with nan := true, allNegZero := false, fl := b.fl ||| flIf (sig || !(FVal.isNan x || FVal.isNan y)) flNV }
  | .inf neg => { b with pinf := b.pinf || !neg, ninf := b.ninf || neg, allNegZero := false }
  | .zero neg => { b with allNegZero := b.allNegZero && neg }
  | .fin n d =>
    let b := { b with allNegZero := false }
    if d ≤ b.den then { b with num := b.num + n * ((b.den / d : Nat) : Int) }
    else { b with num := b.num * ((d / b.den : Nat) : Int) + n, den := d }

/-- The block's sum, scaled (R128). -/
def BlockSum.value (b : BlockSum) (sa sb : Nat) : FVal × Flags :=
  if b.nan || sa = 0xFF || sb = 0xFF then (.nan false, b.fl)
  else if b.pinf && b.ninf then (.nan false, b.fl ||| flNV)
  else if b.pinf || b.ninf then (.inf b.ninf, b.fl)
  else if b.num = 0 then (.zero b.allNegZero, b.fl)
  else ((FVal.mul (.fin b.num b.den) (pow2Val ((sa : Int) + (sb : Int) - 254))).1, b.fl)

/-- One element of C over the blocks of K, from its initial value (R128): each block's sum is exact and scaled exactly, and each
addition of one rounds once in binary64, so the bound of R131 holds, and its example. -/
def mxElem (xs ys : List FVal) (sa sb : List Nat) (c0 : Nat) : Nat → Nat × Flags
  | 0 => (c0, 0)
  | b + 1 =>
    let (c, fl) := mxElem xs ys sa sb c0 b
    let bs := (((xs.drop (32 * b)).take 32).zip ((ys.drop (32 * b)).take 32)).foldl (fun (z : BlockSum) p => z.add p.1 p.2) {}
    let (v, f1) := bs.value (sa.getD b 0x7F) (sb.getD b 0x7F)
    let (r, f2) := f64F.finish .rne false (FVal.add .rne (f64F.decode c) v)
    (r, fl ||| f1 ||| f2)

/-- One element of C in the integer formats (R129). -/
def mxInt (xs ys : List Int) (c0 : Nat) : Nat := wrapTo 64 ((xs.zip ys).foldl (fun a p => a + p.1 * p.2) (c0 : Int))

/-- All of C, row by row, with the operation's flags. -/
def mxResult (o : MxOp) (a b : Fetched) (c0 : Nat → Nat) : List Nat × Flags :=
  if (tyFmt o.a.ty).isSome then
    let av := a.rows.map (fun r => r.map (elemValue o.a.ty))
    let bv := b.rows.map (fun r => r.map (elemValue o.b.ty))
    let es := (List.range o.m).flatMap (fun i => (List.range o.n).map (fun j =>
      mxElem (av.getD i []) (bv.getD j []) (a.scales.getD i []) (b.scales.getD j []) (c0 (i * o.n + j)) o.blocks))
    (es.map (·.1), es.foldl (fun f e => f ||| e.2) 0)
  else
    let av := a.rows.map (fun r => r.map (intVal o.a.ty))
    let bv := b.rows.map (fun r => r.map (intVal o.b.ty))
    ((List.range o.m).flatMap (fun i => (List.range o.n).map (fun j => mxInt (av.getD i []) (bv.getD j []) (c0 (i * o.n + j)))), 0)

/-- Elements written from an accumulator index on. -/
def State.setAccs (s : State) (core : Nat) : Nat → List Nat → State
  | _, [] => s
  | i, v :: vs => (s.setAcc core i (dw v)).setAccs core (i + 1) vs

/-- `mx.status` written (R256, R468). -/
def State.mxStatus (s : State) (c : Cmd) (o : MxOp) (bs : List Byte) : State × EngRes Unit :=
  let r := s.engWrite c (o.block + 0x78) bs (fun _ _ => false) 0
  (r.1, r.2.2)

/-- A stream-source operand's run, done with (R276, R344); `code` is that of the operation where it ends before its run. -/
def State.endStream (s : State) (c : Cmd) (p : MxOperand) (code : Nat) : State × EngRes Unit :=
  if p.src != 3 then (s, .ok ()) else
  let key := (dfield p.addr 5 0, dfield p.addr 8 6)
  match s.fabs.find key with
  | some sl =>
    if sl.run = some c.id then
      let r := match sl.doomed, sl.output with
        | some e, _ => s.writeStatus c sl.stat e.consumed e.stands e.code
        | none, some out => s.writeStatus c sl.stat sl.input.length out 0
        | none, none => s.writeStatus c sl.stat sl.input.length (evalRun sl sl.input false).1 code
      match r with
      | (s, .ok _) => (s.modFab key (fun sl => { sl with run := none, input := [], output := none }), .ok ())
      | r => r
    else (s, .ok ())
  | none => (s, .ok ())

/-- The same at the operation's end, whose record is lost where its line cannot be written. -/
def State.dropStream (s : State) (c : Cmd) (p : MxOperand) (code : Nat) : State :=
  let key := (dfield p.addr 5 0, dfield p.addr 8 6)
  let s := (s.endStream c p code).1
  if p.src != 3 then s else s.modFab key (fun sl => if sl.run = some c.id then { sl with run := none, input := [], output := none } else sl)

/-- The end of an operation's run: the records of its streams, then `mx.status`, whose line may hold or end the operation as any other may (R256, R451, R457). -/
def State.finishMx (s : State) (c : Cmd) (o : MxOp) (bs : List Byte) : State × Ran :=
  match s.endStream c o.a 0 with
  | (s, .ok _) =>
    match s.endStream c o.b 0 with
    | (s, .ok _) =>
      let r := s.mxStatus c o bs
      (r.1, ranOf r.2 0)
    | (s, r) => (s, ranOf r 0)
  | (s, r) => (s, ranOf r 0)

/-- A matrix operation run (R128, R129, R256): the banks are written, then `mx.status`. -/
def State.runMx (s : State) (c : Cmd) (o : MxOp) : State × Ran :=
  let core := c.team.1
  if c.stage = 1 then s.finishMx c o c.image
  else if !o.zero && (CmdOp.banks (.mx o)).any (fun b => (s.core core).accPoison.contains b) then (s, .bad { code := 0x0F01 } 0 0)
  else
    match s.fetchOperand c o 0 o.a with
    | (s, none) => (s, .wait)
    | (s, some (.hold v)) => (s, .hold v)
    | (s, some (.bad f)) => (s, .bad f f.info0.toNat f.info1.toNat)
    | (s, some (.ok a)) =>
      match s.fetchOperand c o 1 o.b with
      | (s, none) => (s, .wait)
      | (s, some (.hold v)) => (s, .hold v)
      | (s, some (.bad f)) => (s, .bad f f.info0.toNat f.info1.toNat)
      | (s, some (.ok b)) =>
        let (s, nibs) := match o.sparse with
          | some m => s.mxRead c 0 2 m (o.m * o.k / 8)
          | none => (s, .ok [])
        match nibs with
        | .hold v => (s, .hold v)
        | .bad f => (s, .bad f f.info0.toNat f.info1.toNat)
        | .ok nb =>
          match if o.sparse.isSome then spreadRows o.k a.rows nb else .ok a.rows with
          | .error (i, g) => (s, .bad { code := 0x0806 } i g)
          | .ok rows =>
            let base := 256 * o.bank
            let (vs, fl) := mxResult o { a with rows } b (fun i => if o.zero then 0 else (s.acc core (base + i)).toNat)
            let s := s.setAccs core base vs
            let status := bytesOf 8 (fl.toNat % 8 + fl.toNat / 16 % 2 * 16)
            (s.modCmd c.id (fun c => { c with stage := 1, image := status })).finishMx c o status

/-! ### Drain and pack (R260, R261) -/

/-- One accumulator element converted (R183, R260). -/
def drainElem (w : DWord) (x : Nat) : Nat :=
  (cvtElem (modeNum (dfield w 33 31)) (dbit w 34) (.ty (adType w)) (.ty (if adInt w then .i64 else .f64)) x).1

/-- The elements of a bank range converted, each cleared after reading where the word says so. -/
def State.drainElems (s : State) (core lo n : Nat) (w : DWord) : State × List Nat :=
  let xs := (List.range n).map (fun i => drainElem w (s.acc core (lo + i)).toNat)
  (if adClr w then s.setAccs core lo (List.replicate n 0) else s, xs)

/-- The image of a drain, kept while the command holds. -/
def State.drainImage (s : State) (c : Cmd) (w : DWord) : State × List Byte :=
  if !c.image.isEmpty then (s, c.image)
  else
    let (s, xs) := s.drainElems c.team.1 (256 * adBank w) (adCount w) w
    let img := bytesOfElems (storageBits (adType w)) xs
    (s.modCmd c.id (fun c => { c with image := img }), img)

/-- Whether an element after conversion is not zero (R261). -/
def nonzeroElem (t : Ty) (x : Nat) : Bool :=
  match tyFmt t with
  | some F => x % F.signBit != 0
  | none => x % 2 ^ t.bits != 0

/-- The tiles of a pack: their offset in 64-byte units, count, values and bitmap. -/
def packTiles (t : Ty) (xs : List Nat) : Nat → Nat → List (Nat × Nat × List Byte × List Byte)
  | 0, _ => []
  | n + 1, off =>
    let tile := xs.take 256
    let vals := tile.filter (nonzeroElem t)
    let bytes := bytesOfElems (storageBits t) vals
    let bits := numOfBits tile
    (off, vals.length, bytes, bytesOf 32 bits) :: packTiles t (xs.drop 256) n (off + (bytes.length + 63) / 64)
where
  numOfBits (l : List Nat) : Nat := l.foldr (fun x acc => (if nonzeroElem t x then 1 else 0) + 2 * acc) 0

/-- The pack image (R261). No offset of an accepted pack passes 16 bits (R478). -/
def packImage (t : Ty) (tiles : Nat) (xs : List Nat) : List Byte :=
  let ts := packTiles t xs tiles 0
  let heads := ts.flatMap (fun x => bytesOf 8 (x.1 * 2 ^ 32 + x.2.2.1.length * 2 ^ 16 + x.2.1))
  padTo (alignUp 64 (8 * tiles)) 0 heads ++ ts.flatMap (fun x => x.2.2.2) ++
    ts.flatMap (fun x => padTo (alignUp 64 x.2.2.1.length) 0 x.2.2.1)

def State.packImageOf (s : State) (c : Cmd) (w : DWord) : State × List Byte :=
  if !c.image.isEmpty then (s, c.image)
  else
    let (s, xs) := s.drainElems c.team.1 (256 * adBank w) (256 * adCount w) w
    let img := packImage (adType w) (adCount w) xs
    (s.modCmd c.id (fun c => { c with image := img }), img)

/-- Whether the bytes of a drain's image derive from a poisoned bank (R424). -/
def State.drainPoison (s : State) (core : Nat) (w : DWord) (o k : Nat) : Bool :=
  let bits := storageBits (adType w)
  (List.range ((adCount w + 255) / 256)).any (fun t =>
    (s.core core).accPoison.contains (adBank w + t) && decide (256 * t * bits < 8 * (o + k)) && decide (8 * o < 256 * (t + 1) * bits))

/-- A matrix-queue command run (R256, R258, R260, R261). -/
def State.runMatrix (s : State) (c : Cmd) : State × Ran :=
  let core := c.team.1
  match c.op with
  | .mx o => s.runMx c o
  | .accZero b n =>
    let s := s.setAccs core (256 * b) (List.replicate (256 * n) 0)
    (s.modCore core (fun k => { k with accPoison := k.accPoison.filter (fun x => !(bankList b n).contains x) }), .done 0)
  | .accDrain d w =>
    let bad := s.drainPoison core w
    let (s, img) := s.drainImage c w
    let (s, k, r) := s.engWrite c d img bad c.done
    (s.setDone c k, ranOf r (drainBytes w))
  | .accPack d w =>
    let bad := c.op.banks.any (fun b => (s.core core).accPoison.contains b)
    let (s, img) := s.packImageOf c w
    let (s, k, r) := s.engWrite c d img (fun _ _ => bad) c.done
    (s.setDone c k, ranOf r img.length)
  | _ => (s, .wait)

/-- The pack image's length by its tiles' counts (R468). -/
def State.packBytes (s : State) (c : Cmd) : Nat :=
  match c.op with
  | .accPack _ w => (s.packImageOf c w).2.length
  | _ => 0

/-- Steps 2 and 3 of the end of a matrix-queue command: banks and unwritten lines poisoned, `mx.status` (R467, R468,
R473). -/
def State.endMatrix (s : State) (c : Cmd) (code : Nat) : State × Nat :=
  let core := c.team.1
  let poisonBanks (s : State) : State := s.modCore core (fun k => { k with accPoison := c.op.banks.foldl insertNat k.accPoison })
  match c.op with
  | .mx o =>
    let s := (s.dropStream c o.a code).dropStream c o.b code
    (((poisonBanks s).mxStatus c o (bytesOf 8 (code * 2 ^ 48 + (if c.stage = 1 then numOfBytes c.image % 32 else 0)))).1, 0)
  | .accZero .. => (poisonBanks s, 0)
  | .accDrain .. => (s.poisonCopy c, s.copyBytes c)
  | .accPack d _ =>
    let n := s.packBytes c
    (s.poisonRange c (.va d n) c.done, n)
  | _ => (s, 0)

/-- Where a matrix operation leaves the head: its multicast keys are presented and its streams start, unless a stream's
length differs from what the operation needs (R253, R276, R472). -/
def State.startMx (s : State) (c : Cmd) : State :=
  match c.op with
  | .mx o =>
    let s := (s.present c o 0 o.a).present c o 1 o.b
    let go (s : State) (side : Nat) (p : MxOperand) : State :=
      if p.src != 3 then s else
      match s.handle c.team p.addr with
      | some (key, sl) =>
        match sl.bind with
        | some (_, _, str, wr) =>
          let need := o.outer side * o.streamRow side p
          if sl.spent || wr || sl.run.isSome then s.due [.commandEnd c.id 0x0B05#16 0]
          else if str ≠ need then
            ((s.modFab key (fun sl => { sl with spent := true })).modCmd c.id (fun c => { c with info0 := side * 2 ^ 16, info1 := need * 2 ^ 32 + str })).due
              [.commandEnd c.id 0x0801#16 0]
          else s.startFabric key c.id 0
        | none => s.due [.commandEnd c.id 0x0B05#16 0]
      | none => s.due [.commandEnd c.id 0x0B05#16 0]
    go (go s 0 o.a) 1 o.b
  | _ => s

end Sys2Proof.Machine
end

