-- ==== Sys2Proof/Machine/Search.lean ====
section
/-!
DEFINITION. Search at the memory stacks (spec/13_search_base_dies.md, R279, R280, R345 to R358, R364 to R366): command
blocks, the distance units (R132), heaps (R133, R355), the sequencer's steps and pre-emption, parking (R482, R483).
-/
namespace Sys2Proof.Machine

/-! ### Distances and ranking (R132, R133) -/

def distOf : FVal → DistVal
  | .nan _ => .nan
  | .inf neg => if neg then .negInf else .posInf
  | .zero _ => .fin 0 1
  | .fin n d => .fin n d

/-- The value of a partial sum. -/
def DistVal.toF : DistVal → FVal
  | .nan => .nan false
  | .negInf => .inf true
  | .posInf => .inf false
  | .fin n d => if n = 0 then .zero false else .fin n d

/-- The exact sum of a run of dimensions: squared differences, or negated products. -/
def distPart (inner : Bool) (qs xs : List FVal) : FVal :=
  let r := ((qs.zip xs).foldl (fun (b : BlockSum) p =>
    if inner then b.add p.1 p.2
    else let e := (FVal.sub .rne p.1 p.2).1; b.add e e) {}).value 0x7F 0x7F
  if inner then r.1.negate else r.1

/-- The sum of 32 dimensions joins a partial sum: exactly for formats of 8 bits and fewer, else in binary64 (R132). -/
def distAdd (wide : Bool) (p : FVal) (acc : DistVal) : DistVal :=
  let r := FVal.add .rne acc.toF p
  distOf (if wide then f64F.decode (f64F.finish .rne false r).1 else r.1)

/-- Elements of a step of the distance units' loop (R364). -/
def distStep : Nat := 64

/-- One step: the next 64 elements of the query and of the record, as two sums of 32 dimensions. -/
def distNext (inner : Bool) (slot : QSlot) (qs xs : List FVal) (acc : DistVal) : DistVal :=
  let wide := 8 < slot.fmt.bits
  let part (k : Nat) : FVal := distPart inner ((qs.drop k).take 32) ((xs.drop k).take 32)
  let a := distAdd wide (part 0) acc
  if qs.length ≤ 32 then a else distAdd wide (part 32) a

/-- The elements of a vector in a slot's format: `n` of them. -/
def vecElems (slot : QSlot) (n : Nat) (bs : List Byte) : List FVal := ((elemsOfBytes slot.fmt.bits bs).take n).map (elemValue slot.fmt)

/-- The first `steps` steps of a distance. -/
def distSteps (inner : Bool) (slot : QSlot) (qs xs : List FVal) : Nat → DistVal
  | 0 => .fin 0 1
  | k + 1 => distNext inner slot ((qs.drop (distStep * k)).take distStep) ((xs.drop (distStep * k)).take distStep)
      (distSteps inner slot qs xs k)

/-- The distance of R132: exact for 8-bit and narrower formats. -/
def distance (inner : Bool) (slot : QSlot) (vec : List Byte) : DistVal :=
  distSteps inner slot (vecElems slot slot.dim slot.bytes) (vecElems slot slot.dim vec) ((slot.dim + 63) / 64)

/-- The value rounded once to `f32` with `rne` (R133). -/
def DistVal.f32 : DistVal → Nat
  | .nan => f32F.nanCode
  | .negInf => f32F.signed true f32F.infCode
  | .posInf => f32F.infCode
  | .fin n d => if n = 0 then 0 else (f32F.round .rne false n d).1

/-- A value's class in ranking order: NaN last (R133). -/
def DistVal.rank : DistVal → Nat
  | .negInf => 0
  | .fin .. => 1
  | .posInf => 2
  | .nan => 3

/-- Whether one value is below another in ranking order. -/
def DistVal.below (a b : DistVal) : Bool :=
  match a, b with
  | .fin n d, .fin m e => n * (e : Int) < m * (d : Int)
  | _, _ => a.rank < b.rank

/-- Whether a pair ranks above another: a smaller value, or an equal value and a smaller id (R133). -/
def ranksAbove (x y : DistVal × Nat) : Bool := x.1.below y.1 || (!y.1.below x.1 && x.2 < y.2)

/-- A pair put in its place; equal pairs stay separate entries (R355). -/
def rankInsert (x : DistVal × Nat) : List (DistVal × Nat) → List (DistVal × Nat)
  | [] => [x]
  | y :: ys => if ranksAbove x y then x :: y :: ys else y :: rankInsert x ys

/-- One offer to a heap (R355). -/
def Heap.offer (h : Heap) (x : DistVal × Nat) : Heap :=
  { h with entries := (rankInsert x h.entries).take h.cap, offered := Nat.min (h.offered + 1) (2 ^ 32 - 1) }

/-- A copy of another heap merged (R355). -/
def Heap.merge (h src : Heap) : Heap :=
  let r := src.entries.foldl Heap.offer h
  { r with offered := Nat.min (r.offered + (src.offered - src.entries.length)) (2 ^ 32 - 1) }

/-- The bytes of a result of a heap of capacity k (R356, R468). -/
def resultBytes (k : Nat) : Nat := alignUp 64 (16 + 16 * k)

/-- The result a heap is written as (R356). -/
def Heap.result (h : Heap) : List Byte :=
  let entry (i : Nat) : List Byte := match h.entries[i]? with
    | some e => bytesOf 8 (e.2 % 2 ^ 48) ++ bytesOf 8 e.1.f32
    | none => bytesOf 8 (2 ^ 48 - 1) ++ bytesOf 8 0x7F800000
  padTo (resultBytes h.cap) 0 (bytesOf 8 (h.offered * 2 ^ 32 + h.entries.length) ++ bytesOf 8 h.cap ++
    (List.range h.cap).flatMap entry)

/-! ### Command records (R347, R348) -/

def searchCmdOf (w : Nat → DWord) : SearchCmd :=
  { op := dfield (w 0) 7 0, q := dfield (w 0) 12 8, h := dfield (w 0) 20 16, t := dfield (w 0) 28 24,
    cur := dbit (w 0) 38, metric := dbit (w 0) 39, fmt := dfield (w 0) 43 40, stk := dfield (w 0) 47 44,
    dim := dfield (w 0) 63 48, addr := w 1, count := dfield (w 2) 31 0, snap := dfield (w 2) 63 32,
    fval := dfield (w 3) 15 0, fmask := dfield (w 3) 31 16, fcond := dfield (w 3) 34 32, arg := w 4 }

/-- Masks of the fields of R347. -/
def scQ : Nat := 0x1F00
def scH : Nat := 0x1F0000
def scT : Nat := 0x1F000000
def scMode : Nat := 2 ^ 39
def scCur : Nat := 2 ^ 38
def scFmt : Nat := 0xF * 2 ^ 40
def scStk : Nat := 0xF * 2 ^ 44
def scDim : Nat := 0xFFFF * 2 ^ 48
def allBits : Nat := 2 ^ 64 - 1

/-- The bits of words 0 to 4 that an operation uses, sc.op apart (R348). -/
def searchUses : Nat → List Nat
  | 1 => [scQ + scDim + scFmt, allBits, 0, 0, 0]
  | 2 => [scH, 0, 2 ^ 32 - 1, 0, 0]
  | 3 => [scQ + scH + scMode + scCur, allBits, allBits, 2 ^ 35 - 1, 0]
  | 4 => [scQ + scH + scMode, allBits, 2 ^ 32 - 1, 0, 2 ^ 48 - 1]
  | 5 => [scH + scT + scStk, 0, 0, 0, 0]
  | 6 => [scH, allBits, 0, 0, 0]
  | 7 => [scT, 0, 2 ^ 32 - 1, 0, 0]
  | 8 => [0, allBits, 2 ^ 32 - 1, 0, allBits]
  | _ => []

/-- The vector formats of the distance units (R132). -/
def searchFormat (t : Ty) : Bool :=
  match t with
  | .i8 | .n8 | .e5m2 | .e4m3 | .e3m2 | .e2m1 | .h16 | .bf16 => true
  | _ => false

/-- The ranges of R348. -/
def SearchCmd.rangesOk (c : SearchCmd) : Bool :=
  match c.op with
  | 1 => 1 ≤ c.dim && c.dim ≤ 4096 && searchFormat (tyOf c.fmt)
  | 2 => 1 ≤ c.count && c.count ≤ 1024
  | 3 => 1 ≤ c.count && !(c.cur && c.snap != 0) && c.fcond ≤ 4 && !(c.fcond == 0 && (c.fval != 0 || c.fmask != 0))
  | 7 => 1 ≤ c.count && c.count ≤ 2 ^ 18
  | 8 => 1 ≤ c.count && c.count ≤ 512
  | _ => c.op ≤ 8

/-- A record that R345 admits: no bit beyond the operation's fields, and every field in its range. -/
def searchRecord (bs : List Byte) : Option SearchCmd :=
  let w (i : Nat) : DWord := dwordsOf bs (8 * i)
  let c := searchCmdOf w
  let used (i : Nat) : Nat := (searchUses c.op).getD i 0 + (if i = 0 then 0xFF else 0)
  if (List.range 8).all (fun i => (w i).toNat &&& (allBits - used i) == 0) && c.rangesOk then some c else none

/-- Every record of a block, in order; none where one fails. -/
def searchRecords (bs : List Byte) : Nat → Option (List SearchCmd)
  | 0 => some []
  | n + 1 =>
    match searchRecord (bs.take 64), searchRecords (bs.drop 64) n with
    | some c, some cs => some (c :: cs)
    | _, _ => none

/-- The `hout` ranges of a block, each sized by the capacity its heap will have: that of the last `hinit` before it in the
block, else the heap's own now. -/
def houtsOf (cap : Nat → Nat) (i : Nat) : List SearchCmd → List (Nat × DWord × Nat)
  | [] => []
  | c :: cs =>
    let cap' (h : Nat) : Nat := if c.op = 2 ∧ c.h = h then c.count else cap h
    (if c.op = 6 then [(i, c.addr, resultBytes (cap c.h))] else []) ++ houtsOf cap' (i + 1) cs

/-! ### `srch.issue` and `srch.ver` -/

def SearchDie.heap (d : SearchDie) (h : Nat) : Heap := (d.heaps.find h).getD {}

/-- Whether every mapped piece of a block's results lies in the requesting core's slice (R356). -/
def ownSlice (core : Nat) (ps : List Piece) : Bool := ps.all (fun p => isTile p.loc && sliceOf p.loc == core)

/-- The lowest free entry of a sequencer's queue (R346). -/
def SearchDie.freeEntry (d : SearchDie) : Nat :=
  ((List.range 64).find? (fun n => d.blocks.all (fun b => b.entry != n))).getD 0

/-- The checks of a block's command at its issue (R241, R345, R356). -/
def State.blockFail (s : State) (c : Cmd) : Option Fail :=
  (s.cmdRefused c) <|> (if ownSlice c.team.1 (s.pieces c .engWrite (s.dstRanges c)) then none else some { code := 0x0C02 })

/-- The operation of a block on a stack. -/
def State.blockOp (s : State) (stack : Nat) (rs : List SearchCmd) : CmdOp :=
  let d := s.die stack
  .search stack d.freeEntry (houtsOf (fun h => (d.heap h).cap) 0 rs)

/-- A block enters the queue of its stack (R279, R346). -/
def State.queueBlock (s : State) (stack : Nat) (c : Cmd) (rs : List SearchCmd) : State :=
  let b : Block := { entry := (s.die stack).freeEntry, cmdId := s.sys.nextCmd, core := c.team.1, team := c.team, asid := c.asid,
                     root := ((s.team c.team).map (·.root)).getD 0, prio := ((s.team c.team).map (·.prio)).getD 0,
                     order := s.sys.nextCmd, records := rs }
  (s.enqueue c).modDie stack (fun d => { d with blocks := d.blocks ++ [b] })

/-- A block read and checked is issued (R279, R345, R346). -/
def State.issueBlock (s : State) (stack : Nat) (cf : CompField) (rs : List SearchCmd) : State × UOut :=
  let e := Engine.search stack
  let c := s.mkCmd s.issueTeam e (s.blockOp stack rs) cf
  match s.blockFail c with
  | some f => (s, { fault := some f })
  | none => if s.hasRoom e then (s.issueRelease.queueBlock stack c rs, {}) else (s, { next := .stay, stall := .queueRoom e })

/-- `srch.issue kA, kB` (R279, R345). -/
def execSrchIssue (cf : BitVec 16) (a b : Fin 64) (s : State) : Host.Outcome State Fault Refusal :=
  .next (s.runU [.k a, .k b] none (fun s vs =>
    let va := vs.getD 0 0
    let v := vs.getD 1 0
    let stack := dfield v 3 0
    let n := dfield v 13 4
    if dfield v 63 14 ≠ 0 ∨ n = 0 then (s, { fault := some { code := 0x0207 } })
    else if s.plat.fsStack.contains stack then (s, { fault := some { code := 0x0F05 } })
    else if va.toNat % 64 ≠ 0 then (s, { fault := some { code := 0x0C02 } })
    else match s.uRead va (64 * n) 1 with
      | (s, .fault f) => (s, { fault := some f })
      | (s, .page p) => s.uPage p none
      | (s, .ok bs) =>
        match searchRecords bs n with
        | none => (s, { fault := some { code := 0x0C02 } })
        | some rs => s.issueBlock stack (cfOf cf.toNat) rs))

/-- `srch.ver kD, kA` in its changing form (R280): a release before and an acquire after it, at dev scope. -/
def execSrchVer (d a : Fin 64) (s : State) : Host.Outcome State Fault Refusal :=
  .next (s.runU [.k a] (some (.k d)) (fun s vs =>
    let s := s.sys.issue.lanes.foldl (fun (s : State) l => (s.flushGather l.2).release l.2 .dev) s
    let old := s.sync.published
    let new : Word := (vs.getD 0 0).setWidth 32
    let s := if old.ult new then s.setSync { s.sync with published := new } else s
    (s.sys.issue.lanes.foldl (fun (s : State) l => s.acquire l.2 s.sys.issue.core .dev) s, { res := some (old.setWidth 64) })))

/-- `srch.ver` in its reading form (R280). -/
def execSrchVerRead (d a : Fin 64) (s : State) : Host.Outcome State Fault Refusal :=
  .next (s.runU [.k a] (some (.k d)) (fun s _ => (s, { res := some (s.sync.published.setWidth 64) })))

/-! ### The running block -/

/-- The running block of a stack with its current command, where that is of the operation named and the walk has met no
fault. -/
def State.running (s : State) (stack op : Nat) : Option (Block × SearchCmd) :=
  match (s.die stack).running with
  | some e =>
    match (s.die stack).blocks.find? (fun b => b.entry = e) with
    | some b => match b.records[b.pos]? with
      | some c => if c.op = op && !b.parked && b.walkEnd.isNone then some (b, c) else none
      | none => none
    | none => none
  | none => none

/-- The current command is complete; after the last, the block's command is (R346). -/
def State.advance (s : State) (stack : Nat) (b : Block) : State :=
  let s := s.modBlock stack b.entry (fun b =>
    { b with pos := b.pos + 1, cursor := 0, dim := 0, part := .fin 0 1, snapTaken := none, snapAcq := 0, retried := false, refault := 0 })
  if b.records.length ≤ b.pos + 1 then s.due [.commandComplete b.cmdId] else s

/-- A fault ends the command and its block (R481). -/
def State.failBlock (s : State) (b : Block) (f : Fail) : State :=
  (s.modCmd b.cmdId (fun c => { c with info0 := f.info0.toNat, info1 := f.info1.toNat })).due [.commandEnd b.cmdId (BitVec.ofNat 16 f.code) f.addr]

/-- A command without effect on anything but the block's progress, or with an effect on its stack alone. -/
def State.dieStep (s : State) (stack op : Nat) (f : State → Block → SearchCmd → Except Fail State) : State :=
  match s.running stack op with
  | some (b, c) =>
    match f s b c with
    | .ok s => s.advance stack b
    | .error e => s.failBlock b e
  | none => s

/-- The check of R349 on a heap. -/
def heapFail (h : Heap) (asid : Nat) : Bool := h.cap == 0 || h.asid != some asid

def searchState : Fail := { code := 0x0C06 }

/-- SEARCH_NOP (R348). -/
def execSearchNop (stack : Nat) (s : State) : Host.Outcome State Fault Refusal :=
  .next (s.dieStep stack 0 (fun s _ _ => .ok s))

/-- HINIT (R348): it may name a heap of capacity 0, but no heap with another block's ASID (R349). -/
def execHinit (stack : Nat) (s : State) : Host.Outcome State Fault Refusal :=
  .next (s.dieStep stack 2 (fun s b c =>
    if ((s.die stack).heap c.h).asid.any (· != b.asid) then .error searchState
    else .ok (s.modDie stack (fun d => { d with heaps := d.heaps.put c.h { cap := c.count, asid := some b.asid } }))))

/-- VCLR (R348). -/
def execVclr (stack : Nat) (s : State) : Host.Outcome State Fault Refusal :=
  .next (s.dieStep stack 7 (fun s _ c => .ok (s.modDie stack (fun d => { d with visited := d.visited.put c.t (c.count, []) }))))

/-- HMERGE (R355, R487). -/
def execHmerge (stack : Nat) (s : State) : Host.Outcome State Fault Refusal :=
  .next (s.dieStep stack 5 (fun s b c =>
    let src := (s.die c.stk).heap c.t
    let h := (s.die stack).heap c.h
    if s.plat.fsStack.contains c.stk then .error { code := 0x0F05 }
    else if heapFail h b.asid || heapFail src b.asid then .error searchState
    else .ok (s.modDie stack (fun d => { d with heaps := d.heaps.put c.h (h.merge src) }))))

/-! ### Reading through the base-die TLB (R114, R358) -/

def State.dieAccess (s : State) (stack : Nat) (b : Block) (kind : AccKind) (va : DWord) (n : Nat) : Access :=
  { core := b.core, team := b.team, unit := .die stack, asid := b.asid, root := b.root, grid := none,
    user := !s.isSup b.team, kind, va, size := n, align := 1 }

/-- A read within one line: translated, in the stack itself where `own`, and with a loaded key. -/
def State.dieLine (s : State) (stack : Nat) (b : Block) (own : Bool) (va : DWord) (n : Nat) : State × EngRes Target :=
  match s.checkIssue (s.dieAccess stack b .engRead va n) with
  | (s, .page v) => (s, .hold v)
  | (s, .fault f) => (s, .bad f)
  | (s, .ok t) =>
    if own && !(isHbm t.loc && stackOf t.loc == stack) then (s, .bad { code := 0x0C03, addr := va })
    else if isHbm t.loc && (s.mem.keys.find t.key).isNone then (s, .bad { code := 0x1004, addr := va, info0 := 4 })
    else (s, .ok t)

/-- The command whose block is run: its loads' acquire is at its issue (R87), or where a scan read the published version
(R351). -/
def State.blockCmd (s : State) (b : Block) : Cmd :=
  let c := (s.cmd b.cmdId).getD (s.mkCmd b.team (.search 0) (.search 0 0 []) {})
  { c with acq := Nat.max c.acq b.snapAcq }

/-- Bytes from va on, line by line; a poisoned line ends the command (R424). -/
def State.dieReadGo (s : State) (stack : Nat) (b : Block) (own : Bool) (va : DWord) (n : Nat) : Nat → State × EngRes (List Byte)
  | 0 => (s, .ok [])
  | fuel + 1 =>
    if n = 0 then (s, .ok []) else
    let k := Nat.min n (64 - va.toNat % 64)
    match s.dieLine stack b own va k with
    | (s, .hold v) => (s, .hold v)
    | (s, .bad f) => (s, .bad f)
    | (s, .ok t) =>
      match s.engFetch (s.blockCmd b) t k with
      | (s, _, true) => (s, .bad { code := 0x0F01, addr := va, info0 := 4 })
      | (s, bs, false) =>
        match s.dieReadGo stack b own (va + dw k) (n - k) fuel with
        | (s, .ok rest) => (s, .ok (bs ++ rest))
        | r => r

def State.dieRead (s : State) (stack : Nat) (b : Block) (own : Bool) (va : DWord) (n : Nat) : State × EngRes (List Byte) :=
  s.dieReadGo stack b own va n (n / 64 + 2)

/-- Whether every line of a range is mapped: the address of the first that is not. -/
def State.dieMissing (s : State) (stack : Nat) (b : Block) (va : DWord) (n : Nat) : Option Nat :=
  (pagesOf va n).findSome? (fun p => match (s.checkIssue (s.dieAccess stack b .engRead p.1 1)).2 with
    | .page v => some v
    | _ => none)

/-! ### Parking (R482, R483) -/

/-- The granules from `va` on, up to `stop`, whose walks meet invalid entries: at most `want` of them. -/
def State.missesGo (s : State) (stack : Nat) (b : Block) (va want : Nat) : Nat → List (Nat × Bool × Bool)
  | 0 => []
  | fuel + 1 =>
    if want = 0 then [] else
    match (s.checkIssue (s.dieAccess stack b .engRead (dw va) 1)).2 with
    | .page _ => (va, false, false) :: s.missesGo stack b (va + 65536) (want - 1) fuel
    | _ => s.missesGo stack b (va + 65536) want fuel

/-- A refault of a block: the line at which it was parked last, met invalid again after `replay` (R459). -/
def Block.again (b : Block) (va : Nat) : Bool := b.retried && b.parkedAt / 64 == va / 64

/-- A block as it parks at an address; a record whose distance was being formed is begun again (R483). -/
def Block.park (b : Block) (va : Nat) : Block :=
  { b with parked := true, parkedAt := va, retried := false, dim := 0, part := .fin 0 1,
           refault := if b.again va then Nat.min 255 (b.refault + 1) else 0 }

/-- A block parks: its batch entry, the 0x0C01 record, and the sequencer is free for the next block. `stop` ends the
command's remaining range. -/
def State.parkBlock (s : State) (stack : Nat) (b : Block) (va stop : Nat) : State :=
  let g := va / 65536 * 65536
  let more := s.missesGo stack b (g + 65536) 32 ((stop - 1) / 65536 - va / 65536)
  let code := if b.again va then 0x0702 else 0x0701
  let refault := (b.park va).refault
  let idx := (s.errs.bqTail + s.errs.waiting.length) % 65536
  let s := s.batch { code, core := b.core, asid := b.asid, pc := 0, granules := (g, false, false) :: more, refault,
                     team := some b.team, tag := s.tagOf b.team, kind := 6, index := stack, access := AccKind.engRead.num, addr := dw va }
  let s := s.record { code := 0x0C01, sev := 1, kind := 6, index := stack, slot := b.team.2, asid := b.asid, tag := s.tagOf b.team,
                      addr := dw va, info0 := dw (b.pos + idx * 65536), info1 := dw b.cursor }
  (s.modBlock stack b.entry (Block.park · va)).modDie stack (fun d => { d with running := none })

/-- A block held at a line that its core's translation does not map (R457): it parks with the core's batch entry. -/
def State.holdBlock (s : State) (stack : Nat) (b : Block) (va : Nat) : State :=
  let s := match s.cmd b.cmdId with
    | some c => s.holdBatch { c with refault := (b.park va).refault } va (if b.again va then 0x0702 else 0x0701)
    | none => s
  (s.modBlock stack b.entry (Block.park · va)).modDie stack (fun d => { d with running := none })

/-! ### Commands that move data -/

def vecBytes (dim : Nat) (t : Ty) : Nat := bytesFor dim (storageBits t)

/-- QLOAD (R348): loaded from its start after a park (R483). -/
def execQload (stack : Nat) (s : State) : Host.Outcome State Fault Refusal :=
  match s.running stack 1 with
  | some (b, c) =>
    let n := vecBytes c.dim (tyOf c.fmt)
    match s.dieRead stack b false c.addr n with
    | (s, .hold v) => .next (s.parkBlock stack b v (c.addr.toNat + n))
    | (s, .bad f) => .next (s.failBlock b f)
    | (s, .ok bs) =>
      .next ((s.modDie stack (fun d => { d with slots := d.slots.put c.q { dim := c.dim, fmt := tyOf c.fmt, bytes := bs } })).advance stack b)
  | none => .next s

/-- HOUT (R356): the requesting core's slice receives the heap's result, as engine stores (R358). -/
def execHout (stack : Nat) (s : State) : Host.Outcome State Fault Refusal :=
  match s.running stack 6 with
  | some (b, c) =>
    let h := (s.die stack).heap c.h
    if heapFail h b.asid then .next (s.failBlock b searchState)
    else match s.cmd b.cmdId with
      | none => .next s
      | some cmd =>
        let bs := h.result
        if !ownSlice b.core (s.pieces cmd .engWrite [.va c.addr bs.length]) then .next (s.failBlock b { code := 0x0C02, addr := c.addr })
        else match s.engWrite cmd c.addr bs (fun _ _ => false) 0 with
          | (s, _, .hold v) => .next (s.holdBlock stack b v)
          | (s, _, .bad f) => .next (s.failBlock b f)
          | (s, _, .ok _) => .next ((s.modBlock stack b.entry (fun b => { b with wrote := b.wrote + bs.length })).advance stack b)
  | none => .next s

/-- The filter of R353. -/
def filterPasses (c : SearchCmd) (attr : Nat) : Bool :=
  let a := attr &&& c.fmask
  match c.fcond with
  | 0 => true
  | 1 => a == c.fval
  | 2 => a != c.fval
  | 3 => a != 0
  | _ => a == c.fmask

/-- Whether a scan's record is offered: visible at its snapshot, and through the filter (R350, R353). -/
def recordPasses (c : SearchCmd) (snap : Nat) (h0 h1 : DWord) : Bool :=
  decide (dfield h1 31 0 ≤ snap ∧ snap < dfield h1 63 32) && filterPasses c (dfield h0 63 48)

/-- What the distance units do at a step: a record is skipped, its sum goes on, or its offer is ready. -/
inductive ScanRes where
  | skip
  | more (dim : Nat) (part : DistVal) (id : Nat)
  | offer (v : DistVal) (id : Nat)
deriving DecidableEq, Repr

/-- The next 64 elements of the vector at an address: the partial sum, or the distance for the id (R364). -/
def State.vecStep (s : State) (stack : Nat) (b : Block) (c : SearchCmd) (slot : QSlot) (va : DWord) (id : Nat) : State × EngRes ScanRes :=
  let k := Nat.min distStep (slot.dim - b.dim)
  match s.dieRead stack b true (va + dw (vecBytes b.dim slot.fmt)) (vecBytes k slot.fmt) with
  | (s, .hold v) => (s, .hold v)
  | (s, .bad f) => (s, .bad f)
  | (s, .ok bs) =>
    let qs := (vecElems slot slot.dim slot.bytes).drop b.dim
    let v := distNext c.metric slot (qs.take k) (vecElems slot k bs) b.part
    (s, .ok (if slot.dim ≤ b.dim + k then .offer v id else .more (b.dim + k) v id))

/-- One step of a scan (R350, R353, R354). Every line of the record is translated first, so that the cursor of R483 is the
lowest record with a line in a faulting granule; the header is read once, as the record begins. -/
def State.scanRecord (s : State) (stack : Nat) (b : Block) (c : SearchCmd) (slot : QSlot) (bare : Bool) (snap stride : Nat) :
    State × EngRes ScanRes :=
  let a := c.addr + dw (b.cursor * stride)
  let n := vecBytes slot.dim slot.fmt
  match s.dieMissing stack b a (if bare then n else 16 + n) with
  | some v => (s, .hold v)
  | none =>
    if bare then s.vecStep stack b c slot a ((dfield c.arg 47 0 + b.cursor) % 2 ^ 48)
    else if b.dim ≠ 0 then s.vecStep stack b c slot (a + 16) b.recId
    else match s.dieRead stack b true a 16 with
      | (s, .hold v) => (s, .hold v)
      | (s, .bad f) => (s, .bad f)
      | (s, .ok bs) =>
        if recordPasses c snap (dwordsOf bs 0) (dwordsOf bs 8) then
          s.vecStep stack b c slot (a + 16) (dfield (dwordsOf bs 0) 47 0)
        else (s, .ok .skip)

/-- The next record of a scan, or its end. -/
def State.scanNext (s : State) (stack : Nat) (b : Block) (c : SearchCmd) : State :=
  if c.count ≤ b.cursor + 1 then s.advance stack b
  else s.modBlock stack b.entry (fun b =>
    { b with cursor := b.cursor + 1, dim := 0, part := .fin 0 1, retried := false, refault := 0 })

/-- The snapshot of a scan, taken as it starts, with its acquire: at dev scope where it reads the published version (R351). -/
def State.takeSnap (s : State) (b : Block) (c : SearchCmd) : State × Nat × Nat :=
  match b.snapTaken with
  | some n => (s, n, b.snapAcq)
  | none =>
    if c.cur then
      let s := (s.performStores (·.releasedTo b.core)).arrived
      (s, s.sync.published.toNat, s.mem.seq)
    else (s, c.snap, 0)

/-- One step of a scan or of a `cent` (R353, R354, R364: pre-emption finds it between steps). -/
def State.scanStep (s : State) (stack : Nat) (bare : Bool) : State :=
  match s.running stack (if bare then 4 else 3) with
  | none => s
  | some (b, c) =>
    let d := s.die stack
    match d.slots.find c.q with
    | none => s.failBlock b searchState
    | some slot =>
      if heapFail (d.heap c.h) b.asid then s.failBlock b searchState
      else if c.count = 0 then s.advance stack b
      else
        let stride := alignUp 16 (16 + vecBytes slot.dim slot.fmt) - (if bare then 16 else 0)
        let (s, snap, acq) := s.takeSnap b c
        let b := { b with snapTaken := some snap, snapAcq := acq }
        let s := s.modBlock stack b.entry (fun x => { x with snapTaken := some snap, snapAcq := acq })
        match s.scanRecord stack b c slot bare snap stride with
        | (s, .hold v) => s.parkBlock stack b v (c.addr.toNat + c.count * stride)
        | (s, .bad f) => s.failBlock b f
        | (s, .ok .skip) => s.scanNext stack b c
        | (s, .ok (.more dim part recId)) => s.modBlock stack b.entry (fun b => { b with dim, part, recId })
        | (s, .ok (.offer v id)) =>
          (s.modDie stack (fun d => { d with heaps := d.heaps.put c.h ((d.heap c.h).offer (v, id)) })).scanNext stack b c

/-- SCAN: the next step of the running `scan` (R353). -/
def execScan (stack : Nat) (s : State) : Host.Outcome State Fault Refusal := .next (s.scanStep stack false)

/-- CENT: the next step of the running `cent` (R354). -/
def execCent (stack : Nat) (s : State) : Host.Outcome State Fault Refusal := .next (s.scanStep stack true)

/-! ### Choosing a block (R346), pre-emption (R364, R486) -/

/-- Whether a block comes before another: the higher priority, then the earlier arrival. -/
def Block.before (a b : Block) : Bool := b.prio < a.prio || (a.prio == b.prio && a.order < b.order)

/-- The next block of a stack among those neither parked nor spilled. -/
def SearchDie.nextBlock (d : SearchDie) : Option Block :=
  (d.blocks.filter (fun b => !b.parked && !d.preempted.contains b.entry && d.running != some b.entry)).foldl
    (fun best b => match best with
      | some x => if b.before x then some b else some x
      | none => some b) none

/-- The spilled block that resumes first: the last one pre-empted, which has the highest priority of them. -/
def SearchDie.spilled (d : SearchDie) : Option Block :=
  (d.preempted.getLast?).bind (fun e => d.blocks.find? (fun b => b.entry = e))

/-- Whether a block waits that would pre-empt one of a priority. -/
def SearchDie.higherWaits (d : SearchDie) (prio : Nat) : Bool := d.nextBlock.any (fun b => prio < b.prio)

/-- A block leaves its stack's queue. -/
def State.dropBlock (s : State) (stack entry : Nat) : State :=
  s.modDie stack (fun d => { d with blocks := d.blocks.filter (fun b => b.entry != entry),
                                    preempted := d.preempted.filter (· != entry),
                                    running := if d.running = some entry then none else d.running })

/-- SEARCH_BLOCK_START: an idle sequencer takes its next block, once the block's guard and buffers let it leave the head
(R242, R245, R346). -/
def execSearchBlockStart (stack : Nat) (s : State) : Host.Outcome State Fault Refusal :=
  let d := s.die stack
  match d.nextBlock with
  | none => .next s
  | some b =>
    if d.running.isSome || d.spilled.any (fun p => b.prio ≤ p.prio) then .next s
    else
      let run (s : State) : State :=
        (s.modBlock stack b.entry (fun b => { b with started := true, lastWalk := s.now })).modDie stack (fun d => { d with running := some b.entry })
      if b.started then .next (run s)
      else match s.cmd b.cmdId with
        | none => .next (s.dropBlock stack b.entry)
        | some c =>
          match s.guardOf c with
          | none => .next s
          | some false => .next ((s.dropBlock stack b.entry).retireCmd c)
          | some true =>
            match s.headBufs c with
            | none => .next s
            | some (ds, rs) => .next (run (s.leaveHead c ds rs))

/-- The walker threads of a block, on whatever stack. -/
def State.walkThreads (s : State) (stack entry : Nat) : List (Who × Thread) :=
  s.threads.filter (fun p => p.2.walk.any (fun x => x.origin = stack && x.block = entry))

/-- Whether a walker thread has stopped at a loop boundary, or can issue nothing before one: a `w.recv` that waits is a
boundary (R360), and a parked thread issues nothing (R482). -/
def Thread.atBoundary (t : Thread) : Bool := t.stopped || t.state = .parked || t.stall = .message

/-- A save row fails (R486): the block ends with 0x0C08, and the stack pre-empts no more. -/
def State.saveLost (s : State) (stack : Nat) (b : Block) : State :=
  (s.modDie stack (fun d => { d with saveLost := true })).due [.commandEnd b.cmdId 0x0C08#16 0]

/-- The stopped threads of a walk go on (R364). -/
def State.unstopWalk (s : State) (stack entry : Nat) : State :=
  let s := s.modBlock stack entry (fun b => { b with preempting := false, lastWalk := s.now })
  (s.walkThreads stack entry).foldl (fun (s : State) p => s.modThread p.1 (fun t => { t with stopped := false })) s

/-- SEARCH_PREEMPT: the running block gives way to one of higher priority (R364): a scan between two steps, a walk once
each of its threads has stopped, any other command before it begins. A walk whose rival has gone meanwhile goes on. -/
def execSearchPreempt (stack : Nat) (s : State) : Host.Outcome State Fault Refusal :=
  let d := s.die stack
  match d.running.bind (fun e => d.blocks.find? (fun b => b.entry = e)) with
  | none => .next s
  | some b =>
    if d.saveLost then .next s
    else if !d.higherWaits b.prio then .next (if b.preempting then s.unstopWalk stack b.entry else s)
    else
      let s := s.modBlock stack b.entry (fun b => { b with preempting := true })
      let ws := s.walkThreads stack b.entry
      let s := ws.foldl (fun (s : State) p => if p.2.stall = .message then s.modThread p.1 (fun t => { t with stopped := true }) else s) s
      if ws.all (fun p => p.2.atBoundary) then
        let lost := Config.saveRowFails s.sys.free
        let s := s.tickFree
        if lost then .next (s.saveLost stack b)
        else
          let s := ws.foldl (fun (s : State) p => s.modThread p.1 (fun t => { t with stopped := true })) s
          .next (s.modDie stack (fun d => { d with running := none, preempted := d.preempted ++ [b.entry] }))
      else .next s

/-- SEARCH_RESUME: the spilled block goes on when no queued block has a higher priority (R364, R486). -/
def execSearchResume (stack : Nat) (s : State) : Host.Outcome State Fault Refusal :=
  let d := s.die stack
  match d.spilled with
  | none => .next s
  | some b =>
    if d.running.isSome || d.higherWaits b.prio then .next s
    else
      let lost := Config.saveRowFails s.sys.free
      let s := s.tickFree
      if lost then .next (s.saveLost stack b)
      else
        .next ((s.unstopWalk stack b.entry).modDie stack (fun d => { d with running := some b.entry, preempted := d.preempted.filter (· != b.entry) }))

end Sys2Proof.Machine
end

