-- ==== Sys2Proof/Machine/Walker.lean ====
section
/-!
DEFINITION. Walker threads (spec/09_engine_instructions.md R283 to R287, spec/13_search_base_dies.md R359 to R364): the
walker instructions, starting and ending threads, messages, hops, and the end of a walk (R484, R485).
-/
namespace Sys2Proof.Machine

/-! ### Threads -/

/-- The lowest idle walker thread of a stack, on an unfenced walker core (R17, R359, R487). -/
def State.idleWalker (s : State) (stack : Nat) : Option Nat :=
  if s.plat.fsStack.contains stack then none
  else ((List.range 512).map (512 * stack + ·)).find? (fun n => (s.thread (.walk n)).isNone && !s.plat.fsWalker.contains (n / 16))

/-- A walker thread at its start: 32 registers, the given ones first, all else zero or empty (R285, R359). -/
def State.startWalker (s : State) (n : Nat) (x : WalkCtx) (pc : DWord) (regs : List Word) : State :=
  s.setThread (.walk n) { pc, regs := padTo 32 0 regs, walk := some x, readySince := s.now, lastIssue := s.now }

/-- As many of a walk's pending threads as are idle start now (R359). -/
def State.startThreads (s : State) (stack entry : Nat) : Nat → State
  | 0 => s
  | fuel + 1 =>
    match (s.die stack).blocks.find? (fun b => b.entry = entry), s.idleWalker stack with
    | some b, some n =>
      if b.walkLeft = 0 then s else
      match b.records[b.pos]? with
      | some c =>
        let x : WalkCtx := { stack, block := entry, cmd := b.pos, origin := stack, core := b.core, team := b.team.2, asid := b.asid }
        let s := s.startWalker n x c.addr [wd b.walkOrd, wd n, c.arg.setWidth 32, (c.arg >>> 32).setWidth 32]
        (s.modBlock stack entry (fun b => { b with walkLeft := b.walkLeft - 1, walkLive := b.walkLive + 1, walkOrd := b.walkOrd + 1,
                                                   lastWalk := s.now })).startThreads stack entry fuel
      | none => s
    | _, _ => s

/-- WALK: the entry is checked, and the threads start on the lowest idle ones (R359). -/
def execWalk (stack : Nat) (s : State) : Host.Outcome State Fault Refusal :=
  match s.running stack 8 with
  | none => .next s
  | some (b, c) =>
    if b.cursor ≠ 0 then .next s
    else if c.addr.toNat % 4 ≠ 0 then .next (s.failBlock b { code := 0x0502, addr := c.addr })
    else match s.checkIssue (s.dieAccess stack b .fetch c.addr 4) with
      | (s, .page v) => .next (s.parkBlock stack b v (v + 1))
      | (s, .fault f) => .next (s.failBlock b f)
      | (s, .ok t) =>
        if !(isHbm t.loc && stackOf t.loc == stack) then .next (s.failBlock b { code := 0x0C03, addr := c.addr })
        else
          let s := s.modBlock stack b.entry (fun b =>
            { b with cursor := 1, walkLeft := c.count, walkLive := 0, walkOrd := 0, lastWalk := s.now, retried := false, refault := 0 })
          .next (s.startThreads stack b.entry c.count)

/-- WALKER_THREAD_START: a thread of the running walk starts on one that has become idle (R359). -/
def execWalkerThreadStart (stack : Nat) (s : State) : Host.Outcome State Fault Refusal :=
  match s.running stack 8 with
  | some (b, _) => if b.preempting then .next s else .next (s.startThreads stack b.entry 1)
  | none => .next s

/-! ### Messages (R284, R362, R363) -/

/-- The search that a walker thread serves: its origin, block and command. -/
def WalkCtx.search (x : WalkCtx) : Nat × Nat × Nat := (x.origin, x.block, x.cmd)

/-- Sends on their way to a thread. -/
def State.inTransit (s : State) (dst : Nat) : Nat := ((s.die (walkerStack dst)).sends.filter (fun m => m.dst = dst)).length

/-- Whether a receiver's queue of 4 messages has room for one more, those on their way counted (R284). -/
def State.peerRoom (s : State) (dst : Nat) : Bool :=
  (((s.thread (.walk dst)).map (fun t => t.msgs.length)).getD 0) + s.inTransit dst < 4

/-- The record of a walker output that is dropped (R471, R484). -/
def State.walkerDropped (s : State) (x : WalkCtx) (n : Nat) : State :=
  s.record { code := 0x0C04, sev := 1, kind := 7, index := n / 16, slot := x.team, asid := x.asid, tag := s.tagOf (x.core, x.team),
             info0 := dw x.cmd, info1 := dw n }

def regsFrom (b n : Nat) : List Nat := (List.range n).map (b + ·)

/-- A walker instruction on a compute core is a reserved encoding (R149). -/
def notHere : LaneOut := { fault := some { code := 0x0101 } }

/-- `w.send a, b` (R284). -/
def execWSend (a : Src) (b : Fin 128) (s : State) : Host.Outcome State Fault Refusal :=
  .next (s.runSeq { srcs := [(a, false)], more := regsFrom b.val 16 } (fun s l =>
    match l.who, l.t.walk with
    | .walk n, some x =>
      let dst := (l.w 0).toNat
      if 8192 ≤ dst then (s.walkerDropped x n, {})
      else if !s.peerRoom dst then (s, { next := .stay, stall := .peer dst })
      else
        let m := { walkMsg 1 (walkerStack dst) n dst x with body := (regsFrom b.val 16).map l.t.rd }
        (s.modDie (walkerStack dst) (fun d => { d with sends := d.sends ++ [m] }), {})
    | _, _ => (s, notHere)))

/-- `w.recv d` (R284): a wait is a loop boundary (R360). -/
def execWRecv (d : Fin 128) (s : State) : Host.Outcome State Fault Refusal :=
  .next (s.runSeq { more := regsFrom d.val 16 } (fun s l =>
    match l.who with
    | .walk _ =>
      match l.t.msgs with
      | [] => (s.walkBoundary l.who, { next := .stay, stall := .message })
      | m :: ms =>
        (s.modThread l.who (fun t => { (((m.zipIdx).foldl (fun (t : Thread) p => t.wr (d.val + p.2) p.1) t)) with msgs := ms }), {})
    | .lane .. => (s, notHere)))

/-- WALKER_MESSAGE: the oldest send to a thread reaches its queue, or is discarded where the thread is not of the sender's
search (R284, R484). -/
def execWalkerMessage (dst : Nat) (s : State) : Host.Outcome State Fault Refusal :=
  if 8192 ≤ dst then .fault .noSuchAgent
  else
    let k := walkerStack dst
    match (s.die k).sends.find? (fun m => m.dst = dst) with
    | none => .next s
    | some m =>
      let s := s.modDie k (fun d => { d with sends := d.sends.erase m })
      if ((s.thread (.walk dst)).bind (·.walk)).any (fun y => m.ctx.search = y.search) then
        .next (s.modThread (.walk dst) (fun t => { t with msgs := t.msgs ++ [m.body] }))
      else .next (s.walkerDropped m.ctx m.src)

/-! ### Hops (R285, R363) -/

/-- `w.hop a` (R285). A stack number above 15 is out of range (R438). -/
def execWHop (a : Src) (s : State) : Host.Outcome State Fault Refusal :=
  .next (s.runSeq { srcs := [(a, false)] } (fun s l =>
    match l.who, l.t.walk with
    | .walk n, some x =>
      let k := (l.w 0).toNat
      if 15 < k then (s, { fault := some { code := 0x0207 } })
      else if s.plat.fsStack.contains k then (s, { fault := some { code := 0x0F05 } })
      else if 64 ≤ (s.die k).hops.length then (s, { next := .stay, stall := .hopRoom k })
      else
        let h := { walkMsg 2 k n 0 x with body := l.t.regs.take 16, pc := s.sys.issue.pc + dw s.sys.issue.len }
        ((s.modDie k (fun d => { d with hops := d.hops ++ [h] })).dropThread l.who, { next := .gone })
    | _, _ => (s, notHere)))

/-- Whether a hop's walk is being spilled or is spilled: its hops wait (R364). -/
def State.hopHeld (s : State) (h : WalkMsg) : Bool :=
  (s.die h.ctx.origin).blocks.any (fun b => b.entry = h.ctx.block && b.preempting)

/-- HOP_TAKEUP: the lowest idle thread of a stack takes up the oldest hop that does not wait for its walk to resume. -/
def execHopTakeup (stack : Nat) (s : State) : Host.Outcome State Fault Refusal :=
  match (s.die stack).hops.find? (fun h => !s.hopHeld h), s.idleWalker stack with
  | some h, some n => .next ((s.modDie stack (fun d => { d with hops := d.hops.erase h })).startWalker n h.ctx h.pc h.body)
  | _, _ => .next s

/-! ### Emissions (R287) -/

/-- `w.emit a, n` (R287). -/
def execWEmit (a : Fin 128) (n : Fin 32) (s : State) : Host.Outcome State Fault Refusal :=
  .next (s.runSeq { srcs := [(.reg a, true)] } (fun s l =>
    match l.who, l.t.walk with
    | .walk w, some x =>
      let t : TeamId := (x.core, x.team)
      match s.chan t n.val with
      | some c =>
        if c.kind ≠ .emissions then (s.walkerDropped x w, {})
        else if c.room ≤ c.elems.length then (s, { next := .stay, stall := .emitRoom n.val })
        else ((s.pushOne t n.val (l.v 0)).wakeChan t n.val, {})
      | none => (s.walkerDropped x w, {})
    | _, _ => (s, notHere)))

/-! ### Search state (R286, R349) -/

/-- `w.dist d, a, q` (R286). The metric is a free value (log entry 19). -/
def execWDist (d a : Fin 128) (q : Fin 32) (s : State) : Host.Outcome State Fault Refusal :=
  .next (s.runSeq { srcs := [(.reg a, true)], dst := some (.reg d, false) } (fun s l =>
    match l.who, l.t.walk with
    | .walk _, some x =>
      match (s.die x.stack).slots.find q.val with
      | none => (s, { fault := some searchState })
      | some slot =>
        let n := vecBytes slot.dim slot.fmt
        match s.uReadGo l.who (l.v 0) n (n / 64 + 2) with
        | (s, .fault f) => (s, { fault := some f })
        | (s, .page v) => (s, { page := some (v, .load), known := false })
        | (s, .ok bs) =>
          let v := distance Config.walkMetric slot bs
          (s.modThread l.who (fun t => { (t.accessOk s.sys.issue.pc) with latch := some v }), { res := some (dw v.f32) })
    | _, _ => (s, notHere)))

/-- `w.heap pN, a, h` (R286, R355). -/
def execWHeap (p : Fin 8) (a : Fin 128) (h : Fin 32) (s : State) : Host.Outcome State Fault Refusal :=
  .next (s.runSeq { srcs := [(.reg a, true)] } (fun s l =>
    match l.who, l.t.walk with
    | .walk _, some x =>
      let hp := (s.die x.stack).heap h.val
      match l.t.latch with
      | none => (s, { fault := some { code := 0x0C07 } })
      | some v =>
        if heapFail hp x.asid then (s, { fault := some searchState })
        else
          let e := (v, dfield (l.v 0) 47 0)
          let into := hp.entries.length < hp.cap || (hp.entries.getLast?).any (fun y => ranksAbove e y)
          (s.modDie x.stack (fun d => { d with heaps := d.heaps.put h.val (hp.offer e) }), { pred := some (p.val, into) })
    | _, _ => (s, notHere)))

/-- `w.visit pN, a, t` (R286). -/
def execWVisit (p : Fin 8) (a : Src) (t : Fin 32) (s : State) : Host.Outcome State Fault Refusal :=
  .next (s.runSeq { srcs := [(a, false)] } (fun s l =>
    match l.who, l.t.walk with
    | .walk _, some x =>
      let (size, set) := ((s.die x.stack).visited.find t.val).getD (0, [])
      let i := (l.w 0).toNat
      if size ≤ i then (s, { fault := some searchState })
      else (s.modDie x.stack (fun d => { d with visited := d.visited.put t.val (size, insertNat set i) }),
            { pred := some (p.val, set.contains i) })
    | _, _ => (s, notHere)))

/-! ### The end of a walk (R88, R359, R484, R485) -/

/-- EXIT_NOTICE: one exit reaches the origin sequencer; after the last the walk completes (R359, R362). -/
def execExitNotice (stack : Nat) (s : State) : Host.Outcome State Fault Refusal :=
  match (s.die stack).notices with
  | [] => .next s
  | m :: ms =>
    let s := s.modDie stack (fun d => { d with notices := ms })
    match (s.die stack).blocks.find? (fun b => b.entry = m.ctx.block ∧ b.pos = m.ctx.cmd) with
    | none => .next s
    | some b =>
      let s := s.modBlock stack b.entry (fun b => { b with walkLive := b.walkLive - 1 })
      if b.walkLive ≤ 1 ∧ b.walkLeft = 0 then .next ((s.performWalk stack b.entry).advance stack b) else .next s

/-- Every thread of a block's walk stops and becomes idle, and what is addressed to it is discarded (R484). -/
def State.stopWalk (s : State) (stack entry : Nat) : State :=
  let ws := (s.walkThreads stack entry).map (·.1)
  let s := ws.foldl (fun (s : State) w => s.dropThread w) s
  let mine (x : WalkCtx) : Bool := x.origin = stack && x.block = entry
  let dies : Table Nat SearchDie := s.dies.map (fun p => (p.1,
    { p.2 with hops := p.2.hops.filter (fun h => !mine h.ctx), notices := p.2.notices.filter (fun h => !mine h.ctx),
               sends := p.2.sends.filter (fun m => !ws.contains (.walk m.dst)) }))
  { s with dies := dies }

/-- The clk of 2^20 base-die cycles (R485). -/
def walkPatience : Nat := 1638400

/-- WALK_STALLED: a walk none of whose threads has issued for 655 µs ends with 0x0C05 (R485). -/
def execWalkStalled (stack : Nat) (s : State) : Host.Outcome State Fault Refusal :=
  match s.running stack 8 with
  | some (b, _) =>
    if b.cursor ≠ 0 ∧ b.lastWalk + walkPatience ≤ s.now ∧
        (s.walkThreads stack b.entry).all (fun p => !p.2.stopped && p.2.state != .parked) then
      .next (s.failBlock b { code := 0x0C05 })
    else .next s
  | none => .next s

/-- What the end of a block leaves of it (R467, R468, R481): its walk stopped with its stores performed, the results not
written poisoned, the block gone; with the bytes of its arrival. -/
def State.endSearch (s : State) (c : Cmd) (stack entry : Nat) (houts : List (Nat × DWord × Nat)) : State × Nat :=
  let d := s.die stack
  match d.blocks.find? (fun b => b.entry = entry) with
  | none => (s, 0)
  | some b =>
    let s := (s.performWalk stack entry).stopWalk stack entry
    let s := (houts.filter (fun h => b.pos ≤ h.1)).foldl (fun (s : State) h => s.poisonRange c (.va h.2.1 h.2.2) 0) s
    let n := sumOf ((b.records.filter (fun r => r.op = 6)).map (fun r => resultBytes (d.heap r.h).cap))
    (s.dropBlock stack entry, n)

/-- A code whose record describes an access: that of a memory, buffer or translation fault (R452). -/
def accessClass (code : Nat) : Bool := 5 ≤ code / 256 && code / 256 ≤ 7

/-- The unit, and the two figures, that the record of an ended block names (R452, R471, R486): the walker core of a walk's fault,
the memory controller of a failed save row, else the stack. -/
def State.searchEndUnit (s : State) (stack entry code : Nat) : Nat × Nat × Nat × Nat :=
  match (s.die stack).blocks.find? (fun b => b.entry = entry) with
  | none => (6, stack, 0, 0)
  | some b =>
    match b.walkEnd with
    | some w => if accessClass code then (7, w.walker / 16, w.info0.toNat, w.info1.toNat) else (7, w.walker / 16, b.pos, w.walker)
    | none =>
      if code = 0x0C08 then
        (4, stack * 4 + (Config.freeValue s.sys.free).toNat % 4, (Config.freeValue (s.sys.free + 1)).toNat % 2 ^ 32, 0)
      else if accessClass code then (6, stack, ((s.cmd b.cmdId).map (·.info0)).getD 0, ((s.cmd b.cmdId).map (·.info1)).getD 0)
      else (6, stack, b.pos, 0)

end Sys2Proof.Machine
end

