-- ==== Sys2Proof/Machine/Commands.lean ====
section
/-!
DEFINITION. The steps of engine commands: the heads of the queues (R242), completion (R243), holds (R457), ends (R467 to
R471), abandoned multicasts (R474), and command graphs (R265 to R267, R320, R321).
-/
namespace Sys2Proof.Machine

/-! ### Heads (R239, R242) -/

def engineOf : EngineQueue → Engine
  | .matrix c => .matrix c
  | .copy c => .copy c
  | .fabric f s => .fabric f s
  | .round n => .round n

/-- The command at the head of a queue; behind a held command every other waits (R457). -/
def State.headOf (s : State) (e : Engine) : Option Cmd :=
  if s.cmds.any (fun c => c.engine = e && c.left && c.waitReplay) then none
  else s.cmds.find? (fun c => c.engine = e && !c.left)

/-- What a command starts as it leaves the head: multicast keys and streams (R253, R276), or a fabric's run. -/
def State.startCmd (s : State) (c : Cmd) : State :=
  match c.op with
  | .mx _ => s.startMx c
  | .sfRun f sl d =>
    match s.fabs.find (f, sl) with
    | some x => if x.unusable || x.bind.isNone || x.spent then s.due [.commandEnd c.id 0x0B05#16 0] else s.startFabric (f, sl) c.id d
    | none => s.due [.commandEnd c.id 0x0B05#16 0]
  | _ => s

/-- Whether a fabric's slot still streams for a matrix operation. -/
def State.slotRuns (s : State) (c : Cmd) : Bool :=
  match c.op with
  | .sfRun f sl _ => (s.fabs.find (f, sl)).any (·.run.isSome)
  | _ => false

/-- COMMAND_HEAD: the head of a queue stays, is discarded by its guard, or leaves (R242, R245). -/
def execCommandHead (q : EngineQueue) (s : State) : Host.Outcome State Fault Refusal :=
  match s.headOf (engineOf q) with
  | none => .next s
  | some c =>
    match s.guardOf c with
    | none => .next s
    | some false => .next (s.retireCmd c)
    | some true =>
      if s.slotRuns c then .next s
      else match s.headBufs c with
        | none => .next s
        | some (ds, rs) =>
          match (s.dests c).findSome? (s.destFail c) with
          | some f =>
            .next ((s.modCmd c.id (fun c => { c with info0 := f.info0.toNat, info1 := f.info1.toNat })).due
              [.commandEnd c.id (BitVec.ofNat 16 f.code) f.addr])
          | none => .next ((s.leaveHead c ds rs).startCmd { c with left := true, dsts := ds, rels := rs })

/-! ### Completion (R243) -/

/-- A graph whose nodes have all finished is done; one whose team has exited goes when its last command has (R266). -/
def State.runGraph (s : State) (gid : Nat) : State × Ran :=
  match s.graphs.find gid with
  | none => (s, .done 0)
  | some g => if g.started && g.n ≤ g.finished then (s, .done 0) else (s, .wait)

/-- The end of a round that aborted (R496): `cd.src` keeps its state, and `cd.dst` becomes full. -/
def State.abortCmd (s : State) (c : Cmd) : State :=
  let ds := if c.left then c.dsts else (s.bufsIn (s.pieces c .engWrite (s.dstRanges c))).map (·.1)
  s.modCmd c.id (fun c => { c with rels := [], dsts := ds })

/-- The figures of an aborted round's record (R496). -/
def CollOp.info0 (r : CollOp) : Nat := r.round + r.group * 65536

/-- A round at this device (R377, R378, R497): its source is read and contributed; a group's aborted round, or one with a lost
member, ends at once; a delivered result is written. -/
def State.runColl (s : State) (c : Cmd) (r : CollOp) : State × Ran :=
  match c.stage with
  | 0 =>
    match s.engRead c r.src r.bytes with
    | (s, .hold v) => (s, .hold v)
    | (s, .bad f) => (s, .bad f f.info0.toNat f.info1.toNat)
    | (s, .ok (bs, p)) =>
      if p then (s, .bad { code := 0x0F01, addr := r.src } 0 0)
      else
        let other := (s.dom.aborted.find r.group).any (fun a => a.1 != r.round)
        let s := if other then s.setDom { s.dom with aborted := s.dom.aborted.del r.group } else s
        match s.dom.aborted.find r.group with
        | some (_, code, mask) => (s.abortCmd c, .bad { code } r.info0 mask)
        | none =>
          if r.members.any (fun d => s.dom.lost.contains d) then
            let mask := (Config.freeValue s.sys.free).toNat
            let s := s.tickFree.setDom { s.dom with aborted := s.dom.aborted.put r.group (r.round, 0x0D07, mask) }
            (s.abortCmd c, .bad { code := 0x0D07 } r.info0 mask)
          else (s.modCmd c.id (fun c => { c with stage := 1, image := bs }), .wait)
  | 1 => (s, .wait)
  | _ =>
    let (s, k, x) := s.engWrite c r.dst c.image (fun _ _ => false) c.done
    (s.setDone c k, ranOf x r.bytes)

/-- The run of a command, as far as it has come. -/
def State.runCmd (s : State) (c : Cmd) : State × Ran :=
  match c.op with
  | .xfer .. | .xferMc .. | .xferTr .. => s.runCopy c
  | .mx _ | .accZero .. | .accDrain .. | .accPack .. => s.runMatrix c
  | .sfRun f sl _ => s.runFabric c f sl
  | .graph g => s.runGraph g
  | .search k e _ =>
    match (s.die k).blocks.find? (fun b => b.entry = e) with
    | some b => if b.records.length ≤ b.pos then (s, .done b.wrote) else (s, .wait)
    | none => (s, .done 0)
  | .coll r => s.runColl c r

/-- What a completed graph or block leaves: its place in its unit. A graph record's grid may then retire (R307). -/
def State.dropWork (s : State) (c : Cmd) : State :=
  match c.op with
  | .graph g =>
    let r := (s.graphs.find g).bind (·.record)
    let s := { s with graphs := s.graphs.del g }
    match r with
    | some gr => s.due [.gridRetire gr]
    | none => s
  | .search k e _ => s.dropBlock k e
  | _ => s

/-- Whether an earlier command of the same queue is still running: two writes of one queue keep its order (R239). -/
def State.behind (s : State) (c : Cmd) : Bool :=
  match c.engine with
  | .matrix _ | .copy _ => (s.cmds.takeWhile (fun x => x.id != c.id)).any (fun x => x.engine = c.engine && x.left)
  | _ => false

/-- COMMAND_COMPLETE: the command's reads and writes are performed and its completion follows, or it holds, ends, or waits
for what its run needs (R87, R88, R243). -/
def execCommandComplete (id : Nat) (s : State) : Host.Outcome State Fault Refusal :=
  match s.cmd id with
  | none => .next s
  | some c =>
    if !c.left || c.waitReplay || !c.laterDsts.isEmpty || !c.laterRels.isEmpty || s.behind c || !s.srcReady c then .next s
    else
      let (s, r) := s.runCmd c
      let c := (s.cmd id).getD c
      match r with
      | .done n => .next ((s.dropWork c).settle c n)
      | .hold va => .next (s.due [.commandHold id (dw va)])
      | .bad f i0 i1 => .next ((s.modCmd id (fun c => { c with info0 := i0, info1 := i1 })).due [.commandEnd id (BitVec.ofNat 16 f.code) f.addr])
      | .wait => .next s

/-- COMMAND_HOLD: the command stays at its line until a `replay` (R457, R459). -/
def execCommandHold (id : Nat) (va : DWord) (s : State) : Host.Outcome State Fault Refusal :=
  match s.cmd id with
  | none => .next s
  | some c =>
    let again := c.retried && c.holdVa.any (fun x => x.toNat / 64 = va.toNat / 64)
    let refault := if again then Nat.min 255 (c.refault + 1) else 0
    let s := s.modCmd id (fun c => { c with holdVa := some va, waitReplay := true, retried := false, refault })
    .next (s.holdBatch { c with refault } va.toNat (if again then 0x0702 else 0x0701))

/-! ### Ends (R467 to R471) -/

/-- The run of a fabric that a command's end concerns. -/
def State.runOf (s : State) (c : Cmd) : Option ((Nat × Nat) × FabSlot) :=
  match c.op with
  | .sfRun f sl _ => (s.fabs.find (f, sl)).map (fun x => ((f, sl), x))
  | _ => s.fabs.find? (fun x => x.2.run = some c.id && x.2.doomed.isSome)

/-- The unit and the figures of a command's record (R471): kind, index, `er.info0`, `er.info1`. -/
def State.endUnit (s : State) (c : Cmd) (code : Nat) : Nat × Nat × Nat × Nat :=
  if 0x0B01 ≤ code ∧ code ≤ 0x0B03 then
    match s.runOf c with
    | some ((f, sl), x) =>
      let e := x.doomed.getD { code, node := 0x3F, chunk := 0, info := 0, consumed := 0, stands := [] }
      (5, f, e.node + sl * 64 + e.chunk % 65536 * 65536, e.info)
    | none => (5, 0, 0x3F, 0)
  else
    match c.op with
    | .search k e _ => s.searchEndUnit k e code
    | .sfRun f _ _ => (5, f, c.info0, c.info1)
    | .coll _ => (0, 0, c.info0, c.info1)
    | _ => (1, c.team.1, c.info0, c.info1)

/-- Steps 2 and 3 of an end, with the bytes of the arrival (R467, R468). -/
def State.endActions (s : State) (c : Cmd) (code : Nat) : State × Nat :=
  match c.op with
  | .xfer .. | .xferMc .. | .xferTr .. => (s.poisonCopy c, s.copyBytes c)
  | .mx _ | .accZero .. | .accDrain .. | .accPack .. => s.endMatrix c code
  | .sfRun f sl _ => s.endFabric c f sl code
  | .search k e hs => s.endSearch c k e hs
  | .coll r => (s.poisonRange c (.va r.dst r.bytes) c.done, r.bytes)
  | .graph g =>
    let r := (s.graphs.find g).bind (·.record)
    let s := { s with graphs := s.graphs.del g }
    (match r with
      | some gr => (s.modGrid gr (fun x => { x with ended := true, status := code })).due [.gridRetire gr]
      | none => s, 0)

/-- COMMAND_END: a fault ends the command (R467): poison, status, buffers, one arrival, one record of severity 3. -/
def execCommandEnd (id : Nat) (code : BitVec 16) (addr : DWord) (s : State) : Host.Outcome State Fault Refusal :=
  match s.cmd id with
  | none => .next s
  | some c =>
    let n := code.toNat
    let s := s.checkFailed id n addr
    let addr := if n = 0x0B03 then 0 else addr
    let (kind, index, i0, i1) := s.endUnit c n
    let (s, bytes) := s.endActions c n
    .next ((s.settle c bytes).endRecord c n addr (n = 0x0503 || n = 0x0F05) kind index i0 i1)

/-- MULTICAST_ABANDON: a transfer that too few engines have joined is given up; every command that presented its key ends
(R474). -/
def execMulticastAbandon (id : Nat) (s : State) : Host.Outcome State Fault Refusal :=
  match s.casts.find? (fun k => k.cmds.contains id && decide (k.presented < k.want)) with
  | none => .next s
  | some k =>
    let s := { s with casts := s.casts.filter (fun x => x != k) }
    .next (k.cmds.foldl (fun (s : State) i =>
      (s.modCmd i (fun c => { c with info0 := k.tag + k.core * 256, info1 := k.presented })).due [.commandEnd i 0x0804#16 (dw k.addr)]) s)

/-! ### Command graphs (R265 to R267, R320, R321) -/

/-- Live graphs of a core (R239, R320). -/
def State.graphsOn (s : State) (core : Nat) : List (Nat × Graph) := s.graphs.filter (fun g => g.2.core = core)

/-- The lowest free entry of a core's 8 live graphs. -/
def State.graphSlot (s : State) (core : Nat) : Nat :=
  ((List.range 8).find? (fun n => (s.graphsOn core).all (fun g => g.2.slot != n))).getD 0

/-- Where the first of some pages stands, once each of them is mapped: a page that is not, or a fault, before all else. -/
def State.nodePages (s : State) (c : Cmd) : List (DWord × Nat) → State × EngRes Target
  | [] => (s, .bad { code := 0x0207 })
  | p :: ps =>
    match s.checkIssue (s.engAccess c .engRead p.1 (Nat.min p.2 64)) with
    | (s, .page v) => (s, .hold v)
    | (s, .fault f) => (s, .bad f)
    | (s, .ok t) =>
      if ps.isEmpty then (s, .ok t) else
      match s.nodePages c ps with
      | (s, .ok _) => (s, .ok t)
      | r => r

/-- Where an array of nodes stands: one run of the team's tile reservation. -/
def State.nodesAt (s : State) (c : Cmd) (va : DWord) (n : Nat) : State × EngRes Nat :=
  match s.nodePages c (pagesOf va (64 * n)) with
  | (s, .hold v) => (s, .hold v)
  | (s, .bad f) => (s, .bad f)
  | (s, .ok t) =>
    let ps := s.pieces c .engRead [.va va (64 * n)]
    let base := Config.tileBase + c.team.1 * Config.sliceBytes + ((s.team c.team).map (·.tileBase)).getD 0
    let size := ((s.team c.team).map (·.tileSize)).getD 0
    if isTile t.loc && base ≤ t.loc && t.loc + 64 * n ≤ base + size &&
        ps.all (fun p => p.loc == t.loc + (p.va - va).toNat) && sumOf (ps.map (·.n)) == 64 * n then (s, .ok t.loc)
    else (s, .bad { code := 0x0207 })

/-- `cg.launch kA, kB` (R266). -/
def execCgLaunch (cf : BitVec 16) (a b : Fin 64) (s : State) : Host.Outcome State Fault Refusal :=
  .next (s.runU [.k a, .k b] none (fun s vs =>
    let va := vs.getD 0 0
    let n := dfield (vs.getD 1 0) 15 0
    let t := s.issueTeam
    let e := Engine.walker t.1
    let gid := s.sys.nextCmd
    let c := s.mkCmd t e (.graph gid) (cfOf cf.toNat)
    if n = 0 ∨ dfield (vs.getD 1 0) 63 16 ≠ 0 ∨ va.toNat % 64 ≠ 0 then (s, { fault := some { code := 0x0207 } })
    else match s.nodesAt c va n with
      | (s, .hold v) => s.uPage v none
      | (s, .bad f) => (s, { fault := some f })
      | (s, .ok loc) =>
        if !(s.regionsAt loc (64 * n)).isEmpty then (s, { fault := some { code := 0x0208 } })
        else if !s.hasRoom e then (s, { next := .stay, stall := .queueRoom e })
        else
          let s := s.issueRelease
          let g : Graph := { core := t.1, team := t, addr := va, loc, n, slot := s.graphSlot t.1, ready := [], cf := c.cf, cmd := gid }
          ({ (s.enqueue { c with left := true }) with graphs := s.graphs.put gid g }, {})))

/-- A command of a node, as the launching skein would issue it: that of a graph record's node has no team (R320). -/
def State.nodeCmd (s : State) (g : Graph) (gid i : Nat) (e : Engine) (op : CmdOp) (cf : CompField) : Cmd :=
  let c := s.mkCmd g.team e op cf
  let c := match g.record.bind s.grid with
    | some r => { c with tag := r.seq, asid := r.asid, grid := g.record.getD 0 }
    | none => c
  { c with node := some (gid, i) }

/-- What a node asks for, read as a party on the core (R265, R320): its engine and command, or the code of its failed
check, or a page that holds the graph. -/
inductive NodeWork where
  | null
  | cmd (e : Engine) (p : Prep)
  | block (stack : Nat) (rs : List SearchCmd) (cf : CompField)
  | bad (code : Nat)
  | page (va : Nat)

/-- The arguments a node of each kind leaves unused, which must be zero (R265). -/
def nodeUnused : Nat → List Nat
  | 0 => [0, 1, 2, 3] | 1 | 2 => [3] | 3 => [] | 4 | 5 => [1, 2, 3] | 6 | 7 => [2, 3] | _ => [2]

/-- Bits of `cgn.arg3` that a node of each kind uses (R265). -/
def nodeArg3 : Nat → Nat
  | 3 => 2 ^ 20 | 8 | 9 => 2 ^ 16 | _ => 2 ^ 64

/-- A node's command (R265). -/
def State.nodeWork (s : State) (g : Graph) (gid i : Nat) : State × NodeWork :=
  let w := s.nodeWord g i 0
  let kind := dfield w 23 20
  let arg (k : Nat) : DWord := s.nodeWord g i (8 + 8 * k)
  let imm := dfield (arg 3) 15 0
  let core := g.core
  let self := (s.cmd g.cmd).getD (s.nodeCmd g gid i (.walker core) (.graph gid) {})
  if dfield w 63 24 ≠ 0 ∨ 9 < kind ∨ 8 < dfield w 19 16 ∨ s.nodeWord g i 0x28 ≠ 0 ∨
      (nodeUnused kind).any (fun k => arg k != 0) ∨ nodeArg3 kind ≤ (arg 3).toNat ∨ (8 ≤ kind ∧ !cfOk imm) then (s, .bad 0x0207)
  else if g.record.isSome ∧ kind ≠ 0 ∧ kind ≠ 1 ∧ kind ≠ 3 then (s, .bad 0x0207)
  else match kind with
    | 0 => (s, .null)
    | 1 => (s, .cmd (.copy core) (prepXfer (arg 0) (arg 1) (arg 2)))
    | 2 => (s, .cmd (.copy core) (s.prepXferMc g.team (arg 0) (arg 1) (arg 2)))
    | 3 =>
      let t := tyOf (dfield (arg 3) 19 16)
      if cfOk imm && (t.bits = 8 || t.bits = 16 || t.bits = 32) then (s, .cmd (.copy core) (prepXferTr t imm (arg 0) (arg 1) (arg 2)))
      else (s, .bad 0x0207)
    | 4 =>
      if (arg 0).toNat % 128 ≠ 0 then (s, .bad 0x0803)
      else match s.engRead self (arg 0) 0x78 with
        | (s, .hold v) => (s, .page v)
        | (s, .bad f) => (s, .bad f.code)
        | (s, .ok (bs, p)) => if p then (s, .bad 0x0F01) else (s, .cmd (.matrix core) (s.prepMx g.team bs (arg 0)))
    | 5 => (s, .cmd (.matrix core) (s.prepAccZero g.team (arg 0)))
    | 6 => (s, .cmd (.matrix core) (s.prepDrain g.team false (arg 0) (arg 1)))
    | 7 => (s, .cmd (.matrix core) (s.prepDrain g.team true (arg 0) (arg 1)))
    | 8 => let (e, p) := s.prepSfRun g.team imm (arg 0) (arg 1); (s, .cmd e p)
    | _ =>
      let va := arg 0
      let v := arg 1
      let n := dfield v 13 4
      if dfield v 63 14 ≠ 0 ∨ n = 0 then (s, .bad 0x0207)
      else if s.plat.fsStack.contains (dfield v 3 0) then (s, .bad 0x0F05)
      else if va.toNat % 64 ≠ 0 then (s, .bad 0x0C02)
      else match s.engRead self va (64 * n) with
        | (s, .hold p) => (s, .page p)
        | (s, .bad f) => (s, .bad f.code)
        | (s, .ok (bs, p)) =>
          if p then (s, .bad 0x0F01)
          else match searchRecords bs n with
            | some rs => (s, .block (dfield v 3 0) rs (cfOf imm))
            | none => (s, .bad 0x0C02)

/-- A graph's node taken from those ready. -/
def State.takeNode (s : State) (gid i : Nat) (runs : Bool) : State :=
  { s with graphs := s.graphs.upd gid (fun g => { g with ready := g.ready.filter (fun r => r.2 != i),
                                                         running := if runs then g.running ++ [i] else g.running }) }

/-- A node that fails its check finishes without running and writes an error record (R266). -/
def State.failNode (s : State) (g : Graph) (gid i code : Nat) : State :=
  let c := s.nodeCmd g gid i (.walker g.core) (.graph gid) {}
  ((s.takeNode gid i false).nodeFinished gid i).endRecord c code (g.addr + dw (64 * i)) false 1 g.core 0 0

/-- A record graph's node may not arrive, and there are no guard slots to guard it (R320). -/
def Graph.cfAllowed (g : Graph) (cf : CompField) : Bool := g.record.isNone || (cf.arrive.isNone && cf.guard.isNone)

/-- One ready node issued, as its instruction would be; a full queue makes the walker wait. -/
def State.issueNode (s : State) (g : Graph) (gid i : Nat) : State :=
  match s.nodeWork g gid i with
  | (s, .null) => (s.takeNode gid i false).nodeFinished gid i
  | (s, .bad code) => s.failNode g gid i code
  | (s, .page va) => s.due [.commandHold g.cmd (dw va)]
  | (s, .cmd e (.fail f)) => let _ := e; s.failNode g gid i f.code
  | (s, .cmd _ (.page va)) => s.due [.commandHold g.cmd (dw va)]
  | (s, .cmd e (.ok op cf)) =>
    let c := s.nodeCmd g gid i e op cf
    if !g.cfAllowed cf then s.failNode g gid i 0x0207
    else match s.cmdRefused c with
      | some f => s.failNode g gid i f.code
      | none => if s.hasRoom e then (s.takeNode gid i true).enqueue c else s
  | (s, .block k rs cf) =>
    let c := s.nodeCmd g gid i (.search k) (s.blockOp k rs) cf
    match s.blockFail c with
    | some f => s.failNode g gid i f.code
    | none => if s.hasRoom (.search k) then (s.takeNode gid i true).queueBlock k c rs else s

/-- A graph starts when its guard allows it, with every node whose count is 0 issuable (R242, R266); by its guard it may
be discarded. -/
def State.startGraph (s : State) (gid : Nat) (g : Graph) : State :=
  match s.cmd g.cmd with
  | none => s
  | some c =>
    match s.guardOf c with
    | none => s
    | some false => { (s.retireCmd c) with graphs := s.graphs.del gid }
    | some true =>
      let ready := ((List.range g.n).filter (fun i => s.nodeCount g i = 0)).map (fun i => (s.now, i))
      { s with graphs := s.graphs.upd gid (fun g => { g with started := true, ready }) }

/-- Whether one issuable node comes before another (R321): the earlier clk, the lower graph slot, the lower index. -/
def nodeBefore (a b : Nat × Nat × Nat) : Bool :=
  a.1 < b.1 || (a.1 == b.1 && (a.2.1 < b.2.1 || (a.2.1 == b.2.1 && a.2.2 < b.2.2)))

/-- The next node of a core's walker: its place in R321's order, with its graph. -/
def State.nextNode (s : State) (core : Nat) : Option ((Nat × Nat × Nat) × Nat × Graph) :=
  let held (g : Graph) : Bool := (s.cmd g.cmd).any (·.waitReplay)
  ((s.graphsOn core).filter (fun g => !held g.2)).foldl (fun best g =>
    g.2.ready.foldl (fun (best : Option ((Nat × Nat × Nat) × Nat × Graph)) r =>
      let x : Nat × Nat × Nat := (r.1, g.2.slot, r.2)
      match best with
      | some b => if nodeBefore x b.1 then some (x, g.1, g.2) else some b
      | none => some (x, g.1, g.2)) best) none

/-- GRAPH_NODE_ISSUE: the walker of a core starts the graphs whose guards allow it and issues at most one node (R321); a
graph whose team has exited goes once its last command has (R266). -/
def execGraphNodeIssue (core : Nat) (s : State) : Host.Outcome State Fault Refusal :=
  let gone := (s.graphsOn core).filter (fun g => g.2.dead && g.2.running.isEmpty)
  let s := gone.foldl (fun (s : State) g => { (s.dropCmd g.2.cmd) with graphs := s.graphs.del g.1 }) s
  let s := ((s.graphsOn core).filter (fun g => !g.2.started && !g.2.dead)).foldl (fun (s : State) g => s.startGraph g.1 g.2) s
  match s.nextNode core with
  | some (x, gid, g) => .next (s.issueNode g gid x.2.2)
  | none => .next s

end Sys2Proof.Machine
end

