-- ==== Sys2Proof/Machine/Front.lean ====
section
/-!
DEFINITION. The launch front end: records read and checked (R306 to R312, R488, R489), extents translated (R105, R458),
heads chosen (R313, R314), and the records that place no team: wait-on-value, signal, graph (R319, R320).
-/
namespace Sys2Proof.Machine

/-! ### Reads and writes of the front end -/

/-- One access of the front end within a line: a walk of the record's own table, no TLB (R100, R105), at the level the
record asks for. -/
def State.frontLine (s : State) (g : Grid) (kind : AccKind) (va : DWord) (n : Nat) : State × Option Target :=
  let a : Access := { core := 255, team := (255, 16), unit := .die 0, asid := g.asid, root := g.root, grid := none, user := !g.sup,
                      kind, va, size := n, align := 1 }
  if !canonical va || (a.user && dbit va 56) then (s, none)
  else match s.walkTable g.asid g.root va.toNat with
    | (s, .leaf e log) =>
      match s.vetted a e 0 (pteAddr e + va.toNat % 2 ^ log) false with
      | .ok t =>
        if s.fencedLoc t.loc || (isHbm t.loc && (s.mem.keys.find t.key).isNone) ||
            (isRemote t.loc && s.dom.lost.contains (remoteDev t.loc)) || (kind == .load && s.mem.poisoned t.loc n) then (s, none)
        else (s, some t)
      | _ => (s, none)
    | (s, _) => (s, none)

/-- Bytes read at their homes, line by line (R306). -/
def State.frontReadGo (s : State) (g : Grid) (va : DWord) (n : Nat) : Nat → State × Option (List Byte)
  | 0 => (s, some [])
  | fuel + 1 =>
    if n = 0 then (s, some []) else
    let k := Nat.min n (64 - va.toNat % 64)
    match s.frontLine g .load va k with
    | (s, none) => (s, none)
    | (s, some t) =>
      let (s, bs) := if isRemote t.loc then s.freeBytes k else (s.arrived, s.mem.read t.key t.loc k)
      match s.frontReadGo g (va + dw k) (n - k) fuel with
      | (s, some rest) => (s, some (bs ++ rest))
      | r => r

def State.frontRead (s : State) (g : Grid) (va : DWord) (n : Nat) : State × Option (List Byte) :=
  s.frontReadGo g va n (n / 64 + 2)

/-- A store of the front end released at dom scope (R78, R311, R319): performed at its home; one whose page cannot be
written is lost. -/
def State.frontStore (s : State) (g : Grid) (va : DWord) (bs : List Byte) : State :=
  match s.frontLine g .store va bs.length with
  | (s, some t) => s.write {} t.key t.loc bs
  | (s, none) => s

/-- What a read of a ring slot gives. -/
inductive RingRead where
  | ok (bs : List Byte)
  | down
  | bad

/-- Bytes of a ring in device memory, slot by slot: a slot of 64 B lies in one 4 KiB granule, and a ring may pass granules in
either view (R67). -/
def State.ringBytes (s : State) (addr : DWord) : Nat → Option (List Byte)
  | 0 => some []
  | n + 1 => match s.loc addr.toNat, s.ringBytes (addr + 64) n with
    | some l, some rest =>
      if !(isHbm l || isTile l) || s.fencedLoc l || s.mem.poisoned l 64 || (isHbm l && (s.mem.keys.find s.plat.hkSlot).isNone) then none
      else some (s.mem.read s.plat.hkSlot l 64 ++ rest)
    | _, _ => none

/-- A read in a ring (R306, R371): host memory gives what the host holds there, or a failed read (R488; log entry 21);
device memory is read at its home. -/
def State.ringRead (s : State) (r : LaunchQueue) (unit n : Nat) : State × RingRead :=
  if dbit r.base 63 then
    if !s.plat.linkUp then (s, .down)
    else
      let (s, bs) := s.freeBytes (n + 1)
      (s, if (bs.headD 0).getLsbD 0 then .bad else .ok (bs.drop 1))
  else match s.ringBytes (r.slotAddr unit) (n / 64) with
    | none => (s, .bad)
    | some bs => (s.arrived, .ok bs)

/-! ### Checks of R310 -/

/-- Fields of a record that are reserved for its kind and must be zero (R308, R309). -/
def recReserved (kind : Nat) (w : Nat → DWord) : Bool :=
  let later (a : Nat) : Bool := (List.range (16 - a)).any (fun i => w (a + i) != 0)
  dfield (w 0) 31 18 != 0 || dfield (w 0) 15 12 != 0 || dfield (w 0) 7 4 != 0 ||
  (if kind ≤ 2 then dfield (w 2) 31 21 != 0 || (dfield (w 2) 20 16 == 0 && w 4 != 0)
   else
     dfield (w 0) 17 16 != 0 ||
     (if kind = 3 then dfield (w 2) 31 16 != 0 || dfield (w 4) 63 8 != 0 || later 6
      else dfield (w 2) 63 16 != 0 || (if kind = 4 then dfield (w 6) 63 2 != 0 || later 7 else later 5)))

/-- Fields of a record outside their ranges (R308, R309). -/
def recRange (kind : Nat) (w : Nat → DWord) : Bool :=
  (w 3).toNat % 4096 != 0 ||
  (if kind ≤ 2 then
     let n := dfield (w 2) 63 32
     dfield (w 0) 17 16 == 3 || (w 1).toNat % 256 != 0 || decide (16 < dfield (w 2) 20 16) || (w 4).toNat % 64 != 0 ||
     (w 5).toNat % 16 != 0 || (if kind = 1 then n == 0 || decide (2 ^ 31 < n) else decide (n < 2) || decide (8 < n))
   else if kind = 3 then
     (w 1).toNat % 64 != 0 || dfield (w 2) 63 32 == 0 || decide (4096 < dfield (w 2) 63 32) || decide (192 ≤ dfield (w 4) 7 0) ||
     (w 5).toNat % 16 != 0
   else (w 1).toNat % 8 != 0)

def recKindOf (n : Nat) : RecKind :=
  if n = 1 then .grid else if n = 2 then .gang else if n = 3 then .graph else if n = 4 then .waitOn else .signal

/-- A record's fields read into a grid, or the reason it is malformed (R308 to R310, R488). `g0` holds what comes from the
queue or the parent; a grid's kernel descriptor stands in `addr`, its extent list in `value` with its length in `nodes`
until they are read. A child has no address space of its own and no kind but 1 and 2. -/
def parseRecord (bs : List Byte) (child supOk : Bool) (g0 : Grid) : Except Nat Grid :=
  let w (i : Nat) : DWord := dwordsOf bs (8 * i)
  let kind := dfield (w 0) 3 0
  if kind = 0 ∨ 5 < kind then .error 8
  else if recReserved kind w ∨ (child ∧ (dfield (w 2) 15 0 ≠ 0 ∨ w 3 ≠ 0)) then .error 1
  else if recRange kind w ∨ (child ∧ 2 < kind) then .error 2
  else if dbit (w 0) 10 ∧ !supOk then .error 7
  else
    let g := { g0 with kind := recKindOf kind, seq := dfield (w 0) 63 32, cls := dfield (w 0) 17 16, fence := dbit (w 0) 11,
                       sup := dbit (w 0) 10, debug := dbit (w 0) 9, irq := dbit (w 0) 8, addr := w 1 }
    let g := if child then g else { g with asid := dfield (w 2) 15 0, root := (w 3).toNat }
    .ok (if kind ≤ 2 then
        { g with teams := dfield (w 2) 63 32, nodes := dfield (w 2) 20 16, value := w 4, doneAddr := w 5,
                 args := (List.range 10).map (fun i => w (6 + i)) }
      else if kind = 3 then { g with nodes := dfield (w 2) 63 32, core := dfield (w 4) 7 0, doneAddr := w 5 }
      else { g with value := w 4, mask := w 5, cond := dfield (w 6) 1 0 })

/-- Why a kernel descriptor makes its record malformed (R310, R312). -/
def kernelBad (g : Grid) (kd : List Byte) : Option Nat :=
  let w (i : Nat) : DWord := dwordsOf kd (8 * i)
  let regs := dfield (w 1) 23 16
  let threads := dfield (w 1) 10 0
  if dfield (w 1) 63 52 ≠ 0 ∨ dfield (w 1) 15 13 ≠ 0 ∨ dfield (w 2) 31 16 ≠ 0 ∨ (kd.drop 0x20).any (· != 0) then some 1
  else if 512 < dfield (w 1) 33 24 ∨ regs < 32 ∨ 128 < regs ∨ regs % 8 ≠ 0 ∨ threads = 0 ∨ 1024 < threads ∨ 112 < dfield (w 2) 15 0 ∨
      Config.sliceBytes < 64 * dfield (w 1) 51 34 then some 2
  else if g.cls ≠ dfield (w 1) 12 11 then some 4
  else none

/-- Why an entry of a declaration list makes its record malformed (R310, R312). -/
def declBad (gang : Bool) (d : DWord × DWord) : Option Nat :=
  let kind := dfield d.1 1 0
  let v := d.2
  if dfield d.1 63 13 ≠ 0 ∨ dfield d.1 7 2 ≠ 0 ∨ (kind ≠ 2 ∧ dfield d.1 12 8 ≠ 0) ∨ (kind = 0 ∧ dfield v 63 44 ≠ 0) ∨
      (kind = 1 ∧ (dfield v 7 4 ≠ 0 ∨ dfield v 15 10 ≠ 0)) ∨
      (kind = 2 ∧ (dfield v 61 37 ≠ 0 ∨ dbit v 23 ∨ dfield v 5 0 ≠ 0)) then some 1
  else if kind = 3 ∨ (kind = 0 ∧ (dfield v 37 36 = 3 ∨ 131072 < dfield v 35 18)) ∨
      (kind = 1 ∧ (dfield v 9 8 = 3 ∨ dfield v 31 16 = 0 ∨ (!gang ∧ dfield v 9 8 = 1))) ∨
      (kind = 2 ∧ (2 ≤ dfield v 63 62 ∨ (!gang ∧ dfield v 63 62 = 1) ∨ dfield v 36 24 = 0 ∨ 4096 < dfield v 36 24)) then some 2
  else none

def pairsOf (bs : List Byte) (n : Nat) : List (DWord × DWord) :=
  (List.range n).map (fun i => (dwordsOf bs (16 * i), dwordsOf bs (16 * i + 8)))

/-- Why an extent list makes its record malformed (R104, R309, R310). -/
def extentsBad (ext : Nat) (l : List (DWord × DWord)) : Option Nat :=
  let len (p : DWord × DWord) : Nat := dfield p.2 47 0
  let clash (p q : DWord × DWord) : Bool := overlaps p.1.toNat (len p) q.1.toNat (len q)
  let rec disjoint : List (DWord × DWord) → Bool
    | [] => true
    | p :: ps => ps.all (fun q => !clash p q) && disjoint ps
  if l.any (fun p => dfield p.2 63 49 != 0) then some 1
  else if l.any (fun p => p.1.toNat % 65536 != 0 || len p % 65536 != 0 || len p == 0) || !disjoint l then some 3
  else if (List.range 16).any (fun i => ext.testBit i && (match l[i]? with
      | some p => dbit p.2 48 != ext.testBit (16 + i)
      | none => true)) then some 5
  else none

/-- What the front end finds of a record and of what it names. -/
inductive Checked where
  | ok (g : Grid)
  | bad (reason : Nat)
  | unreadable

/-- The kernel descriptor, the declaration list and the extent list read and checked (R310, R312, R313). -/
def State.frontCheck (s : State) (g : Grid) : State × Checked :=
  if g.kind ≠ .grid ∧ g.kind ≠ .gang then (s, .ok g) else
  match s.frontRead g g.addr 256 with
  | (s, none) => (s, .unreadable)
  | (s, some kd) =>
    let w (i : Nat) : DWord := dwordsOf kd (8 * i)
    match kernelBad g kd with
    | some r => (s, .bad r)
    | none =>
      let nd := dfield (w 2) 15 0
      match s.frontRead g (g.addr + w 3) (16 * nd) with
      | (s, none) => (s, .unreadable)
      | (s, some db) =>
        let decls := pairsOf db nd
        match decls.findSome? (declBad (g.kind == .gang)) with
        | some r => (s, .bad r)
        | none =>
          match s.frontRead g g.value (16 * g.nodes) with
          | (s, none) => (s, .unreadable)
          | (s, some eb) =>
            let es := pairsOf eb g.nodes
            let ext := dfield (w 2) 63 32
            match extentsBad ext es with
            | some r => (s, .bad r)
            | none =>
              let k : Kernel := { entry := g.addr + w 0, tile := 64 * dfield (w 1) 51 34, acc := dfield (w 1) 33 24,
                                  regs := dfield (w 1) 23 16, threads := dfield (w 1) 10 0, ext, decls }
              (s, .ok { g with kernel := some k, extents := es.zipIdx.map (fun p =>
                (p.2, { base := p.1.1.toNat, len := dfield p.1.2 47 0, write := dbit p.1.2 48 })) })

/-! ### Completion (R307, R311, R372) -/

/-- `lq.done` moves past the completed records at its front (R372); a pending disable may then take effect (R490). -/
def State.advanceGo (s : State) (q : Nat) : Nat → State
  | 0 => s
  | fuel + 1 =>
    match (s.queue q).live with
    | [] => s
    | g :: gs =>
      if (s.grid g).all (fun x => x.state = .completed) then
        let s := s.setFront { s.front with grids := s.front.grids.del g }
        State.advanceGo (s.modQueue q (fun r => { r with live := gs, done := (r.done + 2) % Nat.max r.size 1 })) q fuel
      else s

def State.advanceDone (s : State) (q : Nat) : State :=
  let s := s.advanceGo q (s.queue q).live.length
  if (s.queue q).disabling then s.due [.lqDisableEffect (Fin.ofNat 64 q)] else s

/-- A record completed: its completion record, its interrupt, the end of waits on it, its place in its queue (R92, R307,
R311, R372, R373). A child whose parent's team has retired leaves no trace; a stopped device completes nothing (R418). -/
def State.complete (s : State) (g status : Nat) : State :=
  match if s.plat.stopped then none else s.grid g with
  | none => s
  | some x =>
    let s := if x.doneAddr = 0 then s
      else s.frontStore x x.doneAddr (bytesOf 8 (x.seq * 2 ^ 32 + status) ++ bytesOf 8 s.now)
    let s := if x.irq then s.interrupt x.queue else s
    let s := s.modGrid g (fun x => { x with state := .completed, status })
    let s := (s.threads.filter (fun p => p.2.state = .blocked (.child g))).foldl (fun (s : State) p => s.ready p.1) s
    match x.parentGrid with
    | none => s.advanceDone x.queue
    | some pg =>
      let s := if x.parent.isNone then s.setFront { s.front with grids := s.front.grids.del g } else s
      s.due [.gridRetire pg]

/-- A record admitted: its place in the order of admission; its queue's head moves past it (R307, R371). -/
def State.leaveQueue (s : State) (g : Nat) : State :=
  match s.grid g with
  | none => s
  | some x =>
    let n := s.front.admitCount
    let s := s.setFront { s.front with admitCount := n + 1 }
    let s := s.modGrid g (fun x => { x with state := .admitted, admitted := n, pendAt := none })
    if x.parentGrid.isSome then s
    else s.modQueue x.queue (fun r => { r with head := (r.head + 2) % Nat.max r.size 1, live := r.live ++ [g] })

/-- A launch refused or ended before any of its teams is placed: a record, its completion record with the code, and the
queue goes on (R311, R445, R458). -/
def State.refuse (s : State) (g code kind : Nat) (addr info0 info1 : DWord) : State :=
  match s.grid g with
  | none => s
  | some x =>
    let s := s.record { code, sev := 3, kind, index := x.queue, asid := x.asid, tag := x.seq, addr, info0, info1 }
    (s.leaveQueue g).complete g code

/-! ### Heads (R306, R307, R313, R371, R489, R492) -/

/-- Ring units between a queue's head and its tail. -/
def LaunchQueue.ahead (r : LaunchQueue) : Nat := (r.tail + r.size - r.head) % Nat.max r.size 1

/-- A queue with a record not yet read, both its units before the tail, which may be read now. -/
def State.unread (s : State) (q : Nat) : Bool :=
  let r := s.queue q
  r.en && !r.stop && !r.disabling && decide (2 ≤ r.ahead) &&
    !s.front.grids.any (fun g => g.2.waiting && g.2.parentGrid.isNone && g.2.queue == q)

/-- A new record in the front end. -/
def State.addGrid (s : State) (g : Grid) : State :=
  s.setFront { s.front with grids := s.front.grids.put s.front.nextGrid g, nextGrid := s.front.nextGrid + 1 }

/-- A queue with `lq.host` stops at a read while the link is down; 0x0E04 was recorded when it went down (R492). -/
def State.stopDown (s : State) (q : Nat) : State := s.modQueue q (fun r => { r with stop := true, code := 0x0E04 })

/-- The head of a queue read and checked, or the queue stopped (R306, R310, R488, R489). -/
def State.readHead (s : State) (q : Nat) : State :=
  let r := s.queue q
  let addr := r.slotAddr r.head
  let straddles := decide (r.size < r.head + 2)
  match s.ringRead r r.head (if straddles then 64 else 128) with
  | (s, .down) => s.stopDown q
  | (s, .bad) => s.stopQueue q 0x0E03 addr 0 0
  | (s, .ok bs) =>
    let w0 := dwordsOf bs 0
    if straddles then s.stopQueue q 0x0E01 addr 6 w0
    else match parseRecord bs false r.priv { kind := .grid, queue := q, prio := r.prio, unit := r.head, seq := 0 } with
      | .error reason => s.stopQueue q 0x0E01 addr (dw reason) w0
      | .ok g => match s.frontCheck g with
        | (s, .bad reason) => s.stopQueue q 0x0E01 addr (dw reason) w0
        | (s, .unreadable) => s.stopQueue q 0x0E03 addr 0 w0
        | (s, .ok g) => s.addGrid g

/-- Whether a head's queue may still allow it; a child's parent has no queue to stop. -/
def State.headOpen (s : State) (g : Grid) : Bool :=
  g.parentGrid.isSome || (let r := s.queue g.queue; r.en && !r.stop && !r.disabling)

/-- Whether every earlier record of the queue has completed, where the record asks for it (R307, R313). -/
def State.fenceOpen (s : State) (g : Grid) : Bool :=
  !(g.fence || g.kind == .signal) || g.parentGrid.isSome ||
    (s.queue g.queue).live.all (fun x => (s.grid x).all (fun y => y.state = .completed))

/-- Heads whose translation may start (R313 steps 3 and 4). -/
def State.toTranslate (s : State) : List (Nat × Grid) :=
  s.front.grids.filter (fun g => g.2.state = .checked && s.headOpen g.2 && s.fenceOpen g.2)

/-! ### Extents (R105, R458) -/

/-- What a walk over an extent's pages has found so far: `over` is where a 65th run of a mapped extent would begin, and counts
only where no page is invalid (R105, R458). -/
structure Scan where
  runs : List ExtRun := []
  invalid : List Nat := []
  excess : Option (Nat × DWord × DWord × DWord) := none
  err : Option (Nat × DWord × DWord × DWord) := none

/-- The attributes and key slot of a leaf, without its frame (R97, R105). -/
def leafAttr (e : DWord) : DWord := e &&& ~~~(0x000FFFFFFFFFFF00#64)

/-- A page added to the runs: it goes on from the last run, or begins a new one, the 65th of which is noted (R105). -/
def Scan.add (x : Scan) (slot : Nat) (e : Extent) (va n pa : Nat) (leaf : DWord) (level : Nat) : Scan :=
  let fresh : ExtRun := { va, bytes := n, pa, leaf, level }
  match x.runs.getLast? with
  | some r =>
    if r.va + r.bytes = va ∧ r.pa + r.bytes = pa ∧ leafAttr r.leaf = leafAttr leaf then
      { x with runs := x.runs.dropLast ++ [{ r with bytes := r.bytes + n }] }
    else if 64 ≤ x.runs.length then { x with excess := x.excess.or (some (0x0707, dw e.base, dw slot, dw (va - e.base))) }
    else { x with runs := x.runs ++ [fresh] }
  | none => { x with runs := [fresh] }

/-- The pages of an extent walked from va on; 33 invalid granules fill a batch (R105, R110). -/
def State.scanExtent (s : State) (g : Grid) (slot : Nat) (e : Extent) (va : Nat) (x : Scan) : Nat → State × Scan
  | 0 => (s, x)
  | fuel + 1 =>
    if e.base + e.len ≤ va ∨ 33 ≤ x.invalid.length ∨ x.err.isSome then (s, x) else
    let num : DWord := dw AccKind.walk.num
    match s.walkTable g.asid g.root va with
    | (s, .leaf l log) =>
      let next := Nat.min ((va / 2 ^ log + 1) * 2 ^ log) (e.base + e.len)
      if (e.write && !pteWrite l) || (!g.sup && !pteUser l) then (s, { x with err := some (0x0704, dw va, num + dw (16 * leafLevel log), l) })
      else s.scanExtent g slot e next (x.add slot e va (next - va) (pteAddr l + va % 2 ^ log) l (leafLevel log)) fuel
    | (s, .invalid) => s.scanExtent g slot e (va + 65536) { x with invalid := x.invalid ++ [va] } fuel
    | (s, .malformed lv l) => (s, { x with err := some (0x0703, dw va, num + dw (16 * lv), l) })
    | (s, .unreadable lv) => (s, { x with err := some (0x0706, dw va, num + dw (16 * lv), 0) })

/-- Every extent of a launch in slot order; the first failure ends the walk. -/
def State.scanAll (s : State) (g : Grid) (z : Scan) : List (Nat × Extent) → State × Scan × List (Nat × Extent)
  | [] => (s, z, [])
  | (i, e) :: es =>
    let (s, x) := s.scanExtent g i e e.base { z with runs := [] } (e.len / 65536 + 1)
    if x.err.isSome then (s, x, [])
    else
      let (s, y, rest) := s.scanAll g x es
      (s, y, (i, { e with runs := x.runs }) :: rest)

/-- The ranges that a record's translation walks: a launch's extents, or the array that a graph record names (R320). -/
def Grid.ranges (g : Grid) : List (Nat × Extent) :=
  if g.kind = .graph then
    let lo := g.addr.toNat / 65536 * 65536
    [(0, { base := lo, len := alignUp 65536 (g.addr.toNat + 64 * g.nodes) - lo, write := false })]
  else g.extents

/-- EXTENT_TRANSLATION: the extent table built, the launch ended, or the launch held with one batch until `replay` (R105,
R113, R458). A launch with an invalid page is held before its runs are counted. -/
def execExtentTranslation (g : Nat) (s : State) : Host.Outcome State Fault Refusal :=
  match s.grid g with
  | none => .next s
  | some x =>
    if !(x.state = .checked || (x.state = .held && x.retry)) then .next s
    else
      let (s, r, es) := s.scanAll x {} x.ranges
      match r.err.or (if r.invalid.isEmpty then r.excess else none) with
      | some (code, addr, i0, i1) => .next (s.refuse g code 11 addr i0 i1)
      | none =>
        if r.invalid.isEmpty then
          .next (s.modGrid g (fun y => { y with state := .translated, extents := if y.kind = .graph then [] else es }))
        else
          let s := s.modGrid g (fun y => { y with state := .held, retry := false })
          .next (s.batch { code := if x.retried then 0x0702 else 0x0701, core := 255, asid := x.asid, pc := 0,
                           granules := (r.invalid.foldl (fun l p => addGranule l p false false) []).take 33,
                           refault := 0, team := none, tag := x.seq, kind := 11, index := x.queue, access := AccKind.walk.num,
                           addr := dw (r.invalid.headD 0) })

/-! ### Wait-on-value and signal records (R319) -/

/-- The condition of a wait-on-value record on a value read. -/
def waitHolds (cond : Nat) (v value : DWord) : Bool :=
  match cond with
  | 0 => v == value
  | 1 => v != value
  | 2 => !v.ult value
  | _ => v.ult value

/-- The location read once more; a location that cannot be read holds nothing. -/
def State.pollWait (s : State) (g : Nat) (x : Grid) : State :=
  match s.frontRead x x.addr 8 with
  | (s, some bs) =>
    let s := s.modGrid g (fun x => { x with lastPoll := s.now })
    if waitHolds x.cond (dwordsOf bs 0 &&& x.mask) x.value then s.complete g 0 else s
  | (s, none) => s.modGrid g (fun x => { x with lastPoll := s.now })

/-- WAIT_ON_VALUE: the record is admitted and its location read (R319). -/
def execWaitOnValue (g : Nat) (s : State) : Host.Outcome State Fault Refusal :=
  match s.grid g with
  | some x => if x.state = .translated then .next ((s.leaveQueue g).pollWait g x) else .next s
  | none => .next s

/-- WAIT_ON_VALUE_POLL: the location read again, at a doorbell or 256 clk after the last read (R319). -/
def execWaitOnValuePoll (g : Nat) (s : State) : Host.Outcome State Fault Refusal :=
  match s.grid g with
  | some x => if x.kind = .waitOn ∧ x.state = .admitted then .next (s.pollWait g x) else .next s
  | none => .next s

/-- SIGNAL_RECORD: `lr.value` stored at `lr.addr`, released at dom scope (R319). -/
def execSignalRecord (g : Nat) (s : State) : Host.Outcome State Fault Refusal :=
  match s.grid g with
  | some x => if x.state = .translated then .next (((s.leaveQueue g).frontStore x x.addr (bytesOf 8 x.value.toNat)).complete g 0) else .next s
  | none => .next s

/-! ### Graph records (R320) -/

/-- GRAPH_RECORD: the array is read, and its walker runs it in the record's address space with counts of its own (R320); a
fenced core runs nothing (R414). -/
def execGraphRecord (g : Nat) (s : State) : Host.Outcome State Fault Refusal :=
  match s.grid g with
  | none => .next s
  | some x =>
    if x.state ≠ .translated then .next s
    else if (s.core x.core).fenced then .next (s.refuse g 0x0F04 10 x.addr 0 0)
    else match s.frontRead x x.addr (64 * x.nodes) with
      | (s, none) => .next (s.refuse g 0x0F01 10 x.addr 0 0)
      | (s, some bs) =>
        let s := s.leaveQueue g
        let gid := s.sys.nextCmd
        let counts := (List.range x.nodes).map (fun i => dfield (dwordsOf bs (64 * i)) 15 0)
        let gr : Graph := { core := x.core, team := (x.core, 16), addr := x.addr, loc := 0, n := x.nodes, slot := s.graphSlot x.core,
                            ready := [], cmd := gid, record := some g, image := bs, counts }
        let c : Cmd := { id := gid, engine := .walker x.core, team := (x.core, 16), tag := x.seq, asid := x.asid, grid := g,
                         op := .graph gid, left := true }
        .next { (s.enqueue c) with graphs := s.graphs.put gid gr }

/-! ### Doorbells and enables (R371, R490) -/

/-- LQ_TAIL_DOORBELL (R371). -/
def execLqTailDoorbell (q : Fin 64) (v : BitVec 17) (s : State) : Host.Outcome State Fault Refusal := .next (s.doorbell q.val v.toNat)
/-- LQ_ENABLE (R371). -/
def execLqEnable (q : Fin 64) (s : State) : Host.Outcome State Fault Refusal := .next (s.enableQueue q.val)
/-- LQ_DISABLE (R490). -/
def execLqDisable (q : Fin 64) (s : State) : Host.Outcome State Fault Refusal := .next (s.disableQueue q.val)
/-- LQ_DISABLE_EFFECT (R490). -/
def execLqDisableEffect (q : Fin 64) (s : State) : Host.Outcome State Fault Refusal := .next (s.disableEffect q.val)

end Sys2Proof.Machine
end

