-- ==== Sys2Proof/Machine/Place.lean ====
section
/-!
DEFINITION. Admission and placement (R47, R48, R314 to R318), the retirement of teams and grids (R50, R436, R447), and
`launch` (R208).
-/
namespace Sys2Proof.Machine

/-! ### Room on the cores (R47, R257, R316) -/

/-- What a core has left for teams: free residency slots, ranges taken, thread slots, registers and contexts left. -/
structure Room where
  core : Nat
  slots : List Nat
  tiles : List (Nat × Nat)
  accs : List (Nat × Nat)
  threads : Nat
  regs : Nat
  ctxs : Nat
  teams : Nat
deriving DecidableEq, Repr

/-- Where a team goes: its core, its slot, its first tile byte, its first bank. -/
structure Spot where
  core : Nat
  slot : Nat
  tile : Nat
  acc : Nat
deriving DecidableEq, Repr

def emptyRoom (c : Nat) : Room :=
  { core := c, slots := List.range 16, tiles := [], accs := [], threads := 4096, regs := Config.poolRegs, ctxs := Config.contexts, teams := 0 }

/-- A saved team keeps its slot and its tile range; the rest of a team's reservation, the slots of its exited threads among it,
is its own while it is resident (R50, R301; log entry 76). -/
def State.roomOf (s : State) (c : Nat) : Room :=
  let ts := s.teams.filter (fun t => t.1.1 = c)
  let live := ts.filter (fun t => !t.2.saved)
  { core := c, slots := (List.range 16).filter (fun n => !ts.any (fun t => t.1.2 = n)),
    tiles := ts.map (fun t => (t.2.tileBase, t.2.tileSize)), accs := live.map (fun t => (t.2.accBase, t.2.accCount)),
    threads := 4096 - sumOf (live.map (fun t => t.2.size)), regs := (s.core c).free, ctxs := (s.freeContexts c).length,
    teams := live.length }

/-- The unfenced cores (R414 step 3). -/
def State.usable (s : State) : List Nat := (List.range Config.cores).filter (fun c => !(s.core c).fenced)

def State.rooms (s : State) : List Room := s.usable.map s.roomOf

/-- The lowest offset at which a range of n fits below a cap beside those taken. -/
def lowestFit (taken : List (Nat × Nat)) (n cap : Nat) : Option Nat :=
  if n = 0 then some 0 else
  match (0 :: taken.map (fun r => r.1 + r.2)).filter (fun o => o + n ≤ cap && taken.all (fun r => !overlaps o n r.1 r.2)) with
  | [] => none
  | l => some (leastOf l)

def skeinsOf (threads : Nat) : Nat := (threads + 31) / 32

/-- Registers reserved at placement: none in class W (R47). -/
def Kernel.reserved (k : Kernel) (cls : Nat) : Nat := if cls = 2 then 0 else k.threads * k.regs

/-- The place a team of a kernel would take on a core (R316). -/
def Room.fit (r : Room) (k : Kernel) (cls : Nat) : Option Spot :=
  match r.slots, lowestFit r.tiles k.tile Config.sliceBytes, lowestFit r.accs k.acc 512 with
  | n :: _, some t, some a =>
    if k.threads ≤ r.threads && k.reserved cls ≤ r.regs && skeinsOf k.threads ≤ r.ctxs then
      some { core := r.core, slot := n, tile := t, acc := a } else none
  | _, _, _ => none

/-- A core's room with one more team of the kernel. -/
def Room.take (r : Room) (k : Kernel) (cls : Nat) (p : Spot) : Room :=
  { r with slots := r.slots.filter (· != p.slot), tiles := (p.tile, k.tile) :: r.tiles, accs := (p.acc, k.acc) :: r.accs,
           threads := r.threads - k.threads, regs := r.regs - k.reserved cls, ctxs := r.ctxs - skeinsOf k.threads,
           teams := r.teams + 1 }

/-- The core that takes a team: the fewest resident teams, the lowest number on a tie (R316). -/
def chooseSpot (rs : List Room) (k : Kernel) (cls : Nat) : Option Spot :=
  (rs.foldl (fun (best : Option (Nat × Spot)) r =>
    match r.fit k cls with
    | none => best
    | some p => match best with
      | some (n, q) => if r.teams < n then some (r.teams, p) else some (n, q)
      | none => some (r.teams, p)) none).map (·.2)

/-- Teams placed one after the other, each against the room the earlier ones left (R316): none where one has none. -/
def planGrid (k : Kernel) (cls : Nat) : Nat → List Room → Option (List Spot)
  | 0, _ => some []
  | n + 1, rs =>
    match chooseSpot rs k cls with
    | none => none
    | some p =>
      (planGrid k cls n (rs.map (fun r => if r.core = p.core then r.take k cls p else r))).map (fun l => p :: l)

/-- A gang's cluster: the most cores able to take a team, the lowest number on a tie; its teams go to the lowest of those
cores in order (R317). -/
def planGang (k : Kernel) (cls teams : Nat) (rs : List Room) : Option (List Spot) :=
  let able (c : Nat) : List Spot := (rs.filter (fun r => r.core / 8 = c)).filterMap (fun r => r.fit k cls)
  let best := (List.range 24).foldl (fun b c => if (able b).length < (able c).length then c else b) 0
  if teams ≤ (able best).length then some ((able best).take teams) else none

/-- The most teams the device could hold: 16 on each core (R44). -/
def maxTeams : Nat := 16 * Config.cores

/-- Where the teams of a C grid or a gang would stand (R315). -/
def Grid.plan (g : Grid) (rs : List Room) : Option (List Spot) :=
  match g.kernel with
  | none => none
  | some k =>
    if maxTeams < g.teams then none
    else if g.kind = .gang then planGang k g.cls g.teams rs else planGrid k g.cls g.teams rs

/-! ### Choice among the heads (R314, R315) -/

/-- Whether a record is admitted with all its teams at once (R315). -/
def Grid.atOnce (g : Grid) : Bool := g.kind == .gang || (g.kind == .grid && g.cls == 0)

def Grid.isLaunch (g : Grid) : Bool := g.kind == .gang || g.kind == .grid

/-- Whether a C grid or gang would not fit on the device with no other team resident (R315, R414). -/
def State.hopeless (s : State) (g : Grid) : Bool := g.atOnce && (g.plan (s.usable.map emptyRoom)).isNone

/-- The heads that have been translated and whose queue may allow. -/
def State.heads (s : State) : List (Nat × Grid) :=
  s.front.grids.filter (fun g => g.2.state = .translated && s.headOpen g.2)

/-- The pending record that counts: the earliest of the highest level (R315). -/
def State.pendingHead (s : State) : Option (Nat × Grid) :=
  (s.heads.filter (fun g => g.2.pendAt.isSome)).foldl (fun (best : Option (Nat × Grid)) g =>
    match best with
    | none => some g
    | some b =>
      if b.2.prio < g.2.prio || (b.2.prio == g.2.prio && decide (g.2.pendAt.getD 0 < b.2.pendAt.getD 0)) then some g else some b) none

/-- A head that can be admitted, or refused, at this moment (R314, R315, R320). -/
def State.headReady (s : State) (n : Nat) (g : Grid) : Bool :=
  match g.kind with
  | .waitOn | .signal => true
  | .graph => (s.core g.core).fenced || decide ((s.graphsOn g.core).length < 8)
  | .grid | .gang =>
    s.hopeless g ||
    (!(s.pendingHead).any (fun p => p.1 != n && decide (g.prio ≤ p.2.prio)) && (!g.atOnce || (g.plan s.rooms).isSome))

/-- C grids and gangs at the head of their queue that do not fit become pending (R315). -/
def State.markPending (s : State) : State :=
  (s.heads.filter (fun g => g.2.atOnce && g.2.pendAt.isNone && !s.hopeless g.2 && (g.2.plan s.rooms).isNone)).foldl
    (fun (s : State) g => s.modGrid g.1 (fun x => { x with pendAt := some s.now })) s

/-- A head's place in the round robin of its level: its queue's number, or for a child one past the queues (R208). -/
def rrKey (g : Grid) : Nat := if g.parentGrid.isSome then 64 + g.prio % 8 else g.queue

/-- The ready head of a level whose queue follows the last one admitted, the oldest first where two share a place. -/
def State.nextOf (s : State) (level : Nat) (ready : List (Nat × Grid)) : Option (Nat × Grid) :=
  let last := s.front.rr.getD level 71
  let far (g : Grid) : Nat := (rrKey g + 71 - last) % 72
  (ready.filter (fun g => g.2.prio = level)).foldl (fun (best : Option (Nat × Grid)) g =>
    match best with
    | none => some g
    | some b => if far g.2 < far b.2 then some g else some b) none

/-- The highest number of a list. -/
def highestOf (l : List Nat) : Nat := l.foldl Nat.max 0

/-- The counters of R314 after an admission from a level. -/
def skipAfter (skip : List Nat) (cand : List Nat) (level : Nat) : List Nat :=
  (List.range 8).map (fun m =>
    if cand.contains m && m < level then skip.getD m 0 + 1
    else if !cand.contains m || m == level then 0 else skip.getD m 0)

/-- The level that R314 serves. -/
def levelOf (skip cand : List Nat) : Nat :=
  let late := cand.filter (fun l => 63 ≤ skip.getD l 0)
  highestOf (if late.isEmpty then cand else late)

/-- The step that admits a record of each kind (R315, R319, R320). -/
def admitStep (n : Nat) (g : Grid) : Due :=
  match g.kind with
  | .grid => .gridRecord n
  | .gang => .gangRecord n
  | .graph => .graphRecord n
  | .waitOn => .waitOnValue n
  | .signal => .signalRecord n

/-- Whether 16 clk have gone since the last admission (R314). -/
def State.admitDue (s : State) : Bool := s.front.admitCount == 0 || decide (s.front.lastAdmit + 16 ≤ s.now)

/-- The heads that could be admitted now. -/
def State.readyHeads (s : State) : List (Nat × Grid) := s.heads.filter (fun g => s.headReady g.1 g.2)

/-- One head chosen by R314, and its admission made due. -/
def State.admitOne (s : State) : State :=
  if !s.admitDue then s else
  let ready := s.readyHeads
  let cand := (List.range 8).filter (fun l => ready.any (fun g => g.2.prio = l))
  let level := levelOf s.front.skip cand
  match s.nextOf level ready with
  | none => s
  | some (n, g) =>
    (s.setFront { s.front with skip := skipAfter s.front.skip cand level, rr := s.front.rr.set level (rrKey g),
                               lastAdmit := s.now }).due [admitStep n g]

/-- RECORD_ADMISSION: unread heads are read and checked, those whose fence allows it go to translation, and one ready head
is admitted (R306, R313 to R315). -/
def execRecordAdmission (s : State) : Host.Outcome State Fault Refusal :=
  let s := ((List.range 64).filter s.unread).foldl State.readHead s
  let s := s.toTranslate.foldl (fun (s : State) g =>
    if g.2.ranges.isEmpty then s.modGrid g.1 (fun x => { x with state := .translated }) else s.due [.extentTranslation g.1]) s
  .next s.markPending.admitOne

/-! ### Placement (R316 to R318) -/

/-- A skein formed of threads in lane order: the lowest free context, the pipe with the fewest skeins; threads that hold no
registers ask the pool for them in one request, and the skein waits where it is not granted (R32, R41, R48, R318), its waited
bits clear (log entry 74). -/
def State.formSkein (s : State) (c slot : Nat) (ws : List Who) : State :=
  match (s.freeContexts c).head? with
  | none => s
  | some x =>
    let per := ((s.team (c, slot)).map (·.regs)).getD 32
    let bare := ws.filter (fun w => (s.thread w).any (fun t => t.holding = 0))
    let n := bare.length * per
    let granted := n == 0 || (s.core c).canGrant n
    let s := { s with skeins := s.skeins.put (c, x) { slot, pipe := s.bestPipe c, formed := s.now, granted, owes := if granted then 0 else n } }
    let s := if granted then s.modCore c (fun k => { k with free := k.free - n })
      else s.modCore c (fun k => { k with poolQueue := k.poolQueue ++ [.skein x] })
    ws.zipIdx.foldl (fun (s : State) (p : Who × Nat) => s.modThread p.1 (fun t =>
      { t with ctx := x, lane := p.2, pass := 0, waited := false, readySince := s.now, lastIssue := s.now,
               state := if granted then .ready else .blocked (.regs per),
               regs := if t.regs.isEmpty && granted then t.freshRegs per else t.regs })) s

/-- Lists of at most n elements in order. -/
def chunksGo (n : Nat) : Nat → List α → List (List α)
  | 0, _ => []
  | fuel + 1, l => if l.isEmpty then [] else l.take n :: chunksGo n fuel (l.drop n)

def chunks (n : Nat) (l : List α) : List (List α) := chunksGo n l.length l

/-- A team placed: its reservation, its constants and its skeins, each thread acquiring at dev scope (R47, R318, R92). -/
def State.placeTeam (s : State) (gid : Nat) (g : Grid) (k : Kernel) (p : Spot) (index : Nat) : State :=
  let team : Team :=
    { grid := gid, index, size := k.threads, gridSize := g.teams, depth := g.depth, cls := g.cls, sup := g.sup, debug := g.debug,
      ks := g.args ++ [dw g.seq, dw g.handle, dw (k.ext % 65536), 0, 0, 0], tileBase := p.tile, tileSize := k.tile, accBase := p.acc,
      accCount := k.acc, regs := k.regs, asid := g.asid, root := g.root, queue := g.queue, prio := g.prio }
  let s := s.setTeam (p.core, p.slot) team
  let ws := (List.range k.threads).map (fun i => Who.lane p.core p.slot i)
  let s := s.modCore p.core (fun c => { c with free := c.free - k.reserved g.cls, claimSince := none })
  let s := ws.foldl (fun (s : State) w => s.setThread w
    { pc := k.entry, regs := if g.cls = 2 then [] else List.replicate k.regs 0, readySince := s.now, lastIssue := s.now }) s
  let s := ws.foldl (fun (s : State) w => s.startView w p.core) s
  let s := (chunks 32 ws).foldl (fun (s : State) l => s.formSkein p.core p.slot l) s
  (s.wakeCore p.core).modGrid gid (fun x => { x with placed := x.placed + 1 })

/-- One declaration applied as its instruction would be (R246, R216, R226, R318); gang objects only with the gang's team 0
(R317). -/
def State.applyDecl (s : State) (t : TeamId) (first : Bool) (d : DWord × DWord) : Except Fail State :=
  let v := d.2
  match dfield d.1 1 0 with
  | 0 => s.declareBuffer t v
  | 1 =>
    let kind : BarKind := if dfield v 9 8 = 0 then .team else if dfield v 9 8 = 1 then .gang else .engine
    if kind = .gang ∧ !first then .ok s
    else .ok (s.putBar t (dfield v 3 0) (freshBar kind (((s.team t).map (·.cls)).getD 0) (dfield v 31 16) (dfield v 63 32)))
  | _ => if dfield v 63 62 = 1 ∧ !first then .ok s else s.bindChan t (dfield d.1 12 8) v

/-- A team's declaration list; a declaration that fails ends the team with its code (R436). -/
def State.applyDecls (s : State) (t : TeamId) (first : Bool) : List (DWord × DWord) → State
  | [] => s
  | d :: ds =>
    match s.applyDecl t first d with
    | .ok s => s.applyDecls t first ds
    | .error f => s.endTeam t f.code f.info0.toNat f.info1.toNat

/-- Teams placed at their spots in order, then their declarations applied in order. -/
def State.placeAll (s : State) (gid : Nat) (g : Grid) (k : Kernel) (first : Nat) (ps : List Spot) : State :=
  let s := ps.zipIdx.foldl (fun (s : State) (p : Spot × Nat) => s.placeTeam gid g k p.1 (first + p.2)) s
  ps.zipIdx.foldl (fun (s : State) (p : Spot × Nat) =>
    if (s.team (p.1.core, p.1.slot)).any (fun t => t.ending.isSome) then s
    else s.applyDecls (p.1.core, p.1.slot) (first + p.2 = 0) k.decls) s

/-- Admission of a grid or gang: refused where it could never fit, placed at once in class C and for a gang (R315). -/
def State.admitLaunch (s : State) (n : Nat) : State :=
  match s.grid n with
  | none => s
  | some g =>
    if g.state ≠ .translated then s
    else if s.hopeless g then s.refuse n 0x0401 10 0 0 0
    else if !g.atOnce then s.leaveQueue n
    else match g.plan s.rooms, g.kernel with
      | some ps, some k => (s.leaveQueue n).placeAll n g k 0 ps
      | _, _ => s

/-- GRID_RECORD (R315). -/
def execGridRecord (g : Nat) (s : State) : Host.Outcome State Fault Refusal := .next (s.admitLaunch g)

/-- GANG_RECORD (R45, R317). -/
def execGangRecord (g : Nat) (s : State) : Host.Outcome State Fault Refusal := .next (s.admitLaunch g)

/-- The grid whose team is placed next: by priority, then by admission (R316). -/
def State.nextPlaced (s : State) : Option (Nat × Grid) :=
  (s.front.grids.filter (fun g => g.2.kind = .grid ∧ g.2.cls ≠ 0 ∧ g.2.state = .admitted ∧ g.2.placed < g.2.teams)).foldl
    (fun (best : Option (Nat × Grid)) g =>
      match best with
      | none => some g
      | some b =>
        if b.2.prio < g.2.prio || (b.2.prio == g.2.prio && decide (g.2.admitted < b.2.admitted)) then some g else some b) none

/-- The next team and its place, where it fits (R316). -/
def State.nextTeam (s : State) : Option (Nat × Grid × Kernel × Spot) :=
  match s.nextPlaced with
  | none => none
  | some (n, g) =>
    match g.kernel with
    | none => none
    | some k => (chooseSpot s.rooms k g.cls).map (fun p => (n, g, k, p))

/-- Whether 4 clk have gone since the last placement (R316). -/
def State.placeDue (s : State) : Bool := decide (s.front.lastPlace = 0 ∨ s.front.lastPlace + 4 ≤ s.now)

/-- TEAM_PLACEMENT: one team placed; one that does not fit holds back every later one (R316). -/
def execTeamPlacement (s : State) : Host.Outcome State Fault Refusal :=
  match s.nextTeam with
  | some (n, g, k, p) =>
    if s.placeDue then .next ((s.setFront { s.front with lastPlace := s.now }).placeAll n g k g.placed [p]) else .next s
  | none => .next s

/-! ### Retirement (R50, R436, R447) -/

/-- A bank whose contents are discarded holds values that no rule gives (R447). -/
def State.discardBank (s : State) (core bank : Nat) : State :=
  (List.range 256).foldl (fun (s : State) i =>
    (s.setAcc core (bank * 256 + i) (Config.freeValue s.sys.free)).tickFree) s

/-- A retiring team's record: the code it ended with, or the banks it still holds (R436, R447). -/
def State.retireRecord (s : State) (t : TeamId) (v : Team) : State :=
  let rec0 : ErrRec := { code := 0, sev := 3, kind := 1, index := t.1, slot := t.2, asid := v.asid, tag := s.tagOf t }
  match v.ending with
  | some (code, i0, i1) => s.record { rec0 with code, info0 := dw i0, info1 := dw i1 }
  | none =>
    if v.banks.isEmpty then s
    else
      (s.modGrid v.grid (fun g => if g.ended then g else { g with ended := true, status := 0x0402 })).record
        { rec0 with code := 0x0402, info0 := dw v.banks.length, info1 := dw (leastOf v.banks) }

/-- A team's children: those retired are forgotten with its handles, the others go on without it (R208, R436). -/
def State.leaveChildren (s : State) (v : Team) : State :=
  v.children.foldl (fun (s : State) h =>
    match s.grid h with
    | some g => if g.state = .completed then s.setFront { s.front with grids := s.front.grids.del h }
                else s.modGrid h (fun g => { g with parent := none })
    | none => s) s

/-- Everything a team owned retires with it (R50, R436 step 3). -/
def State.dropTeam (s : State) (t : TeamId) (v : Team) : State :=
  let s := s.leaveChildren v
  let s := { s with hanks := s.hanks.filter (fun h => h.2.owner != t), fabs := s.fabs.filter (fun f => f.2.owner != t),
                    graphs := s.graphs.filter (fun g => g.2.record.isSome || g.2.team != t), teams := s.teams.del t }
  let s := s.modCore t.1 (fun c => { c with carder := c.carder.filter (fun k => k.slot != t.2), fedKept := c.fedKept.filter (fun k => k.slot != t.2) })
  (s.modGrid v.grid (fun g => { g with retired := g.retired + 1, gangChans := g.gangChans.filter (fun c => c.2.owner != t) })).due
    [.gridRetire v.grid]

/-- TEAM_RETIRE: a team with no live thread whose engine work has retired (R50, R436, R447). -/
def execTeamRetire (core slot : Nat) (s : State) : Host.Outcome State Fault Refusal :=
  let t : TeamId := (core, slot)
  match s.team t with
  | none => .next s
  | some v =>
    let s := if v.ending.isSome then s.abandonGraphs t else s
    if ((v.saved || v.saving) && v.ending.isNone) || !(s.threadsOf t).isEmpty || s.outstanding t then .next s
    else
      let s := s.retireRecord t v
      let s := v.banks.foldl (fun (s : State) b => s.discardBank core b) s
      .next (s.dropTeam t v)

/-- Whether a record's work is over: a grid's or gang's teams and children have retired, a graph's nodes have finished (R50,
R307). -/
def State.workOver (s : State) (n : Nat) (g : Grid) : Bool :=
  match g.kind with
  | .grid | .gang =>
    g.retired == g.teams && s.front.grids.all (fun x => x.2.parentGrid != some n || x.2.state == .completed)
  | .graph => s.graphs.all (fun x => x.2.record != some n)
  | .waitOn | .signal => false

/-- GRID_RETIRE: the completion record, the waits and the queue follow the last retirement (R50, R307, R311, R372). -/
def execGridRetire (g : Nat) (s : State) : Host.Outcome State Fault Refusal :=
  match s.grid g with
  | none => .next s
  | some x => if x.state = .admitted ∧ s.workOver g x then .next (s.complete g x.status) else .next s

/-! ### `launch` (R208) -/

/-- Unretired child grids of the device. -/
def State.childCount (s : State) : Nat := (s.front.grids.filter (fun g => g.2.parentGrid.isSome && g.2.state != .completed)).length

/-- A child record that fails: its handle stands, with its status, and a record names the parent's queue (R208, R488). -/
def State.failChild (s : State) (g : Grid) (code reason : Nat) (addr w0 : DWord) : State :=
  (s.addGrid { g with state := .completed, status := code }).record
    { code, sev := 3, kind := 10, index := g.queue, asid := g.asid, tag := g.seq, addr, info0 := dw reason, info1 := w0 }

/-- A child record handed over: checked, and put among the heads, or failed. -/
def State.handOver (s : State) (bs : List Byte) (va : DWord) (supOk : Bool) (g0 : Grid) : State :=
  let w0 := dwordsOf bs 0
  let g0 := { g0 with seq := dfield w0 63 32 }
  match parseRecord bs true supOk g0 with
  | .error r => s.failChild g0 0x0E01 r va w0
  | .ok g => match s.frontCheck g with
    | (s, .bad r) => s.failChild g 0x0E01 r va w0
    | (s, .unreadable) => s.failChild g 0x0E03 0 va w0
    | (s, .ok g) => s.addGrid g

/-- `launch kD, kA` (R208). -/
def execLaunch (d a : Fin 64) (s : State) : Host.Outcome State Fault Refusal :=
  .next (s.runU [.k a] (some (.k d)) (fun s vs =>
    let va := vs.getD 0 0
    let t := s.issueTeam
    match s.team t with
    | none => (s, {})
    | some v =>
      if !s.sys.issue.lanes.any (fun l => whoTid l.2 = 0) then (s, { fault := some { code := 0x0305 } })
      else if 10 ≤ v.depth then (s, { fault := some { code := 0x0303 } })
      else if va.toNat % 128 ≠ 0 then (s, { fault := some { code := 0x0502, addr := va } })
      else if 4096 ≤ s.childCount then (s, { next := .stay, stall := .childTable })
      else
        let s := s.issueRelease
        match s.engRead (s.mkCmd t (.copy t.1) (.xfer 0 va 128) {}) va 128 with
        | (s, .hold p) => s.uPage p (some d.val)
        | (s, .bad f) => (s, { fault := some f })
        | (s, .ok (bs, poison)) =>
          if poison then (s, { fault := some { code := 0x0F01, addr := va } })
          else
            let n := s.front.nextGrid
            let s := s.handOver bs va v.sup
              { kind := .grid, queue := v.queue, prio := v.prio, seq := 0, parent := some t, parentGrid := some v.grid, handle := n,
                depth := v.depth + 1, asid := v.asid, root := v.root }
            (s.modTeam t (fun x => { x with children := x.children ++ [n] }), { res := some (dw n) })))

end Sys2Proof.Machine
end

