-- ==== Sys2Proof/Machine/Context.lean ====
section
/-!
DEFINITION. The team context switch: `ctxsave`, `ctxload` and the step CTXSAVE_WRITE (R301, R302, R325 to R329). The area's
regions are those of R327; the bits inside them that no rule places are the model's own (notes/assumptions).
-/
namespace Sys2Proof.Machine

/-! ### The image of a team (R327, R328) -/

def bit (b : Bool) : Nat := if b then 1 else 0

/-- A barrier's 32 bytes; all zero for one not declared. -/
def barImage (b : Option Bar) : List Byte :=
  match b with
  | none => List.replicate 32 0
  | some b =>
    bytesOf 8 (barKindNum b.kind + b.cls * 4 + bit b.phase * 16 + 32 + bit b.declared * 64 + b.count * 2 ^ 16 + b.pending * 2 ^ 32) ++
    bytesOf 8 b.quota ++ bytesOf 8 (wrapTo 48 b.balance) ++ bytesOf 8 0

/-- A thread's state as its record codes it: 6 for a thread released at its `converge`; a thread withdrawn from a wait issues
it afresh. -/
def stateCode (released : Bool) : TState → Nat
  | .ready => if released then 6 else 0
  | .blocked (.regs _) => 5
  | .blocked _ => 0
  | .held => 1
  | .parked => 2
  | .filing => 3
  | .filed _ => 4

/-- What a thread's record says it waited for, as a code and a number; it is informative. -/
def waitImage : TState → Nat
  | .blocked (.bar n) => 1 + n * 16
  | .blocked (.chan n) => 2 + n * 16
  | .blocked (.carder _) => 3
  | .blocked (.hank a) => 4 + a * 16
  | .blocked (.claim n) => 5 + n * 16
  | .blocked (.child h) => 6 + h * 16
  | .blocked (.regs n) => 7 + n * 16
  | _ => 0

/-- Barriers in whose member or arrived list a thread stands, as a mask. -/
def barMask (bars : Table Nat Bar) (w : Who) (f : Bar → List Who) : Nat := maskOf ((bars.filter (fun b => decide (w ∈ f b.2))).map (·.1))

/-- The named barriers of a team, with those of its gang (R215, R327). -/
def State.barsOf (s : State) (t : TeamId) : Table Nat Bar := (List.range 16).filterMap (fun n => (s.bar t n).map (fun b => (n, b)))

/-- A thread's 256 bytes and its registers. -/
def threadImage (bars : Table Nat Bar) (bobbins : Table Nat Bobbin) (now : Nat) (w : Who) (t : Thread) : List Byte :=
  let (bob, ord) := match t.state with
    | .filed n => (n, (((bobbins.find n).map (fun (b : Bobbin) => b.threads.findIdx (fun x => x.1 = whoTid w))).getD 0))
    | _ => (255, 0)
  let sleep := match t.stall with
    | .until c => c - now
    | _ => 0
  padTo 0x40 0 (bytesOf 8 t.pc.toNat ++
    bytesOf 8 (whoTid w + t.holding * 2 ^ 16 + stateCode t.released t.state * 2 ^ 24 + bit t.waited * 2 ^ 28 + bit t.trapActive * 2 ^ 29 +
      bit t.idling * 2 ^ 30 + bit t.retried * 2 ^ 31 + t.preds.toNat * 2 ^ 32 + t.fflags.toNat * 2 ^ 40 + bit t.refetch * 2 ^ 45 + t.rstack.length * 2 ^ 48) ++
    bytesOf 8 (barMask bars w (·.members) + barMask bars w (·.arrived) * 2 ^ 16 + bob * 2 ^ 32 + ord * 2 ^ 40 + t.refault * 2 ^ 56) ++
    bytesOf 8 t.refaultPc.toNat ++ bytesOf 8 t.nextFile.toNat ++ bytesOf 8 (waitImage t.state) ++ bytesOf 8 sleep ++
    (padTo 2 0 t.args).flatMap (fun (x : Word) => bytesOf 4 x.toNat)) ++
  padTo 0x40 0 ([t.trap.code, t.trap.op, t.trap.d, t.trap.a, t.trap.b, t.trap.imm].flatMap (fun (x : Word) => bytesOf 4 x.toNat) ++
    bytesOf 8 t.trap.pc.toNat) ++
  padTo 0x80 0 (t.rstack.flatMap (fun (x : DWord) => bytesOf 8 x.toNat)) ++ t.regs.flatMap (fun (x : Word) => bytesOf 4 x.toNat)

/-- A skein's 512 bytes: its scalars, its lane map ($tid + 1 for each lane), its age. -/
def State.skeinImage (s : State) (c x : Nat) (k : Skein) : List Byte :=
  let ts := s.skeinThreads c x
  padTo 512 0 (k.ks.flatMap (fun v => bytesOf 8 v.toNat) ++
    (List.range 32).flatMap (fun l => bytesOf 2 (match ts.find? (fun p => p.2.lane = l) with
      | some p => whoTid p.1 + 1
      | none => 0)) ++ bytesOf 8 (s.now - k.formed) ++ bytesOf 8 (bit k.granted))

def State.bankImage (s : State) (c b : Nat) : List Byte := (List.range 256).flatMap (fun i => bytesOf 8 (s.acc c (b * 256 + i)).toNat)

/-- The skeins of a team in context order. -/
def State.teamSkeins (s : State) (t : TeamId) : List (Nat × Skein) :=
  (List.range Config.contexts).filterMap (fun x => match s.skein t.1 x with
    | some k => if k.slot = t.2 then some (x, k) else none
    | none => none)

/-- The threads of a team in $tid order. -/
def State.teamThreads (s : State) (t : TeamId) (size : Nat) : List (Who × Thread) :=
  (List.range size).filterMap (fun i => (s.thread (.lane t.1 t.2 i)).map (fun x => (Who.lane t.1 t.2 i, x)))

/-- The size of a save area (R329). -/
def areaBytes (skeins banks : Nat) (holdings : List Nat) : Nat :=
  alignUp 4096 (4096 + 512 * skeins + sumOf (holdings.map (fun h => 256 + 4 * h)) + 2048 * banks)

/-- The fixed part and the regions of a save area, zero to its end (R327 to R329). -/
def State.image (s : State) (t : TeamId) (v : Team) (tag : Nat) : List Byte :=
  let ks := s.teamSkeins t
  let ts := s.teamThreads t v.size
  let core := s.core t.1
  let banks := v.banks.foldl insertNat []
  let size := areaBytes ks.length banks.length (ts.map (fun p => p.2.holding))
  let thoff := 4096 + 512 * ks.length
  let bkoff := thoff + sumOf (ts.map (fun p => 256 + 4 * p.2.holding))
  let owner := match core.owner with
    | some x => (ks.findIdx? (fun k => k.1 = x)).map (· + 1) |>.getD 0
    | none => 0
  let waits := maskOf ((ks.zipIdx.filter (fun k => core.ownerQueue.contains k.1.1)).map (·.2))
  let mine : Table Nat Bobbin := core.bobbins.filter (fun b => b.2.slot = t.2)
  let port := match v.chans.find? (fun c => c.2.kind = .emissions) with
    | some c => c.2.elems
    | none => []
  padTo 256 0 (bytesOf 8 (size * 2 ^ 32 + t.1 * 16 + t.2) ++ bytesOf 8 tag ++
    bytesOf 8 (banks.length * 2 ^ 32 + ks.length * 2 ^ 16 + ts.length) ++ bytesOf 8 4096 ++ bytesOf 8 thoff ++ bytesOf 8 bkoff) ++
  (List.range 16).flatMap (fun n => barImage (s.bar t n)) ++
  (List.range 32).flatMap (fun n => bytesOf 8 (((s.chan t n).map Chan.desc).getD 0).toNat) ++
  padTo 64 0 (bytesOf 8 (((List.range 8).map (fun i => (match v.guards.getD i none with
      | none => 2
      | some b => bit b) * 4 ^ i)).foldl (· + ·) 0 + v.fmode.toNat * 2 ^ 16 + v.events.toNat * 2 ^ 20) ++
    bytesOf 8 owner ++ bytesOf 16 waits) ++
  bytesOf 64 (maskOf banks) ++
  (List.range 64).flatMap (fun n => match Table.find mine n with
    | some b => bytesOf 8 b.pc.toNat ++ bytesOf 8 (b.threads.length + (s.now - (b.threads.headD (0, s.now)).2) * 2 ^ 16)
    | none => List.replicate 16 0) ++
  (match s.carderOf t with
    | some k => padTo 576 0 k.cursor
    | none => List.replicate 576 0) ++
  padTo 256 0 (port.flatMap (fun e => bytesOf 8 e.toNat)) ++ List.replicate 1088 0 ++
  padTo (size - 4096) 0 (ks.flatMap (fun k => s.skeinImage t.1 k.1 k.2) ++
    ts.flatMap (fun p => threadImage (s.barsOf t) core.bobbins s.now p.1 p.2) ++ banks.flatMap (fun b => s.bankImage t.1 b))

/-! ### Saving (R301) -/

/-- Step 1: run-aheads roll back, waits and requests are withdrawn, gathers that loaded are abandoned and those that store
are performed. -/
def State.stopForSave (s : State) (t : TeamId) : State :=
  let ws := (s.threadsOf t).map (·.1)
  let s := (s.runs.filter (fun r => r.whos.any (fun w => w ∈ ws))).foldl (fun (s : State) r => s.rollbackRun r.id) s
  let s := ws.foldl (fun (s : State) w => s.flushGather w) s
  let s := s.modCore t.1 (fun k => { k with gather := k.gather.filter (fun g => !decide (g.who ∈ ws)) })
  let s := ws.foldl (fun (s : State) w => s.modThread w (fun x => match x.state with
    | .blocked (.regs _) => { x with stall := .none }
    | .blocked _ => { x with state := .ready, stall := .none }
    | _ => match x.stall with
      | .until _ => x
      | _ => { x with stall := .none })) s
  let s := s.modCore t.1 (fun k => { k with poolQueue := k.poolQueue.filter (fun r => match r with
    | .claim sl _ _ => sl != t.2
    | .spawn sl _ _ => sl != t.2
    | .skein x => !(s.skein t.1 x).any (fun k => k.slot = t.2)) })
  s.modTeam t (fun v => { v.takeMode with saving := true })

/-- The area's pages that a thread may not write, or that touch what the device keeps there: a fault or a page. -/
def State.areaBad (s : State) (w : Who) (va : DWord) (n : Nat) : State × AccRes :=
  (pagesOf va n).foldl (fun (r : State × AccRes) p =>
    match r with
    | (s, .ok _) =>
      match s.reach w (s.laneAccess w .store p.1 p.2 1) with
      | (s, .ok t) => if (s.regionsAt t.loc p.2).isEmpty && !t.line && !isRemote t.loc then (s, .ok t)
                      else (s, .fault { code := 0x0408, addr := p.1 })
      | (s, .fault f) => (s, .fault (if f.code = 0x0601 then { code := 0x0408, addr := p.1 } else f))
      | r => r
    | r => r) (s, .ok { loc := 0 })

/-- The size of the area a team needs now. -/
def State.areaOf (s : State) (t : TeamId) (v : Team) : Nat :=
  areaBytes (s.teamSkeins t).length v.banks.length ((s.threadsOf t).map (fun p => p.2.holding))

/-- `ctxsave kD, kA, kB` (R301): the team stops now; CTXSAVE_WRITE follows once its engine work is done. -/
def execCtxsave (d a b : Fin 64) (s : State) : Host.Outcome State Fault Refusal :=
  .next (s.runSup [a, b] (some d) (fun s vs =>
    let t := s.issueTeam
    let x : TeamId := (t.1, dfield (vs.getD 0 0) 3 0)
    let va := vs.getD 1 0
    if dfield (vs.getD 0 0) 63 4 ≠ 0 then (s, { fault := some { code := 0x0207 } })
    else match s.team x with
      | none => (s, { fault := some { code := 0x0408 } })
      | some v =>
        if x = t ∨ v.saved ∨ v.saving ∨ v.ending.isSome ∨ (s.threadsOf x).isEmpty ∨ va.toNat % 4096 ≠ 0 then
          (s, { fault := some { code := 0x0408 } })
        else match s.areaBad s.leader va (s.areaOf x v) with
          | (s, .fault f) => (s, { fault := some f })
          | (s, .page p) => s.uPage p (some d.val)
          | (s, .ok _) =>
            let s := s.stopForSave x
            ({ s with pend := s.pend ++ [{ core := t.1, ctx := s.sys.issue.ctx, slot := x.2, area := va, dest := d.val }] },
             stallForCompletion)))

/-- Bytes written at their homes by a core, line by line. -/
def State.writeArea (s : State) (w : Who) (core : Nat) (va : DWord) (bs : List Byte) : Nat → State
  | 0 => s
  | fuel + 1 =>
    if bs.isEmpty then s else
    let s := match s.checkIssue (s.laneAccess w .store va 64 1) with
      | (s, .ok t) => s.write { core := some core } t.key t.loc (bs.take 64)
      | (s, _) => s
    s.writeArea w core (va + 64) (bs.drop 64) fuel

/-- Lines of an area that hold a poisoned bank's image are poisoned (R424). -/
def State.poisonArea (s : State) (w : Who) (va : DWord) (n : Nat) : State :=
  (List.range (n / 64)).foldl (fun (s : State) i =>
    match s.checkIssue (s.laneAccess w .store (va + dw (64 * i)) 64 1) with
    | (s, .ok t) => s.setMem (s.mem.poisonLine (t.loc / 64))
    | (s, _) => s) s

/-- Step 4: the team's threads, registers, contexts, banks and carder are freed; its slot, its tile range and what stands
there stay, and so does what is required for the threads' later loads (R82, R301). -/
def State.freeSaved (s : State) (t : TeamId) (tag : Nat) : State :=
  let views : Table Nat (Acq × List Seen) := (s.threadsOf t).map (fun p => (whoTid p.1, p.2.acq, p.2.seen))
  let s := (((s.threadsOf t).map (·.1)).foldl (fun (s : State) w => s.removeThread w) s).fileAll t.1
  let s := match s.carderOf t with
    | some k => s.keepFed t.1 k
    | none => s
  let s := s.modCore t.1 (fun k => { k with carder := k.carder.filter (fun c => c.slot != t.2), saveCount := tag,
                                            saveTags := k.saveTags.put t.2 tag })
  s.modTeam t (fun v => { v with saved := true, saving := false, replayed := false, events := 0,
                                 timers := v.timers.map (fun c => c - s.now), banks := [], views })

/-- The result of a pending save reaches its scalar, and the skein goes on. -/
def State.finishSave (s : State) (p : Pending) (ws : List Who) (r : DWord) : State :=
  let s := s.modSkein p.core p.ctx (fun k => { k with ks := k.ks.set (p.dest - 16) r })
  ({ s with pend := s.pend.filter (fun x => x != p) }).passAll ws 4

/-- A team stopped for a save whose supervisor has ended meanwhile goes on, its requests on the pool made afresh. -/
def State.resumeTeam (s : State) (t : TeamId) (v : Team) : State :=
  let skeins := ((s.teamSkeins t).filter (fun k => !k.2.granted)).map (fun k => PoolReq.skein k.1)
  let spawned := (s.threadsOf t).filterMap (fun p =>
    if p.2.state = .filing ∧ p.2.holding = 0 ∧ v.cls ≠ 2 then some (PoolReq.spawn t.2 (whoTid p.1) v.regs) else none)
  (s.modTeam t (fun v => { v with saving := false })).modCore t.1 (fun k =>
    { k with poolQueue := k.poolQueue ++ skeins ++ spawned })

/-- CTXSAVE_WRITE: the area is written and the team's resources freed, once its engine work is done (R301 steps 2 to 4); a
team that ended meanwhile leaves nothing to save. -/
def execCtxsaveWrite (core ctx : Nat) (pc : DWord) (s : State) : Host.Outcome State Fault Refusal :=
  match s.pend.find? (fun p => p.core = core ∧ p.ctx = ctx) with
  | none => .next s
  | some p =>
    let ws := s.completing core ctx pc
    let t : TeamId := (core, p.slot)
    match s.team t with
    | none => .next (s.finishSave p ws 0)
    | some v =>
      if v.ending.isSome then .next (s.finishSave p ws 0)
      else if ws.isEmpty then .next ((s.resumeTeam t v).finishSave p ws 0)
      else if s.outstanding t then .next s
      else
        let w := ws.headD (.lane core 0 0)
        let tag := (s.core core).saveCount + 1
        let bs := s.image t v tag
        let bkoff := (dwordsOf bs 0x28).toNat
        let bad := (v.banks.foldl insertNat []).zipIdx.filter (fun b => (s.core core).accPoison.contains b.1)
        let s := s.writeArea w core p.area bs (bs.length / 64 + 1)
        let s := bad.foldl (fun (s : State) b => s.poisonArea w (p.area + dw (bkoff + 2048 * b.2)) 2048) s
        .next ((s.freeSaved t tag).finishSave p ws (dw bs.length))

/-! ### Loading (R302, R326, R328) -/

/-- A thread's record read back. -/
structure SavedThread where
  tid : Nat
  holding : Nat
  code : Nat
  bobbin : Nat
  ordinal : Nat
  members : Nat
  arrived : Nat
  sleep : Nat
  t : Thread

def savedThread (bs : List Byte) (now : Nat) : SavedThread :=
  let w (o : Nat) : DWord := dwordsOf bs o
  let h := w 8
  let word (o : Nat) : Word := wd (numOfBytes ((bs.drop o).take 4))
  let holding := dfield h 23 16
  { tid := dfield h 15 0, holding, code := dfield h 27 24, bobbin := dfield (w 0x10) 39 32, ordinal := dfield (w 0x10) 55 40,
    members := dfield (w 0x10) 15 0, arrived := dfield (w 0x10) 31 16, sleep := (w 0x30).toNat,
    t := { pc := w 0, regs := (List.range holding).map (fun i => word (256 + 4 * i)), preds := (h >>> 32).setWidth 8,
           fflags := (h >>> 40).setWidth 5, rstack := (List.range (dfield h 63 48)).map (fun i => w (0x80 + 8 * i)),
           waited := dbit h 28, trapActive := dbit h 29, idling := dbit h 30, retried := dbit h 31, refetch := dbit h 45,
           refault := dfield (w 0x10) 63 56, refaultPc := w 0x18, nextFile := w 0x20, args := [word 0x38, word 0x3C],
           trap := { code := word 0x40, op := word 0x44, d := word 0x48, a := word 0x4C, b := word 0x50, imm := word 0x54, pc := w 0x58 },
           readySince := now, lastIssue := now, heldSince := now } }

/-- The threads' records in order, each with its registers. -/
def savedThreads (bs : List Byte) (now : Nat) : Nat → List SavedThread
  | 0 => []
  | n + 1 =>
    let x := savedThread bs now
    x :: savedThreads (bs.drop (256 + 4 * x.holding)) now n

/-- A thread record's fields within their ranges (R328). -/
def SavedThread.ok (x : SavedThread) (v : Team) : Bool :=
  x.tid < v.size && x.code ≤ 6 && x.t.rstack.length ≤ 16 &&
  ((x.holding == 0 && (x.code == 5 || x.code == 3 || (x.code == 4 && v.cls == 2))) ||
   (32 ≤ x.holding && x.holding ≤ 128 && x.holding % 8 == 0)) && (if x.code = 4 then x.bobbin < 64 && x.ordinal < 64 else true)

/-- A barrier read back: none where it is not declared, an error where a field is out of range. -/
def savedBar (bs : List Byte) (n now : Nat) (old : Option Bar) : Except Unit (Option Bar) :=
  let w (o : Nat) : DWord := dwordsOf bs (0x100 + 32 * n + o)
  let kind := dfield (w 0) 1 0
  let pending := dfield (w 0) 47 32
  if w 0 = 0 then .ok none
  else if !dbit (w 0) 5 ∨ kind = 3 ∨ dfield (w 0) 3 2 = 3 ∨ dfield (w 0) 31 16 < pending ∨ dfield (w 0) 63 48 ≠ 0 ∨
      dfield (w 8) 63 32 ≠ 0 ∨ dfield (w 16) 63 48 ≠ 0 then .error ()
  else .ok (some { kind := if kind = 0 then .team else if kind = 1 then .gang else .engine, cls := dfield (w 0) 3 2, count := dfield (w 0) 31 16, pending,
                   quota := dfield (w 8) 31 0, balance := signedOf 48 (dfield (w 16) 47 0), phase := dbit (w 0) 4, declared := dbit (w 0) 6, lastOp := now,
                   reported := (old.map (·.reported)).getD false })

/-- Every value of a list, or the first error. -/
def allOk : List (Except Unit α) → Except Unit (List α)
  | [] => .ok []
  | .error e :: _ => .error e
  | .ok x :: xs => match allOk xs with
    | .ok l => .ok (x :: l)
    | .error e => .error e

/-- What an area holds once its fields have been checked. -/
structure SavedTeam where
  bars : Table Nat Bar
  guards : List (Option Bool)
  fmode : BitVec 3
  events : BitVec 4
  owner : Nat
  waits : Nat
  banks : List Nat
  bobbins : List (Nat × DWord × Nat × Nat)
  cursor : List Byte
  port : List Byte
  descs : List DWord
  skeins : List (List Byte)
  threads : List SavedThread
  images : List (List Byte)

/-- Set bits of a number of up to n bits. -/
def bitsSet (x n : Nat) : List Nat := (List.range n).filter (fun i => x.testBit i)

/-- The lanes of a saved skein, as $tid + 1 each. -/
def skeinLanes (bs : List Byte) : List Nat := (List.range 32).map (fun l => numOfBytes ((bs.drop (384 + 2 * l)).take 2))

/-- An area's fields read and checked against the team (R302, R328): none where any is out of range. -/
def readArea (bs : List Byte) (t : TeamId) (v : Team) (tag now : Nat) : Option SavedTeam :=
  let w (o : Nat) : DWord := dwordsOf bs o
  let nsk := dfield (w 0x10) 31 16
  let nth := dfield (w 0x10) 15 0
  let nbk := dfield (w 0x10) 63 32
  let thoff := (w 0x20).toNat
  let bkoff := (w 0x28).toNat
  let ths := savedThreads (bs.drop thoff) now nth
  let banks := bitsSet (numOfBytes ((bs.drop 0x440).take 64)) 512
  let g := w 0x400
  let guardAt (i : Nat) : Nat := dfield g (2 * i + 1) (2 * i)
  let fm := dfield g 18 16
  let sks := (List.range nsk).map (fun i => (bs.drop (4096 + 512 * i)).take 512)
  let lanes := sks.flatMap skeinLanes
  let placed (x : SavedThread) : Bool := x.code != 3 && x.code != 4
  let bars := allOk ((List.range 16).map (fun n => savedBar bs n now (v.bars.find n)))
  match bars with
  | .error _ => none
  | .ok bl =>
    if dfield (w 0) 3 0 ≠ t.2 ∨ dfield (w 0) 11 4 ≠ t.1 ∨ dfield (w 0) 31 12 ≠ 0 ∨ w 8 ≠ dw tag ∨ nsk = 0 ∨ 128 < nsk ∨ nth = 0 ∨ 1024 < nth ∨
        512 < nbk ∨ w 0x18 ≠ 4096 ∨ thoff ≠ 4096 + 512 * nsk ∨
        bkoff ≠ thoff + sumOf (ths.map (fun x => 256 + 4 * x.holding)) ∨
        dfield (w 0) 63 32 ≠ areaBytes nsk nbk (ths.map (·.holding)) ∨ ((bs.drop 0x30).take 0xD0).any (· != 0) ∨
        ((bs.drop 0xBC0).take 0x440).any (· != 0) ∨
        banks.length ≠ nbk ∨ banks.any (fun b => b < v.accBase || v.accBase + v.accCount ≤ b) ∨
        (List.range 8).any (fun i => guardAt i = 3) ∨ fm = 0 ∨ 5 < fm ∨ ths.any (fun x => !x.ok v) ∨
        !(ths.map (·.tid)).Nodup ∨ nsk < (w 0x408).toNat ∨
        !(lanes.filter (· != 0)).Nodup ∨ ths.any (fun x => placed x != lanes.contains (x.tid + 1)) ∨
        lanes.any (fun l => l != 0 && !ths.any (fun x => x.tid + 1 = l)) then none
    else some
      { bars := bl.zipIdx.filterMap (fun b => b.1.map (fun x => (b.2, x))),
        guards := (List.range 8).map (fun i => if guardAt i = 2 then none else some (guardAt i = 1)),
        fmode := BitVec.ofNat 3 fm, events := BitVec.ofNat 4 (dfield g 23 20), owner := (w 0x408).toNat,
        waits := numOfBytes ((bs.drop 0x410).take 16), banks,
        bobbins := (List.range 64).filterMap (fun n =>
          let c := dfield (w (0x480 + 16 * n + 8)) 15 0
          if c = 0 then none else some (n, w (0x480 + 16 * n), c, dfield (w (0x480 + 16 * n + 8)) 63 16)),
        cursor := (bs.drop 0x880).take 576, port := (bs.drop 0xAC0).take 256,
        descs := (List.range 32).map (fun n => w (0x300 + 8 * n)), skeins := sks, threads := ths,
        images := (List.range nbk).map (fun i => (bs.drop (bkoff + 2048 * i)).take 2048) }

/-- Whether the resources of R47 for the saved team can be reserved at once (R302, R328). -/
def State.canLoad (s : State) (t : TeamId) (v : Team) (x : SavedTeam) : Bool :=
  let r := s.roomOf t.1
  v.size ≤ r.threads && sumOf (x.threads.map (·.holding)) ≤ r.regs && x.skeins.length ≤ r.ctxs &&
  r.accs.all (fun a => !overlaps v.accBase v.accCount a.1 a.2) &&
  (x.cursor.all (· == 0) || (s.core t.1).carder.isNone)

/-- A saved thread with what was required for its loads when it was saved (R82). -/
def SavedThread.viewed (x : SavedThread) (v : Team) : Thread :=
  match v.views.find x.tid with
  | some a => { x.t with acq := a.1, seen := a.2 }
  | none => x.t

/-- A saved thread's state at its load (R112, R301, R302). -/
def SavedThread.loaded (x : SavedThread) (v : Team) (now : Nat) : Thread :=
  let t := x.viewed v
  let wait : Stall := .until (now + Nat.max 48 x.sleep)
  match x.code with
  | 1 => { t with state := .held }
  | 2 => if v.replayed then { t with state := .ready, retried := true, stall := wait } else { t with state := .parked, stall := wait }
  | 3 | 4 => { t with state := .filing }
  | 5 => { t with state := .blocked (.regs v.regs) }
  | 6 => { t with state := .ready, stall := wait, released := true }
  | _ => { t with state := .ready, stall := wait }

/-- One skein restored to a free context, its threads to their lanes; a skein still without its registers asks for them
again (R48). -/
def State.loadSkein (s : State) (t : TeamId) (v : Team) (x : SavedTeam) (i : Nat) (bs : List Byte) : State :=
  match (s.freeContexts t.1).head? with
  | none => s
  | some ctx =>
    let lanes := skeinLanes bs
    let mine := x.threads.filter (fun y => y.code != 3 && y.code != 4 && lanes.contains (y.tid + 1))
    let bare := mine.filter (fun y => y.holding = 0)
    let n := bare.length * v.regs
    let ks := (List.range 48).map (fun j => dwordsOf bs (8 * j))
    let s := { s with skeins := s.skeins.put (t.1, ctx) { slot := t.2, pipe := s.bestPipe t.1, formed := s.now - (dwordsOf bs 448).toNat, ks,
                                                          granted := n == 0, owes := n } }
    let s := mine.foldl (fun (s : State) y => s.setThread (.lane t.1 t.2 y.tid)
      { (y.loaded v s.now) with ctx, lane := lanes.findIdx (fun l => l = y.tid + 1),
                                state := if n = 0 then (y.loaded v s.now).state else .blocked (.regs v.regs) }) s
    let s := if n = 0 then s else s.modCore t.1 (fun k => { k with poolQueue := k.poolQueue ++ [.skein ctx] })
    if x.owner = i + 1 ∨ x.waits.testBit i then
      let k := s.core t.1
      if k.owner.isNone then s.setCore t.1 { k with owner := some ctx }
      else if x.owner = i + 1 ∨ k.ownerQueue.length < 8 then s.setCore t.1 { k with ownerQueue := k.ownerQueue ++ [ctx] }
      else s
    else s

/-- Filed and filing threads restored: each bobbin to its number where that is free, else to any; those with no bobbin file
again (R39). -/
def State.loadFiled (s : State) (t : TeamId) (v : Team) (x : SavedTeam) : State :=
  let put (s : State) (y : SavedThread) : State :=
    let n := s.sys.nextOrder
    let s := (s.setSys { s.sys with nextOrder := n + 1 }).setThread (.lane t.1 t.2 y.tid) { (y.loaded v s.now) with order := n }
    if y.holding = 0 && v.cls != 2 then s.modCore t.1 (fun k => { k with poolQueue := k.poolQueue ++ [.spawn t.2 y.tid v.regs] }) else s
  let s := (x.threads.filter (fun y => y.code = 3 || (y.code = 4 && !x.bobbins.any (fun b => b.1 = y.bobbin)))).foldl put s
  let s := x.bobbins.foldl (fun (s : State) b =>
    let ys := (sortBy (fun p q => decide (p.ordinal ≤ q.ordinal)) (x.threads.filter (fun y => y.code = 4 && y.bobbin = b.1)))
    let s := ys.foldl put s
    let free := (b.1 :: List.range 64).find? (fun n => ((s.core t.1).bobbins.find n).isNone)
    match free with
    | none => s
    | some n =>
      let ys := ys.take 64
      if ys.isEmpty then s else
      let fresh : Bobbin := { slot := t.2, pc := b.2.1, threads := ys.map (fun y => (y.tid, s.now - b.2.2.2)) }
      let s := s.modCore t.1 (fun k => { k with bobbins := k.bobbins.put n fresh })
      ys.foldl (fun (s : State) y => s.modThread (.lane t.1 t.2 y.tid) (fun z => { z with state := .filed n })) s) s
  s.fileAll t.1

/-- The channels of a loaded team: a binding the area leaves as it was keeps its contents, the walker port's elements come
from the area; a changed one is bound afresh, and what cannot be bound is refused (R226, R328). -/
def State.loadChans (s : State) (t : TeamId) (x : SavedTeam) : Except Fail State :=
  x.descs.zipIdx.foldl (fun (r : Except Fail State) (p : DWord × Nat) =>
    match r with
    | .error f => .error f
    | .ok s =>
      let old := (s.team t).bind (fun v => v.chans.find p.2)
      if (old.map (·.desc)).getD 0 = p.1 then
        let keep (c : Chan) : List DWord :=
          if c.kind = .emissions then (List.range c.elems.length).map (fun i => dwordsOf x.port (8 * i)) else c.elems
        .ok (s.modTeam t (fun v => { v with chans := v.chans.upd p.2 (fun c => { c with lastOp := s.now, elems := keep c }) }))
      else if old.isNone ∧ (s.chan t p.2).isSome then .ok s
      else
        let s := s.modTeam t (fun v => { v with chans := v.chans.del p.2 })
        if p.1 = 0 then .ok s else s.bindChan t p.2 p.1) (.ok s)

/-- A gang's barrier at the load of one of its teams: it stands as the other teams have left it, and the bits of this team's
threads are those of their records (R327). -/
def Bar.rejoined (b : Bar) (t : TeamId) (x : Option Bar) : Bar :=
  let other (w : Who) : Bool := match w with
    | .lane c k _ => c != t.1 || k != t.2
    | .walk _ => true
  { b with members := b.members.filter other ++ (x.map (·.members)).getD [],
           arrived := b.arrived.filter other ++ (x.map (·.arrived)).getD [] }

/-- The team restored from its checked area (R301, R302, R326). -/
def State.restoreTeam (s : State) (t : TeamId) (v : Team) (x : SavedTeam) (k : Option Carder) : State :=
  let named (f : SavedThread → Nat) (n : Nat) : List Who :=
    (x.threads.filter (fun y => (f y).testBit n)).map (fun y => Who.lane t.1 t.2 y.tid)
  let full : Table Nat Bar := x.bars.map (fun b => (b.1, { b.2 with members := named (·.members) b.1, arrived := named (·.arrived) b.1 }))
  let bars := full.filter (fun b => b.2.kind != .gang)
  let s := s.modGrid v.grid (fun g => { g with gangBars := g.gangBars.map (fun b => (b.1, b.2.rejoined t ((full.find b.1).filter (fun x => x.kind = .gang)))) })
  let s := s.modTeam t (fun u => { u with saved := false, replayed := false, views := [], bars, guards := x.guards, fmode := x.fmode,
                                          events := x.events ||| u.events, banks := x.banks,
                                          timers := u.timers.map (fun c => c + s.now) })
  let s := s.modCore t.1 (fun c => { c with free := c.free - sumOf (x.threads.map (·.holding)), saveTags := c.saveTags.del t.2 })
  let s := match k with
    | some k => (s.openCarder t k).1
    | none => s
  let s := (x.banks.zip x.images).foldl (fun (s : State) b =>
    (List.range 256).foldl (fun (s : State) i => s.setAcc t.1 (b.1 * 256 + i) (dwordsOf b.2 (8 * i))) s) s
  let s := s.modCore t.1 (fun c => { c with accPoison := c.accPoison.filter (fun b => !x.banks.contains b) })
  let s := x.skeins.zipIdx.foldl (fun (s : State) p => s.loadSkein t v x p.2 p.1) s
  (s.loadFiled t v x).wakeCore t.1

/-- `ctxload kD, kA, kB` (R302). -/
def execCtxload (d a b : Fin 64) (s : State) : Host.Outcome State Fault Refusal :=
  .next (s.runSup [a, b] (some d) (fun s vs =>
    let va := vs.getD 1 0
    let c := s.sys.issue.core
    if vs.getD 0 0 ≠ 0 then (s, { fault := some { code := 0x0207 } })
    else if va.toNat % 4096 ≠ 0 then (s, { fault := some { code := 0x0408 } })
    else match s.uRead va 256 1 with
      | (s, .fault f) => (s, { fault := some f })
      | (s, .page p) => s.uPage p (some d.val)
      | (s, .ok h) =>
        let t : TeamId := (c, dfield (dwordsOf h 0) 3 0)
        let size := dfield (dwordsOf h 0) 63 32
        match s.team t, (s.core c).saveTags.find t.2 with
        | some v, some tag =>
          if !v.saved || v.ending.isSome || decide (size < 4096 ∨ 1904640 < size) || dwordsOf h 8 != dw tag then
            (s, { fault := some { code := 0x0408 } })
          else match s.uRead va size 1 with
            | (s, .fault f) => (s, { fault := some f })
            | (s, .page p) => s.uPage p (some d.val)
            | (s, .ok bs) =>
              match readArea bs t v tag s.now with
              | none => (s, { fault := some { code := 0x0408 } })
              | some x =>
                if !s.canLoad t v x then (s, { res := some 0xFFFFFFFFFFFFFFFF#64 })
                else match s.loadChans t x with
                  | .error _ => (s, { fault := some { code := 0x0408 } })
                  | .ok s' =>
                    if x.cursor.all (· == 0) then (s'.restoreTeam t v x none, { res := some (dw t.2) })
                    else match s'.restoreCarder (fun s va n => s.uRead va n 1) t x.cursor with
                      | (s', .inl k) => (s'.restoreTeam t v x (some k), { res := some (dw t.2) })
                      | (_, .inr (.page p)) => s.uPage p (some d.val)
                      | (_, .inr _) => (s, { fault := some { code := 0x0408 } })
        | _, _ => (s, { fault := some { code := 0x0408 } })))

end Sys2Proof.Machine
end

