-- ==== Sys2Proof/Machine/CoreSteps.lean ====
section
/-!
DEFINITION. The steps of a core that no instruction names: draws (R41), forcing (R54), starvation reports (R55, R446),
claim-deadlock (R61, R448), restart (R63, R64), the end of a run-ahead (R108), and the illegal encoding (R152, R153).
-/
namespace Sys2Proof.Machine

/-! ### Draws (R41, R42) -/

/-- When a bobbin's oldest thread was filed. -/
def Bobbin.since (b : Bobbin) : Nat := (b.threads.headD (0, 0)).2

/-- The oldest of some bobbins, the lower number on a tie. -/
def oldestBobbin (bs : List (Nat × Bobbin)) : Option (Nat × Bobbin) :=
  bs.foldl (fun (best : Option (Nat × Bobbin)) b =>
    match best with
    | none => some b
    | some x => if b.2.since < x.2.since || (b.2.since == x.2.since && decide (b.1 < x.1)) then some b else some x) none

/-- The bobbin that a draw takes from, by the three rules of R41; a stopped team's bobbins wait (R301). -/
def State.drawChoice (s : State) (c : Nat) : Option (Nat × Bobbin) :=
  let k := s.core c
  let bs := if k.halted then [] else k.bobbins.filter (fun b => (s.team (c, b.2.slot)).any (fun t => !t.saving))
  let age (b : Nat × Bobbin) : Nat := s.now - b.2.since
  (oldestBobbin (bs.filter (fun b => 4 * k.drawtime < age b))) <|>
  (oldestBobbin (bs.filter (fun b => 32 ≤ b.2.threads.length))) <|>
  (oldestBobbin (bs.filter (fun b => k.drawtime < age b)))

/-- Whether a draw may be made on a core now (R41). -/
def State.canDraw (s : State) (c : Nat) : Bool :=
  !(s.freeContexts c).isEmpty && decide ((s.core c).lastDraw = 0 ∨ (s.core c).lastDraw + 4 ≤ s.now) && (s.drawChoice c).isSome

/-- DRAW: up to 32 of the bobbin's oldest threads in a new skein (R41), then waiting threads file (R39). -/
def execDraw (core : Nat) (s : State) : Host.Outcome State Fault Refusal :=
  if Config.cores ≤ core then .fault .noSuchAgent else
  match s.drawChoice core with
  | none => .next s
  | some (n, b) =>
    if !s.canDraw core then .next s
    else
      let ws := (b.threads.take 32).map (fun x => Who.lane core b.slot x.1)
      let rest := b.threads.drop 32
      let left (bs : Table Nat Bobbin) : Table Nat Bobbin := if rest.isEmpty then bs.del n else bs.put n { b with threads := rest }
      let s := s.modCore core (fun k => { k with lastDraw := s.now, bobbins := left k.bobbins })
      .next (((s.formSkein core b.slot ws).fileAll core).wakeCore core)

/-! ### Forcing (R54) -/

/-- Clk for which a ready thread has not issued, sleep apart (R54, R213), counted from the later of its last issue and its
becoming ready (log entry 77). -/
def Thread.idleFor (t : Thread) (now : Nat) : Nat := now - (Nat.max t.lastIssue t.readySince + t.sleepIdle)

/-- Whether a thread stands in a stopped lane set of its run-ahead (R108). -/
def State.stoppedAhead (s : State) (w : Who) (t : Thread) : Bool :=
  t.runAhead.any (fun r => s.runs.any (fun x => x.id == r && x.stoppedWhos.contains w))

/-- A ready C thread that has not issued for `$starve` clk (R54); a run-ahead's lane sets issue like any other (R108). -/
def State.forceDue (s : State) (w : Who) (t : Thread) : Bool :=
  match w with
  | .walk _ => false
  | .lane c k _ =>
    t.state == .ready && !s.stoppedAhead w t && !t.forced && !(s.core c).halted && (s.team (c, k)).any (fun v => v.cls = 0 && !v.saving) &&
    (match t.stall with
      | .until _ | .events _ => false
      | _ => true) &&
    decide ((s.core c).starve ≤ t.idleFor s.now)

/-- FORCING: the thread is forced; its skein takes the next issue slot of its pipe with the thread's PC (R54). -/
def execForcing (who : Who) (s : State) : Host.Outcome State Fault Refusal :=
  .next (s.modThread who (fun t => if t.state = .ready then { t with forced := true } else t))

/-! ### Starvation (R55, R446) -/

/-- The C and P threads blocked on an object. -/
def State.blockedOn (s : State) (on : WaitOn) (mine : Who → Bool) : List Who :=
  (s.threads.filter (fun p => p.2.state = .blocked on && mine p.1 && decide (s.clsOf p.1 ≤ 1))).map (·.1)

/-- What the report of R55 needs of an object: its kind and number, its address, its last operation, the start of the wait,
whether it has been reported, and its waiters; none where it is not timed. -/
structure Timed where
  kind : Nat
  num : Nat
  addr : DWord
  last : Nat
  since : Option Nat
  reported : Bool
  waiters : List Who

/-- Whether a team of an object's signallers is saved (R301). -/
def State.savedSignaller (s : State) (t : TeamId) (gang : Bool) : Bool :=
  s.teams.any (fun p => p.2.saved && (decide (p.1 = t) || (gang && (s.team t).any (fun v => v.grid = p.2.grid))))

/-- An object as R55 times it; the parked threads of its waiters' teams are left to `timed`. -/
def State.timedObj (s : State) (t : TeamId) (o : SyncObj) : Option Timed :=
  match o with
  | .barrier n => (s.bar t n).bind (fun b =>
      if b.kind = .engine || s.savedSignaller t (b.kind = .gang) then none
      else some { kind := 0, num := n, addr := 0, last := b.lastOp, since := b.blockedSince, reported := b.reported,
                  waiters := s.blockedOn (.bar n) (s.sharesBar (b.kind = .gang) t) })
  | .channel n => (s.chan t n).bind (fun c =>
      if !c.isQueue || s.savedSignaller t (c.kind = .gang) then none
      else some { kind := 1, num := n, addr := 0, last := c.lastOp, since := c.blockedSince, reported := c.reported,
                  waiters := s.blockedOn (.chan n) (s.sharesBar (c.kind = .gang) t) })
  | .hank a => (s.hanks.find a).bind (fun h =>
      if s.savedSignaller h.owner false then none
      else some { kind := 2, num := 0, addr := h.va, last := h.lastOp, since := h.blockedSince, reported := h.reported,
                  waiters := s.blockedOn (.hank a) (fun _ => true) })

/-- Whether a thread of a team is parked (R460). -/
def State.hasParked (s : State) (t : TeamId) : Bool := s.threads.any (fun p => p.2.state = .parked && s.teamIdOf p.1 == t)

/-- An object as R55 times it: not while a thread of a waiter's team is parked (R460). -/
def State.timed (s : State) (t : TeamId) (o : SyncObj) : Option Timed :=
  (s.timedObj t o).filter (fun x => !x.waiters.any (fun w => s.hasParked (s.teamIdOf w)))

/-- A stretch of `$starve` clk has passed with waiters and no operation (R55). -/
def Timed.due (x : Timed) (now starve : Nat) : Bool :=
  !x.reported && !x.waiters.isEmpty && x.since.any (fun b => Nat.max b x.last + starve ≤ now)

/-- The object's stretch noted as reported, until its next operation. -/
def State.markReported (s : State) (t : TeamId) : SyncObj → State
  | .barrier n => s.modBar t n (fun b => { b with reported := true })
  | .channel n => s.modChan t n (fun c => { c with reported := true })
  | .hank a => { s with hanks := s.hanks.upd a (fun h => { h with reported := true }) }

/-- STARVATION: one record for the object; its waiters stay blocked (R55, R446). -/
def execStarvation (core slot : Nat) (o : SyncObj) (s : State) : Host.Outcome State Fault Refusal :=
  let t : TeamId := (core, slot)
  match s.timed t o with
  | none => .next s
  | some x =>
    if (s.core core).halted || !x.due s.now (s.core core).starve then .next s
    else .next ((s.record { code := 0x0302, sev := 1, kind := 1, index := core, slot, asid := ((s.team t).map (·.asid)).getD 0,
                            tag := s.tagOf t, addr := x.addr, info0 := dw (x.kind + x.num * 16), info1 := dw x.waiters.length }).markReported t o)

/-! ### Claim-deadlock (R61, R448) -/

/-- Whether a thread waits in `regclaim`. -/
def Thread.claiming (t : Thread) : Bool :=
  match t.state with
  | .blocked (.claim _) => true
  | _ => false

/-- Whether R61 counts a thread as blocked or held; one that waits for its first registers is blocked (R40). -/
def State.stuck (s : State) (c : Nat) (w : Who) (t : Thread) : Bool :=
  match t.state with
  | .blocked _ | .held => true
  | .filing => t.holding == 0 && (match w with
    | .lane _ slot tid => (s.core c).poolQueue.any (fun r => match r with
      | .spawn sl ti _ => sl == slot && ti == tid
      | _ => false)
    | .walk _ => false)
  | _ => false

/-- The conditions of R61 at one moment; placement is one step of this model, so no team is ever being placed. -/
def State.claimStuck (s : State) (c : Nat) : Bool :=
  let ts := s.coreThreads c
  !(s.core c).halted && ts.any (fun p => p.2.claiming) && ts.all (fun p => s.stuck c p.1 p.2) &&
  !s.cmds.any (fun k => k.team.1 = c && k.team.2 < 16)

/-- Whether a request on the pool is a `regclaim`. -/
def PoolReq.isClaim : PoolReq → Bool
  | .claim _ _ _ => true
  | .spawn _ _ _ | .skein _ => false

/-- The word of a `regclaim`, for the trap registers (R153). -/
def claimWord (t : Thread) : Word :=
  match t.state with
  | .blocked (.claim n) => ((encode (.regclaim (BitVec.ofNat 8 n))).getD []).headD 0
  | _ => 0

/-- CLAIM_DEADLOCK: after 1,024 clk every blocked `regclaim` traps, its claim withdrawn (R61, R448). -/
def execClaimDeadlock (core : Nat) (s : State) : Host.Outcome State Fault Refusal :=
  if Config.cores ≤ core then .fault .noSuchAgent else
  if !(s.claimStuck core && (s.core core).claimSince.any (fun c => c + 1024 ≤ s.now)) then .next s
  else
    let ts := (s.coreThreads core).filter (fun p => p.2.claiming)
    let s := s.record { code := 0x0403, sev := 1, kind := 1, index := core, info0 := dw ts.length, info1 := dw (s.core core).free }
    let s := s.modCore core (fun k => { k with claimSince := none, poolQueue := k.poolQueue.filter (fun r => !r.isClaim) })
    let iss := s.sys.issue
    let s := ts.foldl (fun (s : State) p =>
      let s := s.setSys { s.sys with issue := { core, ctx := p.2.ctx, lanes := [(p.2.lane, p.1)], pc := p.2.pc, w1 := claimWord p.2 } }
      if (s.thread p.1).isSome then (s.ready p.1).trapLane p.1 { code := 0x0403 } else s) s
    .next (s.setSys { s.sys with issue := iss })

/-! ### Clock gating (R63, R64) -/

/-- CORE_RESTART: 48 clk after the event that readied a thread, the core's pipes run again (R64). -/
def execCoreRestart (core : Nat) (s : State) : Host.Outcome State Fault Refusal :=
  if Config.cores ≤ core then .fault .noSuchAgent else
  .next (s.modCore core (fun k => if k.restartAt.any (· ≤ s.now) then { k with gated := false, restartAt := none } else k))

/-- Whether a thread lets its core gate: blocked, held, filed, filing, parked, or idling (R63, R299). -/
def Thread.gates (t : Thread) : Bool :=
  match t.state, t.stall with
  | .ready, .events _ => true
  | .ready, _ => false
  | _, _ => true

/-- Whether a core's clock is to be gated (R63); that of a core with no resident thread is not (log entry 79). -/
def State.gateDue (s : State) (c : Nat) : Bool :=
  let ts := s.coreThreads c
  !ts.isEmpty && !(s.core c).gated && ts.all (fun p => p.2.gates) && !s.canDraw c

/-! ### Run-aheads and illegal encodings -/

/-- RUN_AHEAD_ROLLBACK: the batch is written and every thread of the run-ahead parks at its checkpoint (R108, R110). -/
def execRunAheadRollback (id : Nat) (s : State) : Host.Outcome State Fault Refusal := .next (s.rollbackRun id)

/-- ILLEGAL_ENCODING: 0x0101 in every lane of the gang, with the fields of R153; the instruction changes nothing else
(R152). -/
def execIllegalEncoding (w1 w2 : Word) (s : State) : Host.Outcome State Fault Refusal :=
  let s := s.setSys { s.sys with issue := { s.sys.issue with w1, w2, two := isTwoWord w1 } }
  .next (s.gangRaise { code := 0x0101 })

end Sys2Proof.Machine
end

