-- ==== Sys2Proof/Machine/HostPort.lean ====
section
/-!
DEFINITION. The host port: accesses through the BARs (R92, R368), errors and the link (R491, R492), registers written by the
host (R374, R387, R390 to R395, R420), and resets (R385, R386).
-/
namespace Sys2Proof.Machine

/-! ### Accesses through the BARs (R92, R368) -/

/-- The location of a host access, none where the offset is unpopulated (R66, R368). -/
def barLoc (bar off n : Nat) : Option Nat :=
  if bar = 2 then (if off + n ≤ Config.hbmEnd then some off else none)
  else if bar = 4 then (if off + n ≤ Config.cores * Config.sliceBytes then some (Config.tileBase + off) else none)
  else none

/-- The record of an access to an unpopulated offset (R368, R488). -/
def State.hostUnpopulated (s : State) (addr : Nat) (info0 : DWord) : State :=
  s.record { code := 0x0E05, sev := 1, kind := 9, addr := dw addr, info0 }

/-- Whether the host's key slot is missing for a location (R305, R391). -/
def State.hostKeyless (s : State) (loc : Nat) : Bool := isHbm loc && (s.mem.keys.find s.plat.hkSlot).isNone

/-- Every line that a byte range touches poisoned, with the record of R491. -/
def State.poisonLines (s : State) (loc n : Nat) : State :=
  (List.range ((loc + n - 1) / 64 - loc / 64 + 1)).foldl (fun (s : State) i => s.poisonDetected 9 0 ((loc / 64 + i) * 64)) s

/-- A write of bytes to control registers, aligned word by aligned word (R66). -/
def State.ctlBytes (s : State) (off : Nat) (bs : List Byte) : Nat → State
  | 0 => s
  | fuel + 1 =>
    if bs.isEmpty then s else
    let n := 8 - off % 8
    (s.ctlWrite true off (bs.take n)).ctlBytes (off + n) (bs.drop n) fuel

/-- HOST_MEMORY_WRITE: a posted write performed at its home when it arrives, in the order of arrival; EP poisons its lines (R92,
R368, R414, R425, R491). -/
def execHostMemoryWrite (bar off : Nat) (bytes : List Byte) (ep : Bool) (s : State) : Host.Outcome State Fault Refusal :=
  if !s.plat.linkUp || s.plat.off || bytes.isEmpty then .next s
  else if bar = 0 then .next (s.ctlBytes off bytes (bytes.length + 1))
  else match barLoc bar off bytes.length with
    | none => .next (s.hostUnpopulated off 1)
    | some l =>
      if !s.plat.ready || s.fencedLoc l then .next s
      else if s.hostKeyless l then .next (s.record { code := 0x1004, sev := 1, kind := 9, addr := dw off, info0 := 1 })
      else
        let s := s.write {} s.plat.hkSlot l bytes
        .next (if ep then s.poisonLines l bytes.length else s)

/-- A completion of a host read: its bytes, and whether it carries EP (R424). -/
def State.hostReply (s : State) (bs : List Byte) (ep : Bool) : State := s.setPlat { s.plat with reply := bs, replyPoison := ep }

/-- HOST_MEMORY_READ: a read performed at its home; all ones where nothing stands, or before bring-up is done (R92, R368,
R386). -/
def execHostMemoryRead (bar off n : Nat) (s : State) : Host.Outcome State Fault Refusal :=
  let ones := List.replicate n (0xFF#8)
  if !s.plat.linkUp || s.plat.off then .next s
  else if bar = 0 then .next (s.hostReply ((List.range n).flatMap (fun i => s.ctlRead (off + i) 1)) false)
  else if !s.plat.ready then .next (s.hostReply ones false)
  else match barLoc bar off n with
    | none => .next ((s.hostUnpopulated off 0).hostReply ones false)
    | some l =>
      if s.hostKeyless l then .next ((s.record { code := 0x1004, sev := 1, kind := 9, addr := dw off }).hostReply ones false)
      else
        let r := s.hostView s.plat.hkSlot l n
        .next (r.1.hostReply r.2 (s.fencedLoc l || s.mem.poisoned l n))

/-! ### Errors and the link (R491, R492) -/

/-- PCIE_UNSUPPORTED_REQUEST: Unsupported Request, one record, no change of state (R491). -/
def execPcieUnsupportedRequest (addr : DWord) (s : State) : Host.Outcome State Fault Refusal :=
  .next (s.record { code := 0x0E05, sev := 1, kind := 9, addr })

/-- PCIE_ERROR: reported through AER, with the same record and the status bit's number (R491). -/
def execPcieError (aerBit : Nat) (s : State) : Host.Outcome State Fault Refusal :=
  .next (s.record { code := 0x0E05, sev := 1, kind := 9, info0 := dw aerBit })

/-- HOST_LINK_DOWN: recorded once; host rings stop at their next read, and messages are dropped (R492). -/
def execHostLinkDown (s : State) : Host.Outcome State Fault Refusal :=
  if !s.plat.linkUp then .next s
  else .next ((s.setPlat { s.plat with linkUp := false }).record { code := 0x0E04, sev := 3, kind := 9 })

/-- HOST_LINK_RETRAINED: the link returns to DL_Active (R492). -/
def execHostLinkRetrained (s : State) : Host.Outcome State Fault Refusal := .next (s.setPlat { s.plat with linkUp := true })

/-! ### Registers that the host writes -/

/-- SUPERVISOR_MAILBOX: a host store to word 0x38 of the supervisor mailbox sets `ev.mbox` (R374). -/
def execSupervisorMailbox (v : DWord) (s : State) : Host.Outcome State Fault Refusal :=
  .next (s.ctlWrite true 0x1038 (bytesOf 8 v.toNat))

/-- KSEED_LOCK (R392). -/
def execKseedLock (s : State) : Host.Outcome State Fault Refusal := .next s.lockKseed
/-- PRIV_LOCK (R394). -/
def execPrivLock (s : State) : Host.Outcome State Fault Refusal := .next (s.setPlat { s.plat with lkPriv := true })
/-- CORE_RESUME (R300, R393). -/
def execCoreResume (core : Nat) (s : State) : Host.Outcome State Fault Refusal :=
  if Config.cores ≤ core then .fault .noSuchAgent else .next (s.resumeCore core)
/-- EQ_HEAD_WRITE (R420). -/
def execEqHeadWrite (n : Fin 4) (v : BitVec 32) (s : State) : Host.Outcome State Fault Refusal :=
  .next ((s.ackQueue n.val v.toNat).getD s)
/-- BQ_HEAD_WRITE (R395). -/
def execBqHeadWrite (v : BitVec 16) (s : State) : Host.Outcome State Fault Refusal := .next (s.batchHead v.toNat)
/-- REGISTER_WRITE: a host write of 1 to 8 bytes in the control space (R4, R9, R66). -/
def execRegisterWrite (off size : Nat) (v : DWord) (s : State) : Host.Outcome State Fault Refusal :=
  if size = 0 ∨ 8 < size then .next s else .next (s.ctlBytes off (bytesOf size v.toNat) (size + 1))

/-- DOMAIN_JOIN: the link is taken into the domain, or a plane that knows the id refuses it (R375, R387). No rule gives the
record's code: its detail is a free value. -/
def execDomainJoin (refused : Bool) (members : List Nat) (s : State) : Host.Outcome State Fault Refusal :=
  let s := s.domEnable
  if refused then
    .next (((s.setDom { s.dom with members := [] }).record
      { code := 0x0D01 + (Config.freeValue s.sys.free).toNat % 255, sev := 1, kind := 0 }).tickFree)
  else .next ((s.setPlat { s.plat with msDom := true }).setDom { s.dom with members, lost := [] })

/-! ### Resets (R385, R386) -/

/-- WARM_RESET (R385). -/
def execWarmReset (s : State) : Host.Outcome State Fault Refusal := .next s.warmReset

/-- COLD_RESET: power applied; `ms.trip` is kept and HBM is not cleared, and bring-up runs, whose step 2 trains the link
(R385, R386, R393). -/
def execColdReset (s : State) : Host.Outcome State Fault Refusal :=
  let n := s.plat.resets + 1
  let failed := bootStep n
  let r := State.resetNumber n failed
  .next { r with
    mem := { r.mem with cells := s.mem.hbm, lineKeys := s.mem.lineKeys },
    plat := { r.plat with trip := s.plat.trip, linkUp := failed = 0 ∨ 2 < failed } }

/-- Every rail but `vdd_aon` removed: all state is lost but `ms.trip` (R380, R384, R385); a thermal trip asserts the
`therm_trip_n` pin. -/
def State.powerOff (s : State) (trip : Bool) : State :=
  let r := State.resetNumber s.plat.resets 1
  r.setPlat { r.plat with boot := 0, trip := s.plat.trip || trip, thermTrip := s.plat.thermTrip || trip, off := true, ready := false, linkUp := false }

/-- POWER_DOWN (R385). -/
def execPowerDown (s : State) : Host.Outcome State Fault Refusal := .next (s.powerOff false)

end Sys2Proof.Machine
end

