-- ==== Sys2Proof/Machine/Domain.lean ====
section
/-!
DEFINITION. The Eorex domain: collective rounds (R281, R377, R378, R496 to R498), accesses of other devices to this one's
memory (R376), coherent lines across devices (R93, R379, R463, R464), ports and lost devices (R493 to R495).
-/
namespace Sys2Proof.Machine

/-! ### Starting a round (R281, R377) -/

/-- The devices that a mask of `cd.members` names. -/
def membersOf (mask : Nat) : List Nat := (List.range 288).filter (fun d => mask.testBit d)

/-- The element types of a reduction (R377). -/
def collTypeOk (t : Ty) : Bool :=
  match t with
  | .f32 | .bf16 | .i64 => true
  | _ => false

/-- A collective descriptor; none where R377 calls it malformed. `dev` is the issuing device. -/
def collOf (dev : Nat) (bs : List Byte) : Option CollOp :=
  let w := dwordsOf bs 0
  let op := dfield w 3 0
  let k := dfield w 31 16
  let ty := dfield w 11 8
  let count := dfield (dwordsOf bs 0x18) 31 0
  let mask := numOfBytes ((bs.drop 0x20).take 40)
  let ms := membersOf mask
  let shape := if op = 4 then 1 ≤ k ∧ k ≤ 1024 ∧ ty = 0 ∧ count = 0
    else 1 ≤ op ∧ op ≤ 3 ∧ k = 0 ∧ collTypeOk (tyOf ty) = true ∧ 1 ≤ count ∧ count ≤ 2 ^ 24
  if shape ∧ dfield w 15 12 = 0 ∧ dfield w 7 4 = 0 ∧ dfield w 47 32 ≠ 0 ∧ dfield (dwordsOf bs 0x18) 63 32 = 0 ∧
      mask < 2 ^ 288 ∧ dev ∈ ms ∧ 2 ≤ ms.length ∧ dfield (dwordsOf bs 0x48) 63 16 = 0 ∧
      (bs.drop 0x50).all (· == 0) = true then
    some { group := dfield (dwordsOf bs 0x48) 15 0, round := dfield w 63 48, op,
           ty := if op = 4 then none else some (tyOf ty), k, tmo := dfield w 47 32, src := dwordsOf bs 8,
           dst := dwordsOf bs 0x10, count, members := ms }
  else none

/-- The live rounds of the device, each with its command. -/
def State.rounds (s : State) : List (Cmd × CollOp) :=
  s.cmds.filterMap (fun c => match c.op with
    | .coll r => some (c, r)
    | _ => none)

/-- The lowest free one of the 16 round slots (R239). -/
def State.freeRound (s : State) : Option Nat :=
  (List.range 16).find? (fun n => s.cmds.all (fun c => c.engine != .round n))

/-- Whether a round's buffers lie on this device (R377). -/
def State.ownBuffers (s : State) (c : Cmd) : Bool :=
  (s.pieces c .engRead (s.srcRanges c)).all (fun p => !isRemote p.loc) &&
    (s.pieces c .engWrite (s.dstRanges c)).all (fun p => !isRemote p.loc)

def collRefused : State → State × UOut := fun s => (s, { fault := some { code := 0x0D02 } })

/-- `coll.start kA` (R281). -/
def execCollStart (cf : BitVec 16) (a : Fin 64) (s : State) : Host.Outcome State Fault Refusal :=
  .next (s.runU [.k a] none (fun s vs =>
    let va := vs.getD 0 0
    if va.toNat % 128 ≠ 0 then collRefused s
    else match s.uRead va 128 1 with
      | (s, .fault f) => (s, { fault := some f })
      | (s, .page p) => s.uPage p none
      | (s, .ok bs) =>
        match collOf s.dom.dev bs, s.freeRound with
        | some r, some slot =>
          let c := s.mkCmd s.issueTeam (.round slot) (.coll r) (cfOf cf.toNat)
          if s.rounds.any (fun x => x.2.group == r.group && x.2.round == r.round) || !s.ownBuffers c then collRefused s
          else match s.cmdRefused c with
            | some f => (s, { fault := some f })
            | none => (s.issueRelease.enqueue c, {})
        | _, _ => collRefused s))

/-! ### The result of a round (R378) -/

/-- The members' element codes combined. -/
def collElement (op : Nat) (t : Ty) (xs : List Nat) : Nat :=
  match tyFmt t, xs with
  | _, [] => 0
  | some F, x :: rest =>
    if op = 1 then
      let r := rest.foldl (fun (acc : FVal) y => (acc.add .rne (F.decode y)).1) (F.decode x)
      (F.finish .rne false (r, 0)).1
    else rest.foldl (fun acc y => (F.minMax (op == 3) acc y).1) x
  | none, x :: rest =>
    rest.foldl (fun acc y =>
      if op = 1 then (acc + y) % 2 ^ 64
      else if (signedOf 64 y < signedOf 64 acc) == (op == 2) then y else acc) x

/-- One entry of a top-k result: its ranking key and its 16 bytes. -/
def collEntries (k : Nat) (bs : List Byte) : List ((DistVal × Nat) × List Byte) :=
  (List.range (Nat.min k (dfield (dwordsOf bs 0) 31 0))).map (fun i =>
    let e := (bs.drop (16 + 16 * i)).take 16
    ((distOf (f32F.decode (dfield (dwordsOf e 8) 31 0)), dfield (dwordsOf e 0) 47 0), e))

/-- The top-k merge (R378). -/
def collTopK (k : Nat) (srcs : List (List Byte)) : List Byte :=
  let es := (sortBy (fun a b => !ranksAbove b.1 a.1) (srcs.flatMap (collEntries k))).take k
  let cand := Nat.min (sumOf (srcs.map (fun b => dfield (dwordsOf b 0) 63 32))) (2 ^ 32 - 1)
  let empty := bytesOf 8 (2 ^ 48 - 1) ++ bytesOf 8 0x7F800000
  padTo (resultBytes k) 0 (bytesOf 8 (cand * 2 ^ 32 + es.length) ++ bytesOf 8 k ++ es.flatMap (·.2) ++
    (List.replicate (k - es.length) empty).flatten)

/-- The result that every member receives (R378). -/
def CollOp.result (r : CollOp) (srcs : List (List Byte)) : List Byte :=
  match r.ty with
  | some t =>
    let n := storageBits t / 8
    (List.range r.count).flatMap (fun i =>
      bytesOf n (collElement r.op t (srcs.map (fun b => numOfBytes ((b.drop (n * i)).take n)))))
  | none => collTopK r.k srcs

/-- COLLECTIVE_DELIVERY: the round's result, from this device's source and the other members', reaches the destination;
the command then completes (R378). -/
def execCollectiveDelivery (group round : Nat) (contribs : List (List Byte)) (s : State) : Host.Outcome State Fault Refusal :=
  match s.rounds.find? (fun x => x.2.group = group && x.2.round = round && x.1.stage == 1) with
  | some (c, r) =>
    if contribs.length + 1 = r.members.length ∧ contribs.all (fun b => b.length == r.bytes) = true then
      .next ((s.modCmd c.id (fun c => { c with stage := 2, image := r.result (c.image :: contribs) })).due [.commandComplete c.id])
    else .next s
  | none => .next s

/-! ### Rounds that abort (R496, R497) -/

/-- A round aborts at one instant: where this device has issued it and it has not been delivered, its command ends. -/
def State.abortRound (s : State) (group round code mask : Nat) : State :=
  let s := s.setDom { s.dom with aborted := s.dom.aborted.put group (round, code, mask) }
  match s.rounds.find? (fun x => x.2.group = group && x.2.round = round && decide (x.1.stage ≤ 1)) with
  | some (c, r) =>
    ((s.abortCmd c).modCmd c.id (fun c => { c with info0 := r.info0, info1 := mask })).due [.commandEnd c.id (BitVec.ofNat 16 code) 0]
  | none => s

/-- COLLECTIVE_TIMEOUT: `cd.tmo` expired after the first contribution (R378, R496). -/
def execCollectiveTimeout (group round : Nat) (mask : DWord) (s : State) : Host.Outcome State Fault Refusal :=
  .next (s.abortRound group round 0x0D01 mask.toNat)

/-- COLLECTIVE_ABORT: the round aborts with the code of its cause (R494 to R497). -/
def execCollectiveAbort (group round : Nat) (code : BitVec 16) (mask : DWord) (s : State) : Host.Outcome State Fault Refusal :=
  .next (s.abortRound group round code.toNat mask.toNat)

/-! ### Accesses of other devices (R376, R501) -/

/-- Whether the device answers the Eorex link (R501). -/
def State.answers (s : State) : Bool := !s.plat.stopped && !s.plat.off && s.plat.ready

/-- What this device last answered another: a fault code, or 0 with a load's or atomic's bytes. -/
def State.domReply (s : State) (code : Nat) (bs : List Byte) : State :=
  s.setDom { s.dom with replyCode := code, reply := bs }

/-- REMOTE_ACCESS: a load, store, atomic or compare-and-swap of another device is performed at its home here, with the home's checks (R69,
R376, R450 steps 8 to 12). -/
def execRemoteAccess (dev pa size : Nat) (key : Fin 64) (k : RemoteKind) (s : State) : Host.Outcome State Fault Refusal :=
  if !s.answers || s.dom.lost.contains dev then .next s
  else match s.loc pa with
    | none => .next (s.domReply 0x0503 [])
    | some loc =>
      if !isHbm loc && !isTile loc then .next (s.domReply 0x0503 [])
      else
        let kind : AccKind := match k with
          | .load => .load
          | .store _ => .store
          | .atom .. | .cas .. => .atomic
        let a : Access := { core := Config.cores, team := (Config.cores, 0), unit := .core 0, asid := 0, root := 0, grid := none,
                            user := false, kind, va := dw pa, size, align := size }
        match s.checkHome a { loc, key := key.val } with
        | some f => .next (s.domReply f.code [])
        | none =>
          let old := s.mem.read key.val loc size
          let s := s.arrived
          match k with
          | .load => .next (s.domReply 0 old)
          | .store bs => .next ((s.write { far := true } key.val loc (bs.take size)).domReply 0 [])
          | .cas t x v =>
            .next ((if numOfBytes old = x.toNat % 2 ^ t.bits then s.write { far := true } key.val loc (bytesOf size (v.toNat % 2 ^ t.bits))
              else s).domReply 0 old)
          | .atom op t v =>
            match (atomNew op t (numOfBytes old) v.toNat).1 with
            | some n => .next ((s.write { far := true } key.val loc (bytesOf size n)).domReply 0 old)
            | none => .next (s.domReply 0 old)

/-! ### Coherent lines (R93, R379, R463, R464) -/

/-- DIRECTORY_REQUEST: another device's request for a line homed here, handled in arrival order (R379). -/
def execDirectoryRequest (dev line : Nat) (store : Bool) (s : State) : Host.Outcome State Fault Refusal :=
  if !s.answers || s.dom.lost.contains dev then .next s else .next (s.dirRequest dev line store)

/-- SNOOP: this device, the owner of another's line, writes it back and keeps a copy or drops it (R379). -/
def execSnoop (line : Nat) (keep : Bool) (s : State) : Host.Outcome State Fault Refusal :=
  if !s.answers then .next s
  else match s.dom.held.find line with
    | some _ => .next (s.setDom { s.dom with held := if keep then s.dom.held.put line false else s.dom.held.del line })
    | none => .next s

/-- INVALIDATION: this device's copy of another's line goes, and it acknowledges (R379). -/
def execInvalidation (line : Nat) (s : State) : Host.Outcome State Fault Refusal :=
  if !s.answers then .next s else .next (s.setDom { s.dom with held := s.dom.held.del line })

/-- The record of an owner-lost line (R463, R464). -/
def State.ownerLostRecord (s : State) (line owner answered : Nat) : State :=
  s.record { code := 0x0D04, sev := 3, kind := 0, addr := dw (line * 64), phys := true, info0 := dw owner, info1 := dw answered }

/-- SNOOP_REPLY: the owner's write-back reaches the home, which serves the line's requests; from a lost owner it is
discarded (R379, R464). -/
def execSnoopReply (line : Nat) (data : List Byte) (s : State) : Host.Outcome State Fault Refusal :=
  if !s.answers then .next s
  else
    let e := s.dirEntry line
    if e.ownerLost then .next (s.ownerLostRecord line e.lostOwner 0)
    else match e.owner with
      | none => .next s
      | some o =>
        let m := { s.mem with cells := cellPuts s.mem.cells (line * 64) (data.take 64), poison := s.mem.poison.filter (· != line) }
        let keep := (e.waiting.head?).any (fun w => !w.2)
        .next (((s.setMem m).setDir line
          { e with owner := none, snooped := none, copies := if keep then addOnce e.copies o else e.copies }).dirRun line)

/-- The steps of R463 for a line whose owner does not answer. -/
def State.loseOwner (s : State) (line owner : Nat) : State :=
  let e := s.dirEntry line
  let s := s.setMem (s.mem.poisonLine line)
  let s := s.setDir line { ownerLost := true, lostOwner := owner }
  (s.ownerLostRecord line owner e.waiting.length).grantThreads line

/-- The clk of 20 µs after which a snoop counts as unanswered (R463). -/
def snoopPatience : Nat := 50000

/-- SNOOP_TIMEOUT (R463). -/
def execSnoopTimeout (line : Nat) (s : State) : Host.Outcome State Fault Refusal :=
  let e := s.dirEntry line
  match e.owner, e.snooped with
  | some o, some t => if t + snoopPatience ≤ s.now then .next (s.loseOwner line o) else .next s
  | _, _ => .next s

/-! ### Ports and lost devices (R413, R414, R493 to R495) -/

/-- A port fenced (R414, R493); a port already fenced stays so. -/
def State.fencePort (s : State) (port retries : Nat) : State :=
  if s.plat.fsPort.contains port then s
  else
    let s := s.setPlat { s.plat with fsPort := insertNat s.plat.fsPort port }
    (s.setDom { s.dom with portDown := insertNat s.dom.portDown port }).record
      { code := 0x0F04, sev := 4, kind := 8, index := port, info0 := dw retries }

/-- EOREX_PORT_FAILURE: 256 failed retries, or a lost link, fence the port (R413, R493, R494). -/
def execEorexPortFailure (port retries : Nat) (s : State) : Host.Outcome State Fault Refusal :=
  if 18 ≤ port then .fault .noSuchAgent else .next (s.fencePort port retries)

/-- A line homed here once device d is lost: owned by d, it takes the steps of R463; d's copy and requests are dropped. -/
def State.loseLine (s : State) (d line : Nat) : State :=
  let e := s.dirEntry line
  if e.owner = some d then s.loseOwner line d
  else (s.setDir line { e with copies := e.copies.filter (· != d), waiting := e.waiting.filter (fun w => w.1 != d) }).dirRun line

/-- DEVICE_LOSS_NOTICE (R495): one record, the lines and copies of the lost device, and every round it is a member of. The
mask of contributions that reached the root is the switches' to tell: a free value. -/
def execDeviceLossNotice (dev : Nat) (s : State) : Host.Outcome State Fault Refusal :=
  if s.dom.lost.contains dev || dev == s.dom.dev then .next s
  else
    let s := s.setDom { s.dom with lost := insertNat s.dom.lost dev,
                                   held := s.dom.held.filter (fun h => remoteDev (h.1 * 64) != dev) }
    let s := s.record { code := 0x0D06, sev := 4, kind := 0, info0 := dw dev }
    let s := (s.dom.dir.map (·.1)).foldl (fun (s : State) l => s.loseLine dev l) s
    .next ((s.rounds.filter (fun x => x.2.members.contains dev && decide (x.1.stage ≤ 1))).foldl (fun (s : State) x =>
      s.tickFree.abortRound x.2.group x.2.round 0x0D07 (Config.freeValue s.sys.free).toNat) s)

end Sys2Proof.Machine
end

