-- ==== Sys2Proof/Machine/Lanes.lean ====
section
/-!
DEFINITION. Predicate and cross-lane instructions (spec/07_lane_instructions.md, R187 to R192).
-/
namespace Sys2Proof.Machine

/-! ### Predicates (R187) -/

/-- `pmov pN, a` (R187). -/
def execPmovFromReg (n : Fin 8) (a : Src) (s : State) : Host.Outcome State Fault Refusal :=
  .next (s.runPure { srcs := [(a, false)], pdst := some n.val } (fun _ l => { pred := some (n.val, l.w 0 != 0) }))
/-- `pmov d, pN` (R187). -/
def execPmovToReg (d : Dst) (n : Fin 8) (s : State) : Host.Outcome State Fault Refusal :=
  .next (s.runPure { dst := some (d, false), preds := [n.val] } (fun _ l => { res := some (if l.t.pred n.val then 1 else 0) }))

/-- One predicate set from others (R187). -/
def State.predOp (s : State) (n : Fin 8) (ps : List (Fin 8)) (f : Thread → Bool) : State :=
  s.runPure { preds := ps.map (·.val), pdst := some n.val } (fun _ l => { pred := some (n.val, f l.t) })

/-- `pmov pN, pM` (R187). -/
def execPmovPred (n m : Fin 8) (s : State) : Host.Outcome State Fault Refusal := .next (s.predOp n [m] (fun t => t.pred m.val))
/-- `pnot` (R187). -/
def execPnot (n m : Fin 8) (s : State) : Host.Outcome State Fault Refusal := .next (s.predOp n [m] (fun t => !t.pred m.val))
/-- `pand` (R187). -/
def execPand (n m k : Fin 8) (s : State) : Host.Outcome State Fault Refusal :=
  .next (s.predOp n [m, k] (fun t => t.pred m.val && t.pred k.val))
/-- `por` (R187). -/
def execPor (n m k : Fin 8) (s : State) : Host.Outcome State Fault Refusal :=
  .next (s.predOp n [m, k] (fun t => t.pred m.val || t.pred k.val))
/-- `pxor` (R187). -/
def execPxor (n m k : Fin 8) (s : State) : Host.Outcome State Fault Refusal :=
  .next (s.predOp n [m, k] (fun t => t.pred m.val != t.pred k.val))

/-! ### Exchanges (R188 to R190) -/

/-- The offset of an exchange for W = 32 (R188). -/
def LaneOff.value : LaneOff → Nat
  | .const n => n.val
  | .width n => skeinWidth / 2 ^ n.val
  | .widthLess1 n => skeinWidth / 2 ^ n.val - 1

/-- Each lane receives a of the lane it reads, or its own where that lane is not in the gang (R188). -/
def State.exchange (s : State) (d : Dst) (srcs : List Src) (pick : LaneIn → Nat) : State :=
  s.runLanes { srcs := srcs.map (·, false), dst := some (d, false), cross := true } (fun s ls =>
    (s, ls.map fun l =>
      let from_ := (ls.find? (fun x => x.lane = pick l)).getD l
      let idxKnown := ((srcs.drop 1).flatMap (fun x => Src.regs x false)).all (fun n => !l.t.unkRegs.contains n)
      let valKnown := ((srcs.take 1).flatMap (fun x => Src.regs x false)).all (fun n => !from_.t.unkRegs.contains n)
      { res := some ((from_.w 0).setWidth 64), known := idxKnown && valKnown }))

/-- `lperm` (R189). -/
def execLperm (d : Dst) (a b : Src) (s : State) : Host.Outcome State Fault Refusal :=
  .next (s.exchange d [a, b] (fun l => (l.w 1).toNat % skeinWidth))
/-- `lrot` (R189). -/
def execLrot (d : Dst) (a : Src) (o : LaneOff) (s : State) : Host.Outcome State Fault Refusal :=
  .next (s.exchange d [a] (fun l => (l.lane + LaneOff.value o) % skeinWidth))
/-- `lxor` (R189). -/
def execLxor (d : Dst) (a : Src) (o : LaneOff) (s : State) : Host.Outcome State Fault Refusal :=
  .next (s.exchange d [a] (fun l => (l.lane ^^^ (LaneOff.value o % skeinWidth)) % skeinWidth))
/-- `lbcast` (R189). -/
def execLbcast (d : Dst) (a : Src) (o : LaneOff) (s : State) : Host.Outcome State Fault Refusal :=
  .next (s.exchange d [a] (fun _ => LaneOff.value o % skeinWidth))

/-- A mask over the lanes of the gang (R190). -/
def State.vote (s : State) (d : Dst) (a : Src) (f : LaneIn → LaneIn → Bool) : State :=
  s.runLanes { srcs := [(a, false)], dst := some (d, false), cross := true } (fun s ls =>
    (s, ls.map fun l => { res := some (dw (maskOfLanes ((ls.filter (f l)).map (·.lane)))), known := ls.all (·.known) }))
where
  /-- Bit l for each lane l listed. -/
  maskOfLanes (ls : List Nat) : Nat := ls.foldl (fun m l => m ||| 2 ^ l) 0

/-- `lballot` (R190). -/
def execLballot (d : Dst) (a : Src) (s : State) : Host.Outcome State Fault Refusal :=
  .next (s.vote d a (fun _ j => j.w 0 != 0))
/-- `lmatch` (R190). -/
def execLmatch (d : Dst) (a : Src) (s : State) : Host.Outcome State Fault Refusal :=
  .next (s.vote d a (fun l j => j.w 0 == l.w 0))

/-! ### Reductions and scans (R191, R192) -/

/-- combine of two present values (R191). -/
def combineVals (op : RedOp) (t : Ty) (m : RMode) (sat : Bool) (x y : Nat) : Nat × Flags :=
  match op with
  | .add => exactOp { ty := t, pk := .one, rc := { mode := .dyn, sat } } (fun v => intAt v 0 + intAt v 1)
      (fun m v => FVal.add m (FVal.at v 0) (FVal.at v 1)) m [x, y]
  | .min => minMaxElem t false [x, y]
  | .max => minMaxElem t true [x, y]
  | .and => (x &&& y, 0)
  | .or => (x ||| y, 0)
  | .xor => (x ^^^ y, 0)

/-- combine with absent values (R191). -/
def combineOpt (f : Nat → Nat → Nat × Flags) : Option Nat → Option Nat → Option Nat × Flags
  | none, y => (y, 0)
  | x, none => (x, 0)
  | some x, some y => let r := f x y; (some r.1, r.2)

/-- One value of each of the W lanes with the flags of its own path so far. -/
abbrev LaneVals := List (Option Nat × Flags)

/-- The step of the reduction tree over bit j (R191). -/
def redStep (f : Nat → Nat → Nat × Flags) (v : LaneVals) (j : Nat) : LaneVals :=
  (List.range skeinWidth).map (fun l =>
    let lo := if l / 2 ^ j % 2 = 1 then l - 2 ^ j else l
    let r := combineOpt f (v.getD lo (none, 0)).1 (v.getD (lo + 2 ^ j) (none, 0)).1
    (r.1, (v.getD l (none, 0)).2 ||| r.2))

/-- The step of the inclusive scan over distance 2^j (R192). -/
def scanStep (f : Nat → Nat → Nat × Flags) (v : LaneVals) (j : Nat) : LaneVals :=
  (List.range skeinWidth).map (fun l =>
    if 2 ^ j ≤ l then
      let r := combineOpt f (v.getD (l - 2 ^ j) (none, 0)).1 (v.getD l (none, 0)).1
      (r.1, (v.getD l (none, 0)).2 ||| r.2)
    else v.getD l (none, 0))

/-- The values of the gang in lane order, absent elsewhere. -/
def laneVals (ls : List LaneIn) (w : Nat) : LaneVals :=
  (List.range skeinWidth).map (fun l => ((ls.find? (fun x => x.lane = l)).map (fun x => (x.v 0).toNat % 2 ^ w), 0))

/-- The identity of an operation (R192). -/
def redIdentity (op : RedOp) (t : Ty) : Nat :=
  match op, tyFmt t with
  | .add, none => 0
  | .add, some F => F.signBit
  | .min, none => wrapTo t.bits (intMax t.isSigned t.bits)
  | .min, some F => F.infCode
  | .max, none => wrapTo t.bits (intMin t.isSigned t.bits)
  | .max, some F => F.signed true F.infCode
  | .and, _ => 2 ^ t.bits - 1
  | .or, _ | .xor, _ => 0

/-- The mode of the first lane's thread: one gang is of one team. -/
def State.gangMode (s : State) (m : RMode) : RMode := s.roundMode s.leader m

/-- `lred` (R191). -/
def execLred (op : RedOp) (t : Ty) (rc : Rc) (d : Dst) (a : Src) (s : State) : Host.Outcome State Fault Refusal :=
  .next (s.runLanes { srcs := [(a, t.wide)], dst := some (d, t.wide), cross := true } (fun s ls =>
    let f := combineVals op t (s.gangMode rc.mode) rc.sat
    let v := (List.range 5).foldl (redStep f) (laneVals ls t.bits)
    (s, ls.map fun l =>
      let r := v.getD l.lane (none, 0)
      { res := some (dw (r.1.getD 0)), fl := r.2, known := ls.all (·.known) })))

/-- `lscan` (R192). -/
def execLscan (op : RedOp) (excl : Bool) (t : Ty) (rc : Rc) (d : Dst) (a : Src) (s : State) :
    Host.Outcome State Fault Refusal :=
  .next (s.runLanes { srcs := [(a, t.wide)], dst := some (d, t.wide), cross := true } (fun s ls =>
    let f := combineVals op t (s.gangMode rc.mode) rc.sat
    let v := (List.range 5).foldl (scanStep f) (laneVals ls t.bits)
    (s, ls.map fun l =>
      let below := (ls.filter (fun x => x.lane < l.lane)).getLast?
      if excl then
        match below with
        | some b =>
          let r := v.getD b.lane (none, 0)
          { res := some (dw (r.1.getD 0)), fl := r.2, known := ls.all (fun x => x.known || b.lane < x.lane) }
        | none => { res := some (dw (redIdentity op t)) }
      else
        let r := v.getD l.lane (none, 0)
        { res := some (dw (r.1.getD 0)), fl := r.2, known := ls.all (fun x => x.known || l.lane < x.lane) })))

end Sys2Proof.Machine
end

