-- ==== Sys2Proof/Machine/Platform.lean ====
section
/-!
DEFINITION. The power controller and the failures of units: power and temperature samples (R381, R384), scrubbing (R423, R427),
fences (R413, R414, R487), and the stop of the device (R413, R418, R501).
-/
namespace Sys2Proof.Machine

/-! ### Power and temperature (R380, R381, R384) -/

/-- Whether an event limited to once per so many clk may happen now. -/
def spaced (last : Option Nat) (gap now : Nat) : Bool := last.all (fun t => t + gap ≤ now)

/-- The issue fraction after a sample (R381, R384): `sum` is the power of n samples added up. -/
def Plat.throttle (p : Plat) (sum n now : Nat) : Plat :=
  if (p.pwLim * n < sum || p.hotDie) && spaced p.lastFall 25000 now && decide (1 < p.pwFrac) then
    { p with pwFrac := p.pwFrac - 1, lastFall := some now }
  else if sum + 50 * n < p.pwLim * n && !p.hotDie && spaced p.lastRise 250000 now && decide (p.pwFrac < 16) then
    { p with pwFrac := p.pwFrac + 1, lastRise := some now }
  else p

/-- POWER_SAMPLE: one sample of every rail, each µs; the average is over the last 1,000 samples. Each rail outside its band is
recorded under a code that no rule gives (R380, R381). -/
def execPowerSample (pkgW coreA : Nat) (badRails : List (Fin 7)) (s : State) : Host.Outcome State Fault Refusal :=
  if s.plat.off then .next s
  else
    let samples := (pkgW :: s.plat.samples).take 1000
    let sum := sumOf samples
    let p := ({ s.plat with samples, pwAvg := Nat.min (sum / samples.length) 65535 }).throttle sum samples.length s.now
    let s := s.setPlat (if 4000 < coreA then { p with pwFrac := Nat.min p.pwFrac 8 } else p)
    .next (badRails.foldl (fun (s : State) _ => (s.record { code := freeCode s.sys.free, sev := 1, kind := 13 }).tickFree) s)

/-- TEMPERATURE_SAMPLE: the sensors of the clusters and of the base dies, each 10 µs (R384). -/
def execTemperatureSample (clusters stks : List Nat) (s : State) : Host.Outcome State Fault Refusal :=
  if s.plat.off then .next s
  else if clusters.any (fun t => decide (115 < t)) || stks.any (fun t => decide (105 < t)) then .next (s.powerOff true)
  else
    .next (s.setPlat { s.plat with
      tpCore := Nat.min (clusters.foldl Nat.max 0) 255, tpStack := Nat.min (stks.foldl Nat.max 0) 255,
      hotDie := clusters.any (fun t => decide (100 < t)),
      hotStacks := (List.range stks.length).filter (fun i => decide (95 < stks.getD i 0)) })

/-! ### Scrubbing (R413, R423, R426, R427) -/

/-- Distinct lines of a slice with uncorrectable errors within the last second, the new one among them. -/
def sliceLines (old : List (Nat × Nat)) (line now : Nat) : List (Nat × Nat) :=
  (line, now) :: old.filter (fun x => x.1 != line && decide (now < x.2 + 2500000000))

/-- SCRUB: the verification of a stored line; 16 lines of one slice in a second fence it. -/
def execScrub (pa : Nat) (found : Soundness) (s : State) : Host.Outcome State Fault Refusal :=
  match s.loc pa with
  | none => .next s
  | some loc =>
    if (!isHbm loc && !isTile loc) || s.plat.off then .next s
    else
      let u := memUnit loc
      match found with
      | .sound => .next s
      | .correctable => .next (s.corrected u.1 u.2 loc)
      | .uncorrectable =>
        if s.mem.poison.contains (loc / 64) then .next s
        else
          let s := s.poisonDetected u.1 u.2 loc
          if isTile loc then
            let c := sliceOf loc
            let ls := sliceLines ((s.plat.sliceErrs.find c).getD []) (loc / 64) s.now
            let s := s.setPlat { s.plat with sliceErrs := s.plat.sliceErrs.put c ls }
            .next (if 16 ≤ ls.length then s.due [.unitFence (.slice c)] else s)
          else .next s

/-! ### Fences (R413 to R415, R470, R487) -/

/-- Commands end with 0x0F04 (R414, R487). -/
def State.endCommands (s : State) (cs : List Cmd) : State := s.due (cs.map (fun c => .commandEnd c.id 0x0F04#16 0))

/-- The record of a fence (R418, R419). -/
def State.fenceRecord (s : State) (kind index : Nat) : State := s.record { code := 0x0F04, sev := 4, kind, index }

/-- A core fenced (R414): its engines' commands, its carder and its teams end. -/
def State.fenceCore (s : State) (c : Nat) : State :=
  if (s.core c).fenced then s
  else
    let s := s.modCore c (fun k => { k with fenced := true, carder := none, gather := [] })
    let s := s.endCommands (s.cmds.filter (fun x => x.engine = .matrix c || x.engine = .copy c || x.engine = .walker c))
    let ts := (s.teams.filter (fun p => p.1.1 = c && !p.2.saved)).map (·.1)
    let s := ts.foldl (fun (s : State) t => s.endTeam t 0x0F04 0 0) s
    ({ s with pend := s.pend.filter (fun p => p.core != c) }).fenceRecord 1 c

/-- The stores held back for a unit's memory reach it before its fence (R79, R414). -/
def State.lastStores (s : State) (p : Nat → Bool) : State := s.performStores (fun x => p x.loc)

/-- A slice fenced, and its core with it (R413). -/
def State.fenceSlice (s : State) (c : Nat) : State :=
  if s.plat.fsSlice.contains c then s
  else
    let s := s.lastStores (fun l => isTile l && sliceOf l == c)
    ((s.setPlat { s.plat with fsSlice := insertNat s.plat.fsSlice c }).fenceRecord 2 c).fenceCore c

/-- A fabric's runs, the matrix operations that stream from it, and its handles (R487). -/
def State.closeFabric (s : State) (f : Nat) : State :=
  let mine (c : Cmd) : Bool := match c.op with
    | .sfRun g _ _ => g == f
    | _ => s.fabs.any (fun x => x.1.1 == f && x.2.run == some c.id)
  let s := s.setPlat { s.plat with fsFabric := insertNat s.plat.fsFabric f }
  let s := s.endCommands (s.cmds.filter mine)
  let fabs : Table (Nat × Nat) FabSlot := s.fabs.map (fun x => if x.1.1 = f then (x.1, { x.2 with unusable := true }) else x)
  { s with fabs }

def State.fenceFabric (s : State) (f : Nat) : State :=
  if s.plat.fsFabric.contains f then s else (s.closeFabric f).fenceRecord 5 f

/-- The walks with a thread that satisfies a condition end with 0x0F04 (R487). -/
def State.endWalks (s : State) (p : Nat → Bool) : State :=
  let hit := s.threads.filterMap (fun x => match x.1 with
    | .walk n => if p n then x.2.walk.map (fun w => (n, w)) else none
    | .lane .. => none)
  hit.foldl (fun (s : State) (x : Nat × WalkCtx) => s.modBlock x.2.origin x.2.block (fun b =>
    if b.walkEnd.isNone then { b with walkEnd := some { code := 0x0F04, addr := 0, walker := x.1 } } else b)) s

def State.fenceWalker (s : State) (w : Nat) : State :=
  if s.plat.fsWalker.contains w then s
  else ((s.setPlat { s.plat with fsWalker := insertNat s.plat.fsWalker w }).endWalks (fun n => n / 16 == w)).fenceRecord 7 w

/-- A stack fenced, with its fabrics, walker cores and sequencer (R413, R487): every block on it ends, and every walk with a
thread on it. -/
def State.fenceStack (s : State) (k : Nat) : State :=
  if s.plat.fsStack.contains k then s
  else
    let s := s.lastStores (fun l => isHbm l && stackOf l == k)
    let ws := (List.range 32).foldl (fun l i => insertNat l (32 * k + i)) s.plat.fsWalker
    let s := s.setPlat { s.plat with fsStack := insertNat s.plat.fsStack k, fsWalker := ws }
    let s := s.endWalks (fun n => walkerStack n == k)
    let s := s.endCommands (s.cmds.filter (fun c => c.engine = .search k))
    let s := (List.range 4).foldl (fun (s : State) i => s.closeFabric (4 * k + i)) s
    s.fenceRecord 6 k

/-- UNIT_FENCE (R413, R414, R487). -/
def execUnitFence (u : FenceUnit) (s : State) : Host.Outcome State Fault Refusal :=
  match u with
  | .core c => if c < Config.cores then .next (s.fenceCore c) else .fault .noSuchAgent
  | .slice c => if c < Config.cores then .next (s.fenceSlice c) else .fault .noSuchAgent
  | .fabric f => if f < 64 then .next (s.fenceFabric f) else .fault .noSuchAgent
  | .walker w => if w < 512 then .next (s.fenceWalker w) else .fault .noSuchAgent
  | .stack k => if k < 16 then .next (s.fenceStack k) else .fault .noSuchAgent
  | .port p => if p < 18 then .next (s.fencePort p 0) else .fault .noSuchAgent

/-- CORE_ISSUE_HANG: 1,000 µs with ready threads and no issue fence the core (R413). -/
def execCoreIssueHang (core : Nat) (s : State) : Host.Outcome State Fault Refusal :=
  if core < Config.cores then .next (s.fenceCore core) else .fault .noSuchAgent

/-! ### The stop of the device (R413, R418, R501) -/

/-- DEVICE_STOP: a failure that cannot be fenced; every core stops as for `halt`, engines stop at once, and one record of
severity 5 is written, under a code that no rule gives. -/
def execDeviceStop (s : State) : Host.Outcome State Fault Refusal :=
  if s.plat.stopped || s.plat.off then .next s
  else
    let s := s.runs.foldl (fun (s : State) r => s.rollbackRun r.id) s
    let s := (List.range Config.cores).foldl (fun (s : State) c => s.modCore c (fun k =>
      { k with halted := true, haltAt := if k.halted then k.haltAt else s.now })) s
    let code := freeCode s.sys.free
    let s := s.setSys { s.sys with turns := [] }
    .next (((s.setPlat { s.plat with stopped := true, stopAt := s.now }).record { code, sev := 5, kind := 0 }).tickFree)

/-- DEVICE_STOP_LINK_DROP: 10 ms after the stop the ports leave DL_Active (R501). -/
def execDeviceStopLinkDrop (s : State) : Host.Outcome State Fault Refusal :=
  if s.plat.stopped && decide (s.plat.stopAt + 25000000 ≤ s.now) then
    .next (s.setDom { s.dom with portDown := List.range 18 })
  else .next s

end Sys2Proof.Machine
end

