-- ==== Sys2Proof/Machine/Dispatch.lean ====
section
/-! DEFINITION. The dispatch: one arm for each constructor of `Instr`. -/
namespace Sys2Proof.Machine

def exec (i : Instr) (s : State) : Host.Outcome State Fault Refusal :=
  match i with
  | .addI32 d a b => Sys2Proof.Machine.execAddI32 d a b s
  | .subI32 d a b => Sys2Proof.Machine.execSubI32 d a b s
  | .mulI32 d a b => Sys2Proof.Machine.execMulI32 d a b s
  | .mulhI32 d a b => Sys2Proof.Machine.execMulhI32 d a b s
  | .minI32 d a b => Sys2Proof.Machine.execMinI32 d a b s
  | .maxI32 d a b => Sys2Proof.Machine.execMaxI32 d a b s
  | .and d a b => Sys2Proof.Machine.execAnd d a b s
  | .or d a b => Sys2Proof.Machine.execOr d a b s
  | .xor d a b => Sys2Proof.Machine.execXor d a b s
  | .not d a => Sys2Proof.Machine.execNot d a s
  | .shl d a b => Sys2Proof.Machine.execShl d a b s
  | .shr d a b => Sys2Proof.Machine.execShr d a b s
  | .sra d a b => Sys2Proof.Machine.execSra d a b s
  | .mov d a => Sys2Proof.Machine.execMov d a s
  | .clz d a => Sys2Proof.Machine.execClz d a s
  | .popc d a => Sys2Proof.Machine.execPopc d a s
  | .addI32Imm d a im => Sys2Proof.Machine.execAddI32Imm d a im s
  | .andImm d a im => Sys2Proof.Machine.execAndImm d a im s
  | .orImm d a im => Sys2Proof.Machine.execOrImm d a im s
  | .xorImm d a im => Sys2Proof.Machine.execXorImm d a im s
  | .shlImm d a im => Sys2Proof.Machine.execShlImm d a im s
  | .shrImm d a im => Sys2Proof.Machine.execShrImm d a im s
  | .sraImm d a im => Sys2Proof.Machine.execSraImm d a im s
  | .movi d im => Sys2Proof.Machine.execMovi d im s
  | .movhi d im => Sys2Proof.Machine.execMovhi d im s
  | .movk d k m => Sys2Proof.Machine.execMovk d k m s
  | .ctz d a => Sys2Proof.Machine.execCtz d a s
  | .bitrev d a => Sys2Proof.Machine.execBitrev d a s
  | .rds d sr => Sys2Proof.Machine.execRds d sr s
  | .wrs sr a => Sys2Proof.Machine.execWrs sr a s
  | .pmovFromReg n a => Sys2Proof.Machine.execPmovFromReg n a s
  | .pmovToReg d n => Sys2Proof.Machine.execPmovToReg d n s
  | .pmovPred n m => Sys2Proof.Machine.execPmovPred n m s
  | .pnot n m => Sys2Proof.Machine.execPnot n m s
  | .addF32 d a b => Sys2Proof.Machine.execAddF32 d a b s
  | .subF32 d a b => Sys2Proof.Machine.execSubF32 d a b s
  | .mulF32 d a b => Sys2Proof.Machine.execMulF32 d a b s
  | .divF32 d a b => Sys2Proof.Machine.execDivF32 d a b s
  | .minF32 d a b => Sys2Proof.Machine.execMinF32 d a b s
  | .maxF32 d a b => Sys2Proof.Machine.execMaxF32 d a b s
  | .sqrtF32 d a => Sys2Proof.Machine.execSqrtF32 d a s
  | .rsqrtF32 d a => Sys2Proof.Machine.execRsqrtF32 d a s
  | .rcpF32 d a => Sys2Proof.Machine.execRcpF32 d a s
  | .exp2F32 d a => Sys2Proof.Machine.execExp2F32 d a s
  | .log2F32 d a => Sys2Proof.Machine.execLog2F32 d a s
  | .sinF32 d a => Sys2Proof.Machine.execSinF32 d a s
  | .cosF32 d a => Sys2Proof.Machine.execCosF32 d a s
  | .tanhF32 d a => Sys2Proof.Machine.execTanhF32 d a s
  | .fclassF32 d a => Sys2Proof.Machine.execFclassF32 d a s
  | .absF32 d a => Sys2Proof.Machine.execAbsF32 d a s
  | .lperm d a b => Sys2Proof.Machine.execLperm d a b s
  | .lrot d a o => Sys2Proof.Machine.execLrot d a o s
  | .lxor d a o => Sys2Proof.Machine.execLxor d a o s
  | .lbcast d a o => Sys2Proof.Machine.execLbcast d a o s
  | .lballot d a => Sys2Proof.Machine.execLballot d a s
  | .lmatch d a => Sys2Proof.Machine.execLmatch d a s
  | .pand n m k => Sys2Proof.Machine.execPand n m k s
  | .por n m k => Sys2Proof.Machine.execPor n m k s
  | .pxor n m k => Sys2Proof.Machine.execPxor n m k s
  | .accRead d a => Sys2Proof.Machine.execAccRead d a s
  | .accWrite a b => Sys2Proof.Machine.execAccWrite a b s
  | .cardNext d p => Sys2Proof.Machine.execCardNext d p s
  | .cardFeed n a b => Sys2Proof.Machine.execCardFeed n a b s
  | .crc d a b => Sys2Proof.Machine.execCrc d a b s
  | .absdI32 d a b => Sys2Proof.Machine.execAbsdI32 d a b s
  | .mulhN32 d a b => Sys2Proof.Machine.execMulhN32 d a b s
  | .br p off => Sys2Proof.Machine.execBr p off s
  | .call p off => Sys2Proof.Machine.execCall p off s
  | .ret => Sys2Proof.Machine.execRet s
  | .jr a => Sys2Proof.Machine.execJr a s
  | .calr a => Sys2Proof.Machine.execCalr a s
  | .switch im off => Sys2Proof.Machine.execSwitch im off s
  | .converge => Sys2Proof.Machine.execConverge s
  | .reform => Sys2Proof.Machine.execReform s
  | .spawn d a b => Sys2Proof.Machine.execSpawn d a b s
  | .exit => Sys2Proof.Machine.execExit s
  | .trap n => Sys2Proof.Machine.execTrap n s
  | .brk n => Sys2Proof.Machine.execBrk n s
  | .yield => Sys2Proof.Machine.execYield s
  | .sleep n => Sys2Proof.Machine.execSleep n s
  | .gwait d a => Sys2Proof.Machine.execGwait d a s
  | .gwaitPoll d a => Sys2Proof.Machine.execGwaitPoll d a s
  | .phase sc => Sys2Proof.Machine.execPhase sc s
  | .arrive d nb => Sys2Proof.Machine.execArrive d nb s
  | .wait nb b => Sys2Proof.Machine.execWait nb b s
  | .barOwe d nb b => Sys2Proof.Machine.execBarOwe d nb b s
  | .barTest p nb b => Sys2Proof.Machine.execBarTest p nb b s
  | .hankPush p a b => Sys2Proof.Machine.execHankPush p a b s
  | .hankPop d a p => Sys2Proof.Machine.execHankPop d a p s
  | .hankPopWait d a p => Sys2Proof.Machine.execHankPopWait d a p s
  | .hankSteal d a p => Sys2Proof.Machine.execHankSteal d a p s
  | .hankSize d a => Sys2Proof.Machine.execHankSize d a s
  | .boundMin a nat dev im => Sys2Proof.Machine.execBoundMin a nat dev im s
  | .boundMinSet a nat dev im => Sys2Proof.Machine.execBoundMinSet a nat dev im s
  | .boundMax a nat dev im => Sys2Proof.Machine.execBoundMax a nat dev im s
  | .boundMaxSet a nat dev im => Sys2Proof.Machine.execBoundMaxSet a nat dev im s
  | .boundGet d dev im => Sys2Proof.Machine.execBoundGet d dev im s
  | .regclaim n => Sys2Proof.Machine.execRegclaim n s
  | .regrel n => Sys2Proof.Machine.execRegrel n s
  | .chpoll d c => Sys2Proof.Machine.execChpoll d c s
  | .wSend a b => Sys2Proof.Machine.execWSend a b s
  | .wRecv d => Sys2Proof.Machine.execWRecv d s
  | .sadd d a b => Sys2Proof.Machine.execSadd d a b s
  | .ssub d a b => Sys2Proof.Machine.execSsub d a b s
  | .sand d a b => Sys2Proof.Machine.execSand d a b s
  | .sor d a b => Sys2Proof.Machine.execSor d a b s
  | .sxor d a b => Sys2Proof.Machine.execSxor d a b s
  | .sshl d a b => Sys2Proof.Machine.execSshl d a b s
  | .sshr d a b => Sys2Proof.Machine.execSshr d a b s
  | .smov d a => Sys2Proof.Machine.execSmov d a s
  | .smovi d im => Sys2Proof.Machine.execSmovi d im s
  | .smovh d im => Sys2Proof.Machine.execSmovh d im s
  | .sbr c k off => Sys2Proof.Machine.execSbr c k off s
  | .rdsr d sr => Sys2Proof.Machine.execRdsr d sr s
  | .wrsr sr a => Sys2Proof.Machine.execWrsr sr a s
  | .barInit nb a kind => Sys2Proof.Machine.execBarInit nb a kind s
  | .hankInit a b => Sys2Proof.Machine.execHankInit a b s
  | .chbind c a => Sys2Proof.Machine.execChbind c a s
  | .chfree c => Sys2Proof.Machine.execChfree c s
  | .guardSet g a => Sys2Proof.Machine.execGuardSet g a s
  | .mxAcquire => Sys2Proof.Machine.execMxAcquire s
  | .mxRelease => Sys2Proof.Machine.execMxRelease s
  | .mxIssue a => Sys2Proof.Machine.execMxIssue a s
  | .accAlloc d a => Sys2Proof.Machine.execAccAlloc d a s
  | .accFree a => Sys2Proof.Machine.execAccFree a s
  | .accZero a => Sys2Proof.Machine.execAccZero a s
  | .accDrain a b => Sys2Proof.Machine.execAccDrain a b s
  | .accPack a b => Sys2Proof.Machine.execAccPack a b s
  | .xfer d a b => Sys2Proof.Machine.execXfer d a b s
  | .xferMc d a b => Sys2Proof.Machine.execXferMc d a b s
  | .bufDecl a => Sys2Proof.Machine.execBufDecl a s
  | .bufSet n st => Sys2Proof.Machine.execBufSet n st s
  | .cardOpenX a => Sys2Proof.Machine.execCardOpenX a s
  | .cardOpenM a => Sys2Proof.Machine.execCardOpenM a s
  | .cardSplit a => Sys2Proof.Machine.execCardSplit a s
  | .cardSave a => Sys2Proof.Machine.execCardSave a s
  | .cardRestore a => Sys2Proof.Machine.execCardRestore a s
  | .cardClose => Sys2Proof.Machine.execCardClose s
  | .sfUnbind a => Sys2Proof.Machine.execSfUnbind a s
  | .ctxsave d a b => Sys2Proof.Machine.execCtxsave d a b s
  | .ctxload d a b => Sys2Proof.Machine.execCtxload d a b s
  | .tsync => Sys2Proof.Machine.execTsync s
  | .replay => Sys2Proof.Machine.execReplay s
  | .idle d a => Sys2Proof.Machine.execIdle d a s
  | .halt => Sys2Proof.Machine.execHalt s
  | .errack a b => Sys2Proof.Machine.execErrack a b s
  | .add f d a b => Sys2Proof.Machine.execAdd f d a b s
  | .sub f d a b => Sys2Proof.Machine.execSub f d a b s
  | .mul f d a b => Sys2Proof.Machine.execMul f d a b s
  | .mulh f d a b => Sys2Proof.Machine.execMulh f d a b s
  | .div f d a b => Sys2Proof.Machine.execDiv f d a b s
  | .rem f d a b => Sys2Proof.Machine.execRem f d a b s
  | .min f d a b => Sys2Proof.Machine.execMin f d a b s
  | .max f d a b => Sys2Proof.Machine.execMax f d a b s
  | .abs f d a => Sys2Proof.Machine.execAbs f d a s
  | .neg f d a => Sys2Proof.Machine.execNeg f d a s
  | .absd f d a b => Sys2Proof.Machine.execAbsd f d a b s
  | .sqrt f d a => Sys2Proof.Machine.execSqrt f d a s
  | .fma f d a b c => Sys2Proof.Machine.execFma f d a b c s
  | .mad f d a b c => Sys2Proof.Machine.execMad f d a b c s
  | .madw f d a b c => Sys2Proof.Machine.execMadw f d a b c s
  | .scalb f d a b => Sys2Proof.Machine.execScalb f d a b s
  | .rnd f d a => Sys2Proof.Machine.execRnd f d a s
  | .cvt f d a => Sys2Proof.Machine.execCvt f d a s
  | .pack t d a b => Sys2Proof.Machine.execPack t d a b s
  | .unpack t d a => Sys2Proof.Machine.execUnpack t d a s
  | .cmp c t p a b => Sys2Proof.Machine.execCmp c t p a b s
  | .sel t p neg d a b => Sys2Proof.Machine.execSel t p neg d a b s
  | .lea signed off sh d a b => Sys2Proof.Machine.execLea signed off sh d a b s
  | .bfe signed pos len d a => Sys2Proof.Machine.execBfe signed pos len d a s
  | .bfi pos len d a b => Sys2Proof.Machine.execBfi pos len d a b s
  | .fsh d a b c => Sys2Proof.Machine.execFsh d a b c s
  | .lscan op excl t rc d a => Sys2Proof.Machine.execLscan op excl t rc d a s
  | .lred op t rc d a => Sys2Proof.Machine.execLred op t rc d a s
  | .ld t d m => Sys2Proof.Machine.execLd t d m s
  | .st t v m => Sys2Proof.Machine.execSt t v m s
  | .gld t d m => Sys2Proof.Machine.execGld t d m s
  | .gst t v m => Sys2Proof.Machine.execGst t v m s
  | .atomXchg t sc o d m => Sys2Proof.Machine.execAtomXchg t sc o d m s
  | .atomAdd t sc o d m => Sys2Proof.Machine.execAtomAdd t sc o d m s
  | .atomAnd t sc o d m => Sys2Proof.Machine.execAtomAnd t sc o d m s
  | .atomOr t sc o d m => Sys2Proof.Machine.execAtomOr t sc o d m s
  | .atomXor t sc o d m => Sys2Proof.Machine.execAtomXor t sc o d m s
  | .atomMin t sc o d m => Sys2Proof.Machine.execAtomMin t sc o d m s
  | .atomMax t sc o d m => Sys2Proof.Machine.execAtomMax t sc o d m s
  | .atomLd t sc o d m => Sys2Proof.Machine.execAtomLd t sc o d m s
  | .atomSt t sc o d m => Sys2Proof.Machine.execAtomSt t sc o d m s
  | .cas t sc o d a b c => Sys2Proof.Machine.execCas t sc o d a b c s
  | .pfch t m => Sys2Proof.Machine.execPfch t m s
  | .wHop a => Sys2Proof.Machine.execWHop a s
  | .wEmit a n => Sys2Proof.Machine.execWEmit a n s
  | .wDist d a q => Sys2Proof.Machine.execWDist d a q s
  | .wHeap p a h => Sys2Proof.Machine.execWHeap p a h s
  | .wVisit p a t => Sys2Proof.Machine.execWVisit p a t s
  | .launch d a => Sys2Proof.Machine.execLaunch d a s
  | .xferTr t cf d a b => Sys2Proof.Machine.execXferTr t cf d a b s
  | .cgLaunch cf a b => Sys2Proof.Machine.execCgLaunch cf a b s
  | .sfLoad fab d a => Sys2Proof.Machine.execSfLoad fab d a s
  | .sfBind a b => Sys2Proof.Machine.execSfBind a b s
  | .sfRun cf a b => Sys2Proof.Machine.execSfRun cf a b s
  | .srchIssue cf a b => Sys2Proof.Machine.execSrchIssue cf a b s
  | .srchVer d a => Sys2Proof.Machine.execSrchVer d a s
  | .srchVerRead d a => Sys2Proof.Machine.execSrchVerRead d a s
  | .collStart cf a => Sys2Proof.Machine.execCollStart cf a s
  | .tlbinvAll => Sys2Proof.Machine.execTlbinvAll s
  | .tlbinvAsid a => Sys2Proof.Machine.execTlbinvAsid a s
  | .tlbinvVa a b => Sys2Proof.Machine.execTlbinvVa a b s
  | .dirReclaim a b => Sys2Proof.Machine.execDirReclaim a b s
  | .keyselLoad a b => Sys2Proof.Machine.execKeyselLoad a b s
  | .keyselErase a b => Sys2Proof.Machine.execKeyselErase a b s
  | .draw core => Sys2Proof.Machine.execDraw core s
  | .registerGrant core => Sys2Proof.Machine.execRegisterGrant core s
  | .convergeStarveRelease who => Sys2Proof.Machine.execConvergeStarveRelease who s
  | .forcing who => Sys2Proof.Machine.execForcing who s
  | .starvation core slot o => Sys2Proof.Machine.execStarvation core slot o s
  | .claimDeadlock core => Sys2Proof.Machine.execClaimDeadlock core s
  | .coreRestart core => Sys2Proof.Machine.execCoreRestart core s
  | .implicitRelease who n => Sys2Proof.Machine.execImplicitRelease who n s
  | .tableWalk u asid root va => Sys2Proof.Machine.execTableWalk u asid root va s
  | .runAheadRollback id => Sys2Proof.Machine.execRunAheadRollback id s
  | .batchEntryDeferred => Sys2Proof.Machine.execBatchEntryDeferred s
  | .gatherAccess core => Sys2Proof.Machine.execGatherAccess core s
  | .accessAtHome => Sys2Proof.Machine.execAccessAtHome s
  | .commandHead q => Sys2Proof.Machine.execCommandHead q s
  | .commandComplete id => Sys2Proof.Machine.execCommandComplete id s
  | .commandEnd id code addr => Sys2Proof.Machine.execCommandEnd id code addr s
  | .commandHold id va => Sys2Proof.Machine.execCommandHold id va s
  | .multicastAbandon id => Sys2Proof.Machine.execMulticastAbandon id s
  | .graphNodeIssue core => Sys2Proof.Machine.execGraphNodeIssue core s
  | .carderDeal core => Sys2Proof.Machine.execCarderDeal core s
  | .streamChunk f slot => Sys2Proof.Machine.execStreamChunk f slot s
  | .cycleViolation f slot node cycles => Sys2Proof.Machine.execCycleViolation f slot node cycles s
  | .searchBlockStart stack => Sys2Proof.Machine.execSearchBlockStart stack s
  | .searchNop stack => Sys2Proof.Machine.execSearchNop stack s
  | .qload stack => Sys2Proof.Machine.execQload stack s
  | .hinit stack => Sys2Proof.Machine.execHinit stack s
  | .scan stack => Sys2Proof.Machine.execScan stack s
  | .cent stack => Sys2Proof.Machine.execCent stack s
  | .hmerge stack => Sys2Proof.Machine.execHmerge stack s
  | .hout stack => Sys2Proof.Machine.execHout stack s
  | .vclr stack => Sys2Proof.Machine.execVclr stack s
  | .walk stack => Sys2Proof.Machine.execWalk stack s
  | .searchPreempt stack => Sys2Proof.Machine.execSearchPreempt stack s
  | .searchResume stack => Sys2Proof.Machine.execSearchResume stack s
  | .walkerThreadStart stack => Sys2Proof.Machine.execWalkerThreadStart stack s
  | .hopTakeup stack => Sys2Proof.Machine.execHopTakeup stack s
  | .walkerMessage dst => Sys2Proof.Machine.execWalkerMessage dst s
  | .exitNotice stack => Sys2Proof.Machine.execExitNotice stack s
  | .walkStalled stack => Sys2Proof.Machine.execWalkStalled stack s
  | .lqTailDoorbell q v => Sys2Proof.Machine.execLqTailDoorbell q v s
  | .lqEnable q => Sys2Proof.Machine.execLqEnable q s
  | .lqDisable q => Sys2Proof.Machine.execLqDisable q s
  | .lqDisableEffect q => Sys2Proof.Machine.execLqDisableEffect q s
  | .recordAdmission => Sys2Proof.Machine.execRecordAdmission s
  | .extentTranslation g => Sys2Proof.Machine.execExtentTranslation g s
  | .gridRecord g => Sys2Proof.Machine.execGridRecord g s
  | .gangRecord g => Sys2Proof.Machine.execGangRecord g s
  | .graphRecord g => Sys2Proof.Machine.execGraphRecord g s
  | .waitOnValue g => Sys2Proof.Machine.execWaitOnValue g s
  | .waitOnValuePoll g => Sys2Proof.Machine.execWaitOnValuePoll g s
  | .signalRecord g => Sys2Proof.Machine.execSignalRecord g s
  | .teamPlacement => Sys2Proof.Machine.execTeamPlacement s
  | .teamRetire core slot => Sys2Proof.Machine.execTeamRetire core slot s
  | .gridRetire g => Sys2Proof.Machine.execGridRetire g s
  | .phaseComplete core ctx sc pc => Sys2Proof.Machine.execPhaseComplete core ctx sc pc s
  | .tsyncComplete core ctx pc => Sys2Proof.Machine.execTsyncComplete core ctx pc s
  | .tlbinvComplete core ctx pc => Sys2Proof.Machine.execTlbinvComplete core ctx pc s
  | .ctxsaveWrite core ctx pc => Sys2Proof.Machine.execCtxsaveWrite core ctx pc s
  | .idleTimer core slot => Sys2Proof.Machine.execIdleTimer core slot s
  | .hostMemoryWrite bar off bytes ep => Sys2Proof.Machine.execHostMemoryWrite bar off bytes ep s
  | .hostMemoryRead bar off n => Sys2Proof.Machine.execHostMemoryRead bar off n s
  | .pcieUnsupportedRequest addr => Sys2Proof.Machine.execPcieUnsupportedRequest addr s
  | .pcieError aerBit => Sys2Proof.Machine.execPcieError aerBit s
  | .hostLinkDown => Sys2Proof.Machine.execHostLinkDown s
  | .supervisorMailbox v => Sys2Proof.Machine.execSupervisorMailbox v s
  | .coldReset => Sys2Proof.Machine.execColdReset s
  | .warmReset => Sys2Proof.Machine.execWarmReset s
  | .kseedLock => Sys2Proof.Machine.execKseedLock s
  | .privLock => Sys2Proof.Machine.execPrivLock s
  | .domainJoin refused members => Sys2Proof.Machine.execDomainJoin refused members s
  | .attestationStart => Sys2Proof.Machine.execAttestationStart s
  | .attestationDone => Sys2Proof.Machine.execAttestationDone s
  | .coreResume core => Sys2Proof.Machine.execCoreResume core s
  | .eqHeadWrite n v => Sys2Proof.Machine.execEqHeadWrite n v s
  | .bqHeadWrite v => Sys2Proof.Machine.execBqHeadWrite v s
  | .registerWrite off size v => Sys2Proof.Machine.execRegisterWrite off size v s
  | .powerSample pkgW coreA badRails => Sys2Proof.Machine.execPowerSample pkgW coreA badRails s
  | .temperatureSample clusters stks => Sys2Proof.Machine.execTemperatureSample clusters stks s
  | .scrub pa found => Sys2Proof.Machine.execScrub pa found s
  | .unitFence u => Sys2Proof.Machine.execUnitFence u s
  | .coreIssueHang core => Sys2Proof.Machine.execCoreIssueHang core s
  | .deviceStop => Sys2Proof.Machine.execDeviceStop s
  | .deviceStopLinkDrop => Sys2Proof.Machine.execDeviceStopLinkDrop s
  | .remoteAccess dev pa size key k => Sys2Proof.Machine.execRemoteAccess dev pa size key k s
  | .directoryRequest dev line store => Sys2Proof.Machine.execDirectoryRequest dev line store s
  | .snoop line keep => Sys2Proof.Machine.execSnoop line keep s
  | .snoopReply line data => Sys2Proof.Machine.execSnoopReply line data s
  | .invalidation line => Sys2Proof.Machine.execInvalidation line s
  | .snoopTimeout line => Sys2Proof.Machine.execSnoopTimeout line s
  | .eorexPortFailure port retries => Sys2Proof.Machine.execEorexPortFailure port retries s
  | .deviceLossNotice dev => Sys2Proof.Machine.execDeviceLossNotice dev s
  | .collectiveDelivery group round contribs => Sys2Proof.Machine.execCollectiveDelivery group round contribs s
  | .collectiveTimeout group round mask => Sys2Proof.Machine.execCollectiveTimeout group round mask s
  | .collectiveAbort group round code mask => Sys2Proof.Machine.execCollectiveAbort group round code mask s
  | .illegalEncoding w1 w2 => Sys2Proof.Machine.execIllegalEncoding w1 w2 s
  | .sleepEnd who => Sys2Proof.Machine.execSleepEnd who s
  | .hostLinkRetrained => Sys2Proof.Machine.execHostLinkRetrained s
  | .powerDown => Sys2Proof.Machine.execPowerDown s

end Sys2Proof.Machine
end

