-- ==== Sys2Proof/Machine/Issue.lean ====
section
/-!
DEFINITION. The issue of instructions: lane sets and gangs (R33, R34, R212), selection of a skein on each pipe (R54, R322,
R323), the fetch of an instruction (R136, R154), what a run-ahead stops before (R109, R289, R435), and the issue of a
walker thread (R149, R360).
-/
namespace Sys2Proof.Machine

/-! ### Lane sets and gangs (R33, R34, R212) -/

/-- Whether a thread of a skein is eligible to issue (R30, R33): ready, in no stall, and in no stopped set of a run-ahead. -/
def State.eligible (s : State) (w : Who) (t : Thread) : Bool :=
  t.state == .ready && t.stall == .none && !s.stoppedAhead w t

/-- Whether a stall makes the whole skein not ready (R296, R322): all but a thread's sleep (R213) and its wait after a load
(R302). -/
def Stall.ofSkein : Stall → Bool
  | .none | .until _ => false
  | _ => true

/-- Whether a skein stands in a stall that is not a blocking wait (R239, R248, R296, R322). -/
def State.skeinStalled (s : State) (core ctx : Nat) : Bool :=
  (s.skeinThreads core ctx).any (fun p => p.2.state == .ready && p.2.stall.ofSkein) || (s.core core).ownerQueue.contains ctx

/-- A lane set: the ready lanes of one ply at one pc, running ahead together or not at all. -/
structure LaneSet where
  ply : Nat
  pc : DWord
  run : Option Nat
  pass : Nat
  yielding : Bool
  lanes : List (Nat × Who)
deriving DecidableEq, Repr

/-- A lane joins its set; a merged set takes the larger pass count (R33), and yields while all of it does. -/
def addLane (w : Who) (t : Thread) : List LaneSet → List LaneSet
  | [] => [{ ply := t.lane / 4, pc := t.pc, run := t.runAhead, pass := t.pass, yielding := t.yielding, lanes := [(t.lane, w)] }]
  | x :: xs =>
    if x.ply = t.lane / 4 ∧ x.pc = t.pc ∧ x.run = t.runAhead then
      { x with pass := Nat.max x.pass t.pass, yielding := x.yielding && t.yielding, lanes := x.lanes ++ [(t.lane, w)] } :: xs
    else x :: addLane w t xs

/-- The eligible lane sets of a skein. -/
def State.laneSets (s : State) (core ctx : Nat) : List LaneSet :=
  (s.skeinThreads core ctx).foldl (fun acc p => if s.eligible p.1 p.2 then addLane p.1 p.2 acc else acc) []

/-- The lowest pc of some lane sets. -/
def lowestPc (sets : List LaneSet) : DWord :=
  match sets with
  | [] => 0
  | x :: xs => xs.foldl (fun (p : DWord) y => if y.pc.ult p then y.pc else p) x.pc

/-- The sets that the choice of R33 is made from: those that do not yield, where there are any (R212). -/
def choosable (sets : List LaneSet) : List LaneSet :=
  if sets.any (fun x => !x.yielding) then sets.filter (fun x => !x.yielding) else sets

/-- Sets at the greatest pass count. -/
def agedSets (sets : List LaneSet) : List LaneSet := sets.filter (fun x => x.pass == 64)

/-- The gang pc (R33), or a forced thread's (R54). -/
def gangPc (sets : List LaneSet) (forced : Option DWord) : DWord :=
  match forced with
  | some p => p
  | none => if (agedSets (choosable sets)).isEmpty then lowestPc (choosable sets) else lowestPc (agedSets (choosable sets))

/-- Whether the gang pc is chosen from aged sets (R33, R34): a forced thread's is not (R54). -/
def agedPc (sets : List LaneSet) (forced : Option DWord) : Bool := forced.isNone && !(agedSets (choosable sets)).isEmpty

/-- The gang: every set at the gang pc, of one kind only (R34); `aged` says that the pc was chosen from aged sets. -/
def gangSets (sets : List LaneSet) (pc : DWord) (aged : Bool) : List LaneSet :=
  let here := sets.filter (fun x => x.pc = pc)
  let ahead := here.filter (fun x => x.run.isSome)
  let plain := here.filter (fun x => x.run.isNone)
  if plain.isEmpty then ahead
  else if aged && !(agedSets ahead).isEmpty && (agedSets plain).isEmpty then ahead
  else plain

/-- The run-aheads of a gang, each of which acts on its own scalars (R289): none for an ordinary gang. -/
def gangRuns (gang : List LaneSet) : List (Option Nat) := gang.foldl (fun acc x => addOnce acc x.run) []

/-- A gang's lanes of one run-ahead, in increasing lane order. -/
def gangLanes (gang : List LaneSet) (run : Option Nat) : List (Nat × Who) :=
  sortBy (fun (a b : Nat × Who) => decide (a.1 ≤ b.1)) ((gang.filter (fun x => x.run = run)).flatMap (·.lanes))

/-! ### The fetch (R136, R154, R456) -/

/-- What a fetch of one word finds; with it the word that follows in the same aligned 8 bytes, which are fetched at once (R154). -/
inductive FetchRes where
  | word (w : Word) (next : Option Word)
  | fault (f : Fail)
  | page (va : Nat)

/-- Whether a write is required for a fetch by some threads (R154): the acquires after a thread's start do not count. -/
def State.fetchRequires (s : State) (ws : List Who) (key loc n : Nat) (e : Wrote) : Bool :=
  ws.any fun w => match s.threads.find w with
    | some t => e.required w 0 { core := t.acq.start, cluster := t.acq.start, dev := t.acq.start, dom := t.acq.start } t.seen key loc n
    | none => true

/-- The aligned 8 bytes that hold a word, fetched by the threads of a gang as one load of R82 each, behind their own stores
there; a walker thread sees those of its walk (R361). -/
def State.fetchUnit (s : State) (ws : List Who) (t : Target) : State × List Byte :=
  let base := t.loc / 8 * 8
  let s := s.performStores (fun p => decide (p.who ∈ ws) && meets base 8 p.loc p.bytes.length)
  let (s, bs, seq) := s.viewBytes (s.fetchRequires ws t.key base 8) none t.key base 8
  let s := ws.foldl (fun (s : State) w => s.sawWrite w base 8 seq) s
  (s, overlay bs base (ws.flatMap (fun w => ((s.walkBlock w).map (·.2.stores)).getD [])))

/-- One instruction word, fetched with the checks of R450 as an access of kind fetch. -/
def State.fetchWord (s : State) (ws : List Who) (w : Who) (pc : DWord) : State × FetchRes :=
  match s.reach w (s.laneAccess w .fetch pc 4 4) with
  | (s, .ok t) =>
    let (s, bs) := s.fetchUnit ws t
    let wordAt (i : Nat) : Word := BitVec.ofNat 32 (numOfBytes ((bs.drop i).take 4))
    (s, .word (wordAt (t.loc % 8)) (if t.loc % 8 = 0 then some (wordAt 4) else none))
  | (s, .fault f) => (s, .fault f)
  | (s, .page v) => (s, .page v)

/-- The word that a skein's first lane would fetch, where it can. -/
def State.peekWord (s : State) (lanes : List (Nat × Who)) (pc : DWord) : Option Word :=
  match lanes with
  | [] => none
  | l :: _ => match (s.fetchWord (lanes.map (·.2)) l.2 pc).2 with
    | .word w _ => some w
    | _ => none

/-- A U-form word (R134, R135). -/
def uForm (w : Word) : Bool := w.getLsbD 31

/-- A page that a fetch meets: a walker thread parks, a run-ahead's sets stop with the granule added, any other gang parks
at once (R456, R482). -/
def State.fetchPage (s : State) (va : Nat) : State :=
  let i := s.sys.issue
  match i.runAhead with
  | some r =>
    let runs : List RunAhead := s.runs.map (fun x =>
      if x.id = r then { x with granules := (addGranule x.granules va false true).take 33 } else x)
    ({ s with runs } : State).stopSets i.lanes
  | none =>
    match s.leader with
    | .walk _ => s.parkWalker s.leader va .fetch
    | .lane .. => s.parkFetch (i.lanes.map (·.2)) va

/-- A second word noted in the issue record. -/
def State.secondWord (s : State) (w1 w2 : Word) : State × Option (Word × Word) :=
  (s.setSys { s.sys with issue := { s.sys.issue with w2 } }, some (w1, w2))

/-- The instruction at the gang's pc, noted in the issue record: none where the fetch faults or pages. -/
def State.fetchInstr (s : State) : State × Option (Word × Word) :=
  let i := s.sys.issue
  let ws := i.lanes.map (·.2)
  match s.fetchWord ws s.leader i.pc with
  | (s, .fault f) => (s.gangRaise f, none)
  | (s, .page v) => (s.fetchPage v, none)
  | (s, .word w1 next) =>
    let s := if isTwoWord w1 && next.isNone then s else s.gangGo Thread.fetchOk
    let s := s.setSys { s.sys with issue := { i with w1, two := isTwoWord w1 } }
    if !isTwoWord w1 then (s, some (w1, 0))
    else match next with
      | some w2 => s.secondWord w1 w2
      | none =>
        match s.fetchWord ws s.leader (i.pc + 4) with
        | (s, .fault f) => (s.gangRaise f, none)
        | (s, .page v) => (s.fetchPage v, none)
        | (s, .word w2 _) => (s.gangGo Thread.fetchOk).secondWord w1 w2

/-! ### What each kind of core accepts (R149) -/

/-- The words that a walker core accepts. -/
def walkerAccepts (w1 w2 : Word) : Bool :=
  let op := field w1 31 24
  let sub := field w2 31 24
  if op < 0x70 then
    op ≤ 0x18 || op == 0x1A || op == 0x1B || op == 0x1E || op == 0x1F || (0x20 ≤ op && op ≤ 0x25) || (0x36 ≤ op && op ≤ 0x38) ||
      (0x3D ≤ op && op ≤ 0x3F) || (0x40 ≤ op && op ≤ 0x44) || op == 0x49 || op == 0x5E || op == 0x5F
  else if op == 0x70 then sub ≤ 0x0A || sub == 0x14 || sub == 0x15 || sub == 0x1C || sub == 0x1D
  else if op == 0x71 then sub == 0x00 || sub == 0x01 || (0x03 ≤ sub && sub ≤ 0x07)
  else false

/-- The walker encodings, reserved on a compute core. -/
def walkerOnly (w1 w2 : Word) : Bool :=
  let op := field w1 31 24
  let sub := field w2 31 24
  op == 0x5E || op == 0x5F || (op == 0x71 && 0x03 ≤ sub && sub ≤ 0x07)

def kindAccepts (w : Who) (w1 w2 : Word) : Bool := if whoIsWalk w then walkerAccepts w1 w2 else !walkerOnly w1 w2

/-! ### Run-aheads (R108, R109, R289, R435) -/

/-- The instructions a run-ahead stops before, whatever their operands: synchronising operations (R83), phase boundaries,
engine and walker instructions, `reform`, `spawn`, `exit` and blocking instructions (R109, R214). -/
def stopsAhead : Instr → Bool
  | .accRead .. | .accWrite .. | .cardNext .. | .cardFeed .. => true
  | .reform | .spawn .. | .exit | .gwait .. | .gwaitPoll .. | .phase _ => true
  | .arrive .. | .wait .. | .barOwe .. | .barTest .. | .hankPush .. | .hankPop .. | .hankPopWait .. | .hankSteal .. | .hankSize .. => true
  | .boundMin .. | .boundMinSet .. | .boundMax .. | .boundMaxSet .. | .boundGet .. | .regclaim _ | .regrel _ | .chpoll .. => true
  | .wSend .. | .wRecv _ | .wHop _ | .wEmit .. | .wDist .. | .wHeap .. | .wVisit .. => true
  | .barInit .. | .hankInit .. | .chbind .. | .chfree _ | .guardSet .. => true
  | .mxAcquire | .mxRelease | .mxIssue _ | .accAlloc .. | .accFree _ | .accZero _ | .accDrain .. | .accPack .. => true
  | .xfer .. | .xferMc .. | .xferTr .. | .bufDecl _ | .bufSet .. => true
  | .cardOpenX _ | .cardOpenM _ | .cardSplit _ | .cardSave _ | .cardRestore _ | .cardClose => true
  | .launch .. | .cgLaunch .. | .sfLoad .. | .sfBind .. | .sfRun .. | .sfUnbind _ => true
  | .srchIssue .. | .srchVer .. | .srchVerRead .. | .collStart .. => true
  | .atomXchg .. | .atomAdd .. | .atomAnd .. | .atomOr .. | .atomXor .. | .atomMin .. | .atomMax .. | .atomLd .. | .atomSt .. => true
  | .cas .. => true
  | .st _ v _ | .gst _ v _ => (Src.chan v).isSome
  | _ => false

/-- The lanes of a run-ahead for which a branch's condition or target is unknown (R109, R289). -/
def State.unknownBranch (s : State) (i : Instr) (t : Thread) : Bool :=
  let pred (p : Option BrPred) : Bool := p.any (fun q => t.unkPreds.getLsbD q.p.val)
  match i with
  | .br p _ | .call p _ => pred p
  | .jr a | .calr a => t.unkRegs.contains a.val || t.unkRegs.contains (a.val + 1)
  | .switch (.reg n) _ => t.unkRegs.contains n.val
  | .sbr c k _ => c != .always && s.kUnknown k.val
  | _ => false

/-- The lanes before which a run-ahead stops. -/
def State.aheadStops (s : State) (i : Instr) : List (Nat × Who) :=
  s.sys.issue.lanes.filter (fun l => stopsAhead i || (s.thread l.2).any (fun t => s.unknownBranch i t))

/-- One issue of a run-ahead counted (R108 step 3). -/
def State.countAhead (s : State) (r : Nat) : State :=
  { s with runs := s.runs.map (fun x => if x.id = r then { x with count := x.count + 1 } else x) }

/-- The end of a run-ahead: every set stopped, 33 granules met, or its 256 instructions spent (R108 step 4). -/
def RunAhead.over (x : RunAhead) : Bool :=
  x.whos.all (fun w => x.stoppedWhos.contains w) || decide (33 ≤ x.granules.length) || decide (256 ≤ x.count)

def State.endAhead (s : State) (r : Nat) : State :=
  if s.runs.any (fun x => x.id == r && x.over) then s.due [.runAheadRollback r] else s

/-! ### One gang issues -/

/-- The state after a meaning, with more done to it; a stop stays a stop. -/
def andThen (o : Host.Outcome State Fault Refusal) (f : State → State) : Host.Outcome State Fault Refusal :=
  match o with
  | .next s => .next (f s)
  | .fault r => .fault r
  | .refused r => .refused r

/-- The decoded instruction acts; words that decode to none, or that this kind of core does not accept, take 0x0101 (R149,
R152). -/
def State.act (s : State) (w1 w2 : Word) : Host.Outcome State Fault Refusal :=
  match decode w1 w2 with
  | .error _ => execIllegalEncoding w1 w2 s
  | .ok i => if kindAccepts s.leader w1 w2 then exec i s else execIllegalEncoding w1 w2 s

/-- A run-ahead's gang: the sets that R109 stops leave it first. -/
def State.actAhead (s : State) (r : Nat) (w1 w2 : Word) : Host.Outcome State Fault Refusal :=
  match decode w1 w2 with
  | .error _ => .next (s.stopSets s.sys.issue.lanes)
  | .ok i =>
    let s := s.stopSets (s.aheadStops i)
    let gone := ((s.runs.find? (fun x => x.id = r)).map (·.stoppedWhos)).getD []
    let s := s.setSys { s.sys with issue := { s.sys.issue with lanes := s.sys.issue.lanes.filter (fun l => !gone.contains l.2) } }
    if s.sys.issue.lanes.isEmpty then .next s else (s.countAhead r).act w1 w2

/-- A stall in which the instruction has not issued: it is tried again when the stall ends. -/
def Stall.retries : Stall → Bool
  | .queueRoom _ | .bank .. | .teamIdle | .handle .. | .carder | .childTable | .gather | .walkRoom _ | .ownerRoom => true
  | .peer _ | .hopRoom _ | .emitRoom _ | .grant _ => true
  | .none | .until _ | .events _ | .completion | .owner | .message => false

/-- A lane's notes of its issue (R33, R54, R212, R213). -/
def Thread.issued (t : Thread) (now : Nat) : Thread :=
  { t with pass := 0, yielding := false, lastIssue := now, sleepIdle := 0, forced := false }

/-- Whether a lane has only stalled at a pc, its instruction not issued; a `gld` whose request stands in the collector has
issued (R196). -/
def State.laneStalled (s : State) (w : Who) (pc : DWord) : Bool :=
  (s.thread w).any (fun t => t.pc == pc && t.stall.retries &&
    !(t.stall == .gather && (s.core (s.coreOf w)).gather.any (fun g => g.who = w)))

/-- Lanes whose instruction has only stalled keep their notes: it has not issued (R33, R54, R322). -/
def State.keepWaiting (s : State) (old : List (Who × Thread)) : State :=
  old.foldl (fun (s : State) p => if s.laneStalled p.1 p.2.pc then s.modThread p.1 (fun t =>
      { t with lastIssue := p.2.lastIssue, sleepIdle := p.2.sleepIdle, forced := p.2.forced, pass := p.2.pass, yielding := p.2.yielding })
    else s) s

/-- One gang of a skein, or a walker thread, issues the instruction at a pc. -/
def State.issueGang (s : State) (core ctx : Nat) (run : Option Nat) (lanes : List (Nat × Who)) (pc : DWord) :
    Host.Outcome State Fault Refusal :=
  let old := lanes.filterMap (fun l => (s.thread l.2).map (fun t => (l.2, t)))
  let s := s.setSys { s.sys with issue := { core, ctx, lanes, pc, runAhead := run } }
  let s := lanes.foldl (fun (s : State) l => s.modThread l.2 (fun t => t.issued s.now)) s
  match s.fetchInstr with
  | (s, none) => .next (match run with
      | some r => s.endAhead r
      | none => s)
  | (s, some (w1, w2)) =>
    match run with
    | some r => andThen (s.actAhead r w1 w2) (fun s => s.endAhead r)
    | none => andThen (s.act w1 w2) (fun s => lanes.foldl (fun (s : State) l => s.modThread l.2 Thread.movedOn) (s.keepWaiting old))

/-- The gangs of one fetch of a skein, one for each run-ahead in it. -/
def State.issueRuns (s : State) (core ctx : Nat) (gang : List LaneSet) (pc : DWord) : List (Option Nat) → Host.Outcome State Fault Refusal
  | [] => .next s
  | r :: rs =>
    match s.issueGang core ctx r (gangLanes gang r) pc with
    | .next s => s.issueRuns core ctx gang pc rs
    | o => o

/-! ### Selection (R322, R323) -/

/-- A skein that could issue now, with its lane sets, its gang's pc and its place in the order of R322. -/
structure Cand where
  ctx : Nat
  sets : List LaneSet
  pc : DWord
  aged : Bool
  key : List Nat

/-- The forced thread of a skein that became ready first (R54). -/
def State.forcedOf (s : State) (sets : List LaneSet) : Option (Nat × DWord) :=
  (sets.flatMap (·.lanes)).foldl (fun (best : Option (Nat × DWord)) l =>
    match s.thread l.2 with
    | some t =>
      if !t.forced then best
      else match best with
        | some b => if t.readySince < b.1 then some (t.readySince, t.pc) else some b
        | none => some (t.readySince, t.pc)
    | none => best) none

/-- Selections for which a skein must have been passed over to be aged (R322). -/
def agedAfter : Nat := 512

/-- The order of R322: forced skeins, aged ones, then the oldest by formation, one that has yielded last. -/
def candKey (forced : Option (Nat × DWord)) (k : Skein) (ctx : Nat) : List Nat :=
  match forced with
  | some f => [0, f.1, k.formed, ctx]
  | none => if agedAfter ≤ k.passed then [1, 2 ^ 64 - k.passed, k.formed, ctx] else [2, (if k.young then 1 else 0), k.formed, ctx]

def lexLe : List Nat → List Nat → Bool
  | [], _ => true
  | _ :: _, [] => false
  | a :: as, b :: bs => a < b || (a == b && lexLe as bs)

/-- Whether a core issues (R63, R300, R414, R418). -/
def State.coreRuns (s : State) (c : Nat) : Bool :=
  let k := s.core c
  !k.halted && !k.fenced && !k.gated && !s.plat.stopped && !s.plat.off && s.plat.ready

/-- Whether a skein's team issues (R325, R436). -/
def State.teamRuns (s : State) (t : TeamId) : Bool := (s.team t).any (fun v => !v.saved && !v.saving && v.ending.isNone)

/-- The ready skeins of a pipe in the order of R322. -/
def State.cands (s : State) (core pipe : Nat) : List Cand :=
  if !s.coreRuns core then [] else
  sortBy (fun (a b : Cand) => lexLe a.key b.key) (s.skeins.filterMap (fun (x : (Nat × Nat) × Skein) =>
    if x.1.1 != core || x.2.pipe != pipe || !x.2.granted || !s.teamRuns (core, x.2.slot) || s.skeinStalled core x.1.2 then none
    else
      let sets := s.laneSets core x.1.2
      if sets.isEmpty then none
      else
        let f := s.forcedOf sets
        some { ctx := x.1.2, sets, pc := gangPc sets (f.map (·.2)), aged := agedPc sets (f.map (·.2)), key := candKey f x.2 x.1.2 }))

/-- A candidate's gang. -/
def Cand.gang (k : Cand) : List LaneSet := gangSets k.sets k.pc k.aged

/-- Whether a candidate's instruction is U-form. -/
def State.candU (s : State) (k : Cand) : Bool := (s.peekWord (k.gang.flatMap (·.lanes)) k.pc).any uForm

/-- The notes of one selection of a pipe (R322, R212). -/
def State.noteSelection (s : State) (core pipe : Nat) (ready : List Nat) (chosen : Nat) : State :=
  { s with skeins := s.skeins.map (fun (x : (Nat × Nat) × Skein) =>
      if x.1.1 = core ∧ x.2.pipe = pipe then
        (x.1, { x.2 with passed := if x.1.2 = chosen ∨ !ready.contains x.1.2 then 0 else x.2.passed + 1,
                         young := x.2.young && !ready.contains x.1.2 })
      else x) }

/-- The pass counts and yield marks of the sets that one fetch leaves out (R33, R34, R212). -/
def State.passOver (s : State) (sets gang : List LaneSet) : State :=
  let mixed := sets.any (fun x => !x.yielding)
  (sets.filter (fun x => !gang.contains x)).foldl (fun (s : State) x =>
    x.lanes.foldl (fun (s : State) l => s.modThread l.2 (fun t =>
      { t with pass := Nat.min (x.pass + 1) 64, yielding := t.yielding && !(mixed && x.yielding) })) s) s

/-- A candidate issues, with the notes of its selection. -/
def State.issueCand (s : State) (core pipe : Nat) (ready : List Nat) (u : Bool) (k : Cand) : Host.Outcome State Fault Refusal :=
  let s := s.noteSelection core pipe ready k.ctx
  let s := if u then s.modCore core (fun c => { c with uniformClk := s.now + 1 }) else s
  (s.passOver k.sets k.gang).issueRuns core k.ctx k.gang k.pc (gangRuns k.gang)

/-- Whether the whole gang of a candidate has only stalled: its instruction could not issue on this clk (R322). -/
def State.onlyStalled (s : State) (k : Cand) : Bool := (k.gang.flatMap (·.lanes)).all (fun l => s.laneStalled l.2 k.pc)

/-- Whether a candidate's instruction can issue on this clk (R322). -/
def State.canIssue (s : State) (core pipe : Nat) (k : Cand) : Bool :=
  match s.issueCand core pipe [] false k with
  | .next t => !t.onlyStalled k
  | _ => true

/-- Whether the uniform pipe grants this core's request now: no U-form instruction has issued on this clk, and no pipe that has
yet to issue requests it by an earlier key (R323). -/
def State.uniformGrants (s : State) (core : Nat) (k : Cand) : Bool :=
  (s.core core).uniformClk != s.now + 1 &&
    (s.sys.turns.filter (fun t => t.1 = core)).all (fun t =>
      !((s.cands t.1 t.2).find? (s.canIssue t.1 t.2)).any (fun x => s.candU x && lexLe x.key k.key))

/-- After a selection that only stalled its skein: the skein was not ready, so the pipe's notes, the uniform pipe and the
pass counts stand as they were before (R33, R322). -/
def State.unselect (s old : State) (core : Nat) (k : Cand) : State :=
  let s := s.modCore core (fun c => { c with uniformClk := (old.core core).uniformClk })
  let s : State := { s with skeins := s.skeins.map (fun x => match old.skeins.find x.1 with
    | some o => (x.1, { x.2 with passed := o.passed, young := o.young })
    | none => x) }
  (k.sets.flatMap (·.lanes)).foldl (fun (s : State) l => match old.thread l.2 with
    | some o => s.modThread l.2 (fun t => { t with pass := o.pass, yielding := o.yielding })
    | none => s) s

/-- The first candidate that can issue issues; one refused by the uniform pipe gives way to the next L-form one (R322, R323). -/
def State.issueFirst (s : State) (core pipe : Nat) (ready : List Nat) (refused : Bool) : List Cand → Host.Outcome State Fault Refusal
  | [] => .next s
  | k :: ks =>
    let u := s.candU k
    match s.issueCand core pipe ready u k with
    | .next t =>
      if t.onlyStalled k then (t.unselect s core k).issueFirst core pipe (ready.filter (· != k.ctx)) refused ks
      else if u && (refused || !s.uniformGrants core k) then s.issueFirst core pipe ready true ks
      else .next t
    | o => o

/-- One pipe of a core issues at most one instruction (R33, R54, R322, R323). -/
def State.issuePipe (s : State) (core pipe : Nat) : Host.Outcome State Fault Refusal :=
  let ks := s.cands core pipe
  s.issueFirst core pipe (ks.map (·.ctx)) false ks

/-! ### Walker threads (R360, R364) -/

/-- Whether a walker thread can issue (R360, R364, R484). -/
def State.walkerRuns (s : State) (n : Nat) (t : Thread) : Bool :=
  t.state == .ready && t.stall == .none && !t.stopped && !s.plat.fsWalker.contains (n / 16) && !s.plat.fsStack.contains (walkerStack n) &&
    (s.walkBlock (.walk n)).any (fun b => b.2.walkEnd.isNone) && !s.plat.stopped && !s.plat.off && s.plat.ready

/-- A walker thread's slot: it issues if it can, and its walk is not stalled (R360, R485). -/
def State.issueWalker (s : State) (n : Nat) : Host.Outcome State Fault Refusal :=
  match s.thread (.walk n) with
  | none => .next s
  | some t =>
    if !s.walkerRuns n t then .next s
    else
      let s := match t.walk with
        | some x => s.modBlock x.origin x.block (fun b => { b with lastWalk := s.now })
        | none => s
      s.issueGang (s.coreOf (.walk n)) Config.contexts none [(0, .walk n)] t.pc

/-- One turn of the model's order (log entry 5): a pipe of a core, or from 192 on a thread of a walker core. -/
def State.takeTurn (s : State) (t : Nat × Nat) : Host.Outcome State Fault Refusal :=
  if t.1 < Config.cores then s.issuePipe t.1 t.2 else s.issueWalker (16 * (t.1 - Config.cores) + t.2)

end Sys2Proof.Machine
end

