-- ==== Sys2Proof/Machine/Agenda.lean ====
section
/-!
DEFINITION. The device steps that fall due with the clock: what one clk ends or begins without an instruction, and the turns
of the pipes and walker cores on it (R41, R54, R55, R61, R63, R360, R381, R384; log entries 4 and 5).
-/
namespace Sys2Proof.Machine

/-- A due step runs by the meaning of the constructor of `Instr` of the same name. -/
def runDue (d : Due) (s : State) : Host.Outcome State Fault Refusal :=
  match d with
  | .draw core => execDraw core s
  | .registerGrant core => execRegisterGrant core s
  | .convergeStarveRelease who => execConvergeStarveRelease who s
  | .forcing who => execForcing who s
  | .starvation core slot o => execStarvation core slot o s
  | .claimDeadlock core => execClaimDeadlock core s
  | .coreRestart core => execCoreRestart core s
  | .implicitRelease who n => execImplicitRelease who n s
  | .tableWalk u asid root va => execTableWalk u asid root va s
  | .runAheadRollback id => execRunAheadRollback id s
  | .batchEntryDeferred => execBatchEntryDeferred s
  | .gatherAccess core => execGatherAccess core s
  | .accessAtHome => execAccessAtHome s
  | .commandHead q => execCommandHead q s
  | .commandComplete id => execCommandComplete id s
  | .commandEnd id code addr => execCommandEnd id code addr s
  | .commandHold id va => execCommandHold id va s
  | .multicastAbandon id => execMulticastAbandon id s
  | .graphNodeIssue core => execGraphNodeIssue core s
  | .carderDeal core => execCarderDeal core s
  | .streamChunk f slot => execStreamChunk f slot s
  | .cycleViolation f slot node cycles => execCycleViolation f slot node cycles s
  | .searchBlockStart stack => execSearchBlockStart stack s
  | .searchNop stack => execSearchNop stack s
  | .qload stack => execQload stack s
  | .hinit stack => execHinit stack s
  | .scan stack => execScan stack s
  | .cent stack => execCent stack s
  | .hmerge stack => execHmerge stack s
  | .hout stack => execHout stack s
  | .vclr stack => execVclr stack s
  | .walk stack => execWalk stack s
  | .searchPreempt stack => execSearchPreempt stack s
  | .searchResume stack => execSearchResume stack s
  | .walkerThreadStart stack => execWalkerThreadStart stack s
  | .hopTakeup stack => execHopTakeup stack s
  | .walkerMessage dst => execWalkerMessage dst s
  | .exitNotice stack => execExitNotice stack s
  | .walkStalled stack => execWalkStalled stack s
  | .lqTailDoorbell q v => execLqTailDoorbell q v s
  | .lqEnable q => execLqEnable q s
  | .lqDisable q => execLqDisable q s
  | .lqDisableEffect q => execLqDisableEffect q s
  | .recordAdmission => execRecordAdmission s
  | .extentTranslation g => execExtentTranslation g s
  | .gridRecord g => execGridRecord g s
  | .gangRecord g => execGangRecord g s
  | .graphRecord g => execGraphRecord g s
  | .waitOnValue g => execWaitOnValue g s
  | .waitOnValuePoll g => execWaitOnValuePoll g s
  | .signalRecord g => execSignalRecord g s
  | .teamPlacement => execTeamPlacement s
  | .teamRetire core slot => execTeamRetire core slot s
  | .gridRetire g => execGridRetire g s
  | .phaseComplete core ctx sc pc => execPhaseComplete core ctx sc pc s
  | .tsyncComplete core ctx pc => execTsyncComplete core ctx pc s
  | .tlbinvComplete core ctx pc => execTlbinvComplete core ctx pc s
  | .ctxsaveWrite core ctx pc => execCtxsaveWrite core ctx pc s
  | .idleTimer core slot => execIdleTimer core slot s
  | .hostMemoryWrite bar off bytes ep => execHostMemoryWrite bar off bytes ep s
  | .hostMemoryRead bar off n => execHostMemoryRead bar off n s
  | .pcieUnsupportedRequest addr => execPcieUnsupportedRequest addr s
  | .pcieError aerBit => execPcieError aerBit s
  | .hostLinkDown => execHostLinkDown s
  | .supervisorMailbox v => execSupervisorMailbox v s
  | .coldReset => execColdReset s
  | .warmReset => execWarmReset s
  | .kseedLock => execKseedLock s
  | .privLock => execPrivLock s
  | .domainJoin refused members => execDomainJoin refused members s
  | .attestationStart => execAttestationStart s
  | .attestationDone => execAttestationDone s
  | .coreResume core => execCoreResume core s
  | .eqHeadWrite n v => execEqHeadWrite n v s
  | .bqHeadWrite v => execBqHeadWrite v s
  | .registerWrite off size v => execRegisterWrite off size v s
  | .powerSample pkgW coreA badRails => execPowerSample pkgW coreA badRails s
  | .temperatureSample clusters stks => execTemperatureSample clusters stks s
  | .scrub pa found => execScrub pa found s
  | .unitFence u => execUnitFence u s
  | .coreIssueHang core => execCoreIssueHang core s
  | .deviceStop => execDeviceStop s
  | .deviceStopLinkDrop => execDeviceStopLinkDrop s
  | .remoteAccess dev pa size key k => execRemoteAccess dev pa size key k s
  | .directoryRequest dev line store => execDirectoryRequest dev line store s
  | .snoop line keep => execSnoop line keep s
  | .snoopReply line data => execSnoopReply line data s
  | .invalidation line => execInvalidation line s
  | .snoopTimeout line => execSnoopTimeout line s
  | .eorexPortFailure port retries => execEorexPortFailure port retries s
  | .deviceLossNotice dev => execDeviceLossNotice dev s
  | .collectiveDelivery group round contribs => execCollectiveDelivery group round contribs s
  | .collectiveTimeout group round mask => execCollectiveTimeout group round mask s
  | .collectiveAbort group round code mask => execCollectiveAbort group round code mask s
  | .illegalEncoding w1 w2 => execIllegalEncoding w1 w2 s
  | .sleepEnd who => execSleepEnd who s
  | .hostLinkRetrained => execHostLinkRetrained s
  | .powerDown => execPowerDown s

/-- Steps that come from outside the cores, engines, front end and base dies: these still reach a stopped device. -/
def Due.outside : Due → Bool
  | .hostMemoryWrite .. | .hostMemoryRead .. | .pcieUnsupportedRequest _ | .pcieError _ | .hostLinkDown | .hostLinkRetrained
  | .supervisorMailbox _ | .coldReset | .warmReset | .powerDown | .kseedLock | .privLock | .domainJoin .. | .coreResume _
  | .eqHeadWrite .. | .bqHeadWrite _ | .registerWrite .. | .lqTailDoorbell .. | .lqEnable _ | .lqDisable _ | .powerSample ..
  | .temperatureSample .. | .unitFence _ | .deviceStop | .deviceStopLinkDrop | .eorexPortFailure .. | .deviceLossNotice _ => true
  | _ => false

/-- A due step runs, unless it is the device's own and the device has stopped (R418). -/
def State.serve (s : State) (d : Due) : Host.Outcome State Fault Refusal :=
  if s.plat.stopped && !d.outside then .next s else runDue d s

/-! ### Stalls that end (R214, R239, R299) -/

/-- Whether what a stalled thread waits for has come; the stalls that end by a step of their own are not among these. -/
def State.stallOver (s : State) (w : Who) (t : Thread) : Bool :=
  let me := s.teamIdOf w
  match t.stall with
  | .none | .until _ | .completion | .grant _ => false
  | .events m => (s.team me).any (fun v => v.events &&& m != 0)
  | .owner => (s.core me.1).owner == some t.ctx
  | .ownerRoom => (s.core me.1).owner.all (· == t.ctx) || decide ((s.core me.1).ownerQueue.length < 8)
  | .queueRoom e => s.hasRoom e
  | .bank lo n => !s.cmds.any (fun c => c.engine = .matrix me.1 && c.team = me && c.op.banks.any (fun b => lo ≤ b && b < lo + n))
  | .teamIdle => !s.outstanding me
  | .handle f k => !s.fabBusy (f, k)
  | .carder => !s.carderTaken me
  | .walkRoom n => decide (s.mem.walkQueue.length + n ≤ walkRoom)
  | .childTable => decide (s.childCount < 4096)
  | .gather => !((s.core me.1).gather.any (fun g => g.who = w)) && decide ((gatherLines (s.core me.1).gather).length < gatherRoom)
  | .message => !t.msgs.isEmpty
  | .peer d => s.peerRoom d
  | .hopRoom k => decide ((s.die k).hops.length < 64)
  | .emitRoom c => (s.chan me c).all (fun x => x.kind != .emissions || decide (x.elems.length < x.room))

/-- A thread's stall ended; time spent idling counts for nothing (R299). -/
def Thread.unstalled (t : Thread) (now : Nat) : Thread :=
  match t.stall with
  | .events _ => { t with stall := .none, lastIssue := now }
  | _ => { t with stall := .none }

/-- Every stall that is over ends. -/
def State.unstall (s : State) : State :=
  let done := s.threads.filter (fun p => s.stallOver p.1 p.2)
  done.foldl (fun (s : State) p => (s.modThread p.1 (fun t => t.unstalled s.now)).wakeCore (s.coreOf p.1)) s

/-! ### What a clk itself changes -/

/-- The stretch of R55 ends for an object on which no thread is blocked any longer. -/
def State.clearWaits (s : State) : State :=
  let on (w : WaitOn) : Bool := !(s.blockedOn w (fun _ => true)).isEmpty
  let onOf (t : TeamId) (gang : Bool) (w : WaitOn) : Bool := !(s.blockedOn w (s.sharesBar gang t)).isEmpty
  let bars (t : TeamId) (bs : Table Nat Bar) : Table Nat Bar := bs.map (fun b =>
    (b.1, { b.2 with blockedSince := if onOf t (b.2.kind = .gang) (.bar b.1) then b.2.blockedSince else none }))
  let chans (t : TeamId) (cs : Table Nat Chan) : Table Nat Chan := cs.map (fun c =>
    (c.1, { c.2 with blockedSince := if onOf t (c.2.kind = .gang) (.chan c.1) then c.2.blockedSince else none }))
  let first (g : Nat) : TeamId := ((s.teams.find? (fun t => t.2.grid = g)).map (·.1)).getD (0, 16)
  let teams : Table TeamId Team := s.teams.map (fun t => (t.1, { t.2 with bars := bars t.1 t.2.bars, chans := chans t.1 t.2.chans }))
  let grids : Table Nat Grid := s.front.grids.map (fun g =>
    (g.1, { g.2 with gangBars := bars (first g.1) g.2.gangBars, gangChans := chans (first g.1) g.2.gangChans }))
  let hanks : Table Nat Hank := s.hanks.map (fun h =>
    (h.1, { h.2 with blockedSince := if on (.hank h.1) then h.2.blockedSince else none }))
  { s with teams, front := { s.front with grids }, hanks }

/-- The stretch of R61, and the clock gate of R63 and R64, of one core. -/
def State.coreClk (s : State) (c : Nat) : State :=
  let s := s.modCore c (fun k => { k with claimSince := if s.claimStuck c then some (k.claimSince.getD s.now) else none })
  if s.gateDue c then s.modCore c (fun k => { k with gated := true, restartAt := none })
  else if (s.coreThreads c).all (fun p => p.2.gates) then s else s.wakeCore c

/-- The cores in use. -/
def State.busyCores (s : State) : List Nat := s.cores.map (·.1)

/-! ### Steps that fall due -/

def dueIf (b : Bool) (d : Due) : List Due := if b then [d] else []

/-- Whether a count at `num` of every `den` clk advances on a clk, spread evenly. -/
def advances (num den clk : Nat) : Bool := clk * num / den != (clk - 1) * num / den

/-- Whether cores and their engines issue on this clk: `pw.frac` of every 16 (R381). -/
def State.issueClk (s : State) : Bool := advances s.plat.pwFrac 16 s.now

/-- The base-die cycle of a clk: 1.6 GHz against 2.5 GHz. -/
def baseCycle (clk : Nat) : Nat := clk * 16 / 25

/-- The engine queues that hold commands with a head to watch. -/
def queueOf : Engine → Option EngineQueue
  | .matrix c => some (.matrix c)
  | .copy c => some (.copy c)
  | .fabric f k => some (.fabric f k)
  | .round n => some (.round n)
  | .walker _ | .search _ => none

def queueOnCore : EngineQueue → Bool
  | .matrix _ | .copy _ => true
  | .fabric .. | .round _ => false

/-- Whether the head of a queue can leave it or be discarded. -/
def State.headDue (s : State) (q : EngineQueue) : Bool :=
  (s.headOf (engineOf q)).any (fun c =>
    match s.guardOf c with
    | none => false
    | some false => true
    | some true => !s.slotRuns c && (s.headBufs c).isSome)

/-- Whether a command past its head may have something to do. -/
def State.completeDue (s : State) (issue : Bool) (c : Cmd) : Bool :=
  c.left && !c.waitReplay && c.laterDsts.isEmpty && c.laterRels.isEmpty && !s.behind c &&
    (match c.op with
      | .coll _ => c.stage != 1
      | .graph g => (s.graphs.find g).any (fun g => g.started && decide (g.n ≤ g.finished))
      | .search k e _ => ((s.die k).blocks.find? (fun b => b.entry = e)).all (fun b => decide (b.records.length ≤ b.pos))
      | .sfRun f k _ => (s.fabs.find (f, k)).any (fun x => x.output.isSome && x.doomed.isNone)
      | _ => issue)

/-- The steps of engine commands. -/
def State.engineDues (s : State) : List Due :=
  let issue := s.issueClk
  let qs := (s.cmds.filterMap (fun c => queueOf c.engine)).foldl addOnce []
  (qs.filter (fun q => (issue || !queueOnCore q) && s.headDue q)).map Due.commandHead ++
  (s.cmds.filter (s.completeDue issue)).map (fun c => Due.commandComplete c.id) ++
  (s.casts.filter (fun k => decide (k.presented < k.want ∧ k.start + 250000 ≤ s.now))).map
    (fun k => Due.multicastAbandon (k.cmds.headD 0)) ++
  (sortBy (fun (x y : (Nat × Nat) × FabSlot) => decide (x.1.1 < y.1.1 ∨ (x.1.1 = y.1.1 ∧ x.1.2 ≤ y.1.2))) s.fabs).flatMap (fun x =>
    dueIf (x.2.run.isSome && x.2.output.isNone && x.2.doomed.isNone && !x.2.stuck) (.streamChunk x.1.1 x.1.2)) ++
  (if issue then
    (((s.graphs.map (fun g => g.2.core)).foldl addOnce []).map Due.graphNodeIssue) ++
    s.cores.flatMap (fun c => dueIf (c.2.carder.any (fun k => !k.done && k.held.isNone && decide (k.port.length < 32))) (.carderDeal c.1))
  else [])

/-- The step of a running block's current command. -/
def opDue (stack : Nat) (b : Block) (now : Nat) : List Due :=
  match b.records[b.pos]? with
  | none => []
  | some c =>
    match c.op with
    | 0 => [.searchNop stack] | 1 => [.qload stack] | 2 => [.hinit stack] | 3 => [.scan stack] | 4 => [.cent stack]
    | 5 => [.hmerge stack] | 6 => [.hout stack] | 7 => [.vclr stack]
    | _ =>
      if b.cursor = 0 then [.walk stack]
      else dueIf (decide (0 < b.walkLeft) && !b.preempting) (.walkerThreadStart stack) ++
        dueIf (decide (b.lastWalk + walkPatience ≤ now)) (.walkStalled stack)

/-- The steps of one search base die. -/
def State.dieDues (s : State) (stack : Nat) (d : SearchDie) : List Due :=
  let run : List Due := match d.running.bind (fun e => d.blocks.find? (fun b => b.entry = e)) with
    | some b =>
      if b.walkEnd.isSome then []
      else if (d.higherWaits b.prio || b.preempting) && !d.saveLost then [.searchPreempt stack] else opDue stack b s.now
    | none =>
      match d.spilled with
      | some b => if d.higherWaits b.prio then [.searchBlockStart stack] else [.searchResume stack]
      | none => dueIf d.nextBlock.isSome (.searchBlockStart stack)
  let half := s.plat.hotStacks.contains stack && baseCycle s.now % 2 == 1
  (if half then [] else run) ++
  dueIf ((d.hops.any (fun h => !s.hopHeld h)) && (s.idleWalker stack).isSome) (.hopTakeup stack) ++
  ((d.sends.map WalkMsg.dst).foldl addOnce []).map Due.walkerMessage ++
  dueIf (!d.notices.isEmpty) (.exitNotice stack) ++
  d.blocks.flatMap (fun b => match b.walkEnd with
    | some w => [.commandEnd b.cmdId (BitVec.ofNat 16 w.code) w.addr]
    | none => [])

/-- The steps of every search base die, on a base-die cycle. -/
def State.searchDues (s : State) : List Due :=
  if advances 16 25 s.now then (s.dies.filter (fun d => !s.plat.fsStack.contains d.1)).flatMap (fun d => s.dieDues d.1 d.2) else []

/-- The steps of threads. -/
def State.threadDues (s : State) : List Due :=
  s.threads.flatMap (fun p =>
    (match p.2.stall with
      | .until c => dueIf (decide (c ≤ s.now)) (.sleepEnd p.1)
      | _ => []) ++
    dueIf (s.heldOut p.1 p.2) (.convergeStarveRelease p.1) ++
    dueIf (s.forceDue p.1 p.2) (.forcing p.1))

/-- The objects of a team that R55 may time, with its gang's. -/
def State.objectsOf (s : State) (v : Team) : List SyncObj :=
  let g := s.grid v.grid
  let bars := v.bars.map (·.1) ++ (g.map (fun g => g.gangBars.map (·.1))).getD []
  let chans := v.chans.map (·.1) ++ (g.map (fun g => g.gangChans.map (·.1))).getD []
  bars.map SyncObj.barrier ++ chans.map SyncObj.channel

/-- The steps of synchronising objects. -/
def State.objectDues (s : State) : List Due :=
  let due (t : TeamId) (o : SyncObj) : List Due :=
    dueIf ((s.timed t o).any (fun x => x.due s.now (s.core t.1).starve)) (.starvation t.1 t.2 o)
  s.teams.flatMap (fun t => (s.objectsOf t.2).flatMap (due t.1)) ++ s.hanks.flatMap (fun h => due h.2.owner (.hank h.1))

/-- The steps of cores. -/
def State.coreDues (s : State) : List Due :=
  s.cores.flatMap (fun x =>
    let c := x.1
    let k := x.2
    dueIf (s.claimStuck c && k.claimSince.any (fun n => n + 1024 ≤ s.now)) (.claimDeadlock c) ++
    dueIf ((k.poolQueue.head?).any (fun r => decide (s.reqSize c r ≤ k.free))) (.registerGrant c) ++
    dueIf (s.canDraw c) (.draw c) ++
    dueIf (k.restartAt.any (fun n => decide (n ≤ s.now))) (.coreRestart c) ++
    List.replicate (Nat.max (s.gatherDue c) (if k.gather.any (fun g => !g.waiting) then 1 else 0)) (.gatherAccess c))

/-- The steps of teams and of pending context saves. -/
def State.teamDues (s : State) : List Due :=
  s.teams.flatMap (fun t =>
    dueIf (!t.2.saved && t.2.timers.any (fun c => decide (c ≤ s.now))) (.idleTimer t.1.1 t.1.2) ++
    dueIf ((s.threadsOf t.1).isEmpty && (t.2.ending.isSome || !(t.2.saved || t.2.saving))) (.teamRetire t.1.1 t.1.2)) ++
  s.pend.flatMap (fun p =>
    let t : TeamId := (p.core, p.slot)
    let at_ := ((s.skeinThreads p.core p.ctx).find? (fun x => x.2.stall = .completion)).map (fun x => x.2.pc)
    dueIf (at_.isNone || (s.team t).all (fun v => v.ending.isSome) || !s.outstanding t) (.ctxsaveWrite p.core p.ctx (at_.getD 0)))

/-- Whether the front end has a record to read, to translate, to mark or to allow. -/
def State.admissionDue (s : State) : Bool :=
  (s.front.queues.any (fun q => s.unread q.1)) || !s.toTranslate.isEmpty || (s.admitDue && !s.readyHeads.isEmpty) ||
    s.heads.any (fun g => g.2.atOnce && g.2.pendAt.isNone && !s.hopeless g.2 && (g.2.plan s.rooms).isNone)

/-- The steps of the launch front end. -/
def State.frontDues (s : State) : List Due :=
  dueIf s.admissionDue .recordAdmission ++
  s.front.grids.flatMap (fun g =>
    dueIf (g.2.kind == .waitOn && g.2.state == .admitted && decide (g.2.lastPoll + 256 ≤ s.now)) (.waitOnValuePoll g.1) ++
    dueIf (g.2.state == .admitted && s.workOver g.1 g.2) (.gridRetire g.1)) ++
  dueIf (s.placeDue && s.nextTeam.isSome) .teamPlacement ++
  s.front.queues.flatMap (fun q => dueIf (q.2.disabling && q.2.done == q.2.head) (.lqDisableEffect (Fin.ofNat 64 q.1)))

/-- Requests at the home directory that waited for room, and may find it now (R379). -/
def State.dirDues (s : State) : List Due :=
  s.dom.dir.flatMap (fun l =>
    match l.2.waiting with
    | (d, st) :: _ => dueIf (l.2.owner.isNone && !l.2.ownerLost && decide (s.dirCount < dirCapacity)) (.directoryRequest d l.1 st)
    | [] => [])

/-- The other steps: unanswered snoops, waiting batch entries, run-aheads that are over, held-back stores that reach their
homes at the model's free choice or whose time is over (R79, R91; log entry 6), and the walks that the table walkers serve (R102). -/
def State.otherDues (s : State) : List Due :=
  s.dom.dir.flatMap (fun l => dueIf (l.2.owner.isSome && l.2.snooped.any (fun t => decide (t + snoopPatience ≤ s.now))) (.snoopTimeout l.1)) ++
  dueIf (!s.errs.waiting.isEmpty && !s.errs.ringFull) .batchEntryDeferred ++
  (s.runs.filter RunAhead.over).map (fun r => Due.runAheadRollback r.id) ++ s.dirDues ++
  ((s.mem.stores.zipIdx.filter (fun p => p.1.due.any (· ≤ s.now) || Config.drainNow (s.sys.free + p.2))).map (fun _ => Due.accessAtHome)) ++
  (s.mem.walkQueue.take walkers).map (fun q => Due.tableWalk q.1 q.2.1 q.2.2.1 q.2.2.2)

/-- Every step that falls due on this clk, in the model's order (log entry 4). -/
def State.dues (s : State) : List Due :=
  s.otherDues ++ s.engineDues ++ s.searchDues ++ s.threadDues ++ s.coreDues ++ s.objectDues ++ s.teamDues ++ s.frontDues

/-- The turns of a clk: each pipe with skeins of each core, on an issue clk; then, on a base-die cycle, the thread of each
walker core whose slot it is (R17, R322, R360, R381, R384). -/
def State.turnsOf (s : State) : List (Nat × Nat) :=
  let pipes := if s.issueClk then
      (s.skeins.map (fun x => (x.1.1, x.2.pipe))).foldl addOnce []
    else []
  let b := baseCycle s.now
  let slots := if advances 16 25 s.now then
      s.threads.filterMap (fun p => match p.1 with
        | .walk n =>
          if n % 16 = b % 16 ∧ !(s.plat.hotStacks.contains (walkerStack n) && b / 16 % 2 == 1) then some (Config.cores + n / 16, n % 16) else none
        | .lane .. => none)
    else []
  sortBy (fun (x y : Nat × Nat) => decide (x.1 < y.1 ∨ (x.1 = y.1 ∧ x.2 ≤ y.2))) pipes ++ slots

/-- Whether the device's clocks run its units: it is brought up, not stopped and not off (R386, R413). -/
def State.live (s : State) : Bool := s.plat.ready && !s.plat.stopped && !s.plat.off

/-- Ten ms after a stop the ports drop (R501). -/
def State.dropDue (s : State) : Bool :=
  s.plat.stopped && decide (s.plat.stopAt + 25000000 ≤ s.now) && s.dom.portDown != List.range 18

/-- One clk passes: its error records are written, then what the next one ends and begins, the steps that fall due on it, and
its turns. -/
def State.nextClk (s : State) : State :=
  let s := s.writeRecords
  let s := s.setSys { s.sys with clk := s.sys.clk + 1 }
  if !s.live then s.due (dueIf s.dropDue .deviceStopLinkDrop)
  else
    let teams : Table TeamId Team := s.teams.map (fun t => (t.1, t.2.takeMode))
    let cores : Table Nat Core := s.cores.map (fun c => (c.1, c.2.takeTimes))
    let s : State := { s with teams, cores }
    let s := (s.arriveBufs.unstall).clearWaits
    let s := s.busyCores.foldl State.coreClk s
    let ds := s.dues
    s.setSys { s.sys with agenda := s.sys.agenda ++ ds, turns := s.turnsOf, free := s.sys.free + s.mem.stores.length }

end Sys2Proof.Machine
end

