-- ==== Sys2Proof/Machine/Step.lean ====
section
/-!
DEFINITION. The step: the oldest device step that is due, else the next turn of the clk, else the next clk (log entries 4 and
5); and the placing of one instruction where the next step fetches it (log entry 7).
-/
namespace Sys2Proof.Machine

/-- One step of the machine. -/
def step (s : State) : Host.Outcome State Fault Refusal :=
  match s.sys.agenda with
  | d :: ds => (s.setSys { s.sys with agenda := ds }).serve d
  | [] =>
    match s.sys.turns with
    | t :: ts => (s.setSys { s.sys with turns := ts }).takeTurn t
    | [] => .next s.nextClk

/-! ### Placing an instruction -/

/-- The virtual address at which a placed instruction stands. -/
def placeVa : Nat := 0x10000

/-- A leaf that allows every access. -/
def placeLeaf (pa : Nat) : DWord := dw (pa + 0x1F)

/-- The bytes of a placed instruction: its words in order, each least significant byte first (R7, R136). -/
def placeBytes (nbits w : Nat) : List Byte := bytesOf 8 (w % 2 ^ nbits)

/-- The words of a placed instruction, as the fetch reads them. -/
def placeWords (nbits w : Nat) : Word × Word := (wd (w % 2 ^ nbits), wd (w % 2 ^ nbits / 2 ^ 32))

/-- The resident supervisor team that a loaded program runs as, in slot 0 of core 0. -/
def placedTeam : Team := { grid := 0, index := 0, size := 1, gridSize := 1, sup := true, regs := 128 }

/-- The thread of a placed compute instruction. -/
def placedThread : Thread := { pc := dw placeVa, regs := List.replicate 128 0 }

/-- A state whose next step is the issue of the instruction by a compute thread. -/
def State.placeLane (s : State) (bytes : List Byte) : State :=
  { s with
    sys := { s.sys with agenda := [], turns := [(0, 0)] },
    teams := s.teams.put (0, 0) placedTeam,
    skeins := s.skeins.put (0, 0) { slot := 0, pipe := 0, formed := 0 },
    threads := s.threads.put (.lane 0 0 0) placedThread,
    cores := s.cores.put 0 { s.core 0 with free := Config.poolRegs - 128 },
    mem := { s.mem with
      cells := cellPuts s.mem.cells Config.tileBase bytes,
      tlbs := s.mem.tlbs.put (.core 0) [{ asid := 0, base := 1, log := 16, leaf := placeLeaf Config.tileBase }] } }

/-- The walk that a placed walker instruction belongs to. -/
def placedBlock : Block :=
  { entry := 0, cmdId := 0, core := 0, team := (0, 0), asid := 0, root := 0, prio := 0, order := 0, cursor := 1, walkLive := 1,
    started := true,
    records := [{ op := 8, q := 0, h := 0, t := 0, cur := false, metric := false, fmt := 0, stk := 0, dim := 0, addr := dw placeVa,
                  count := 1, snap := 0, fval := 0, fmask := 0, fcond := 0, arg := 0 }] }

/-- A state whose next step is the issue of the instruction by a walker thread. -/
def State.placeWalker (s : State) (bytes : List Byte) : State :=
  let d := s.die 0
  { s with
    sys := { s.sys with agenda := [], turns := [(Config.cores, 0)] },
    teams := s.teams.put (0, 0) placedTeam,
    threads := s.threads.put (.walk 0)
      { pc := dw placeVa, regs := List.replicate 32 0, walk := some { stack := 0, block := 0, cmd := 0, origin := 0, core := 0, team := 0, asid := 0 } },
    dies := s.dies.put 0 { d with blocks := [placedBlock], running := some 0 },
    mem := { s.mem with
      cells := cellPuts s.mem.cells 0 bytes,
      tlbs := s.mem.tlbs.put (.die 0) [{ asid := 0, base := 1, log := 16, leaf := placeLeaf 0 }] } }

/-- The instruction stored where the next step fetches, with the resident thread that fetches it: a walker thread for the
walker encodings of R149, else a compute thread of a supervisor team. It stands for a launch (log entry 7). -/
def State.withFetchWord (s : State) (nbits w : Nat) : State :=
  let ws := placeWords nbits w
  if walkerOnly ws.1 ws.2 then s.placeWalker (placeBytes nbits w) else s.placeLane (placeBytes nbits w)

end Sys2Proof.Machine
end

