-- ==== Sys2Proof/Safety.lean ====
section
/-!
DEFINITION. The terms that statements use: what a safe run is, when a gang is ready to act, and what it leaves behind.
-/
namespace Sys2Proof.Machine

/-! ### Safe runs -/

/-- The outcome of a step that goes on. -/
def goesOn (o : Host.Outcome State Fault Refusal) : Bool :=
  match o with
  | .next _ => true
  | .fault _ => false
  | .refused _ => false

/-- A state from which n steps meet no fault and no refusal. -/
def SafeFor (n : Nat) (s : State) : Prop := goesOn (Sys2Proof.core.run n s) = true

/-! ### What every step keeps -/

/-- Memory stands in its one form, the power limit in its range, and the issue fraction in sixteenths (R381, R393). -/
structure State.Sound (s : State) : Prop where
  mem : s.mem.wf
  limit : 500 ≤ s.plat.pwLim ∧ s.plat.pwLim ≤ 2000
  frac : 1 ≤ s.plat.pwFrac ∧ s.plat.pwFrac ≤ 16

/-! ### Gangs that are ready to act -/

/-- The issuing gang passes every check of an L-form instruction, none of its lanes meets a page, and its channels give and
take what it needs: `s'` is the machine once its sources have been read, `ls` its lanes with their values (R138, R429). It is
no run-ahead. -/
structure LaneReady (s : State) (sp : LaneSpec) (s' : State) (ls : List LaneIn) : Prop where
  plain : s.sys.issue.runAhead = none
  first : ∃ l rest, s.lanesIn sp = l :: rest ∧ l.who = s.leader
  known : ∀ l ∈ s.lanesIn sp, l.known = true
  checks : ∀ l ∈ s.lanesIn sp, sp.laneCheck s l.who l.t = none
  pages : ∀ l ∈ s.lanesIn sp, sp.page s l.who l.t = none
  chans : s.chanCheck s.issueTeam (whoIsWalk s.leader) sp.uses sp.push (s.lanesIn sp).length = none
  room : s'.pushRoom s.issueTeam sp.dst (s.lanesIn sp).length = true
  values : s.popLanes sp.srcs (s.lanesIn sp) = some (s', ls)

/-- The same for a gang of one lane. -/
structure SoloReady (s : State) (sp : LaneSpec) (s' : State) (l : LaneIn) : Prop where
  ready : LaneReady s sp s' [l]

/-- The machine once the popped channels' waiters have been woken: the state in which the instruction acts. -/
def State.acting (s s' : State) (sp : LaneSpec) : State := s'.wakePops s.issueTeam sp.pops

/-- What an act leaves behind, where no lane faults or pages: its results, flags, predicates, pushes and pcs, and the held
threads that R36 then releases. -/
def State.gangDone (s : State) (sp : LaneSpec) (t : State) (rs : List (LaneIn × LaneOut)) : State :=
  (t.writeLanes s.sys.issue sp s.issueTeam rs).releaseHeld s.sys.issue.core s.sys.issue.ctx

/-- The lanes of a gang acting in lane order, each on the machine that the one before left: `P` says what a lane makes of the
machine it finds, and what comes of it. -/
inductive InTurn {β : Type} (P : State → LaneIn → State → β → Prop) : State → List LaneIn → State → List β → Prop where
  | nil (s : State) : InTurn P s [] s []
  | cons {s u t : State} {l : LaneIn} {o : β} {ls : List LaneIn} {os : List β} :
      P s l u o → InTurn P u ls t os → InTurn P s (l :: ls) t (o :: os)

/-- What lanes that each act for themselves leave behind. -/
def State.eachDone (s s' : State) (sp : LaneSpec) (ls : List LaneIn) (f : State → LaneIn → LaneOut) : State :=
  s.gangDone sp (s.acting s' sp) (ls.map (fun l => (l, f (s.acting s' sp) l)))

/-- A thread about to transfer to a target: a walker thread that goes to a lower address is at a loop boundary (R360). -/
def State.arriving (s : State) (w : Who) (target : DWord) : State :=
  if whoIsWalk w && target.ult s.sys.issue.pc then s.walkBoundary w else s

/-! ### Operand shapes -/

/-- One 32-bit source and a 32-bit result; two; three. -/
def shape1 (d : Dst) (a : Src) : LaneSpec := { srcs := [(a, false)], dst := some (d, false) }
def shape2 (d : Dst) (a b : Src) : LaneSpec := { srcs := [(a, false), (b, false)], dst := some (d, false) }
def shape3 (d : Dst) (a b c : Src) : LaneSpec := { srcs := [(a, false), (b, false), (c, false)], dst := some (d, false) }

/-- Sources and a result of one type. -/
def shapeTy (t : Ty) (d : Dst) (srcs : List Src) : LaneSpec := { srcs := srcs.map (fun x => (x, t.wide)), dst := some (d, t.wide) }

/-- No source, a result of 32 or 64 bits. -/
def shapeD (d : Dst) (wide : Bool) : LaneSpec := { dst := some (d, wide) }

/-- A lane's outcome that is a 32-bit result. -/
def gives (v : Word) : LaneOut := { res := some (v.setWidth 64) }

/-- A lane's outcome that is a predicate. -/
def sets (p : Fin 8) (b : Bool) : LaneOut := { pred := some (p.val, b) }

/-- The access that a lane's load, store or atomic makes. -/
def State.memAccess (s : State) (l : LaneIn) (kind : AccKind) (m : MemAddr) (t : Ty) (plain : Bool) : Access :=
  { s.laneAccess l.who kind (effAddr m l.t (tySize t)) (tySize t) (tySize t) with plain }

/-- The issuing gang passes every check of a U-form instruction and its channels give and take what it needs: `s'` is the
machine once its sources have been read, `vs` their values (R288, R290). It is no run-ahead. -/
structure UReady (s : State) (srcs : List USrc) (dst : Option UDst) (s' : State) (vs : List DWord) : Prop where
  plain : s.sys.issue.runAhead = none
  chans : s.chanCheck s.issueTeam false (srcs.filterMap uuse) (upush dst) 1 = none
  room : s'.pushRoom s.issueTeam ((upush dst).map (fun c => (Dst.push (Fin.ofNat 32 c), true))) 1 = true
  values : s.popU s.issueTeam srcs = some (s', vs)

/-- The machine in which a U-form instruction acts. -/
def State.actingU (s s' : State) (srcs : List USrc) : State := s'.wakePops s.issueTeam (srcs.filterMap uchan)

/-- The gang of a U-form instruction that has acted: its result, if any, and its next pc (R288). -/
def State.uDone (s : State) (t : State) (dst : Option UDst) (o : UOut) : State := t.endU s.sys.issue s.issueTeam dst o

/-- The same for a supervisor instruction, in a team of supervisor level (R297). -/
structure SupReady (s : State) (srcs : List (Fin 64)) (dst : Option (Fin 64)) (s' : State) (vs : List DWord) : Prop where
  gang : UReady s (srcs.map .k) (dst.map .k) s' vs
  level : s.isSup s.issueTeam = true

/-- The gang of a supervisor instruction that has acted. -/
def State.supDone (s : State) (t : State) (dst : Option (Fin 64)) (o : UOut) : Host.Outcome State Fault Refusal :=
  .next (s.uDone t (dst.map .k) o)

/-- A checked command that its ranges and its queue let in (R239, R241). -/
structure MayIssue (s : State) (e : Engine) (op : CmdOp) (cf : CompField) : Prop where
  ranges : s.cmdRefused (s.mkCmd s.issueTeam e op cf) = none
  room : s.hasRoom e = true

/-- The machine once a command has been issued: the gang's stores are released and the command stands in its queue. -/
def State.issued (s : State) (e : Engine) (op : CmdOp) (cf : CompField) : State :=
  s.issueRelease.enqueue (s.mkCmd s.issueTeam e op cf)

/-- A lane's outcome that is a transfer of control. -/
def goes (target : DWord) : LaneOut := { next := .goto target }

end Sys2Proof.Machine
end

