-- ==== Sys2Proof/Certificates/Slice0/Obligations.lean ====
section
/-!
DEFINITION. The statements about the model: what each instruction and each step of the device does, what it leaves
unchanged, and what holds of the whole machine. Proofs are not part of this file.
-/
section Statements
open Sys2Proof Sys2Proof.Machine

/-! ### Integer and move instructions -/

/-- R167, R168, R175: the one-word integer instructions of two sources, on every operand form and every gang. -/
def Obligations.IntegerTwoSource : Prop :=
  ∀ p ∈ ([(.addI32, fun x y => x + y), (.subI32, fun x y => x - y), (.mulI32, fun x y => x * y), (.mulhI32, mulHigh),
      (.minI32, fun x y => if y.slt x then y else x), (.maxI32, fun x y => if x.slt y then y else x),
      (.and, fun x y => x &&& y), (.or, fun x y => x ||| y), (.xor, fun x y => x ^^^ y),
      (.shl, fun x y => x <<< y.toNat), (.shr, fun x y => x >>> y.toNat), (.sra, shiftArith),
      (.crc, fun x y => (bytesOf 4 y.toNat).foldl crcByte x), (.absdI32, absDiff), (.mulhN32, mulHighNat)] :
      List ((Dst → Src → Src → Instr) × (Word → Word → Word))),
    ∀ (d : Dst) (a b : Src) (s s' : State) (ls : List LaneIn), LaneReady s (shape2 d a b) s' ls →
      exec (p.1 d a b) s = .next (s.eachDone s' (shape2 d a b) ls (fun _ l => gives (p.2 (l.w 0) (l.w 1))))

/-- R167, R168: the one-word integer instructions of one source, those with an immediate among them.
R167, R169: `movi`, `movhi` and `movk`. -/
def Obligations.IntegerOneSource : Prop :=
  (∀ (d : Dst) (a : Src) (i : BitVec 8) (n : BitVec 5),
    ∀ p ∈ ([(.not d a, fun x => ~~~x), (.mov d a, fun x => x), (.clz d a, leadingZeros), (.popc d a, popCount),
        (.ctz d a, trailingZeros), (.bitrev d a, bitReverse),
        (.addI32Imm d a i, fun x => x + i.signExtend 32), (.andImm d a i, fun x => x &&& i.setWidth 32),
        (.orImm d a i, fun x => x ||| i.setWidth 32), (.xorImm d a i, fun x => x ^^^ i.setWidth 32),
        (.shlImm d a n, fun x => x <<< n.toNat), (.shrImm d a n, fun x => x >>> n.toNat),
        (.sraImm d a n, fun x => x.sshiftRight n.toNat)] : List (Instr × (Word → Word))),
      ∀ (s s' : State) (ls : List LaneIn), LaneReady s (shape1 d a) s' ls →
        exec p.1 s = .next (s.eachDone s' (shape1 d a) ls (fun _ l => gives (p.2 (l.w 0))))) ∧
  (∀ (s s' : State) (ls : List LaneIn) (i : BitVec 16),
    (∀ d, LaneReady s (shapeD d false) s' ls →
      exec (.movi d i) s = .next (s.eachDone s' (shapeD d false) ls (fun _ _ => gives (i.signExtend 32)))) ∧
    (∀ d : Fin 128, LaneReady s (shape1 (.reg d) (.reg d)) s' ls →
      exec (.movhi d i) s = .next (s.eachDone s' (shape1 (.reg d) (.reg d)) ls (fun _ l => gives (i ++ (l.w 0).setWidth 16)))) ∧
    (∀ d k m, LaneReady s (shapeD d (m == .full)) s' ls →
      exec (.movk d k m) s = .next (s.eachDone s' (shapeD d (m == .full)) ls (fun t _ =>
        { res := some (match m with
            | .full => t.readK k.val
            | .lo => t.readK k.val &&& 0xFFFFFFFF#64
            | .hi => t.readK k.val >>> 32) }))))

/-- R174: bit fields, funnel shift and address arithmetic. -/
def Obligations.BitFields : Prop :=
  ∀ (s s' : State) (ls : List LaneIn),
    (∀ sg pos len d a, LaneReady s (shape1 d a) s' ls →
      exec (.bfe sg pos len d a) s = .next (s.eachDone s' (shape1 d a) ls (fun _ l =>
        gives (wd (if sg then wrapTo 32 (signedOf len.toNat ((l.w 0).toNat / 2 ^ pos.toNat % 2 ^ len.toNat))
          else (l.w 0).toNat / 2 ^ pos.toNat % 2 ^ len.toNat))))) ∧
    (∀ pos len d a b, LaneReady s (shape2 d a b) s' ls →
      exec (.bfi pos len d a b) s = .next (s.eachDone s' (shape2 d a b) ls (fun _ l =>
        let m : Word := wd ((2 ^ len.toNat - 1) * 2 ^ pos.toNat)
        gives ((l.w 0 &&& ~~~m) ||| ((l.w 1 <<< pos.toNat) &&& m))))) ∧
    (∀ d a b c, LaneReady s (shape3 d a b c) s' ls →
      exec (.fsh d a b c) s = .next (s.eachDone s' (shape3 d a b c) ls (fun _ l =>
        { res := some (((l.w 0 ++ l.w 1 : BitVec 64) <<< ((l.w 2).toNat % 32)) >>> 32) }))) ∧
    (∀ sg off sh (d : Dst) (a b : Src),
      LaneReady s { srcs := [(a, true), (b, false)], dst := some (d, true) } s' ls →
      exec (.lea sg off sh d a b) s =
        .next (s.eachDone s' { srcs := [(a, true), (b, false)], dst := some (d, true) } ls (fun _ l =>
          { res := some (l.v 0 + ((if sg then (l.w 1).signExtend 64 else (l.w 1).setWidth 64) <<< sh.val) + off.signExtend 64) })))

/-- R184, R185, R186: packing, comparison and selection. -/
def Obligations.PackingAndSelection : Prop :=
  ∀ (s s' : State) (ls : List LaneIn) (t : Ty),
    (∀ d a b, LaneReady s (shape2 d a b) s' ls →
      exec (.pack t d a b) s = .next (s.eachDone s' (shape2 d a b) ls (fun _ l => gives (packWords t (l.w 0) (l.w 1))))) ∧
    (∀ (d : Dst) a, LaneReady s { srcs := [(a, false)], dst := some (d, true) } s' ls →
      exec (.unpack t d a) s = .next (s.eachDone s' { srcs := [(a, false)], dst := some (d, true) } ls (fun _ l =>
        { res := some (unpackWord t (l.w 0)) }))) ∧
    (∀ c p a b, LaneReady s { srcs := [(a, t.wide), (b, t.wide)], pdst := some p.val } s' ls →
      exec (.cmp c t p a b) s = .next (s.eachDone s' { srcs := [(a, t.wide), (b, t.wide)], pdst := some p.val } ls (fun _ l =>
        { pred := some (p.val, (cmpElem c t (l.v 0).toNat (l.v 1).toNat).1),
          fl := (cmpElem c t (l.v 0).toNat (l.v 1).toNat).2 }))) ∧
    (∀ p neg d a b, LaneReady s { shapeTy t d [a, b] with preds := [p.val] } s' ls →
      exec (.sel t p neg d a b) s = .next (s.eachDone s' { shapeTy t d [a, b] with preds := [p.val] } ls (fun _ l =>
        { res := some (if l.t.pred p.val != neg then l.v 0 else l.v 1) })))

/-! ### Element-wise and floating-point instructions -/

/-- R163, R171, R172, R176 to R178, R181: the two-word arithmetic on the elements of a format: every element's result by the
operation named, the flags of all elements together. -/
def Obligations.ElementArithmetic : Prop :=
  ∀ (f : Fmt) (d : Dst) (a b c : Src),
    ∀ p ∈ ([(.add f d a b, [a, b], f.ty.isSigned,
          exactOp f (fun x => intAt x 0 + intAt x 1) (fun m v => FVal.add m (FVal.at v 0) (FVal.at v 1))),
        (.sub f d a b, [a, b], f.ty.isSigned,
          exactOp f (fun x => intAt x 0 - intAt x 1) (fun m v => FVal.sub m (FVal.at v 0) (FVal.at v 1))),
        (.mul f d a b, [a, b], f.ty.isSigned,
          exactOp f (fun x => intAt x 0 * intAt x 1) (fun _ v => FVal.mul (FVal.at v 0) (FVal.at v 1))),
        (.mad f d a b c, [a, b, c], f.ty.isSigned,
          exactOp f (fun x => intAt x 0 * intAt x 1 + intAt x 2) (fun m v => FVal.fma m (FVal.at v 0) (FVal.at v 1) (FVal.at v 2))),
        (.sqrt f d a, [a], false, fpOp f (fun _ v => FVal.sqrt (FVal.at v 0))),
        (.fma f d a b c, [a, b, c], false, fpOp f (fun m v => FVal.fma m (FVal.at v 0) (FVal.at v 1) (FVal.at v 2))),
        (.min f d a b, [a, b], f.ty.isSigned, fun _ x => minMaxElem f.ty false x),
        (.max f d a b, [a, b], f.ty.isSigned, fun _ x => minMaxElem f.ty true x),
        (.mulh f d a b, [a, b], f.ty.isSigned, fun _ x =>
          (wrapTo (2 * f.ty.bits) (intVal f.ty (x.getD 0 0) * intVal f.ty (x.getD 1 0)) / 2 ^ f.ty.bits, 0)),
        (.rem f d a b, [a, b], f.ty.isSigned, fun _ x => intRem f.ty (x.getD 0 0) (x.getD 1 0)),
        (.div f d a b, [a, b], f.ty.isSigned, fun m x => match tyFmt f.ty with
          | none => intDiv f.ty (x.getD 0 0) (x.getD 1 0)
          | some F => F.finish m f.rc.sat (FVal.div (F.decode (x.getD 0 0)) (F.decode (x.getD 1 0)))),
        (.abs f d a, [a], f.ty.isSigned, fun _ x => match tyFmt f.ty with
          | none => (intElem f.ty f.rc.sat (intVal f.ty (x.getD 0 0)).natAbs, 0)
          | some F => F.absCode (x.getD 0 0)),
        (.neg f d a, [a], f.ty.isSigned, fun _ x => match tyFmt f.ty with
          | none => (intElem f.ty f.rc.sat (-(intVal f.ty (x.getD 0 0))), 0)
          | some F => F.negCode (x.getD 0 0)),
        (.absd f d a b, [a, b], false, fun m x => match tyFmt f.ty with
          | none => ((intVal f.ty (x.getD 0 0) - intVal f.ty (x.getD 1 0)).natAbs, 0)
          | some F => F.finish m f.rc.sat (FVal.absd m (F.decode (x.getD 0 0)) (F.decode (x.getD 1 0)))),
        (.rnd f d a, [a], false, fun m x => match tyFmt f.ty with
          | some F => F.rnd m (x.getD 0 0)
          | none => (0, 0))] : List (Instr × List Src × Bool × (RMode → List Nat → Nat × Flags))),
      ∀ (s s' : State) (ls : List LaneIn), LaneReady s (shapeTy f.ty d p.2.1) s' ls →
        exec p.1 s = .next (s.eachDone s' (shapeTy f.ty d p.2.1) ls (fun t l =>
          { res := some (eachElem f p.2.2.1 l.vals (p.2.2.2 (t.roundMode l.who f.rc.mode))).1,
            fl := (eachElem f p.2.2.1 l.vals (p.2.2.2 (t.roundMode l.who f.rc.mode))).2 }))

/-- R173, R176, R182, R183: the instructions whose sources and result differ in width. -/
def Obligations.WideningAndConversion : Prop :=
  ∀ (s s' : State) (ls : List LaneIn),
    (∀ (f : Fmt) d a b c (wide : Bool), wide = (f.ty.bits == 32) →
      LaneReady s { srcs := [(a, false), (b, false), (c, wide)], dst := some (d, wide) } s' ls →
      exec (.madw f d a b c) s =
        .next (s.eachDone s' { srcs := [(a, false), (b, false), (c, wide)], dst := some (d, wide) } ls (fun _ l =>
          let w := if wide then 64 else 32
          let x := (List.range f.pk.count).foldl
            (fun acc e => acc + intVal f.ty (elemAt f.ty.bits (l.v 0) e) * intVal f.ty (elemAt f.ty.bits (l.v 1) e))
            (if f.ty.isSigned then signedOf w (l.v 2).toNat else (((l.v 2).toNat % 2 ^ w : Nat) : Int))
          { res := some (dw (wrapTo w (if f.rc.sat then clampInt f.ty.isSigned w x else x))) }))) ∧
    (∀ (f : Fmt) (F : FpFmt) d a b, tyFmt f.ty = some F →
      LaneReady s { srcs := [(a, f.ty.wide), (b, false)], dst := some (d, f.ty.wide) } s' ls →
      exec (.scalb f d a b) s =
        .next (s.eachDone s' { srcs := [(a, f.ty.wide), (b, false)], dst := some (d, f.ty.wide) } ls (fun t l =>
          let r := F.finish (t.roundMode l.who f.rc.mode) f.rc.sat (FVal.scalb (F.decode (l.v 0).toNat) (l.w 1).toInt)
          { res := some (dw r.1), fl := r.2 }))) ∧
    (∀ (f : CvtFmt) d a,
      LaneReady s { srcs := [(a, decide (32 < f.srcBits))], dst := some (d, decide (32 < f.dstBits)) } s' ls →
      exec (.cvt f d a) s =
        .next (s.eachDone s' { srcs := [(a, decide (32 < f.srcBits))], dst := some (d, decide (32 < f.dstBits)) } ls (fun t l =>
          let rs := (List.range f.count).map (fun e =>
            cvtElem (t.roundMode l.who f.rc.mode) f.rc.sat f.dst f.src (elemAt f.src.width (l.v 0) e))
          { res := some (if f.count = 1 then dw (extendTo32 (cvtSigned f.dst) f.dst.width ((rs.map (·.1)).headD 0))
              else joinElems f.dst.width (rs.map (·.1))),
            fl := rs.foldl (fun x r => x ||| r.2) 0 })))

/-- R176 to R180: the one-word binary32 instructions, with the rounding mode of `$fmode`, and those on codes. -/
def Obligations.Binary32 : Prop :=
  ∀ (d : Dst) (a b : Src) (s s' : State) (ls : List LaneIn),
    (∀ p ∈ ([(.addF32 d a b, [a, b], fun m v => FVal.add m (FVal.at v 0) (FVal.at v 1)),
        (.subF32 d a b, [a, b], fun m v => FVal.sub m (FVal.at v 0) (FVal.at v 1)),
        (.mulF32 d a b, [a, b], fun _ v => FVal.mul (FVal.at v 0) (FVal.at v 1)),
        (.divF32 d a b, [a, b], fun _ v => FVal.div (FVal.at v 0) (FVal.at v 1)),
        (.sqrtF32 d a, [a], fun _ v => FVal.sqrt (FVal.at v 0)), (.rsqrtF32 d a, [a], fun _ v => FVal.rsqrt (FVal.at v 0)),
        (.rcpF32 d a, [a], fun _ v => FVal.rcp (FVal.at v 0)), (.exp2F32 d a, [a], fun _ v => FVal.exp2 (FVal.at v 0)),
        (.log2F32 d a, [a], fun _ v => FVal.log2 (FVal.at v 0)), (.sinF32 d a, [a], fun _ v => FVal.trig false (FVal.at v 0)),
        (.cosF32 d a, [a], fun _ v => FVal.trig true (FVal.at v 0)), (.tanhF32 d a, [a], fun _ v => FVal.tanh (FVal.at v 0))] :
        List (Instr × List Src × (RMode → List FVal → FVal × Flags))),
      LaneReady s { srcs := p.2.1.map (fun x => (x, false)), dst := some (d, false) } s' ls →
      exec p.1 s = .next (s.eachDone s' { srcs := p.2.1.map (fun x => (x, false)), dst := some (d, false) } ls (fun t l =>
        let m := t.roundMode l.who .dyn
        let r := f32F.finish m false (p.2.2 m (l.vals.map (fun v => f32F.decode v.toNat)))
        { res := some (dw r.1), fl := r.2 }))) ∧
    (∀ p ∈ ([(.minF32 d a b, [a, b], fun x => f32F.minMax false (x.getD 0 0) (x.getD 1 0)),
        (.maxF32 d a b, [a, b], fun x => f32F.minMax true (x.getD 0 0) (x.getD 1 0)),
        (.fclassF32 d a, [a], fun x => (2 ^ fclassBit (x.getD 0 0), 0)), (.absF32 d a, [a], fun x => f32F.absCode (x.getD 0 0))] :
        List (Instr × List Src × (List Nat → Nat × Flags))),
      LaneReady s { srcs := p.2.1.map (fun x => (x, false)), dst := some (d, false) } s' ls →
      exec p.1 s = .next (s.eachDone s' { srcs := p.2.1.map (fun x => (x, false)), dst := some (d, false) } ls (fun _ l =>
        let r := p.2.2 (l.vals.map (fun v => v.toNat % 2 ^ 32))
        { res := some (dw r.1), fl := r.2 })))

/-! ### Predicates and lanes -/

/-- R187: predicate moves and logic. -/
def Obligations.Predicates : Prop :=
  ∀ (s s' : State) (ls : List LaneIn) (n m k : Fin 8),
    (∀ a, LaneReady s { srcs := [(a, false)], pdst := some n.val } s' ls →
      exec (.pmovFromReg n a) s = .next (s.eachDone s' { srcs := [(a, false)], pdst := some n.val } ls (fun _ l => sets n (l.w 0 != 0)))) ∧
    (∀ d, LaneReady s { dst := some (d, false), preds := [n.val] } s' ls →
      exec (.pmovToReg d n) s = .next (s.eachDone s' { dst := some (d, false), preds := [n.val] } ls (fun _ l =>
        { res := some (if l.t.pred n.val then 1 else 0) }))) ∧
    (∀ p ∈ ([(.pmovPred n m, [m], fun t => t.pred m.val), (.pnot n m, [m], fun t => !t.pred m.val),
        (.pand n m k, [m, k], fun t => t.pred m.val && t.pred k.val), (.por n m k, [m, k], fun t => t.pred m.val || t.pred k.val),
        (.pxor n m k, [m, k], fun t => t.pred m.val != t.pred k.val)] : List (Instr × List (Fin 8) × (Thread → Bool))),
      LaneReady s { preds := p.2.1.map (·.val), pdst := some n.val } s' ls →
      exec p.1 s = .next (s.eachDone s' { preds := p.2.1.map (·.val), pdst := some n.val } ls (fun _ l => sets n (p.2.2 l.t))))

/-- R188, R189: each lane receives the value of the lane it reads, or its own where that lane is not in the gang. A thread
outside a run-ahead has no unknown register. -/
def Obligations.LaneExchanges : Prop :=
  ∀ (d : Dst) (a b : Src) (o : LaneOff),
    ∀ p ∈ ([(.lperm d a b, [a, b], fun l => (l.w 1).toNat % 32), (.lrot d a o, [a], fun l => (l.lane + LaneOff.value o) % 32),
        (.lxor d a o, [a], fun l => (l.lane ^^^ (LaneOff.value o % 32)) % 32), (.lbcast d a o, [a], fun _ => LaneOff.value o % 32)] :
        List (Instr × List Src × (LaneIn → Nat))),
      ∀ (s s' : State) (ls : List LaneIn), (∀ l ∈ ls, l.t.unkRegs = []) →
        LaneReady s { srcs := p.2.1.map (fun x => (x, false)), dst := some (d, false), cross := true } s' ls →
        exec p.1 s = .next (s.eachDone s' { srcs := p.2.1.map (fun x => (x, false)), dst := some (d, false), cross := true } ls
          (fun _ l => gives (((ls.find? (fun x => x.lane = p.2.2 l)).getD l).w 0)))

/-- R190: a mask over the lanes of the gang, bit l for lane l: the lanes whose value is not zero (`lballot`), or equals the
lane's own (`lmatch`). -/
def Obligations.LaneVotes : Prop :=
  ∀ (d : Dst) (a : Src),
    ∀ p ∈ ([(.lballot d a, fun _ x => x != 0), (.lmatch d a, fun y x => x == y)] : List (Instr × (Word → Word → Bool))),
      ∀ (s s' : State) (ls : List LaneIn),
        LaneReady s { srcs := [(a, false)], dst := some (d, false), cross := true } s' ls →
        exec p.1 s = .next (s.eachDone s' { srcs := [(a, false)], dst := some (d, false), cross := true } ls (fun _ l =>
          { res := some (dw (State.vote.maskOfLanes ((ls.filter (fun x => p.2 (l.w 0) (x.w 0))).map (·.lane)))) }))

/-- R191: every lane receives what the tree of five steps leaves in its place, with the flags of its own path.
R192: a lane receives the combination of the values up to its own lane, or, exclusive, of those below it: the result
of the nearest lane of the gang below it, and the identity where there is none. -/
def Obligations.LaneReductions : Prop :=
  (∀ (op : RedOp) (t : Ty) (rc : Rc) (d : Dst) (a : Src) (s s' : State) (ls : List LaneIn),
    LaneReady s { srcs := [(a, t.wide)], dst := some (d, t.wide), cross := true } s' ls →
    exec (.lred op t rc d a) s =
      .next (s.eachDone s' { srcs := [(a, t.wide)], dst := some (d, t.wide), cross := true } ls (fun u l =>
        let f := combineVals op t (u.roundMode u.leader rc.mode) rc.sat
        let v := redStep f (redStep f (redStep f (redStep f (redStep f (laneVals ls t.bits) 0) 1) 2) 3) 4
        { res := some (dw ((v.getD l.lane (none, 0)).1.getD 0)), fl := (v.getD l.lane (none, 0)).2 }))) ∧
  (∀ (op : RedOp) (excl : Bool) (t : Ty) (rc : Rc) (d : Dst) (a : Src) (s s' : State) (ls : List LaneIn),
    LaneReady s { srcs := [(a, t.wide)], dst := some (d, t.wide), cross := true } s' ls →
    exec (.lscan op excl t rc d a) s =
      .next (s.eachDone s' { srcs := [(a, t.wide)], dst := some (d, t.wide), cross := true } ls (fun u l =>
        let f := combineVals op t (u.roundMode u.leader rc.mode) rc.sat
        let v := scanStep f (scanStep f (scanStep f (scanStep f (scanStep f (laneVals ls t.bits) 0) 1) 2) 3) 4
        match (if excl then (ls.filter (fun x => x.lane < l.lane)).getLast? else some l) with
        | some b => { res := some (dw ((v.getD b.lane (none, 0)).1.getD 0)), fl := (v.getD b.lane (none, 0)).2 }
        | none => { res := some (dw (redIdentity op t)) })))

/-! ### Control -/

/-- R136, R139, R202, R204: a branch is taken in the lanes whose predicate says so, `switch` in those whose index is below
8; the others go on. The target is pc + 4 × offset. -/
def Obligations.Branches : Prop :=
  ∀ (s s' : State) (ls : List LaneIn),
    (∀ p off, LaneReady s { preds := predOf p } s' ls → (∀ l ∈ ls, whoIsWalk l.who = false) →
      exec (.br p off) s = .next (s.eachDone s' { preds := predOf p } ls (fun _ l =>
        if (match p with | none => true | some q => l.t.pred q.p.val != q.neg) then
          goes (s.sys.issue.pc + BitVec.ofInt 64 (4 * off.toInt)) else {}))) ∧
    (∀ p off l, SoloReady s { preds := predOf p } s' l → whoIsWalk l.who = true → brTaken p l.t = true →
      exec (.br p off) s =
        (let target := s.sys.issue.pc + BitVec.ofInt 64 (4 * off.toInt)
         .next (s.gangDone { preds := predOf p } ((s.acting s' { preds := predOf p }).arriving l.who target) [(l, goes target)]))) ∧
    (∀ i off, LaneReady s { srcs := [(i, false)] } s' ls →
      exec (.switch i off) s = .next (s.eachDone s' { srcs := [(i, false)] } ls (fun _ l =>
        if (l.w 0).toNat < 8 then goes (s.sys.issue.pc + BitVec.ofInt 64 (4 * (off.toInt + (l.w 0).toNat))) else {})))

/-- R202, R203, R432, R434: calls push the return address, `ret` goes to the newest one and drops it, `jr` goes to a
register's value and clears `trap_active`, which is the return from a trap. -/
def Obligations.CallsAndReturns : Prop :=
  ∀ (s s' t : State) (ls : List LaneIn) (os : List LaneOut),
    (∀ p off,
      (let sp : LaneSpec := { preds := predOf p, check := callCheck p }
       LaneReady s sp s' ls →
       InTurn (fun u l v o =>
         let target := u.sys.issue.pc + BitVec.ofInt 64 (4 * off.toInt)
         if brTaken p l.t then
           v = (u.modThread l.who (fun t => { t with rstack := (u.sys.issue.pc + 4) :: t.rstack })).arriving l.who target ∧ o = goes target
         else v = u ∧ o = {}) (s.acting s' sp) ls t os →
       exec (.call p off) s = .next (s.gangDone sp t (ls.zip os)))) ∧
    (let sp : LaneSpec := { check := retCheck }
     LaneReady s sp s' ls →
     InTurn (fun u l v o =>
       v = (u.modThread l.who (fun t => { t with rstack := t.rstack.drop 1 })).arriving l.who (l.t.rstack.headD 0) ∧
       o = goes (l.t.rstack.headD 0)) (s.acting s' sp) ls t os →
     exec .ret s = .next (s.gangDone sp t (ls.zip os))) ∧
    (∀ a : Fin 128,
      (let sp : LaneSpec := { srcs := [(.reg a, true)], check := jrCheck a.val }
       LaneReady s sp s' ls →
       InTurn (fun u l v o =>
         v = (u.modThread l.who (fun t => { t with trapActive := false, pc := l.v 0 })).arriving l.who (l.v 0) ∧ o = goes (l.v 0))
         (s.acting s' sp) ls t os →
       exec (.jr a) s = .next (s.gangDone sp t (ls.zip os)))) ∧
    (∀ a : Fin 128,
      (let sp : LaneSpec := { srcs := [(.reg a, true)], check := calrCheck a.val }
       LaneReady s sp s' ls →
       InTurn (fun u l v o =>
         v = (u.modThread l.who (fun t => { t with rstack := (u.sys.issue.pc + 4) :: t.rstack })).arriving l.who (l.v 0) ∧ o = goes (l.v 0))
         (s.acting s' sp) ls t os →
       exec (.calr a) s = .next (s.gangDone sp t (ls.zip os))))

/-- R36, R205: the lanes of `converge` are held; where R36 releases the threads held there, they go past it together with
their waited bits cleared; threads released by `$starve` issue it by themselves. -/
def Obligations.Converge : Prop :=
  ∀ (s : State), s.sys.issue.runAhead = none →
    (let i := s.sys.issue
     let h := s.gangGo (fun t => if t.released then t else { t with state := .held, heldSince := s.now })
     let ms := h.skeinThreads i.core i.ctx
     ((∀ p ∈ ms, p.2.released = false) → releaseDue ms i.pc = false →
       exec .converge s = .next (h.releaseHeld i.core i.ctx)) ∧
     ((∀ p ∈ ms, p.2.released = false) → releaseDue ms i.pc = true →
       exec .converge s = .next (((ms.filter (fun p => p.2.pc = i.pc ∧ p.2.state = .held)).foldl (fun u p =>
         u.modThread p.1 (fun t => { t with pc := i.pc + 4, waited := false, state := .ready, released := false, lastIssue := u.now })) h).releaseHeld
           i.core i.ctx)) ∧
     (releaseDue ms i.pc = false →
       exec .converge s = .next (((ms.filter (fun p => p.2.pc = i.pc ∧ p.2.released ∧ p.1 ∈ i.lanes.map (·.2))).foldl (fun u p =>
         u.modThread p.1 (fun t => { t with pc := i.pc + 4, waited := false, state := .ready, released := false, lastIssue := u.now })) h).releaseHeld
           i.core i.ctx)))

/-- R39, R206, R207, R210, R50: `reform` sends its lanes to bobbins, `spawn` starts a thread under the lowest free $tid,
`exit` ends a thread; a team's last thread stays until the team's engine operations have retired. -/
def Obligations.ThreadsComeAndGo : Prop :=
  ∀ (s s' t : State) (ls : List LaneIn) (os : List LaneOut),
    exec .reform s = .next ((((s.sys.issue.lanes.foldl (fun u x => u.startFiling x.2 (s.sys.issue.pc + 4)) s).fileAll s.sys.issue.core).sweepSkein
      s.sys.issue.core s.sys.issue.ctx).releaseHeld s.sys.issue.core s.sys.issue.ctx) ∧
    (∀ (d : Dst) (a b : Fin 128),
      (let sp : LaneSpec := { srcs := [(.reg a, true), (.reg b, false)], dst := some (d, false), check := jrCheck a.val }
       LaneReady s sp s' ls →
       InTurn (fun u l v o => ∃ (x : Team) (n : Nat),
         (let t := u.teamIdOf l.who
          u.team t = some x ∧ u.freeTid t x.size = some n ∧
          v = (u.createThread t x n (l.v 0) [l.w 1, wd (whoTid l.who)]).fileAll t.1 ∧ o = { res := some (dw n) })) (s.acting s' sp) ls t os →
       exec (.spawn d a b) s = .next (s.gangDone sp t (ls.zip os)))) ∧
    (LaneReady s {} s' ls →
     InTurn (fun u l v o =>
       match l.who with
       | .lane c k _ =>
         (1 < (u.threadsOf (c, k)).length ∧ v = u.exitThread l.who ∧ o = { next := .gone }) ∨
         ((u.threadsOf (c, k)).length ≤ 1 ∧ (u.abandonGraphs (c, k)).outstanding (c, k) = false ∧
           v = (u.abandonGraphs (c, k)).exitThread l.who ∧ o = { next := .gone }) ∨
         ((u.threadsOf (c, k)).length ≤ 1 ∧ (u.abandonGraphs (c, k)).outstanding (c, k) = true ∧
           v = u.abandonGraphs (c, k) ∧ o = { next := .stay, stall := .teamIdle })
       | .walk _ => v = u.exitThread l.who ∧ o = { next := .gone }) (s.acting s' {}) ls t os →
     exec .exit s = .next (s.gangDone {} t (ls.zip os)))

/-- R212, R213, R36: `yield` and `sleep` go on at the next instruction, and the end of a sleep and of a hold. -/
def Obligations.YieldAndSleep : Prop :=
  (∀ (s s' : State) (ls : List LaneIn), LaneReady s {} s' ls →
    exec .yield s =
      .next (((s.eachDone s' {} ls (fun _ _ => {})).gangGo (fun t => { t with yielding := true })).modSkein
        s.sys.issue.core s.sys.issue.ctx (fun k => { k with young := true })) ∧
    ∀ n : BitVec 8, exec (.sleep n) s =
      .next ((s.eachDone s' {} ls (fun _ _ => { stall := .until (s.now + 16 * (n.toNat + 1)) })).gangGo
        (fun t => { t with sleepIdle := t.sleepIdle + 16 * (n.toNat + 1) }))) ∧
  (∀ (s : State) (w : Who) (t : Thread) (c : Nat), s.thread w = some t → t.stall = .until c → c ≤ s.now →
    ∃ u, exec (.sleepEnd w) s = .next u ∧ u = s.modThread w (fun t => { t with stall := .none })) ∧
  (∀ (s : State) (w : Who) (t : Thread), s.thread w = some t → t.state = .held →
    (s.core (s.coreOf w)).halted = false → (∀ v, s.team (s.teamIdOf w) = some v → v.saving = false ∧ v.saved = false) →
    t.heldSince + (s.core (s.coreOf w)).starve ≤ s.now →
    exec (.convergeStarveRelease w) s = .next ((s.modThread w (fun t => { t with released := true })).ready w))

/-! ### Traps -/

/-- R422, R431 to R433: a trap saves the instruction's words and pc, writes its record, sets `trap_active` and goes to the handler
in k63; where the handler is 0 or misaligned the record is written too, and the team ends, as it does at a second trap.
R211, R152, R430: `trap`, `brk` in a team launched with the debug flag, and an encoding that no rule gives a meaning
take their trap in every lane of the gang; `brk` otherwise only goes on. R57, R146, R294, R439: so do the lanes that name a register
beyond their holding, and those of a user team that read or write a supervisor register. -/
def Obligations.TakingATrap : Prop :=
  (∀ (s : State) (c k tid : Nat) (t : Thread) (f : Fail), s.thread (.lane c k tid) = some t →
    (let i := s.sys.issue
     let h := s.handler c t.ctx
     (t.trapActive = true → s.trapLane (.lane c k tid) f = s.endTeam (c, k) 0x030A t.trap.code.toNat f.code) ∧
     (t.trapActive = false → h = 0 ∨ h.toNat % 4 ≠ 0 →
       s.trapLane (.lane c k tid) f =
         ((s.setThread (.lane c k tid) { t with trap := trapFields i.w1 i.w2 i.two i.pc f.code }).trapRecord (.lane c k tid) f).endTeam
           (c, k) f.code 0 0) ∧
     (t.trapActive = false → h ≠ 0 → h.toNat % 4 = 0 →
       ∃ r, s.trapLane (.lane c k tid) f = State.trapRecord (s.setThread (.lane c k tid) r) (.lane c k tid) f ∧
         r.trapActive = true ∧ r.pc = h ∧ r.trap.code = wd f.code ∧ r.trap.pc = i.pc ∧ r.trap = trapFields i.w1 i.w2 i.two i.pc f.code ∧
         r.regs = t.regs ∧ r.preds = t.preds ∧ r.fflags = t.fflags ∧ r.rstack = t.rstack ∧ r.state = .ready))) ∧
  (∀ (s : State) (n : BitVec 8), s.sys.issue.runAhead = none → (∀ l ∈ s.sys.issue.lanes, whoIsWalk l.2 = false ∧ (s.thread l.2).isSome) →
    (let traps (u : State) (code : Nat) : Host.Outcome State Fault Refusal :=
       .next ((s.sys.issue.lanes.foldl (fun u l => u.trapLane l.2 { code }) u).releaseHeld s.sys.issue.core s.sys.issue.ctx)
     exec (.trap n) s = traps s 0 ∧
     ((∀ l ∈ s.sys.issue.lanes, (s.team (s.teamIdOf l.2)).any (·.debug) = true) → exec (.brk n) s = traps s 1) ∧
     (∀ w1 w2 : Word, exec (.illegalEncoding w1 w2) s =
       traps { s with sys := { s.sys with issue := { s.sys.issue with w1 := w1, w2 := w2, two := isTwoWord w1 } } } 0x0101) ∧
     (∀ s' ls, LaneReady s { check := brkCheck } s' ls → exec (.brk n) s = .next (s.eachDone s' { check := brkCheck } ls (fun _ _ => {}))) ∧
     (∀ p ∈ ([.addI32, .subI32, .mulI32, .mulhI32, .minI32, .maxI32, .and, .or, .xor, .shl, .shr, .sra, .crc, .absdI32, .mulhN32] :
         List (Dst → Src → Src → Instr)), ∀ d a b,
       (∀ l ∈ s.lanesIn (shape2 d a b), ∃ r ∈ (shape2 d a b).regs, l.t.holding ≤ r) → exec (p d a b) s = traps s 0x0201) ∧
     (∀ sr : BitVec 8, 0x80 ≤ sr.toNat ∧ sr.toNat < 0xC0 → (∀ l ∈ s.sys.issue.lanes, s.isSup (s.teamIdOf l.2) = false) →
       (∀ d, exec (.rds d sr) s = traps s 0x1002) ∧
       (∀ a : Fin 128, (∀ l ∈ s.lanesIn { srcs := [(.reg a, false)] }, l.t.unkRegs = []) → exec (.wrs sr (.reg a)) s = traps s 0x1002))))

/-! ### Synchronising objects -/

/-- R218 to R222, R78: `arrive` releases, counts one arrival and gives the phase; `bar.owe` raises the balance; `wait` goes
on where the phase differs from its token and blocks otherwise, always so where the barrier is not declared (R216);
`bar.test` only asks.
R215, R218: an arrival lowers pending and balance; where both reach 0 the phase flips and the counts start again,
otherwise the phase stays. -/
def Obligations.Barriers : Prop :=
  (∀ (s s' t : State) (ls : List LaneIn) (os : List LaneOut) (nb : Fin 16),
    (∀ d,
      (let sp : LaneSpec := { dst := some (d, false), check := arriveCheck nb.val }
       LaneReady s sp s' ls →
       InTurn (fun u l v o => ∃ b : Bar,
         (let t := u.teamIdOf l.who
          let f := u.flushGather l.who
          u.bar t nb.val = some b ∧ b.pending ≠ 0 ∧
          ((match b.kind with
            | .team => f.release l.who .core
            | .gang => f.release l.who .cluster
            | .engine => u).modBar t nb.val
              (fun b => { b with members := addOnce b.members l.who, arrived := addOnce b.arrived l.who })).arriveOne t nb.val 0 = some v ∧
          o = gives (if b.phase then 1 else 0))) (s.acting s' sp) ls t os →
       exec (.arrive d nb) s = .next (s.gangDone sp t (ls.zip os)))) ∧
    (∀ d (x : Fin 128),
      (let sp : LaneSpec := { srcs := [(.reg x, false)], dst := some (d, false) }
       LaneReady s sp s' ls →
       InTurn (fun u l v o =>
         let t := u.teamIdOf l.who
         match u.bar t nb.val with
         | some b =>
           balanceOk (b.balance + ((l.w 0).toNat : Int)) = true ∧
           v = (u.modBar t nb.val (fun b => { b with balance := b.balance + ((l.w 0).toNat : Int) })).checkComplete t nb.val ∧
           o = gives (if b.phase then 1 else 0)
         | none => v = u.putBar t nb.val { undeclaredBar (u.clsOf l.who) with balance := ((l.w 0).toNat : Int) } ∧ o = gives 0)
         (s.acting s' sp) ls t os →
       exec (.barOwe d nb x) s = .next (s.gangDone sp t (ls.zip os)))) ∧
    (∀ (x : Src),
      (let sp : LaneSpec := { srcs := [(x, false)], check := waitCheck nb.val }
       LaneReady s sp s' ls →
       InTurn (fun u l v o =>
         let t := u.teamIdOf l.who
         match u.bar t nb.val with
         | some b =>
           (b.declared = true ∧ b.phase ≠ (l.v 0).getLsbD 0 ∧ v = u.barAcquire l.who b ∧ o = {}) ∨
           ((b.declared = false ∨ b.phase = (l.v 0).getLsbD 0) ∧
             v = u.modBar t nb.val (fun b => if b.blockedSince.isSome then b else { b with blockedSince := some u.now }) ∧
             o = { next := .stay, block := some (.bar nb.val) })
         | none => v = u ∧ o = { next := .stay, block := some (.bar nb.val) }) (s.acting s' sp) ls t os →
       exec (.wait nb x) s = .next (s.gangDone sp t (ls.zip os)))) ∧
    (∀ (p : Fin 8) (x : Src), LaneReady s { srcs := [(x, false)] } s' ls →
      exec (.barTest p nb x) s = .next (s.eachDone s' { srcs := [(x, false)] } ls (fun u l =>
        sets p (((u.bar (u.teamIdOf l.who) nb.val).map (·.phase)).getD false != (l.v 0).getLsbD 0))))) ∧
  (∀ (s : State) (t : TeamId) (v : Team) (n bytes : Nat) (b : Bar), s.team t = some v → v.bars.find n = some b →
    b.pending ≠ 0 → balanceOk (b.balance - (bytes : Int)) = true → 0 < b.count →
    ∃ u, s.arriveOne t n bytes = some u ∧ ∃ b', u.bar t n = some b' ∧ b'.kind = b.kind ∧ b'.count = b.count ∧ b'.quota = b.quota ∧
      (if b.pending = 1 ∧ b.balance = (bytes : Int) then
         b'.phase = !b.phase ∧ b'.pending = b.count ∧ b'.balance = b.quota ∧ b'.arrived = []
       else b'.phase = b.phase ∧ b'.pending = b.pending - 1 ∧ b'.balance = b.balance - (bytes : Int)))

/-- R231, R233, R234: what each hank instruction does where its address is that of a live hank within its reach: `top` and
`bottom` count modulo 2^32, an entry lies in the ring behind the header, and the predicate says whether one was moved. -/
def Obligations.Hanks : Prop :=
  ∀ (s s' t : State) (ls : List LaneIn) (os : List LaneOut) (a : Fin 128) (p : Fin 8),
    (let entry (loc : Nat) (h : Hank) (i : Nat) : Nat := loc + 64 + 8 * (i % 2 ^ h.cap)
     let took (u : State) (loc : Nat) (h : Hank) (i : Nat) : LaneOut :=
       { res := some (dw (numOfBytes (u.mem.read 0 (entry loc h i) 8))), pred := some (p.val, true) }
     let used (u : State) (h : Hank) : Hank := { h with lastOp := u.now, reported := false, blockedSince := none }
     let found (x : State) (l : LaneIn) (wr : Bool) (u : State) (loc : Nat) (h : Hank) : Prop :=
       ∃ v, x.hankAt l.who (l.t.rd2 a.val) wr = (v, .live loc h) ∧ u = v.modThread l.who (fun t => t.accessOk v.sys.issue.pc)
     (∀ b : Src,
       (let sp := hankSpec a true false hankOwns [(b, true)] none
        LaneReady s sp s' ls →
        InTurn (fun x l y o => ∃ u loc h, found x l true u loc h ∧
          ((h.count < 2 ^ h.cap ∧ o = sets p true ∧
            y = ((u.write {} 0 (entry loc h h.bottom) (bytesOf 8 (l.v 0).toNat)).putHank loc
              { used u h with bottom := (h.bottom + 1) % 2 ^ 32 }).wakeHank loc) ∨
           (¬ h.count < 2 ^ h.cap ∧ o = sets p false ∧ y = u))) (s.acting s' sp) ls t os →
        exec (.hankPush p a b) s = .next (s.gangDone sp t (ls.zip os)))) ∧
     (∀ d : Fin 128,
       (let sp := hankSpec a true false hankOwns [] (some (.reg d, true))
        LaneReady s sp s' ls →
        InTurn (fun x l y o => ∃ u loc h, found x l true u loc h ∧
          ((0 < h.count ∧ u.mem.poisoned (entry loc h h.newest) 8 = false ∧ o = took u loc h h.newest ∧
            y = u.putHank loc { used u h with bottom := h.newest }) ∨
           (h.count = 0 ∧ o = sets p false ∧ y = u))) (s.acting s' sp) ls t os →
        exec (.hankPop d a p) s = .next (s.gangDone sp t (ls.zip os)))) ∧
     (∀ d : Fin 128,
       (let sp := hankSpec a true true hankOwns [] (some (.reg d, true))
        LaneReady s sp s' ls →
        InTurn (fun x l y o => ∃ u loc h, found x l true u loc h ∧
          ((0 < h.count ∧ u.mem.poisoned (entry loc h h.newest) 8 = false ∧ o = took u loc h h.newest ∧
            y = u.putHank loc { used u h with bottom := h.newest }) ∨
           (h.count = 0 ∧ o = { next := .stay, block := some (.hank loc) } ∧
            y = { u with hanks := u.hanks.upd loc (fun h => { h with blockedSince := some (h.blockedSince.getD u.now) }) })))
          (s.acting s' sp) ls t os →
        exec (.hankPopWait d a p) s = .next (s.gangDone sp t (ls.zip os)))) ∧
     (∀ d : Fin 128,
       (let sp := hankSpec a true false hankNear [] (some (.reg d, true))
        LaneReady s sp s' ls →
        InTurn (fun x l y o => ∃ u loc h, found x l true u loc h ∧
          ((0 < h.count ∧ u.mem.poisoned (entry loc h h.top) 8 = false ∧ o = took u loc h h.top ∧
            y = u.putHank loc { used u h with top := (h.top + 1) % 2 ^ 32 }) ∨
           (h.count = 0 ∧ o = sets p false ∧ y = u))) (s.acting s' sp) ls t os →
        exec (.hankSteal d a p) s = .next (s.gangDone sp t (ls.zip os)))) ∧
     (∀ d : Fin 128,
       (let sp := hankSpec a false false hankNear [] (some (.reg d, false))
        LaneReady s sp s' ls →
        InTurn (fun x l y o => ∃ loc h, found x l false y loc h ∧ o = { res := some (dw h.count) }) (s.acting s' sp) ls t os →
        exec (.hankSize d a) s = .next (s.gangDone sp t (ls.zip os)))))

/-- R84, R235 to R237: every bound update in turn, by the lane's own order of values; `bound.get` reads. -/
def Obligations.BoundRegisters : Prop :=
  ∀ (s s' t : State) (ls : List LaneIn) (os : List LaneOut) (a d : Fin 128) (nat dev : Bool) (i : Fin 16),
    (let sp : LaneSpec := { srcs := [(.reg a, true)] }
     let turn (f : DWord → DWord → DWord) (u : State) (l : LaneIn) (v : State) (o : LaneOut) : Prop :=
       v = u.setBound dev (u.coreOf l.who) i.val (f (l.v 0) (u.bound dev (u.coreOf l.who) i.val)) ∧ o = {}
     LaneReady s sp s' ls →
     (InTurn (turn (fun v r => if (if nat then v.ult r else v.slt r) then v else r)) (s.acting s' sp) ls t os →
       exec (.boundMin a nat dev i) s = .next (s.gangDone sp t (ls.zip os))) ∧
     (InTurn (turn (fun v r => if (if nat then r.ult v else r.slt v) then v else r)) (s.acting s' sp) ls t os →
       exec (.boundMax a nat dev i) s = .next (s.gangDone sp t (ls.zip os))) ∧
     (InTurn (turn (fun v _ => v)) (s.acting s' sp) ls t os →
       exec (.boundMinSet a nat dev i) s = .next (s.gangDone sp t (ls.zip os)) ∧
       exec (.boundMaxSet a nat dev i) s = .next (s.gangDone sp t (ls.zip os)))) ∧
    (LaneReady s { dst := some (.reg d, true) } s' ls →
      exec (.boundGet d dev i) s = .next (s.eachDone s' { dst := some (.reg d, true) } ls (fun u l =>
        { res := some (u.bound dev (u.coreOf l.who) i.val) })))

/-- R57 to R59, R238: registers claimed at once or waited for, registers given back; the oldest request of a pool is granted
where its registers are there. -/
def Obligations.RegisterPool : Prop :=
  (∀ (s s' t : State) (ls : List LaneIn) (os : List LaneOut) (n : BitVec 8),
    (let cl : LaneSpec := { check := fun _ _ t => if claimOk t.holding n.toNat then none else some { code := 0x0204 } }
     LaneReady s cl s' ls →
     InTurn (fun u l v o => ∃ c k tid, l.who = .lane c k tid ∧
       (((u.core c).poolQueue = [] ∧ n.toNat ≤ (u.core c).free ∧ o = {} ∧
          v = (u.modCore c (fun k => { k with free := k.free - n.toNat })).modThread l.who
            (fun t => { t with regs := t.regs ++ List.replicate n.toNat 0 })) ∨
        (((u.core c).poolQueue ≠ [] ∨ (u.core c).free < n.toNat) ∧ o = { next := .stay, block := some (.claim n.toNat) } ∧
          v = u.modCore c (fun q => { q with poolQueue := q.poolQueue ++ [.claim k tid n.toNat] })))) (s.acting s' cl) ls t os →
     exec (.regclaim n) s = .next (s.gangDone cl t (ls.zip os))) ∧
    (let re : LaneSpec := { check := fun _ _ t => if relOk t.holding n.toNat then none else some { code := 0x0204 } }
     LaneReady s re s' ls →
     InTurn (fun u l v o => ∃ c k tid, l.who = .lane c k tid ∧ o = {} ∧
       v = (u.modCore c (fun k => { k with free := k.free + n.toNat })).modThread l.who
         (fun t => { t with regs := t.regs.take (t.holding - n.toNat) })) (s.acting s' re) ls t os →
     exec (.regrel n) s = .next (s.gangDone re t (ls.zip os)))) ∧
  (∀ (s : State) (c slot tid n : Nat) (rs : List PoolReq), c < Config.cores → (s.core c).poolQueue = .claim slot tid n :: rs →
    n ≤ (s.core c).free →
    exec (.registerGrant c) s =
      .next (((s.modCore c (fun k => { k with poolQueue := rs, free := k.free - n })).modThread (.lane c slot tid)
        (fun t => { t with regs := t.regs ++ List.replicate n 0 })).readyPast (.lane c slot tid) 4)) ∧
  (∀ (s : State) (c : Nat) (r : PoolReq) (rs : List PoolReq), c < Config.cores → (s.core c).poolQueue = r :: rs →
    (s.core c).free < s.reqSize c r → exec (.registerGrant c) s = .next s)

/-- R209, R225, R229, R170: what a lane asks of the machine: a channel's elements, a child's status, special registers, and
`phase`, which stalls until its release has been performed. -/
def Obligations.LaneQueries : Prop :=
  ∀ (s s' t : State) (ls : List LaneIn) (os : List LaneOut),
    (∀ d c, LaneReady s { dst := some (d, false) } s' ls → (∀ x ∈ ls, whoIsWalk x.who = false) →
      exec (.chpoll d c) s = .next (s.eachDone s' { dst := some (d, false) } ls (fun u l =>
        { res := some (dw (u.chanCount (u.teamIdOf l.who) c.val)) }))) ∧
    (∀ d (a : Fin 128) (wait : Bool),
      (let sp : LaneSpec := { srcs := [(.reg a, true)], dst := some (d, false), check := gwaitCheck a.val wait }
       LaneReady s sp s' ls →
       InTurn (fun u l v o =>
         match u.childStatus (l.v 0).toNat with
         | some st => v = u.acquire l.who (u.coreOf l.who) .dom ∧ o = { res := some (dw st) }
         | none => v = u ∧ o = if wait then { next := .stay, block := some (.child (l.v 0).toNat) } else { res := some 0xFFFFFFFF#64 })
         (s.acting s' sp) ls t os →
       (wait = true → exec (.gwait d a) s = .next (s.gangDone sp t (ls.zip os))) ∧
       (wait = false → exec (.gwaitPoll d a) s = .next (s.gangDone sp t (ls.zip os))))) ∧
    (∀ d (sr : BitVec 8),
      (let sp : LaneSpec := { dst := some (d, srWide sr.toNat), check := fun s w _ => srReadFail s (s.teamIdOf w) sr.toNat (d.ok true) }
       LaneReady s sp s' ls →
       exec (.rds d sr) s = .next (s.eachDone s' sp ls (fun u l => { res := some (u.readSr l.who sr.toNat) })))) ∧
    (∀ (sr : BitVec 8) a,
      (let sp : LaneSpec := { srcs := [(a, false)], check := fun s w _ => srWriteFail s (s.teamIdOf w) sr.toNat }
       LaneReady s sp s' ls →
       InTurn (fun u l v o => v = u.writeSr l.who (whoTid l.who + 1) sr.toNat ((l.w 0).setWidth 64) ∧ o = {}) (s.acting s' sp) ls t os →
       exec (.wrs sr a) s = .next (s.gangDone sp t (ls.zip os)))) ∧
    (∀ sc, LaneReady s {} s' ls →
      InTurn (fun u l v o => v = (u.flushGather l.who).release l.who sc ∧ o = { next := .stay, stall := .completion }) (s.acting s' {}) ls t os →
      exec (.phase sc) s = .next ((s.gangDone {} t (ls.zip os)).due [.phaseComplete s.sys.issue.core s.sys.issue.ctx sc s.sys.issue.pc])) ∧
    (∀ c x sc pc, exec (.phaseComplete c x sc pc) s =
      .next (((s.completing c x pc).foldl (fun s w => s.acquire w c sc) s).passAll (s.completing c x pc) 4))

/-! ### Memory -/

/-- R193 to R195, R450: a load and a store whose accesses reach their targets, after the thread's own collected stores: the
value extended to its register, the bytes of the value stored there; the count of the access's refaults ends (R459). Stores to
lines of their own are performed lane by lane; the others are the line's at once, as `storeAll` has it (R195). -/
def Obligations.LoadsAndStores : Prop :=
  ∀ (s s' v : State) (ls : List LaneIn) (t : Ty) (m : MemAddr), s.ahead = false →
    (∀ (d : Dst) (os : List LaneOut),
      (let sp := memSpec m t .load true [] (some (d, t.wide))
       let f := s.flushGang
       s.awaitGrants .load (fun th => effAddr m th (tySize t)) (tySize t) = none → LaneReady f sp s' ls →
       InTurn (fun u l w o => ∃ x tg, u.reach l.who (u.memAccess l .load m t true) = (x, .ok tg) ∧
         (let r := (x.modThread l.who (fun th => th.accessOk x.sys.issue.pc)).loadTarget l.who tg (tySize t)
          w = r.1 ∧ o = { res := some (loadExt t r.2) })) (f.acting s' sp) ls v os →
       exec (.ld t d m) s = .next (f.gangDone sp v (ls.zip os)))) ∧
    (∀ (x : Src) (qs : List (Who × Target × List Byte)),
      (let sp := memSpec m t .store true [(x, t.wide)] none
       let f := s.flushGang
       s.awaitGrants .store (fun th => effAddr m th (tySize t)) (tySize t) = none → LaneReady f sp s' ls →
       InTurn (fun u l w q => ∃ tg, u.reach l.who (u.memAccess l .store m t true) = (w, .ok tg) ∧ q = (l.who, tg, storeBytes t (l.v 0)))
         (f.acting s' sp) ls v qs →
       exec (.st t x m) s = .next (f.gangDone sp (v.storeAll qs) (ls.map (fun l => (l, {})))) ∧
       (qs.Pairwise (fun p q => p.2.1.loc / 64 ≠ q.2.1.loc / 64) →
         v.storeAll qs = qs.foldl (fun (s : State) p => s.storeTarget p.1 p.2.1 p.2.2)
           (qs.foldl (fun (s : State) p => s.modThread p.1 (fun t => t.accessOk s.sys.issue.pc)) v))))

/-- R85, R198 to R200: an atomic that reaches its target reads and writes it as one event at its home, once the gang's own
stores are there, and gives the old value; `atom.st` gives none. The lanes act in increasing order.
R85, R198: an atomic without an order on a line that no other device holds gives the bytes that stood at the home once
the thread's own stores are there, and writes the new value in their place. -/
def Obligations.Atomics : Prop :=
  (∀ (s s' v : State) (ls : List LaneIn) (os : List LaneOut) (t : Ty) (sc : Scope) (o : AtomOrder) (d : Fin 128) (m : MemAddr),
    (∀ p ∈ ([(.atomXchg, .xchg), (.atomAdd, .add), (.atomAnd, .and), (.atomOr, .or), (.atomXor, .xor), (.atomMin, .min),
        (.atomMax, .max), (.atomLd, .ld), (.atomSt, .st)] : List ((Ty → Scope → AtomOrder → Fin 128 → MemAddr → Instr) × AtomOp)),
      (let sp := accessSpec m [(.reg d, t.wide)] (if p.2 = .st then none else some (.reg d, t.wide))
       let b := s.atomicsBegin o
       s.awaitGrants .atomic (fun th => effAddr m th (tySize t)) (tySize t) = none → LaneReady b sp s' ls →
       InTurn (fun u l w y => ∃ x tg, u.reach l.who (u.memAccess l .atomic m t false) = (x, .ok tg) ∧
         (let r := (x.modThread l.who (fun th => th.accessOk x.sys.issue.pc)).atomicAt l.who sc o tg (tySize t)
            (fun old => atomNew p.2 t old (l.v 0).toNat)
          w = r.1 ∧ y = { res := if p.2 = .st then none else some (dw r.2.1), fl := r.2.2 })) (b.acting s' sp) ls v os →
       exec (p.1 t sc o d m) s = .next (b.gangDone sp v (ls.zip os)))) ∧
    (∀ a b c : Fin 128,
      (let sp : LaneSpec := { srcs := [(.reg a, true), (.reg b, t.wide), (.reg c, t.wide)], dst := some (.reg d, t.wide) }
       let z := s.atomicsBegin o
       s.awaitGrants .atomic (fun th => th.rd2 a.val) (tySize t) = none → LaneReady z sp s' ls →
       InTurn (fun u l w y => ∃ x tg, u.reach l.who (u.laneAccess l.who .atomic (l.v 0) (tySize t) (tySize t)) = (x, .ok tg) ∧
         (let r := (x.modThread l.who (fun th => th.accessOk x.sys.issue.pc)).atomicAt l.who sc o tg (tySize t) (fun old =>
            (if old = (l.v 1).toNat % 2 ^ t.bits then some ((l.v 2).toNat % 2 ^ t.bits) else none, 0))
          w = r.1 ∧ y = { res := some (dw r.2.1) })) (z.acting s' sp) ls v os →
       exec (.cas t sc o d a b c) s = .next (z.gangDone sp v (ls.zip os))))) ∧
  (∀ (s : State) (c k tid : Nat) (sc : Scope) (tg : Target) (n : Nat) (f : Nat → Option Nat × Flags),
    isRemote tg.loc = false → tg.line = false →
    (let w := Who.lane c k tid
     let d := s.drainOf w
     let u := (d.readHome w c tg.key tg.loc n).1
     let old := numOfBytes (d.mem.read tg.key tg.loc n)
     s.atomicAt w sc .none tg n f =
       ((match (f old).1 with
         | some v => u.write { whos := [w], core := some c } tg.key tg.loc (bytesOf n v)
         | none => u), old, (f old).2)))

/-- R93, R193, R195 to R197: a gather enters its core's collector and its lanes wait there, a scatter enters and goes on, each
performed as it enters on a `tso` or `line` page; a prefetch changes no register; the collector performs a request at its
line's access once its 32 clk are over. -/
def Obligations.Gathers : Prop :=
  (∀ (s s' v : State) (ls : List LaneIn) (os : List LaneOut) (t : Ty) (m : MemAddr),
    (∀ d : Dst,
      (let sp := memSpec m t .load false [] (some (d, t.wide))
       let f := s.flushGang
       s.awaitGrants .load (fun th => effAddr m th (tySize t)) (tySize t) = none → f.gatherFull false m (tySize t) = false →
       LaneReady f sp s' ls →
       InTurn (fun u l w o => ∃ x tg,
         (let a := u.memAccess l .load m t false
          let g : GatherReq := { who := l.who, va := a.va, size := tySize t, store := none, dst := some (d, t.wide), ty := t,
                                 loc := tg.loc, key := tg.key, line := tg.line, tso := tg.tso, iss := x.sys.issue, since := x.now }
          let enters (x : State) (g : GatherReq) : State := x.modCore a.core (fun k => { k with gather := k.gather ++ [g] })
          u.checkIssue a = (x, .ok tg) ∧ o = { next := .stay, stall := .gather } ∧
          (((tg.tso || tg.line) = false ∧ w = enters x g) ∨
           ((tg.tso || tg.line) = true ∧ x.homeFault a tg = none ∧
             (let r := x.loadAt l.who tg (tySize t)
              w = enters r.1 { g with val := some (loadExt t r.2) }))))) (f.acting s' sp) ls v os →
       exec (.gld t d m) s = .next ((f.gangDone sp v (ls.zip os)).gatherSettle f.sys.issue.core))) ∧
    (∀ x : Src,
      (let sp := memSpec m t .store false [(x, t.wide)] none
       s.awaitGrants .store (fun th => effAddr m th (tySize t)) (tySize t) = none → s.gatherFull true m (tySize t) = false →
       LaneReady s sp s' ls →
       InTurn (fun u l w o => ∃ x tg,
         (let a := u.memAccess l .store m t false
          let g : GatherReq := { who := l.who, va := a.va, size := tySize t, store := some (l.v 0), dst := none, ty := t,
                                 loc := tg.loc, key := tg.key, line := tg.line, tso := tg.tso, iss := x.sys.issue, since := x.now }
          u.checkIssue a = (x, .ok tg) ∧ o = {} ∧
          (((tg.tso || tg.line) = false ∧ w = x.modCore a.core (fun k => { k with gather := k.gather ++ [g] })) ∨
           ((tg.tso || tg.line) = true ∧ x.homeFault a tg = none ∧
             w = ((x.flushGather l.who).modThread l.who (fun th => th.accessOk x.sys.issue.pc)).storeAt l.who tg (storeBytes t (l.v 0))))))
         (s.acting s' sp) ls v os →
       exec (.gst t x m) s = .next (s.gangDone sp v (ls.zip os)))) ∧
    (let sp := accessSpec m [] none
     LaneReady s sp s' ls → s.mem.walkQueue.length + s.sys.issue.lanes.length ≤ walkRoom →
     InTurn (fun u l w o => w = u.prefetch l.who (effAddr m l.t (tySize t)) ∧ o = {}) (s.acting s' sp) ls v os →
     exec (.pfch t m) s = .next (s.gangDone sp v (ls.zip os)))) ∧
  (∀ (s : State) (c : Nat) (g : GatherReq), (s.core c).gather = [g] → g.val = none → g.since + gatherWindow ≤ s.now →
    (∀ v, g.store = some v →
      (let u := s.performStores (fun p => g.who = p.who)
       u.homeFault (u.laneAccess g.who .store g.va g.size g.size) g.target = none → isRemote g.loc = false →
       exec (.gatherAccess c) s =
         .next ((((u.modCore c (fun k => { k with gather := [] })).modThread g.who (fun t => t.accessOk g.iss.pc)).write
           { whos := [g.who], core := some c } g.key g.loc (storeBytes g.ty v)).gatherWake c))) ∧
    (g.store = none → s.homeFault (s.laneAccess g.who .load g.va g.size g.size) g.target = none →
      exec (.gatherAccess c) s =
        (let r := s.loadAt g.who g.target g.size
         let h := { g with val := some (loadExt g.ty r.2) }
         .next (((r.1.modCore c (fun k => { k with gather := [h] })).gatherFinish c h).gatherWake c))))

/-- R66 to R68, R82, R305, R425: bytes written at a location read back through the same key slot, and every other byte reads
as it did; the write keeps memory's one form. -/
def Obligations.MemoryWrite : Prop :=
  ∀ (m : Mem) (key loc : Nat) (bs : List Byte), m.wf →
    (∀ a, (m.write key loc bs).byteAt key a =
      if loc ≤ a ∧ a < loc + bs.length then bs.getD (a - loc) 0 else m.byteAt key a) ∧
    (∀ key' a, a / 64 < loc / 64 ∨ (loc + bs.length + 63) / 64 ≤ a / 64 → (m.write key loc bs).byteAt key' a = m.byteAt key' a) ∧
    (m.write key loc bs).wf

/-- R77 to R79, R81, R82, R91, R93: a thread sees its own store at once, held back or performed, and a store held back changes no
byte at its home. A lane's store to an ordinary page outside declared buffers changes no byte at any home yet; any store changes
no byte there outside its own and the lines of those that its thread held back.
R79, R85, R91, R102, R197, R414: a held-back store reaches its home, the oldest of one thread unless a `tso` store's time
is over, and none where its home is fenced; an implicit release performs a thread's oldest store; a walk fills the TLB and
takes the prefetched line. -/
def Obligations.OwnStores : Prop :=
  (∀ (s : State) (w : Who) (core key loc : Nat) (bs : List Byte) (due : Option Nat),
    ((s.storeValue w core key loc bs false due).loadValue w core key loc bs.length false).2 = bs ∧
    (s.mem.wf → ((s.storeValue w core key loc bs true due).loadValue w core key loc bs.length true).2 = bs) ∧
    (s.storeValue w core key loc bs false due).mem.cells = s.mem.cells ∧
    (s.storeValue w core key loc bs false due).threads = s.threads ∧
    (∀ tg : Target, isCtl tg.loc = false →
      (whoIsWalk w = false → tg.tso = false → tg.line = false → s.regionsAt tg.loc bs.length = [] →
        ∀ k a, (s.storeTarget w tg bs).mem.byteAt k a = s.mem.byteAt k a) ∧
      (s.mem.wf → ∀ k a, (∀ p ∈ s.ownStores w, a / 64 < p.loc / 64 ∨ (p.loc + p.bytes.length + 63) / 64 ≤ a / 64) →
        (k = tg.key ∧ (a < tg.loc ∨ tg.loc + bs.length ≤ a)) ∨ a / 64 < tg.loc / 64 ∨ (tg.loc + bs.length + 63) / 64 ≤ a / 64 →
        (s.storeTarget w tg bs).mem.byteAt k a = s.mem.byteAt k a))) ∧
  ((∀ (s : State) (p : PendStore),
    (s.fencedLoc p.loc = false → s.performOne p = s.write { whos := [p.who], core := some p.core } p.key p.loc p.bytes) ∧
    (s.fencedLoc p.loc = true → s.performOne p = s) ∧
    (∃ l, s.performEarly p = (s.performOne p).setMem { (s.performOne p).mem with early := l }) ∧
    (p.due.isSome = true → s.performEarly p = s.performOne p) ∧
    (s.mem.stores.find? (fun q => q.due.any (fun x => x ≤ s.now)) = some p →
      exec .accessAtHome s = .next (s.performStores (fun q => q = p)))) ∧
  (∀ s : State, s.mem.stores ≠ [] → s.mem.stores.find? (fun q => q.due.any (fun x => x ≤ s.now)) = none →
    ∃ pre p post, s.mem.stores = pre ++ p :: post ∧ (∀ q ∈ pre, q.who ≠ p.who) ∧
      exec .accessAtHome s =
        .next (({ s with mem := { s.mem with stores := pre ++ post },
                         sys := { s.sys with free := s.sys.free + s.mem.stores.length } } : State).performEarly p)) ∧
  (∀ (s : State) (w : Who) (pre post : List PendStore) (p : PendStore), s.mem.stores = pre ++ p :: post → p.who = w →
    (∀ q ∈ pre, q.who ≠ w) →
    exec (.implicitRelease w 1) s = .next ((s.setMem { s.mem with stores := pre ++ post }).performEarly p)) ∧
  (∀ (s x : State) (u : TlbUnit) (asid root : Nat) (va : DWord) (r : WalkRes),
    State.tlbLookup (s.setMem { s.mem with walkQueue := s.mem.walkQueue.erase (u, asid, root, va) }) u asid root va.toNat = (x, r) →
    ((∀ e log, r ≠ .leaf e log) → exec (.tableWalk u asid root va) s = .next x) ∧
    ((∀ c, u ≠ .core c) → exec (.tableWalk u asid root va) s = .next x) ∧
    (∀ c e log l, u = .core c → r = .leaf e log → x.loc (pteAddr e + va.toNat % 2 ^ log) = some l →
      exec (.tableWalk u asid root va) s = .next (x.prefetchLine c { loc := l, tso := pteTso e, line := pteLine e }))))

/-! ### Uniform instructions -/

/-- R288, R290: the scalar instructions act once for the gang, on 64 bits, modulo 2^64.
R139, R288, R291: `sbr` sends the whole gang one way, by its test of the signed register. -/
def Obligations.ScalarArithmetic : Prop :=
  (∀ (s s' : State) (d : UDst) (a b : USrc) (vs : List DWord),
    (UReady s [a, b] (some d) s' vs →
      (let done (v : DWord) := Host.Outcome.next (s.uDone (s.actingU s' [a, b]) (some d) { res := some v })
       let x := vs.getD 0 0
       let y := vs.getD 1 0
       exec (.sadd d a b) s = done (x + y) ∧
       exec (.ssub d a b) s = done (x - y) ∧
       exec (.sand d a b) s = done (x &&& y) ∧
       exec (.sor d a b) s = done (x ||| y) ∧
       exec (.sxor d a b) s = done (x ^^^ y) ∧
       exec (.sshl d a b) s = done (if 64 ≤ y.toNat then 0 else x <<< y.toNat) ∧
       exec (.sshr d a b) s = done (if 64 ≤ y.toNat then 0 else x >>> y.toNat))) ∧
    (UReady s [a] (some d) s' vs →
      exec (.smov d a) s = .next (s.uDone (s.actingU s' [a]) (some d) { res := some (vs.getD 0 0) })) ∧
    (∀ imm : BitVec 16, UReady s [] (some d) s' vs →
      exec (.smovi d imm) s = .next (s.uDone (s.actingU s' []) (some d) { res := some (imm.signExtend 64) })) ∧
    (∀ (k : Fin 64) (imm : BitVec 16), UReady s [.k k] (some (.k k)) s' vs →
      exec (.smovh k imm) s =
        .next (s.uDone (s.actingU s' [.k k]) (some (.k k))
          { res := some (((vs.getD 0 0).setWidth 48 ++ imm : BitVec 64)) }))) ∧
  (∀ (s s' : State) (k : Fin 64) (off : BitVec 15) (vs : List DWord), UReady s [.k k] none s' vs →
    (let v := (vs.getD 0 0).toInt
     ∀ p ∈ ([(.always, true), (.z, decide (v = 0)), (.nz, decide (v ≠ 0)), (.lt, decide (v < 0)), (.ge, decide (0 ≤ v)),
       (.gt, decide (0 < v)), (.le, decide (v ≤ 0))] : List (SCond × Bool)),
       exec (.sbr p.1 k off) s =
         .next (s.uDone (s.actingU s' [.k k]) none
           { next := if p.2 then .goto (s.sys.issue.pc + BitVec.ofInt 64 (4 * off.toInt)) else .adv })))

/-- R145, R146, R289, R292, R294: `rdsr` and `wrsr`, with the level and the number checked. -/
def Obligations.SpecialRegisterMoves : Prop :=
  ∀ (s s' : State) (sr : BitVec 8) (vs : List DWord),
    (∀ d : UDst, srReadFail s s.issueTeam sr.toNat true = none → UReady s [] (some d) s' vs →
      (let u := s.actingU s' []
       exec (.rdsr d sr) s = .next (s.uDone u (some d) { res := some (u.readSr u.leader sr.toNat) }))) ∧
    (∀ d : UDst, 0x80 ≤ sr.toNat → sr.toNat ≤ 0xBF → (s.team s.issueTeam).any (·.sup) = false →
      exec (.rdsr d sr) s = .next (s.gangRaise { code := 0x1002 })) ∧
    (∀ a : USrc, srWriteFail s s.issueTeam sr.toNat = none → UReady s [a] none s' vs →
      (let u := s.actingU s' [a]
       exec (.wrsr sr a) s = .next (s.uDone (u.writeSr u.leader 0 sr.toNat (vs.getD 0 0 &&& 0xFFFFFFFF#64)) none {}))) ∧
    (∀ a : USrc, s.sys.issue.runAhead = none → 0x80 ≤ sr.toNat → sr.toNat ≤ 0xBF → (s.team s.issueTeam).any (·.sup) = false →
      exec (.wrsr sr a) s = .next (s.gangRaise { code := 0x1002 })) ∧
    (∀ r, s.sys.issue.runAhead = some r → ∀ a : USrc,
      exec (.wrsr sr a) s = .next (s.gangGo (fun t => { t with pc := s.sys.issue.pc + 4 })))

/-- R216, R217, R226, R230, R232, R244, R245: the synchronising objects that uniform instructions make, where every check passes; a
guard slot has its new state from the next clk on. -/
def Obligations.MakingObjects : Prop :=
  ∀ (s s' : State) (vs : List DWord),
    (∀ (nb : Fin 16) (a : Fin 64) (kind : BarKind), UReady s [.k a] none s' vs →
      (let u := s.actingU s' [.k a]
       let v := vs.getD 0 0
       let count := v.toNat % 2 ^ 16
       1 ≤ count → v.toNat / 2 ^ 48 = 0 → (kind = .gang → u.isGang u.issueTeam = true) →
       (∀ b, u.bar u.issueTeam nb.val = some b → b.pending = b.count ∧ b.balance = b.quota) →
       u.barBlocked u.issueTeam nb.val = false →
       exec (.barInit nb a kind) s =
         .next (s.uDone (u.putBar u.issueTeam nb.val
           { kind, cls := if kind = .engine then 0 else u.clsOf u.leader, count, pending := count, quota := v.toNat / 2 ^ 16 % 2 ^ 32,
             balance := (v.toNat / 2 ^ 16 % 2 ^ 32 : Nat) }) none {}))) ∧
    (∀ (c : Fin 32) (a : Fin 64) (v : State), UReady s [.k a] none s' vs →
      (s.actingU s' [.k a]).bindChan (s.actingU s' [.k a]).issueTeam c.val (vs.getD 0 0) = .ok v →
      exec (.chbind c a) s = .next (s.uDone v none {})) ∧
    (∀ (c : Fin 32) (k : Chan), UReady s [] none s' vs →
      (let u := s.actingU s' []
       u.chan u.issueTeam c.val = some k → k.kind ≠ .gang →
       (∀ p ∈ u.threads, u.sharesBar false u.issueTeam p.1 = true →
         p.2.state ≠ .blocked (.chan c.val) ∧ p.2.state ≠ .blocked (.carder (some c.val))) →
       exec (.chfree c) s =
         .next (s.uDone (u.modTeam u.issueTeam (fun v => { v with chans := v.chans.del c.val })) none {}))) ∧
    (∀ (g : Fin 8) (a : Fin 64), UReady s [.k a] none s' vs →
      (let u := s.actingU s' [.k a]
       let set (x : Option Bool) := Host.Outcome.next (s.uDone (u.modTeam u.issueTeam
         (fun t => { t with guardsNew := t.guardsNew ++ [(g.val, x)] })) none {})
       (vs.getD 0 0 = 0 → exec (.guardSet g a) s = set (some false)) ∧
       (vs.getD 0 0 = 1 → exec (.guardSet g a) s = set (some true)) ∧
       (vs.getD 0 0 = 2 → exec (.guardSet g a) s = set none) ∧
       (∀ (t : Team) (x : Option Bool), t.guardsNew = [(g.val, x)] → t.takeMode.guards = t.guards.set g.val x))) ∧
    (∀ (a b : Fin 64) (v : State) (tg : Target), UReady s [.k a, .k b] none s' vs →
      (let u := s.actingU s' [.k a, .k b]
       let va := vs.getD 0 0
       let cw := vs.getD 1 0
       let cap := cw.toNat % 16
       let h : Hank := { owner := u.issueTeam, cls := u.clsOf u.leader, va,
                         scope := if cw.toNat / 16 = 0 then .core else if cw.toNat / 16 = 1 then .cluster else .dev, cap,
                         lastOp := u.now }
       3 ≤ cap → cap ≤ 12 → cw.toNat / 16 ≤ 2 → va.toNat % 64 = 0 →
       (∀ x, (u.checkIssue { u.laneAccess u.leader .load va 8 1 with user := false }).2 = .ok x →
         (let off := x.loc - (Config.tileBase + u.issueTeam.1 * Config.sliceBytes)
          isTile x.loc = true ∧ sliceOf x.loc = u.issueTeam.1 ∧
          (u.team u.issueTeam).any (fun t => decide (t.tileBase ≤ off) && decide (off + (64 + 8 * 2 ^ cap) ≤ t.tileBase + t.tileSize)) = true ∧
          u.hanks.find x.loc = none ∧ (u.hanks.filter (fun y => y.2.owner.1 = u.issueTeam.1)).length < 64 ∧
          u.regionsAt x.loc (64 + 8 * 2 ^ cap) = [])) →
       u.checkIssue (u.laneAccess u.leader .store va 8 8) = (v, .ok tg) → v.fencedLoc tg.loc = false →
       exec (.hankInit a b) s = .next (s.uDone (v.putHank tg.loc h) none {})))

/-! ### Engine instructions -/

/-- R239 to R241, R248 to R251, R258, R260: the matrix engine's owner, and the commands of its queue. -/
def Obligations.MatrixInstructions : Prop :=
  ∀ (s s' : State) (vs : List DWord),
    (UReady s [] none s' vs →
      (let u := s.actingU s' []
       let i := u.sys.issue
       let k := u.core i.core
       (k.owner = none →
         exec .mxAcquire s =
           .next (s.uDone (u.setCore i.core { k with owner := some i.ctx, ownerQueue := k.ownerQueue.filter (· != i.ctx) }) none {})) ∧
       (k.owner = some i.ctx → exec .mxAcquire s = .next (s.uDone u none {})) ∧
       (∀ o, k.owner = some o → o ≠ i.ctx → i.ctx ∉ k.ownerQueue → k.ownerQueue.length < 8 →
         exec .mxAcquire s =
           .next (s.uDone (u.setCore i.core { k with ownerQueue := k.ownerQueue ++ [i.ctx] }) none { next := .stay, stall := .owner })) ∧
       (∀ o, k.owner = some o → o ≠ i.ctx → i.ctx ∉ k.ownerQueue → 8 ≤ k.ownerQueue.length →
         exec .mxAcquire s = .next (s.uDone u none { next := .stay, stall := .ownerRoom })) ∧
       (k.owner = some i.ctx → exec .mxRelease s = .next (s.uDone (u.passOwner i.core) none {})) ∧
       (k.owner ≠ some i.ctx → exec .mxRelease s = .next (s.uDone u none { fault := some { code := 0x0802 } })))) ∧
    (∀ (a : Fin 64) (v : State) (bs : List Byte) (op : MxOp) (cf : CompField), UReady s [.k a] none s' vs →
      (let u := s.actingU s' [.k a]
       let va := vs.getD 0 0
       (u.core u.sys.issue.core).owner = some u.sys.issue.ctx → va.toNat % 128 = 0 → u.uRead va 0x78 1 = (v, .ok bs) →
       mxBlockOf bs va = some (op, cf) → v.streamOk v.issueTeam op.a = true → v.streamOk v.issueTeam op.b = true →
       (∀ b ∈ CmdOp.banks (.mx op), b ∈ v.heldBanks v.issueTeam) → MayIssue v (.matrix u.sys.issue.core) (.mx op) cf →
       exec (.mxIssue a) s = .next (s.uDone (v.issued (.matrix u.sys.issue.core) (.mx op) cf) none {}))) ∧
    (∀ a : Fin 64, UReady s [.k a] none s' vs →
      (let u := s.actingU s' [.k a]
       let w := vs.getD 0 0
       let lo := dfield w 8 0
       let n := dfield w 18 9
       let cf := dfield w 63 48
       1 ≤ n → n ≤ 512 → lo + n ≤ 512 → dfield w 47 19 = 0 → cfOk cf = true → (∀ i < n, lo + i ∈ u.heldBanks u.issueTeam) →
       MayIssue u (.matrix u.sys.issue.core) (.accZero lo n) (cfOf cf) →
       exec (.accZero a) s = .next (s.uDone (u.issued (.matrix u.sys.issue.core) (.accZero lo n) (cfOf cf)) none {}))) ∧
    (∀ a b : Fin 64, UReady s [.k a, .k b] none s' vs →
      (let u := s.actingU s' [.k a, .k b]
       let x := vs.getD 0 0
       let w := vs.getD 1 0
       let lo := dfield w 8 0
       let n := dfield w 26 9
       let cf := dfield w 63 48
       let e := Engine.matrix u.sys.issue.core
       let w' := u.drainMode u.issueTeam w
       x.toNat % 64 = 0 → dfield w 47 37 = 0 → dfield w 33 31 ≤ 5 → cfOk cf = true → 1 ≤ n →
       ((n ≤ 131072 → lo + (n + 255) / 256 ≤ 512 → (∀ i < (n + 255) / 256, lo + i ∈ u.heldBanks u.issueTeam) →
         MayIssue u e (.accDrain x w') (cfOf cf) →
         exec (.accDrain a b) s = .next (s.uDone (u.issued e (.accDrain x w') (cfOf cf)) none {})) ∧
        (n ≤ 512 → lo + n ≤ 512 → (∀ i < n, lo + i ∈ u.heldBanks u.issueTeam) → MayIssue u e (.accPack x w') (cfOf cf) →
         exec (.accPack a b) s = .next (s.uDone (u.issued e (.accPack x w') (cfOf cf)) none {})))))

/-- R257 to R259, R465: banks are allocated as the lowest free run and freed unless a command names them; lanes read and
write the elements of banks that the team holds. -/
def Obligations.AccumulatorBanks : Prop :=
  ∀ (s s' : State),
    (∀ (d a : Fin 64) (vs : List DWord) (v : Team), UReady s [.k a] (some (.k d)) s' vs →
      (let u := s.actingU s' [.k a]
       let n := (vs.getD 0 0).toNat
       let run (lo : Nat) : Prop := v.accBase ≤ lo ∧ lo + n ≤ v.accBase + v.accCount ∧ ∀ i < n, lo + i ∉ v.banks
       1 ≤ n → n ≤ 512 → u.team u.issueTeam = some v →
       (∀ lo, run lo → (∀ x < lo, ¬ run x) →
         exec (.accAlloc d a) s =
           .next (s.uDone (u.modTeam u.issueTeam (fun v => { v with banks := (bankList lo n).foldl insertNat v.banks })) (some (.k d))
             { res := some (dw lo) })) ∧
       ((∀ lo, ¬ run lo) →
         exec (.accAlloc d a) s = .next (s.uDone u (some (.k d)) { res := some 0xFFFFFFFFFFFFFFFF#64 })))) ∧
    (∀ (a : Fin 64) (vs : List DWord), UReady s [.k a] none s' vs →
      (let u := s.actingU s' [.k a]
       let w := vs.getD 0 0
       let lo := dfield w 8 0
       let n := dfield w 18 9
       1 ≤ n → n ≤ 512 → lo + n ≤ 512 → dfield w 63 19 = 0 → (∀ i < n, lo + i ∈ u.heldBanks u.issueTeam) →
       (u.banksNamed u.issueTeam.1 (bankList lo n) = false →
         exec (.accFree a) s =
           .next (s.uDone (u.modTeam u.issueTeam (fun v => { v with banks := v.banks.filter (fun x => !(bankList lo n).contains x) })) none {})) ∧
       (u.banksNamed u.issueTeam.1 (bankList lo n) = true →
         exec (.accFree a) s = .next (s.uDone u none { next := .stay, stall := .bank lo n })))) ∧
    (∀ (t : State) (ls : List LaneIn) (os : List LaneOut) (a : Src),
      (let may (u : State) (l : LaneIn) (c idx : Nat) : Prop :=
         c = (u.teamIdOf l.who).1 ∧ idx = (l.v 0).toNat % 131072 ∧ idx / 256 ∈ u.heldBanks (u.teamIdOf l.who)
       let busy (u : State) (l : LaneIn) (idx : Nat) : Prop :=
         ∃ x ∈ u.cmds, x.engine = .matrix (u.teamIdOf l.who).1 ∧ x.team = u.teamIdOf l.who ∧ idx / 256 ∈ x.op.banks
       let waits (idx : Nat) : LaneOut := { next := .stay, stall := .bank (idx / 256) 1 }
       (∀ d : Dst, s.accWaits a a = false →
         (let sp : LaneSpec := { srcs := [(a, false)], dst := some (d, true), check := accCheck a }
          LaneReady s sp s' ls →
          InTurn (fun u l v o => ∃ c idx, may u l c idx ∧ v = u ∧
            ((¬ busy u l idx ∧ idx / 256 ∉ (u.core c).accPoison ∧ o = { res := some (u.acc c idx) }) ∨ (busy u l idx ∧ o = waits idx)))
            (s.acting s' sp) ls t os →
          exec (.accRead d a) s = .next (s.gangDone sp t (ls.zip os)))) ∧
       (∀ b : Src, s.accWaits a b = false →
         (let sp : LaneSpec := { srcs := [(a, false), (b, true)], check := accCheck a }
          LaneReady s sp s' ls →
          InTurn (fun u l v o => ∃ c idx, may u l c idx ∧
            ((¬ busy u l idx ∧ v = u.setAcc c idx (l.v 1) ∧ o = {}) ∨ (busy u l idx ∧ v = u ∧ o = waits idx))) (s.acting s' sp) ls t os →
          exec (.accWrite a b) s = .next (s.gangDone sp t (ls.zip os)))))) ∧
    (∀ (u : State) (c idx : Nat) (x : DWord), (u.setAcc c idx x).acc c idx = x)

/-- R75, R76, R239 to R241, R246, R247, R262 to R264: the copy engine's commands and the declared buffers; a set of a buffer's
state is refused where R75 lists no such change and stands from the next clk on. -/
def Obligations.CopiesAndBuffers : Prop :=
  ∀ (s s' : State) (vs : List DWord),
    (∀ d a b : Fin 64, UReady s [.k d, .k a, .k b] none s' vs →
      (let u := s.actingU s' [.k d, .k a, .k b]
       let x := vs.getD 0 0
       let y := vs.getD 1 0
       let w := vs.getD 2 0
       let n := dfield w 31 0
       let cf := dfield w 63 48
       let e := Engine.copy u.sys.issue.core
       (1 ≤ n → n % 64 = 0 → x.toNat % 64 = 0 → y.toNat % 64 = 0 → dfield w 47 32 = 0 → cfOk cf = true →
         (x.toNat + n ≤ y.toNat ∨ y.toNat + n ≤ x.toNat) → MayIssue u e (.xfer x y n) (cfOf cf) →
         exec (.xfer d a b) s = .next (s.uDone (u.issued e (.xfer x y n) (cfOf cf)) none {})) ∧
       (let mask := dfield w 39 32
        mask ≠ 0 → dfield w 47 40 = 0 → cfOk cf = true →
         (∀ c ∈ maskCores u.issueTeam.1 mask, ∃ t v, u.gangTeamOn u.issueTeam c = some t ∧ u.team t = some v ∧ x.toNat + n ≤ v.tileSize) →
         MayIssue u e (.xferMc x y n mask) (cfOf cf) →
         exec (.xferMc d a b) s = .next (s.uDone (u.issued e (.xferMc x y n mask) (cfOf cf)) none {})) ∧
       (∀ (t : Ty) (c : BitVec 16),
         (let size := storageBits t / 8
          let cols := 16 * 2 ^ dfield w 51 50
          let rows := 16 * 2 ^ dfield w 49 48
          let dstr := dfield w 47 24
          let sstr := dfield w 23 0
          dfield w 63 52 = 0 → rows * size ≤ dstr → cols * size ≤ sstr → dstr % size = 0 → sstr % size = 0 →
          x.toNat % size = 0 → y.toNat % size = 0 →
          MayIssue u e (.xferTr x y t rows cols dstr sstr) (cfOf c.toNat) →
          exec (.xferTr t c d a b) s = .next (s.uDone (u.issued e (.xferTr x y t rows cols dstr sstr) (cfOf c.toNat)) none {}))))) ∧
    (∀ a : Fin 64, UReady s [.k a] none s' vs →
      (let u := s.actingU s' [.k a]
       let w := vs.getD 0 0
       let t := u.issueTeam
       let num := dfield w 43 38
       let prod := dfield w 37 36
       let size := 64 * dfield w 35 18
       let off := 64 * dfield w 17 0
       dfield w 63 44 = 0 → prod ≠ 3 → size ≤ 64 * 131072 →
       (size ≠ 0 → u.inReservation t off size = true → (u.team t).bind (fun x => x.bufs.find num) = none → u.rangeFree t off size = true →
         exec (.bufDecl a) s =
           (let b : Buf := { off, size, prod := if prod = 0 then .team else if prod = 1 then .engine else .any }
            let base := Config.tileBase + t.1 * Config.sliceBytes + ((u.team t).map (·.tileBase)).getD 0 + off
            .next (s.uDone ((u.performStores (fun p => meets base size p.loc p.bytes.length)).modTeam t
              (fun x => { x with bufs := x.bufs.put num b })) none {}))) ∧
       (∀ b, size = 0 → (u.team t).bind (fun x => x.bufs.find num) = some b → b.state = .empty →
         exec (.bufDecl a) s = .next (s.uDone (u.modTeam t (fun x => { x with bufs := x.bufs.del num })) none {})))) ∧
    (∀ (n : Fin 64) (b : Buf), UReady s [] none s' vs →
      (let u := s.actingU s' []
       let t := u.issueTeam
       let r := u.sys.issue.lanes.foldl (fun (s : State) l => (s.flushGather l.2).release l.2 .dev) u
       let set (st : BufState) := r.modTeam t (fun v => { v with bufsNew := v.bufsNew ++ [(n.val, st)] })
       (u.team t).bind (fun x => x.bufs.find n.val) = some b →
       (∀ p ∈ ([(.empty, .full, .full), (.full, .draining, .draining), (.full, .empty, .empty), (.draining, .empty, .empty)] :
           List (BufState × BufSetTo × BufState)),
         b.state = p.1 → exec (.bufSet n p.2.1) s = .next (s.uDone
           (r.sys.issue.lanes.foldl (fun (s : State) l => s.acquire l.2 t.1 .dev) (set p.2.2)) none {})) ∧
       (∀ p ∈ ([(.empty, .draining), (.empty, .empty), (.filling, .full), (.filling, .draining), (.filling, .empty),
           (.full, .full), (.draining, .draining), (.draining, .full)] : List (BufState × BufSetTo)),
         b.state = p.1 → exec (.bufSet n p.2) s = .next (s.uDone u none
           { fault := some (bufFail .store 0 (.buf { core := t.1, slot := t.2, num := n.val } b)) })) ∧
       (∀ (v : Team) (st : BufState), v.bufs.find n.val = some b → v.bufsNew = [(n.val, st)] →
         v.takeMode.bufs.find n.val = some { b with state := st })))

/-- R87, R268 to R274, R477: the carder is opened by a team that none precedes, after the stores released to its core, split, fed, popped lane by lane, saved with its
cursor, restored and closed. -/
def Obligations.CarderInstructions : Prop :=
  ∀ (s s' : State) (vs : List DWord),
    (∀ a : Fin 64, UReady s [.k a] none s' vs →
      (let u := s.actingU s' [.k a]
       let x := vs.getD 0 0
       let t := u.issueTeam
       let opened (v : State) (k : Carder) : State :=
         (let w := (v.performStores (·.releasedTo t.1)).arrived
          w.setCarder t.1 (some { k with acq := w.mem.seq }))
       (∀ v bs vt ss, u.readOpen x = (v, .ok bs) → v.carderTaken t = false →
         (openRecordOf false bs = some (vt, ss) →
           exec (.cardOpenX a) s = .next (s.uDone (opened v { slot := t.2, mode := 1, record := x, vt, streams := ss, fib := [] }) none {})) ∧
         (openRecordOf true bs = some (vt, ss) →
           exec (.cardOpenM a) s =
             .next (s.uDone (opened v { slot := t.2, mode := 2, record := x, vt, streams := ss, fib := List.replicate ss.length 0 })
               none {}))) ∧
       (∀ k, u.carderOf t = some k → x.toNat < 65536 →
         exec (.cardSplit a) s = .next (s.uDone (u.setCarder t.1 (some { k with split := x.toNat })) none {})) ∧
       (∀ k v tg, u.carderOf t = some k → u.cursorPlace t x .store = (v, .ok tg) →
         exec (.cardSave a) s =
           (let r := v.sys.issue.lanes.foldl (fun (s : State) l => (s.flushGather l.2).drainOf l.2) v
            .next (s.uDone (((r.write { whos := r.sys.issue.lanes.map (·.2), core := some t.1 } tg.key tg.loc k.cursor).keepFed t.1 k).setCarder
              t.1 none) none {}))) ∧
       (∀ v w bs k, u.uRead x 576 64 = (v, .ok bs) → v.restoreCarder (fun s va n => s.uRead va n 1) t bs = (w, .inl k) →
         w.carderTaken t = false →
         exec (.cardRestore a) s = .next (s.uDone (opened w k) none {})))) ∧
    (UReady s [] none s' vs →
      (let u := s.actingU s' []
       let t := u.issueTeam
       (∀ k, u.carderOf t = some k → exec .cardClose s = .next (s.uDone ((u.setCarder t.1 none).wakePort t) none {})) ∧
       (u.carderOf t = none → exec .cardClose s = .next (s.uDone (u.wakePort t) none {})))) ∧
    (∀ (v : State) (l0 : LaneIn) (rest : List LaneIn) (os : List LaneOut) (d : Dst) (p : Fin 8),
      (let sp : LaneSpec := { dst := some (d, true), pdst := some p.val }
       let ls := l0 :: rest
       let u := s.acting s' sp
       let t := u.teamIdOf l0.who
       LaneReady s sp s' ls →
       ((∀ k, u.carderOf t = some k → ls.length ≤ k.port.length ∨ k.done = true) →
         InTurn (fun x _ w o =>
           match x.carderOf t with
           | none => w = x ∧ o = { pred := some (p.val, false) }
           | some k =>
             match k.port with
             | [] => w = x ∧ o = { pred := some (p.val, false) }
             | e :: es => w = x.setCarder t.1 (some { k with port := es }) ∧
               o = if e = 0xFFFFFFFFFFFFFFFF#64 then { pred := some (p.val, false) } else { res := some e, pred := some (p.val, true) })
           u ls v os →
         exec (.cardNext d p) s = .next (s.gangDone sp v (ls.zip os))) ∧
       (∀ k, u.carderOf t = some k → k.port.length < ls.length → k.done = false →
         exec (.cardNext d p) s = .next (s.gangDone sp u (ls.map (fun l => (l, { next := .stay, block := some (.carder none) }))))))) ∧
    (∀ (v : State) (ls : List LaneIn) (os : List LaneOut) (n : Fin 64) (a b : Src),
      (let t := s.issueTeam
       let sp : LaneSpec := { srcs := [(a, false), (b, false)],
                              check := fun s w _ => if (s.fedStream (s.teamIdOf w) n.val).isSome then none else some { code := 0x0903 } }
       (∀ k, s.fedStream t n.val = some k → ((k.fed.find n.val).getD []).length + s.feedNeed a b ≤ 64) → LaneReady s sp s' ls →
       InTurn (fun x l w o => ∃ k, x.fedStream t n.val = some k ∧ o = {} ∧
         w = if n.val ∈ k.fedEnd then x
           else if l.w 0 = 0xFFFFFFFF#32 then x.setCarder t.1 (some { k with fedEnd := k.fedEnd ++ [n.val] })
           else x.setCarder t.1 (some { k with fed := k.fed.put n.val ((k.fed.find n.val).getD [] ++ [(l.w 0, l.w 1)]) }))
         (s.acting s' sp) ls v os →
       exec (.cardFeed n a b) s = .next (s.gangDone sp v (ls.zip os))))

/-- R275 to R278: stream-fabric slots are loaded, bound, run and unbound through handles. -/
def Obligations.StreamFabricInstructions : Prop :=
  ∀ (s s' : State) (vs : List DWord),
    (∀ fab d a : Fin 64, UReady s [.k a] (some (.k d)) s' vs →
      (let u := s.actingU s' [.k a]
       let va := vs.getD 0 0
       ∀ v w x h body nodes,
         (let h0 := dwordsOf h 0
          let n := dfield h0 7 0
          let raw := (List.range n).map (fun i => (dwordsOf body (16 * i), dwordsOf body (16 * i + 8)))
          u.uRead va 64 1 = (v, .ok h) → 1 ≤ n → n ≤ 64 → v.uRead (va + 64) (16 * n) 1 = (w, .ok body) →
          graphOk h0 (dwordsOf h 8) ((h.drop 16).all (· == 0)) raw = true →
          w.readTables (raw.map (fun r => sgNodeOf r.1 r.2)) = (x, .inr nodes) → nodes.all tablesOk = true →
          x.tableUsed fab.val + sumOf (nodes.map tableBytes) ≤ 65536 → fab.val ∉ x.plat.fsFabric →
          (∀ k < 8, x.fabs.find (fab.val, k) = none → (∀ j < k, (x.fabs.find (fab.val, j)).isSome = true) →
            exec (.sfLoad fab d a) s =
              (let sl : FabSlot := { owner := x.issueTeam, wdcyc := dfield h0 55 40, wdx := dfield h0 39 32, chunk := 2 ^ dfield h0 28 24,
                                     out := dfield h0 21 16, outp := dfield h0 22 22, stat := dwordsOf h 8, nodes }
               .next (s.uDone { x with fabs := x.fabs.put (fab.val, k) sl } (some (.k d)) { res := some (dw (fab.val + 64 * k)) }))) ∧
          ((∀ k < 8, (x.fabs.find (fab.val, k)).isSome = true) →
            exec (.sfLoad fab d a) s = .next (s.uDone x (some (.k d)) { res := some 0xFFFFFFFFFFFFFFFF#64 }))))) ∧
    (∀ a b : Fin 64, UReady s [.k a, .k b] none s' vs →
      (let u := s.actingU s' [.k a, .k b]
       ∀ key sl, u.handle u.issueTeam (vs.getD 0 0) = some (key, sl) →
         (∀ v r,
           (let w (i : Nat) := dwordsOf r (8 * i)
            u.uRead (vs.getD 1 0) 32 1 = (v, .ok r) → (w 0).toNat % 64 = 0 → (w 1).toNat < 2 ^ 40 → (w 2).toNat < 2 ^ 40 →
            (w 3).toNat < 2 → v.fabBusy key = false →
            exec (.sfBind a b) s =
              .next (s.uDone (v.modFab key (fun sl => { sl with bind := some (w 0, (w 1).toNat, (w 2).toNat, (w 3).getLsbD 0), spent := false }))
                none {}))) ∧
         (∀ (cf : BitVec 16) addr mem str wr,
           (let e := Engine.fabric key.1 key.2
            let op := CmdOp.sfRun key.1 key.2 (vs.getD 1 0)
            sl.bind = some (addr, mem, str, wr) → sl.spent = false →
            u.backingOut (u.mkCmd u.issueTeam e op (cfOf cf.toNat)) key.1 addr mem = false → MayIssue u e op (cfOf cf.toNat) →
            exec (.sfRun cf a b) s = .next (s.uDone (u.issued e op (cfOf cf.toNat)) none {}))))) ∧
    (∀ a : Fin 64, UReady s [.k a] none s' vs →
      (let u := s.actingU s' [.k a]
       ∀ key sl, u.handle u.issueTeam (vs.getD 0 0) = some (key, sl) →
         (u.fabBusy key = false → exec (.sfUnbind a) s = .next (s.uDone { u with fabs := u.fabs.del key } none {})) ∧
         (u.fabBusy key = true →
           exec (.sfUnbind a) s = .next (s.uDone u none { next := .stay, stall := .handle key.1 key.2 }))))

/-- R208, R266, R279 to R281, R345, R377: search blocks, published versions, collective rounds, child launches and command
graphs start. -/
def Obligations.StartingWork : Prop :=
  ∀ (s s' : State) (vs : List DWord),
    (∀ (cf : BitVec 16) (a b : Fin 64), UReady s [.k a, .k b] none s' vs →
      (let u := s.actingU s' [.k a, .k b]
       let va := vs.getD 0 0
       let stack := dfield (vs.getD 1 0) 3 0
       let n := dfield (vs.getD 1 0) 13 4
       ∀ v bs rs, dfield (vs.getD 1 0) 63 14 = 0 → n ≠ 0 → stack ∉ u.plat.fsStack → va.toNat % 64 = 0 →
         u.uRead va (64 * n) 1 = (v, .ok bs) → searchRecords bs n = some rs →
         (let c := v.mkCmd v.issueTeam (.search stack) (v.blockOp stack rs) (cfOf cf.toNat)
          v.blockFail c = none → v.hasRoom (.search stack) = true →
          exec (.srchIssue cf a b) s = .next (s.uDone (v.issueRelease.queueBlock stack c rs) none {})))) ∧
    (∀ d a : Fin 64, UReady s [.k a] (some (.k d)) s' vs →
      (let u := s.actingU s' [.k a]
       let r := u.sys.issue.lanes.foldl (fun (s : State) l => (s.flushGather l.2).release l.2 .dev) u
       let old := r.sync.published
       let new : Word := (vs.getD 0 0).setWidth 32
       let p := if old.toNat < new.toNat then r.setSync { r.sync with published := new } else r
       exec (.srchVer d a) s = .next (s.uDone (p.sys.issue.lanes.foldl (fun (s : State) l => s.acquire l.2 s.sys.issue.core .dev) p) (some (.k d)) { res := some (old.setWidth 64) }) ∧
       exec (.srchVerRead d a) s = .next (s.uDone u (some (.k d)) { res := some (u.sync.published.setWidth 64) }))) ∧
    (∀ (cf : BitVec 16) (a : Fin 64), UReady s [.k a] none s' vs →
      (let u := s.actingU s' [.k a]
       let va := vs.getD 0 0
       ∀ v bs r slot, va.toNat % 128 = 0 → u.uRead va 128 1 = (v, .ok bs) → collOf v.dom.dev bs = some r → v.freeRound = some slot →
         (let c := v.mkCmd v.issueTeam (.round slot) (.coll r) (cfOf cf.toNat)
          (∀ x ∈ v.rounds, x.2.group = r.group → x.2.round ≠ r.round) → v.ownBuffers c = true → v.cmdRefused c = none →
          exec (.collStart cf a) s = .next (s.uDone (v.issueRelease.enqueue c) none {})))) ∧
    (∀ (d a : Fin 64) (v : Team), UReady s [.k a] (some (.k d)) s' vs →
      (let u := s.actingU s' [.k a]
       let va := vs.getD 0 0
       let t := u.issueTeam
       u.team t = some v → (∃ l ∈ u.sys.issue.lanes, whoTid l.2 = 0) → v.depth < 10 → va.toNat % 128 = 0 → u.childCount < 4096 →
       (∀ w bs, u.issueRelease.engRead (u.issueRelease.mkCmd t (.copy t.1) (.xfer 0 va 128) {}) va 128 = (w, .ok (bs, false)) →
         exec (.launch d a) s =
           (let n := w.front.nextGrid
            let g : Grid := { kind := .grid, queue := v.queue, prio := v.prio, seq := 0, parent := some t, parentGrid := some v.grid, handle := n,
                              depth := v.depth + 1, asid := v.asid, root := v.root }
            .next (s.uDone ((w.handOver bs va v.sup g).modTeam t (fun x => { x with children := x.children ++ [n] })) (some (.k d))
              { res := some (dw n) }))))) ∧
    (∀ (cf : BitVec 16) (a b : Fin 64), UReady s [.k a, .k b] none s' vs →
      (let u := s.actingU s' [.k a, .k b]
       let va := vs.getD 0 0
       let n := dfield (vs.getD 1 0) 15 0
       let t := u.issueTeam
       let e := Engine.walker t.1
       let c := u.mkCmd t e (.graph u.sys.nextCmd) (cfOf cf.toNat)
       n ≠ 0 → dfield (vs.getD 1 0) 63 16 = 0 → va.toNat % 64 = 0 →
       (∀ v loc, u.nodesAt c va n = (v, .ok loc) → v.regionsAt loc (64 * n) = [] → v.hasRoom e = true →
         exec (.cgLaunch cf a b) s =
           (let r := v.issueRelease
            let g : Graph := { core := t.1, team := t, addr := va, loc, n, slot := r.graphSlot t.1, ready := [], cf := c.cf, cmd := u.sys.nextCmd }
            .next (s.uDone { (r.enqueue { c with left := true }) with graphs := r.graphs.put u.sys.nextCmd g } none {})))))

/-! ### Supervisor and walker instructions -/

/-- R109, R112, R289, R296 to R305: at supervisor level each supervisor instruction has its effect; at user level it raises
0x1001 and has none; a run-ahead skips it. -/
def Obligations.SupervisorInstructions : Prop :=
  ∀ (s s' : State) (vs : List DWord) (d a b : Fin 64),
    (SupReady s [] none s' vs →
      (let u := s.actingU s' []
       let i := u.sys.issue
       let later : UOut := { next := .stay, stall := .completion }
       exec .tsync s =
         (let r := i.lanes.foldl (fun s l => (s.flushGather l.2).drainOf l.2) u
          s.supDone (r.due [.tsyncComplete r.sys.issue.core r.sys.issue.ctx r.sys.issue.pc]) none later) ∧
       exec .replay s = s.supDone u.replayNow none {} ∧
       exec .halt s =
         (let r := (u.runs.filter (fun r => r.core = i.core)).foldl (fun s r => s.rollbackRun r.id) u
          s.supDone (r.modCore i.core (fun k => { k with halted := true, haltAt := if k.halted then k.haltAt else r.now })) none {}) ∧
       exec .tlbinvAll s =
         s.supDone ((u.dropTranslations (fun _ => true) (fun _ => true)).due [.tlbinvComplete i.core i.ctx i.pc]) none later)) ∧
    (SupReady s [a] none s' vs →
      (let u := s.actingU s' [.k a]
       let i := u.sys.issue
       (vs.getD 0 0).toNat < 2 ^ 16 →
       exec (.tlbinvAsid a) s =
         s.supDone ((u.dropTranslations (fun e => e.asid = (vs.getD 0 0).toNat) (fun x => x = (vs.getD 0 0).toNat)).due
           [.tlbinvComplete i.core i.ctx i.pc]) none { next := .stay, stall := .completion })) ∧
    (SupReady s [a] (some d) s' vs →
      (let u := s.actingU s' [.k a]
       let t := u.issueTeam
       let mask : BitVec 4 := (vs.getD 0 0).setWidth 4
       let n := dfield (vs.getD 0 0) 39 16
       let p := if (u.thread u.leader).any (·.idling) || !mask.getLsbD 3 then u
         else if n = 0 then u.modTeam t (fun x => { x with events := x.events ||| 8#4 })
         else u.modTeam t (fun x => { x with timers := x.timers ++ [u.now + n] })
       let latch := ((p.team t).map (·.events)).getD 0
       dfield (vs.getD 0 0) 15 4 = 0 → dfield (vs.getD 0 0) 63 40 = 0 →
       (latch &&& mask ≠ 0 →
         exec (.idle d a) s =
           s.supDone ((p.modTeam t (fun x => { x with events := x.events &&& ~~~(latch &&& mask) })).gangGo (fun x => { x with idling := false }))
             (some d) { res := some ((latch &&& mask).setWidth 64) }) ∧
       (latch &&& mask = 0 →
         exec (.idle d a) s = s.supDone (p.gangGo (fun x => { x with idling := true })) (some d) { next := .stay, stall := .events mask }))) ∧
    (SupReady s [a, b] none s' vs →
      (let u := s.actingU s' [.k a, .k b]
       let x := vs.getD 0 0
       let y := vs.getD 1 0
       let i := u.sys.issue
       (x.toNat < 2 ^ 16 → canonical y = true →
         exec (.tlbinvVa a b) s =
           s.supDone ((u.dropTranslations (fun e => e.asid = x.toNat && e.base = y.toNat % 2 ^ 57 / 2 ^ e.log) (fun q => q = x.toNat)).due
             [.tlbinvComplete i.core i.ctx i.pc]) none { next := .stay, stall := .completion }) ∧
       (∀ v, x.toNat < 4 → y.toNat < 2 ^ 32 → u.ackQueue x.toNat y.toNat = some v → exec (.errack a b) s = s.supDone v none {}) ∧
       (∀ v w tg bs, u.checkIssue (u.laneAccess u.leader .store x 1 1) = (v, .ok tg) → isRemote tg.loc = false → tg.line = true →
         v.lineLost tg.loc = true → v.uRead y 64 1 = (w, .ok bs) → w.checkHome (w.laneAccess w.leader .store x 64 1) tg = none →
         exec (.dirReclaim a b) s =
           (let ln := tg.loc / 64
            let r := w.write {} tg.key (ln * 64) bs
            s.supDone ((r.setDir ln { waiting := (r.dirEntry ln).waiting }).dirRun ln) none {})) ∧
       (∀ v bs w, 1 ≤ x.toNat → x.toNat < 64 → u.uRead y 128 1 = (v, .ok bs) → v.plat.wrapKey = some w →
         numOfBytes (bs.take 8) = 1 → (bs.drop 0x30).all (· == 0) = true →
         exec (.keyselLoad a b) s =
           match Config.unwrap w (BitVec.ofNat 320 (numOfBytes ((bs.drop 8).take 40))) with
           | some k => s.supDone (v.setKey x.toNat (some k)) none {}
           | none => s.supDone v none { fault := some { code := 0x1003 } }) ∧
       (65 ≤ x.toNat → x.toNat < 128 → y = 0 → exec (.keyselErase a b) s = s.supDone (u.setKey (x.toNat - 64) none) none {}))) ∧
    (SupReady s [a, b] (some d) s' vs →
      (let u := s.actingU s' [.k a, .k b]
       let va := vs.getD 1 0
       (∀ v w tg, (let x : TeamId := (u.issueTeam.1, (vs.getD 0 0).toNat)
         x.2 < 16 → u.team x = some v → x ≠ u.issueTeam → v.saved = false → v.saving = false → v.ending = none → u.threadsOf x ≠ [] →
         va.toNat % 4096 = 0 → u.areaBad u.leader va (u.areaOf x v) = (w, .ok tg) →
         exec (.ctxsave d a b) s =
           (let r := w.stopForSave x
            s.supDone { r with pend := r.pend ++ [{ core := u.issueTeam.1, ctx := r.sys.issue.ctx, slot := x.2, area := va, dest := d.val }] }
              (some d) { next := .stay, stall := .completion }))) ∧
       (∀ v w h bs tm tag x r,
         (let t : TeamId := (u.sys.issue.core, dfield (dwordsOf h 0) 3 0)
          let size := dfield (dwordsOf h 0) 63 32
          vs.getD 0 0 = 0 → va.toNat % 4096 = 0 → u.uRead va 256 1 = (v, .ok h) → v.team t = some tm → tm.saved = true → tm.ending = none →
          (v.core t.1).saveTags.find t.2 = some tag → dwordsOf h 8 = dw tag → 4096 ≤ size → size ≤ 1904640 →
          v.uRead va size 1 = (w, .ok bs) → readArea bs t tm tag w.now = some x →
          (w.canLoad t tm x = false →
            exec (.ctxload d a b) s = s.supDone w (some d) { res := some 0xFFFFFFFFFFFFFFFF#64 }) ∧
          (w.canLoad t tm x = true → w.loadChans t x = .ok r → x.cursor.all (· == 0) = true →
            exec (.ctxload d a b) s = s.supDone (r.restoreTeam t tm x none) (some d) { res := some (dw t.2) }))))) ∧
    (s.sys.issue.runAhead = none → s.isSup s.issueTeam = false →
      ∀ i ∈ [Instr.tsync, .replay, .halt, .tlbinvAll, .tlbinvAsid a, .idle d a, .tlbinvVa a b, .errack a b, .dirReclaim a b,
        .keyselLoad a b, .keyselErase a b, .ctxsave d a b, .ctxload d a b], exec i s = .next (s.gangRaise { code := 0x1001 })) ∧
    (∀ r, s.sys.issue.runAhead = some r →
      ∀ i ∈ [Instr.tsync, .replay, .halt, .tlbinvAll, .tlbinvAsid a, .tlbinvVa a b, .errack a b, .dirReclaim a b, .keyselLoad a b, .keyselErase a b],
        exec i s = .next (s.gangGo (fun t => { t with pc := s.sys.issue.pc + dw s.sys.issue.len })))

/-- R284 to R287, R360, R363: a walker thread sends and receives messages, hops, emits, measures distances, offers to heaps
and marks visits. -/
def Obligations.WalkerInstructions : Prop :=
  ∀ (s s' : State) (l : LaneIn) (n : Nat) (x : WalkCtx), l.who = .walk n → l.t.walk = some x →
    (∀ (a : Src) (b : Fin 128),
      (let sp : LaneSpec := { srcs := [(a, false)], more := regsFrom b.val 16 }
       let u := s.acting s' sp
       let dst := (l.w 0).toNat
       SoloReady s sp s' l →
       (dst < 8192 → u.peerRoom dst = true →
         exec (.wSend a b) s =
           (let m := { walkMsg 1 (walkerStack dst) n dst x with body := (regsFrom b.val 16).map l.t.rd }
            .next (s.gangDone sp (u.modDie (walkerStack dst) (fun d => { d with sends := d.sends ++ [m] })) [(l, {})]))) ∧
       (dst < 8192 → u.peerRoom dst = false →
         exec (.wSend a b) s = .next (s.gangDone sp u [(l, { next := .stay, stall := .peer dst })])) ∧
       (8192 ≤ dst → exec (.wSend a b) s = .next (s.gangDone sp (u.walkerDropped x n) [(l, {})])))) ∧
    (∀ d : Fin 128,
      (let sp : LaneSpec := { more := regsFrom d.val 16 }
       let u := s.acting s' sp
       SoloReady s sp s' l →
       (∀ m ms, l.t.msgs = m :: ms →
         exec (.wRecv d) s =
           .next (s.gangDone sp (u.modThread l.who (fun t =>
             { (m.zipIdx.foldl (fun (t : Thread) p => t.wr (d.val + p.2) p.1) t) with msgs := ms })) [(l, {})])) ∧
       (l.t.msgs = [] →
         exec (.wRecv d) s = .next (s.gangDone sp (u.walkBoundary l.who) [(l, { next := .stay, stall := .message })])))) ∧
    (∀ a : Src,
      (let sp : LaneSpec := { srcs := [(a, false)] }
       let u := s.acting s' sp
       let k := (l.w 0).toNat
       SoloReady s sp s' l → k ≤ 15 → k ∉ u.plat.fsStack →
       ((u.die k).hops.length < 64 →
         exec (.wHop a) s =
           (let h := { walkMsg 2 k n 0 x with body := l.t.regs.take 16, pc := s.sys.issue.pc + dw s.sys.issue.len }
            .next (s.gangDone sp ((u.modDie k (fun d => { d with hops := d.hops ++ [h] })).dropThread l.who)
              [(l, { next := .gone })]))) ∧
       (64 ≤ (u.die k).hops.length →
         exec (.wHop a) s = .next (s.gangDone sp u [(l, { next := .stay, stall := .hopRoom k })])))) ∧
    (∀ (a : Fin 128) (c : Fin 32) (ch : Chan),
      (let sp : LaneSpec := { srcs := [(.reg a, true)] }
       let u := s.acting s' sp
       let t : TeamId := (x.core, x.team)
       SoloReady s sp s' l →
       (u.chan t c.val = some ch → ch.kind = .emissions → ch.elems.length < ch.room →
         exec (.wEmit a c) s = .next (s.gangDone sp ((u.pushOne t c.val (l.v 0)).wakeChan t c.val) [(l, {})])) ∧
       (u.chan t c.val = some ch → ch.kind = .emissions → ch.room ≤ ch.elems.length →
         exec (.wEmit a c) s = .next (s.gangDone sp u [(l, { next := .stay, stall := .emitRoom c.val })])) ∧
       (u.chan t c.val = none → exec (.wEmit a c) s = .next (s.gangDone sp (u.walkerDropped x n) [(l, {})])))) ∧
    (∀ (d a : Fin 128) (q : Fin 32) (slot : QSlot) (v : State) (bs : List Byte),
      (let sp : LaneSpec := { srcs := [(.reg a, true)], dst := some (.reg d, false) }
       let u := s.acting s' sp
       let len := vecBytes slot.dim slot.fmt
       SoloReady s sp s' l → (u.die x.stack).slots.find q.val = some slot → u.uReadGo l.who (l.v 0) len (len / 64 + 2) = (v, .ok bs) →
       exec (.wDist d a q) s =
         (let m := distance Config.walkMetric slot bs
          .next (s.gangDone sp (v.modThread l.who (fun t => { (t.accessOk v.sys.issue.pc) with latch := some m }))
            [(l, { res := some (dw m.f32) })])))) ∧
    (∀ (p : Fin 8) (a : Fin 128) (h : Fin 32) (m : DistVal),
      (let sp : LaneSpec := { srcs := [(.reg a, true)] }
       let u := s.acting s' sp
       let hp := (u.die x.stack).heap h.val
       SoloReady s sp s' l → l.t.latch = some m → heapFail hp x.asid = false →
       exec (.wHeap p a h) s =
         (let e := (m, dfield (l.v 0) 47 0)
          .next (s.gangDone sp (u.modDie x.stack (fun d => { d with heaps := d.heaps.put h.val (hp.offer e) }))
            [(l, sets p (decide (hp.entries.length < hp.cap) || (hp.entries.getLast?).any (fun y => ranksAbove e y)))])))) ∧
    (∀ (p : Fin 8) (a : Src) (t : Fin 32) (size : Nat) (set : List Nat),
      (let sp : LaneSpec := { srcs := [(a, false)] }
       let u := s.acting s' sp
       let i := (l.w 0).toNat
       SoloReady s sp s' l → (u.die x.stack).visited.find t.val = some (size, set) → i < size →
       exec (.wVisit p a t) s =
         .next (s.gangDone sp (u.modDie x.stack (fun d => { d with visited := d.visited.put t.val (size, insertNat set i) }))
           [(l, sets p (set.contains i))])))

/-! ### Steps that no instruction names: cores -/

/-- R39, R41, R54, R55, R61, R63, R64, R108, R110, R395, R413, R446, R448: draws, forcing, starvation and claim-deadlock
records, restarts, the end of a run-ahead, deferred batch entries, fencing of a hung core.
R101, R111, R298, R299, R301: the completions of supervisor instructions: `tsync`, `tlbinv`, the timer of `idle`, and the
writing of a saved team. -/
def Obligations.CoreSteps : Prop :=
  ((∀ (s : State) (core n : Nat) (b : Bobbin), core < 192 → s.drawChoice core = some (n, b) → s.canDraw core = true →
    exec (.draw core) s =
      (let left (bs : Table Nat Bobbin) : Table Nat Bobbin :=
         if b.threads.length ≤ 32 then bs.del n else bs.put n { b with threads := b.threads.drop 32 }
       let r := s.modCore core (fun k => { k with lastDraw := s.now, bobbins := left k.bobbins })
       .next (((r.formSkein core b.slot ((b.threads.take 32).map (fun x => Who.lane core b.slot x.1))).fileAll core).wakeCore core))) ∧
  (∀ (s : State) (w : Who) (t : Thread), s.thread w = some t → t.state = .ready →
    ∃ u, exec (.forcing w) s = .next u ∧ u.thread w = some { t with forced := true } ∧ ∀ v, v ≠ w → u.thread v = s.thread v) ∧
  (∀ (s : State) (core slot : Nat) (o : SyncObj) (x : Timed), s.timed (core, slot) o = some x → (s.core core).halted = false →
    x.due s.now (s.core core).starve = true →
    exec (.starvation core slot o) s =
      (let r : ErrRec := { code := 0x0302, sev := 1, kind := 1, index := core, slot, asid := ((s.team (core, slot)).map (·.asid)).getD 0,
                           tag := s.tagOf (core, slot), addr := x.addr, info0 := dw (x.kind + x.num * 16), info1 := dw x.waiters.length }
       .next ((s.record r).markReported (core, slot) o))) ∧
  (∀ (s : State) (core : Nat), core < 192 → s.claimStuck core = true → (s.core core).claimSince.any (fun c => decide (c + 1024 ≤ s.now)) = true →
    exec (.claimDeadlock core) s =
      (let ts := (s.coreThreads core).filter (fun p => p.2.claiming)
       let r := s.record { code := 0x0403, sev := 1, kind := 1, index := core, info0 := dw ts.length, info1 := dw (s.core core).free }
       let q := r.modCore core (fun k => { k with claimSince := none, poolQueue := k.poolQueue.filter (fun x => !x.isClaim) })
       let u := ts.foldl (fun (v : State) p =>
         let v := v.setSys { v.sys with issue := { core, ctx := p.2.ctx, lanes := [(p.2.lane, p.1)], pc := p.2.pc, w1 := claimWord p.2 } }
         if (v.thread p.1).isSome then (v.ready p.1).trapLane p.1 { code := 0x0403 } else v) q
       .next (u.setSys { u.sys with issue := q.sys.issue }))) ∧
  (∀ (s : State) (core : Nat), core < 192 →
    exec (.coreRestart core) s =
      .next (s.modCore core (fun k => if k.restartAt.any (· ≤ s.now) then { k with gated := false, restartAt := none } else k)) ∧
    exec (.coreResume core) s = .next (s.resumeCore core) ∧
    exec (.coreIssueHang core) s = .next (s.fenceCore core)) ∧
  (∀ (s : State) (r : RunAhead), s.runs.find? (fun x => decide (x.id = r.id)) = some r →
    exec (.runAheadRollback r.id) s =
      (let v : State := { s with runs := s.runs.filter (fun x => x.id ≠ r.id) }
       let u := r.whos.foldl (fun u w => u.modThread w Thread.rollback) v
       let tm := (r.whos.head?).map u.teamIdOf
       .next (u.batch { code := r.code, core := r.core, asid := r.asid, pc := r.pc, granules := r.granules,
                        refault := ((r.whos.head?).bind u.thread |>.map (·.refault)).getD 0, team := tm,
                        tag := (tm.map u.tagOf).getD 0, index := r.core, tid := (r.whos.head?).map whoTid, access := r.access,
                        addr := r.addr }))) ∧
  (∀ (s : State) (b : BatchEntry) (bs : List BatchEntry), s.errs.waiting = b :: bs → s.errs.ringFull = false →
    exec .batchEntryDeferred s = .next ((s.setErrs { s.errs with waiting := bs }).batchWrite b))) ∧
  ((∀ (s : State) (core ctx : Nat) (pc : DWord),
    exec (.tsyncComplete core ctx pc) s = .next ((s.setMem { s.mem with walkCache := [] }).passAll (s.completing core ctx pc) 4) ∧
    exec (.tlbinvComplete core ctx pc) s = .next (s.performAll.passAll (s.completing core ctx pc) 8)) ∧
  (∀ (s : State) (core slot : Nat) (v : Team), s.team (core, slot) = some v → (∃ c ∈ v.timers, c ≤ s.now) →
    ∃ u, exec (.idleTimer core slot) s = .next u ∧
      u.team (core, slot) = some { v with timers := v.timers.filter (fun c => decide (s.now < c)), events := v.events ||| 8#4 } ∧
      ∀ t, t ≠ (core, slot) → u.team t = s.team t) ∧
  (∀ (s : State) (core ctx : Nat) (pc : DWord) (p : Pending) (v : Team), s.pend.find? (fun p => p.core = core ∧ p.ctx = ctx) = some p →
    (let t : TeamId := (core, p.slot)
     let ws := s.completing core ctx pc
     s.team t = some v → v.ending = none → ws ≠ [] →
     (s.outstanding t = true → exec (.ctxsaveWrite core ctx pc) s = .next s) ∧
     (s.outstanding t = false → (∀ b ∈ v.banks, b ∉ (s.core core).accPoison) →
       exec (.ctxsaveWrite core ctx pc) s =
         (let w := ws.headD (.lane core 0 0)
          let tag := (s.core core).saveCount + 1
          let bs := s.image t v tag
          .next (((s.writeArea w core p.area bs (bs.length / 64 + 1)).freeSaved t tag).finishSave p ws (dw bs.length)))))))

/-! ### Steps that no instruction names: engines -/

/-- R239, R242, R243, R245, R253, R266, R457, R459, R467, R471, R474: a command leaves the head of its queue when its guard and
its buffers let it, runs, and completes, holds or ends; an abandoned multicast ends its commands. -/
def Obligations.CommandSteps : Prop :=
  (∀ (s : State) (q : EngineQueue) (c : Cmd), s.headOf (engineOf q) = some c →
    (s.guardOf c = none → exec (.commandHead q) s = .next s) ∧
    (s.guardOf c = some false → exec (.commandHead q) s = .next (s.retireCmd c)) ∧
    (s.guardOf c = some true → s.slotRuns c = false →
      (s.headBufs c = none → exec (.commandHead q) s = .next s) ∧
      (∀ ds rs, s.headBufs c = some (ds, rs) →
        (∀ f, (s.dests c).findSome? (s.destFail c) = some f →
          exec (.commandHead q) s =
            .next ((s.modCmd c.id (fun c => { c with info0 := f.info0.toNat, info1 := f.info1.toNat })).due
              [.commandEnd c.id (BitVec.ofNat 16 f.code) f.addr])) ∧
        ((s.dests c).findSome? (s.destFail c) = none →
          exec (.commandHead q) s = .next ((s.leaveHead c ds rs).startCmd { c with left := true, dsts := ds, rels := rs }))))) ∧
  (∀ (s v : State) (c : Cmd) (id : Nat), s.cmd id = some c → c.left = true → c.waitReplay = false → c.laterDsts = [] →
    c.laterRels = [] → s.behind c = false → s.srcReady c = true →
    (let c' := (v.cmd id).getD c
     (∀ n, s.runCmd c = (v, .done n) → exec (.commandComplete id) s = .next ((v.dropWork c').settle c' n)) ∧
     (∀ va, s.runCmd c = (v, .hold va) → exec (.commandComplete id) s = .next (v.due [.commandHold id (dw va)])) ∧
     (∀ f i0 i1, s.runCmd c = (v, .bad f i0 i1) →
       exec (.commandComplete id) s =
         .next ((v.modCmd id (fun c => { c with info0 := i0, info1 := i1 })).due [.commandEnd id (BitVec.ofNat 16 f.code) f.addr])) ∧
     (s.runCmd c = (v, .wait) → exec (.commandComplete id) s = .next v))) ∧
  (∀ (s : State) (c : Cmd) (id : Nat) (va : DWord), s.cmd id = some c →
    (let again := c.retried && c.holdVa.any (fun x => x.toNat / 64 = va.toNat / 64)
     let refault := if again then Nat.min 255 (c.refault + 1) else 0
     let v := s.modCmd id (fun c => { c with holdVa := some va, waitReplay := true, retried := false, refault })
     exec (.commandHold id va) s = .next (v.holdBatch { c with refault } va.toNat (if again then 0x0702 else 0x0701)))) ∧
  (∀ (s v : State) (c : Cmd) (id bytes kind index i0 i1 : Nat) (code : BitVec 16) (addr : DWord), s.cmd id = some c →
    (s.checkFailed id code.toNat addr).endUnit c code.toNat = (kind, index, i0, i1) →
    (s.checkFailed id code.toNat addr).endActions c code.toNat = (v, bytes) →
    exec (.commandEnd id code addr) s =
      .next ((v.settle c bytes).endRecord c code.toNat (if code.toNat = 0x0B03 then 0 else addr) (code.toNat = 0x0503 || code.toNat = 0x0F05) kind index i0 i1)) ∧
  (∀ (s : State) (id : Nat) (k : Multicast),
    s.casts.find? (fun k => k.cmds.contains id && decide (k.presented < k.want)) = some k →
    exec (.multicastAbandon id) s =
      (let v : State := { s with casts := s.casts.filter (fun x => x != k) }
       .next (k.cmds.foldl (fun (s : State) i =>
         (s.modCmd i (fun c => { c with info0 := k.tag + k.core * 256, info1 := k.presented })).due [.commandEnd i 0x0804#16 (dw k.addr)]) v)))

/-- R239, R265, R266, R270 to R272, R321, R339, R341, R343, R476: graph nodes issue in order, the carder deals, and a stream
passes through its fabric chunk by chunk.
R258: a run of `acc.zero` leaves +0 in every element of its banks, unpoisoned, and every other element as it was. -/
def Obligations.EngineSteps : Prop :=
  ((∀ (s : State) (core gid i : Nat) (g : Graph) (x : Nat × Nat × Nat),
    (∀ y ∈ s.graphsOn core, y.2.started = true ∧ y.2.dead = false) → s.nextNode core = some (x, gid, g) → x.2.2 = i →
    exec (.graphNodeIssue core) s = .next (s.issueNode g gid i)) ∧
  (∀ (s v : State) (core : Nat) (k k' : Carder), core < 192 → (s.core core).carder = some k → k.done = false → k.held = none →
    k.port.length < 32 →
    (let t : TeamId := (core, k.slot)
     let fuel := sumOf (k.streams.map (·.len)) + sumOf (k.fed.map (fun f => f.2.length)) + 4
     let deal := if k.spJ < k.spK then (s, k.segment) else if k.mode = 1 then s.intersect core k fuel else s.mergeNext core k
     (∀ e, deal = (v, .elem k' e) →
       exec (.carderDeal core) s =
         .next ((v.setCarder core (some { k' with port := k'.port ++ [e], retried := false, refault := 0 })).wakePort t)) ∧
     (deal = (v, .finished k') →
       exec (.carderDeal core) s = .next ((v.setCarder core (some { k' with done := true })).wakePort t)) ∧
     (deal = (v, .wait k') → k'.fed = k.fed → exec (.carderDeal core) s = .next (v.setCarder core (some k'))) ∧
     (∀ f, deal = (v, .fault k' f) →
       exec (.carderDeal core) s =
         (let r : ErrRec := { code := f.code, sev := 3, kind := 1, index := core, slot := k'.slot, asid := ((v.team t).map (·.asid)).getD 0,
                              tag := v.tagOf t, addr := f.addr, phys := f.phys, info0 := f.info0, info1 := f.info1 }
          .next (((v.record r).setCarder core (some { k' with port := k'.port ++ [faultMarker f.code], done := true, faulted := true })).wakePort t))))) ∧
  (∀ (s v : State) (f slot mem str id : Nat) (addr : DWord) (wr : Bool) (c : Cmd) (sl : FabSlot) (bs : List Byte),
    s.fabs.find (f, slot) = some sl → sl.run = some id → s.cmd id = some c → sl.bind = some (addr, mem, str, wr) → sl.output = none →
    sl.doomed = none → sl.stuck = false → c.waitReplay = false → s.streamReady c = true →
    (let total := if wr then str else mem
     let done := sl.input.length
     let input := sl.input ++ bs
     let final := decide (total ≤ input.length)
     s.engRead c ((if wr then sl.dst else addr) + dw done) (Nat.min sl.chunk (total - done)) = (v, .ok (bs, false)) →
     ∀ out, evalRun sl input final = (out, none) → input.length ≤ accepted sl input final → outputEnd (addr, mem, str, wr) out final (done / sl.chunk) input.length = none →
       slowChunks sl input final (done / sl.chunk) = [] →
       exec (.streamChunk f slot) s =
         .next (v.modFab (f, slot) (fun sl => { sl with input, doomed := none, output := if final then some out else none })))) ∧
  (∀ (s : State) (f slot node cycles id : Nat) (sl : FabSlot), s.fabs.find (f, slot) = some sl → sl.run = some id → sl.doomed = none →
    (let n := (sl.input.length - 1) / sl.chunk
     let e : FabEnd := { code := 0x0B02, node, chunk := n, info := cycles, consumed := sl.input.length,
                         stands := (evalRun sl (sl.input.take (n * sl.chunk)) false).1 }
     exec (.cycleViolation f slot node cycles) s =
       .next ((s.modFab (f, slot) (fun sl => { sl with doomed := some e, output := none })).due [.commandEnd id 0x0B02#16 0])))) ∧
  (∀ (s : State) (c : Cmd) (b n : Nat), c.op = .accZero b n →
    (let core := c.team.1
     let r := s.runCmd c
     r.2 = .done 0 ∧
     (∀ i < 131072, r.1.acc core i = if 256 * b ≤ i ∧ i < 256 * (b + n) then 0 else s.acc core i) ∧
     (∀ k i, k ≠ core → i < 131072 → 256 * (b + n) ≤ 131072 → r.1.acc k i = s.acc k i) ∧
     (∀ x, x ∈ (r.1.core core).accPoison ↔ x ∈ (s.core core).accPoison ∧ ¬ (b ≤ x ∧ x < b + n))))

/-- R114, R285, R346, R348, R349, R351, R353 to R356, R359, R362 to R364, R481, R484 to R486: the sequencer of a base die starts its next
block, runs the block's commands, gives way and resumes; walks start, hop, exchange messages and end.
R284, R285, R359, R362 to R364, R486: what walker threads send, hop and leave reaches its stack, and pre-emption spills
and resumes a block. -/
def Obligations.SearchSteps : Prop :=
  (∀ (s v : State) (stack : Nat) (b : Block) (c : SearchCmd),
    ((s.die stack).nextBlock = some b → (s.die stack).running = none → (∀ p, (s.die stack).spilled = some p → p.prio < b.prio) →
      (let run (v : State) : State :=
         (v.modBlock stack b.entry (fun b => { b with started := true, lastWalk := v.now })).modDie stack (fun d => { d with running := some b.entry })
       (b.started = true → exec (.searchBlockStart stack) s = .next (run s)) ∧
       (∀ k ds rs, b.started = false → s.cmd b.cmdId = some k → s.guardOf k = some true → s.headBufs k = some (ds, rs) →
         exec (.searchBlockStart stack) s = .next (run (s.leaveHead k ds rs))) ∧
       (∀ k, b.started = false → s.cmd b.cmdId = some k → s.guardOf k = some false →
         exec (.searchBlockStart stack) s = .next ((s.dropBlock stack b.entry).retireCmd k)))) ∧
    (s.running stack 0 = some (b, c) → exec (.searchNop stack) s = .next (s.advance stack b)) ∧
    (s.running stack 1 = some (b, c) →
      (let n := vecBytes c.dim (tyOf c.fmt)
       (∀ bs, s.dieRead stack b false c.addr n = (v, .ok bs) →
         exec (.qload stack) s =
           .next ((v.modDie stack (fun d => { d with slots := d.slots.put c.q { dim := c.dim, fmt := tyOf c.fmt, bytes := bs } })).advance stack b)) ∧
       (∀ va, s.dieRead stack b false c.addr n = (v, .hold va) → exec (.qload stack) s = .next (v.parkBlock stack b va (c.addr.toNat + n))) ∧
       (∀ f, s.dieRead stack b false c.addr n = (v, .bad f) → exec (.qload stack) s = .next (v.failBlock b f)))) ∧
    (s.running stack 2 = some (b, c) →
      ((∀ x, ((s.die stack).heap c.h).asid = some x → x = b.asid) →
        exec (.hinit stack) s =
          .next ((s.modDie stack (fun d => { d with heaps := d.heaps.put c.h { cap := c.count, asid := some b.asid } })).advance stack b)) ∧
      (∀ x, ((s.die stack).heap c.h).asid = some x → x ≠ b.asid → exec (.hinit stack) s = .next (s.failBlock b { code := 0x0C06 }))) ∧
    (∀ (slot : QSlot) (r : ScanRes), (s.die stack).slots.find c.q = some slot → heapFail ((s.die stack).heap c.h) b.asid = false →
      c.count ≠ 0 →
      (let taken := s.takeSnap b c
       let snap := taken.2.1
       let b' := { b with snapTaken := some snap, snapAcq := taken.2.2 }
       let u := taken.1.modBlock stack b.entry (fun x => { x with snapTaken := some snap, snapAcq := taken.2.2 })
       let stride (bare : Bool) := alignUp 16 (16 + vecBytes slot.dim slot.fmt) - (if bare then 16 else 0)
       let on (v : State) : State := if c.count ≤ b.cursor + 1 then v.advance stack b'
         else v.modBlock stack b.entry (fun b =>
           { b with cursor := b.cursor + 1, dim := 0, part := .fin 0 1, retried := false, refault := 0 })
       let after : State := match r with
         | .skip => on v
         | .more dim part recId => v.modBlock stack b.entry (fun b => { b with dim, part, recId })
         | .offer x id => on (v.modDie stack (fun d => { d with heaps := d.heaps.put c.h ((d.heap c.h).offer (x, id)) }))
       (s.running stack 3 = some (b, c) → u.scanRecord stack b' c slot false snap (stride false) = (v, .ok r) →
         exec (.scan stack) s = .next after) ∧
       (s.running stack 4 = some (b, c) → u.scanRecord stack b' c slot true snap (stride true) = (v, .ok r) →
         exec (.cent stack) s = .next after))) ∧
    (s.running stack 5 = some (b, c) → c.stk ∉ s.plat.fsStack → heapFail ((s.die stack).heap c.h) b.asid = false →
      heapFail ((s.die c.stk).heap c.t) b.asid = false →
      exec (.hmerge stack) s =
        .next ((s.modDie stack (fun d => { d with heaps := d.heaps.put c.h (((s.die stack).heap c.h).merge ((s.die c.stk).heap c.t)) })).advance
          stack b)) ∧
    (∀ (k : Cmd) (n : Nat), s.running stack 6 = some (b, c) →
      (let bs := ((s.die stack).heap c.h).result
       heapFail ((s.die stack).heap c.h) b.asid = false → s.cmd b.cmdId = some k →
       ownSlice b.core (s.pieces k .engWrite [.va c.addr bs.length]) = true →
       s.engWrite k c.addr bs (fun _ _ => false) 0 = (v, n, .ok ()) →
       exec (.hout stack) s = .next ((v.modBlock stack b.entry (fun b => { b with wrote := b.wrote + bs.length })).advance stack b))) ∧
    (s.running stack 7 = some (b, c) →
      exec (.vclr stack) s = .next ((s.modDie stack (fun d => { d with visited := d.visited.put c.t (c.count, []) })).advance stack b)) ∧
    (∀ tg, s.running stack 8 = some (b, c) → b.cursor = 0 → c.addr.toNat % 4 = 0 →
      s.checkIssue (s.dieAccess stack b .fetch c.addr 4) = (v, .ok tg) → isHbm tg.loc = true → stackOf tg.loc = stack →
      exec (.walk stack) s =
        .next ((v.modBlock stack b.entry (fun b =>
          { b with cursor := 1, walkLeft := c.count, walkLive := 0, walkOrd := 0, lastWalk := v.now, retried := false, refault := 0 })).startThreads
            stack b.entry c.count)) ∧
    (s.running stack 8 = some (b, c) → b.preempting = false → exec (.walkerThreadStart stack) s = .next (s.startThreads stack b.entry 1)) ∧
    (s.running stack 8 = some (b, c) → b.cursor ≠ 0 → b.lastWalk + 1638400 ≤ s.now →
      (∀ p ∈ s.walkThreads stack b.entry, p.2.stopped = false ∧ p.2.state ≠ .parked) →
      exec (.walkStalled stack) s = .next (s.failBlock b { code := 0x0C05 }))) ∧
  ((∀ (s : State) (stack n : Nat) (h : WalkMsg), (s.die stack).hops.find? (fun h => !s.hopHeld h) = some h → s.idleWalker stack = some n →
    exec (.hopTakeup stack) s =
      .next ((s.modDie stack (fun d => { d with hops := d.hops.erase h })).startWalker n h.ctx h.pc h.body)) ∧
  (∀ (s : State) (dst : Nat) (m : WalkMsg) (t : Thread), dst < 8192 →
    (s.die (walkerStack dst)).sends.find? (fun m => m.dst = dst) = some m → s.thread (.walk dst) = some t →
    (let u := s.modDie (walkerStack dst) (fun d => { d with sends := d.sends.erase m })
     (∀ y, t.walk = some y → m.ctx.search = y.search →
       exec (.walkerMessage dst) s = .next (u.modThread (.walk dst) (fun t => { t with msgs := t.msgs ++ [m.body] }))) ∧
     ((∀ y, t.walk = some y → m.ctx.search ≠ y.search) → exec (.walkerMessage dst) s = .next (u.walkerDropped m.ctx m.src)))) ∧
  (∀ (s : State) (stack : Nat) (m : WalkMsg) (ms : List WalkMsg) (b : Block), (s.die stack).notices = m :: ms →
    (let u := s.modDie stack (fun d => { d with notices := ms })
     let w := u.modBlock stack b.entry (fun b => { b with walkLive := b.walkLive - 1 })
     (u.die stack).blocks.find? (fun b => b.entry = m.ctx.block ∧ b.pos = m.ctx.cmd) = some b →
     (b.walkLive ≤ 1 → b.walkLeft = 0 → exec (.exitNotice stack) s = .next ((w.performWalk stack b.entry).advance stack b)) ∧
     (1 < b.walkLive ∨ b.walkLeft ≠ 0 → exec (.exitNotice stack) s = .next w))) ∧
  (∀ (s : State) (stack e : Nat) (b : Block), (s.die stack).running = some e → (s.die stack).blocks.find? (fun b => b.entry = e) = some b →
    (s.die stack).saveLost = false → (s.die stack).higherWaits b.prio = true →
    (let u := (s.modBlock stack b.entry (fun b => { b with preempting := true }))
     u.walkThreads stack b.entry = [] →
     exec (.searchPreempt stack) s =
       .next (if Config.saveRowFails u.sys.free then u.tickFree.saveLost stack b
         else u.tickFree.modDie stack (fun d => { d with running := none, preempted := d.preempted ++ [b.entry] })))) ∧
  (∀ (s : State) (stack : Nat) (b : Block), (s.die stack).spilled = some b → (s.die stack).running = none →
    (s.die stack).higherWaits b.prio = false →
    (let u := s.tickFree
     let w := u.modBlock stack b.entry (fun b => { b with preempting := false, lastWalk := u.now })
     let r := (w.walkThreads stack b.entry).foldl (fun (s : State) p => s.modThread p.1 (fun t => { t with stopped := false })) w
     exec (.searchResume stack) s =
       .next (if Config.saveRowFails s.sys.free then u.saveLost stack b
         else r.modDie stack (fun d => { d with running := some b.entry, preempted := d.preempted.filter (· != b.entry) })))))

/-! ### Steps that no instruction names: launch and placement -/

/-- R371, R372, R489, R490: a doorbell moves a queue's tail or stops the queue; enabling, disabling and the effect of a disable. -/
def Obligations.LaunchQueues : Prop :=
  ∀ (s : State) (q : Fin 64),
    (∀ v : BitVec 17,
      (let r := s.queue q.val
       let occ := (r.tail + r.size - r.done) % Nat.max r.size 1
       let adv := (v.toNat + r.size - r.tail) % Nat.max r.size 1
       (r.en = false → exec (.lqTailDoorbell q v) s = .next (s.modQueue q.val (fun r => { r with tail := v.toNat }))) ∧
       (r.en = true → r.stop = true →
         exec (.lqTailDoorbell q v) s = .next (s.modQueue q.val (fun r => { r with tail := v.toNat })).pollWaits) ∧
       (r.en = true → r.stop = false → r.size ≤ v.toNat ∨ r.size ≤ occ + adv →
         exec (.lqTailDoorbell q v) s = .next (s.stopQueue q.val 0x0E02 (r.slotAddr r.head) (dw v.toNat) 0).pollWaits) ∧
       (r.en = true → r.stop = false → v.toNat < r.size → occ + adv < r.size →
         exec (.lqTailDoorbell q v) s = .next (s.modQueue q.val (fun r => { r with tail := v.toNat })).pollWaits))) ∧
    ((s.queue q.val).en = false →
      exec (.lqEnable q) s =
        .next (s.modQueue q.val (fun r => if r.en then { r with disabling := false }
          else { r with en := true, head := r.tail, done := r.tail, disabling := false }))) ∧
    ((s.queue q.val).disabling = true → (s.queue q.val).done = (s.queue q.val).head →
      exec (.lqDisableEffect q) s =
        .next ((s.modQueue q.val (fun r => { r with en := false, stop := false, code := 0, disabling := false })).dropHead q.val)) ∧
    (let u := s.modQueue q.val (fun r => if r.en then { r with disabling := true } else r)
     (u.queue q.val).disabling = true → (u.queue q.val).done ≠ (u.queue q.val).head → exec (.lqDisable q) s = .next u)

/-- R50, R92, R105, R208, R306, R307, R313 to R320, R414, R436, R445, R447, R458: records are read, translated and admitted by
kind, teams are placed and retire, and grids complete. -/
def Obligations.LaunchSteps : Prop :=
  ∀ (s : State),
    (exec .recordAdmission s =
      (let u := ((List.range 64).filter s.unread).foldl State.readHead s
       let v := u.toTranslate.foldl (fun (s : State) g =>
         if g.2.ranges.isEmpty then s.modGrid g.1 (fun x => { x with state := .translated }) else s.due [.extentTranslation g.1]) u
       .next v.markPending.admitOne)) ∧
    (∀ (g : Nat) (x : Grid), s.grid g = some x →
      (∀ v r es, x.state = .checked ∨ (x.state = .held ∧ x.retry = true) → s.scanAll x {} x.ranges = (v, r, es) →
        (∀ code a i0 i1, r.err = some (code, a, i0, i1) ∨ (r.err = none ∧ r.invalid = [] ∧ r.excess = some (code, a, i0, i1)) →
          exec (.extentTranslation g) s = .next (v.refuse g code 11 a i0 i1)) ∧
        (r.err = none → r.excess = none → r.invalid = [] →
          exec (.extentTranslation g) s =
            .next (v.modGrid g (fun y => { y with state := .translated, extents := if y.kind = .graph then [] else es }))) ∧
        (r.err = none → r.invalid ≠ [] →
          exec (.extentTranslation g) s =
            .next ((v.modGrid g (fun y => { y with state := .held, retry := false })).batch
              { code := if x.retried then 0x0702 else 0x0701, core := 255, asid := x.asid, pc := 0,
                granules := (r.invalid.foldl (fun l p => addGranule l p false false) []).take 33, refault := 0, team := none,
                tag := x.seq, kind := 11, index := x.queue, access := AccKind.walk.num, addr := dw (r.invalid.headD 0) }))) ∧
      (x.state = .translated →
        (∀ i ∈ [Instr.gridRecord g, Instr.gangRecord g],
          (s.hopeless x = true → exec i s = .next (s.refuse g 0x0401 10 0 0 0)) ∧
          (s.hopeless x = false → x.atOnce = false → exec i s = .next (s.leaveQueue g)) ∧
          (∀ ps k, s.hopeless x = false → x.atOnce = true → x.plan s.rooms = some ps → x.kernel = some k →
            exec i s = .next ((s.leaveQueue g).placeAll g x k 0 ps))) ∧
        exec (.waitOnValue g) s = .next ((s.leaveQueue g).pollWait g x) ∧
        exec (.signalRecord g) s = .next (((s.leaveQueue g).frontStore x x.addr (bytesOf 8 x.value.toNat)).complete g 0) ∧
        ((s.core x.core).fenced = true → exec (.graphRecord g) s = .next (s.refuse g 0x0F04 10 x.addr 0 0)) ∧
        (∀ v, (s.core x.core).fenced = false → s.frontRead x x.addr (64 * x.nodes) = (v, none) →
          exec (.graphRecord g) s = .next (v.refuse g 0x0F01 10 x.addr 0 0)) ∧
        (∀ v bs, (s.core x.core).fenced = false → s.frontRead x x.addr (64 * x.nodes) = (v, some bs) →
          exec (.graphRecord g) s =
            (let w := v.leaveQueue g
             let counts := (List.range x.nodes).map (fun i => dfield (dwordsOf bs (64 * i)) 15 0)
             let gr : Graph := { core := x.core, team := (x.core, 16), addr := x.addr, loc := 0, n := x.nodes, slot := w.graphSlot x.core,
                                 ready := [], cmd := w.sys.nextCmd, record := some g, image := bs, counts }
             let c : Cmd := { id := w.sys.nextCmd, engine := .walker x.core, team := (x.core, 16), tag := x.seq, asid := x.asid, grid := g,
                              op := .graph w.sys.nextCmd, left := true }
             .next { (w.enqueue c) with graphs := w.graphs.put w.sys.nextCmd gr }))) ∧
      (x.state = .admitted →
        (x.kind = .waitOn → exec (.waitOnValuePoll g) s = .next (s.pollWait g x)) ∧
        (s.workOver g x = true → exec (.gridRetire g) s = .next (s.complete g x.status)))) ∧
    (∀ n g k p, s.nextTeam = some (n, g, k, p) → s.placeDue = true →
      exec .teamPlacement s = .next ((s.setFront { s.front with lastPlace := s.now }).placeAll n g k g.placed [p])) ∧
    (∀ (core slot : Nat) (v : Team), s.team (core, slot) = some v →
      (let t : TeamId := (core, slot)
       let u := if v.ending.isSome then s.abandonGraphs t else s
       v.saved = false ∨ v.ending.isSome = true → v.saving = false ∨ v.ending.isSome = true → u.threadsOf t = [] → u.outstanding t = false →
       exec (.teamRetire core slot) s =
         .next ((v.banks.foldl (fun (s : State) b => s.discardBank core b) (u.retireRecord t v)).dropTeam t v)))

/-! ### Steps that no instruction names: the host, the platform, failures -/

/-- R92, R368, R424, R425, R491, R492: the host writes and reads memory through BAR2 and BAR4 at the homes of its lines, an
unpopulated offset gives a record and all ones, and errors of the link are recorded. -/
def Obligations.HostPort : Prop :=
  ∀ (s : State), s.plat.off = false →
    (s.plat.linkUp = true → s.plat.ready = true →
      ∀ (bar off l : Nat),
        (∀ (bytes : List Byte) (ep : Bool), bytes ≠ [] →
          (bar = 2 ∧ off + bytes.length ≤ Config.hbmEnd ∧ l = off) ∨
            (bar = 4 ∧ off + bytes.length ≤ Config.cores * Config.sliceBytes ∧ l = Config.tileBase + off) →
          s.fencedLoc l = false →
          (s.hostKeyless l = false →
            exec (.hostMemoryWrite bar off bytes ep) s =
              (let t := s.write {} s.plat.hkSlot l bytes
               .next (if ep then t.poisonLines l bytes.length else t))) ∧
          (s.hostKeyless l = true →
            exec (.hostMemoryWrite bar off bytes ep) s =
              .next (s.record { code := 0x1004, sev := 1, kind := 9, addr := dw off, info0 := 1 }))) ∧
        (∀ n : Nat,
          (bar = 2 ∧ off + n ≤ Config.hbmEnd ∧ l = off) ∨
            (bar = 4 ∧ off + n ≤ Config.cores * Config.sliceBytes ∧ l = Config.tileBase + off) →
          s.hostKeyless l = false →
          exec (.hostMemoryRead bar off n) s =
            (let r := s.hostView s.plat.hkSlot l n
             .next (r.1.hostReply r.2 (s.fencedLoc l || s.mem.poisoned l n))) ∧
          (s.mem.early = [] → s.hostView s.plat.hkSlot l n = (s, s.mem.read s.plat.hkSlot l n)))) ∧
    (s.plat.linkUp = true →
      ∀ (bar off : Nat),
        (∀ (bytes : List Byte) (ep : Bool), bytes ≠ [] →
          (bar = 2 ∧ Config.hbmEnd < off + bytes.length) ∨ (bar = 4 ∧ Config.cores * Config.sliceBytes < off + bytes.length) →
          exec (.hostMemoryWrite bar off bytes ep) s = .next (s.hostUnpopulated off 1)) ∧
        (∀ n : Nat, bar = 2 ∨ bar = 4 →
          (s.plat.ready = false →
            exec (.hostMemoryRead bar off n) s = .next (s.hostReply (List.replicate n 0xFF#8) false)) ∧
          (s.plat.ready = true →
            (bar = 2 ∧ Config.hbmEnd < off + n) ∨ (bar = 4 ∧ Config.cores * Config.sliceBytes < off + n) →
            exec (.hostMemoryRead bar off n) s = .next ((s.hostUnpopulated off 0).hostReply (List.replicate n 0xFF#8) false)))) ∧
    (s.plat.linkUp = true →
      exec .hostLinkDown s =
        .next ((s.setPlat { s.plat with linkUp := false }).record { code := 0x0E04, sev := 3, kind := 9 })) ∧
    (s.plat.linkUp = false → exec .hostLinkDown s = .next s) ∧
    exec .hostLinkRetrained s = .next (s.setPlat { s.plat with linkUp := true }) ∧
    (∀ a : DWord, exec (.pcieUnsupportedRequest a) s = .next (s.record { code := 0x0E05, sev := 1, kind := 9, addr := a })) ∧
    (∀ n : Nat, exec (.pcieError n) s = .next (s.record { code := 0x0E05, sev := 1, kind := 9, info0 := dw n }))

/-- R66, R303, R374, R387, R390, R392 to R395, R420: what the host's writes of registers do. The code of a refused join's record
is a free value (log entry 3). -/
def Obligations.HostRegisters : Prop :=
  ∀ (s : State),
    (∀ v : DWord, exec (.supervisorMailbox v) s =
      .next ((s.setMem (s.mem.write 0 (Config.ctlBase + 0x1038) (bytesOf 8 v.toNat))).latchEvent 2)) ∧
    (∀ v : DWord,
      (let n := v.toNat % 65536
       exec (.registerWrite 0x28 8 v) s =
         .next (s.setPlat { s.plat with pwLim := if 2000 < n then 2000 else if n < 500 then 500 else n })) ∧
      exec (.registerWrite 0x40 8 v) s = .next (s.setPlat { s.plat with hkSlot := v.toNat % 64 }) ∧
      ((v.getLsbD 2 = true → exec (.registerWrite 8 8 v) s = .next (s.setPlat { s.plat with trip := false })) ∧
       (v.getLsbD 2 = false → exec (.registerWrite 8 8 v) s = .next s)) ∧
      (s.plat.lkKseed = true → ∀ i < 4, exec (.registerWrite (0x60 + 8 * i) 8 v) s = .next s)) ∧
    (∀ (n : Fin 4) (v : BitVec 32),
      (let e := s.errs.queues.getD n.val {}
       let d := (v.toNat + 2 ^ 32 - e.head) % 2 ^ 32
       (d ≤ (e.tail + 2 ^ 32 - e.head) % 2 ^ 32 →
         exec (.eqHeadWrite n v) s =
           .next (s.setErrs { s.errs with queues := s.errs.queues.set n { e with head := v.toNat, ovf := false } })) ∧
       ((e.tail + 2 ^ 32 - e.head) % 2 ^ 32 < d → exec (.eqHeadWrite n v) s = .next s))) ∧
    (∀ v : BitVec 16,
      (let e := s.errs
       let d := (v.toNat + 65536 - e.bqHead) % 65536
       (d ≤ (e.bqTail + 65536 - e.bqHead) % 65536 →
         exec (.bqHeadWrite v) s =
           .next ((s.setErrs { e with bqHead := v.toNat }).due (if e.waiting.isEmpty then [] else [.batchEntryDeferred]))) ∧
       ((e.bqTail + 65536 - e.bqHead) % 65536 < d → exec (.bqHeadWrite v) s = .next s))) ∧
    (s.plat.lkKseed = false →
      exec .kseedLock s =
        .next (s.setPlat { s.plat with lkKseed := true, wrapKey := some (Config.wrappingKey (BitVec.ofNat 256 (numOfBytes s.plat.kseed))) })) ∧
    (s.plat.lkKseed = true → exec .kseedLock s = .next s) ∧
    exec .privLock s = .next (s.setPlat { s.plat with lkPriv := true }) ∧
    (∀ members : List Nat,
      (let u := s.domEnable
       u.plat.domEn = true ∧
       (s.plat.domEn = false → u.dom.dev = s.plat.domDev) ∧
       exec (.domainJoin false members) s =
         .next ((u.setPlat { u.plat with msDom := true }).setDom { u.dom with members, lost := [] }) ∧
       exec (.domainJoin true members) s =
         .next (((u.setDom { u.dom with members := [] }).record
           { code := 0x0D01 + (Config.freeValue u.sys.free).toNat % 255, sev := 1, kind := 0 }).tickFree))) ∧
    (s.plat.atBusy = false → exec .attestationStart s = .next ((s.setPlat { s.plat with atBusy := true }).due [.attestationDone])) ∧
    (s.plat.atBusy = true → exec .attestationStart s = .next s) ∧
    (∀ l m, s.plat.atBusy = true → s.loc s.plat.attAddr = some l → s.loc (s.plat.attAddr + 4096) = some m →
      s.fencedLoc l = false → s.fencedLoc m = false →
      (let t := s.write {} s.plat.hkSlot l (s.report.take 4096)
       let u := t.write {} t.plat.hkSlot m (s.report.drop 4096)
       exec .attestationDone s = .next (u.setPlat { u.plat with atBusy := false })))

/-- R380, R381, R384, R385, R386, R393: power, temperature and resets. -/
def Obligations.PowerAndResets : Prop :=
  ∀ (s : State),
    (∀ (w a : Nat) (bad : List (Fin 7)), s.plat.off = false →
      (let samples := (w :: s.plat.samples).take 1000
       let n := samples.length
       let sum := sumOf samples
       let p := s.plat
       ∃ t : State, exec (.powerSample w a bad) s = .next t ∧ t.plat.samples = samples ∧
         t.plat.pwAvg = Nat.min (sum / n) 65535 ∧
         (a ≤ 4000 → p.pwLim * n < sum ∨ p.hotDie = true → spaced p.lastFall 25000 s.now = true → 1 < p.pwFrac →
           t.plat.pwFrac = p.pwFrac - 1 ∧ t.plat.lastFall = some s.now) ∧
         (a ≤ 4000 → sum + 50 * n < p.pwLim * n → p.hotDie = false → spaced p.lastRise 250000 s.now = true → p.pwFrac < 16 →
           t.plat.pwFrac = p.pwFrac + 1 ∧ t.plat.lastRise = some s.now) ∧
         (4000 < a → t.plat.pwFrac ≤ 8) ∧
         (1 ≤ p.pwFrac → p.pwFrac ≤ 16 → 1 ≤ t.plat.pwFrac ∧ t.plat.pwFrac ≤ 16) ∧
         t.errs.raised.length = s.errs.raised.length + bad.length ∧ t.mem = s.mem ∧ t.threads = s.threads)) ∧
    (∀ clusters stks : List Nat, s.plat.off = false →
      ((∃ x ∈ clusters, 115 < x) ∨ (∃ x ∈ stks, 105 < x) →
        ∃ t : State, exec (.temperatureSample clusters stks) s = .next t ∧ t.plat.trip = true ∧ t.plat.thermTrip = true ∧ t.plat.off = true ∧
          t.mem.cells = []) ∧
      ((∀ x ∈ clusters, x ≤ 115) → (∀ x ∈ stks, x ≤ 105) →
        exec (.temperatureSample clusters stks) s =
          .next (s.setPlat { s.plat with
            tpCore := Nat.min (clusters.foldl Nat.max 0) 255, tpStack := Nat.min (stks.foldl Nat.max 0) 255,
            hotDie := clusters.any (fun t => decide (100 < t)),
            hotStacks := (List.range stks.length).filter (fun i => decide (95 < stks.getD i 0)) }))) ∧
    (∃ t : State, exec .warmReset s = .next t ∧
      (∀ a, isHbm a = true → cellGet t.mem.cells a = cellGet s.mem.cells a) ∧
      (∀ a, isHbm a = false → cellGet t.mem.cells a = 0) ∧
      (∀ k, 1 ≤ k → k < 64 → t.mem.keys.find k = none) ∧ (t.plat.ready = true → (t.mem.keys.find 0).isSome = true) ∧
      t.threads = [] ∧ t.teams = [] ∧ t.cmds = [] ∧ t.front.grids = [] ∧ t.mem.stores = [] ∧
      t.plat.trip = s.plat.trip ∧ t.plat.linkUp = s.plat.linkUp ∧ t.plat.pwFrac = 16) ∧
    (∃ t : State, exec .coldReset s = .next t ∧
      (∀ a, isHbm a = true → cellGet t.mem.cells a = cellGet s.mem.cells a) ∧
      (∀ a, isHbm a = false → cellGet t.mem.cells a = 0) ∧
      (∀ k, 1 ≤ k → k < 64 → t.mem.keys.find k = none) ∧ (t.plat.ready = true → (t.mem.keys.find 0).isSome = true) ∧
      (t.plat.ready = true ↔ t.plat.boot = 0) ∧ (∀ i, 4 ≤ i → i < 8 → t.plat.meas.getD i 0 = 0) ∧
      t.threads = [] ∧ t.teams = [] ∧ t.cmds = [] ∧ t.front.grids = [] ∧ t.plat.trip = s.plat.trip ∧ t.plat.pwFrac = 16) ∧
    (∃ t : State, exec .powerDown s = .next t ∧ t.plat.off = true ∧ t.mem.cells = [] ∧ t.threads = [] ∧
      t.plat.trip = s.plat.trip)

/-- R413, R414, R418, R423, R427, R487, R501: scrubbing, fences of units, and the stop of the device. -/
def Obligations.Failures : Prop :=
  ∀ (s : State),
    (∀ pa l, s.loc pa = some l → isHbm l = true ∨ isTile l = true → s.plat.off = false →
      (let u := memUnit l
       exec (.scrub pa .sound) s = .next s ∧
       exec (.scrub pa .correctable) s = .next (s.corrected u.1 u.2 l) ∧
       (s.mem.poison.contains (l / 64) = true → exec (.scrub pa .uncorrectable) s = .next s) ∧
       (s.mem.poison.contains (l / 64) = false → isTile l = false →
         exec (.scrub pa .uncorrectable) s = .next (s.poisonDetected u.1 u.2 l)) ∧
       (s.mem.poison.contains (l / 64) = false → isTile l = true →
         exec (.scrub pa .uncorrectable) s =
           (let v := s.poisonDetected u.1 u.2 l
            let ls := sliceLines ((v.plat.sliceErrs.find (sliceOf l)).getD []) (l / 64) v.now
            let w := v.setPlat { v.plat with sliceErrs := v.plat.sliceErrs.put (sliceOf l) ls }
            .next (if 16 ≤ ls.length then w.due [.unitFence (.slice (sliceOf l))] else w))))) ∧
    (∀ c < Config.cores,
      (s.core c).fenced = true → exec (.unitFence (.core c)) s = .next s) ∧
    (∀ c < Config.cores,
      exec (.unitFence (.core c)) s = .next (s.fenceCore c) ∧
      (s.plat.fsSlice.contains c = false →
        exec (.unitFence (.slice c)) s =
          (let u := s.performStores (fun p => isTile p.loc && sliceOf p.loc == c)
           .next (((u.setPlat { u.plat with fsSlice := insertNat u.plat.fsSlice c }).fenceRecord 2 c).fenceCore c))) ∧
      (s.plat.fsSlice.contains c = true → exec (.unitFence (.slice c)) s = .next s)) ∧
    (∀ f < 64,
      (s.plat.fsFabric.contains f = false → exec (.unitFence (.fabric f)) s = .next ((s.closeFabric f).fenceRecord 5 f)) ∧
      (s.plat.fsFabric.contains f = true → exec (.unitFence (.fabric f)) s = .next s)) ∧
    (∀ w < 512,
      (s.plat.fsWalker.contains w = false →
        exec (.unitFence (.walker w)) s =
          .next (((s.setPlat { s.plat with fsWalker := insertNat s.plat.fsWalker w }).endWalks (fun n => n / 16 == w)).fenceRecord 7 w)) ∧
      (s.plat.fsWalker.contains w = true → exec (.unitFence (.walker w)) s = .next s)) ∧
    (∀ k < 16,
      exec (.unitFence (.stack k)) s = .next (s.fenceStack k) ∧
      (s.plat.fsStack.contains k = true → exec (.unitFence (.stack k)) s = .next s)) ∧
    (∀ p < 18, exec (.unitFence (.port p)) s = .next (s.fencePort p 0)) ∧
    (s.plat.stopped = false → s.plat.off = false →
      exec .deviceStop s =
        (let u := s.runs.foldl (fun (s : State) r => s.rollbackRun r.id) s
         let v := (List.range Config.cores).foldl (fun (s : State) c => s.modCore c (fun k =>
           { k with halted := true, haltAt := if k.halted then k.haltAt else s.now })) u
         let code := freeCode v.sys.free
         let v := v.setSys { v.sys with turns := [] }
         .next (((v.setPlat { v.plat with stopped := true, stopAt := v.now }).record { code, sev := 5, kind := 0 }).tickFree))) ∧
    (s.plat.stopped = true → s.plat.stopAt + 25000000 ≤ s.now →
      exec .deviceStopLinkDrop s = .next (s.setDom { s.dom with portDown := List.range 18 })) ∧
    (s.plat.stopped = true → s.now < s.plat.stopAt + 25000000 → exec .deviceStopLinkDrop s = .next s)

/-! ### Steps that no instruction names: the Eorex domain -/

/-- R69, R93, R376, R379, R413, R463, R464, R493, R495: accesses of other devices, coherent lines, ports and lost devices. -/
def Obligations.DomainCoherence : Prop :=
  ∀ (s : State),
    (∀ (dev pa size : Nat) (key : Fin 64) (k : RemoteKind), s.answers = true → s.dom.lost.contains dev = false →
      (s.loc pa = none → exec (.remoteAccess dev pa size key k) s = .next (s.domReply 0x0503 [])) ∧
      (∀ loc, s.loc pa = some loc →
        (isHbm loc = false → isTile loc = false → exec (.remoteAccess dev pa size key k) s = .next (s.domReply 0x0503 [])) ∧
        (isHbm loc = true ∨ isTile loc = true →
          (let kind : AccKind := match k with
             | .load => .load
             | .store _ => .store
             | .atom .. | .cas .. => .atomic
           let a : Access := { core := Config.cores, team := (Config.cores, 0), unit := .core 0, asid := 0, root := 0, grid := none,
                               user := false, kind, va := dw pa, size, align := size }
           let old := s.mem.read key.val loc size
           (∀ f, s.checkHome a { loc, key := key.val } = some f →
             exec (.remoteAccess dev pa size key k) s = .next (s.domReply f.code [])) ∧
           (s.checkHome a { loc, key := key.val } = none →
             (k = .load → exec (.remoteAccess dev pa size key k) s = .next (s.arrived.domReply 0 old)) ∧
             (∀ bs : List Byte, k = .store bs →
               exec (.remoteAccess dev pa size key k) s =
                 .next ((s.arrived.write { far := true } key.val loc (bs.take size)).domReply 0 [])) ∧
             (∀ t x v, k = .cas t x v →
               (numOfBytes old = x.toNat % 2 ^ t.bits →
                 exec (.remoteAccess dev pa size key k) s =
                   .next ((s.arrived.write { far := true } key.val loc (bytesOf size (v.toNat % 2 ^ t.bits))).domReply 0 old)) ∧
               (numOfBytes old ≠ x.toNat % 2 ^ t.bits → exec (.remoteAccess dev pa size key k) s = .next (s.arrived.domReply 0 old))) ∧
             (∀ op t v n fl, k = .atom op t v → atomNew op t (numOfBytes old) v.toNat = (some n, fl) →
               exec (.remoteAccess dev pa size key k) s =
                 .next ((s.arrived.write { far := true } key.val loc (bytesOf size n)).domReply 0 old)) ∧
             (∀ op t v fl, k = .atom op t v → atomNew op t (numOfBytes old) v.toNat = (none, fl) →
               exec (.remoteAccess dev pa size key k) s = .next (s.arrived.domReply 0 old))))))) ∧
    (∀ (dev line : Nat) (store : Bool), s.answers = true → s.dom.lost.contains dev = false →
      exec (.directoryRequest dev line store) s = .next (s.dirRequest dev line store)) ∧
    (∀ (dev line : Nat), s.answers = true → s.dom.lost.contains dev = false → dev ≠ s.dom.dev → s.dirEntry line = {} →
      s.dirCount < dirCapacity →
      (∃ t, exec (.directoryRequest dev line false) s = .next t ∧ (t.dirEntry line).copies = [dev] ∧ (t.dirEntry line).owner = none) ∧
      (∃ t, exec (.directoryRequest dev line true) s = .next t ∧ (t.dirEntry line).copies = [] ∧ (t.dirEntry line).owner = some dev)) ∧
    (∀ (line : Nat) (d : Bool), s.answers = true → s.dom.held.find line = some d →
      exec (.snoop line true) s = .next (s.setDom { s.dom with held := s.dom.held.put line false }) ∧
      exec (.snoop line false) s = .next (s.setDom { s.dom with held := s.dom.held.del line })) ∧
    (∀ line : Nat, s.answers = true →
      exec (.invalidation line) s = .next (s.setDom { s.dom with held := s.dom.held.del line })) ∧
    (∀ (line : Nat) (data : List Byte), s.answers = true →
      (let e := s.dirEntry line
       (e.ownerLost = true →
         exec (.snoopReply line data) s =
           .next (s.record { code := 0x0D04, sev := 3, kind := 0, addr := dw (line * 64), phys := true, info0 := dw e.lostOwner, info1 := 0 })) ∧
       (∀ o, e.ownerLost = false → e.owner = some o →
         exec (.snoopReply line data) s =
           (let m := { s.mem with cells := cellPuts s.mem.cells (line * 64) (data.take 64), poison := s.mem.poison.filter (· != line) }
            let keep := (e.waiting.head?).any (fun w => !w.2)
            .next (((s.setMem m).setDir line
              { e with owner := none, snooped := none, copies := if keep then addOnce e.copies o else e.copies }).dirRun line))))) ∧
    (∀ (line o t : Nat), (s.dirEntry line).owner = some o → (s.dirEntry line).snooped = some t →
      (t + 50000 ≤ s.now →
        exec (.snoopTimeout line) s =
          (let u := (s.setMem (s.mem.poisonLine line)).setDir line { ownerLost := true, lostOwner := o }
           let r : ErrRec := { code := 0x0D04, sev := 3, kind := 0, addr := dw (line * 64), phys := true, info0 := dw o,
                               info1 := dw (s.dirEntry line).waiting.length }
           .next ((u.record r).grantThreads line))) ∧
      (s.now < t + 50000 → exec (.snoopTimeout line) s = .next s)) ∧
    (∀ p n : Nat, p < 18 →
      (s.plat.fsPort.contains p = false →
        exec (.eorexPortFailure p n) s =
          (let u := s.setPlat { s.plat with fsPort := insertNat s.plat.fsPort p }
           let r : ErrRec := { code := 0x0F04, sev := 4, kind := 8, index := p, info0 := dw n }
           .next ((u.setDom { u.dom with portDown := insertNat u.dom.portDown p }).record r))) ∧
      (s.plat.fsPort.contains p = true → exec (.eorexPortFailure p n) s = .next s)) ∧
    (∀ d : Nat, s.dom.lost.contains d = false → d ≠ s.dom.dev →
      exec (.deviceLossNotice d) s =
        (let u := s.setDom { s.dom with lost := insertNat s.dom.lost d,
                                        held := s.dom.held.filter (fun h => remoteDev (h.1 * 64) != d) }
         let v := u.record { code := 0x0D06, sev := 4, kind := 0, info0 := dw d }
         let w := (v.dom.dir.map (·.1)).foldl (fun (s : State) l => s.loseLine d l) v
         .next ((w.rounds.filter (fun x => x.2.members.contains d && decide (x.1.stage ≤ 1))).foldl (fun (s : State) x =>
           s.tickFree.abortRound x.2.group x.2.round 0x0D07 (Config.freeValue s.sys.free).toNat) w)))

/-- R281, R377, R378, R496, R497: a round is delivered, or aborts at one instant with the code of its cause. -/
def Obligations.CollectiveRounds : Prop :=
  ∀ (s : State) (group round : Nat),
    (∀ (c : Cmd) (r : CollOp) (contribs : List (List Byte)),
      s.rounds.find? (fun x => x.2.group = group && x.2.round = round && x.1.stage == 1) = some (c, r) →
      (contribs.length + 1 = r.members.length → (∀ b ∈ contribs, b.length = r.bytes) →
        exec (.collectiveDelivery group round contribs) s =
          .next ((s.modCmd c.id (fun c => { c with stage := 2, image := r.result (c.image :: contribs) })).due [.commandComplete c.id])) ∧
      (contribs.length + 1 ≠ r.members.length → exec (.collectiveDelivery group round contribs) s = .next s)) ∧
    (∀ (code : BitVec 16) (mask : DWord),
      (let u := s.setDom { s.dom with aborted := s.dom.aborted.put group (round, code.toNat, mask.toNat) }
       (u.rounds.find? (fun x => x.2.group = group && x.2.round = round && decide (x.1.stage ≤ 1)) = none →
         exec (.collectiveAbort group round code mask) s = .next u) ∧
       (∀ c r, u.rounds.find? (fun x => x.2.group = group && x.2.round = round && decide (x.1.stage ≤ 1)) = some (c, r) →
         exec (.collectiveAbort group round code mask) s =
           .next (((u.abortCmd c).modCmd c.id (fun c => { c with info0 := r.info0, info1 := mask.toNat })).due [.commandEnd c.id code 0]))) ∧
      exec (.collectiveTimeout group round mask) s = exec (.collectiveAbort group round 0x0D01 mask) s)

/-! ### Frames -/

/-- R138, R144, R162, R288: what the other statements leave behind where no lane faults or pages. An instruction of a gang changes
its destination, the flags and the predicate it names, the pc, and the channels it names; every other register, the
status of every thread, every scalar and special register and every byte of memory stay. Where the lanes' acts themselves changed
the machine, what their results add changes each lane's destination, flags, predicate and pc and nothing else. -/
def Obligations.LaneFrame : Prop :=
  (∀ (s s' : State) (sp : LaneSpec) (ls : List LaneIn) (f : State → LaneIn → LaneOut) (i : Instr) (t : State),
    LaneReady s sp s' ls → (ls.map (·.who)).Nodup →
    (∀ l ∈ ls, (f (s.acting s' sp) l).fault = none ∧ (f (s.acting s' sp) l).page = none ∧ (f (s.acting s' sp) l).next ≠ .gone ∧
      (f (s.acting s' sp) l).block = none ∧ (f (s.acting s' sp) l).known = true) →
    exec i s = .next (s.eachDone s' sp ls f) → exec i s = .next t →
    (∀ key a, t.mem.byteAt key a = s.mem.byteAt key a) ∧ t.mem.stores = s.mem.stores ∧
    t.skeins = s.skeins ∧ t.sync = s.sync ∧ t.accs = s.accs ∧ t.hanks = s.hanks ∧ t.errs = s.errs ∧ t.plat = s.plat ∧ t.dom = s.dom ∧
    t.cmds = s.cmds ∧ t.sys = s.sys ∧ t.front.queues = s.front.queues ∧
    (∀ tm v, s.team tm = some v → ∃ cs, t.team tm = some { v with chans := cs }) ∧
    (∀ w th, s.thread w = some th → w ∉ ls.map (·.who) →
      ∃ th', t.thread w = some th' ∧ th'.regs = th.regs ∧ th'.preds = th.preds ∧ th'.fflags = th.fflags ∧ th'.rstack = th.rstack ∧
        th'.trap = th.trap ∧ th'.trapActive = th.trapActive ∧ th'.pc = th.pc) ∧
    (∀ l ∈ ls,
      (let o := f (s.acting s' sp) l
       ∃ th', t.thread l.who = some th' ∧ th'.rstack = l.t.rstack ∧ th'.trap = l.t.trap ∧ th'.trapActive = l.t.trapActive ∧
        th'.fflags = l.t.fflags ||| o.fl ∧ th'.holding = l.t.holding ∧
        (o.pred = none → th'.preds = l.t.preds) ∧
        (∀ n b, o.pred = some (n, b) → n < 8 → ∀ m < 8, th'.pred m = if m = n then b else l.t.pred m) ∧
        (∀ n, n ∉ ((sp.dst.map (fun x => Dst.regs x.1 x.2)).getD []) → th'.rd n = l.t.rd n) ∧
        (o.res = none → th'.regs = l.t.regs) ∧
        (∀ d v, sp.dst = some (.reg d, false) → o.res = some v → th'.rd d.val = v.setWidth 32) ∧
        (∀ d v, sp.dst = some (.reg d, true) → o.res = some v →
          th'.rd d.val = v.setWidth 32 ∧ th'.rd (d.val + 1) = (v >>> 32).setWidth 32) ∧
        (o.next = .adv → th'.pc = s.sys.issue.pc + dw s.sys.issue.len) ∧
        (∀ p, o.next = .goto p → th'.pc = p)))) ∧
  (∀ (s u : State) (sp : LaneSpec) (rs : List (LaneIn × LaneOut)), (rs.map (·.1.who)).Nodup →
    (let t := s.gangDone sp u rs
     t.mem = u.mem ∧ t.skeins = u.skeins ∧ t.sync = u.sync ∧ t.accs = u.accs ∧ t.hanks = u.hanks ∧ t.errs = u.errs ∧ t.plat = u.plat ∧
     t.dom = u.dom ∧ t.cmds = u.cmds ∧ t.sys = u.sys ∧ t.front.queues = u.front.queues ∧
     (∀ tm v, u.team tm = some v → ∃ cs, t.team tm = some { v with chans := cs }) ∧
     (∀ w th, u.thread w = some th → w ∉ rs.map (·.1.who) →
       ∃ th', t.thread w = some th' ∧ th'.regs = th.regs ∧ th'.preds = th.preds ∧ th'.fflags = th.fflags ∧ th'.rstack = th.rstack ∧
         th'.trap = th.trap ∧ th'.trapActive = th.trapActive ∧ th'.pc = th.pc) ∧
     (∀ r ∈ rs, r.2.fault = none → r.2.page = none → r.2.next ≠ .gone → r.2.known = true → ∀ th, u.thread r.1.who = some th →
       ∃ th', t.thread r.1.who = some th' ∧ th'.rstack = th.rstack ∧ th'.trap = th.trap ∧ th'.trapActive = th.trapActive ∧
         th'.fflags = th.fflags ||| r.2.fl ∧ (r.2.pred = none → th'.preds = th.preds) ∧
         (∀ n, n ∉ ((sp.dst.map (fun x => Dst.regs x.1 x.2)).getD []) → th'.rd n = th.rd n) ∧
         (r.2.res = none → th'.regs = th.regs) ∧
         (∀ d v, sp.dst = some (.reg d, false) → r.2.res = some v → d.val < th.holding → th'.rd d.val = v.setWidth 32) ∧
         (∀ d v, sp.dst = some (.reg d, true) → r.2.res = some v → d.val + 1 < th.holding →
           th'.rd d.val = v.setWidth 32 ∧ th'.rd (d.val + 1) = (v >>> 32).setWidth 32) ∧
         (r.2.next = .adv → th'.pc = s.sys.issue.pc + dw s.sys.issue.len) ∧ (∀ p, r.2.next = .goto p → th'.pc = p) ∧
         (r.2.next = .stay → th'.pc = th.pc))))

/-- R144, R288, R290: a U-form instruction that does not fault changes its destination scalar, or pushes its channel, and moves its
gang's pc; every other scalar, every lane register and every byte of memory stay. Where the act itself changed the machine, this
is what its result adds to that. -/
def Obligations.UniformFrame : Prop :=
  ∀ (s s' u : State) (srcs : List USrc) (dst : Option UDst) (vs : List DWord) (o : UOut) (k : Skein),
    o.fault = none → o.next ≠ .gone → s.sys.issue.runAhead = none →
    (let keeps (s t : State) (i : Issue) : Prop :=
       t.mem = s.mem ∧ t.sync = s.sync ∧ t.accs = s.accs ∧ t.hanks = s.hanks ∧ t.errs = s.errs ∧ t.plat = s.plat ∧ t.dom = s.dom ∧
       t.cmds = s.cmds ∧ t.sys = s.sys ∧ t.front.queues = s.front.queues ∧
       (∀ tm v, s.team tm = some v → ∃ cs, t.team tm = some { v with chans := cs }) ∧
       (∀ c x, (c, x) ≠ (i.core, i.ctx) → t.skein c x = s.skein c x) ∧
       (∃ ks, t.skein i.core i.ctx = some { k with ks } ∧
         (∀ d v, dst = some (.k d) → o.res = some v → ks = if d.val < 16 then k.ks else k.ks.set (d.val - 16) v) ∧
         ((∀ d, dst ≠ some (.k d)) ∨ o.res = none → ks = k.ks)) ∧
       (∀ w th, s.thread w = some th →
         ∃ th', t.thread w = some th' ∧ th'.regs = th.regs ∧ th'.preds = th.preds ∧ th'.fflags = th.fflags ∧ th'.rstack = th.rstack ∧
           th'.trap = th.trap ∧ th'.trapActive = th.trapActive ∧
           (w ∉ i.lanes.map (·.2) → th'.pc = th.pc) ∧
           (w ∈ i.lanes.map (·.2) → o.next = .adv → th'.pc = i.pc + dw i.len) ∧
           (∀ p, w ∈ i.lanes.map (·.2) → o.next = .goto p → th'.pc = p))
     (UReady s srcs dst s' vs → s.skein s.sys.issue.core s.sys.issue.ctx = some k →
       keeps s (s.uDone (s.actingU s' srcs) dst o) s.sys.issue) ∧
     (u.sys.issue = s.sys.issue → u.skein s.sys.issue.core s.sys.issue.ctx = some k → keeps u (s.uDone u dst o) s.sys.issue))

/-! ### The whole machine -/

/-- R33, R134, R136, R149, R152, R322, R360, R418: a turn of a pipe whose gang's words decode to an instruction that its core accepts
runs exactly that instruction on the gang; other words take an illegal encoding. A due step runs as the device step of its
name, and where nothing is left to do on a clk, the next one begins. A stopped device drops what its own parts still had due. -/
def Obligations.StepRunsDecoded : Prop :=
  ∀ (s : State),
    (∀ d ds, s.sys.agenda = d :: ds →
      (s.plat.stopped = false ∨ d.outside = true →
        step s = runDue d (s.setSys { s.sys with agenda := ds }) ∧ ∃ i : Instr, ∀ u : State, runDue d u = exec i u) ∧
      (s.plat.stopped = true → d.outside = false → step s = .next (s.setSys { s.sys with agenda := ds }))) ∧
    (s.sys.agenda = [] → s.sys.turns = [] → step s = .next s.nextClk ∧ (s.live = true → s.nextClk.now = s.now + 1)) ∧
    (∀ (core pipe : Nat) (ts : List (Nat × Nat)) (k : Cand) (ks : List Cand) (x : State) (w1 w2 : Word),
      s.sys.agenda = [] → s.sys.turns = (core, pipe) :: ts → core < Config.cores →
      (let u := s.setSys { s.sys with turns := ts }
       let lanes := gangLanes k.gang none
       let v := u.noteSelection core pipe ((u.cands core pipe).map (·.ctx)) k.ctx
       let v := if u.candU k then v.modCore core (fun c => { c with uniformClk := v.now + 1 }) else v
       let v := v.passOver k.sets k.gang
       let old := lanes.filterMap (fun l => (v.thread l.2).map (fun t => (l.2, t)))
       let w := v.setSys { v.sys with issue := { core, ctx := k.ctx, lanes, pc := k.pc, runAhead := none } }
       let w := lanes.foldl (fun (s : State) l => s.modThread l.2 (fun t => t.issued s.now)) w
       let done (t : State) : State := lanes.foldl (fun (s : State) l => s.modThread l.2 Thread.movedOn) (t.keepWaiting old)
       u.cands core pipe = k :: ks → gangRuns k.gang = [none] → w.fetchInstr = (x, some (w1, w2)) →
       u.candU k = false ∨ u.uniformGrants core k = true →
       (∀ (i : Instr) (t : State), decode w1 w2 = .ok i → kindAccepts x.leader w1 w2 = true → exec i x = .next t →
         i.wf = true ∧ ((done t).onlyStalled k = false → step s = .next (done t))) ∧
       (∀ (i : Instr) (f : Fault), decode w1 w2 = .ok i → kindAccepts x.leader w1 w2 = true → exec i x = .fault f → step s = .fault f) ∧
       (∀ (i : Instr) (f : Refusal), decode w1 w2 = .ok i → kindAccepts x.leader w1 w2 = true → exec i x = .refused f → step s = .refused f) ∧
       (∀ t : State, exec (.illegalEncoding w1 w2) x = .next t →
         ((∃ i, decode w1 w2 = .ok i) → kindAccepts x.leader w1 w2 = false) → (done t).onlyStalled k = false → step s = .next (done t)))) ∧
    (∀ (w : Who) (pc : DWord) (v : State) (tg : Target), s.reach w (s.laneAccess w .fetch pc 4 4) = (v, .ok tg) →
      (∀ p ∈ v.mem.stores, p.who ≠ w) → v.mem.hist.find? (·.on (tg.loc / 8 * 8) 8) = none → v.walkBlock w = none →
      (let bs := v.mem.read tg.key (tg.loc / 8 * 8) 8
       ∃ next, s.fetchWord [w] w pc = (v, .word (BitVec.ofNat 32 (numOfBytes ((bs.drop (tg.loc % 8)).take 4))) next)))

/-- R139, R141, R147 to R151, R189, R198, R202 to R301: words that the specification writes out decode to the instructions that it gives
them for. -/
def Obligations.SpecWordsDecode : Prop :=
  decode 0x19020000 0 = .ok (.movk (.reg 2) 0 .full) ∧
  decode 0x1C060000 0 = .ok (.rds (.reg 6) 0) ∧
  decode 0x8815FFFF 0 = .ok (.smovi (.k 21) 0xFFFF) ∧
  decode 0x70050206 0x1C020C04 = .ok (.ld .i32 (.reg 5) ⟨2, some (6, 2), 4⟩) ∧
  decode 0x00040405 0 = .ok (.addI32 (.reg 4) (.reg 4) (.reg 5)) ∧
  decode 0x10060601 0 = .ok (.addI32Imm (.reg 6) (.reg 6) 1) ∧
  decode 0x80141415 0 = .ok (.sadd (.k 20) (.k 20) (.k 21)) ∧
  decode 0x8A4A7FFB 0 = .ok (.sbr .nz 20 0x7FFB) ∧
  decode 0x49000000 0 = .ok .exit ∧
  decode 0x0D678000 0 = .ok (.mov (.reg 103) (.pop 0)) ∧
  decode 0x70030102 0x008D8000 = .ok (.add ⟨.e4m3, .x4, ⟨.dyn, true⟩⟩ (.reg 3) (.reg 1) (.reg 2)) ∧
  decode 0x70060800 0x119DB600 = .ok (.cvt ⟨⟨.rne, true⟩, .ty .e4m3, .x4, .ty .h16, .x2⟩ (.reg 6) (.reg 8)) ∧
  decode 0x70010203 0x14020002 = .ok (.cmp .lt .i32 1 (.reg 2) (.reg 3)) ∧
  decode 0x40C80003 0 = .ok (.br (some ⟨true, 1⟩) 3) ∧
  decode 0x45030002 0 = .ok (.switch (.reg 3) 2) ∧
  decode 0x70010200 0x1B190000 = .ok (.lred .add .f32 ⟨.rne, false⟩ (.reg 1) (.reg 2)) ∧
  decode 0x71646800 0x00861000 = .ok (.atomAdd .n32 .dev .none 100 ⟨104, none, 0⟩) ∧
  decode 0x50060100 0 = .ok (.arrive (.reg 6) 1) ∧
  decode 0x4F000002 0 = .ok (.phase .dev) ∧
  decode 0x5D010400 0 = .ok (.chpoll (.reg 1) 4) ∧
  decode 0x55080409 0 = .ok (.hankPopWait 8 4 1) ∧
  decode 0x58000413 0 = .ok (.boundMin 4 false true 3) ∧
  decode 0x5B000018 0 = .ok (.regclaim 24) ∧
  decode 0x8D021402 0 = .ok (.barInit 2 20 .engine) ∧
  decode 0x91031400 0 = .ok (.guardSet 3 20) ∧
  decode 0x94001400 0 = .ok (.mxIssue 20) ∧
  decode 0x39080300 0 = .ok (.accRead (.reg 8) (.reg 3)) ∧
  decode 0x9A151617 0 = .ok (.xfer 21 22 23) ∧
  decode 0xF0141516 0x01040011 = .ok (.xferTr .n8 0x11 20 21 22) ∧
  decode 0x3B080001 0 = .ok (.cardNext (.reg 8) 1) ∧
  decode 0x3C010405 0 = .ok (.cardFeed 1 (.reg 4) (.reg 5)) ∧
  decode 0xF0001415 0x05000013 = .ok (.sfRun 0x13 20 21) ∧
  decode 0xF0001415 0x06000011 = .ok (.srchIssue 0x11 20 21) ∧
  decode 0x71000300 0x03000000 = .ok (.wHop (.reg 3)) ∧
  decode 0xF0001400 0x08000014 = .ok (.collStart 0x14 20) ∧
  decode 0x8B140500 0 = .ok (.rdsr (.k 20) 5) ∧
  decode 0x8C000C15 0 = .ok (.wrsr 12 (.k 21)) ∧
  decode 0xF0001415 0x09000002 = .ok (.tlbinvVa 20 21) ∧
  decode 0xA9161400 0 = .ok (.idle 22 20)

/-- R134, R137 to R151: every well-formed instruction that has an encoding decodes from it to itself, one word or two as its opcode
says; `keysel` with an empty key shares its words with the other form, which decodes in its place. -/
def Obligations.EncodingRoundTrip : Prop :=
  ∀ (i : Instr) (ws : List Word), i.wf = true → encode i = some ws → (∀ a b, i ≠ .keyselErase a b) →
    (∃ w1, ws = [w1] ∧ isTwoWord w1 = false ∧ ∀ w2, decode w1 w2 = .ok i) ∨
    (∃ w1 w2, ws = [w1, w2] ∧ isTwoWord w1 = true ∧ decode w1 w2 = .ok i)

/-- R7, R82, R381, R384, R393, R425: every step keeps memory in its one form, `pw.lim` in 500 to 2,000 and `pw.frac` in 1 to 16. -/
def Obligations.EveryStepKeepsSound : Prop :=
  ∀ s t : State, s.Sound → step s = .next t → t.Sound

/-- R7, R73, R301, R303, R371, R385, R393, R420: the machine right after reset: memory, queues, error queues and the management block
read as the specification gives them; slots 1 to 63 hold no key. Key slot 0's value, boot results and measurements are firmware's
(log entry 3). -/
def Obligations.ResetValues : Prop :=
  State.reset.Sound ∧
  (∀ key a, isTile a = true → State.reset.mem.byteAt key a = 0) ∧
  (∀ k, 1 ≤ k → k < 64 → State.reset.mem.keys.find k = none) ∧ (State.reset.mem.keys.find 0).isSome = true ∧
  State.reset.threads = [] ∧ State.reset.teams = [] ∧ State.reset.skeins = [] ∧ State.reset.front.grids = [] ∧ State.reset.cmds = [] ∧
  State.reset.hanks = [] ∧ State.reset.accs = [] ∧ State.reset.mem.stores = [] ∧
  (∀ c, (State.reset.core c).free = Config.poolRegs ∧ (State.reset.core c).halted = false ∧ (State.reset.core c).fenced = false) ∧
  (∀ q, State.reset.queue q = {}) ∧
  (∀ q < 64, ∀ o ∈ [0, 8, 16, 24, 32], State.reset.ctlRead8 (0x10000 + 64 * q + o) = 0) ∧
  (∀ n < 4, ∀ o ∈ [0, 8, 16, 24, 32], State.reset.ctlRead8 (0x20000 + 64 * n + o) = 0) ∧
  State.reset.ctlRead8 0 = 0x7140B000 ∧ State.reset.ctlRead8 0x18 = 0 ∧ State.reset.ctlRead8 0x20 = 0 ∧
  State.reset.ctlRead8 0x28 = 2000 ∧ State.reset.ctlRead8 0x30 = 0x100000 ∧ State.reset.ctlRead8 0x38 = 0 ∧
  State.reset.ctlRead8 0x40 = 0 ∧ State.reset.ctlRead8 0x48 = 0 ∧ State.reset.ctlRead8 0x50 = 0 ∧
  State.reset.ctlRead8 0xA0 = 0 ∧ State.reset.ctlRead8 0xA8 = 0 ∧ State.reset.ctlRead8 0x100 = 0 ∧
  State.reset.plat.kseed = List.replicate 32 0 ∧ State.reset.plat.wrapKey = none

/-! ### Rules stated whole -/

/-- R168: the three shifts by every amount, those of 32 and more among them, in the register and the immediate forms. -/
def Obligations.ShiftAmounts : Prop :=
  ∀ (d : Dst) (a b : Src) (n : BitVec 5) (s s' : State) (ls : List LaneIn),
    let left (x : Word) (k : Nat) : Word := if 32 ≤ k then 0 else BitVec.ofNat 32 (x.toNat * 2 ^ k)
    let right (x : Word) (k : Nat) : Word := if 32 ≤ k then 0 else BitVec.ofNat 32 (x.toNat / 2 ^ k)
    let arith (x : Word) (k : Nat) : Word :=
      if 32 ≤ k then (if x.msb then 0xFFFFFFFF else 0)
      else BitVec.ofNat 32 (x.toNat / 2 ^ k + (if x.msb then (2 ^ k - 1) * 2 ^ (32 - k) else 0))
    (LaneReady s (shape2 d a b) s' ls →
      exec (.shl d a b) s = .next (s.eachDone s' (shape2 d a b) ls (fun _ l => gives (left (l.w 0) (l.w 1).toNat))) ∧
      exec (.shr d a b) s = .next (s.eachDone s' (shape2 d a b) ls (fun _ l => gives (right (l.w 0) (l.w 1).toNat))) ∧
      exec (.sra d a b) s = .next (s.eachDone s' (shape2 d a b) ls (fun _ l => gives (arith (l.w 0) (l.w 1).toNat)))) ∧
    (LaneReady s (shape1 d a) s' ls →
      exec (.shlImm d a n) s = .next (s.eachDone s' (shape1 d a) ls (fun _ l => gives (left (l.w 0) n.toNat))) ∧
      exec (.shrImm d a n) s = .next (s.eachDone s' (shape1 d a) ls (fun _ l => gives (right (l.w 0) n.toNat))) ∧
      exec (.sraImm d a n) s = .next (s.eachDone s' (shape1 d a) ls (fun _ l => gives (arith (l.w 0) n.toNat))))

/-- R172: integer division and remainder on every pair of operands of every integer type they accept: the quotient truncated
toward zero, the remainder a − q × b, the corner of a zero divisor with `dz`, the corner of the most negative dividend, and no `.sat`. -/
def Obligations.DivisionAndRemainder : Prop :=
  ∀ (f : Fmt) (d : Dst) (a b : Src) (s s' : State) (ls : List LaneIn), f.ty.isInt = true →
    ((Instr.div f d a b).wf = true ∨ (Instr.rem f d a b).wf = true → f.rc.sat = false) ∧
    (∃ quo rem : Nat → Nat → Nat × Flags,
      (f.pk = .one → LaneReady s (shapeTy f.ty d [a, b]) s' ls →
        exec (.div f d a b) s = .next (s.eachDone s' (shapeTy f.ty d [a, b]) ls (fun _ l =>
          { res := some (dw (extendTo32 f.ty.isSigned f.ty.bits (quo (elemAt f.ty.bits (l.v 0) 0) (elemAt f.ty.bits (l.v 1) 0)).1)),
            fl := (quo (elemAt f.ty.bits (l.v 0) 0) (elemAt f.ty.bits (l.v 1) 0)).2 })) ∧
        exec (.rem f d a b) s = .next (s.eachDone s' (shapeTy f.ty d [a, b]) ls (fun _ l =>
          { res := some (dw (extendTo32 f.ty.isSigned f.ty.bits (rem (elemAt f.ty.bits (l.v 0) 0) (elemAt f.ty.bits (l.v 1) 0)).1)),
            fl := (rem (elemAt f.ty.bits (l.v 0) 0) (elemAt f.ty.bits (l.v 1) 0)).2 }))) ∧
      (∀ x y : Nat, x < 2 ^ f.ty.bits → y < 2 ^ f.ty.bits →
        let va : Int := if f.ty.isSigned ∧ 2 ^ (f.ty.bits - 1) ≤ x then (x : Int) - 2 ^ f.ty.bits else x
        let vb : Int := if f.ty.isSigned ∧ 2 ^ (f.ty.bits - 1) ≤ y then (y : Int) - 2 ^ f.ty.bits else y
        (y = 0 → quo x y = (2 ^ f.ty.bits - 1, flDZ) ∧ rem x y = (x, flDZ)) ∧
        (y ≠ 0 → (quo x y).2 = 0 ∧ (rem x y).2 = 0 ∧
          ((quo x y).1 : Int) = va.tdiv vb % 2 ^ f.ty.bits ∧ ((rem x y).1 : Int) = (va - va.tdiv vb * vb) % 2 ^ f.ty.bits) ∧
        (f.ty.isSigned = true → x = 2 ^ (f.ty.bits - 1) → y = 2 ^ f.ty.bits - 1 →
          quo x y = (2 ^ (f.ty.bits - 1), 0) ∧ rem x y = (0, 0))))

/-- R43: `$drawtime`: what it is after reset, how it is read, which of its bits a write stores, the floor of 16, and that a write
below supervisor level is refused and changes nothing of it. A write takes effect on the clk after it (R293), which `takeTimes` brings. -/
def Obligations.DrawTimer : Prop :=
  (∀ c, (State.reset.core c).drawtime = 0x0100) ∧
  (∀ (s : State) (w : Who), s.readSr w 0x13 = dw (s.core (s.teamIdOf w).1).drawtime ∧ ∀ b, srReadFail s (s.teamIdOf w) 0x13 b = none) ∧
  (∀ (s : State) (w : Who) (rank : Nat) (v : DWord),
    (let n := v.toNat % 65536
     let k := (s.writeSr w rank 0x13 v).core (s.teamIdOf w).1
     s.writeSr w rank 0x13 v = s.modCore (s.teamIdOf w).1 (fun c => { c with drawtimeNew := some (if n < 16 then 16 else n) }) ∧
     k.drawtime = (s.core (s.teamIdOf w).1).drawtime ∧ k.takeTimes.drawtime = (if n < 16 then 16 else n) ∧
     16 ≤ k.takeTimes.drawtime ∧ k.takeTimes.drawtime ≤ 65535)) ∧
  (∀ (s : State) (t : TeamId), s.isSup t = true → srWriteFail s t 0x13 = none) ∧
  (∀ (s : State) (t : TeamId), s.isSup t = false → srWriteFail s t 0x13 = some { code := 0x1002 }) ∧
  (∀ (s s' t : State) (ls : List LaneIn) (os : List LaneOut) (a : Src) (sr : BitVec 8), sr = 0x13 →
    (let sp : LaneSpec := { srcs := [(a, false)], check := fun s w _ => srWriteFail s (s.teamIdOf w) 0x13 }
     LaneReady s sp s' ls →
     InTurn (fun u l v o => v = u.writeSr l.who (whoTid l.who + 1) 0x13 ((l.w 0).setWidth 64) ∧ o = {}) (s.acting s' sp) ls t os →
     exec (.wrs sr a) s = .next (s.gangDone sp t (ls.zip os)))) ∧
  (∀ (s : State) (a : USrc), s.isSup s.issueTeam = false → s.ahead = false →
    exec (.wrsr 0x13 a) s = .next (s.gangRaise { code := 0x1002 }))

end Statements
end

