-- ==== Sys2Proof/Laws/Lanes.lean ====
section
/-!
SUPPORT. What a gang that is ready does: the one lemma each for L-form and U-form instructions that statements about single
instructions go through.
-/
namespace Sys2Proof.Machine

/-- Reading sources keeps every lane's other fields. -/
theorem popLanes_known (s : State) (srcs : List (Src × Bool)) (ls : List LaneIn) (s' : State) (ls' : List LaneIn)
    (h : s.popLanes srcs ls = some (s', ls')) (hk : ∀ l ∈ ls, l.known = true) : ∀ l ∈ ls', l.known = true := by
  induction ls generalizing s ls' with
  | nil => simp only [State.popLanes, Option.some.injEq, Prod.mk.injEq] at h; simp [← h.2]
  | cons l ls ih =>
    simp only [State.popLanes] at h
    split at h
    · next s1 vs _ =>
      cases hp : State.popLanes s1 srcs ls with
      | none => simp [hp] at h
      | some q =>
        simp only [hp, Option.map_some, Option.some.injEq, Prod.mk.injEq] at h
        obtain ⟨rfl, rfl⟩ := h
        intro x hx
        rcases List.mem_cons.1 hx with rfl | hx
        · exact hk l (List.mem_cons_self ..)
        · exact ih s1 q.2 hp (fun y hy => hk y (List.mem_cons_of_mem _ hy)) x hx
    · cases h

/-- Reading sources keeps the number of lanes. -/
theorem popLanes_length (s : State) (srcs : List (Src × Bool)) (ls : List LaneIn) (s' : State) (ls' : List LaneIn)
    (h : s.popLanes srcs ls = some (s', ls')) : ls'.length = ls.length := by
  induction ls generalizing s ls' with
  | nil => simp only [State.popLanes, Option.some.injEq, Prod.mk.injEq] at h; simp [← h.2]
  | cons l ls ih =>
    simp only [State.popLanes] at h
    split at h
    · next s1 vs _ =>
      cases hp : State.popLanes s1 srcs ls with
      | none => simp [hp] at h
      | some q =>
        simp only [hp, Option.map_some, Option.some.injEq, Prod.mk.injEq] at h
        obtain ⟨rfl, rfl⟩ := h
        simp [ih s1 q.2 hp]
    · cases h

/-- The threads of a gang's lanes exist. -/
theorem lanesIn_thread (s : State) (sp : LaneSpec) (l : LaneIn) (h : l ∈ s.lanesIn sp) : s.thread l.who = some l.t := by
  simp only [State.lanesIn, List.mem_filterMap, Option.map_eq_some_iff] at h
  obtain ⟨x, -, t, ht, rfl⟩ := h
  exact ht

/-- A ready gang reads its sources and acts on all its lanes. -/
theorem runLanes_ready {s s' : State} {sp : LaneSpec} {ls : List LaneIn} (h : LaneReady s sp s' ls)
    (act : State → List LaneIn → State × List LaneOut) :
    s.runLanes sp act =
      (let r := act (s.acting s' sp) ls
       (r.1.writeLanes s.sys.issue sp s.issueTeam (ls.zip r.2)).endLanes s.sys.issue sp [] (ls.zip r.2)) := by
  obtain ⟨hp, ⟨l0, rest, hl, hw⟩, hk, hc, hg, hch, hr, hv⟩ := h
  have hearly : (s.lanesIn sp).filter (fun l => (sp.laneCheck s l.who l.t).all (fun f => decide (3 < f.stage))) = s.lanesIn sp := by
    simp only [List.filter_eq_self]
    intro l hm
    simp [hc l hm]
  have hpg : (s.lanesIn sp).filterMap (fun l => if l.known = true then (sp.page s l.who l.t).map (fun p => (l, p)) else none) = [] := by
    simp only [List.filterMap_eq_nil_iff]
    intro l hm
    simp [hg l hm]
  have hkn := popLanes_known s sp.srcs (s.lanesIn sp) s' ls hv hk
  have hf : ls.filter (·.known) = ls := by
    simp only [List.filter_eq_self]
    exact hkn
  have hn : ls.filter (fun l => !l.known) = [] := by
    simp only [List.filter_eq_nil_iff]
    intro l hm
    simp [hkn l hm]
  have hcf : s.chanFail sp (s.lanesIn sp) = none := by
    rw [hl] at hch ⊢
    simp only [State.chanFail, hw]
    exact hch
  have hnone : ∀ l ∈ s.lanesIn sp, firstFail (sp.laneCheck s l.who l.t)
      (if (sp.laneCheck s l.who l.t).all (fun f => decide (3 < f.stage)) then s.chanFail sp (s.lanesIn sp) else none) = none := by
    intro l hm
    simp [hc l hm, hcf, firstFail]
  have hbad : (s.lanesIn sp).filterMap (fun l => (firstFail (sp.laneCheck s l.who l.t)
      (if (sp.laneCheck s l.who l.t).all (fun f => decide (3 < f.stage)) then s.chanFail sp (s.lanesIn sp) else none)).map
        (fun f => (l.lane, l.who, f))) = [] := by
    simp only [List.filterMap_eq_nil_iff]
    intro l hm
    simp only [hnone l hm, Option.map_none]
  have hls : (s.lanesIn sp).filter (fun l => (firstFail (sp.laneCheck s l.who l.t)
      (if (sp.laneCheck s l.who l.t).all (fun f => decide (3 < f.stage)) then s.chanFail sp (s.lanesIn sp) else none)).isNone) = s.lanesIn sp := by
    simp only [List.filter_eq_self]
    intro l hm
    simp only [hnone l hm, Option.isNone_none]
  have hgo : s.goLanes sp act (s.lanesIn sp) = s'.actLanes s.sys.issue sp s.issueTeam [] act ls := by
    have hall : (s.lanesIn sp).filter (fun _ => true) = s.lanesIn sp := by simp
    simp only [State.goLanes, hpg, List.any_nil, Bool.not_false, hall]
    rw [hl] at hr hv ⊢
    simp only [hw]
    rw [hv]
    show (if s'.pushRoom (s.teamIdOf s.leader) sp.dst (l0 :: rest).length then _ else _) = _
    rw [if_pos (show s'.pushRoom (s.teamIdOf s.leader) sp.dst (l0 :: rest).length = true from hr)]
    rfl
  have hne : (s.lanesIn sp).isEmpty = false := by rw [hl]; rfl
  simp only [State.runLanes, hp, Option.isSome_none, Bool.false_and, Bool.false_eq_true, if_false, hearly, hbad, hls,
    List.isEmpty_nil, if_true, hne, hgo]
  simp only [State.actLanes, hf, hn, ite_self, List.foldl_nil, State.acting]

/-- Where no lane faults or pages, the end of an instruction only releases held threads. -/
theorem endLanes_clean (s : State) (i : Issue) (sp : LaneSpec) (rs : List (LaneIn × LaneOut)) (hp : i.runAhead = none)
    (hf : ∀ r ∈ rs, r.2.fault = none ∧ r.2.page = none) : s.endLanes i sp [] rs = s.releaseHeld i.core i.ctx := by
  have h1 : rs.filterMap (fun r => r.2.page.map (fun p => (r.1, p))) = [] := by
    simp only [List.filterMap_eq_nil_iff]
    intro r hr
    simp [(hf r hr).2]
  have h2 : rs.filterMap (fun r => r.2.fault.map (fun f => (r.1.lane, r.1.who, f))) = [] := by
    simp only [List.filterMap_eq_nil_iff]
    intro r hr
    simp [(hf r hr).1]
  simp [State.endLanes, hp, h1, h2, State.pagedLanes]
  split <;> simp_all [State.pagedAhead]

theorem zip_map_self (ls : List α) (f : α → β) : ls.zip (ls.map f) = ls.map (fun l => (l, f l)) := by
  induction ls with
  | nil => rfl
  | cons l ls ih => simp [ih]

/-- A ready gang whose lanes act each for itself. -/
theorem runPure_ready {s s' : State} {sp : LaneSpec} {ls : List LaneIn} (h : LaneReady s sp s' ls) (f : State → LaneIn → LaneOut)
    (hf : ∀ l, (f (s.acting s' sp) l).fault = none ∧ (f (s.acting s' sp) l).page = none) :
    s.runPure sp f = s.eachDone s' sp ls f := by
  have hz : ls.zip (ls.map (f (s.acting s' sp))) = ls.map (fun l => (l, f (s.acting s' sp) l)) := zip_map_self ls _
  rw [State.runPure, runLanes_ready h]
  simp only [hz]
  rw [endLanes_clean _ _ _ _ h.plain]
  · rfl
  · intro r hr
    simp only [List.mem_map] at hr
    obtain ⟨l, -, rfl⟩ := hr
    exact hf l

/-- A ready gang of one lane that acts on the machine. -/
theorem runSeq_solo {s s' : State} {sp : LaneSpec} {l : LaneIn} (h : SoloReady s sp s' l) (f : State → LaneIn → State × LaneOut)
    (hf : (f (s.acting s' sp) l).2.fault = none ∧ (f (s.acting s' sp) l).2.page = none) :
    s.runSeq sp f = s.gangDone sp (f (s.acting s' sp) l).1 [(l, (f (s.acting s' sp) l).2)] := by
  rw [State.runSeq, runLanes_ready h.ready]
  simp only [foldLanes, List.zip_cons_cons, List.zip_nil_left]
  rw [endLanes_clean _ _ _ _ h.ready.plain]
  · rfl
  · intro r hr
    simp only [List.mem_singleton] at hr
    subst hr
    exact hf

/-- Nothing is unknown outside a run-ahead. -/
theorem unknownU_plain (s : State) (srcs : List USrc) (hp : s.sys.issue.runAhead = none) : s.unknownU srcs = false := by
  simp only [State.unknownU, List.any_eq_false]
  intro x _
  cases x <;> simp [State.kUnknown, hp]

/-- A ready gang of a U-form instruction reads its sources and acts once. -/
theorem runU_ready {s s' : State} {srcs : List USrc} {dst : Option UDst} {vs : List DWord} (h : UReady s srcs dst s' vs)
    (act : State → List DWord → State × UOut) :
    s.runU srcs dst act = s.uDone (act (s.actingU s' srcs) vs).1 dst (act (s.actingU s' srcs) vs).2 := by
  obtain ⟨hp, hc, hr, hv⟩ := h
  simp only [State.runU, hp, Option.isSome_none, Bool.false_and, Bool.false_eq_true, if_false, hc, unknownU_plain s srcs hp, hr,
    hv, Bool.not_true]
  rfl

end Sys2Proof.Machine
end

