-- ==== Sys2Proof/Laws/State.lean ====
section
/-!
SUPPORT. What each update of State changes and what it leaves: one lemma per field and update, and the laws of tables.
-/
namespace Sys2Proof.Machine

/-! ### Tables -/

/-- A table reads back what was put under a key. -/
@[simp] theorem find_put [DecidableEq κ] (t : Table κ α) (k : κ) (v : α) : (t.put k v).find k = some v := by
  induction t with
  | nil => simp [Table.put, Table.find]
  | cons p t ih =>
    obtain ⟨k', v'⟩ := p
    simp only [Table.put]
    split
    · simp [Table.find]
    · next h => simp [Table.find, h, ih]

theorem find_put_ne [DecidableEq κ] (t : Table κ α) (k k' : κ) (v : α) (h : k' ≠ k) : (t.put k v).find k' = t.find k' := by
  induction t with
  | nil => simp [Table.put, Table.find, Ne.symm h]
  | cons p t ih =>
    obtain ⟨k0, v'⟩ := p
    simp only [Table.put]
    split
    · next h0 => subst h0; simp [Table.find, Ne.symm h]
    · next h0 => simp only [Table.find, ih]

@[simp] theorem find_upd [DecidableEq κ] (t : Table κ α) (k : κ) (f : α → α) : (t.upd k f).find k = (t.find k).map f := by
  simp only [Table.upd]
  cases h : t.find k with
  | none => simp [h]
  | some v => simp [find_put]


theorem find_upd_ne [DecidableEq κ] (t : Table κ α) (k k' : κ) (f : α → α) (h : k' ≠ k) : (t.upd k f).find k' = t.find k' := by
  simp only [Table.upd]
  cases h0 : t.find k with
  | none => rfl
  | some v => exact find_put_ne _ _ _ _ h

/-- A fold of steps that each keep a projection keeps it. -/
theorem foldl_keeps {α : Type} (g : State → β) (f : State → α → State) (hf : ∀ s a, g (f s a) = g s) (l : List α) (s : State) :
    g (l.foldl f s) = g s := by
  induction l generalizing s with
  | nil => rfl
  | cons a l ih => rw [List.foldl_cons, ih, hf]

/-! ### Updates -/

@[simp] theorem State.setCore_sys (s : State) (c : Nat) (k : Core) : (s.setCore c k).sys = s.sys := rfl
@[simp] theorem State.setCore_threads (s : State) (c : Nat) (k : Core) : (s.setCore c k).threads = s.threads := rfl
@[simp] theorem State.setCore_skeins (s : State) (c : Nat) (k : Core) : (s.setCore c k).skeins = s.skeins := rfl
@[simp] theorem State.setCore_teams (s : State) (c : Nat) (k : Core) : (s.setCore c k).teams = s.teams := rfl
@[simp] theorem State.setCore_cores (s : State) (c : Nat) (k : Core) : (s.setCore c k).cores = s.cores.put c k := rfl
@[simp] theorem State.setCore_hanks (s : State) (c : Nat) (k : Core) : (s.setCore c k).hanks = s.hanks := rfl
@[simp] theorem State.setCore_mem (s : State) (c : Nat) (k : Core) : (s.setCore c k).mem = s.mem := rfl
@[simp] theorem State.setCore_accs (s : State) (c : Nat) (k : Core) : (s.setCore c k).accs = s.accs := rfl
@[simp] theorem State.setCore_sync (s : State) (c : Nat) (k : Core) : (s.setCore c k).sync = s.sync := rfl
@[simp] theorem State.setCore_cmds (s : State) (c : Nat) (k : Core) : (s.setCore c k).cmds = s.cmds := rfl
@[simp] theorem State.setCore_graphs (s : State) (c : Nat) (k : Core) : (s.setCore c k).graphs = s.graphs := rfl
@[simp] theorem State.setCore_casts (s : State) (c : Nat) (k : Core) : (s.setCore c k).casts = s.casts := rfl
@[simp] theorem State.setCore_runs (s : State) (c : Nat) (k : Core) : (s.setCore c k).runs = s.runs := rfl
@[simp] theorem State.setCore_pend (s : State) (c : Nat) (k : Core) : (s.setCore c k).pend = s.pend := rfl
@[simp] theorem State.setCore_front (s : State) (c : Nat) (k : Core) : (s.setCore c k).front = s.front := rfl
@[simp] theorem State.setCore_fabs (s : State) (c : Nat) (k : Core) : (s.setCore c k).fabs = s.fabs := rfl
@[simp] theorem State.setCore_dies (s : State) (c : Nat) (k : Core) : (s.setCore c k).dies = s.dies := rfl
@[simp] theorem State.setCore_dom (s : State) (c : Nat) (k : Core) : (s.setCore c k).dom = s.dom := rfl
@[simp] theorem State.setCore_errs (s : State) (c : Nat) (k : Core) : (s.setCore c k).errs = s.errs := rfl
@[simp] theorem State.setCore_plat (s : State) (c : Nat) (k : Core) : (s.setCore c k).plat = s.plat := rfl
@[simp] theorem State.modCore_sys (s : State) (c : Nat) (f : Core → Core) : (s.modCore c f).sys = s.sys := rfl
@[simp] theorem State.modCore_threads (s : State) (c : Nat) (f : Core → Core) : (s.modCore c f).threads = s.threads := rfl
@[simp] theorem State.modCore_skeins (s : State) (c : Nat) (f : Core → Core) : (s.modCore c f).skeins = s.skeins := rfl
@[simp] theorem State.modCore_teams (s : State) (c : Nat) (f : Core → Core) : (s.modCore c f).teams = s.teams := rfl
@[simp] theorem State.modCore_cores (s : State) (c : Nat) (f : Core → Core) : (s.modCore c f).cores = s.cores.put c (f (s.core c)) := rfl
@[simp] theorem State.modCore_hanks (s : State) (c : Nat) (f : Core → Core) : (s.modCore c f).hanks = s.hanks := rfl
@[simp] theorem State.modCore_mem (s : State) (c : Nat) (f : Core → Core) : (s.modCore c f).mem = s.mem := rfl
@[simp] theorem State.modCore_accs (s : State) (c : Nat) (f : Core → Core) : (s.modCore c f).accs = s.accs := rfl
@[simp] theorem State.modCore_sync (s : State) (c : Nat) (f : Core → Core) : (s.modCore c f).sync = s.sync := rfl
@[simp] theorem State.modCore_cmds (s : State) (c : Nat) (f : Core → Core) : (s.modCore c f).cmds = s.cmds := rfl
@[simp] theorem State.modCore_graphs (s : State) (c : Nat) (f : Core → Core) : (s.modCore c f).graphs = s.graphs := rfl
@[simp] theorem State.modCore_casts (s : State) (c : Nat) (f : Core → Core) : (s.modCore c f).casts = s.casts := rfl
@[simp] theorem State.modCore_runs (s : State) (c : Nat) (f : Core → Core) : (s.modCore c f).runs = s.runs := rfl
@[simp] theorem State.modCore_pend (s : State) (c : Nat) (f : Core → Core) : (s.modCore c f).pend = s.pend := rfl
@[simp] theorem State.modCore_front (s : State) (c : Nat) (f : Core → Core) : (s.modCore c f).front = s.front := rfl
@[simp] theorem State.modCore_fabs (s : State) (c : Nat) (f : Core → Core) : (s.modCore c f).fabs = s.fabs := rfl
@[simp] theorem State.modCore_dies (s : State) (c : Nat) (f : Core → Core) : (s.modCore c f).dies = s.dies := rfl
@[simp] theorem State.modCore_dom (s : State) (c : Nat) (f : Core → Core) : (s.modCore c f).dom = s.dom := rfl
@[simp] theorem State.modCore_errs (s : State) (c : Nat) (f : Core → Core) : (s.modCore c f).errs = s.errs := rfl
@[simp] theorem State.modCore_plat (s : State) (c : Nat) (f : Core → Core) : (s.modCore c f).plat = s.plat := rfl
@[simp] theorem State.setThread_sys (s : State) (w : Who) (t : Thread) : (s.setThread w t).sys = s.sys := rfl
@[simp] theorem State.setThread_threads (s : State) (w : Who) (t : Thread) : (s.setThread w t).threads = s.threads.put w t := rfl
@[simp] theorem State.setThread_skeins (s : State) (w : Who) (t : Thread) : (s.setThread w t).skeins = s.skeins := rfl
@[simp] theorem State.setThread_teams (s : State) (w : Who) (t : Thread) : (s.setThread w t).teams = s.teams := rfl
@[simp] theorem State.setThread_cores (s : State) (w : Who) (t : Thread) : (s.setThread w t).cores = s.cores := rfl
@[simp] theorem State.setThread_hanks (s : State) (w : Who) (t : Thread) : (s.setThread w t).hanks = s.hanks := rfl
@[simp] theorem State.setThread_mem (s : State) (w : Who) (t : Thread) : (s.setThread w t).mem = s.mem := rfl
@[simp] theorem State.setThread_accs (s : State) (w : Who) (t : Thread) : (s.setThread w t).accs = s.accs := rfl
@[simp] theorem State.setThread_sync (s : State) (w : Who) (t : Thread) : (s.setThread w t).sync = s.sync := rfl
@[simp] theorem State.setThread_cmds (s : State) (w : Who) (t : Thread) : (s.setThread w t).cmds = s.cmds := rfl
@[simp] theorem State.setThread_graphs (s : State) (w : Who) (t : Thread) : (s.setThread w t).graphs = s.graphs := rfl
@[simp] theorem State.setThread_casts (s : State) (w : Who) (t : Thread) : (s.setThread w t).casts = s.casts := rfl
@[simp] theorem State.setThread_runs (s : State) (w : Who) (t : Thread) : (s.setThread w t).runs = s.runs := rfl
@[simp] theorem State.setThread_pend (s : State) (w : Who) (t : Thread) : (s.setThread w t).pend = s.pend := rfl
@[simp] theorem State.setThread_front (s : State) (w : Who) (t : Thread) : (s.setThread w t).front = s.front := rfl
@[simp] theorem State.setThread_fabs (s : State) (w : Who) (t : Thread) : (s.setThread w t).fabs = s.fabs := rfl
@[simp] theorem State.setThread_dies (s : State) (w : Who) (t : Thread) : (s.setThread w t).dies = s.dies := rfl
@[simp] theorem State.setThread_dom (s : State) (w : Who) (t : Thread) : (s.setThread w t).dom = s.dom := rfl
@[simp] theorem State.setThread_errs (s : State) (w : Who) (t : Thread) : (s.setThread w t).errs = s.errs := rfl
@[simp] theorem State.setThread_plat (s : State) (w : Who) (t : Thread) : (s.setThread w t).plat = s.plat := rfl
@[simp] theorem State.modThread_sys (s : State) (w : Who) (f : Thread → Thread) : (s.modThread w f).sys = s.sys := rfl
@[simp] theorem State.modThread_threads (s : State) (w : Who) (f : Thread → Thread) : (s.modThread w f).threads = s.threads.upd w f := rfl
@[simp] theorem State.modThread_skeins (s : State) (w : Who) (f : Thread → Thread) : (s.modThread w f).skeins = s.skeins := rfl
@[simp] theorem State.modThread_teams (s : State) (w : Who) (f : Thread → Thread) : (s.modThread w f).teams = s.teams := rfl
@[simp] theorem State.modThread_cores (s : State) (w : Who) (f : Thread → Thread) : (s.modThread w f).cores = s.cores := rfl
@[simp] theorem State.modThread_hanks (s : State) (w : Who) (f : Thread → Thread) : (s.modThread w f).hanks = s.hanks := rfl
@[simp] theorem State.modThread_mem (s : State) (w : Who) (f : Thread → Thread) : (s.modThread w f).mem = s.mem := rfl
@[simp] theorem State.modThread_accs (s : State) (w : Who) (f : Thread → Thread) : (s.modThread w f).accs = s.accs := rfl
@[simp] theorem State.modThread_sync (s : State) (w : Who) (f : Thread → Thread) : (s.modThread w f).sync = s.sync := rfl
@[simp] theorem State.modThread_cmds (s : State) (w : Who) (f : Thread → Thread) : (s.modThread w f).cmds = s.cmds := rfl
@[simp] theorem State.modThread_graphs (s : State) (w : Who) (f : Thread → Thread) : (s.modThread w f).graphs = s.graphs := rfl
@[simp] theorem State.modThread_casts (s : State) (w : Who) (f : Thread → Thread) : (s.modThread w f).casts = s.casts := rfl
@[simp] theorem State.modThread_runs (s : State) (w : Who) (f : Thread → Thread) : (s.modThread w f).runs = s.runs := rfl
@[simp] theorem State.modThread_pend (s : State) (w : Who) (f : Thread → Thread) : (s.modThread w f).pend = s.pend := rfl
@[simp] theorem State.modThread_front (s : State) (w : Who) (f : Thread → Thread) : (s.modThread w f).front = s.front := rfl
@[simp] theorem State.modThread_fabs (s : State) (w : Who) (f : Thread → Thread) : (s.modThread w f).fabs = s.fabs := rfl
@[simp] theorem State.modThread_dies (s : State) (w : Who) (f : Thread → Thread) : (s.modThread w f).dies = s.dies := rfl
@[simp] theorem State.modThread_dom (s : State) (w : Who) (f : Thread → Thread) : (s.modThread w f).dom = s.dom := rfl
@[simp] theorem State.modThread_errs (s : State) (w : Who) (f : Thread → Thread) : (s.modThread w f).errs = s.errs := rfl
@[simp] theorem State.modThread_plat (s : State) (w : Who) (f : Thread → Thread) : (s.modThread w f).plat = s.plat := rfl
@[simp] theorem State.dropThread_sys (s : State) (w : Who) : (s.dropThread w).sys = s.sys := rfl
@[simp] theorem State.dropThread_threads (s : State) (w : Who) : (s.dropThread w).threads = s.threads.del w := rfl
@[simp] theorem State.dropThread_skeins (s : State) (w : Who) : (s.dropThread w).skeins = s.skeins := rfl
@[simp] theorem State.dropThread_teams (s : State) (w : Who) : (s.dropThread w).teams = s.teams := rfl
@[simp] theorem State.dropThread_cores (s : State) (w : Who) : (s.dropThread w).cores = s.cores := rfl
@[simp] theorem State.dropThread_hanks (s : State) (w : Who) : (s.dropThread w).hanks = s.hanks := rfl
@[simp] theorem State.dropThread_mem (s : State) (w : Who) : (s.dropThread w).mem = s.mem := rfl
@[simp] theorem State.dropThread_accs (s : State) (w : Who) : (s.dropThread w).accs = s.accs := rfl
@[simp] theorem State.dropThread_sync (s : State) (w : Who) : (s.dropThread w).sync = s.sync := rfl
@[simp] theorem State.dropThread_cmds (s : State) (w : Who) : (s.dropThread w).cmds = s.cmds := rfl
@[simp] theorem State.dropThread_graphs (s : State) (w : Who) : (s.dropThread w).graphs = s.graphs := rfl
@[simp] theorem State.dropThread_casts (s : State) (w : Who) : (s.dropThread w).casts = s.casts := rfl
@[simp] theorem State.dropThread_runs (s : State) (w : Who) : (s.dropThread w).runs = s.runs := rfl
@[simp] theorem State.dropThread_pend (s : State) (w : Who) : (s.dropThread w).pend = s.pend := rfl
@[simp] theorem State.dropThread_front (s : State) (w : Who) : (s.dropThread w).front = s.front := rfl
@[simp] theorem State.dropThread_fabs (s : State) (w : Who) : (s.dropThread w).fabs = s.fabs := rfl
@[simp] theorem State.dropThread_dies (s : State) (w : Who) : (s.dropThread w).dies = s.dies := rfl
@[simp] theorem State.dropThread_dom (s : State) (w : Who) : (s.dropThread w).dom = s.dom := rfl
@[simp] theorem State.dropThread_errs (s : State) (w : Who) : (s.dropThread w).errs = s.errs := rfl
@[simp] theorem State.dropThread_plat (s : State) (w : Who) : (s.dropThread w).plat = s.plat := rfl
@[simp] theorem State.modTeam_sys (s : State) (t : TeamId) (f : Team → Team) : (s.modTeam t f).sys = s.sys := rfl
@[simp] theorem State.modTeam_threads (s : State) (t : TeamId) (f : Team → Team) : (s.modTeam t f).threads = s.threads := rfl
@[simp] theorem State.modTeam_skeins (s : State) (t : TeamId) (f : Team → Team) : (s.modTeam t f).skeins = s.skeins := rfl
@[simp] theorem State.modTeam_teams (s : State) (t : TeamId) (f : Team → Team) : (s.modTeam t f).teams = s.teams.upd t f := rfl
@[simp] theorem State.modTeam_cores (s : State) (t : TeamId) (f : Team → Team) : (s.modTeam t f).cores = s.cores := rfl
@[simp] theorem State.modTeam_hanks (s : State) (t : TeamId) (f : Team → Team) : (s.modTeam t f).hanks = s.hanks := rfl
@[simp] theorem State.modTeam_mem (s : State) (t : TeamId) (f : Team → Team) : (s.modTeam t f).mem = s.mem := rfl
@[simp] theorem State.modTeam_accs (s : State) (t : TeamId) (f : Team → Team) : (s.modTeam t f).accs = s.accs := rfl
@[simp] theorem State.modTeam_sync (s : State) (t : TeamId) (f : Team → Team) : (s.modTeam t f).sync = s.sync := rfl
@[simp] theorem State.modTeam_cmds (s : State) (t : TeamId) (f : Team → Team) : (s.modTeam t f).cmds = s.cmds := rfl
@[simp] theorem State.modTeam_graphs (s : State) (t : TeamId) (f : Team → Team) : (s.modTeam t f).graphs = s.graphs := rfl
@[simp] theorem State.modTeam_casts (s : State) (t : TeamId) (f : Team → Team) : (s.modTeam t f).casts = s.casts := rfl
@[simp] theorem State.modTeam_runs (s : State) (t : TeamId) (f : Team → Team) : (s.modTeam t f).runs = s.runs := rfl
@[simp] theorem State.modTeam_pend (s : State) (t : TeamId) (f : Team → Team) : (s.modTeam t f).pend = s.pend := rfl
@[simp] theorem State.modTeam_front (s : State) (t : TeamId) (f : Team → Team) : (s.modTeam t f).front = s.front := rfl
@[simp] theorem State.modTeam_fabs (s : State) (t : TeamId) (f : Team → Team) : (s.modTeam t f).fabs = s.fabs := rfl
@[simp] theorem State.modTeam_dies (s : State) (t : TeamId) (f : Team → Team) : (s.modTeam t f).dies = s.dies := rfl
@[simp] theorem State.modTeam_dom (s : State) (t : TeamId) (f : Team → Team) : (s.modTeam t f).dom = s.dom := rfl
@[simp] theorem State.modTeam_errs (s : State) (t : TeamId) (f : Team → Team) : (s.modTeam t f).errs = s.errs := rfl
@[simp] theorem State.modTeam_plat (s : State) (t : TeamId) (f : Team → Team) : (s.modTeam t f).plat = s.plat := rfl
@[simp] theorem State.setTeam_sys (s : State) (t : TeamId) (v : Team) : (s.setTeam t v).sys = s.sys := rfl
@[simp] theorem State.setTeam_threads (s : State) (t : TeamId) (v : Team) : (s.setTeam t v).threads = s.threads := rfl
@[simp] theorem State.setTeam_skeins (s : State) (t : TeamId) (v : Team) : (s.setTeam t v).skeins = s.skeins := rfl
@[simp] theorem State.setTeam_teams (s : State) (t : TeamId) (v : Team) : (s.setTeam t v).teams = s.teams.put t v := rfl
@[simp] theorem State.setTeam_cores (s : State) (t : TeamId) (v : Team) : (s.setTeam t v).cores = s.cores := rfl
@[simp] theorem State.setTeam_hanks (s : State) (t : TeamId) (v : Team) : (s.setTeam t v).hanks = s.hanks := rfl
@[simp] theorem State.setTeam_mem (s : State) (t : TeamId) (v : Team) : (s.setTeam t v).mem = s.mem := rfl
@[simp] theorem State.setTeam_accs (s : State) (t : TeamId) (v : Team) : (s.setTeam t v).accs = s.accs := rfl
@[simp] theorem State.setTeam_sync (s : State) (t : TeamId) (v : Team) : (s.setTeam t v).sync = s.sync := rfl
@[simp] theorem State.setTeam_cmds (s : State) (t : TeamId) (v : Team) : (s.setTeam t v).cmds = s.cmds := rfl
@[simp] theorem State.setTeam_graphs (s : State) (t : TeamId) (v : Team) : (s.setTeam t v).graphs = s.graphs := rfl
@[simp] theorem State.setTeam_casts (s : State) (t : TeamId) (v : Team) : (s.setTeam t v).casts = s.casts := rfl
@[simp] theorem State.setTeam_runs (s : State) (t : TeamId) (v : Team) : (s.setTeam t v).runs = s.runs := rfl
@[simp] theorem State.setTeam_pend (s : State) (t : TeamId) (v : Team) : (s.setTeam t v).pend = s.pend := rfl
@[simp] theorem State.setTeam_front (s : State) (t : TeamId) (v : Team) : (s.setTeam t v).front = s.front := rfl
@[simp] theorem State.setTeam_fabs (s : State) (t : TeamId) (v : Team) : (s.setTeam t v).fabs = s.fabs := rfl
@[simp] theorem State.setTeam_dies (s : State) (t : TeamId) (v : Team) : (s.setTeam t v).dies = s.dies := rfl
@[simp] theorem State.setTeam_dom (s : State) (t : TeamId) (v : Team) : (s.setTeam t v).dom = s.dom := rfl
@[simp] theorem State.setTeam_errs (s : State) (t : TeamId) (v : Team) : (s.setTeam t v).errs = s.errs := rfl
@[simp] theorem State.setTeam_plat (s : State) (t : TeamId) (v : Team) : (s.setTeam t v).plat = s.plat := rfl
@[simp] theorem State.modSkein_sys (s : State) (c x : Nat) (f : Skein → Skein) : (s.modSkein c x f).sys = s.sys := rfl
@[simp] theorem State.modSkein_threads (s : State) (c x : Nat) (f : Skein → Skein) : (s.modSkein c x f).threads = s.threads := rfl
@[simp] theorem State.modSkein_skeins (s : State) (c x : Nat) (f : Skein → Skein) : (s.modSkein c x f).skeins = s.skeins.upd (c, x) f := rfl
@[simp] theorem State.modSkein_teams (s : State) (c x : Nat) (f : Skein → Skein) : (s.modSkein c x f).teams = s.teams := rfl
@[simp] theorem State.modSkein_cores (s : State) (c x : Nat) (f : Skein → Skein) : (s.modSkein c x f).cores = s.cores := rfl
@[simp] theorem State.modSkein_hanks (s : State) (c x : Nat) (f : Skein → Skein) : (s.modSkein c x f).hanks = s.hanks := rfl
@[simp] theorem State.modSkein_mem (s : State) (c x : Nat) (f : Skein → Skein) : (s.modSkein c x f).mem = s.mem := rfl
@[simp] theorem State.modSkein_accs (s : State) (c x : Nat) (f : Skein → Skein) : (s.modSkein c x f).accs = s.accs := rfl
@[simp] theorem State.modSkein_sync (s : State) (c x : Nat) (f : Skein → Skein) : (s.modSkein c x f).sync = s.sync := rfl
@[simp] theorem State.modSkein_cmds (s : State) (c x : Nat) (f : Skein → Skein) : (s.modSkein c x f).cmds = s.cmds := rfl
@[simp] theorem State.modSkein_graphs (s : State) (c x : Nat) (f : Skein → Skein) : (s.modSkein c x f).graphs = s.graphs := rfl
@[simp] theorem State.modSkein_casts (s : State) (c x : Nat) (f : Skein → Skein) : (s.modSkein c x f).casts = s.casts := rfl
@[simp] theorem State.modSkein_runs (s : State) (c x : Nat) (f : Skein → Skein) : (s.modSkein c x f).runs = s.runs := rfl
@[simp] theorem State.modSkein_pend (s : State) (c x : Nat) (f : Skein → Skein) : (s.modSkein c x f).pend = s.pend := rfl
@[simp] theorem State.modSkein_front (s : State) (c x : Nat) (f : Skein → Skein) : (s.modSkein c x f).front = s.front := rfl
@[simp] theorem State.modSkein_fabs (s : State) (c x : Nat) (f : Skein → Skein) : (s.modSkein c x f).fabs = s.fabs := rfl
@[simp] theorem State.modSkein_dies (s : State) (c x : Nat) (f : Skein → Skein) : (s.modSkein c x f).dies = s.dies := rfl
@[simp] theorem State.modSkein_dom (s : State) (c x : Nat) (f : Skein → Skein) : (s.modSkein c x f).dom = s.dom := rfl
@[simp] theorem State.modSkein_errs (s : State) (c x : Nat) (f : Skein → Skein) : (s.modSkein c x f).errs = s.errs := rfl
@[simp] theorem State.modSkein_plat (s : State) (c x : Nat) (f : Skein → Skein) : (s.modSkein c x f).plat = s.plat := rfl
@[simp] theorem State.setSys_sys (s : State) (y : Sys) : (s.setSys y).sys = y := rfl
@[simp] theorem State.setSys_threads (s : State) (y : Sys) : (s.setSys y).threads = s.threads := rfl
@[simp] theorem State.setSys_skeins (s : State) (y : Sys) : (s.setSys y).skeins = s.skeins := rfl
@[simp] theorem State.setSys_teams (s : State) (y : Sys) : (s.setSys y).teams = s.teams := rfl
@[simp] theorem State.setSys_cores (s : State) (y : Sys) : (s.setSys y).cores = s.cores := rfl
@[simp] theorem State.setSys_hanks (s : State) (y : Sys) : (s.setSys y).hanks = s.hanks := rfl
@[simp] theorem State.setSys_mem (s : State) (y : Sys) : (s.setSys y).mem = s.mem := rfl
@[simp] theorem State.setSys_accs (s : State) (y : Sys) : (s.setSys y).accs = s.accs := rfl
@[simp] theorem State.setSys_sync (s : State) (y : Sys) : (s.setSys y).sync = s.sync := rfl
@[simp] theorem State.setSys_cmds (s : State) (y : Sys) : (s.setSys y).cmds = s.cmds := rfl
@[simp] theorem State.setSys_graphs (s : State) (y : Sys) : (s.setSys y).graphs = s.graphs := rfl
@[simp] theorem State.setSys_casts (s : State) (y : Sys) : (s.setSys y).casts = s.casts := rfl
@[simp] theorem State.setSys_runs (s : State) (y : Sys) : (s.setSys y).runs = s.runs := rfl
@[simp] theorem State.setSys_pend (s : State) (y : Sys) : (s.setSys y).pend = s.pend := rfl
@[simp] theorem State.setSys_front (s : State) (y : Sys) : (s.setSys y).front = s.front := rfl
@[simp] theorem State.setSys_fabs (s : State) (y : Sys) : (s.setSys y).fabs = s.fabs := rfl
@[simp] theorem State.setSys_dies (s : State) (y : Sys) : (s.setSys y).dies = s.dies := rfl
@[simp] theorem State.setSys_dom (s : State) (y : Sys) : (s.setSys y).dom = s.dom := rfl
@[simp] theorem State.setSys_errs (s : State) (y : Sys) : (s.setSys y).errs = s.errs := rfl
@[simp] theorem State.setSys_plat (s : State) (y : Sys) : (s.setSys y).plat = s.plat := rfl
@[simp] theorem State.setErrs_sys (s : State) (e : Errs) : (s.setErrs e).sys = s.sys := rfl
@[simp] theorem State.setErrs_threads (s : State) (e : Errs) : (s.setErrs e).threads = s.threads := rfl
@[simp] theorem State.setErrs_skeins (s : State) (e : Errs) : (s.setErrs e).skeins = s.skeins := rfl
@[simp] theorem State.setErrs_teams (s : State) (e : Errs) : (s.setErrs e).teams = s.teams := rfl
@[simp] theorem State.setErrs_cores (s : State) (e : Errs) : (s.setErrs e).cores = s.cores := rfl
@[simp] theorem State.setErrs_hanks (s : State) (e : Errs) : (s.setErrs e).hanks = s.hanks := rfl
@[simp] theorem State.setErrs_mem (s : State) (e : Errs) : (s.setErrs e).mem = s.mem := rfl
@[simp] theorem State.setErrs_accs (s : State) (e : Errs) : (s.setErrs e).accs = s.accs := rfl
@[simp] theorem State.setErrs_sync (s : State) (e : Errs) : (s.setErrs e).sync = s.sync := rfl
@[simp] theorem State.setErrs_cmds (s : State) (e : Errs) : (s.setErrs e).cmds = s.cmds := rfl
@[simp] theorem State.setErrs_graphs (s : State) (e : Errs) : (s.setErrs e).graphs = s.graphs := rfl
@[simp] theorem State.setErrs_casts (s : State) (e : Errs) : (s.setErrs e).casts = s.casts := rfl
@[simp] theorem State.setErrs_runs (s : State) (e : Errs) : (s.setErrs e).runs = s.runs := rfl
@[simp] theorem State.setErrs_pend (s : State) (e : Errs) : (s.setErrs e).pend = s.pend := rfl
@[simp] theorem State.setErrs_front (s : State) (e : Errs) : (s.setErrs e).front = s.front := rfl
@[simp] theorem State.setErrs_fabs (s : State) (e : Errs) : (s.setErrs e).fabs = s.fabs := rfl
@[simp] theorem State.setErrs_dies (s : State) (e : Errs) : (s.setErrs e).dies = s.dies := rfl
@[simp] theorem State.setErrs_dom (s : State) (e : Errs) : (s.setErrs e).dom = s.dom := rfl
@[simp] theorem State.setErrs_errs (s : State) (e : Errs) : (s.setErrs e).errs = e := rfl
@[simp] theorem State.setErrs_plat (s : State) (e : Errs) : (s.setErrs e).plat = s.plat := rfl
@[simp] theorem State.setPlat_sys (s : State) (p : Plat) : (s.setPlat p).sys = s.sys := rfl
@[simp] theorem State.setPlat_threads (s : State) (p : Plat) : (s.setPlat p).threads = s.threads := rfl
@[simp] theorem State.setPlat_skeins (s : State) (p : Plat) : (s.setPlat p).skeins = s.skeins := rfl
@[simp] theorem State.setPlat_teams (s : State) (p : Plat) : (s.setPlat p).teams = s.teams := rfl
@[simp] theorem State.setPlat_cores (s : State) (p : Plat) : (s.setPlat p).cores = s.cores := rfl
@[simp] theorem State.setPlat_hanks (s : State) (p : Plat) : (s.setPlat p).hanks = s.hanks := rfl
@[simp] theorem State.setPlat_mem (s : State) (p : Plat) : (s.setPlat p).mem = s.mem := rfl
@[simp] theorem State.setPlat_accs (s : State) (p : Plat) : (s.setPlat p).accs = s.accs := rfl
@[simp] theorem State.setPlat_sync (s : State) (p : Plat) : (s.setPlat p).sync = s.sync := rfl
@[simp] theorem State.setPlat_cmds (s : State) (p : Plat) : (s.setPlat p).cmds = s.cmds := rfl
@[simp] theorem State.setPlat_graphs (s : State) (p : Plat) : (s.setPlat p).graphs = s.graphs := rfl
@[simp] theorem State.setPlat_casts (s : State) (p : Plat) : (s.setPlat p).casts = s.casts := rfl
@[simp] theorem State.setPlat_runs (s : State) (p : Plat) : (s.setPlat p).runs = s.runs := rfl
@[simp] theorem State.setPlat_pend (s : State) (p : Plat) : (s.setPlat p).pend = s.pend := rfl
@[simp] theorem State.setPlat_front (s : State) (p : Plat) : (s.setPlat p).front = s.front := rfl
@[simp] theorem State.setPlat_fabs (s : State) (p : Plat) : (s.setPlat p).fabs = s.fabs := rfl
@[simp] theorem State.setPlat_dies (s : State) (p : Plat) : (s.setPlat p).dies = s.dies := rfl
@[simp] theorem State.setPlat_dom (s : State) (p : Plat) : (s.setPlat p).dom = s.dom := rfl
@[simp] theorem State.setPlat_errs (s : State) (p : Plat) : (s.setPlat p).errs = s.errs := rfl
@[simp] theorem State.setPlat_plat (s : State) (p : Plat) : (s.setPlat p).plat = p := rfl
@[simp] theorem State.setFront_sys (s : State) (x : Front) : (s.setFront x).sys = s.sys := rfl
@[simp] theorem State.setFront_threads (s : State) (x : Front) : (s.setFront x).threads = s.threads := rfl
@[simp] theorem State.setFront_skeins (s : State) (x : Front) : (s.setFront x).skeins = s.skeins := rfl
@[simp] theorem State.setFront_teams (s : State) (x : Front) : (s.setFront x).teams = s.teams := rfl
@[simp] theorem State.setFront_cores (s : State) (x : Front) : (s.setFront x).cores = s.cores := rfl
@[simp] theorem State.setFront_hanks (s : State) (x : Front) : (s.setFront x).hanks = s.hanks := rfl
@[simp] theorem State.setFront_mem (s : State) (x : Front) : (s.setFront x).mem = s.mem := rfl
@[simp] theorem State.setFront_accs (s : State) (x : Front) : (s.setFront x).accs = s.accs := rfl
@[simp] theorem State.setFront_sync (s : State) (x : Front) : (s.setFront x).sync = s.sync := rfl
@[simp] theorem State.setFront_cmds (s : State) (x : Front) : (s.setFront x).cmds = s.cmds := rfl
@[simp] theorem State.setFront_graphs (s : State) (x : Front) : (s.setFront x).graphs = s.graphs := rfl
@[simp] theorem State.setFront_casts (s : State) (x : Front) : (s.setFront x).casts = s.casts := rfl
@[simp] theorem State.setFront_runs (s : State) (x : Front) : (s.setFront x).runs = s.runs := rfl
@[simp] theorem State.setFront_pend (s : State) (x : Front) : (s.setFront x).pend = s.pend := rfl
@[simp] theorem State.setFront_front (s : State) (x : Front) : (s.setFront x).front = x := rfl
@[simp] theorem State.setFront_fabs (s : State) (x : Front) : (s.setFront x).fabs = s.fabs := rfl
@[simp] theorem State.setFront_dies (s : State) (x : Front) : (s.setFront x).dies = s.dies := rfl
@[simp] theorem State.setFront_dom (s : State) (x : Front) : (s.setFront x).dom = s.dom := rfl
@[simp] theorem State.setFront_errs (s : State) (x : Front) : (s.setFront x).errs = s.errs := rfl
@[simp] theorem State.setFront_plat (s : State) (x : Front) : (s.setFront x).plat = s.plat := rfl
@[simp] theorem State.setDom_sys (s : State) (d : Domain) : (s.setDom d).sys = s.sys := rfl
@[simp] theorem State.setDom_threads (s : State) (d : Domain) : (s.setDom d).threads = s.threads := rfl
@[simp] theorem State.setDom_skeins (s : State) (d : Domain) : (s.setDom d).skeins = s.skeins := rfl
@[simp] theorem State.setDom_teams (s : State) (d : Domain) : (s.setDom d).teams = s.teams := rfl
@[simp] theorem State.setDom_cores (s : State) (d : Domain) : (s.setDom d).cores = s.cores := rfl
@[simp] theorem State.setDom_hanks (s : State) (d : Domain) : (s.setDom d).hanks = s.hanks := rfl
@[simp] theorem State.setDom_mem (s : State) (d : Domain) : (s.setDom d).mem = s.mem := rfl
@[simp] theorem State.setDom_accs (s : State) (d : Domain) : (s.setDom d).accs = s.accs := rfl
@[simp] theorem State.setDom_sync (s : State) (d : Domain) : (s.setDom d).sync = s.sync := rfl
@[simp] theorem State.setDom_cmds (s : State) (d : Domain) : (s.setDom d).cmds = s.cmds := rfl
@[simp] theorem State.setDom_graphs (s : State) (d : Domain) : (s.setDom d).graphs = s.graphs := rfl
@[simp] theorem State.setDom_casts (s : State) (d : Domain) : (s.setDom d).casts = s.casts := rfl
@[simp] theorem State.setDom_runs (s : State) (d : Domain) : (s.setDom d).runs = s.runs := rfl
@[simp] theorem State.setDom_pend (s : State) (d : Domain) : (s.setDom d).pend = s.pend := rfl
@[simp] theorem State.setDom_front (s : State) (d : Domain) : (s.setDom d).front = s.front := rfl
@[simp] theorem State.setDom_fabs (s : State) (d : Domain) : (s.setDom d).fabs = s.fabs := rfl
@[simp] theorem State.setDom_dies (s : State) (d : Domain) : (s.setDom d).dies = s.dies := rfl
@[simp] theorem State.setDom_dom (s : State) (d : Domain) : (s.setDom d).dom = d := rfl
@[simp] theorem State.setDom_errs (s : State) (d : Domain) : (s.setDom d).errs = s.errs := rfl
@[simp] theorem State.setDom_plat (s : State) (d : Domain) : (s.setDom d).plat = s.plat := rfl
@[simp] theorem State.setSync_sys (s : State) (y : Sync) : (s.setSync y).sys = s.sys := rfl
@[simp] theorem State.setSync_threads (s : State) (y : Sync) : (s.setSync y).threads = s.threads := rfl
@[simp] theorem State.setSync_skeins (s : State) (y : Sync) : (s.setSync y).skeins = s.skeins := rfl
@[simp] theorem State.setSync_teams (s : State) (y : Sync) : (s.setSync y).teams = s.teams := rfl
@[simp] theorem State.setSync_cores (s : State) (y : Sync) : (s.setSync y).cores = s.cores := rfl
@[simp] theorem State.setSync_hanks (s : State) (y : Sync) : (s.setSync y).hanks = s.hanks := rfl
@[simp] theorem State.setSync_mem (s : State) (y : Sync) : (s.setSync y).mem = s.mem := rfl
@[simp] theorem State.setSync_accs (s : State) (y : Sync) : (s.setSync y).accs = s.accs := rfl
@[simp] theorem State.setSync_sync (s : State) (y : Sync) : (s.setSync y).sync = y := rfl
@[simp] theorem State.setSync_cmds (s : State) (y : Sync) : (s.setSync y).cmds = s.cmds := rfl
@[simp] theorem State.setSync_graphs (s : State) (y : Sync) : (s.setSync y).graphs = s.graphs := rfl
@[simp] theorem State.setSync_casts (s : State) (y : Sync) : (s.setSync y).casts = s.casts := rfl
@[simp] theorem State.setSync_runs (s : State) (y : Sync) : (s.setSync y).runs = s.runs := rfl
@[simp] theorem State.setSync_pend (s : State) (y : Sync) : (s.setSync y).pend = s.pend := rfl
@[simp] theorem State.setSync_front (s : State) (y : Sync) : (s.setSync y).front = s.front := rfl
@[simp] theorem State.setSync_fabs (s : State) (y : Sync) : (s.setSync y).fabs = s.fabs := rfl
@[simp] theorem State.setSync_dies (s : State) (y : Sync) : (s.setSync y).dies = s.dies := rfl
@[simp] theorem State.setSync_dom (s : State) (y : Sync) : (s.setSync y).dom = s.dom := rfl
@[simp] theorem State.setSync_errs (s : State) (y : Sync) : (s.setSync y).errs = s.errs := rfl
@[simp] theorem State.setSync_plat (s : State) (y : Sync) : (s.setSync y).plat = s.plat := rfl
@[simp] theorem State.setMem_sys (s : State) (m : Mem) : (s.setMem m).sys = s.sys := rfl
@[simp] theorem State.setMem_threads (s : State) (m : Mem) : (s.setMem m).threads = s.threads := rfl
@[simp] theorem State.setMem_skeins (s : State) (m : Mem) : (s.setMem m).skeins = s.skeins := rfl
@[simp] theorem State.setMem_teams (s : State) (m : Mem) : (s.setMem m).teams = s.teams := rfl
@[simp] theorem State.setMem_cores (s : State) (m : Mem) : (s.setMem m).cores = s.cores := rfl
@[simp] theorem State.setMem_hanks (s : State) (m : Mem) : (s.setMem m).hanks = s.hanks := rfl
@[simp] theorem State.setMem_mem (s : State) (m : Mem) : (s.setMem m).mem = m := rfl
@[simp] theorem State.setMem_accs (s : State) (m : Mem) : (s.setMem m).accs = s.accs := rfl
@[simp] theorem State.setMem_sync (s : State) (m : Mem) : (s.setMem m).sync = s.sync := rfl
@[simp] theorem State.setMem_cmds (s : State) (m : Mem) : (s.setMem m).cmds = s.cmds := rfl
@[simp] theorem State.setMem_graphs (s : State) (m : Mem) : (s.setMem m).graphs = s.graphs := rfl
@[simp] theorem State.setMem_casts (s : State) (m : Mem) : (s.setMem m).casts = s.casts := rfl
@[simp] theorem State.setMem_runs (s : State) (m : Mem) : (s.setMem m).runs = s.runs := rfl
@[simp] theorem State.setMem_pend (s : State) (m : Mem) : (s.setMem m).pend = s.pend := rfl
@[simp] theorem State.setMem_front (s : State) (m : Mem) : (s.setMem m).front = s.front := rfl
@[simp] theorem State.setMem_fabs (s : State) (m : Mem) : (s.setMem m).fabs = s.fabs := rfl
@[simp] theorem State.setMem_dies (s : State) (m : Mem) : (s.setMem m).dies = s.dies := rfl
@[simp] theorem State.setMem_dom (s : State) (m : Mem) : (s.setMem m).dom = s.dom := rfl
@[simp] theorem State.setMem_errs (s : State) (m : Mem) : (s.setMem m).errs = s.errs := rfl
@[simp] theorem State.setMem_plat (s : State) (m : Mem) : (s.setMem m).plat = s.plat := rfl
@[simp] theorem State.modGrid_sys (s : State) (g : Nat) (f : Grid → Grid) : (s.modGrid g f).sys = s.sys := rfl
@[simp] theorem State.modGrid_threads (s : State) (g : Nat) (f : Grid → Grid) : (s.modGrid g f).threads = s.threads := rfl
@[simp] theorem State.modGrid_skeins (s : State) (g : Nat) (f : Grid → Grid) : (s.modGrid g f).skeins = s.skeins := rfl
@[simp] theorem State.modGrid_teams (s : State) (g : Nat) (f : Grid → Grid) : (s.modGrid g f).teams = s.teams := rfl
@[simp] theorem State.modGrid_cores (s : State) (g : Nat) (f : Grid → Grid) : (s.modGrid g f).cores = s.cores := rfl
@[simp] theorem State.modGrid_hanks (s : State) (g : Nat) (f : Grid → Grid) : (s.modGrid g f).hanks = s.hanks := rfl
@[simp] theorem State.modGrid_mem (s : State) (g : Nat) (f : Grid → Grid) : (s.modGrid g f).mem = s.mem := rfl
@[simp] theorem State.modGrid_accs (s : State) (g : Nat) (f : Grid → Grid) : (s.modGrid g f).accs = s.accs := rfl
@[simp] theorem State.modGrid_sync (s : State) (g : Nat) (f : Grid → Grid) : (s.modGrid g f).sync = s.sync := rfl
@[simp] theorem State.modGrid_cmds (s : State) (g : Nat) (f : Grid → Grid) : (s.modGrid g f).cmds = s.cmds := rfl
@[simp] theorem State.modGrid_graphs (s : State) (g : Nat) (f : Grid → Grid) : (s.modGrid g f).graphs = s.graphs := rfl
@[simp] theorem State.modGrid_casts (s : State) (g : Nat) (f : Grid → Grid) : (s.modGrid g f).casts = s.casts := rfl
@[simp] theorem State.modGrid_runs (s : State) (g : Nat) (f : Grid → Grid) : (s.modGrid g f).runs = s.runs := rfl
@[simp] theorem State.modGrid_pend (s : State) (g : Nat) (f : Grid → Grid) : (s.modGrid g f).pend = s.pend := rfl
@[simp] theorem State.modGrid_front (s : State) (g : Nat) (f : Grid → Grid) : (s.modGrid g f).front = { s.front with grids := s.front.grids.upd g f } := rfl
@[simp] theorem State.modGrid_fabs (s : State) (g : Nat) (f : Grid → Grid) : (s.modGrid g f).fabs = s.fabs := rfl
@[simp] theorem State.modGrid_dies (s : State) (g : Nat) (f : Grid → Grid) : (s.modGrid g f).dies = s.dies := rfl
@[simp] theorem State.modGrid_dom (s : State) (g : Nat) (f : Grid → Grid) : (s.modGrid g f).dom = s.dom := rfl
@[simp] theorem State.modGrid_errs (s : State) (g : Nat) (f : Grid → Grid) : (s.modGrid g f).errs = s.errs := rfl
@[simp] theorem State.modGrid_plat (s : State) (g : Nat) (f : Grid → Grid) : (s.modGrid g f).plat = s.plat := rfl
@[simp] theorem State.modDie_sys (s : State) (k : Nat) (f : SearchDie → SearchDie) : (s.modDie k f).sys = s.sys := rfl
@[simp] theorem State.modDie_threads (s : State) (k : Nat) (f : SearchDie → SearchDie) : (s.modDie k f).threads = s.threads := rfl
@[simp] theorem State.modDie_skeins (s : State) (k : Nat) (f : SearchDie → SearchDie) : (s.modDie k f).skeins = s.skeins := rfl
@[simp] theorem State.modDie_teams (s : State) (k : Nat) (f : SearchDie → SearchDie) : (s.modDie k f).teams = s.teams := rfl
@[simp] theorem State.modDie_cores (s : State) (k : Nat) (f : SearchDie → SearchDie) : (s.modDie k f).cores = s.cores := rfl
@[simp] theorem State.modDie_hanks (s : State) (k : Nat) (f : SearchDie → SearchDie) : (s.modDie k f).hanks = s.hanks := rfl
@[simp] theorem State.modDie_mem (s : State) (k : Nat) (f : SearchDie → SearchDie) : (s.modDie k f).mem = s.mem := rfl
@[simp] theorem State.modDie_accs (s : State) (k : Nat) (f : SearchDie → SearchDie) : (s.modDie k f).accs = s.accs := rfl
@[simp] theorem State.modDie_sync (s : State) (k : Nat) (f : SearchDie → SearchDie) : (s.modDie k f).sync = s.sync := rfl
@[simp] theorem State.modDie_cmds (s : State) (k : Nat) (f : SearchDie → SearchDie) : (s.modDie k f).cmds = s.cmds := rfl
@[simp] theorem State.modDie_graphs (s : State) (k : Nat) (f : SearchDie → SearchDie) : (s.modDie k f).graphs = s.graphs := rfl
@[simp] theorem State.modDie_casts (s : State) (k : Nat) (f : SearchDie → SearchDie) : (s.modDie k f).casts = s.casts := rfl
@[simp] theorem State.modDie_runs (s : State) (k : Nat) (f : SearchDie → SearchDie) : (s.modDie k f).runs = s.runs := rfl
@[simp] theorem State.modDie_pend (s : State) (k : Nat) (f : SearchDie → SearchDie) : (s.modDie k f).pend = s.pend := rfl
@[simp] theorem State.modDie_front (s : State) (k : Nat) (f : SearchDie → SearchDie) : (s.modDie k f).front = s.front := rfl
@[simp] theorem State.modDie_fabs (s : State) (k : Nat) (f : SearchDie → SearchDie) : (s.modDie k f).fabs = s.fabs := rfl
@[simp] theorem State.modDie_dies (s : State) (k : Nat) (f : SearchDie → SearchDie) : (s.modDie k f).dies = s.dies.put k (f (s.die k)) := rfl
@[simp] theorem State.modDie_dom (s : State) (k : Nat) (f : SearchDie → SearchDie) : (s.modDie k f).dom = s.dom := rfl
@[simp] theorem State.modDie_errs (s : State) (k : Nat) (f : SearchDie → SearchDie) : (s.modDie k f).errs = s.errs := rfl
@[simp] theorem State.modDie_plat (s : State) (k : Nat) (f : SearchDie → SearchDie) : (s.modDie k f).plat = s.plat := rfl
@[simp] theorem State.modQueue_sys (s : State) (q : Nat) (f : LaunchQueue → LaunchQueue) : (s.modQueue q f).sys = s.sys := rfl
@[simp] theorem State.modQueue_threads (s : State) (q : Nat) (f : LaunchQueue → LaunchQueue) : (s.modQueue q f).threads = s.threads := rfl
@[simp] theorem State.modQueue_skeins (s : State) (q : Nat) (f : LaunchQueue → LaunchQueue) : (s.modQueue q f).skeins = s.skeins := rfl
@[simp] theorem State.modQueue_teams (s : State) (q : Nat) (f : LaunchQueue → LaunchQueue) : (s.modQueue q f).teams = s.teams := rfl
@[simp] theorem State.modQueue_cores (s : State) (q : Nat) (f : LaunchQueue → LaunchQueue) : (s.modQueue q f).cores = s.cores := rfl
@[simp] theorem State.modQueue_hanks (s : State) (q : Nat) (f : LaunchQueue → LaunchQueue) : (s.modQueue q f).hanks = s.hanks := rfl
@[simp] theorem State.modQueue_mem (s : State) (q : Nat) (f : LaunchQueue → LaunchQueue) : (s.modQueue q f).mem = s.mem := rfl
@[simp] theorem State.modQueue_accs (s : State) (q : Nat) (f : LaunchQueue → LaunchQueue) : (s.modQueue q f).accs = s.accs := rfl
@[simp] theorem State.modQueue_sync (s : State) (q : Nat) (f : LaunchQueue → LaunchQueue) : (s.modQueue q f).sync = s.sync := rfl
@[simp] theorem State.modQueue_cmds (s : State) (q : Nat) (f : LaunchQueue → LaunchQueue) : (s.modQueue q f).cmds = s.cmds := rfl
@[simp] theorem State.modQueue_graphs (s : State) (q : Nat) (f : LaunchQueue → LaunchQueue) : (s.modQueue q f).graphs = s.graphs := rfl
@[simp] theorem State.modQueue_casts (s : State) (q : Nat) (f : LaunchQueue → LaunchQueue) : (s.modQueue q f).casts = s.casts := rfl
@[simp] theorem State.modQueue_runs (s : State) (q : Nat) (f : LaunchQueue → LaunchQueue) : (s.modQueue q f).runs = s.runs := rfl
@[simp] theorem State.modQueue_pend (s : State) (q : Nat) (f : LaunchQueue → LaunchQueue) : (s.modQueue q f).pend = s.pend := rfl
@[simp] theorem State.modQueue_front (s : State) (q : Nat) (f : LaunchQueue → LaunchQueue) : (s.modQueue q f).front = { s.front with queues := s.front.queues.put q (f (s.queue q)) } := rfl
@[simp] theorem State.modQueue_fabs (s : State) (q : Nat) (f : LaunchQueue → LaunchQueue) : (s.modQueue q f).fabs = s.fabs := rfl
@[simp] theorem State.modQueue_dies (s : State) (q : Nat) (f : LaunchQueue → LaunchQueue) : (s.modQueue q f).dies = s.dies := rfl
@[simp] theorem State.modQueue_dom (s : State) (q : Nat) (f : LaunchQueue → LaunchQueue) : (s.modQueue q f).dom = s.dom := rfl
@[simp] theorem State.modQueue_errs (s : State) (q : Nat) (f : LaunchQueue → LaunchQueue) : (s.modQueue q f).errs = s.errs := rfl
@[simp] theorem State.modQueue_plat (s : State) (q : Nat) (f : LaunchQueue → LaunchQueue) : (s.modQueue q f).plat = s.plat := rfl
@[simp] theorem State.modCmd_sys (s : State) (id : Nat) (f : Cmd → Cmd) : (s.modCmd id f).sys = s.sys := rfl
@[simp] theorem State.modCmd_threads (s : State) (id : Nat) (f : Cmd → Cmd) : (s.modCmd id f).threads = s.threads := rfl
@[simp] theorem State.modCmd_skeins (s : State) (id : Nat) (f : Cmd → Cmd) : (s.modCmd id f).skeins = s.skeins := rfl
@[simp] theorem State.modCmd_teams (s : State) (id : Nat) (f : Cmd → Cmd) : (s.modCmd id f).teams = s.teams := rfl
@[simp] theorem State.modCmd_cores (s : State) (id : Nat) (f : Cmd → Cmd) : (s.modCmd id f).cores = s.cores := rfl
@[simp] theorem State.modCmd_hanks (s : State) (id : Nat) (f : Cmd → Cmd) : (s.modCmd id f).hanks = s.hanks := rfl
@[simp] theorem State.modCmd_mem (s : State) (id : Nat) (f : Cmd → Cmd) : (s.modCmd id f).mem = s.mem := rfl
@[simp] theorem State.modCmd_accs (s : State) (id : Nat) (f : Cmd → Cmd) : (s.modCmd id f).accs = s.accs := rfl
@[simp] theorem State.modCmd_sync (s : State) (id : Nat) (f : Cmd → Cmd) : (s.modCmd id f).sync = s.sync := rfl
@[simp] theorem State.modCmd_cmds (s : State) (id : Nat) (f : Cmd → Cmd) : (s.modCmd id f).cmds = s.cmds.map (fun c => if c.id = id then f c else c) := rfl
@[simp] theorem State.modCmd_graphs (s : State) (id : Nat) (f : Cmd → Cmd) : (s.modCmd id f).graphs = s.graphs := rfl
@[simp] theorem State.modCmd_casts (s : State) (id : Nat) (f : Cmd → Cmd) : (s.modCmd id f).casts = s.casts := rfl
@[simp] theorem State.modCmd_runs (s : State) (id : Nat) (f : Cmd → Cmd) : (s.modCmd id f).runs = s.runs := rfl
@[simp] theorem State.modCmd_pend (s : State) (id : Nat) (f : Cmd → Cmd) : (s.modCmd id f).pend = s.pend := rfl
@[simp] theorem State.modCmd_front (s : State) (id : Nat) (f : Cmd → Cmd) : (s.modCmd id f).front = s.front := rfl
@[simp] theorem State.modCmd_fabs (s : State) (id : Nat) (f : Cmd → Cmd) : (s.modCmd id f).fabs = s.fabs := rfl
@[simp] theorem State.modCmd_dies (s : State) (id : Nat) (f : Cmd → Cmd) : (s.modCmd id f).dies = s.dies := rfl
@[simp] theorem State.modCmd_dom (s : State) (id : Nat) (f : Cmd → Cmd) : (s.modCmd id f).dom = s.dom := rfl
@[simp] theorem State.modCmd_errs (s : State) (id : Nat) (f : Cmd → Cmd) : (s.modCmd id f).errs = s.errs := rfl
@[simp] theorem State.modCmd_plat (s : State) (id : Nat) (f : Cmd → Cmd) : (s.modCmd id f).plat = s.plat := rfl
@[simp] theorem State.dropCmd_sys (s : State) (id : Nat) : (s.dropCmd id).sys = s.sys := rfl
@[simp] theorem State.dropCmd_threads (s : State) (id : Nat) : (s.dropCmd id).threads = s.threads := rfl
@[simp] theorem State.dropCmd_skeins (s : State) (id : Nat) : (s.dropCmd id).skeins = s.skeins := rfl
@[simp] theorem State.dropCmd_teams (s : State) (id : Nat) : (s.dropCmd id).teams = s.teams := rfl
@[simp] theorem State.dropCmd_cores (s : State) (id : Nat) : (s.dropCmd id).cores = s.cores := rfl
@[simp] theorem State.dropCmd_hanks (s : State) (id : Nat) : (s.dropCmd id).hanks = s.hanks := rfl
@[simp] theorem State.dropCmd_mem (s : State) (id : Nat) : (s.dropCmd id).mem = s.mem := rfl
@[simp] theorem State.dropCmd_accs (s : State) (id : Nat) : (s.dropCmd id).accs = s.accs := rfl
@[simp] theorem State.dropCmd_sync (s : State) (id : Nat) : (s.dropCmd id).sync = s.sync := rfl
@[simp] theorem State.dropCmd_cmds (s : State) (id : Nat) : (s.dropCmd id).cmds = s.cmds.filter (fun c => c.id != id) := rfl
@[simp] theorem State.dropCmd_graphs (s : State) (id : Nat) : (s.dropCmd id).graphs = s.graphs := rfl
@[simp] theorem State.dropCmd_casts (s : State) (id : Nat) : (s.dropCmd id).casts = s.casts := rfl
@[simp] theorem State.dropCmd_runs (s : State) (id : Nat) : (s.dropCmd id).runs = s.runs := rfl
@[simp] theorem State.dropCmd_pend (s : State) (id : Nat) : (s.dropCmd id).pend = s.pend := rfl
@[simp] theorem State.dropCmd_front (s : State) (id : Nat) : (s.dropCmd id).front = s.front := rfl
@[simp] theorem State.dropCmd_fabs (s : State) (id : Nat) : (s.dropCmd id).fabs = s.fabs := rfl
@[simp] theorem State.dropCmd_dies (s : State) (id : Nat) : (s.dropCmd id).dies = s.dies := rfl
@[simp] theorem State.dropCmd_dom (s : State) (id : Nat) : (s.dropCmd id).dom = s.dom := rfl
@[simp] theorem State.dropCmd_errs (s : State) (id : Nat) : (s.dropCmd id).errs = s.errs := rfl
@[simp] theorem State.dropCmd_plat (s : State) (id : Nat) : (s.dropCmd id).plat = s.plat := rfl

@[simp] theorem State.write_sys (s : State) (p : Party) (key loc : Nat) (bs : List Byte) : (s.write p key loc bs).sys = s.sys := rfl
@[simp] theorem State.write_threads (s : State) (p : Party) (key loc : Nat) (bs : List Byte) : (s.write p key loc bs).threads = s.threads := rfl
@[simp] theorem State.write_skeins (s : State) (p : Party) (key loc : Nat) (bs : List Byte) : (s.write p key loc bs).skeins = s.skeins := rfl
@[simp] theorem State.write_teams (s : State) (p : Party) (key loc : Nat) (bs : List Byte) : (s.write p key loc bs).teams = s.teams := rfl
@[simp] theorem State.write_cores (s : State) (p : Party) (key loc : Nat) (bs : List Byte) : (s.write p key loc bs).cores = s.cores := rfl
@[simp] theorem State.write_hanks (s : State) (p : Party) (key loc : Nat) (bs : List Byte) : (s.write p key loc bs).hanks = s.hanks := rfl
@[simp] theorem State.write_mem (s : State) (p : Party) (key loc : Nat) (bs : List Byte) : (s.write p key loc bs).mem = s.mem.put p key loc bs := rfl
@[simp] theorem State.write_accs (s : State) (p : Party) (key loc : Nat) (bs : List Byte) : (s.write p key loc bs).accs = s.accs := rfl
@[simp] theorem State.write_sync (s : State) (p : Party) (key loc : Nat) (bs : List Byte) : (s.write p key loc bs).sync = s.sync := rfl
@[simp] theorem State.write_cmds (s : State) (p : Party) (key loc : Nat) (bs : List Byte) : (s.write p key loc bs).cmds = s.cmds := rfl
@[simp] theorem State.write_graphs (s : State) (p : Party) (key loc : Nat) (bs : List Byte) : (s.write p key loc bs).graphs = s.graphs := rfl
@[simp] theorem State.write_casts (s : State) (p : Party) (key loc : Nat) (bs : List Byte) : (s.write p key loc bs).casts = s.casts := rfl
@[simp] theorem State.write_runs (s : State) (p : Party) (key loc : Nat) (bs : List Byte) : (s.write p key loc bs).runs = s.runs := rfl
@[simp] theorem State.write_pend (s : State) (p : Party) (key loc : Nat) (bs : List Byte) : (s.write p key loc bs).pend = s.pend := rfl
@[simp] theorem State.write_front (s : State) (p : Party) (key loc : Nat) (bs : List Byte) : (s.write p key loc bs).front = s.front := rfl
@[simp] theorem State.write_fabs (s : State) (p : Party) (key loc : Nat) (bs : List Byte) : (s.write p key loc bs).fabs = s.fabs := rfl
@[simp] theorem State.write_dies (s : State) (p : Party) (key loc : Nat) (bs : List Byte) : (s.write p key loc bs).dies = s.dies := rfl
@[simp] theorem State.write_dom (s : State) (p : Party) (key loc : Nat) (bs : List Byte) : (s.write p key loc bs).dom = s.dom := rfl
@[simp] theorem State.write_errs (s : State) (p : Party) (key loc : Nat) (bs : List Byte) : (s.write p key loc bs).errs = s.errs := rfl
@[simp] theorem State.write_plat (s : State) (p : Party) (key loc : Nat) (bs : List Byte) : (s.write p key loc bs).plat = s.plat := rfl

@[simp] theorem State.tickFree_sys (s : State) : s.tickFree.sys = { s.sys with free := s.sys.free + 1 } := rfl
@[simp] theorem State.tickFree_threads (s : State) : s.tickFree.threads = s.threads := rfl
@[simp] theorem State.tickFree_skeins (s : State) : s.tickFree.skeins = s.skeins := rfl
@[simp] theorem State.tickFree_teams (s : State) : s.tickFree.teams = s.teams := rfl
@[simp] theorem State.tickFree_cores (s : State) : s.tickFree.cores = s.cores := rfl
@[simp] theorem State.tickFree_hanks (s : State) : s.tickFree.hanks = s.hanks := rfl
@[simp] theorem State.tickFree_mem (s : State) : s.tickFree.mem = s.mem := rfl
@[simp] theorem State.tickFree_accs (s : State) : s.tickFree.accs = s.accs := rfl
@[simp] theorem State.tickFree_sync (s : State) : s.tickFree.sync = s.sync := rfl
@[simp] theorem State.tickFree_cmds (s : State) : s.tickFree.cmds = s.cmds := rfl
@[simp] theorem State.tickFree_graphs (s : State) : s.tickFree.graphs = s.graphs := rfl
@[simp] theorem State.tickFree_casts (s : State) : s.tickFree.casts = s.casts := rfl
@[simp] theorem State.tickFree_runs (s : State) : s.tickFree.runs = s.runs := rfl
@[simp] theorem State.tickFree_pend (s : State) : s.tickFree.pend = s.pend := rfl
@[simp] theorem State.tickFree_front (s : State) : s.tickFree.front = s.front := rfl
@[simp] theorem State.tickFree_fabs (s : State) : s.tickFree.fabs = s.fabs := rfl
@[simp] theorem State.tickFree_dies (s : State) : s.tickFree.dies = s.dies := rfl
@[simp] theorem State.tickFree_dom (s : State) : s.tickFree.dom = s.dom := rfl
@[simp] theorem State.tickFree_errs (s : State) : s.tickFree.errs = s.errs := rfl
@[simp] theorem State.tickFree_plat (s : State) : s.tickFree.plat = s.plat := rfl

@[simp] theorem State.record_sys (s : State) (r : ErrRec) : (s.record r).sys = s.sys := rfl
@[simp] theorem State.record_threads (s : State) (r : ErrRec) : (s.record r).threads = s.threads := rfl
@[simp] theorem State.record_skeins (s : State) (r : ErrRec) : (s.record r).skeins = s.skeins := rfl
@[simp] theorem State.record_teams (s : State) (r : ErrRec) : (s.record r).teams = s.teams := rfl
@[simp] theorem State.record_cores (s : State) (r : ErrRec) : (s.record r).cores = s.cores := rfl
@[simp] theorem State.record_hanks (s : State) (r : ErrRec) : (s.record r).hanks = s.hanks := rfl
@[simp] theorem State.record_mem (s : State) (r : ErrRec) : (s.record r).mem = s.mem := rfl
@[simp] theorem State.record_accs (s : State) (r : ErrRec) : (s.record r).accs = s.accs := rfl
@[simp] theorem State.record_sync (s : State) (r : ErrRec) : (s.record r).sync = s.sync := rfl
@[simp] theorem State.record_cmds (s : State) (r : ErrRec) : (s.record r).cmds = s.cmds := rfl
@[simp] theorem State.record_graphs (s : State) (r : ErrRec) : (s.record r).graphs = s.graphs := rfl
@[simp] theorem State.record_casts (s : State) (r : ErrRec) : (s.record r).casts = s.casts := rfl
@[simp] theorem State.record_runs (s : State) (r : ErrRec) : (s.record r).runs = s.runs := rfl
@[simp] theorem State.record_pend (s : State) (r : ErrRec) : (s.record r).pend = s.pend := rfl
@[simp] theorem State.record_front (s : State) (r : ErrRec) : (s.record r).front = s.front := rfl
@[simp] theorem State.record_fabs (s : State) (r : ErrRec) : (s.record r).fabs = s.fabs := rfl
@[simp] theorem State.record_dies (s : State) (r : ErrRec) : (s.record r).dies = s.dies := rfl
@[simp] theorem State.record_dom (s : State) (r : ErrRec) : (s.record r).dom = s.dom := rfl
@[simp] theorem State.record_errs (s : State) (r : ErrRec) : (s.record r).errs = { s.errs with raised := s.errs.raised ++ [r] } := rfl
@[simp] theorem State.record_plat (s : State) (r : ErrRec) : (s.record r).plat = s.plat := rfl

@[simp] theorem State.due_sys (s : State) (es : List Due) : (s.due es).sys = { s.sys with agenda := s.sys.agenda ++ es } := rfl
@[simp] theorem State.due_threads (s : State) (es : List Due) : (s.due es).threads = s.threads := rfl
@[simp] theorem State.due_skeins (s : State) (es : List Due) : (s.due es).skeins = s.skeins := rfl
@[simp] theorem State.due_teams (s : State) (es : List Due) : (s.due es).teams = s.teams := rfl
@[simp] theorem State.due_cores (s : State) (es : List Due) : (s.due es).cores = s.cores := rfl
@[simp] theorem State.due_hanks (s : State) (es : List Due) : (s.due es).hanks = s.hanks := rfl
@[simp] theorem State.due_mem (s : State) (es : List Due) : (s.due es).mem = s.mem := rfl
@[simp] theorem State.due_accs (s : State) (es : List Due) : (s.due es).accs = s.accs := rfl
@[simp] theorem State.due_sync (s : State) (es : List Due) : (s.due es).sync = s.sync := rfl
@[simp] theorem State.due_cmds (s : State) (es : List Due) : (s.due es).cmds = s.cmds := rfl
@[simp] theorem State.due_graphs (s : State) (es : List Due) : (s.due es).graphs = s.graphs := rfl
@[simp] theorem State.due_casts (s : State) (es : List Due) : (s.due es).casts = s.casts := rfl
@[simp] theorem State.due_runs (s : State) (es : List Due) : (s.due es).runs = s.runs := rfl
@[simp] theorem State.due_pend (s : State) (es : List Due) : (s.due es).pend = s.pend := rfl
@[simp] theorem State.due_front (s : State) (es : List Due) : (s.due es).front = s.front := rfl
@[simp] theorem State.due_fabs (s : State) (es : List Due) : (s.due es).fabs = s.fabs := rfl
@[simp] theorem State.due_dies (s : State) (es : List Due) : (s.due es).dies = s.dies := rfl
@[simp] theorem State.due_dom (s : State) (es : List Due) : (s.due es).dom = s.dom := rfl
@[simp] theorem State.due_errs (s : State) (es : List Due) : (s.due es).errs = s.errs := rfl
@[simp] theorem State.due_plat (s : State) (es : List Due) : (s.due es).plat = s.plat := rfl

@[simp] theorem State.arrived_sys (s : State) : s.arrived.sys = s.sys := rfl
@[simp] theorem State.arrived_threads (s : State) : s.arrived.threads = s.threads := rfl
@[simp] theorem State.arrived_skeins (s : State) : s.arrived.skeins = s.skeins := rfl
@[simp] theorem State.arrived_teams (s : State) : s.arrived.teams = s.teams := rfl
@[simp] theorem State.arrived_cores (s : State) : s.arrived.cores = s.cores := rfl
@[simp] theorem State.arrived_hanks (s : State) : s.arrived.hanks = s.hanks := rfl
@[simp] theorem State.arrived_mem (s : State) : s.arrived.mem = { s.mem with early := [] } := rfl
@[simp] theorem State.arrived_accs (s : State) : s.arrived.accs = s.accs := rfl
@[simp] theorem State.arrived_sync (s : State) : s.arrived.sync = s.sync := rfl
@[simp] theorem State.arrived_cmds (s : State) : s.arrived.cmds = s.cmds := rfl
@[simp] theorem State.arrived_graphs (s : State) : s.arrived.graphs = s.graphs := rfl
@[simp] theorem State.arrived_casts (s : State) : s.arrived.casts = s.casts := rfl
@[simp] theorem State.arrived_runs (s : State) : s.arrived.runs = s.runs := rfl
@[simp] theorem State.arrived_pend (s : State) : s.arrived.pend = s.pend := rfl
@[simp] theorem State.arrived_front (s : State) : s.arrived.front = s.front := rfl
@[simp] theorem State.arrived_fabs (s : State) : s.arrived.fabs = s.fabs := rfl
@[simp] theorem State.arrived_dies (s : State) : s.arrived.dies = s.dies := rfl
@[simp] theorem State.arrived_dom (s : State) : s.arrived.dom = s.dom := rfl
@[simp] theorem State.arrived_errs (s : State) : s.arrived.errs = s.errs := rfl
@[simp] theorem State.arrived_plat (s : State) : s.arrived.plat = s.plat := rfl

theorem State.thread_setThread (s : State) (w : Who) (t : Thread) : (s.setThread w t).thread w = some t := find_put ..
theorem State.thread_setThread_ne (s : State) (w v : Who) (t : Thread) (h : v ≠ w) : (s.setThread w t).thread v = s.thread v := find_put_ne _ _ _ _ h
theorem State.thread_modThread (s : State) (w : Who) (f : Thread → Thread) : (s.modThread w f).thread w = (s.thread w).map f := find_upd ..
theorem State.thread_modThread_ne (s : State) (w v : Who) (f : Thread → Thread) (h : v ≠ w) : (s.modThread w f).thread v = s.thread v :=
  find_upd_ne _ _ _ _ h
theorem State.core_modCore (s : State) (c : Nat) (f : Core → Core) : (s.modCore c f).core c = f (s.core c) := by
  simp [State.core]
theorem State.core_modCore_ne (s : State) (c d : Nat) (f : Core → Core) (h : d ≠ c) : (s.modCore c f).core d = s.core d := by
  simp [State.core, find_put_ne _ _ _ _ h]
theorem State.team_modTeam (s : State) (t : TeamId) (f : Team → Team) : (s.modTeam t f).team t = (s.team t).map f := find_upd ..
theorem State.team_modTeam_ne (s : State) (t u : TeamId) (f : Team → Team) (h : u ≠ t) : (s.modTeam t f).team u = s.team u :=
  find_upd_ne _ _ _ _ h

end Sys2Proof.Machine
end

