-- ==== Sys2Proof/Laws/Gang.lean ====
section
/-!
SUPPORT. What the shared operations leave of the issue record; and, for a gang that is ready, the next state that the shared
shapes of L-form and U-form instructions answer.
-/
namespace Sys2Proof.Machine

theorem ready_sys (s : State) (w : Who) : (s.ready w).sys = s.sys := by
  simp only [State.ready, State.wakeCore]
  split <;> rfl
theorem wakeChan_sys (s : State) (t : TeamId) (n : Nat) : (s.wakeChan t n).sys = s.sys := by
  simp only [State.wakeChan]
  exact foldl_keeps (·.sys) _ (fun s (p : Who × Thread) => ready_sys s p.1) _ s
theorem modChan_sys (s : State) (t : TeamId) (n : Nat) (f : Chan → Chan) : (s.modChan t n f).sys = s.sys := by
  simp only [State.modChan]
  split
  · split <;> rfl
  · rfl
theorem popOne_sys (s : State) (t : TeamId) (n : Nat) (s' : State) (v : DWord) (h : s.popOne t n = some (s', v)) : s'.sys = s.sys := by
  simp only [State.popOne] at h
  split at h
  · split at h
    · split at h
      · split at h
        · cases h; rfl
        · split at h <;> cases h; rfl
      · cases h; rfl
    · split at h <;> cases h
      exact modChan_sys ..
  · cases h
theorem popLane_sys (s : State) (t : TeamId) (th : Thread) (srcs : List (Src × Bool)) (s' : State) (vs : List DWord)
    (h : s.popLane t th srcs = some (s', vs)) : s'.sys = s.sys := by
  induction srcs generalizing s vs with
  | nil => cases h; rfl
  | cons x r ih =>
    obtain ⟨x, wide⟩ := x
    cases x with
    | reg n =>
      simp only [State.popLane, Option.map_eq_some_iff] at h
      obtain ⟨q, hq, h⟩ := h
      cases h
      exact ih s _ hq
    | pop c =>
      simp only [State.popLane] at h
      split at h
      · next s1 v h1 =>
        simp only [Option.map_eq_some_iff] at h
        obtain ⟨q, hq, h⟩ := h
        cases h
        rw [ih s1 _ hq, popOne_sys _ _ _ _ _ h1]
      · cases h
    | peek c =>
      simp only [State.popLane] at h
      split at h
      · simp only [Option.map_eq_some_iff] at h
        obtain ⟨q, hq, h⟩ := h
        cases h
        exact ih s _ hq
      · cases h
theorem popLanes_sys (s : State) (srcs : List (Src × Bool)) (ls : List LaneIn) (s' : State) (ls' : List LaneIn)
    (h : s.popLanes srcs ls = some (s', ls')) : s'.sys = s.sys := by
  induction ls generalizing s ls' with
  | nil => cases h; rfl
  | cons l ls ih =>
    simp only [State.popLanes] at h
    split at h
    · next s1 vs h1 =>
      simp only [Option.map_eq_some_iff] at h
      obtain ⟨q, hq, h⟩ := h
      cases h
      rw [ih s1 _ hq, popLane_sys _ _ _ _ _ _ h1]
    · cases h
theorem acting_sys {s s' : State} {sp : LaneSpec} {ls : List LaneIn} (h : LaneReady s sp s' ls) : (s.acting s' sp).sys = s.sys := by
  rw [State.acting, State.wakePops, foldl_keeps (·.sys) _ (fun s c => wakeChan_sys s _ c), popLanes_sys _ _ _ _ _ h.values]

theorem acting_sys_solo {s s' : State} {sp : LaneSpec} {l : LaneIn} (h : SoloReady s sp s' l) : (s.acting s' sp).sys = s.sys := acting_sys h.ready

theorem interrupt_sys (s : State) (v : Nat) : (s.interrupt v).sys = s.sys := by
  simp only [State.interrupt]
  split
  · rfl
  · split <;> rfl
theorem latchEvent_sys (s : State) (n : Nat) : (s.latchEvent n).sys = s.sys := rfl
theorem record_sys (s : State) (r : ErrRec) : (s.record r).sys = s.sys := rfl
theorem writeRecord_sys (s : State) (r : ErrRec) : (s.writeRecord r).sys = s.sys := by
  unfold State.writeRecord
  dsimp only
  split
  · rfl
  · rw [interrupt_sys, latchEvent_sys]
    split
    · split <;> rfl
    · rfl
/-- Writing the records of a clk leaves the scheduler's own state. -/
theorem writeRecords_sys (s : State) : s.writeRecords.sys = s.sys :=
  foldl_keeps (·.sys) _ (fun s r => writeRecord_sys s r) _ _
theorem trapRecord_sys (s : State) (w : Who) (f : Fail) : (s.trapRecord w f).sys = s.sys := by
  simp only [State.trapRecord]
  split
  · rfl
  · split
    · exact record_sys ..
    · rfl
theorem passOwner_sys (s : State) (c : Nat) : (s.passOwner c).sys = s.sys := by
  simp only [State.passOwner]
  split <;> rfl
theorem freeSkein_sys (s : State) (c x : Nat) : (s.freeSkein c x).sys = s.sys := by
  simp only [State.freeSkein]
  split
  · exact passOwner_sys ..
  · rfl
theorem sweepSkein_sys (s : State) (c x : Nat) : (s.sweepSkein c x).sys = s.sys := by
  simp only [State.sweepSkein]
  split
  · exact freeSkein_sys ..
  · rfl
theorem performOne_sys (s : State) (p : PendStore) : (s.performOne p).sys = s.sys := by
  simp only [State.performOne]
  split <;> rfl
theorem drainOf_sys (s : State) (w : Who) : (s.drainOf w).sys = s.sys := by
  simp only [State.drainOf, State.performStores]
  rw [foldl_keeps (·.sys) _ (fun s p => performOne_sys s p)]
  rfl
theorem removeThread_sys (s : State) (w : Who) : (s.removeThread w).sys = s.sys := by
  simp only [State.removeThread]
  split
  · split
    · rw [sweepSkein_sys]; exact drainOf_sys ..
    · exact drainOf_sys ..
  · rfl
  · rfl
theorem fileOne_sys (s : State) (c : Nat) (w : Who) : (s.fileOne c w).sys = s.sys := by
  simp only [State.fileOne]
  split
  · split <;> rfl
  · rfl
theorem fileAll_sys (s : State) (c : Nat) : (s.fileAll c).sys = s.sys :=
  foldl_keeps (·.sys) _ (fun s w => fileOne_sys s c w) _ s
theorem stopTeam_sys (s : State) (t : TeamId) (e : Nat × Nat × Nat) : (s.stopTeam t e).sys = s.sys := by
  simp only [State.stopTeam]
  split
  · split
    · rfl
    · rw [fileAll_sys, foldl_keeps (·.sys) _ (fun s w => removeThread_sys s w)]
      rfl
  · rfl
theorem endTeam_sys (s : State) (t : TeamId) (a b c : Nat) : (s.endTeam t a b c).sys = s.sys := by
  simp only [State.endTeam]
  split
  · split
    · rw [foldl_keeps (·.sys) _ (fun s w => stopTeam_sys s w _), stopTeam_sys]; rfl
    · rw [stopTeam_sys]; rfl
  · rfl
theorem trapLane_sys (s : State) (w : Who) (f : Fail) : (s.trapLane w f).sys = s.sys := by
  unfold State.trapLane
  split
  · split
    · exact endTeam_sys ..
    · dsimp only
      split
      · rw [endTeam_sys, trapRecord_sys]; rfl
      · rw [trapRecord_sys]; rfl
  · rfl

/-! ### Ready gangs -/

/-- An instruction that acts in each lane on its own. -/
theorem runPure_next {s s' : State} {sp : LaneSpec} {ls : List LaneIn} (h : LaneReady s sp s' ls) (f : State → LaneIn → LaneOut)
    (hf : ∀ l, (f (s.acting s' sp) l).fault = none ∧ (f (s.acting s' sp) l).page = none) :
    (Host.Outcome.next (s.runPure sp f) : Host.Outcome State Fault Refusal) = .next (s.eachDone s' sp ls f) := by
  rw [runPure_ready h f hf]

/-- An instruction whose lanes read one another. -/
theorem runLanes_next {s s' : State} {sp : LaneSpec} {ls : List LaneIn} (h : LaneReady s sp s' ls)
    (act : State → List LaneIn → State × List LaneOut) (g : State → LaneIn → LaneOut)
    (ha : act (s.acting s' sp) ls = (s.acting s' sp, ls.map (g (s.acting s' sp))))
    (hf : ∀ l, (g (s.acting s' sp) l).fault = none ∧ (g (s.acting s' sp) l).page = none) :
    (Host.Outcome.next (s.runLanes sp act) : Host.Outcome State Fault Refusal) = .next (s.eachDone s' sp ls g) := by
  rw [runLanes_ready h, ha]
  simp only [zip_map_self]
  rw [endLanes_clean _ _ _ _ h.plain]
  · rfl
  · intro r hr
    simp only [List.mem_map] at hr
    obtain ⟨l, -, rfl⟩ := hr
    exact hf l

theorem foldLanes_map (s : State) (f : State → LaneIn → State × LaneOut) (g : LaneIn → LaneOut) (ls : List LaneIn)
    (h : ∀ l ∈ ls, f s l = (s, g l)) : foldLanes f s ls = (s, ls.map g) := by
  induction ls with
  | nil => rfl
  | cons l ls ih =>
    simp only [foldLanes, h l (List.mem_cons_self ..), ih (fun x hx => h x (List.mem_cons_of_mem _ hx)), List.map_cons]

/-- A gang of one lane whose act changes the machine. -/
theorem runSeq_next {s s' : State} {sp : LaneSpec} {l : LaneIn} (h : SoloReady s sp s' l) (f : State → LaneIn → State × LaneOut)
    {u : State} {o : LaneOut} (hu : f (s.acting s' sp) l = (u, o)) (h1 : o.fault = none) (h2 : o.page = none) :
    (Host.Outcome.next (s.runSeq sp f) : Host.Outcome State Fault Refusal) = .next (s.gangDone sp u [(l, o)]) := by
  rw [runSeq_solo h f (by rw [hu]; exact ⟨h1, h2⟩), hu]

/-- Lanes that act in turn leave what the fold over them leaves, each outcome clean, and keep an invariant of the acts. -/
theorem foldLanes_turns {P : State → LaneIn → State → LaneOut → Prop} (I : State → Prop) (f : State → LaneIn → State × LaneOut)
    (hf : ∀ u l v o, I u → P u l v o → f u l = (v, o) ∧ (o.fault = none ∧ o.page = none) ∧ I v)
    {s t : State} {ls : List LaneIn} {os : List LaneOut} (ht : InTurn P s ls t os) (hI : I s) :
    foldLanes f s ls = (t, os) ∧ ∀ r ∈ ls.zip os, r.2.fault = none ∧ r.2.page = none := by
  induction ht with
  | nil s => exact ⟨rfl, by simp⟩
  | cons hP _ ih =>
    obtain ⟨h1, h2, h3⟩ := hf _ _ _ _ hI hP
    obtain ⟨h4, h5⟩ := ih h3
    refine ⟨by simp only [foldLanes, h1, h4], fun r hr => ?_⟩
    rw [List.zip_cons_cons, List.mem_cons] at hr
    rcases hr with rfl | hr
    · exact h2
    · exact h5 r hr

/-- A gang whose lanes act in turn, with an invariant of the acts. -/
theorem runSeq_turns {P : State → LaneIn → State → LaneOut → Prop} (I : State → Prop) {s s' t : State} {sp : LaneSpec} {ls : List LaneIn}
    {os : List LaneOut} (h : LaneReady s sp s' ls) (ht : InTurn P (s.acting s' sp) ls t os) (f : State → LaneIn → State × LaneOut)
    (hI : I (s.acting s' sp)) (hf : ∀ u l v o, I u → P u l v o → f u l = (v, o) ∧ (o.fault = none ∧ o.page = none) ∧ I v) :
    s.runSeq sp f = s.gangDone sp t (ls.zip os) := by
  obtain ⟨h1, h2⟩ := foldLanes_turns I f hf ht hI
  rw [State.runSeq, runLanes_ready h, h1]
  dsimp only
  rw [endLanes_clean _ _ _ _ h.plain h2]
  rfl

/-- A gang whose lanes act in turn. -/
theorem runSeq_each {P : State → LaneIn → State → LaneOut → Prop} {s s' t : State} {sp : LaneSpec} {ls : List LaneIn} {os : List LaneOut}
    (h : LaneReady s sp s' ls) (ht : InTurn P (s.acting s' sp) ls t os) (f : State → LaneIn → State × LaneOut)
    (hf : ∀ u l v o, P u l v o → f u l = (v, o) ∧ o.fault = none ∧ o.page = none) :
    (Host.Outcome.next (s.runSeq sp f) : Host.Outcome State Fault Refusal) = .next (s.gangDone sp t (ls.zip os)) :=
  congrArg _ (runSeq_turns (fun _ => True) h ht f trivial (fun u l v o _ hP => ⟨(hf u l v o hP).1, (hf u l v o hP).2, trivial⟩))

/-- A lane's turn whose act and outcome are given by equations. -/
theorem turn_ok {r : State × LaneOut} {v v' : State} {o o' : LaneOut} (hv : v = v') (ho : o = o') (h : r = (v', o'))
    (h1 : o'.fault = none) (h2 : o'.page = none) : r = (v, o) ∧ o.fault = none ∧ o.page = none := by
  rw [hv, ho]
  exact ⟨h, h1, h2⟩

theorem goto_eq (s : State) (l : LaneIn) (target : DWord) : s.goto l target = (s.arriving l.who target, goes target) := rfl

/-- A gang of one lane acting together. -/
theorem runLanes_solo {s s' : State} {sp : LaneSpec} {l : LaneIn} (h : SoloReady s sp s' l) (act : State → List LaneIn → State × List LaneOut)
    {u : State} {o : LaneOut} (hu : act (s.acting s' sp) [l] = (u, [o])) (h1 : o.fault = none) (h2 : o.page = none) :
    (Host.Outcome.next (s.runLanes sp act) : Host.Outcome State Fault Refusal) = .next (s.gangDone sp u [(l, o)]) := by
  rw [runLanes_ready h.ready, hu]
  simp only [List.zip_cons_cons, List.zip_nil_left]
  rw [endLanes_clean _ _ _ _ h.ready.plain]
  · rfl
  · intro r hr
    simp only [List.mem_singleton] at hr
    subst hr
    exact ⟨h1, h2⟩

/-- A U-form instruction. -/
theorem runU_next {s s' : State} {srcs : List USrc} {dst : Option UDst} {vs : List DWord} (h : UReady s srcs dst s' vs)
    (act : State → List DWord → State × UOut) {t : State} {o : UOut} (ha : act (s.actingU s' srcs) vs = (t, o)) :
    (Host.Outcome.next (s.runU srcs dst act) : Host.Outcome State Fault Refusal) = .next (s.uDone t dst o) := by
  rw [runU_ready h, ha]

/-- A command that finds its checks passed and room in its queue. -/
theorem issueCmd_ok {s : State} {e : Engine} {op : CmdOp} {cf : CompField} (h : MayIssue s e op cf) :
    s.issueCmd e (.ok op cf) = (s.issued e op cf, {}) := by
  simp only [State.issueCmd, h.ranges, h.room, if_true]
  rfl

theorem lanesIn_all (s : State) (sp : LaneSpec) (h : ∀ l ∈ s.sys.issue.lanes, (s.thread l.2).isSome = true) :
    (s.lanesIn sp).map (fun l => (l.lane, l.who)) = s.sys.issue.lanes := by
  simp only [State.lanesIn]
  generalize s.sys.issue.lanes = xs at h
  induction xs with
  | nil => rfl
  | cons x xs ih =>
    have := h x (List.mem_cons_self ..)
    obtain ⟨t, ht⟩ := Option.isSome_iff_exists.1 this
    simp only [List.filterMap_cons, ht, Option.map_some, List.map_cons]
    rw [ih (fun y hy => h y (List.mem_cons_of_mem _ hy))]

/-- A gang in which every lane fails the same check, made before that of its channels, traps lane by lane. -/
theorem runLanes_bad (s : State) (sp : LaneSpec) (act : State → List LaneIn → State × List LaneOut) (f : Fail)
    (hp : s.sys.issue.runAhead = none) (hl : ∀ l ∈ s.sys.issue.lanes, whoIsWalk l.2 = false ∧ (s.thread l.2).isSome = true)
    (hs : f.stage ≤ 3) (hc : ∀ l ∈ s.lanesIn sp, sp.laneCheck s l.who l.t = some f) :
    s.runLanes sp act = (s.sys.issue.lanes.foldl (fun u l => u.trapLane l.2 f) s).releaseHeld s.sys.issue.core s.sys.issue.ctx := by
  have hnot : ¬ 3 < f.stage := by omega
  have hearly : (s.lanesIn sp).filter (fun l => (sp.laneCheck s l.who l.t).all (fun f => decide (3 < f.stage))) = [] := by
    simp only [List.filter_eq_nil_iff]
    intro l hm
    simp [hc l hm, hnot]
  have hfail : ∀ l ∈ s.lanesIn sp, firstFail (sp.laneCheck s l.who l.t)
      (if (sp.laneCheck s l.who l.t).all (fun f => decide (3 < f.stage)) then s.chanFail sp [] else none) = some f := by
    intro l hm
    simp [hc l hm, hnot, firstFail]
  have hbad : (s.lanesIn sp).filterMap (fun l => (firstFail (sp.laneCheck s l.who l.t)
      (if (sp.laneCheck s l.who l.t).all (fun f => decide (3 < f.stage)) then s.chanFail sp [] else none)).map
        (fun f => (l.lane, l.who, f))) = s.sys.issue.lanes.map (fun l => (l.1, l.2, f)) := by
    have h0 := lanesIn_all s sp (fun l h => (hl l h).2)
    have h1 : ∀ ls : List LaneIn, (∀ l ∈ ls, firstFail (sp.laneCheck s l.who l.t)
          (if (sp.laneCheck s l.who l.t).all (fun f => decide (3 < f.stage)) then s.chanFail sp [] else none) = some f) →
        ls.filterMap (fun l => (firstFail (sp.laneCheck s l.who l.t)
          (if (sp.laneCheck s l.who l.t).all (fun f => decide (3 < f.stage)) then s.chanFail sp [] else none)).map
            (fun f => (l.lane, l.who, f))) =
        (ls.map (fun l => (l.lane, l.who))).map (fun l => (l.1, l.2, f)) := by
      intro ls h
      induction ls with
      | nil => rfl
      | cons l ls ih =>
        simp only [List.filterMap_cons, h l (List.mem_cons_self ..), Option.map_some, List.map_cons]
        rw [ih (fun y hy => h y (List.mem_cons_of_mem _ hy))]
    rw [h1 _ hfail, h0]
  have hls : (s.lanesIn sp).filter (fun l => (firstFail (sp.laneCheck s l.who l.t)
      (if (sp.laneCheck s l.who l.t).all (fun f => decide (3 < f.stage)) then s.chanFail sp [] else none)).isNone) = [] := by
    simp only [List.filter_eq_nil_iff]
    intro l hm
    simp [hfail l hm]
  have hfold : ∀ (xs : List (Nat × Who)) (u : State), (∀ l ∈ xs, whoIsWalk l.2 = false) →
      (xs.map (fun l => (l.1, l.2, f))).foldl (fun u x => match x.2.1 with
        | .lane _ _ _ => u.trapLane x.2.1 x.2.2
        | .walk _ => u.walkFault x.2.1 x.2.2) u = xs.foldl (fun u l => u.trapLane l.2 f) u := by
    intro xs
    induction xs with
    | nil => intros; rfl
    | cons x xs ih =>
      intro u h
      simp only [List.map_cons, List.foldl_cons]
      have := h x (List.mem_cons_self ..)
      rw [ih _ (fun y hy => h y (List.mem_cons_of_mem _ hy))]
      obtain ⟨i, w⟩ := x
      cases w with
      | lane => rfl
      | walk => simp [whoIsWalk] at this
  have hr : (if (s.sys.issue.lanes.map (fun l => (l.1, l.2, f))).isEmpty then s else
      s.raise (s.sys.issue.lanes.map (fun l => (l.1, l.2, f)))) = s.sys.issue.lanes.foldl (fun u l => u.trapLane l.2 f) s := by
    split
    · next h =>
      simp only [List.isEmpty_iff, List.map_eq_nil_iff] at h
      simp [h]
    · simp only [State.raise, hp, Option.isSome_none, Bool.false_eq_true, if_false]
      exact hfold _ _ (fun l h => (hl l h).1)
  have hsys := foldl_keeps (·.sys) (fun (u : State) (l : Nat × Who) => u.trapLane l.2 f) (fun u l => trapLane_sys u l.2 f) s.sys.issue.lanes s
  simp only [State.runLanes, hp, Option.isSome_none, Bool.false_and, Bool.false_eq_true, if_false, hearly, hbad, hls,
    hr, List.isEmpty_nil, if_true]
  rw [hsys]

end Sys2Proof.Machine
end

