-- ==== Sys2Proof/Laws/Memory.lean ====
section
/-!
SUPPORT. What a write of memory changes: the cells keep their one form, the written bytes read back through their key, and
every other byte reads as before (R7, R66 to R68, R305).
-/
namespace Sys2Proof.Machine

/-- A list of cells is in its one form iff its first byte is not zero, every later address is higher, and so is the rest. -/
theorem cellsWf_cons (a : Nat) (b : Byte) (t : List Host.Cell) :
    cellsWf ((a, b) :: t) = true ↔ b ≠ 0 ∧ (∀ x ∈ t, a < x.1) ∧ cellsWf t = true := by
  induction t generalizing a b with
  | nil => simp [cellsWf]
  | cons p t ih =>
    obtain ⟨a', b'⟩ := p
    simp only [cellsWf, Bool.and_eq_true, bne_iff_ne, ne_eq, decide_eq_true_eq, List.mem_cons, forall_eq_or_imp]
    constructor
    · rintro ⟨⟨h1, h2⟩, h3⟩
      refine ⟨h1, ⟨h2, fun x hx => ?_⟩, h3⟩
      have := ((ih a' b').1 h3).2.1 x hx
      omega
    · rintro ⟨h1, ⟨h2, -⟩, h3⟩
      exact ⟨⟨h1, h2⟩, h3⟩

theorem cellGet_above (t : List Host.Cell) (a : Nat) (h : ∀ x ∈ t, a < x.1) : cellGet t a = 0 := by
  induction t with
  | nil => rfl
  | cons p t ih =>
    obtain ⟨a', b'⟩ := p
    have h1 := h (a', b') (List.mem_cons_self ..)
    simp only [cellGet]
    rw [if_neg (by dsimp at h1; omega)]
    exact ih fun x hx => h x (List.mem_cons_of_mem _ hx)

theorem cellPut_mem (t : List Host.Cell) (a : Nat) (v : Byte) (x : Host.Cell) (h : x ∈ cellPut t a v) : x.1 = a ∨ x ∈ t := by
  induction t with
  | nil =>
    simp only [cellPut] at h
    split at h
    · simp at h
    · simp only [List.mem_singleton] at h; exact .inl (by rw [h])
  | cons p t ih =>
    obtain ⟨a', b'⟩ := p
    simp only [cellPut] at h
    split at h
    · split at h
      · exact .inr h
      · rcases List.mem_cons.1 h with h | h
        · exact .inl (by rw [h])
        · exact .inr h
    · split at h
      · split at h
        · exact .inr (List.mem_cons_of_mem _ h)
        · rcases List.mem_cons.1 h with h | h
          · exact .inl (by rw [h])
          · exact .inr (List.mem_cons_of_mem _ h)
      · rcases List.mem_cons.1 h with h | h
        · exact .inr (by rw [h]; exact List.mem_cons_self ..)
        · rcases ih h with h | h
          · exact .inl h
          · exact .inr (List.mem_cons_of_mem _ h)

/-- Putting a byte keeps the one form. -/
theorem cellPut_wf (t : List Host.Cell) (a : Nat) (v : Byte) (h : cellsWf t = true) : cellsWf (cellPut t a v) = true := by
  induction t with
  | nil =>
    simp only [cellPut]
    split
    · rfl
    · simpa [cellsWf]
  | cons p t ih =>
    obtain ⟨a', b'⟩ := p
    have h' := (cellsWf_cons a' b' t).1 h
    simp only [cellPut]
    split
    · next h1 =>
      split
      · exact h
      · next h2 =>
        refine (cellsWf_cons ..).2 ⟨h2, fun x hx => ?_, h⟩
        rcases List.mem_cons.1 hx with rfl | hx
        · exact h1
        · have := h'.2.1 x hx; omega
    · split
      · next h2 =>
        subst h2
        split
        · exact h'.2.2
        · next h3 => exact (cellsWf_cons ..).2 ⟨h3, h'.2.1, h'.2.2⟩
      · next h1 h2 =>
        refine (cellsWf_cons ..).2 ⟨h'.1, fun x hx => ?_, ih h'.2.2⟩
        rcases cellPut_mem t a v x hx with hx | hx
        · omega
        · exact h'.2.1 x hx

/-- A put byte reads back, and every other as before. -/
theorem cellGet_cellPut (t : List Host.Cell) (a : Nat) (v : Byte) (b : Nat) (h : cellsWf t = true) :
    cellGet (cellPut t a v) b = if b = a then v else cellGet t b := by
  induction t with
  | nil =>
    simp only [cellPut]
    split
    · next h1 => simp [cellGet, h1]
    · simp only [cellGet, eq_comm]
  | cons p t ih =>
    obtain ⟨a', b'⟩ := p
    have h' := (cellsWf_cons a' b' t).1 h
    simp only [cellPut]
    split
    · next h1 =>
      split
      · next h2 =>
        split
        · next h3 =>
          subst h3
          rw [h2]
          refine cellGet_above _ _ fun x hx => ?_
          rcases List.mem_cons.1 hx with rfl | hx
          · exact h1
          · have := h'.2.1 x hx; omega
        · rfl
      · simp only [cellGet, eq_comm]
    · split
      · next h2 =>
        subst h2
        split
        · next h3 =>
          split
          · next h4 => subst h4; rw [h3]; exact cellGet_above _ _ h'.2.1
          · next h4 => simp only [cellGet]; rw [if_neg (Ne.symm h4)]
        · simp only [cellGet]
          by_cases h4 : b = a
          · subst h4; simp
          · rw [if_neg (Ne.symm h4), if_neg h4, if_neg (Ne.symm h4)]
      · next h1 h2 =>
        simp only [cellGet, ih h'.2.2]
        by_cases h4 : a' = b
        · subst h4; rw [if_pos rfl, if_neg (Ne.symm h2), if_pos rfl]
        · rw [if_neg h4, if_neg h4]

/-- Putting bytes keeps the one form. -/
theorem cellPuts_wf (bs : List Byte) : ∀ (t : List Host.Cell) (a : Nat), cellsWf t = true → cellsWf (cellPuts t a bs) = true := by
  induction bs with
  | nil => intro t a h; exact h
  | cons b bs ih => intro t a h; exact ih _ _ (cellPut_wf t a b h)

/-- Put bytes read back, and every other byte as before. -/
theorem cellGet_cellPuts (bs : List Byte) : ∀ (t : List Host.Cell) (a b : Nat), cellsWf t = true →
    cellGet (cellPuts t a bs) b = if a ≤ b ∧ b < a + bs.length then bs.getD (b - a) 0 else cellGet t b := by
  induction bs with
  | nil =>
    intro t a b h
    rw [if_neg (by simp)]; rfl
  | cons x bs ih =>
    intro t a b h
    simp only [cellPuts, ih _ _ _ (cellPut_wf t a x h), cellGet_cellPut t a x b h, List.length_cons]
    by_cases h1 : b = a
    · subst h1
      rw [if_neg (by omega), if_pos rfl, if_pos (by omega)]
      simp
    · rw [if_neg h1]
      by_cases h2 : a + 1 ≤ b ∧ b < a + 1 + bs.length
      · rw [if_pos h2, if_pos (by omega)]
        rw [show b - a = (b - (a + 1)) + 1 by omega]
        simp
      · rw [if_neg h2, if_neg (by omega)]

/-- What a byte in the cells reads as through a key slot. -/
def Mem.view (m : Mem) (key a : Nat) (b : Byte) : Byte :=
  if isHbm a then
    match m.lineKeys.find (a / 64), m.keys.find key with
    | some k0, some k => if k0 = k then b else (Config.redecrypt k0 k (a / 16) (m.block (a / 16))).extractLsb' (8 * (a % 16)) 8
    | _, _ => b
  else b

theorem byteAt_view (m : Mem) (key a : Nat) : m.byteAt key a = Mem.view m key a (cellGet m.cells a) := rfl

/-- A line holds the key of a slot, where both have one: its bytes read as they stand. -/
def Mem.plain (m : Mem) (key line : Nat) : Prop :=
  isHbm (64 * line) = true → ∀ k0 k, m.lineKeys.find line = some k0 → m.keys.find key = some k → k0 = k

/-- A block lies in one line. -/
theorem block_congr (m m' : Mem) (a : Nat) (h : ∀ x, x / 64 = a / 64 → cellGet m'.cells x = cellGet m.cells x) :
    m'.block (a / 16) = m.block (a / 16) := by
  unfold Mem.block
  congr 2
  refine List.map_congr_left fun i hi => h _ ?_
  have := List.mem_range.1 hi
  omega

/-- A byte's reading depends on its line alone: its cells and its key. -/
theorem byteAt_congr (m m' : Mem) (key a : Nat) (h : ∀ x, x / 64 = a / 64 → cellGet m'.cells x = cellGet m.cells x)
    (hl : m'.lineKeys.find (a / 64) = m.lineKeys.find (a / 64)) (hk : m'.keys = m.keys) : m'.byteAt key a = m.byteAt key a := by
  simp only [Mem.byteAt, h a rfl, hl, hk, block_congr m m' a h]

theorem mem_read_length (m : Mem) (key loc n : Nat) : (m.read key loc n).length = n := by
  induction n generalizing loc with
  | zero => rfl
  | succ n ih => simp [Mem.read, ih]

theorem mem_read_getD (m : Mem) (key loc n i : Nat) (h : i < n) : (m.read key loc n).getD i 0 = m.byteAt key (loc + i) := by
  induction n generalizing loc i with
  | zero => omega
  | succ n ih =>
    simp only [Mem.read]
    cases i with
    | zero => simp
    | succ i =>
      simp only [List.getD_cons_succ]
      rw [ih (loc + 1) i (by omega), show loc + 1 + i = loc + (i + 1) by omega]

theorem isHbm_line (a b : Nat) (h : a / 64 = b / 64) : isHbm a = isHbm b := by
  simp only [isHbm, Config.hbmEnd]
  have : a < 1024000000000 ↔ b < 1024000000000 := by omega
  exact decide_eq_decide.2 this

/-- A line rewritten under another key: its cells hold what was read, under that key. -/
theorem rekey_cases (m : Mem) (key loc : Nat) :
    m.rekey key loc = m ∨ ∃ k, m.rekey key loc =
      { m with cells := cellPuts m.cells (loc / 64 * 64) (m.read key (loc / 64 * 64) 64), lineKeys := m.lineKeys.put (loc / 64) k } := by
  unfold Mem.rekey
  split
  · split
    · next k _ => by_cases h : m.lineKeys.find (loc / 64) = some k
                  · exact .inl (by rw [if_pos h])
                  · exact .inr ⟨k, by rw [if_neg h]⟩
    · exact .inl rfl
  · exact .inl rfl

/-- Rewriting a line under another key keeps the one form. -/
theorem rekey_wf (m : Mem) (key loc : Nat) (h : m.wf) : (m.rekey key loc).wf := by
  rcases rekey_cases m key loc with h1 | ⟨k, h1⟩
  · rw [h1]; exact h
  · have h2 := congrArg Mem.cells h1
    dsimp only at h2
    unfold Mem.wf
    rw [h2]
    exact cellPuts_wf _ _ _ h

theorem rekey_keys (m : Mem) (key loc : Nat) : (m.rekey key loc).keys = m.keys := by
  rcases rekey_cases m key loc with h1 | ⟨k, h1⟩ <;> rw [h1]

theorem rekey_plain (m : Mem) (key loc : Nat) : Mem.plain (m.rekey key loc) key (loc / 64) := by
  intro hh k0 k h0 hk
  rw [isHbm_line (64 * (loc / 64)) loc (by omega)] at hh
  rw [rekey_keys] at hk
  unfold Mem.rekey at h0
  simp only [hh, if_true, hk] at h0
  split at h0
  · next h1 => rw [h1] at h0; exact (Option.some.inj h0).symm
  · simp only [find_put] at h0
    simpa using h0.symm

/-- Through the key that a line holds, its bytes read as they stand. -/
theorem view_plain (m : Mem) (key a : Nat) (b : Byte) (h : Mem.plain m key (a / 64)) : Mem.view m key a b = b := by
  unfold Mem.view
  cases hh : isHbm a with
  | false => rfl
  | true =>
    rw [isHbm_line a (64 * (a / 64)) (by omega)] at hh
    simp only [if_true]
    split
    · next k0 k h0 hk => rw [if_pos (h hh k0 k h0 hk)]
    · rfl

theorem rekey_other (m : Mem) (key loc key' a : Nat) (h : m.wf) (ha : a / 64 ≠ loc / 64) :
    (m.rekey key loc).byteAt key' a = m.byteAt key' a := by
  rcases rekey_cases m key loc with h1 | ⟨k, h1⟩
  · rw [h1]
  · rw [h1]
    refine byteAt_congr _ _ _ _ (fun x hx => ?_) (find_put_ne _ _ _ _ ha) rfl
    rw [cellGet_cellPuts _ _ _ _ h, mem_read_length, if_neg (by omega)]

theorem rekey_same (m : Mem) (key loc a : Nat) (h : m.wf) : (m.rekey key loc).byteAt key a = m.byteAt key a := by
  by_cases ha : a / 64 = loc / 64
  · rw [byteAt_view, view_plain _ _ _ _ (ha ▸ rekey_plain m key loc)]
    unfold Mem.rekey
    cases hb : isHbm loc with
    | false => simp [Mem.byteAt, isHbm_line a loc ha, hb]
    | true =>
      simp only [if_true]
      cases hk : m.keys.find key with
      | none =>
        simp only [Mem.byteAt, hk]
        split
        · split
          · next h2 => cases h2
          · rfl
        · rfl
      | some k =>
        simp only
        split
        · next h1 => simp [Mem.byteAt, ha, h1, hk]
        · rw [cellGet_cellPuts _ _ _ _ h, mem_read_length, if_pos (by omega), mem_read_getD _ _ _ _ _ (by omega)]
          congr 1
          omega
  · exact rekey_other m key loc key a h ha

/-- A write within one line keeps the one form. -/
theorem writeLine_wf (m : Mem) (key loc : Nat) (bs : List Byte) (h : m.wf) : (m.writeLine key loc bs).wf :=
  cellPuts_wf _ _ _ (rekey_wf m key loc h)

theorem writeLine_other (m : Mem) (key loc key' a : Nat) (bs : List Byte) (h : m.wf) (hb : loc % 64 + bs.length ≤ 64) (ha : a / 64 ≠ loc / 64) :
    (m.writeLine key loc bs).byteAt key' a = m.byteAt key' a := by
  rw [← rekey_other m key loc key' a h ha]
  refine byteAt_congr _ _ _ _ (fun x hx => ?_) rfl rfl
  simp only [Mem.writeLine]
  rw [cellGet_cellPuts _ _ _ _ (rekey_wf m key loc h), if_neg (by omega)]

theorem writeLine_same (m : Mem) (key loc a : Nat) (bs : List Byte) (h : m.wf) (hb : loc % 64 + bs.length ≤ 64) :
    (m.writeLine key loc bs).byteAt key a = if loc ≤ a ∧ a < loc + bs.length then bs.getD (a - loc) 0 else m.byteAt key a := by
  by_cases ha : a / 64 = loc / 64
  · have hp : Mem.plain (m.rekey key loc) key (a / 64) := ha ▸ rekey_plain m key loc
    have hw : Mem.plain (m.writeLine key loc bs) key (a / 64) := hp
    rw [byteAt_view, view_plain _ _ _ _ hw]
    simp only [Mem.writeLine]
    rw [cellGet_cellPuts _ _ _ _ (rekey_wf m key loc h)]
    split
    · rfl
    · rw [← rekey_same m key loc a h, byteAt_view, view_plain _ _ _ _ hp]
  · rw [writeLine_other m key loc key a bs h hb ha, if_neg (by omega)]

theorem writeGo_spec (fuel : Nat) : ∀ (m : Mem) (key loc : Nat) (bs : List Byte), m.wf → loc % 64 + bs.length ≤ 64 * fuel →
    (m.writeGo key loc bs fuel).wf ∧
    (∀ a, (m.writeGo key loc bs fuel).byteAt key a = if loc ≤ a ∧ a < loc + bs.length then bs.getD (a - loc) 0 else m.byteAt key a) ∧
    (∀ key' a, a / 64 < loc / 64 ∨ (loc + bs.length + 63) / 64 ≤ a / 64 → (m.writeGo key loc bs fuel).byteAt key' a = m.byteAt key' a) := by
  induction fuel with
  | zero =>
    intro m key loc bs h hl
    refine ⟨h, fun a => ?_, fun _ _ _ => rfl⟩
    rw [if_neg (by omega)]; rfl
  | succ n ih =>
    intro m key loc bs h hl
    rw [Mem.writeGo]
    by_cases he : bs.isEmpty
    · rw [if_pos he]
      simp only [List.isEmpty_iff] at he
      subst he
      refine ⟨h, fun a => ?_, fun _ _ _ => rfl⟩
      rw [if_neg (by simp)]
    · rw [if_neg he]
      have hne : 0 < bs.length := List.length_pos_iff.2 (by simpa using he)
      have hlen : (bs.take (64 - loc % 64)).length = min (64 - loc % 64) bs.length := List.length_take
      have hle : loc % 64 + (bs.take (64 - loc % 64)).length ≤ 64 := by
        rw [hlen]; omega
      have hd : (bs.drop (64 - loc % 64)).length = bs.length - (64 - loc % 64) := List.length_drop
      have hw := writeLine_wf m key loc (bs.take (64 - loc % 64)) h
      obtain ⟨h1, h2, h3⟩ := ih (m.writeLine key loc (bs.take (64 - loc % 64))) key (loc + (64 - loc % 64)) (bs.drop (64 - loc % 64)) hw
        (by rw [hd]; omega)
      refine ⟨h1, fun a => ?_, fun key' a ha => ?_⟩
      · rw [h2, writeLine_same m key loc a _ h hle, hd, hlen]
        by_cases hc : bs.length ≤ 64 - loc % 64
        · rw [if_neg (by omega), show min (64 - loc % 64) bs.length = bs.length from Nat.min_eq_right hc]
          split
          · rw [List.take_of_length_le hc]
          · rfl
        · rw [show min (64 - loc % 64) bs.length = 64 - loc % 64 from Nat.min_eq_left (by omega)]
          by_cases hx : loc + (64 - loc % 64) ≤ a ∧ a < loc + (64 - loc % 64) + (bs.length - (64 - loc % 64))
          · rw [if_pos hx, if_pos (by omega)]
            rw [List.getD_eq_getElem?_getD, List.getD_eq_getElem?_getD, List.getElem?_drop]
            congr 2
            omega
          · rw [if_neg hx]
            by_cases hy : loc ≤ a ∧ a < loc + (64 - loc % 64)
            · rw [if_pos hy, if_pos (by omega)]
              rw [List.getD_eq_getElem?_getD, List.getD_eq_getElem?_getD, List.getElem?_take, if_pos (by omega)]
            · rw [if_neg hy, if_neg (by omega)]
      · rw [h3 key' a ?_, writeLine_other m key loc key' a _ h hle ?_]
        · rcases ha with ha | ha
          · omega
          · omega
        · rw [hd]
          rcases ha with ha | ha
          · left; omega
          · by_cases hc : bs.length ≤ 64 - loc % 64
            · omega
            · right; omega

/-- A write keeps the one form; its bytes read back through its key slot; every other byte reads as before through that slot, and bytes of other lines through every slot. -/
theorem write_spec (m : Mem) (key loc : Nat) (bs : List Byte) (h : m.wf) :
    (m.write key loc bs).wf ∧
    (∀ a, (m.write key loc bs).byteAt key a = if loc ≤ a ∧ a < loc + bs.length then bs.getD (a - loc) 0 else m.byteAt key a) ∧
    (∀ key' a, a / 64 < loc / 64 ∨ (loc + bs.length + 63) / 64 ≤ a / 64 → (m.write key loc bs).byteAt key' a = m.byteAt key' a) :=
  writeGo_spec _ m key loc bs h (by omega)

end Sys2Proof.Machine
end

