-- ==== Sys2Proof/Laws/Access.lean ====
section
/-!
SUPPORT. Laws of loads, stores and atomics: what an access leaves, what a store and a load of one target do, and what draining held-back stores does.
-/
namespace Sys2Proof.Machine

theorem walkGo_sys (fuel : Nat) : ∀ (s : State) (asid va table : Nat), (s.walkGo asid va table fuel).1.sys = s.sys := by
  induction fuel with
  | zero => intros; rfl
  | succ n ih =>
    intro s asid va table
    have huse : ∀ (u : State) (e : DWord), u.sys = s.sys →
        (if !pteValid e then (u, WalkRes.invalid)
         else if pteMalformed n e then (u, .malformed n e)
         else
          let u := if 1 ≤ n then
            u.setMem { u.mem with walkCache := ((u.mem.walkCache.filter (fun c => !(c.1 = asid ∧ c.2.1 = n ∧ c.2.2.1 = va / 2 ^ levelShift n))) ++
              [(asid, n, va / 2 ^ levelShift n, e)]).reverse.take 256 |>.reverse } else u
          if pteLeaf e then (u, .leaf e (levelShift n)) else State.walkGo u asid va (pteAddr e) n).1.sys = s.sys := by
      intro u e hu
      split
      · exact hu
      · split
        · exact hu
        · dsimp only
          split
          · split <;> exact hu
          · rw [ih]
            split <;> exact hu
    rw [State.walkGo]
    dsimp only
    split
    · exact huse s _ rfl
    · split
      · rfl
      · split
        · rfl
        · exact huse s.arrived _ rfl

theorem tlbLookup_sys (s : State) (u : TlbUnit) (asid root va : Nat) : (s.tlbLookup u asid root va).1.sys = s.sys := by
  have h := walkGo_sys 5 s asid (va % 2 ^ 57 % 2 ^ 57) root
  have h2 : (s.walkTable asid root va).1.sys = s.sys := walkGo_sys 5 s asid (va % 2 ^ 57) root
  rw [State.tlbLookup]
  split
  · rfl
  · split
    · next s1 e log heq => rw [heq] at h2; exact h2
    · exact h2

theorem checkIssue_sys (s : State) (a : Access) : (s.checkIssue a).1.sys = s.sys := by
  rw [State.checkIssue]
  dsimp only
  split
  · rfl
  · split
    · rfl
    · split
      · rfl
      · split
        · split <;> split <;> rfl
        · split
          · rfl
          · have h := tlbLookup_sys s a.unit a.asid a.root a.va.toNat
            split <;> (next heq => rw [heq] at h; exact h)

theorem reach_sys (s : State) (w : Who) (a : Access) : (s.reach w a).1.sys = s.sys := by
  have h := checkIssue_sys s a
  rw [State.reach]
  split
  · next s1 tg heq =>
    rw [heq] at h
    dsimp only
    repeat' split
    all_goals exact h
  · exact h

theorem reach_sys' {s v : State} {w : Who} {a : Access} {r : AccRes} (h : s.reach w a = (v, r)) : v.sys = s.sys := by
  have := reach_sys s w a; rw [h] at this; exact this

theorem check_sys' {s v : State} {a : Access} {r : AccRes} (h : s.checkIssue a = (v, r)) : v.sys = s.sys := by
  have := checkIssue_sys s a; rw [h] at this; exact this

theorem accessLane_ok (s v : State) (l : LaneIn) (a : Access) (tg : Target) (go : State → Target → State × LaneOut)
    (h : s.reach l.who a = (v, .ok tg)) (hp : s.sys.issue.runAhead = none) :
    s.accessLane l a go = go (v.modThread l.who (fun t => t.accessOk s.sys.issue.pc)) tg := by
  have hs := reach_sys' h
  simp only [State.accessLane, h, State.ahead, hs, hp, Option.isSome_none, Bool.false_eq_true, if_false]

theorem memAccess_lane (s : State) (l : LaneIn) (k : AccKind) (m : MemAddr) (t : Ty) :
    s.memAccess l k m t false = s.laneAccess l.who k (effAddr m l.t (tySize t)) (tySize t) (tySize t) := by
  simp only [State.memAccess, State.laneAccess]
  repeat' split
  all_goals rfl

theorem laneAccess_size (s : State) (w : Who) (k : AccKind) (va : DWord) (n al : Nat) : (s.laneAccess w k va n al).size = n := by
  simp only [State.laneAccess]
  repeat' split
  all_goals rfl

theorem bytesOf_length (n x : Nat) : (bytesOf n x).length = n := by
  induction n generalizing x with
  | zero => rfl
  | succ n ih => simp [bytesOf, ih]

theorem ty_bits_le (t : Ty) : t.bits ≤ 64 := by cases t <;> decide

theorem storeBytes_length (t : Ty) (v : DWord) : (storeBytes t v).length ≤ 8 := by
  have := ty_bits_le t
  unfold storeBytes
  rw [bytesOf_length, tySize]
  omega

theorem coalesce_one (tg : Target) (bs : List Byte) (h : bs.length ≤ 8) : coalesce [(tg, bs)] = [(tg, bs)] := by
  simp only [coalesce, List.foldl_cons, List.foldl_nil, addOnce, List.contains_nil, Bool.false_eq_true, if_false, List.nil_append,
    List.flatMap_cons, List.flatMap_nil, List.append_nil, List.filter_cons, decide_true, if_true, List.filter_nil]
  show List.flatMap _ [tg.loc / 64] = _
  simp only [List.flatMap_cons, List.flatMap_nil, List.append_nil, decide_true, if_true]
  rw [if_neg]
  intro hall
  simp only [List.all_eq_true, List.mem_map, List.mem_range, forall_exists_index, and_imp, forall_apply_eq_imp_iff₂] at hall
  have key : ∀ i, i < 64 → tg.loc ≤ tg.loc / 64 * 64 + i ∧ tg.loc / 64 * 64 + i < tg.loc + bs.length := by
    intro i hi
    have h1 := hall i hi
    by_cases hn : tg.loc ≤ tg.loc / 64 * 64 + i ∧ tg.loc / 64 * 64 + i < tg.loc + bs.length
    · exact hn
    · rw [List.filter_cons, if_neg] at h1
      · simp at h1
      · simpa using hn
  have h0 := key 0 (by omega)
  have h63 := key 63 (by omega)
  omega

/-- One lane's store is performed on its own. -/
theorem jointLine_one (w : Who) (tg : Target) (bs : List Byte) (h : bs.length ≤ 8) : jointLine [(w, tg, bs)] = false := by
  simp only [jointLine, List.map_cons, List.map_nil, coalesce_one tg bs h, List.any_cons, List.any_nil, Bool.or_false, Bool.or_eq_false_iff]
  constructor
  · have := List.length_filter_le (fun q : Who × Target × List Byte => meets tg.loc bs.length q.2.1.loc q.2.2.length) [(w, tg, bs)]
    simp only [List.length_singleton] at this
    simpa using this
  · simp only [decide_eq_false_iff_not]
    omega

/-- Stores to lines of their own are each performed by themselves, in lane order. -/
theorem storeAll_apart (s : State) (ps : List (Who × Target × List Byte)) (hb : ∀ p ∈ ps, p.2.2.length ≤ 8)
    (hd : ps.Pairwise (fun p q => p.2.1.loc / 64 ≠ q.2.1.loc / 64)) :
    s.storeAll ps = ps.foldl (fun (s : State) p => s.storeTarget p.1 p.2.1 p.2.2)
      (ps.foldl (fun (s : State) p => s.modThread p.1 (fun t => t.accessOk s.sys.issue.pc)) s) := by
  have hone : ∀ ln, jointLine (ps.filter (fun p => decide (p.2.1.loc / 64 = ln))) = false := by
    intro ln
    have hp := hd.filter (fun p : Who × Target × List Byte => decide (p.2.1.loc / 64 = ln))
    have hm : ∀ p ∈ ps.filter (fun p : Who × Target × List Byte => decide (p.2.1.loc / 64 = ln)), p.2.1.loc / 64 = ln ∧ p.2.2.length ≤ 8 := by
      intro p hp
      rw [List.mem_filter, decide_eq_true_eq] at hp
      exact ⟨hp.2, hb p hp.1⟩
    generalize ps.filter (fun p : Who × Target × List Byte => decide (p.2.1.loc / 64 = ln)) = qs at hp hm
    match qs with
    | [] => rfl
    | [(w, tg, bs)] => exact jointLine_one w tg bs (hm _ (List.mem_cons_self ..)).2
    | p :: q :: qs =>
      have h1 := (hm p (List.mem_cons_self ..)).1
      have h2 := (hm q (List.mem_cons_of_mem _ (List.mem_cons_self ..))).1
      exact absurd (h1.trans h2.symm) ((List.pairwise_cons.1 hp).1 q (List.mem_cons_self ..))
  have hj : ∀ ls : List Nat, ls.filter (fun ln => jointLine (ps.filter (fun p => decide (p.2.1.loc / 64 = ln)))) = [] := by
    intro ls
    rw [List.filter_eq_nil_iff]
    intro ln _
    rw [hone]
    exact Bool.false_ne_true
  simp only [State.storeAll]
  rw [hj]
  simp only [List.foldl_nil, List.contains_nil, Bool.not_false]
  rw [List.filter_eq_self.2 (fun _ _ => rfl)]

/-! ### What accesses leave of the issue record -/

theorem foldl_issue {α : Type} (f : State → α → State) (h : ∀ s x, (f s x).sys.issue = s.sys.issue) (l : List α) (s : State) :
    (l.foldl f s).sys.issue = s.sys.issue := foldl_keeps (·.sys.issue) f h l s
theorem performStores_issue (s : State) (q : PendStore → Bool) : (s.performStores q).sys.issue = s.sys.issue := by
  simp only [State.performStores]
  exact foldl_issue _ (fun s p => congrArg _ (performOne_sys s p)) _ _
theorem drainOf_issue (s : State) (w : Who) : (s.drainOf w).sys.issue = s.sys.issue := congrArg _ (drainOf_sys s w)
theorem acquire_issue (s : State) (w : Who) (c : Nat) (sc : Scope) : (s.acquire w c sc).sys.issue = s.sys.issue := performStores_issue s _
theorem release_issue (s : State) (w : Who) (sc : Scope) : (s.release w sc).sys.issue = s.sys.issue := by
  cases sc with
  | core | cluster => rfl
  | dev | dom => exact drainOf_issue s w
theorem holdLine_issue (s : State) (tg : Target) (o : Bool) : (s.holdLine tg o).sys.issue = s.sys.issue := by
  unfold State.holdLine; split <;> rfl
theorem fillLine_issue (s : State) (c ln : Nat) : (s.fillLine c ln).1.sys.issue = s.sys.issue := by
  simp only [State.fillLine]
  split <;> rfl
theorem sawWrite_issue (s : State) (w : Who) (loc n q : Nat) : (s.sawWrite w loc n q).sys.issue = s.sys.issue := by
  simp only [State.sawWrite]
  split <;> rfl
theorem viewBytes_issue (s : State) (req : Wrote → Bool) (fill : Option Nat) (key loc n : Nat) :
    (s.viewBytes req fill key loc n).1.sys.issue = s.sys.issue := by
  simp only [State.viewBytes]
  split
  · rfl
  · split <;> rfl
theorem readHome_issue (s : State) (w : Who) (c key loc n : Nat) : (s.readHome w c key loc n).1.sys.issue = s.sys.issue := by
  simp only [State.readHome]
  split
  · split
    · rfl
    · exact sawWrite_issue ..
  · rfl
theorem loadValue_issue (s : State) (w : Who) (c key loc n : Nat) (h : Bool) : (s.loadValue w c key loc n h).1.sys.issue = s.sys.issue := by
  cases h with
  | true => exact readHome_issue ..
  | false => simp only [State.loadValue, Bool.false_eq_true, if_false, sawWrite_issue, viewBytes_issue, fillLine_issue]
theorem loadAt_issue (s : State) (w : Who) (tg : Target) (n : Nat) : (s.loadAt w tg n).1.sys.issue = s.sys.issue := by
  unfold State.loadAt
  split
  · split
    · exact holdLine_issue ..
    · rfl
  · next c k i =>
    have hp : (if isRemote tg.loc = true then (s.holdLine tg false).freeBytes n
        else s.loadValue (.lane c k i) c tg.key tg.loc n (tg.tso || tg.line)).1.sys.issue = s.sys.issue := by
      split
      · exact holdLine_issue ..
      · exact loadValue_issue ..
    dsimp only
    split
    · exact (acquire_issue ..).trans hp
    · exact hp
theorem loadTarget_issue (s : State) (w : Who) (tg : Target) (n : Nat) : (s.loadTarget w tg n).1.sys.issue = s.sys.issue := by
  unfold State.loadTarget
  split
  · rfl
  · exact loadAt_issue ..
theorem dropCopies_issue (s : State) (loc : Nat) : (s.dropCopies loc).sys.issue = s.sys.issue := by
  simp only [State.dropCopies]
  split <;> rfl
theorem storeValue_issue (s : State) (w : Who) (core key loc : Nat) (bs : List Byte) (h : Bool) (due : Option Nat) :
    (s.storeValue w core key loc bs h due).sys.issue = s.sys.issue := by
  simp only [State.storeValue]
  split
  · exact drainOf_issue s w
  · rfl
theorem storeAt_issue (s : State) (w : Who) (tg : Target) (bs : List Byte) : (s.storeAt w tg bs).sys.issue = s.sys.issue := by
  unfold State.storeAt
  split
  · split
    · exact holdLine_issue ..
    · split <;> rfl
  · next c k i =>
    have hr : (if tg.tso then s.release (.lane c k i) .dev else s).sys.issue = s.sys.issue := by
      split
      · exact release_issue ..
      · rfl
    dsimp only
    split
    · exact (holdLine_issue ..).trans hr
    · rw [storeValue_issue]
      split
      · exact (dropCopies_issue ..).trans hr
      · exact hr
theorem performWalkAt_issue (s : State) (w : Who) (loc : Nat) : (s.performWalkAt w loc).sys.issue = s.sys.issue := by
  simp only [State.performWalkAt]
  split
  · simp only [State.performBlockStores]
    exact foldl_issue _ (fun s p => by first | rfl | (split <;> rfl)) _ _
  · rfl
theorem atomicAt_issue (s : State) (w : Who) (sc : Scope) (o : AtomOrder) (tg : Target) (n : Nat) (f : Nat → Option Nat × Flags) :
    (s.atomicAt w sc o tg n f).1.sys.issue = s.sys.issue := by
  have h1 : (s.beforeAtomic w tg.loc).sys.issue = s.sys.issue := by
    unfold State.beforeAtomic
    split
    · exact performWalkAt_issue ..
    · exact drainOf_issue ..
  have h2 : ∀ u : State, (u.afterAtomic w sc o).sys.issue = u.sys.issue := by
    intro u
    unfold State.afterAtomic
    split
    · rfl
    · split
      · exact acquire_issue ..
      · rfl
  have h3 : ∀ u : State, (if isRemote tg.loc then u.freeBytes n else u.readHome w (u.coreOf w) tg.key tg.loc n).1.sys.issue = u.sys.issue := by
    intro u
    split
    · rfl
    · exact readHome_issue ..
  unfold State.atomicAt
  have h4 := (h3 (s.beforeAtomic w tg.loc)).trans h1
  generalize hu : (if isRemote tg.loc then (s.beforeAtomic w tg.loc).freeBytes n
    else (s.beforeAtomic w tg.loc).readHome w ((s.beforeAtomic w tg.loc).coreOf w) tg.key tg.loc n) = r at h4
  dsimp only
  rw [h2, hu]
  split
  · split
    · exact (holdLine_issue ..).trans h4
    · show (ite _ _ _ : State).sys.issue = _
      split
      · exact (dropCopies_issue ..).trans h4
      · exact h4
  · exact h4
theorem prefetch_issue (s : State) (w : Who) (va : DWord) : (s.prefetch w va).sys.issue = s.sys.issue := by
  simp only [State.prefetch]
  split
  · split
    · simp only [State.prefetchLine]
      split
      · rfl
      · exact fillLine_issue ..
    · rfl
  · rfl
theorem gatherOne_issue (s : State) (c : Nat) (g : GatherReq) : (s.gatherOne c g).sys.issue = s.sys.issue := by
  unfold State.gatherOne
  dsimp only
  split
  · rfl
  · split
    · split <;> rfl
    · exact loadAt_issue ..
theorem gatherGroup_issue (s : State) (c : Nat) (g : GatherReq) : (s.gatherGroup c g).sys.issue = s.sys.issue := by
  unfold State.gatherGroup
  dsimp only
  rw [foldl_issue _ (fun s x => gatherOne_issue s c x)]
  split
  · exact performStores_issue ..
  · rfl
theorem flushGather_issue (s : State) (w : Who) : (s.flushGather w).sys.issue = s.sys.issue := by
  unfold State.flushGather
  refine foldl_issue _ (fun s g => ?_) _ _
  split
  · exact gatherGroup_issue ..
  · rfl

theorem modCore_core (s : State) (c : Nat) (f : Core → Core) : (s.modCore c f).core c = f (s.core c) := by
  simp only [State.modCore, State.setCore, State.core, find_put, Option.getD_some]

/-! ### Writes and held-back stores -/

theorem rekey_stores (m : Mem) (key loc : Nat) : (m.rekey key loc).stores = m.stores := by
  rcases rekey_cases m key loc with h | ⟨k, h⟩ <;> rw [h]

theorem writeGo_stores (fuel : Nat) : ∀ (m : Mem) (key loc : Nat) (bs : List Byte), (m.writeGo key loc bs fuel).stores = m.stores := by
  induction fuel with
  | zero => intros; rfl
  | succ n ih =>
    intro m key loc bs
    rw [Mem.writeGo]
    split
    · rfl
    · rw [ih]; exact rekey_stores ..

/-- A write performed at its home takes no held-back store with it. -/
theorem write_stores (s : State) (p : Party) (key loc : Nat) (bs : List Byte) : (s.write p key loc bs).mem.stores = s.mem.stores :=
  writeGo_stores ..

theorem write_wf (s : State) (p : Party) (key loc : Nat) (bs : List Byte) (h : s.mem.wf) : (s.write p key loc bs).mem.wf :=
  (write_spec s.mem key loc bs h).1

/-- A write's bytes read back through its key; every other byte reads through it as before. -/
theorem write_byteAt (s : State) (p : Party) (key loc a : Nat) (bs : List Byte) (h : s.mem.wf) :
    (s.write p key loc bs).mem.byteAt key a = if loc ≤ a ∧ a < loc + bs.length then bs.getD (a - loc) 0 else s.mem.byteAt key a :=
  (write_spec s.mem key loc bs h).2.1 a

theorem performOne_stores (s : State) (p : PendStore) : (s.performOne p).mem.stores = s.mem.stores := by
  simp only [State.performOne]
  split
  · rfl
  · exact write_stores ..

theorem performOne_wf (s : State) (p : PendStore) (h : s.mem.wf) : (s.performOne p).mem.wf := by
  simp only [State.performOne]
  split
  · exact h
  · exact write_wf _ _ _ _ _ h

theorem foldl_performOne (ps : List PendStore) : ∀ s : State,
    (ps.foldl State.performOne s).mem.stores = s.mem.stores ∧ (s.mem.wf → (ps.foldl State.performOne s).mem.wf) := by
  induction ps with
  | nil => intro s; exact ⟨rfl, id⟩
  | cons p ps ih =>
    intro s
    have h := ih (s.performOne p)
    exact ⟨h.1.trans (performOne_stores s p), fun hs => h.2 (performOne_wf s p hs)⟩

/-- What performing chosen stores leaves held back, and that memory keeps its form. -/
theorem performStores_mem (s : State) (q : PendStore → Bool) :
    (s.performStores q).mem.stores = (splitStores q s.mem.stores).2 ∧ (s.mem.wf → (s.performStores q).mem.wf) := by
  have h := foldl_performOne (splitStores q s.mem.stores).1 (s.setMem { s.mem with stores := (splitStores q s.mem.stores).2 })
  exact ⟨h.1, fun hs => h.2 hs⟩

/-- No chosen store is left. -/
theorem splitStores_rest (q : PendStore → Bool) (l : List PendStore) : ∀ x ∈ (splitStores q l).2, q x = false := by
  induction l with
  | nil => intro x hx; cases hx
  | cons y l ih =>
    intro x hx
    simp only [splitStores] at hx
    split at hx
    · exact ih x hx
    · next h =>
      rcases List.mem_cons.1 hx with rfl | hx
      · simp only [Bool.or_eq_true, not_or, Bool.not_eq_true] at h; exact h.1
      · exact ih x hx

/-- The chosen stores, where they are chosen by their thread. -/
theorem splitStores_own (w : Who) (l : List PendStore) : ∀ x ∈ (splitStores (fun p => decide (p.who = w)) l).1, x ∈ l ∧ x.who = w := by
  induction l with
  | nil => intro x hx; cases hx
  | cons y l ih =>
    intro x hx
    simp only [splitStores] at hx
    split at hx
    · next h =>
      rcases List.mem_cons.1 hx with rfl | hx
      · refine ⟨List.mem_cons_self .., ?_⟩
        simp only [Bool.or_eq_true, decide_eq_true_eq, List.any_eq_true] at h
        rcases h with h | ⟨z, hz, h⟩
        · exact h
        · exact h.symm.trans (ih z hz).2
      · exact ⟨List.mem_cons_of_mem _ (ih x hx).1, (ih x hx).2⟩
    · exact ⟨List.mem_cons_of_mem _ (ih x hx).1, (ih x hx).2⟩

/-- Performing stores changes no byte off their lines. -/
theorem foldl_performOne_byteAt (k a : Nat) (ps : List PendStore)
    (h : ∀ p ∈ ps, a / 64 < p.loc / 64 ∨ (p.loc + p.bytes.length + 63) / 64 ≤ a / 64) :
    ∀ s : State, s.mem.wf → (ps.foldl State.performOne s).mem.byteAt k a = s.mem.byteAt k a := by
  induction ps with
  | nil => intro s _; rfl
  | cons p ps ih =>
    intro s hs
    rw [List.foldl_cons, ih (fun q hq => h q (List.mem_cons_of_mem _ hq)) _ (performOne_wf s p hs)]
    simp only [State.performOne]
    split
    · rfl
    · exact (write_spec s.mem p.key p.loc p.bytes hs).2.2 k a (h p (List.mem_cons_self ..))

theorem drainOf_byteAt (s : State) (w : Who) (k a : Nat) (hs : s.mem.wf)
    (h : ∀ p ∈ s.ownStores w, a / 64 < p.loc / 64 ∨ (p.loc + p.bytes.length + 63) / 64 ≤ a / 64) :
    (s.drainOf w).mem.byteAt k a = s.mem.byteAt k a := by
  refine foldl_performOne_byteAt k a _ (fun p hp => h p ?_) (s.setMem { s.mem with stores := (splitStores _ s.mem.stores).2 }) hs
  obtain ⟨h1, h2⟩ := splitStores_own w _ p hp
  exact List.mem_filter.2 ⟨h1, by simpa using h2⟩

theorem drainOf_own (s : State) (w : Who) : (s.drainOf w).ownStores w = [] := by
  simp only [State.ownStores, State.drainOf, (performStores_mem s _).1, List.filter_eq_nil_iff]
  intro x hx
  simpa using splitStores_rest _ _ x hx

/-! ### What a load sees -/

theorem lay_length (bs : List Byte) (loc place : Nat) (new : List Byte) : (lay bs loc place new).length = bs.length := by
  simp [lay]

theorem lay_own (bs : List Byte) (loc : Nat) (new : List Byte) (h : bs.length = new.length) : lay bs loc loc new = new := by
  refine List.ext_getElem? fun i => ?_
  simp only [lay, List.getElem?_map, h]
  by_cases hi : i < new.length
  · rw [List.getElem?_range hi]
    simp [hi]
  · rw [List.getElem?_eq_none (by simpa using hi), List.getElem?_eq_none (by omega)]
    rfl

theorem overlay_length (ps : List PendStore) : ∀ (bs : List Byte) (loc : Nat), (overlay bs loc ps).length = bs.length := by
  induction ps with
  | nil => intros; rfl
  | cons p ps ih => intro bs loc; exact (ih _ _).trans (lay_length ..)

theorem overlay_append (bs : List Byte) (loc : Nat) (ps : List PendStore) (p : PendStore) :
    overlay bs loc (ps ++ [p]) = lay (overlay bs loc ps) loc p.loc p.bytes := by
  simp only [overlay, List.foldl_append, List.foldl_cons, List.foldl_nil]

theorem viewGo_length (req : Wrote → Bool) (back : Nat → Wrote → Bool) (loc : Nat) (es : List Wrote) :
    ∀ (bs : List Byte) (i : Nat), (viewGo req back loc bs i es).1.length = bs.length := by
  induction es with
  | nil => intros; rfl
  | cons e es ih =>
    intro bs i
    simp only [viewGo]
    split
    · exact ih ..
    · split
      · rfl
      · exact (ih _ _).trans (lay_length ..)

theorem viewBytes_spec (s : State) (req : Wrote → Bool) (fill : Option Nat) (key loc n : Nat) :
    (s.viewBytes req fill key loc n).2.1.length = n ∧ (s.viewBytes req fill key loc n).1.mem = s.mem := by
  simp only [State.viewBytes]
  split
  · exact ⟨mem_read_length .., rfl⟩
  · split
    · exact ⟨mem_read_length .., rfl⟩
    · exact ⟨(viewGo_length ..).trans (mem_read_length ..), rfl⟩

theorem fillLine_stores (s : State) (core line : Nat) : (s.fillLine core line).1.mem.stores = s.mem.stores := by
  simp only [State.fillLine]
  split <;> rfl

/-- What a thread sees changes nothing of memory but which writes a host load may precede. -/
theorem sawWrite_mem (s : State) (w : Who) (loc n seq : Nat) : ∃ l, (s.sawWrite w loc n seq).mem = { s.mem with early := l } := by
  simp only [State.sawWrite]
  split
  · exact ⟨s.mem.early, rfl⟩
  · exact ⟨[], rfl⟩

theorem sawWrite_stores (s : State) (w : Who) (loc n seq : Nat) : (s.sawWrite w loc n seq).mem.stores = s.mem.stores := by
  obtain ⟨l, h⟩ := sawWrite_mem s w loc n seq
  rw [h]

theorem readHome_spec (s : State) (w : Who) (core key loc n : Nat) :
    (∃ l, (s.readHome w core key loc n).1.mem = { s.mem with early := l }) ∧
      (s.readHome w core key loc n).2 = s.mem.read key loc n := by
  refine ⟨?_, rfl⟩
  simp only [State.readHome]
  split
  · split
    · exact ⟨[], rfl⟩
    · exact sawWrite_mem ..
  · exact ⟨s.mem.early, rfl⟩

/-- A load of n bytes lays the thread's own stores over n bytes found at the homes; the load takes no store with it. -/
theorem loadValue_spec (s : State) (w : Who) (core key loc n : Nat) (atHome : Bool) :
    (s.loadValue w core key loc n atHome).1.mem.stores = s.mem.stores ∧
    ∃ bs, bs.length = n ∧ (atHome = true → bs = s.mem.read key loc n) ∧
      (s.loadValue w core key loc n atHome).2 = overlay bs loc (s.ownStores w) := by
  cases atHome with
  | true =>
    obtain ⟨⟨l, h⟩, h2⟩ := readHome_spec s w core key loc n
    have h3 : (s.loadValue w core key loc n true).1.mem.stores = s.mem.stores := by simp only [State.loadValue, if_true, h]
    refine ⟨h3, s.mem.read key loc n, mem_read_length .., fun _ => rfl, ?_⟩
    simp only [State.loadValue, if_true, State.ownStores, h, h2]
  | false =>
    have h1 := fillLine_stores s core (loc / 64)
    have h2 := viewBytes_spec (s.fillLine core (loc / 64)).1 (State.requiredFor (s.fillLine core (loc / 64)).1 w core key loc n)
      (some (s.fillLine core (loc / 64)).2) key loc n
    have h3 : (s.loadValue w core key loc n false).1.mem.stores = s.mem.stores := by
      simp only [State.loadValue, Bool.false_eq_true, if_false, sawWrite_stores, h2.2, h1]
    refine ⟨h3, _, h2.1, (by intro h; cases h), ?_⟩
    simp only [State.loadValue, Bool.false_eq_true, if_false, State.ownStores, sawWrite_stores, h2.2, h1]

theorem mem_read_ext (m : Mem) (key loc : Nat) (bs : List Byte) (h : ∀ i, i < bs.length → m.byteAt key (loc + i) = bs.getD i 0) :
    m.read key loc bs.length = bs := by
  refine List.ext_getElem? fun i => ?_
  by_cases hi : i < bs.length
  · have h1 := mem_read_getD m key loc bs.length i hi
    rw [h i hi] at h1
    rw [List.getD_eq_getElem?_getD, List.getD_eq_getElem?_getD] at h1
    have h2 : i < (m.read key loc bs.length).length := by rw [mem_read_length]; exact hi
    rw [List.getElem?_eq_getElem h2, List.getElem?_eq_getElem hi] at h1 ⊢
    simpa using h1
  · rw [List.getElem?_eq_none (by rw [mem_read_length]; omega), List.getElem?_eq_none (by omega)]

/-- What was written reads back at the home. -/
theorem write_read (s : State) (p : Party) (key loc : Nat) (bs : List Byte) (h : s.mem.wf) :
    (s.write p key loc bs).mem.read key loc bs.length = bs := by
  refine mem_read_ext _ _ _ _ fun i hi => ?_
  rw [write_byteAt s p key loc (loc + i) bs h, if_pos (by omega)]
  congr 1
  omega

end Sys2Proof.Machine
end

