-- ==== Sys2Proof/Laws/Arithmetic.lean ====
section
/-!
SUPPORT. Laws of shifts by every amount, and integer division.
-/
namespace Sys2Proof.Machine

theorem sshr_of_ge (x : Word) (k : Nat) (h : 32 ≤ k) : x.sshiftRight 31 = if x.msb then 0xFFFFFFFF else 0 := by
  cases hm : x.msb
  · apply BitVec.eq_of_toNat_eq
    rw [BitVec.toNat_sshiftRight_of_msb_false hm]
    have := BitVec.toNat_lt_of_msb_false hm
    simp [Nat.shiftRight_eq_div_pow]; omega
  · apply BitVec.eq_of_toNat_eq
    rw [BitVec.toNat_sshiftRight_of_msb_true hm]
    have := BitVec.toNat_ge_of_msb_true hm
    have := x.isLt
    simp [Nat.shiftRight_eq_div_pow]; omega

theorem sshr_of_lt (x : Word) (k : Nat) (h : k < 32) :
    x.sshiftRight k = BitVec.ofNat 32 (x.toNat / 2 ^ k + (if x.msb then (2 ^ k - 1) * 2 ^ (32 - k) else 0)) := by
  have hx := x.isLt
  cases hm : x.msb
  · apply BitVec.eq_of_toNat_eq
    rw [BitVec.toNat_sshiftRight_of_msb_false hm]
    simp [Nat.shiftRight_eq_div_pow]
    exact (Nat.mod_eq_of_lt (Nat.lt_of_le_of_lt (Nat.div_le_self _ _) hx)).symm
  · apply BitVec.eq_of_toNat_eq
    rw [BitVec.toNat_sshiftRight_of_msb_true hm]
    have := BitVec.toNat_ge_of_msb_true hm
    simp only [Nat.shiftRight_eq_div_pow, BitVec.toNat_ofNat, if_true]
    have e : k = 0 ∨ k = 1 ∨ k = 2 ∨ k = 3 ∨ k = 4 ∨ k = 5 ∨ k = 6 ∨ k = 7 ∨ k = 8 ∨ k = 9 ∨ k = 10 ∨ k = 11 ∨ k = 12 ∨ k = 13 ∨ k = 14 ∨ k = 15 ∨ k = 16 ∨ k = 17 ∨ k = 18 ∨ k = 19 ∨ k = 20 ∨ k = 21 ∨ k = 22 ∨ k = 23 ∨ k = 24 ∨ k = 25 ∨ k = 26 ∨ k = 27 ∨ k = 28 ∨ k = 29 ∨ k = 30 ∨ k = 31 := by omega
    rcases e with rfl | rfl | rfl | rfl | rfl | rfl | rfl | rfl | rfl | rfl | rfl | rfl | rfl | rfl | rfl | rfl | rfl | rfl | rfl | rfl | rfl | rfl | rfl | rfl | rfl | rfl | rfl | rfl | rfl | rfl | rfl | rfl <;> simp <;> omega

theorem arith_eq (x : Word) (k : Nat) : x.sshiftRight (Nat.min k 31) = (if 32 ≤ k then (if x.msb then 0xFFFFFFFF else 0)
      else BitVec.ofNat 32 (x.toNat / 2 ^ k + (if x.msb then (2 ^ k - 1) * 2 ^ (32 - k) else 0))) := by
  by_cases h : 32 ≤ k
  · rw [if_pos h, show Nat.min k 31 = 31 by simp [Nat.min_def]; omega]; exact sshr_of_ge x k h
  · rw [if_neg h, show Nat.min k 31 = k by simp [Nat.min_def]; omega]; exact sshr_of_lt x k (by omega)

theorem left_eq (x : Word) (k : Nat) : x <<< k = (if 32 ≤ k then 0 else BitVec.ofNat 32 (x.toNat * 2 ^ k)) := by
  by_cases h : 32 ≤ k
  · rw [if_pos h]; apply BitVec.eq_of_toNat_eq; simp [Nat.shiftLeft_eq]
    exact Nat.mod_eq_zero_of_dvd (Nat.dvd_trans (Nat.pow_dvd_pow 2 h) (Nat.dvd_mul_left _ _))
  · rw [if_neg h]; apply BitVec.eq_of_toNat_eq; simp [Nat.shiftLeft_eq]

theorem right_eq (x : Word) (k : Nat) : x >>> k = (if 32 ≤ k then 0 else BitVec.ofNat 32 (x.toNat / 2 ^ k)) := by
  have hx := x.isLt
  by_cases h : 32 ≤ k
  · rw [if_pos h]; apply BitVec.eq_of_toNat_eq; simp [Nat.shiftRight_eq_div_pow]
    exact Nat.lt_of_lt_of_le hx (Nat.pow_le_pow_right (by omega) h)
  · rw [if_neg h]; apply BitVec.eq_of_toNat_eq; simp [Nat.shiftRight_eq_div_pow]
    exact (Nat.mod_eq_of_lt (Nat.lt_of_le_of_lt (Nat.div_le_self _ _) hx)).symm

theorem wrapTo_cast (n : Nat) (i : Int) : ((wrapTo n i : Nat) : Int) = i % 2 ^ n := by
  have h : (0 : Int) < ((2 ^ n : Nat) : Int) := by exact_mod_cast Nat.two_pow_pos n
  have : 0 ≤ i % ((2 ^ n : Nat) : Int) := Int.emod_nonneg _ (by omega)
  rw [wrapTo, Int.toNat_of_nonneg this]; simp

theorem intVal_eq (t : Ty) (x : Nat) (hx : x < 2 ^ t.bits) :
    intVal t x = if t.isSigned ∧ 2 ^ (t.bits - 1) ≤ x then (x : Int) - 2 ^ t.bits else x := by
  have hm : x % 2 ^ t.bits = x := Nat.mod_eq_of_lt hx
  cases t <;> simp [intVal, signedOf, Ty.isSigned, Ty.bits] at * <;> omega

theorem elem_get (vs : List DWord) (w i : Nat) : (vs.map (fun v => elemAt w v 0)).getD i 0 = elemAt w (vs.getD i 0) 0 := by
  have : elemAt w 0 0 = 0 := by simp [elemAt]
  rw [List.getD_eq_getElem?_getD, List.getD_eq_getElem?_getD, List.getElem?_map]
  cases vs[i]? with
  | none => exact this.symm
  | some v => rfl

theorem div_ok (t : Ty) (x y : Nat) (hy : y < 2 ^ t.bits) : intVal t y = 0 ↔ y = 0 := by
  rw [intVal_eq t y hy]
  cases t <;> simp [Ty.isSigned, Ty.bits] at * <;> omega

end Sys2Proof.Machine
end

