-- ==== Sys2Proof/Laws/Control.lean ====
section
/-!
SUPPORT. Laws of the shared operations of control and synchronisation: what they answer where their object is there, and what they leave.
-/
namespace Sys2Proof.Machine

theorem seqN {s s' : State} {sp : LaneSpec} {ls : List LaneIn} (h : LaneReady s sp s' ls) (f : State → LaneIn → State × LaneOut)
    (g : State → LaneIn → LaneOut) (hf : ∀ l ∈ ls, f (s.acting s' sp) l = (s.acting s' sp, g (s.acting s' sp) l))
    (hg : ∀ l, (g (s.acting s' sp) l).fault = none ∧ (g (s.acting s' sp) l).page = none) :
    (Host.Outcome.next (s.runSeq sp f) : Host.Outcome State Fault Refusal) = .next (s.eachDone s' sp ls g) :=
  runLanes_next h _ g (foldLanes_map _ _ _ _ hf) hg

theorem modThread_eq (s : State) (w : Who) (t : Thread) (f g : Thread → Thread) (h : s.thread w = some t) (hfg : f t = g t) :
    s.modThread w f = s.modThread w g := by
  simp only [State.thread] at h
  simp only [State.modThread, Table.upd, h, hfg]

theorem check_reg (sp : LaneSpec) (s : State) (w : Who) (t : Thread) (h : sp.regs = []) (hk : sp.knows t = true) :
    sp.laneCheck s w t = sp.check s w t := by
  simp [LaneSpec.laneCheck, h, hk]

theorem ready_teams (s : State) (w : Who) : (s.ready w).teams = s.teams ∧ (s.ready w).front = s.front := by
  simp only [State.ready, State.wakeCore]
  split <;> exact ⟨rfl, rfl⟩

theorem write_teams (s : State) (p : Party) (key loc : Nat) (bs : List Byte) :
    ((s.write p key loc bs).teams, (s.write p key loc bs).front) = (s.teams, s.front) := rfl

theorem performStores_teams (s : State) (q : PendStore → Bool) :
    ((s.performStores q).teams, (s.performStores q).front) = (s.teams, s.front) := by
  have h : ∀ (u : State) (p : PendStore), ((u.performOne p).teams, (u.performOne p).front) = (u.teams, u.front) := by
    intro u p
    simp only [State.performOne]
    split <;> rfl
  simp only [State.performStores]
  exact foldl_keeps (fun (u : State) => (u.teams, u.front)) _ (fun u p => h u p) _ _

/-- An acquire changes no team and no grid. -/
theorem acquire_teams (s : State) (w : Who) (core : Nat) (sc : Scope) :
    ((s.acquire w core sc).teams, (s.acquire w core sc).front) = (s.teams, s.front) := performStores_teams s _

theorem acquireRanges_teams (s : State) (w : Who) (core : Nat) (rs : List Seen) :
    ((s.acquireRanges w core rs).teams, (s.acquireRanges w core rs).front) = (s.teams, s.front) := by
  simp only [State.acquireRanges]
  refine foldl_keeps (fun (u : State) => (u.teams, u.front)) _ (fun u x => ?_) _ _
  split
  · simp only [State.sawWrite]
    split <;> rfl
  · rfl

theorem barAcquire_teams (s : State) (w : Who) (b : Bar) :
    ((s.barAcquire w b).teams, (s.barAcquire w b).front) = (s.teams, s.front) := by
  simp only [State.barAcquire]
  rw [acquireRanges_teams]
  cases b.kind with
  | team => exact acquire_teams ..
  | gang => exact acquire_teams ..
  | engine => rfl

theorem barWake_teams (s : State) (b : Bar) (w : Who) :
    (((s.barAcquire w b).readyPast w 4).teams, ((s.barAcquire w b).readyPast w 4).front) = (s.teams, s.front) := by
  have h := ready_teams ((s.barAcquire w b).modThread w (fun t => { t with pc := t.pc + dw 4 })) w
  rw [State.readyPast, h.1, h.2]
  exact barAcquire_teams s w b

theorem bar_of (s u : State) (h : (u.teams, u.front) = (s.teams, s.front)) (t : TeamId) (n : Nat) : u.bar t n = s.bar t n := by
  obtain ⟨h1, h2⟩ := Prod.mk.inj h
  simp only [State.bar, State.team, State.grid, h1, h2]

theorem modBar_own (s : State) (t : TeamId) (v : Team) (n : Nat) (b : Bar) (f : Bar → Bar) (hv : s.team t = some v)
    (hb : v.bars.find n = some b) :
    ∃ v', (s.modBar t n f).team t = some v' ∧ v'.bars.find n = some (f b) := by
  refine ⟨{ v with bars := v.bars.upd n f }, ?_, ?_⟩
  · have hm : s.modBar t n f = s.modTeam t (fun v => { v with bars := v.bars.upd n f }) := by
      simp only [State.modBar, hv, hb, Option.isSome_some, if_true]
    rw [hm]
    show (s.teams.upd t _).find t = _
    rw [find_upd, show s.teams.find t = some v from hv]
    rfl
  · rw [find_upd, hb]
    rfl

theorem bar_own (s : State) (t : TeamId) (v : Team) (n : Nat) (b : Bar) (hv : s.team t = some v)
    (hb : v.bars.find n = some b) : s.bar t n = some b := by
  simp [State.bar, hv, hb]

theorem hankOp_live (s u : State) (l : LaneIn) (va : DWord) (w : Bool) (op : State → Nat → Hank → State × LaneOut)
    (loc : Nat) (h0 : Hank) (h : s.hankAt l.who va w = (u, .live loc h0)) :
    s.hankOp l va w op =
      op (u.modThread l.who (fun t => t.accessOk u.sys.issue.pc)) loc { h0 with lastOp := u.now, reported := false } := by
  simp [State.hankOp, h]

/-- A ring entry whose line is not poisoned is read (R423, R231). -/
theorem ringEntry_clean (s : State) (loc : Nat) (va : DWord) (h : s.mem.poisoned loc 8 = false) :
    s.ringEntry loc va = .ok (dw (numOfBytes (s.mem.read 0 loc 8))) := by
  unfold State.ringEntry
  exact if_neg (by rw [h]; exact Bool.false_ne_true)

end Sys2Proof.Machine
end

