-- ==== Sys2Proof/Laws/Devices.lean ====
section
/-!
SUPPORT. Laws of the shared operations of the device steps.
-/
namespace Sys2Proof.Machine

theorem insertNat_mem (l : List Nat) (a y : Nat) (h : y ∈ insertNat l a) : y = a ∨ y ∈ l := by
  induction l with
  | nil => simp [insertNat] at h; exact .inl h
  | cons b l ih =>
    simp only [insertNat] at h
    split at h
    · simpa using h
    · split at h
      · exact .inr h
      · rcases List.mem_cons.1 h with h | h
        · exact .inr (by rw [h]; exact List.mem_cons_self ..)
        · rcases ih h with h | h
          · exact .inl h
          · exact .inr (List.mem_cons_of_mem _ h)

theorem thread_modThread (s : State) (w : Who) (f : Thread → Thread) : (s.modThread w f).thread w = (s.thread w).map f :=
  find_upd _ _ _

theorem thread_modThread_ne (s : State) {w v : Who} (h : v ≠ w) (f : Thread → Thread) : (s.modThread w f).thread v = s.thread v :=
  find_upd_ne _ _ _ _ h

theorem team_modTeam (s : State) (t : TeamId) (f : Team → Team) : (s.modTeam t f).team t = (s.team t).map f := find_upd _ _ _

theorem team_modTeam_ne (s : State) {t u : TeamId} (h : u ≠ t) (f : Team → Team) : (s.modTeam t f).team u = s.team u :=
  find_upd_ne _ _ _ _ h

theorem setAccs_find (core : Nat) (vs : List Nat) : ∀ (s : State) (i key : Nat),
    (s.setAccs core i vs).accs.find key =
      if accKey core i ≤ key ∧ key < accKey core i + vs.length then some (dw (vs.getD (key - accKey core i) 0)) else s.accs.find key := by
  induction vs with
  | nil => intro s i key; rw [if_neg (by simp)]; rfl
  | cons v vs ih =>
    intro s i key
    rw [State.setAccs, ih]
    have hk : accKey core (i + 1) = accKey core i + 1 := by simp only [accKey]; omega
    rw [hk]
    simp only [List.length_cons]
    by_cases h0 : key = accKey core i
    · subst h0
      rw [if_neg (by omega), if_pos (by omega)]
      simp [State.setAcc, find_put]
    · by_cases h1 : accKey core i + 1 ≤ key ∧ key < accKey core i + 1 + vs.length
      · rw [if_pos h1, if_pos (by omega)]
        congr 2
        rw [show key - accKey core i = (key - (accKey core i + 1)) + 1 by omega]
        simp
      · rw [if_neg h1, if_neg (by omega)]
        simp only [State.setAcc]
        exact find_put_ne _ _ _ _ h0

theorem setAccs_cores (core : Nat) (vs : List Nat) : ∀ (s : State) (i : Nat), (s.setAccs core i vs).cores = s.cores := by
  induction vs with
  | nil => intros; rfl
  | cons v vs ih => intro s i; rw [State.setAccs, ih]; rfl

theorem barLoc_some {bar off n l : Nat}
    (h : (bar = 2 ∧ off + n ≤ Config.hbmEnd ∧ l = off) ∨ (bar = 4 ∧ off + n ≤ Config.cores * Config.sliceBytes ∧ l = Config.tileBase + off)) :
    barLoc bar off n = some l ∧ bar ≠ 0 := by
  rcases h with ⟨rfl, h, rfl⟩ | ⟨rfl, h, rfl⟩ <;> simp [barLoc, h]

theorem barLoc_none {bar off n : Nat}
    (h : (bar = 2 ∧ Config.hbmEnd < off + n) ∨ (bar = 4 ∧ Config.cores * Config.sliceBytes < off + n)) :
    barLoc bar off n = none ∧ bar ≠ 0 := by
  rcases h with ⟨rfl, h⟩ | ⟨rfl, h⟩ <;> simp [barLoc] <;> omega

theorem numOfBytes_bytesOf (c n : Nat) : numOfBytes (bytesOf c n) = n % 256 ^ c := by
  induction c generalizing n with
  | zero => simp [bytesOf, numOfBytes, Nat.mod_one]
  | succ c ih =>
    simp only [bytesOf, numOfBytes, ih, BitVec.toNat_ofNat]
    have h : n % 256 ^ (c + 1) = n % 256 + 256 * (n / 256 % 256 ^ c) := by rw [Nat.pow_succ', Nat.mod_mul]
    rw [h]

theorem bytesOf_length_devices (c n : Nat) : (bytesOf c n).length = c := by
  induction c generalizing n with
  | zero => rfl
  | succ c ih => simp [bytesOf, ih]

theorem bytesOf_mod (c n : Nat) : bytesOf c (n % 256 ^ c) = bytesOf c n := by
  induction c generalizing n with
  | zero => rfl
  | succ c ih =>
    simp only [bytesOf]
    rw [Nat.pow_succ', Nat.mod_mul, ← ih (n / 256)]
    have h1 : BitVec.ofNat 8 (n % 256 + 256 * (n / 256 % 256 ^ c)) = BitVec.ofNat 8 n := by
      apply BitVec.eq_of_toNat_eq
      simp only [BitVec.toNat_ofNat]
      omega
    have h2 : (n % 256 + 256 * (n / 256 % 256 ^ c)) / 256 = n / 256 % 256 ^ c := by omega
    rw [h1, h2]

theorem merge_full (x v : Nat) : merge x v (2 ^ 64 - 1) = v % 2 ^ 64 := by
  simp [merge, Nat.and_two_pow_sub_one_eq_mod v 64]

theorem ctlWrite_full (s : State) (h : Bool) (o : Nat) (v : DWord) (ho : o % 8 = 0) :
    s.ctlWrite h o (bytesOf 8 v.toNat) = s.ctlWrite8 h o v.toNat (2 ^ 64 - 1) := by
  have h2 : o / 8 * 8 = o := by omega
  have h3 : v.toNat % 256 ^ 8 = v.toNat := Nat.mod_eq_of_lt (by have := v.isLt; omega)
  simp only [State.ctlWrite, ho, numOfBytes_bytesOf, bytesOf_length_devices, h3, h2, Nat.mul_zero, Nat.pow_zero, Nat.mul_one]

theorem write8 (s : State) (o : Nat) (v : DWord) (ho : o % 8 = 0) :
    exec (.registerWrite o 8 v) s = .next (s.ctlWrite8 true o v.toNat (2 ^ 64 - 1)) := by
  show execRegisterWrite o 8 v s = _
  simp only [execRegisterWrite]
  rw [if_neg (by omega)]
  have h1 : (bytesOf 8 v.toNat).take 8 = bytesOf 8 v.toNat := List.take_of_length_le (Nat.le_of_eq (bytesOf_length_devices ..))
  have h4 : (bytesOf 8 v.toNat).drop 8 = [] := List.drop_of_length_le (Nat.le_of_eq (bytesOf_length_devices ..))
  have h5 : (bytesOf 8 v.toNat).isEmpty = false := by simp [bytesOf]
  simp only [State.ctlBytes, h5, ho, Nat.sub_zero, h1, h4, ctlWrite_full s _ o v ho, List.isEmpty_nil, if_true, Bool.false_eq_true, if_false]

theorem throttle_range (p : Plat) (a b c : Nat) (h1 : 1 ≤ p.pwFrac) (h2 : p.pwFrac ≤ 16) :
    1 ≤ (p.throttle a b c).pwFrac ∧ (p.throttle a b c).pwFrac ≤ 16 := by
  simp only [Plat.throttle]
  split
  · next h => simp only [Bool.and_eq_true, decide_eq_true_eq] at h; dsimp only; omega
  · split
    · next h => simp only [Bool.and_eq_true, decide_eq_true_eq] at h; dsimp only; omega
    · exact ⟨h1, h2⟩

theorem throttle_keeps (p : Plat) (a b c : Nat) : (p.throttle a b c).samples = p.samples ∧ (p.throttle a b c).pwAvg = p.pwAvg := by
  simp only [Plat.throttle]
  split
  · exact ⟨rfl, rfl⟩
  · split <;> exact ⟨rfl, rfl⟩

theorem cellGet_filter (m : List Host.Cell) (p : Nat → Bool) (a : Nat) :
    cellGet (m.filter (fun c => p c.1)) a = if p a then cellGet m a else 0 := by
  induction m with
  | nil => simp [cellGet]
  | cons c m ih =>
    obtain ⟨x, b⟩ := c
    by_cases hx : p x = true
    · simp only [List.filter_cons, hx, if_true, cellGet]
      by_cases h : x = a
      · subst h; simp [hx]
      · simp only [if_neg h]; exact ih
    · simp only [List.filter_cons, hx, cellGet, if_false, Bool.false_eq_true]
      rw [ih]
      by_cases h : x = a
      · subst h; simp [hx]
      · simp only [if_neg h]

theorem foldl_plat {α : Type} (f : State → α → State) (hf : ∀ s a, (f s a).plat = s.plat) (l : List α) (s : State) :
    (l.foldl f s).plat = s.plat := foldl_keeps (·.plat) f hf l s

theorem tfind_put {κ α : Type} [DecidableEq κ] (t : Table κ α) (k : κ) (v : α) : (t.put k v).find k = some v := by
  induction t with
  | nil => simp [Table.put, Table.find]
  | cons x t ih =>
    obtain ⟨k', v'⟩ := x
    simp only [Table.put]
    split
    · next h => simp [Table.find]
    · next h => simp only [Table.find, if_neg h]; exact ih

theorem dirEntry_setDir (s : State) (line : Nat) (e : DirEntry)
    (h : (!e.copied s.dom.dev && e.owner.isNone && e.waiting.isEmpty && !e.ownerLost) = false) : (s.setDir line e).dirEntry line = e := by
  simp only [State.setDir, h, Bool.false_eq_true, if_false, State.dirEntry]
  show ((s.dom.dir.put line e).find line).getD {} = e
  rw [tfind_put]; rfl

theorem grantThreads_dir (s : State) (line l : Nat) : (s.grantThreads line).dirEntry l = s.dirEntry l := rfl

/-- A request that waits takes no room. -/
theorem dirCount_waiting (s : State) (line : Nat) (w : List (Nat × Bool)) (hw : w.isEmpty = false) :
    (s.setDir line { waiting := w }).dirCount ≤ s.dirCount := by
  have hd : (s.setDir line { waiting := w }).dom.dir = s.dom.dir.put line { waiting := w } := by
    simp [State.setDir, hw]
  have hg : ∀ self, DirEntry.granted { waiting := w } self = false := fun _ => rfl
  have hv : (s.setDir line { waiting := w }).dom.dev = s.dom.dev := rfl
  simp only [State.dirCount, hd, hv]
  generalize s.dom.dir = t
  induction t with
  | nil => simp [Table.put, hg]
  | cons x t ih =>
    obtain ⟨k', v'⟩ := x
    simp only [Table.put]
    split
    · simp only [List.filter_cons, hg, Bool.false_eq_true, if_false]
      split <;> simp
    · simp only [List.filter_cons]
      split
      · simpa using ih
      · exact ih

theorem freshGrant (s : State) (dev line : Nat) (st : Bool) (hd : dev ≠ s.dom.dev) (he : s.dirEntry line = {})
    (hc : s.dirCount < dirCapacity) :
    (s.dirRequest dev line st).dirEntry line = (if st then { owner := some dev } else { copies := [dev] } : DirEntry) := by
  have e1 : (s.setDir line { (({} : DirEntry)) with waiting := [(dev, st)] }).dirEntry line = { waiting := [(dev, st)] } :=
    dirEntry_setDir _ _ _ (by simp)
  have e2 : (s.setDir line { (({} : DirEntry)) with waiting := [(dev, st)] }).dom.dev = s.dom.dev := rfl
  have e3 : (s.setDir line { (({} : DirEntry)) with waiting := [(dev, st)] }).dirCount < dirCapacity :=
    Nat.lt_of_le_of_lt (dirCount_waiting s line [(dev, st)] rfl) hc
  simp only [State.dirRequest, he, List.not_mem_nil, if_false, List.nil_append]
  generalize hu : s.setDir line { (({} : DirEntry)) with waiting := [(dev, st)] } = u at *
  have hg : ∀ self, ({ waiting := [(dev, st)] } : DirEntry).granted self = false := fun _ => rfl
  simp only [State.dirRun, e1, List.length_singleton, State.dirServe, Bool.false_eq_true, if_false, e2, hd, State.dirRecall, hg,
    if_pos e3, if_true]
  have hw : ∀ e : DirEntry, (!e.copied u.dom.dev && e.owner.isNone && !e.ownerLost) = false → e.waiting = [] →
      ((u.setDir line e).grantThreads line).dirEntry line = e := by
    intro e h h2
    rw [grantThreads_dir, dirEntry_setDir]
    rw [h2]; simpa using h
  have hcp : DirEntry.copied { copies := [dev] } u.dom.dev = true := by simp [DirEntry.copied, e2, hd]
  cases st
  · have hgr : ({ waiting := [(dev, false)] } : DirEntry).grant s.dom.dev dev false = { copies := [dev], waiting := [(dev, false)] } := by
      simp [DirEntry.grant, addOnce]
    have h1 := hw { copies := [dev] } (by rw [hcp]; rfl) rfl
    simp only [hgr, h1, Bool.false_eq_true, if_false]
  · have hgr : ({ waiting := [(dev, true)] } : DirEntry).grant s.dom.dev dev true = { owner := some dev, waiting := [(dev, true)] } := by
      simp [DirEntry.grant, hd]
    have h1 := hw { owner := some dev } (by simp) rfl
    simp only [hgr, h1, if_true]

end Sys2Proof.Machine
end

