-- ==== Sys2Proof/Laws/Encoding.lean ====
section
/-!
SUPPORT. What each field of an encoded word decodes to: the byte and bit-range fields of the two word layouts (R139, R141),
each operand code, type, packing, rounding and number field, and the forms that several instructions share. The lemma of
each instruction is in PerInstr.lean.
-/
namespace Sys2Proof

@[simp] theorem bind_ok {α β : Type} (x : α) (f : α → Dec β) : (Except.ok x >>= f) = f x := rfl
theorem word4_toNat {op d a b : Nat} (h0 : op < 256) (h1 : d < 256) (h2 : a < 256) (h3 : b < 256) :
    (word4 op d a b).toNat = op * 2 ^ 24 + d * 2 ^ 16 + a * 2 ^ 8 + b := by
  simp only [word4, BitVec.toNat_ofNat]; omega
theorem opcodeOf_word4 {op d a b : Nat} (h0 : op < 256) (h1 : d < 256) (h2 : a < 256) (h3 : b < 256) : opcodeOf (word4 op d a b) = op % 128 := by
  simp only [opcodeOf, field, word4_toNat h0 h1 h2 h3]; omega
theorem isUForm_word4 {op d a b : Nat} (h0 : op < 256) (h1 : d < 256) (h2 : a < 256) (h3 : b < 256) : isUForm (word4 op d a b) = decide (128 ≤ op) := by
  simp only [isUForm, field, word4_toNat h0 h1 h2 h3]
  by_cases h : 128 ≤ op
  · simp only [h, decide_true, beq_iff_eq]; omega
  · simp only [h, decide_false, beq_eq_false_iff_ne, ne_eq]; omega
theorem fD_word4 {op d a b : Nat} (h0 : op < 256) (h1 : d < 256) (h2 : a < 256) (h3 : b < 256) : fD (word4 op d a b) = d := by
  simp only [fD, field, word4_toNat h0 h1 h2 h3]; omega
theorem fA_word4 {op d a b : Nat} (h0 : op < 256) (h1 : d < 256) (h2 : a < 256) (h3 : b < 256) : fA (word4 op d a b) = a := by
  simp only [fA, field, word4_toNat h0 h1 h2 h3]; omega
theorem fB_word4 {op d a b : Nat} (h0 : op < 256) (h1 : d < 256) (h2 : a < 256) (h3 : b < 256) : fB (word4 op d a b) = b := by
  simp only [fB, field, word4_toNat h0 h1 h2 h3]; omega
theorem f230_word4 {op d a b : Nat} (h0 : op < 256) (h1 : d < 256) (h2 : a < 256) (h3 : b < 256) : field (word4 op d a b) 23 0 = d * 2 ^ 16 + a * 2 ^ 8 + b := by
  simp only [field, word4_toNat h0 h1 h2 h3]; omega
theorem f238_word4 {op d a b : Nat} (h0 : op < 256) (h1 : d < 256) (h2 : a < 256) (h3 : b < 256) : field (word4 op d a b) 23 8 = d * 2 ^ 8 + a := by
  simp only [field, word4_toNat h0 h1 h2 h3]; omega
theorem f150_word4 {op d a b : Nat} (h0 : op < 256) (h1 : d < 256) (h2 : a < 256) (h3 : b < 256) : field (word4 op d a b) 15 0 = a * 2 ^ 8 + b := by
  simp only [field, word4_toNat h0 h1 h2 h3]; omega
theorem f232_word4 {op d a b : Nat} (h0 : op < 256) (h1 : d < 256) (h2 : a < 256) (h3 : b < 256) : field (word4 op d a b) 23 2 = (d * 2 ^ 16 + a * 2 ^ 8 + b) / 4 := by
  simp only [field, word4_toNat h0 h1 h2 h3]; omega
/-- A field inside the b byte. -/
theorem fb_word4 {op d a b hi lo : Nat} (h0 : op < 256) (h1 : d < 256) (h2 : a < 256) (h3 : b < 256) (hl : lo ≤ hi) (hh : hi < 8) :
    field (word4 op d a b) hi lo = b / 2 ^ lo % 2 ^ (hi - lo + 1) := by
  simp only [field, word4_toNat h0 h1 h2 h3]
  have h : lo = 0 ∨ lo = 1 ∨ lo = 2 ∨ lo = 3 ∨ lo = 4 ∨ lo = 5 ∨ lo = 6 ∨ lo = 7 := by omega
  have g : hi = 0 ∨ hi = 1 ∨ hi = 2 ∨ hi = 3 ∨ hi = 4 ∨ hi = 5 ∨ hi = 6 ∨ hi = 7 := by omega
  rcases h with rfl | rfl | rfl | rfl | rfl | rfl | rfl | rfl <;>
    rcases g with rfl | rfl | rfl | rfl | rfl | rfl | rfl | rfl <;> first | (exfalso; omega) | (simp only [Nat.reduceSub, Nat.reduceAdd, Nat.reducePow]; omega)

theorem word2_toNat {s r t lo : Nat} (h0 : s < 256) (h1 : r < 16) (h2 : t < 16) (h3 : lo < 65536) :
    (word2 s r t lo).toNat = s * 2 ^ 24 + r * 2 ^ 20 + t * 2 ^ 16 + lo := by
  simp only [word2, BitVec.toNat_ofNat]; omega
theorem subOp_word2 {s r t lo : Nat} (h0 : s < 256) (h1 : r < 16) (h2 : t < 16) (h3 : lo < 65536) : subOp (word2 s r t lo) = s := by
  simp only [subOp, field, word2_toNat h0 h1 h2 h3]; omega
theorem rc_word2 {s r t lo : Nat} (h0 : s < 256) (h1 : r < 16) (h2 : t < 16) (h3 : lo < 65536) : field (word2 s r t lo) 23 20 = r := by
  simp only [field, word2_toNat h0 h1 h2 h3]; omega
theorem ty_word2 {s r t lo : Nat} (h0 : s < 256) (h1 : r < 16) (h2 : t < 16) (h3 : lo < 65536) : field (word2 s r t lo) 19 16 = t := by
  simp only [field, word2_toNat h0 h1 h2 h3]; omega
theorem sc_word2 {s r t lo : Nat} (h0 : s < 256) (h1 : r < 16) (h2 : t < 16) (h3 : lo < 65536) : field (word2 s r t lo) 23 22 = r / 4 := by
  simp only [field, word2_toNat h0 h1 h2 h3]; omega
theorem or_word2 {s r t lo : Nat} (h0 : s < 256) (h1 : r < 16) (h2 : t < 16) (h3 : lo < 65536) : field (word2 s r t lo) 21 20 = r % 4 := by
  simp only [field, word2_toNat h0 h1 h2 h3]; omega
theorem f2316_word2 {s r t lo : Nat} (h0 : s < 256) (h1 : r < 16) (h2 : t < 16) (h3 : lo < 65536) : field (word2 s r t lo) 23 16 = r * 16 + t := by
  simp only [field, word2_toNat h0 h1 h2 h3]; omega
theorem f230_word2 {s r t lo : Nat} (h0 : s < 256) (h1 : r < 16) (h2 : t < 16) (h3 : lo < 65536) : field (word2 s r t lo) 23 0 = r * 2 ^ 20 + t * 2 ^ 16 + lo := by
  simp only [field, word2_toNat h0 h1 h2 h3]; omega
/-- A field inside the low half. -/
theorem lo_word2 {s r t lo hi l : Nat} (h0 : s < 256) (h1 : r < 16) (h2 : t < 16) (h3 : lo < 65536) (hl : l ≤ hi) (hh : hi < 16) :
    field (word2 s r t lo) hi l = lo / 2 ^ l % 2 ^ (hi - l + 1) := by
  simp only [field, word2_toNat h0 h1 h2 h3]
  have e : s * 2 ^ 24 + r * 2 ^ 20 + t * 2 ^ 16 + lo = 2 ^ 16 * (s * 2 ^ 8 + r * 2 ^ 4 + t) + lo := by omega
  rw [e]
  generalize s * 2 ^ 8 + r * 2 ^ 4 + t = x
  have e2 : (2 : Nat) ^ 16 = 2 ^ l * (2 ^ (hi - l + 1) * 2 ^ (15 - hi)) := by
    rw [← Nat.pow_add, ← Nat.pow_add]; congr 1; omega
  rw [e2, Nat.mul_assoc, Nat.mul_add_div (Nat.two_pow_pos l), Nat.mul_assoc, Nat.mul_add_mod]

theorem Src.enc_lt (a : Src) : a.enc < 256 := by cases a <;> simp only [Src.enc] <;> omega
theorem Dst.enc_lt (a : Dst) : a.enc < 256 := by cases a <;> simp only [Dst.enc] <;> omega
theorem USrc.enc_lt (a : USrc) : a.enc < 256 := by cases a <;> simp only [USrc.enc] <;> omega
theorem UDst.enc_lt (a : UDst) : a.enc < 256 := by cases a <;> simp only [UDst.enc] <;> omega

theorem fin_ofNat {m : Nat} [NeZero m] (n : Fin m) (x : Nat) (h : x % m = n.val) : Fin.ofNat m x = n := Fin.ext h
@[simp] theorem fin_self {m : Nat} [NeZero m] (n : Fin m) : Fin.ofNat m n.val = n := Fin.ext (Nat.mod_eq_of_lt n.isLt)
@[simp] theorem srcOf_enc (a : Src) : srcOf a.enc = .ok a := by
  cases a with
  | reg n => simp only [Src.enc, srcOf, n.isLt, if_true, fin_self]
  | pop c =>
    rw [show Src.enc (.pop c) = 0x80 + c.val from rfl, srcOf]
    rw [if_neg (by omega), if_pos (by simp only [beq_iff_eq]; omega), fin_ofNat c _ (by omega)]
  | peek c =>
    rw [show Src.enc (.peek c) = 0xC0 + c.val from rfl, srcOf]
    rw [if_neg (by omega), if_neg (by simp only [beq_iff_eq]; omega), if_pos (by simp only [beq_iff_eq]; omega), fin_ofNat c _ (by omega)]
@[simp] theorem dstOf_enc (a : Dst) : dstOf a.enc = .ok a := by
  cases a with
  | reg n => simp only [Dst.enc, dstOf, n.isLt, if_true, fin_self]
  | push c =>
    rw [show Dst.enc (.push c) = 0x80 + c.val from rfl, dstOf]
    rw [if_neg (by omega), if_pos (by simp only [beq_iff_eq]; omega), fin_ofNat c _ (by omega)]
@[simp] theorem usrcOf_enc (a : USrc) : usrcOf a.enc = .ok a := by
  cases a with
  | k n => simp only [USrc.enc, usrcOf, n.isLt, if_true, fin_self]
  | pop c =>
    rw [show USrc.enc (.pop c) = 0x80 + c.val from rfl, usrcOf]
    rw [if_neg (by omega), if_neg (by omega), if_pos (by simp only [beq_iff_eq]; omega), fin_ofNat c _ (by omega)]
  | peek c =>
    rw [show USrc.enc (.peek c) = 0xC0 + c.val from rfl, usrcOf]
    rw [if_neg (by omega), if_neg (by omega), if_neg (by simp only [beq_iff_eq]; omega), if_pos (by simp only [beq_iff_eq]; omega), fin_ofNat c _ (by omega)]
@[simp] theorem udstOf_enc (a : UDst) : udstOf a.enc = .ok a := by
  cases a with
  | k n => simp only [UDst.enc, udstOf, n.isLt, if_true, fin_self]
  | push c =>
    rw [show UDst.enc (.push c) = 0x80 + c.val from rfl, udstOf]
    rw [if_neg (by omega), if_neg (by omega), if_pos (by simp only [beq_iff_eq]; omega), fin_ofNat c _ (by omega)]
@[simp] theorem regOf_val (n : Fin 128) : regOf n.val = .ok n := by simp only [regOf, n.isLt, if_true, fin_self]
@[simp] theorem kOf_val (n : Fin 64) : kOf n.val = .ok n := by simp only [kOf, n.isLt, if_true, fin_self]
@[simp] theorem numOf_val {m : Nat} [NeZero m] (n : Fin m) : numOf m n.val = .ok n := by simp only [numOf, n.isLt, if_true, fin_self]
@[simp] theorem zero_zero : zero 0 = .ok () := rfl
@[simp] theorem tyOf_enc (t : Ty) : tyOf t.enc = t := by cases t <;> rfl
@[simp] theorem packOf_enc (p : Pack) : packOf p.enc = p := by cases p <;> rfl
@[simp] theorem scopeOf_enc (s : Scope) : scopeOf s.enc = s := by cases s <;> rfl
@[simp] theorem orderOf_enc (s : AtomOrder) : orderOf s.enc = s := by cases s <;> rfl
theorem rmodeOf_enc (m : RMode) : rmodeOf m.enc = .ok m := by cases m <;> rfl
@[simp] theorem rcOf_enc (r : Rc) : rcOf r.enc = .ok r := by
  obtain ⟨m, b⟩ := r
  cases m <;> cases b <;> rfl
@[simp] theorem laneOffOf_enc (o : LaneOff) : laneOffOf o.enc = .ok o := by
  cases o with
  | const n =>
    have h : n.val / 64 = 0 := by omega
    rw [show LaneOff.enc (.const n) = n.val from rfl]
    simp only [laneOffOf, h, n.isLt, if_true, fin_self]
  | width n =>
    have h : (64 + n.val) / 64 = 1 := by omega
    have h2 : (64 + n.val) % 64 = n.val := by omega
    rw [show LaneOff.enc (.width n) = 64 + n.val from rfl]
    simp only [laneOffOf, h, h2, n.isLt, if_true, fin_self]
  | widthLess1 n =>
    have h : (128 + n.val) / 64 = 2 := by omega
    have h2 : (128 + n.val) % 64 = n.val := by omega
    rw [show LaneOff.enc (.widthLess1 n) = 128 + n.val from rfl]
    simp only [laneOffOf, h, h2, n.isLt, if_true, fin_self]
theorem LaneOff.enc_lt (o : LaneOff) : o.enc < 256 := by cases o <;> simp only [LaneOff.enc] <;> omega
@[simp] theorem scondOf_enc (c : SCond) : scondOf c.enc = .ok c := by cases c <;> rfl
@[simp] theorem cmpCondOf_enc (c : CmpCond) : cmpCondOf c.enc = .ok c := by cases c <;> rfl
@[simp] theorem redOpOf_enc (c : RedOp) : redOpOf c.enc = .ok c := by cases c <;> rfl
@[simp] theorem movkModeOf_enc (c : MovkMode) : movkModeOf c.enc = .ok c := by cases c <;> rfl
theorem Ty.enc_lt (t : Ty) : t.enc < 16 := by cases t <;> decide
theorem Rc.enc_lt (r : Rc) : r.enc < 16 := by obtain ⟨m, b⟩ := r; cases m <;> cases b <;> decide
theorem Pack.enc_lt (t : Pack) : t.enc < 4 := by cases t <;> decide
theorem Scope.enc_lt (t : Scope) : t.enc < 4 := by cases t <;> decide
theorem AtomOrder.enc_lt (t : AtomOrder) : t.enc < 4 := by cases t <;> decide
theorem SCond.enc_lt (t : SCond) : t.enc < 8 := by cases t <;> decide
theorem CmpCond.enc_lt (t : CmpCond) : t.enc < 8 := by cases t <;> decide
theorem RedOp.enc_lt (t : RedOp) : t.enc < 8 := by cases t <;> decide
theorem MovkMode.enc_lt (t : MovkMode) : t.enc < 256 := by cases t <;> decide
@[simp] theorem bv8_toNat (i : BitVec 8) : bv8 i.toNat = i := by simp [bv8]

theorem f128_lt (n : Fin 128) : n.val < 256 := by omega
theorem f64_lt (n : Fin 64) : n.val < 256 := by omega
theorem f32_lt (n : Fin 32) : n.val < 256 := by omega
theorem f16_lt (n : Fin 16) : n.val < 256 := by omega
theorem f8_lt (n : Fin 8) : n.val < 256 := by omega
theorem f8_lt16 (n : Fin 8) : 8 + n.val < 256 := by omega
theorem b8_lt (n : BitVec 8) : n.toNat < 256 := n.isLt
theorem b5_lt (n : BitVec 5) : n.toNat < 256 := by have := n.isLt; omega
theorem b5_lt' (n : BitVec 5) : n.toNat < 32 := n.isLt
theorem b16_hi (n : BitVec 16) : n.toNat / 256 < 256 := by have := n.isLt; omega
theorem b16_lo (n : BitVec 16) : n.toNat % 256 < 256 := by omega
theorem b16_lt (n : BitVec 16) : n.toNat < 65536 := n.isLt
@[simp] theorem b16_join (n : BitVec 16) : n.toNat / 256 * 256 + n.toNat % 256 = n.toNat := by omega
@[simp] theorem bv16_toNat (i : BitVec 16) : bv16 i.toNat = i := by simp [bv16]

/-- A word of an opcode byte and a 24-bit number. -/
theorem w24_toNat {op x : Nat} (h : op < 256) (hx : x < 2 ^ 24) : (BitVec.ofNat 32 (op * 2 ^ 24 + x)).toNat = op * 2 ^ 24 + x := by
  simp only [BitVec.toNat_ofNat]; omega
theorem opcodeOf_w24 {op x : Nat} (h : op < 256) (hx : x < 2 ^ 24) : opcodeOf (BitVec.ofNat 32 (op * 2 ^ 24 + x)) = op % 128 := by
  simp only [opcodeOf, field, w24_toNat h hx]; omega
theorem isUForm_w24 {op x : Nat} (h0 : op < 256) (hx : x < 2 ^ 24) : isUForm (BitVec.ofNat 32 (op * 2 ^ 24 + x)) = decide (128 ≤ op) := by
  simp only [isUForm, field, w24_toNat h0 hx]
  by_cases h : 128 ≤ op
  · simp only [h, decide_true, beq_iff_eq]; omega
  · simp only [h, decide_false, beq_eq_false_iff_ne, ne_eq]; omega
theorem BrPred.enc_lt (p : Option BrPred) : BrPred.enc p < 32 := by
  cases p with
  | none => decide
  | some p => simp only [BrPred.enc]; split <;> omega
theorem brPredOf_w24 {op : Nat} (p : Option BrPred) (o : BitVec 19) (h : op < 256) :
    brPredOf (BitVec.ofNat 32 (op * 2 ^ 24 + (BrPred.enc p * 2 ^ 19 + o.toNat))) = .ok p := by
  have ho := o.isLt
  have hx := BrPred.enc_lt p
  simp only [brPredOf, field, w24_toNat h (show BrPred.enc p * 2 ^ 19 + o.toNat < 2 ^ 24 by omega)]
  cases p with
  | none =>
    rw [show BrPred.enc none = 0 from rfl]
    rw [if_neg (by simp only [beq_iff_eq]; omega), if_pos (by simp only [beq_iff_eq]; omega)]
  | some p =>
    obtain ⟨ng, n⟩ := p
    have hn := n.isLt
    cases ng
    · rw [show BrPred.enc (some ⟨false, n⟩) = 16 + 0 + n.val from rfl]
      rw [if_pos (by simp only [beq_iff_eq]; omega)]
      congr 3
      · rw [beq_eq_false_iff_ne]; omega
      · apply fin_ofNat; omega
    · rw [show BrPred.enc (some ⟨true, n⟩) = 16 + 8 + n.val from rfl]
      rw [if_pos (by simp only [beq_iff_eq]; omega)]
      congr 3
      · rw [beq_iff_eq]; omega
      · apply fin_ofNat; omega
theorem off19_w24 {op e : Nat} (o : BitVec 19) (h : op < 256) (he : e < 32) :
    BitVec.ofNat 19 (field (BitVec.ofNat 32 (op * 2 ^ 24 + (e * 2 ^ 19 + o.toNat))) 18 0) = o := by
  have ho := o.isLt
  apply BitVec.eq_of_toNat_eq
  simp only [field, w24_toNat h (show e * 2 ^ 19 + o.toNat < 2 ^ 24 by omega), BitVec.toNat_ofNat]
  omega

theorem bool_eq1 (b : Bool) : (boolNat b == 1) = b := by cases b <;> rfl
theorem boundOp_ok (k kSet : Fin 128 → Bool → Bool → Fin 16 → Instr) (op : Nat) (a : Fin 128) (set n dv : Bool) (i : Fin 16) (ho : op < 256) :
    boundOp k kSet (word4 op 0 a.val (boolNat set * 64 + boolNat n * 32 + boolNat dv * 16 + i.val)) =
      .ok (if set then kSet a n dv i else k a n dv i) := by
  have hi := i.isLt
  have ha := a.isLt
  obtain ⟨x, hx⟩ : ∃ x, x = boolNat set * 64 + boolNat n * 32 + boolNat dv * 16 + i.val := ⟨_, rfl⟩
  have hb : x < 128 := by rw [hx]; cases set <;> cases n <;> cases dv <;> simp only [boolNat, if_true, Bool.false_eq_true, if_false] <;> omega
  have e7 : x / 2 ^ 7 % 2 ^ (7 - 7 + 1) = 0 := by omega
  have e5 : x / 2 ^ 5 % 2 ^ (5 - 5 + 1) = boolNat n := by rw [hx]; cases set <;> cases n <;> cases dv <;> simp only [boolNat, if_true, Bool.false_eq_true, if_false] <;> omega
  have e4 : x / 2 ^ 4 % 2 ^ (4 - 4 + 1) = boolNat dv := by rw [hx]; cases set <;> cases n <;> cases dv <;> simp only [boolNat, if_true, Bool.false_eq_true, if_false] <;> omega
  have e6 : x / 2 ^ 6 % 2 ^ (6 - 6 + 1) = boolNat set := by rw [hx]; cases set <;> cases n <;> cases dv <;> simp only [boolNat, if_true, Bool.false_eq_true, if_false] <;> omega
  have e0 : Fin.ofNat 16 (x / 2 ^ 0 % 2 ^ (3 - 0 + 1)) = i := fin_ofNat _ _ (by rw [hx]; cases set <;> cases n <;> cases dv <;> simp only [boolNat, if_true, Bool.false_eq_true, if_false] <;> omega)
  rw [← hx]
  have f : ∀ hi lo, lo ≤ hi → hi < 8 → field (word4 op 0 a.val x) hi lo = x / 2 ^ lo % 2 ^ (hi - lo + 1) :=
    fun hi lo h1 h2 => fb_word4 ho (by omega) (by omega) (by omega) h1 h2
  simp only [boundOp, fD_word4 ho (show 0 < 256 by omega) (show a.val < 256 by omega) (show x < 256 by omega),
    fA_word4 ho (show 0 < 256 by omega) (show a.val < 256 by omega) (show x < 256 by omega), f 7 7 (by omega) (by omega), f 5 5 (by omega) (by omega),
    f 4 4 (by omega) (by omega), f 6 6 (by omega) (by omega), f 3 0 (by omega) (by omega), e7, e5, e4, e6, e0, zero_zero, bind_ok, regOf_val, bool_eq1]
  cases set <;> rfl
theorem bound_lt (set n dv : Bool) (i : Fin 16) : boolNat set * 64 + boolNat n * 32 + boolNat dv * 16 + i.val < 256 := by
  have hi := i.isLt
  cases set <;> cases n <;> cases dv <;> simp only [boolNat, if_true, Bool.false_eq_true, if_false] <;> omega
theorem boundGet_lt (dv : Bool) (i : Fin 16) : boolNat dv * 16 + i.val < 256 := by
  have hi := i.isLt
  cases dv <;> simp only [boolNat, if_true, Bool.false_eq_true, if_false] <;> omega
section
variable {d a b sub r t lo : Nat}
/-- The bounds of the fields of a two-word instruction. -/
structure B4 (d a b : Nat) : Prop where
  d : d < 256
  a : a < 256
  b : b < 256
structure B2 (sub r t lo : Nat) : Prop where
  sub : sub < 256
  r : r < 16
  t : t < 16
  lo : lo < 65536
theorem two_word (h : B4 d a b) : isTwoWord (word4 0x70 d a b) = true ∧ isTwoWord (word4 0x71 d a b) = true ∧ isTwoWord (word4 0xF0 d a b) = true := by
  simp only [isTwoWord, opcodeOf_word4 (show 0x70 < 256 by omega) h.d h.a h.b, opcodeOf_word4 (show 0x71 < 256 by omega) h.d h.a h.b,
    opcodeOf_word4 (show 0xF0 < 256 by omega) h.d h.a h.b]
  decide
theorem raw_page0 (h : B4 d a b) (w2 : Word) : decodeRaw (word4 0x70 d a b) w2 = decodePage0 (word4 0x70 d a b) w2 := by
  simp only [decodeRaw, opcodeOf_word4 (show 0x70 < 256 by omega) h.d h.a h.b, isUForm_word4 (show 0x70 < 256 by omega) h.d h.a h.b]
  rfl
theorem raw_page1 (h : B4 d a b) (w2 : Word) : decodeRaw (word4 0x71 d a b) w2 = decodePage1 (word4 0x71 d a b) w2 := by
  simp only [decodeRaw, opcodeOf_word4 (show 0x71 < 256 by omega) h.d h.a h.b, isUForm_word4 (show 0x71 < 256 by omega) h.d h.a h.b]
  rfl
theorem raw_u (h : B4 d a b) (w2 : Word) : decodeRaw (word4 0xF0 d a b) w2 = decodeUPage0 (word4 0xF0 d a b) w2 := by
  simp only [decodeRaw, opcodeOf_word4 (show 0xF0 < 256 by omega) h.d h.a h.b, isUForm_word4 (show 0xF0 < 256 by omega) h.d h.a h.b]
  rfl
end

theorem fmtOf_ok (f : Fmt) (sub lo : Nat) (h1 : sub < 256) (h2 : lo < 2 ^ 14) :
    fmtOf (word2 sub f.rc.enc f.ty.enc (f.pk.enc * 2 ^ 14 + lo)) = .ok f := by
  have hp := f.pk.enc_lt
  have hl : f.pk.enc * 2 ^ 14 + lo < 65536 := by omega
  simp only [fmtOf, rc_word2 h1 f.rc.enc_lt f.ty.enc_lt hl, ty_word2 h1 f.rc.enc_lt f.ty.enc_lt hl, lo_word2 h1 f.rc.enc_lt f.ty.enc_lt hl (show 14 ≤ 15 by omega) (by omega), rcOf_enc, tyOf_enc, bind_ok]
  have : (f.pk.enc * 2 ^ 14 + lo) / 2 ^ 14 % 2 ^ (15 - 14 + 1) = f.pk.enc := by omega
  rw [this, packOf_enc]
  rfl
theorem lo_fmt (f : Fmt) (sub lo hi l : Nat) (h1 : sub < 256) (h2 : lo < 2 ^ 14) (h3 : l ≤ hi) (h4 : hi < 16) :
    field (word2 sub f.rc.enc f.ty.enc (f.pk.enc * 2 ^ 14 + lo)) hi l = (f.pk.enc * 2 ^ 14 + lo) / 2 ^ l % 2 ^ (hi - l + 1) := by
  have hp := f.pk.enc_lt
  exact lo_word2 h1 f.rc.enc_lt f.ty.enc_lt (by omega) h3 h4

theorem xc3_ok (k : Fmt → Dst → Src → Src → Instr) (sub : Nat) (f : Fmt) (d : Dst) (a b : Src) (h : sub < 256) :
    xc3 k (word4 0x70 d.enc a.enc b.enc) (word2 sub f.rc.enc f.ty.enc (f.pk.enc * 2 ^ 14)) = .ok (k f d a b) := by
  have e := lo_fmt f sub 0 13 0 h (by omega) (by omega) (by omega)
  have z : (f.pk.enc * 2 ^ 14 + 0) / 2 ^ 0 % 2 ^ (13 - 0 + 1) = 0 := by omega
  have g := fmtOf_ok f sub 0 h (by omega)
  rw [Nat.add_zero] at e g
  simp only [xc3, e, g]
  simp only [fD_word4 (show 0x70 < 256 by omega) d.enc_lt a.enc_lt b.enc_lt, fA_word4 (show 0x70 < 256 by omega) d.enc_lt a.enc_lt b.enc_lt,
    fB_word4 (show 0x70 < 256 by omega) d.enc_lt a.enc_lt b.enc_lt, dstOf_enc, srcOf_enc, bind_ok]
  rw [Nat.add_zero] at z
  rw [z]; rfl
theorem xc2_ok (k : Fmt → Dst → Src → Instr) (sub : Nat) (f : Fmt) (d : Dst) (a : Src) (h : sub < 256) :
    xc2 k (word4 0x70 d.enc a.enc 0) (word2 sub f.rc.enc f.ty.enc (f.pk.enc * 2 ^ 14)) = .ok (k f d a) := by
  have e := lo_fmt f sub 0 13 0 h (by omega) (by omega) (by omega)
  have z : (f.pk.enc * 2 ^ 14 + 0) / 2 ^ 0 % 2 ^ (13 - 0 + 1) = 0 := by omega
  have g := fmtOf_ok f sub 0 h (by omega)
  rw [Nat.add_zero] at e g
  simp only [xc2, e, g]
  simp only [fD_word4 (show 0x70 < 256 by omega) d.enc_lt a.enc_lt (show 0 < 256 by omega), fA_word4 (show 0x70 < 256 by omega) d.enc_lt a.enc_lt (show 0 < 256 by omega),
    fB_word4 (show 0x70 < 256 by omega) d.enc_lt a.enc_lt (show 0 < 256 by omega), dstOf_enc, srcOf_enc, bind_ok]
  rw [Nat.add_zero] at z
  rw [z]; rfl
theorem xc4_ok (k : Fmt → Dst → Src → Src → Src → Instr) (sub : Nat) (f : Fmt) (d : Dst) (a b c : Src) (h : sub < 256) :
    xc4 k (word4 0x70 d.enc a.enc b.enc) (word2 sub f.rc.enc f.ty.enc (f.pk.enc * 2 ^ 14 + c.enc)) = .ok (k f d a b c) := by
  have hc := c.enc_lt
  have e := lo_fmt f sub c.enc 13 8 h (by omega) (by omega) (by omega)
  have e2 := lo_fmt f sub c.enc 7 0 h (by omega) (by omega) (by omega)
  have z : (f.pk.enc * 2 ^ 14 + c.enc) / 2 ^ 8 % 2 ^ (13 - 8 + 1) = 0 := by omega
  have z2 : (f.pk.enc * 2 ^ 14 + c.enc) / 2 ^ 0 % 2 ^ (7 - 0 + 1) = c.enc := by omega
  simp only [xc4, e, e2, fmtOf_ok f sub c.enc h (by omega)]
  simp only [fD_word4 (show 0x70 < 256 by omega) d.enc_lt a.enc_lt b.enc_lt, fA_word4 (show 0x70 < 256 by omega) d.enc_lt a.enc_lt b.enc_lt,
    fB_word4 (show 0x70 < 256 by omega) d.enc_lt a.enc_lt b.enc_lt, dstOf_enc, srcOf_enc, bind_ok]
  rw [z, z2, srcOf_enc]; rfl
theorem sub_fmt (f : Fmt) (sub lo : Nat) (h1 : sub < 256) (h2 : lo < 2 ^ 14) : subOp (word2 sub f.rc.enc f.ty.enc (f.pk.enc * 2 ^ 14 + lo)) = sub := by
  have hp := f.pk.enc_lt
  exact subOp_word2 h1 f.rc.enc_lt f.ty.enc_lt (by omega)
theorem sub_fmt0 (f : Fmt) (sub : Nat) (h1 : sub < 256) : subOp (word2 sub f.rc.enc f.ty.enc (f.pk.enc * 2 ^ 14)) = sub := by
  have hp := f.pk.enc_lt
  exact subOp_word2 h1 f.rc.enc_lt f.ty.enc_lt (by omega)
section
variable {d a b sub r t lo op : Nat}
theorem w4d (h : B4 d a b) (ho : op < 256) : fD (word4 op d a b) = d := fD_word4 ho h.d h.a h.b
theorem w4a (h : B4 d a b) (ho : op < 256) : fA (word4 op d a b) = a := fA_word4 ho h.d h.a h.b
theorem w4b (h : B4 d a b) (ho : op < 256) : fB (word4 op d a b) = b := fB_word4 ho h.d h.a h.b
theorem w2s (h : B2 sub r t lo) : subOp (word2 sub r t lo) = sub := subOp_word2 h.sub h.r h.t h.lo
theorem w2r (h : B2 sub r t lo) : field (word2 sub r t lo) 23 20 = r := rc_word2 h.sub h.r h.t h.lo
theorem w2t (h : B2 sub r t lo) : field (word2 sub r t lo) 19 16 = t := ty_word2 h.sub h.r h.t h.lo
theorem w2sc (h : B2 sub r t lo) : field (word2 sub r t lo) 23 22 = r / 4 := sc_word2 h.sub h.r h.t h.lo
theorem w2or (h : B2 sub r t lo) : field (word2 sub r t lo) 21 20 = r % 4 := or_word2 h.sub h.r h.t h.lo
theorem w2rt (h : B2 sub r t lo) : field (word2 sub r t lo) 23 16 = r * 16 + t := f2316_word2 h.sub h.r h.t h.lo
theorem w2all (h : B2 sub r t lo) : field (word2 sub r t lo) 23 0 = r * 2 ^ 20 + t * 2 ^ 16 + lo := f230_word2 h.sub h.r h.t h.lo
theorem w2lo (h : B2 sub r t lo) (hi l : Nat) (hl : l ≤ hi) (hh : hi < 16) : field (word2 sub r t lo) hi l = lo / 2 ^ l % 2 ^ (hi - l + 1) :=
  lo_word2 h.sub h.r h.t h.lo hl hh
end
theorem zero_ok {n : Nat} (h : n = 0) : zero n = .ok () := by rw [h]; rfl
theorem zb {α : Type} {n : Nat} (h : n = 0) (f : Unit → Dec α) : (zero n >>= f) = f () := by rw [h]; rfl
theorem signed32_ok {sub lo : Nat} (s : Bool) (h : B2 sub 0 (encSigned s) lo) : signed32 (word2 sub 0 (encSigned s) lo) = .ok s := by
  rw [signed32, w2r h, zb rfl, w2t h]; cases s <;> rfl
theorem fin_eq {m : Nat} [NeZero m] {x : Nat} (n : Fin m) (h : x = n.val) : Fin.ofNat m x = n := by rw [h]; exact fin_self n
theorem bv_eq {m x : Nat} (n : BitVec m) (h : x = n.toNat) : BitVec.ofNat m x = n := by rw [h]; simp
theorem bool_eq {x : Nat} (b : Bool) (h : x = boolNat b) : (x == 1) = b := by rw [h]; cases b <;> rfl
theorem boolNat_lt (b : Bool) : boolNat b < 2 := by cases b <;> decide
theorem encSigned_lt (s : Bool) : encSigned s < 16 := by cases s <;> decide
theorem MemAddr.encB_lt (m : MemAddr) : m.encB < 128 := by
  obtain ⟨b, ix, o⟩ := m; cases ix with
  | none => show 0 < 128; omega
  | some p => exact p.1.isLt
theorem MemAddr.encLo_lt (m : MemAddr) : m.encLo < 4096 := by
  obtain ⟨b, ix, o⟩ := m
  have := o.isLt
  cases ix with
  | none => simp only [MemAddr.encLo]; omega
  | some p => obtain ⟨r, s⟩ := p; have := s.isLt; simp only [MemAddr.encLo]; omega
theorem memOf_ok {op d sub r t x : Nat} (m : MemAddr) (ho : op < 256) (hB : B4 d m.base.val m.encB) (h2 : B2 sub r t (x * 2 ^ 12 + m.encLo)) :
    memOf (word4 op d m.base.val m.encB) (word2 sub r t (x * 2 ^ 12 + m.encLo)) = .ok m := by
  rw [memOf, w4a hB ho, regOf_val, bind_ok, w4b hB ho, w2lo h2 8 0 (by omega) (by omega), w2lo h2 11 11 (by omega) (by omega), w2lo h2 10 9 (by omega) (by omega)]
  have hl := m.encLo_lt
  obtain ⟨b, ix, o⟩ := m
  have := o.isLt
  cases ix with
  | none =>
    have e : MemAddr.encLo ⟨b, none, o⟩ = o.toNat := by simp [MemAddr.encLo]
    rw [e]
    dsimp only
    rw [if_neg (by simp only [beq_iff_eq]; omega)]
    show (zero 0 >>= _) = _
    rw [zb rfl, zb (by omega), bv_eq o (by omega)]; rfl
  | some p =>
    obtain ⟨r, s⟩ := p
    have hs := s.isLt
    have e : MemAddr.encLo ⟨b, some (r, s), o⟩ = 2 ^ 11 + s.val * 2 ^ 9 + o.toNat := rfl
    rw [e]
    dsimp only
    rw [if_pos (by simp only [beq_iff_eq]; omega), bv_eq o (by omega), fin_eq s (by omega)]
    show (regOf r.val >>= _) = _
    rw [regOf_val, bind_ok]; rfl
theorem memPlain_ok {op d sub t : Nat} (m : MemAddr) (ho : op < 256) (hB : B4 d m.base.val m.encB) (h2 : B2 sub 0 t m.encLo) :
    memPlain (word4 op d m.base.val m.encB) (word2 sub 0 t m.encLo) = .ok m := by
  have hl := m.encLo_lt
  rw [memPlain, w2r h2, zb rfl, w2lo h2 15 12 (by omega) (by omega), zb (by omega)]
  have h3 : B2 sub 0 t (0 * 2 ^ 12 + m.encLo) := by rw [Nat.zero_mul, Nat.zero_add]; exact h2
  have := memOf_ok (x := 0) m ho hB h3
  rw [Nat.zero_mul, Nat.zero_add] at this
  exact this
theorem walkNum_ok {sub : Nat} (n : Fin 32) (h : B2 sub 0 0 n.val) : walkNum (word2 sub 0 0 n.val) = .ok n := by
  rw [walkNum, w2rt h, zb rfl, w2lo h 15 5 (by omega) (by omega), zb (by omega), w2lo h 4 0 (by omega) (by omega), fin_eq n (by omega)]; rfl
theorem packFields_ok {sub : Nat} (t : Ty) (h : B2 sub 0 t.enc (t.packOf.enc * 2 ^ 14)) (hp : (t.packOf != .one) = true) :
    packFields (word2 sub 0 t.enc (t.packOf.enc * 2 ^ 14)) = .ok t := by
  have he := t.packOf.enc_lt
  rw [packFields, w2lo h 13 0 (by omega) (by omega), zb (by omega), w2r h, zb rfl, w2t h, tyOf_enc, w2lo h 15 14 (by omega) (by omega)]
  rw [show t.packOf.enc * 2 ^ 14 / 2 ^ 14 % 2 ^ (15 - 14 + 1) = t.packOf.enc by omega, packOf_enc]
  dsimp only
  rw [if_pos (by rw [hp]; simp)]; rfl
theorem CvtTy.enc_lt (t : CvtTy) : t.enc < 16 := by cases t with | ty t => exact t.enc_lt | e8m0 => decide
theorem CvtTy.flag_lt (t : CvtTy) : t.flag < 2 := by cases t <;> simp [CvtTy.flag]
theorem cvtTyOf_ok (t : CvtTy) : cvtTyOf (t.flag == 1) t.enc = .ok t := by
  cases t with
  | ty t => show Except.ok (CvtTy.ty (tyOf t.enc)) = _; rw [tyOf_enc]
  | e8m0 => rfl


/-- The table that an opcode byte of a one-word instruction selects (R134, R147, R150). -/
def oneTable (op : Nat) (w : Word) : Dec Instr :=
  if 128 ≤ op then decodeU (op - 128) w
  else if op < 0x20 then decodeL0 op w
  else if op < 0x40 then decodeL2 op w
  else decodeL4 op w

/-- The opcode bytes of one-word instructions. -/
def oneOp (op : Nat) : Bool := op < 0x70 || (0x80 ≤ op && op < 0xF0)
theorem oneOp_lt {op : Nat} (h : oneOp op = true) : op < 0x70 ∨ 0x80 ≤ op ∧ op < 0xF0 := by simpa [oneOp] using h
theorem raw_one {op : Nat} {w w2 : Word} (ho : oneOp op = true) (h1 : opcodeOf w = op % 128) (h2 : isUForm w = decide (128 ≤ op)) :
    isTwoWord w = false ∧ decodeRaw w w2 = oneTable op w := by
  have hr := oneOp_lt ho
  refine ⟨?_, ?_⟩
  · simp only [isTwoWord, h1, decide_eq_false_iff_not]; omega
  · simp only [decodeRaw, h1, h2, oneTable]
    by_cases h : 128 ≤ op
    · rw [if_pos (by simp [h]), if_pos (by omega), if_pos h, show op % 128 = op - 128 by omega]
    · rw [if_neg (by simp [h]), if_neg h]
      have e : op % 128 = op := by omega
      rw [e]
      by_cases h3 : op < 0x20
      · rw [if_pos h3, if_pos h3]
      · rw [if_neg h3, if_neg h3]
        by_cases h4 : op < 0x40
        · rw [if_pos h4, if_pos h4]
        · rw [if_neg h4, if_neg h4, if_pos (by omega)]

theorem decode_raw {w1 w2 : Word} {i : Instr} (h : decodeRaw w1 w2 = .ok i) (hw : i.wf = true) : decode w1 w2 = .ok i := by
  simp only [decode, h, bind, Except.bind, hw, if_true, pure, Except.pure]
theorem decode_wf {w1 w2 : Word} {i : Instr} (h : decode w1 w2 = .ok i) : i.wf = true := by
  simp only [decode] at h
  cases hr : decodeRaw w1 w2 with
  | error e => rw [hr] at h; cases h
  | ok j =>
    rw [hr] at h
    simp only [bind, Except.bind] at h
    split at h
    · next hw => cases h; exact hw
    · cases h

end Sys2Proof
end

