-- ==== Sys2Proof/Laws/Frame.lean ====
section
/-!
SUPPORT. Laws of what the parts of an instruction leave unchanged: threads other than in pc, flags and destination, and every other piece of state.
-/
namespace Sys2Proof.Machine

/-- What a thread keeps while others act. -/
def Keep (a b : Thread) : Prop :=
  b.regs = a.regs ∧ b.preds = a.preds ∧ b.fflags = a.fflags ∧ b.rstack = a.rstack ∧ b.trap = a.trap ∧ b.trapActive = a.trapActive ∧ b.pc = a.pc

theorem Keep.refl (a : Thread) : Keep a a := ⟨rfl, rfl, rfl, rfl, rfl, rfl, rfl⟩

theorem Keep.trans {a b c : Thread} (h : Keep a b) (k : Keep b c) : Keep a c := by
  obtain ⟨h1, h2, h3, h4, h5, h6, h7⟩ := h
  obtain ⟨k1, k2, k3, k4, k5, k6, k7⟩ := k
  exact ⟨k1.trans h1, k2.trans h2, k3.trans h3, k4.trans h4, k5.trans h5, k6.trans h6, k7.trans h7⟩

structure Still (s t : State) : Prop where
  mem : t.mem = s.mem
  skeins : t.skeins = s.skeins
  sync : t.sync = s.sync
  accs : t.accs = s.accs
  hanks : t.hanks = s.hanks
  errs : t.errs = s.errs
  plat : t.plat = s.plat
  dom : t.dom = s.dom
  cmds : t.cmds = s.cmds
  sys : t.sys = s.sys
  queues : t.front.queues = s.front.queues
  teams : ∀ tm v, s.team tm = some v → ∃ cs, t.team tm = some { v with chans := cs }

theorem Still.refl (s : State) : Still s s := ⟨rfl, rfl, rfl, rfl, rfl, rfl, rfl, rfl, rfl, rfl, rfl, fun _ v h => ⟨v.chans, h⟩⟩

theorem Still.trans {s t u : State} (h : Still s t) (k : Still t u) : Still s u := by
  refine ⟨k.mem.trans h.mem, k.skeins.trans h.skeins, k.sync.trans h.sync, k.accs.trans h.accs, k.hanks.trans h.hanks, k.errs.trans h.errs,
    k.plat.trans h.plat, k.dom.trans h.dom, k.cmds.trans h.cmds, k.sys.trans h.sys, k.queues.trans h.queues, fun tm v hv => ?_⟩
  obtain ⟨cs, h1⟩ := h.teams tm v hv
  obtain ⟨cs2, h2⟩ := k.teams tm _ h1
  exact ⟨cs2, h2⟩

structure Calm (s t : State) : Prop where
  still : Still s t
  threads : ∀ w th, s.thread w = some th → ∃ th', t.thread w = some th' ∧ Keep th th'

theorem Calm.refl (s : State) : Calm s s := ⟨Still.refl s, fun _ th h => ⟨th, h, Keep.refl th⟩⟩

theorem Calm.trans {s t u : State} (h : Calm s t) (k : Calm t u) : Calm s u := by
  refine ⟨h.still.trans k.still, fun w th hw => ?_⟩
  obtain ⟨th1, h1, h2⟩ := h.threads w th hw
  obtain ⟨th2, h3, h4⟩ := k.threads w th1 h1
  exact ⟨th2, h3, h2.trans h4⟩

theorem tfind_put_self {κ α : Type} [DecidableEq κ] (t : Table κ α) (k : κ) (v : α) : (t.put k v).find k = some v := by
  induction t with
  | nil => simp [Table.put, Table.find]
  | cons x t ih =>
    obtain ⟨k', v'⟩ := x
    simp only [Table.put]
    split
    · simp [Table.find]
    · next h => simp only [Table.find, if_neg h]; exact ih

theorem find_upd_if {κ α : Type} [DecidableEq κ] (t : Table κ α) (k k2 : κ) (f : α → α) :
    (t.upd k f).find k2 = if k2 = k then (t.find k).map f else t.find k2 := by
  by_cases h1 : k2 = k
  · subst h1; rw [if_pos rfl]; exact find_upd ..
  · rw [if_neg h1]; exact find_upd_ne _ _ _ _ h1

theorem thread_modThread_frame (s : State) (w w2 : Who) (f : Thread → Thread) :
    (s.modThread w f).thread w2 = if w2 = w then (s.thread w).map f else s.thread w2 := find_upd_if ..

theorem modThread_still (s : State) (w : Who) (f : Thread → Thread) : Still s (s.modThread w f) :=
  ⟨rfl, rfl, rfl, rfl, rfl, rfl, rfl, rfl, rfl, rfl, rfl, fun _ v h => ⟨v.chans, h⟩⟩

theorem modThread_calm (s : State) (w : Who) (f : Thread → Thread) (hf : ∀ t, Keep t (f t)) : Calm s (s.modThread w f) := by
  refine ⟨modThread_still s w f, fun w2 th h => ?_⟩
  rw [thread_modThread_frame]
  split
  · next h1 => subst h1; exact ⟨f th, by rw [h]; rfl, hf th⟩
  · exact ⟨th, h, Keep.refl th⟩

theorem setCore_calm (s : State) (c : Nat) (k : Core) : Calm s (s.setCore c k) :=
  ⟨⟨rfl, rfl, rfl, rfl, rfl, rfl, rfl, rfl, rfl, rfl, rfl, fun _ v h => ⟨v.chans, h⟩⟩, fun _ th h => ⟨th, h, Keep.refl th⟩⟩

theorem ready_calm (s : State) (w : Who) : Calm s (s.ready w) := by
  have h := modThread_calm s w (fun t => { t with state := .ready, readySince := s.now, stall := .none }) (fun _ => ⟨rfl, rfl, rfl, rfl, rfl, rfl, rfl⟩)
  simp only [State.ready, State.wakeCore]
  split
  · exact h.trans (setCore_calm ..)
  · exact h

theorem foldl_calm {α : Type} (f : State → α → State) (hf : ∀ s a, Calm s (f s a)) (l : List α) (s : State) : Calm s (l.foldl f s) := by
  induction l generalizing s with
  | nil => exact Calm.refl s
  | cons a l ih => exact (hf s a).trans (ih _)

theorem wakeChan_calm (s : State) (t : TeamId) (n : Nat) : Calm s (s.wakeChan t n) := by
  simp only [State.wakeChan]
  exact foldl_calm _ (fun s (p : Who × Thread) => ready_calm s p.1) _ _

theorem releaseHeld_calm (s : State) (c x : Nat) : Calm s (s.releaseHeld c x) := by
  simp only [State.releaseHeld]
  exact foldl_calm _ (fun s (p : Who × Thread) =>
    (modThread_calm _ p.1 (fun t => { t with released := true }) (fun _ => ⟨rfl, rfl, rfl, rfl, rfl, rfl, rfl⟩)).trans (ready_calm _ p.1)) _ _

theorem modChan_calm (s : State) (t : TeamId) (n : Nat) (f : Chan → Chan) : Calm s (s.modChan t n f) := by
  simp only [State.modChan]
  split
  · next v hv =>
    split
    · refine ⟨⟨rfl, rfl, rfl, rfl, rfl, rfl, rfl, rfl, rfl, rfl, rfl, fun tm v2 h => ?_⟩, fun _ th h => ⟨th, h, Keep.refl th⟩⟩
      have : (s.modTeam t (fun v => { v with chans := v.chans.upd n f })).team tm = if tm = t then (s.team t).map (fun v => { v with chans := v.chans.upd n f }) else s.team tm := find_upd_if ..
      rw [this]
      split
      · next h1 => subst h1; rw [h]; exact ⟨_, rfl⟩
      · exact ⟨v2.chans, h⟩
    · exact ⟨⟨rfl, rfl, rfl, rfl, rfl, rfl, rfl, rfl, rfl, rfl, rfl, fun _ v h => ⟨v.chans, h⟩⟩, fun _ th h => ⟨th, h, Keep.refl th⟩⟩
  · exact Calm.refl s

theorem popOne_calm (s : State) (t : TeamId) (n : Nat) (s' : State) (v : DWord) (h : s.popOne t n = some (s', v)) : Calm s s' := by
  simp only [State.popOne] at h
  split at h
  · split at h
    · split at h
      · split at h
        · cases h; exact setCore_calm ..
        · split at h <;> cases h; exact Calm.refl s
      · cases h; exact Calm.refl s
    · split at h <;> cases h
      exact modChan_calm ..
  · cases h

theorem popLane_calm (s : State) (t : TeamId) (th : Thread) (srcs : List (Src × Bool)) (s' : State) (vs : List DWord)
    (h : s.popLane t th srcs = some (s', vs)) : Calm s s' := by
  induction srcs generalizing s vs with
  | nil => cases h; exact Calm.refl _
  | cons x r ih =>
    obtain ⟨x, wide⟩ := x
    cases x with
    | reg n =>
      simp only [State.popLane, Option.map_eq_some_iff] at h
      obtain ⟨q, hq, h⟩ := h
      cases h
      exact ih s _ hq
    | pop c =>
      simp only [State.popLane] at h
      split at h
      · next s1 v h1 =>
        simp only [Option.map_eq_some_iff] at h
        obtain ⟨q, hq, h⟩ := h
        cases h
        exact (popOne_calm _ _ _ _ _ h1).trans (ih s1 _ hq)
      · cases h
    | peek c =>
      simp only [State.popLane] at h
      split at h
      · simp only [Option.map_eq_some_iff] at h
        obtain ⟨q, hq, h⟩ := h
        cases h
        exact ih s _ hq
      · cases h

theorem popLanes_calm (s : State) (srcs : List (Src × Bool)) (ls : List LaneIn) (s' : State) (ls' : List LaneIn)
    (h : s.popLanes srcs ls = some (s', ls')) : Calm s s' ∧ ls'.map (fun l => (l.who, l.t)) = ls.map (fun l => (l.who, l.t)) := by
  induction ls generalizing s ls' with
  | nil => cases h; exact ⟨Calm.refl _, rfl⟩
  | cons l ls ih =>
    simp only [State.popLanes] at h
    split at h
    · next s1 vs h1 =>
      simp only [Option.map_eq_some_iff] at h
      obtain ⟨q, hq, h⟩ := h
      cases h
      have := ih s1 _ hq
      exact ⟨(popLane_calm _ _ _ _ _ _ h1).trans this.1, by simp only [List.map_cons, this.2]⟩
    · cases h

theorem acting_calm {s s' : State} {sp : LaneSpec} {ls : List LaneIn} (h : LaneReady s sp s' ls) : Calm s (s.acting s' sp) :=
  (popLanes_calm _ _ _ _ _ h.values).1.trans (foldl_calm _ (fun u n => wakeChan_calm u _ n) _ _)

theorem ready_lane {s s' : State} {sp : LaneSpec} {ls : List LaneIn} (h : LaneReady s sp s' ls) : ∀ l ∈ ls, s.thread l.who = some l.t := by
  intro l hl
  have h1 : (l.who, l.t) ∈ ls.map (fun l => (l.who, l.t)) := List.mem_map_of_mem (f := fun l : LaneIn => (l.who, l.t)) hl
  rw [(popLanes_calm _ _ _ _ _ h.values).2] at h1
  obtain ⟨l0, h2, h3⟩ := List.mem_map.1 h1
  simp only [State.lanesIn, List.mem_filterMap, Option.map_eq_some_iff] at h2
  obtain ⟨x, -, t, ht, rfl⟩ := h2
  simp only [Prod.mk.injEq] at h3
  rw [← h3.1, ← h3.2]
  exact ht

theorem pushOne_calm (s : State) (t : TeamId) (n : Nat) (v : DWord) : Calm s (s.pushOne t n v) := modChan_calm ..

theorem push_calm (s : State) (sp : LaneSpec) (team : TeamId) (vs : List DWord) :
    Calm s (match sp.push with
      | some c => if vs.isEmpty then s else (vs.foldl (fun (s : State) v => s.pushOne team c v) s).wakeChan team c
      | none => s) := by
  split
  · split
    · exact Calm.refl s
    · exact (foldl_calm _ (fun u v => pushOne_calm u _ _ v) _ _).trans (wakeChan_calm ..)
  · exact Calm.refl s

/-- Lanes applied one after another. -/
def applyAll (i : Issue) (sp : LaneSpec) (rs : List (LaneIn × LaneOut)) (s : State) : State :=
  rs.foldl (fun s r =>
    if r.2.fault.isSome ∨ (r.2.page.isSome ∧ i.runAhead.isNone) ∨ r.2.next = .gone then s
    else s.modThread r.1.who (fun t => t.apply i.pc i.len sp.dst r.2)) s

theorem gangDone_eq (s u : State) (sp : LaneSpec) (rs : List (LaneIn × LaneOut)) : Calm (applyAll s.sys.issue sp rs u) (s.gangDone sp u rs) := by
  simp only [State.gangDone, State.writeLanes]
  exact (push_calm _ _ _ _).trans (releaseHeld_calm ..)

theorem applyAll_still (i : Issue) (sp : LaneSpec) (rs : List (LaneIn × LaneOut)) (s : State) : Still s (applyAll i sp rs s) := by
  simp only [applyAll]
  induction rs generalizing s with
  | nil => exact Still.refl s
  | cons r rs ih =>
    rw [List.foldl_cons]
    refine Still.trans ?_ (ih _)
    split
    · exact Still.refl s
    · exact modThread_still ..

theorem applyAll_out (i : Issue) (sp : LaneSpec) (rs : List (LaneIn × LaneOut)) (s : State) (w : Who) (h : w ∉ rs.map (·.1.who)) :
    (applyAll i sp rs s).thread w = s.thread w := by
  simp only [applyAll]
  induction rs generalizing s with
  | nil => rfl
  | cons r rs ih =>
    simp only [List.map_cons, List.mem_cons, not_or] at h
    rw [List.foldl_cons, ih _ h.2]
    split
    · rfl
    · rw [thread_modThread_frame, if_neg h.1]

theorem applyAll_in (i : Issue) (sp : LaneSpec) (rs : List (LaneIn × LaneOut)) (s : State) (hd : (rs.map (·.1.who)).Nodup) (r : LaneIn × LaneOut)
    (hr : r ∈ rs) (h1 : r.2.fault = none) (h2 : r.2.page = none) (h3 : r.2.next ≠ .gone) :
    (applyAll i sp rs s).thread r.1.who = (s.thread r.1.who).map (fun t => t.apply i.pc i.len sp.dst r.2) := by
  induction rs generalizing s with
  | nil => cases hr
  | cons x rs ih =>
    simp only [List.map_cons, List.nodup_cons] at hd
    have e : applyAll i sp (x :: rs) s = applyAll i sp rs (if x.2.fault.isSome ∨ (x.2.page.isSome ∧ i.runAhead.isNone) ∨ x.2.next = .gone then s
      else s.modThread x.1.who (fun t => t.apply i.pc i.len sp.dst x.2)) := rfl
    rw [e]
    rcases List.mem_cons.1 hr with rfl | hr
    · rw [applyAll_out _ _ _ _ _ hd.1, if_neg (by simp [h1, h2, h3]), thread_modThread_frame, if_pos rfl]
    · rw [ih _ hd.2 hr]
      congr 1
      split
      · rfl
      · rw [thread_modThread_frame, if_neg]
        intro h
        exact hd.1 (h ▸ List.mem_map_of_mem (f := fun x : LaneIn × LaneOut => x.1.who) hr)

theorem rd_wr (t : Thread) (n m : Nat) (v : Word) : (t.wr n v).rd m = if m = n then (if n < t.holding then v else 0) else t.rd m := by
  simp only [Thread.rd, Thread.wr, Thread.holding, List.getD_eq_getElem?_getD, List.getElem?_set]
  by_cases h : n = m
  · subst h
    simp only [if_true]
    by_cases h2 : n < t.regs.length <;> simp [h2]
  · simp only [if_neg h, if_neg (Ne.symm h)]

theorem holding_wr (t : Thread) (n : Nat) (v : Word) : (t.wr n v).holding = t.holding := by simp [Thread.holding, Thread.wr]

theorem pred_setPred (t : Thread) (n m : Nat) (b : Bool) (hn : n < 8) (hm : m < 8) : (t.setPred n b).pred m = if m = n then b else t.pred m := by
  simp only [Thread.setPred, Thread.pred, setBit8]
  have e : ((1#8 <<< n).getLsbD m) = decide (m = n) := by
    simp only [BitVec.getLsbD_shiftLeft]
    by_cases h : m = n
    · subst h; simp [hm]
    · rcases Nat.lt_or_ge m n with h1 | h1
      · simp [h1, h]
      · have : m - n ≠ 0 := by omega
        simp [h, this, BitVec.getLsbD_one]
  cases b
  · simp only [if_false, Bool.false_eq_true, BitVec.getLsbD_and, BitVec.getLsbD_not, e, hm, decide_true, Bool.true_and]
    by_cases h : m = n <;> simp [h]
  · simp only [if_true, BitVec.getLsbD_or, e]
    by_cases h : m = n <;> simp [h]

/-- The registers after a result. -/
def putRes (t : Thread) (dst : Option (Dst × Bool)) (r : Option DWord) : Thread :=
  match r with
  | some v => t.putDst dst v
  | none => t

theorem putRes_keeps (t : Thread) (dst : Option (Dst × Bool)) (r : Option DWord) :
    (putRes t dst r).preds = t.preds ∧ (putRes t dst r).fflags = t.fflags ∧ (putRes t dst r).rstack = t.rstack ∧
    (putRes t dst r).trap = t.trap ∧ (putRes t dst r).trapActive = t.trapActive ∧ (putRes t dst r).pc = t.pc ∧ (putRes t dst r).holding = t.holding := by
  cases r with
  | none => exact ⟨rfl, rfl, rfl, rfl, rfl, rfl, rfl⟩
  | some v =>
    simp only [putRes, Thread.putDst]
    split
    · exact ⟨rfl, rfl, rfl, rfl, rfl, rfl, holding_wr ..⟩
    · exact ⟨rfl, rfl, rfl, rfl, rfl, rfl, by simp only [Thread.wr2, holding_wr]⟩
    · exact ⟨rfl, rfl, rfl, rfl, rfl, rfl, rfl⟩

theorem putRes_rd (t : Thread) (dst : Option (Dst × Bool)) (r : Option DWord) (n : Nat) (h : n ∉ ((dst.map (fun x => Dst.regs x.1 x.2)).getD [])) :
    (putRes t dst r).rd n = t.rd n := by
  cases r with
  | none => rfl
  | some v =>
    simp only [putRes, Thread.putDst]
    split
    · simp only [Option.map_some, Option.getD_some, Dst.regs, Bool.false_eq_true, if_false, List.mem_singleton] at h
      rw [rd_wr, if_neg h]
    · simp only [Option.map_some, Option.getD_some, Dst.regs, if_true, List.mem_cons, List.not_mem_nil, or_false, not_or] at h
      simp only [Thread.wr2, rd_wr, if_neg h.1, if_neg h.2]
    · rfl

/-- What a lane's outcome leaves in the thread of a lane that does not block. -/
theorem apply_plain (t : Thread) (pc : DWord) (len : Nat) (dst : Option (Dst × Bool)) (o : LaneOut) (h1 : o.block = none) (h2 : o.known = true) :
    (t.apply pc len dst o).regs = (putRes t dst o.res).regs ∧ (t.apply pc len dst o).rstack = t.rstack ∧ (t.apply pc len dst o).trap = t.trap ∧
    (t.apply pc len dst o).trapActive = t.trapActive ∧ (t.apply pc len dst o).fflags = t.fflags ||| o.fl ∧
    (o.pred = none → (t.apply pc len dst o).preds = t.preds) ∧ (∀ n b, o.pred = some (n, b) → (t.apply pc len dst o).preds = (t.setPred n b).preds) ∧
    (o.next = .adv → (t.apply pc len dst o).pc = pc + dw len) ∧ (∀ p, o.next = .goto p → (t.apply pc len dst o).pc = p) ∧
    (o.next = .stay → (t.apply pc len dst o).pc = t.pc) := by
  have k := putRes_keeps t dst o.res
  obtain ⟨k1, k2, k3, k4, k5, k6, k7⟩ := k
  have e : t.apply pc len dst o =
      { (match o.next with
        | .adv => { (match o.pred with
            | some (n, b) => (putRes t dst o.res).setPred n b
            | none => putRes t dst o.res) with fflags := (putRes t dst o.res).fflags ||| o.fl, pc := pc + dw len }
        | .goto p => { (match o.pred with
            | some (n, b) => (putRes t dst o.res).setPred n b
            | none => putRes t dst o.res) with fflags := (putRes t dst o.res).fflags ||| o.fl, pc := p }
        | .stay | .gone => { (match o.pred with
            | some (n, b) => (putRes t dst o.res).setPred n b
            | none => putRes t dst o.res) with fflags := (putRes t dst o.res).fflags ||| o.fl }) with stall := o.stall } := by
    simp only [Thread.apply, h1, h2, if_true]
    cases o.next <;> cases o.pred <;> cases o.res <;> rfl
  rw [e]
  generalize putRes t dst o.res = u at *
  refine ⟨?_, ?_, ?_, ?_, ?_, fun h => ?_, fun n b h => ?_, fun h => ?_, fun p h => ?_, fun h => ?_⟩
  · cases o.next <;> cases o.pred <;> rfl
  · rw [← k3]; cases o.next <;> cases o.pred <;> rfl
  · rw [← k4]; cases o.next <;> cases o.pred <;> rfl
  · rw [← k5]; cases o.next <;> cases o.pred <;> rfl
  · rw [← k2]; cases o.next <;> cases o.pred <;> rfl
  · rw [h, ← k1]; cases o.next <;> rfl
  · rw [h]
    have : (t.setPred n b).preds = (u.setPred n b).preds := by simp only [Thread.setPred, k1]
    rw [this]; cases o.next <;> rfl
  · rw [h]
  · rw [h]
  · rw [h, ← k6]; cases o.pred <;> rfl

/-- A lane that blocks differs in its thread's status alone from one that does not. -/
theorem apply_block (t : Thread) (pc : DWord) (len : Nat) (dst : Option (Dst × Bool)) (o : LaneOut) :
    ∃ x : Thread, (∃ a b, t.apply pc len dst o = { x with state := a, waited := b } ∨ t.apply pc len dst o = { x with stall := o.stall }) ∧
      t.apply pc len dst { o with block := none } = { x with stall := o.stall } := by
  simp only [Thread.apply]
  refine ⟨_, ?_, rfl⟩
  cases h : o.block with
  | none => exact ⟨.ready, true, .inr rfl⟩
  | some w => exact ⟨.blocked w, true, .inl rfl⟩

/-- What a lane's outcome leaves in its thread besides the thread's status, whether the lane blocks or not. -/
theorem apply_keeps (t : Thread) (pc : DWord) (len : Nat) (dst : Option (Dst × Bool)) (o : LaneOut) (h2 : o.known = true) :
    (t.apply pc len dst o).regs = (putRes t dst o.res).regs ∧ (t.apply pc len dst o).rstack = t.rstack ∧ (t.apply pc len dst o).trap = t.trap ∧
    (t.apply pc len dst o).trapActive = t.trapActive ∧ (t.apply pc len dst o).fflags = t.fflags ||| o.fl ∧
    (o.pred = none → (t.apply pc len dst o).preds = t.preds) ∧ (∀ n b, o.pred = some (n, b) → (t.apply pc len dst o).preds = (t.setPred n b).preds) ∧
    (o.next = .adv → (t.apply pc len dst o).pc = pc + dw len) ∧ (∀ p, o.next = .goto p → (t.apply pc len dst o).pc = p) ∧
    (o.next = .stay → (t.apply pc len dst o).pc = t.pc) := by
  have h := apply_plain t pc len dst { o with block := none } rfl h2
  obtain ⟨x, ⟨a, b, hx | hx⟩, hy⟩ := apply_block t pc len dst o
  · rw [hy] at h
    rw [hx]
    exact h
  · rw [hx, ← hy]
    exact h

theorem popU_calm (t : TeamId) (srcs : List USrc) : ∀ (s s' : State) (vs : List DWord), s.popU t srcs = some (s', vs) → Calm s s' := by
  induction srcs with
  | nil => intro s s' vs h; cases h; exact Calm.refl _
  | cons x r ih =>
    intro s s' vs h
    cases x with
    | k n =>
      simp only [State.popU, Option.map_eq_some_iff] at h
      obtain ⟨q, hq, h⟩ := h
      cases h
      exact ih s _ _ hq
    | pop c =>
      simp only [State.popU] at h
      split at h
      · next s1 v h1 =>
        simp only [Option.map_eq_some_iff] at h
        obtain ⟨q, hq, h⟩ := h
        cases h
        exact (popOne_calm _ _ _ _ _ h1).trans (ih s1 _ _ hq)
      · cases h
    | peek c =>
      simp only [State.popU] at h
      split at h
      · simp only [Option.map_eq_some_iff] at h
        obtain ⟨q, hq, h⟩ := h
        cases h
        exact ih s _ _ hq
      · cases h

theorem actingU_calm {s s' : State} {srcs : List USrc} {dst : Option UDst} {vs : List DWord} (h : UReady s srcs dst s' vs) : Calm s (s.actingU s' srcs) :=
  (popU_calm _ _ _ _ _ h.values).trans (foldl_calm _ (fun u n => wakeChan_calm u _ n) _ _)

/-- What a gang's common change of its threads does. -/
theorem gangGo_thread (s : State) (f : Thread → Thread) (hf : ∀ t, f (f t) = f t) (w : Who) :
    (s.gangGo f).thread w = if w ∈ s.sys.issue.lanes.map (·.2) then (s.thread w).map f else s.thread w := by
  simp only [State.gangGo]
  generalize s.sys.issue.lanes = ls
  induction ls generalizing s with
  | nil => simp
  | cons l ls ih =>
    rw [List.foldl_cons, ih, thread_modThread_frame]
    simp only [List.map_cons, List.mem_cons]
    by_cases h : w = l.2
    · subst h
      simp only [true_or, if_true]
      split
      · rw [Option.map_map]; congr 1; funext t; exact hf t
      · rfl
    · simp only [h, false_or, if_false]

theorem gangGo_still (s : State) (f : Thread → Thread) : Still s (s.gangGo f) := by
  simp only [State.gangGo]
  generalize s.sys.issue.lanes = ls
  induction ls generalizing s with
  | nil => exact Still.refl s
  | cons l ls ih => exact (modThread_still s l.2 f).trans (ih _)

theorem pushU_calm (s : State) (team : TeamId) (c : Nat) (v : DWord) : Calm s ((s.pushOne team c v).wakeChan team c) :=
  (pushOne_calm ..).trans (wakeChan_calm ..)

/-- Everything but the skeins. -/
structure StillU (s t : State) : Prop where
  mem : t.mem = s.mem
  sync : t.sync = s.sync
  accs : t.accs = s.accs
  hanks : t.hanks = s.hanks
  errs : t.errs = s.errs
  plat : t.plat = s.plat
  dom : t.dom = s.dom
  cmds : t.cmds = s.cmds
  sys : t.sys = s.sys
  queues : t.front.queues = s.front.queues
  teams : ∀ tm v, s.team tm = some v → ∃ cs, t.team tm = some { v with chans := cs }

theorem Still.u {s t : State} (h : Still s t) : StillU s t :=
  ⟨h.mem, h.sync, h.accs, h.hanks, h.errs, h.plat, h.dom, h.cmds, h.sys, h.queues, h.teams⟩

theorem StillU.trans {s t u : State} (h : StillU s t) (k : StillU t u) : StillU s u := by
  refine ⟨k.mem.trans h.mem, k.sync.trans h.sync, k.accs.trans h.accs, k.hanks.trans h.hanks, k.errs.trans h.errs,
    k.plat.trans h.plat, k.dom.trans h.dom, k.cmds.trans h.cmds, k.sys.trans h.sys, k.queues.trans h.queues, fun tm v hv => ?_⟩
  obtain ⟨cs, h1⟩ := h.teams tm v hv
  obtain ⟨cs2, h2⟩ := k.teams tm _ h1
  exact ⟨cs2, h2⟩

end Sys2Proof.Machine
end

