-- ==== Sys2Proof/Laws/PerInstr.lean ====
section
/-!
SUPPORT. One lemma per instruction: decoding the words it encodes to gives it back (R134, R137 to R151).
-/
set_option linter.unusedSimpArgs false
set_option linter.unusedVariables false

namespace Sys2Proof.Laws.RoundTrip

/-- A well-formed instruction that has an encoding decodes from it to itself, whatever follows a one-word instruction. `keysel` with an
empty key shares its words with the other form, which decodes in its place. -/
def Statement (i : Instr) : Prop :=
  ∀ ws : List Word, i.wf = true → encode i = some ws → (∀ a b, i ≠ .keyselErase a b) →
    (∃ w1, ws = [w1] ∧ isTwoWord w1 = false ∧ ∀ w2, decode w1 w2 = .ok i) ∨
    (∃ w1 w2, ws = [w1, w2] ∧ isTwoWord w1 = true ∧ decode w1 w2 = .ok i)

theorem Statement.ofOne {i : Instr} {op : Nat} {w : Word} (he : encode i = some [w]) (ho : oneOp op = true)
    (h1 : opcodeOf w = op % 128) (h2 : isUForm w = decide (128 ≤ op)) (hd : oneTable op w = .ok i) : Statement i := by
  intro ws hw h _
  rw [he] at h
  cases h
  exact .inl ⟨w, rfl, (raw_one (w2 := w) ho h1 h2).1, fun w2 => decode_raw ((raw_one ho h1 h2).2.trans hd) hw⟩
theorem Statement.ofTwo {i : Instr} {w1 w2 : Word} (he : encode i = some [w1, w2]) (h2 : isTwoWord w1 = true)
    (hd : i.wf = true → decodeRaw w1 w2 = .ok i) : Statement i := by
  intro ws hw h _
  rw [he] at h
  cases h
  exact .inr ⟨w1, w2, rfl, h2, decode_raw (hd hw) hw⟩
/-- A device step has no encoding. -/
theorem Statement.ofNone {i : Instr} (he : encode i = none) : Statement i := by
  intro ws _ h _
  rw [he] at h
  cases h
/-- A one-word instruction from its opcode byte and three byte fields. -/
theorem Statement.ofBytes {i : Instr} {op d a b : Nat} (h : B4 d a b) (he : encode i = some [word4 op d a b]) (ho : oneOp op = true)
    (hd : oneTable op (word4 op d a b) = .ok i) : Statement i := by
  have hl : op < 256 := by have := oneOp_lt ho; omega
  exact .ofOne he ho (opcodeOf_word4 hl h.d h.a h.b) (isUForm_word4 hl h.d h.a h.b) hd

theorem ofT3 {k : Dst → Src → Src → Instr} {op : Nat} {d : Dst} {a b : Src} (ho : oneOp op = true)
    (he : encode (k d a b) = some [word4 op d.enc a.enc b.enc]) (ht : ∀ w, oneTable op w = t3 k w) : Statement (k d a b) := by
  have hl : op < 256 := by have := oneOp_lt ho; omega
  have hB : B4 d.enc a.enc b.enc := ⟨d.enc_lt, a.enc_lt, b.enc_lt⟩
  refine .ofBytes hB he ho ?_
  rw [ht]
  simp [t3, w4d hB hl, w4a hB hl, w4b hB hl, pure, Except.pure]
theorem ofT2 {k : Dst → Src → Instr} {op : Nat} {d : Dst} {a : Src} (ho : oneOp op = true)
    (he : encode (k d a) = some [word4 op d.enc a.enc 0]) (ht : ∀ w, oneTable op w = t2 k w) : Statement (k d a) := by
  have hl : op < 256 := by have := oneOp_lt ho; omega
  have hB : B4 d.enc a.enc 0 := ⟨d.enc_lt, a.enc_lt, by omega⟩
  refine .ofBytes hB he ho ?_
  rw [ht]
  simp [t2, w4d hB hl, w4a hB hl, w4b hB hl, pure, Except.pure]
theorem ofI8 {k : Dst → Src → BitVec 8 → Instr} {op : Nat} {d : Dst} {a : Src} {i : BitVec 8} (ho : oneOp op = true)
    (he : encode (k d a i) = some [word4 op d.enc a.enc i.toNat]) (ht : ∀ w, oneTable op w = i8 k w) : Statement (k d a i) := by
  have hl : op < 256 := by have := oneOp_lt ho; omega
  have hB : B4 d.enc a.enc i.toNat := ⟨d.enc_lt, a.enc_lt, i.isLt⟩
  refine .ofBytes hB he ho ?_
  rw [ht]
  simp [i8, w4d hB hl, w4a hB hl, w4b hB hl, pure, Except.pure]
theorem ofI5 {k : Dst → Src → BitVec 5 → Instr} {op : Nat} {d : Dst} {a : Src} {i : BitVec 5} (ho : oneOp op = true)
    (he : encode (k d a i) = some [word4 op d.enc a.enc i.toNat]) (ht : ∀ w, oneTable op w = i5 k w) : Statement (k d a i) := by
  have hl : op < 256 := by have := oneOp_lt ho; omega
  have hB : B4 d.enc a.enc i.toNat := ⟨d.enc_lt, a.enc_lt, b5_lt i⟩
  refine .ofBytes hB he ho ?_
  rw [ht]
  simp [i5, b5_lt', w4d hB hl, w4a hB hl, w4b hB hl, pure, Except.pure]
theorem ofOff {k : Dst → Src → LaneOff → Instr} {op : Nat} {d : Dst} {a : Src} {o : LaneOff} (ho : oneOp op = true)
    (he : encode (k d a o) = some [word4 op d.enc a.enc o.enc]) (ht : ∀ w, oneTable op w = iOff k w) : Statement (k d a o) := by
  have hl : op < 256 := by have := oneOp_lt ho; omega
  have hB : B4 d.enc a.enc o.enc := ⟨d.enc_lt, a.enc_lt, o.enc_lt⟩
  refine .ofBytes hB he ho ?_
  rw [ht]
  simp [iOff, w4d hB hl, w4a hB hl, w4b hB hl, pure, Except.pure]
theorem ofPred3 {k : Fin 8 → Fin 8 → Fin 8 → Instr} {op : Nat} {n m q : Fin 8} (ho : oneOp op = true)
    (he : encode (k n m q) = some [word4 op n.val m.val q.val]) (ht : ∀ w, oneTable op w = pred3 k w) : Statement (k n m q) := by
  have hl : op < 256 := by have := oneOp_lt ho; omega
  have hB : B4 n.val m.val q.val := ⟨by omega, by omega, by omega⟩
  refine .ofBytes hB he ho ?_
  rw [ht]
  simp [pred3, w4d hB hl, w4a hB hl, w4b hB hl, pure, Except.pure]
theorem ofU3 {k : UDst → USrc → USrc → Instr} {op : Nat} {d : UDst} {a b : USrc} (ho : oneOp op = true)
    (he : encode (k d a b) = some [word4 op d.enc a.enc b.enc]) (ht : ∀ w, oneTable op w = u3 k w) : Statement (k d a b) := by
  have hl : op < 256 := by have := oneOp_lt ho; omega
  have hB : B4 d.enc a.enc b.enc := ⟨d.enc_lt, a.enc_lt, b.enc_lt⟩
  refine .ofBytes hB he ho ?_
  rw [ht]
  simp [u3, w4d hB hl, w4a hB hl, w4b hB hl, pure, Except.pure]
theorem ofK1 {k : Fin 64 → Instr} {op : Nat} {a : Fin 64} (ho : oneOp op = true)
    (he : encode (k a) = some [word4 op 0 a.val 0]) (ht : ∀ w, oneTable op w = k1 k w) : Statement (k a) := by
  have hl : op < 256 := by have := oneOp_lt ho; omega
  have hB : B4 0 a.val 0 := ⟨by omega, by omega, by omega⟩
  refine .ofBytes hB he ho ?_
  rw [ht]
  simp [k1, w4d hB hl, w4a hB hl, w4b hB hl, pure, Except.pure]
theorem ofK2 {k : Fin 64 → Fin 64 → Instr} {op : Nat} {a b : Fin 64} (ho : oneOp op = true)
    (he : encode (k a b) = some [word4 op 0 a.val b.val]) (ht : ∀ w, oneTable op w = k2 k w) : Statement (k a b) := by
  have hl : op < 256 := by have := oneOp_lt ho; omega
  have hB : B4 0 a.val b.val := ⟨by omega, by omega, by omega⟩
  refine .ofBytes hB he ho ?_
  rw [ht]
  simp [k2, w4d hB hl, w4a hB hl, w4b hB hl, pure, Except.pure]
theorem ofK3 {k : Fin 64 → Fin 64 → Fin 64 → Instr} {op : Nat} {d a b : Fin 64} (ho : oneOp op = true)
    (he : encode (k d a b) = some [word4 op d.val a.val b.val]) (ht : ∀ w, oneTable op w = k3 k w) : Statement (k d a b) := by
  have hl : op < 256 := by have := oneOp_lt ho; omega
  have hB : B4 d.val a.val b.val := ⟨by omega, by omega, by omega⟩
  refine .ofBytes hB he ho ?_
  rw [ht]
  simp [k3, w4d hB hl, w4a hB hl, w4b hB hl, pure, Except.pure]
theorem ofKd1 {k : Fin 64 → Fin 64 → Instr} {op : Nat} {d a : Fin 64} (ho : oneOp op = true)
    (he : encode (k d a) = some [word4 op d.val a.val 0]) (ht : ∀ w, oneTable op w = kd1 k w) : Statement (k d a) := by
  have hl : op < 256 := by have := oneOp_lt ho; omega
  have hB : B4 d.val a.val 0 := ⟨by omega, by omega, by omega⟩
  refine .ofBytes hB he ho ?_
  rw [ht]
  simp [kd1, w4d hB hl, w4a hB hl, w4b hB hl, pure, Except.pure]
theorem ofImm {k : BitVec 8 → Instr} {op : Nat} {n : BitVec 8} (ho : oneOp op = true) (he : encode (k n) = some [word4 op 0 0 n.toNat])
    (ht : ∀ w, oneTable op w = immOnly k w) : Statement (k n) := by
  have hl : op < 256 := by have := oneOp_lt ho; omega
  have hB : B4 0 0 n.toNat := ⟨by omega, by omega, n.isLt⟩
  refine .ofBytes hB he ho ?_
  rw [ht]
  simp [immOnly, f238_word4 hl hB.d hB.a hB.b, w4b hB hl, pure, Except.pure]
theorem ofT0 {i : Instr} {op : Nat} (ho : oneOp op = true) (he : encode i = some [word4 op 0 0 0]) (ht : ∀ w, oneTable op w = t0 i w) :
    Statement i := by
  have hl : op < 256 := by have := oneOp_lt ho; omega
  have hB : B4 0 0 0 := ⟨by omega, by omega, by omega⟩
  refine .ofBytes hB he ho ?_
  rw [ht]
  simp [t0, f230_word4 hl hB.d hB.a hB.b, pure, Except.pure]
theorem ofBound {k kSet : Fin 128 → Bool → Bool → Fin 16 → Instr} {op : Nat} {a : Fin 128} (set : Bool) {n dv : Bool} {i : Fin 16}
    (ho : oneOp op = true) (he : encode (if set then kSet a n dv i else k a n dv i) = encBound op a set n dv i)
    (ht : ∀ w, oneTable op w = boundOp k kSet w) : Statement (if set then kSet a n dv i else k a n dv i) := by
  have hl : op < 256 := by have := oneOp_lt ho; omega
  refine .ofBytes ⟨by omega, f128_lt a, bound_lt set n dv i⟩ he ho ?_
  rw [ht]
  exact boundOp_ok k kSet op a set n dv i hl
theorem ofXc3 {k : Fmt → Dst → Src → Src → Instr} {sub : Nat} {f : Fmt} {d : Dst} {a b : Src} (hs : sub < 256)
    (he : encode (k f d a b) = encXC3 sub f d a b) (ht : ∀ w1 w2, subOp w2 = sub → decodePage0 w1 w2 = xc3 k w1 w2) : Statement (k f d a b) := by
  have hB : B4 d.enc a.enc b.enc := ⟨d.enc_lt, a.enc_lt, b.enc_lt⟩
  refine .ofTwo he (two_word hB).1 fun _ => ?_
  rw [raw_page0 hB, ht _ _ (sub_fmt0 f _ hs)]
  exact xc3_ok k sub f d a b hs
theorem ofXc2 {k : Fmt → Dst → Src → Instr} {sub : Nat} {f : Fmt} {d : Dst} {a : Src} (hs : sub < 256)
    (he : encode (k f d a) = encXC2 sub f d a) (ht : ∀ w1 w2, subOp w2 = sub → decodePage0 w1 w2 = xc2 k w1 w2) : Statement (k f d a) := by
  have hB : B4 d.enc a.enc 0 := ⟨d.enc_lt, a.enc_lt, by omega⟩
  refine .ofTwo he (two_word hB).1 fun _ => ?_
  rw [raw_page0 hB, ht _ _ (sub_fmt0 f _ hs)]
  exact xc2_ok k sub f d a hs
theorem ofXc4 {k : Fmt → Dst → Src → Src → Src → Instr} {sub : Nat} {f : Fmt} {d : Dst} {a b c : Src} (hs : sub < 256)
    (he : encode (k f d a b c) = encXC4 sub f d a b c) (ht : ∀ w1 w2, subOp w2 = sub → decodePage0 w1 w2 = xc4 k w1 w2) :
    Statement (k f d a b c) := by
  have hB : B4 d.enc a.enc b.enc := ⟨d.enc_lt, a.enc_lt, b.enc_lt⟩
  have hc := c.enc_lt
  refine .ofTwo he (two_word hB).1 fun _ => ?_
  rw [raw_page0 hB, ht _ _ (sub_fmt f _ _ hs (by omega))]
  exact xc4_ok k sub f d a b c hs

theorem addI32 : ∀ d a b, Statement (.addI32 d a b) := fun _ _ _ => ofT3 (k := .addI32) (op := 0x00) rfl rfl (fun _ => rfl)
theorem subI32 : ∀ d a b, Statement (.subI32 d a b) := fun _ _ _ => ofT3 (k := .subI32) (op := 0x01) rfl rfl (fun _ => rfl)
theorem mulI32 : ∀ d a b, Statement (.mulI32 d a b) := fun _ _ _ => ofT3 (k := .mulI32) (op := 0x02) rfl rfl (fun _ => rfl)
theorem mulhI32 : ∀ d a b, Statement (.mulhI32 d a b) := fun _ _ _ => ofT3 (k := .mulhI32) (op := 0x03) rfl rfl (fun _ => rfl)
theorem minI32 : ∀ d a b, Statement (.minI32 d a b) := fun _ _ _ => ofT3 (k := .minI32) (op := 0x04) rfl rfl (fun _ => rfl)
theorem maxI32 : ∀ d a b, Statement (.maxI32 d a b) := fun _ _ _ => ofT3 (k := .maxI32) (op := 0x05) rfl rfl (fun _ => rfl)
theorem and : ∀ d a b, Statement (.and d a b) := fun _ _ _ => ofT3 (k := .and) (op := 0x06) rfl rfl (fun _ => rfl)
theorem or : ∀ d a b, Statement (.or d a b) := fun _ _ _ => ofT3 (k := .or) (op := 0x07) rfl rfl (fun _ => rfl)
theorem xor : ∀ d a b, Statement (.xor d a b) := fun _ _ _ => ofT3 (k := .xor) (op := 0x08) rfl rfl (fun _ => rfl)
theorem not : ∀ d a, Statement (.not d a) := fun _ _ => ofT2 (k := .not) (op := 0x09) rfl rfl (fun _ => rfl)
theorem shl : ∀ d a b, Statement (.shl d a b) := fun _ _ _ => ofT3 (k := .shl) (op := 0x0A) rfl rfl (fun _ => rfl)
theorem shr : ∀ d a b, Statement (.shr d a b) := fun _ _ _ => ofT3 (k := .shr) (op := 0x0B) rfl rfl (fun _ => rfl)
theorem sra : ∀ d a b, Statement (.sra d a b) := fun _ _ _ => ofT3 (k := .sra) (op := 0x0C) rfl rfl (fun _ => rfl)
theorem mov : ∀ d a, Statement (.mov d a) := fun _ _ => ofT2 (k := .mov) (op := 0x0D) rfl rfl (fun _ => rfl)
theorem clz : ∀ d a, Statement (.clz d a) := fun _ _ => ofT2 (k := .clz) (op := 0x0E) rfl rfl (fun _ => rfl)
theorem popc : ∀ d a, Statement (.popc d a) := fun _ _ => ofT2 (k := .popc) (op := 0x0F) rfl rfl (fun _ => rfl)
theorem addI32Imm : ∀ d a i, Statement (.addI32Imm d a i) := fun _ _ _ => ofI8 (k := .addI32Imm) (op := 0x10) rfl rfl (fun _ => rfl)
theorem andImm : ∀ d a i, Statement (.andImm d a i) := fun _ _ _ => ofI8 (k := .andImm) (op := 0x11) rfl rfl (fun _ => rfl)
theorem orImm : ∀ d a i, Statement (.orImm d a i) := fun _ _ _ => ofI8 (k := .orImm) (op := 0x12) rfl rfl (fun _ => rfl)
theorem xorImm : ∀ d a i, Statement (.xorImm d a i) := fun _ _ _ => ofI8 (k := .xorImm) (op := 0x13) rfl rfl (fun _ => rfl)
theorem shlImm : ∀ d a i, Statement (.shlImm d a i) := fun _ _ _ => ofI5 (k := .shlImm) (op := 0x14) rfl rfl (fun _ => rfl)
theorem shrImm : ∀ d a i, Statement (.shrImm d a i) := fun _ _ _ => ofI5 (k := .shrImm) (op := 0x15) rfl rfl (fun _ => rfl)
theorem sraImm : ∀ d a i, Statement (.sraImm d a i) := fun _ _ _ => ofI5 (k := .sraImm) (op := 0x16) rfl rfl (fun _ => rfl)
theorem movi : ∀ d i, Statement (.movi d i) := by
  intro d i
  have hi : i.toNat < 65536 := i.isLt
  have hB : B4 d.enc (i.toNat / 256) (i.toNat % 256) := ⟨d.enc_lt, by omega, by omega⟩
  refine .ofBytes (op := 0x17) hB rfl rfl ?_
  simp [oneTable, decodeL0, w4d hB, w4a hB, w4b hB, f150_word4 (show 23 < 256 by decide) hB.d hB.a hB.b, pure, Except.pure]
theorem movhi : ∀ d i, Statement (.movhi d i) := by
  intro d i
  have hi : i.toNat < 65536 := i.isLt
  have hB : B4 d.val (i.toNat / 256) (i.toNat % 256) := ⟨by omega, by omega, by omega⟩
  refine .ofBytes (op := 0x18) hB rfl rfl ?_
  simp [oneTable, decodeL0, w4d hB, w4a hB, w4b hB, f150_word4 (show 24 < 256 by decide) hB.d hB.a hB.b, pure, Except.pure]
theorem movk : ∀ d k m, Statement (.movk d k m) := by
  intro d k m
  have hB : B4 d.enc k.val m.enc := ⟨d.enc_lt, by omega, m.enc_lt⟩
  refine .ofBytes (op := 0x19) hB rfl rfl ?_
  simp [oneTable, decodeL0, w4d hB, w4a hB, w4b hB, pure, Except.pure]
theorem ctz : ∀ d a, Statement (.ctz d a) := fun _ _ => ofT2 (k := .ctz) (op := 0x1A) rfl rfl (fun _ => rfl)
theorem bitrev : ∀ d a, Statement (.bitrev d a) := fun _ _ => ofT2 (k := .bitrev) (op := 0x1B) rfl rfl (fun _ => rfl)
theorem rds : ∀ d r, Statement (.rds d r) := by
  intro d r
  have hB : B4 d.enc r.toNat 0 := ⟨d.enc_lt, r.isLt, by omega⟩
  refine .ofBytes (op := 0x1C) hB rfl rfl ?_
  simp [oneTable, decodeL0, w4d hB, w4a hB, w4b hB, pure, Except.pure]
theorem wrs : ∀ r a, Statement (.wrs r a) := by
  intro r a
  have hB : B4 0 r.toNat a.enc := ⟨by omega, r.isLt, a.enc_lt⟩
  refine .ofBytes (op := 0x1D) hB rfl rfl ?_
  simp [oneTable, decodeL0, w4d hB, w4a hB, w4b hB, pure, Except.pure]
theorem pmovFromReg : ∀ n a, Statement (.pmovFromReg n a) := by
  intro n a
  have hB : B4 n.val a.enc 0 := ⟨by omega, a.enc_lt, by omega⟩
  refine .ofBytes (op := 0x1E) hB rfl rfl ?_
  simp [oneTable, decodeL0, w4d hB, w4a hB, w4b hB, pure, Except.pure]
theorem pmovToReg : ∀ d n, Statement (.pmovToReg d n) := by
  intro d n
  have hB : B4 d.enc n.val 1 := ⟨d.enc_lt, by omega, by omega⟩
  refine .ofBytes (op := 0x1E) hB rfl rfl ?_
  simp [oneTable, decodeL0, w4d hB, w4a hB, w4b hB, pure, Except.pure]
theorem pmovPred : ∀ n m, Statement (.pmovPred n m) := by
  intro n m
  have hB : B4 n.val m.val 2 := ⟨by omega, by omega, by omega⟩
  refine .ofBytes (op := 0x1E) hB rfl rfl ?_
  simp [oneTable, decodeL0, w4d hB, w4a hB, w4b hB, pure, Except.pure]
theorem pnot : ∀ n m, Statement (.pnot n m) := by
  intro n m
  have hB : B4 n.val m.val 0 := ⟨by omega, by omega, by omega⟩
  refine .ofBytes (op := 0x1F) hB rfl rfl ?_
  simp [oneTable, decodeL0, w4d hB, w4a hB, w4b hB, pure, Except.pure]
theorem addF32 : ∀ d a b, Statement (.addF32 d a b) := fun _ _ _ => ofT3 (k := .addF32) (op := 0x20) rfl rfl (fun _ => rfl)
theorem subF32 : ∀ d a b, Statement (.subF32 d a b) := fun _ _ _ => ofT3 (k := .subF32) (op := 0x21) rfl rfl (fun _ => rfl)
theorem mulF32 : ∀ d a b, Statement (.mulF32 d a b) := fun _ _ _ => ofT3 (k := .mulF32) (op := 0x22) rfl rfl (fun _ => rfl)
theorem divF32 : ∀ d a b, Statement (.divF32 d a b) := fun _ _ _ => ofT3 (k := .divF32) (op := 0x23) rfl rfl (fun _ => rfl)
theorem minF32 : ∀ d a b, Statement (.minF32 d a b) := fun _ _ _ => ofT3 (k := .minF32) (op := 0x24) rfl rfl (fun _ => rfl)
theorem maxF32 : ∀ d a b, Statement (.maxF32 d a b) := fun _ _ _ => ofT3 (k := .maxF32) (op := 0x25) rfl rfl (fun _ => rfl)
theorem sqrtF32 : ∀ d a, Statement (.sqrtF32 d a) := fun _ _ => ofT2 (k := .sqrtF32) (op := 0x26) rfl rfl (fun _ => rfl)
theorem rsqrtF32 : ∀ d a, Statement (.rsqrtF32 d a) := fun _ _ => ofT2 (k := .rsqrtF32) (op := 0x27) rfl rfl (fun _ => rfl)
theorem rcpF32 : ∀ d a, Statement (.rcpF32 d a) := fun _ _ => ofT2 (k := .rcpF32) (op := 0x28) rfl rfl (fun _ => rfl)
theorem exp2F32 : ∀ d a, Statement (.exp2F32 d a) := fun _ _ => ofT2 (k := .exp2F32) (op := 0x29) rfl rfl (fun _ => rfl)
theorem log2F32 : ∀ d a, Statement (.log2F32 d a) := fun _ _ => ofT2 (k := .log2F32) (op := 0x2A) rfl rfl (fun _ => rfl)
theorem sinF32 : ∀ d a, Statement (.sinF32 d a) := fun _ _ => ofT2 (k := .sinF32) (op := 0x2B) rfl rfl (fun _ => rfl)
theorem cosF32 : ∀ d a, Statement (.cosF32 d a) := fun _ _ => ofT2 (k := .cosF32) (op := 0x2C) rfl rfl (fun _ => rfl)
theorem tanhF32 : ∀ d a, Statement (.tanhF32 d a) := fun _ _ => ofT2 (k := .tanhF32) (op := 0x2D) rfl rfl (fun _ => rfl)
theorem fclassF32 : ∀ d a, Statement (.fclassF32 d a) := fun _ _ => ofT2 (k := .fclassF32) (op := 0x2E) rfl rfl (fun _ => rfl)
theorem absF32 : ∀ d a, Statement (.absF32 d a) := fun _ _ => ofT2 (k := .absF32) (op := 0x2F) rfl rfl (fun _ => rfl)
theorem lperm : ∀ d a b, Statement (.lperm d a b) := fun _ _ _ => ofT3 (k := .lperm) (op := 0x30) rfl rfl (fun _ => rfl)
theorem lrot : ∀ d a o, Statement (.lrot d a o) := fun _ _ _ => ofOff (k := .lrot) (op := 0x31) rfl rfl (fun _ => rfl)
theorem lxor : ∀ d a o, Statement (.lxor d a o) := fun _ _ _ => ofOff (k := .lxor) (op := 0x32) rfl rfl (fun _ => rfl)
theorem lbcast : ∀ d a o, Statement (.lbcast d a o) := fun _ _ _ => ofOff (k := .lbcast) (op := 0x33) rfl rfl (fun _ => rfl)
theorem lballot : ∀ d a, Statement (.lballot d a) := fun _ _ => ofT2 (k := .lballot) (op := 0x34) rfl rfl (fun _ => rfl)
theorem lmatch : ∀ d a, Statement (.lmatch d a) := fun _ _ => ofT2 (k := .lmatch) (op := 0x35) rfl rfl (fun _ => rfl)
theorem pand : ∀ n m q, Statement (.pand n m q) := fun _ _ _ => ofPred3 (k := .pand) (op := 0x36) rfl rfl (fun _ => rfl)
theorem por : ∀ n m q, Statement (.por n m q) := fun _ _ _ => ofPred3 (k := .por) (op := 0x37) rfl rfl (fun _ => rfl)
theorem pxor : ∀ n m q, Statement (.pxor n m q) := fun _ _ _ => ofPred3 (k := .pxor) (op := 0x38) rfl rfl (fun _ => rfl)
theorem accRead : ∀ d a, Statement (.accRead d a) := fun _ _ => ofT2 (k := .accRead) (op := 0x39) rfl rfl (fun _ => rfl)
theorem accWrite : ∀ a b, Statement (.accWrite a b) := by
  intro a b
  have hB : B4 0 a.enc b.enc := ⟨by omega, a.enc_lt, b.enc_lt⟩
  refine .ofBytes (op := 0x3A) hB rfl rfl ?_
  simp [oneTable, decodeL2, w4d hB, w4a hB, w4b hB, pure, Except.pure]
theorem cardNext : ∀ d p, Statement (.cardNext d p) := by
  intro d p
  have hB : B4 d.enc 0 p.val := ⟨d.enc_lt, by omega, by omega⟩
  refine .ofBytes (op := 0x3B) hB rfl rfl ?_
  simp [oneTable, decodeL2, w4d hB, w4a hB, w4b hB, pure, Except.pure]
theorem cardFeed : ∀ n a b, Statement (.cardFeed n a b) := by
  intro n a b
  have hB : B4 n.val a.enc b.enc := ⟨by omega, a.enc_lt, b.enc_lt⟩
  refine .ofBytes (op := 0x3C) hB rfl rfl ?_
  simp [oneTable, decodeL2, w4d hB, w4a hB, w4b hB, pure, Except.pure]
theorem crc : ∀ d a b, Statement (.crc d a b) := fun _ _ _ => ofT3 (k := .crc) (op := 0x3D) rfl rfl (fun _ => rfl)
theorem absdI32 : ∀ d a b, Statement (.absdI32 d a b) := fun _ _ _ => ofT3 (k := .absdI32) (op := 0x3E) rfl rfl (fun _ => rfl)
theorem mulhN32 : ∀ d a b, Statement (.mulhN32 d a b) := fun _ _ _ => ofT3 (k := .mulhN32) (op := 0x3F) rfl rfl (fun _ => rfl)
theorem br : ∀ p o, Statement (.br p o) := by
  intro p o
  have he := BrPred.enc_lt p
  have hb := o.isLt
  have hx : BrPred.enc p * 2 ^ 19 + o.toNat < 2 ^ 24 := by omega
  refine .ofOne (op := 0x40) (w := BitVec.ofNat 32 (0x40 * 2 ^ 24 + (BrPred.enc p * 2 ^ 19 + o.toNat))) ?_ rfl
    (opcodeOf_w24 (by omega) hx) (isUForm_w24 (by omega) hx) ?_
  · rw [← Nat.add_assoc]; rfl
  · show (do return Instr.br (← brPredOf _) _ : Dec Instr) = _
    rw [brPredOf_w24 _ _ (by omega), off19_w24 _ (by omega) he]; rfl
theorem call : ∀ p o, Statement (.call p o) := by
  intro p o
  have he := BrPred.enc_lt p
  have hb := o.isLt
  have hx : BrPred.enc p * 2 ^ 19 + o.toNat < 2 ^ 24 := by omega
  refine .ofOne (op := 0x41) (w := BitVec.ofNat 32 (0x41 * 2 ^ 24 + (BrPred.enc p * 2 ^ 19 + o.toNat))) ?_ rfl
    (opcodeOf_w24 (by omega) hx) (isUForm_w24 (by omega) hx) ?_
  · rw [← Nat.add_assoc]; rfl
  · show (do return Instr.call (← brPredOf _) _ : Dec Instr) = _
    rw [brPredOf_w24 _ _ (by omega), off19_w24 _ (by omega) he]; rfl
theorem ret : Statement .ret := ofT0 (op := 0x42) rfl rfl (fun _ => rfl)
theorem jr : ∀ a, Statement (.jr a) := by
  intro a
  have hB : B4 0 a.val 0 := ⟨by omega, by omega, by omega⟩
  refine .ofBytes (op := 0x43) hB rfl rfl ?_
  simp [oneTable, decodeL4, w4d hB, w4a hB, w4b hB, pure, Except.pure]
theorem calr : ∀ a, Statement (.calr a) := by
  intro a
  have hB : B4 0 a.val 0 := ⟨by omega, by omega, by omega⟩
  refine .ofBytes (op := 0x44) hB rfl rfl ?_
  simp [oneTable, decodeL4, w4d hB, w4a hB, w4b hB, pure, Except.pure]
theorem switch : ∀ a i, Statement (.switch a i) := by
  intro a i
  have hi : i.toNat < 65536 := i.isLt
  have hB : B4 a.enc (i.toNat / 256) (i.toNat % 256) := ⟨a.enc_lt, by omega, by omega⟩
  refine .ofBytes (op := 0x45) hB rfl rfl ?_
  simp [oneTable, decodeL4, w4d hB, w4a hB, w4b hB, f150_word4 (show 69 < 256 by decide) hB.d hB.a hB.b, pure, Except.pure]
theorem converge : Statement .converge := ofT0 (op := 0x46) rfl rfl (fun _ => rfl)
theorem reform : Statement .reform := ofT0 (op := 0x47) rfl rfl (fun _ => rfl)
theorem spawn : ∀ d a b, Statement (.spawn d a b) := by
  intro d a b
  have hB : B4 d.enc a.val b.val := ⟨d.enc_lt, by omega, by omega⟩
  refine .ofBytes (op := 0x48) hB rfl rfl ?_
  simp [oneTable, decodeL4, w4d hB, w4a hB, w4b hB, pure, Except.pure]
theorem exit : Statement .exit := ofT0 (op := 0x49) rfl rfl (fun _ => rfl)
theorem trap : ∀ n, Statement (.trap n) := fun _ => ofImm (k := .trap) (op := 0x4A) rfl rfl (fun _ => rfl)
theorem brk : ∀ n, Statement (.brk n) := fun _ => ofImm (k := .brk) (op := 0x4B) rfl rfl (fun _ => rfl)
theorem yield : Statement .yield := ofT0 (op := 0x4C) rfl rfl (fun _ => rfl)
theorem sleep : ∀ n, Statement (.sleep n) := fun _ => ofImm (k := .sleep) (op := 0x4D) rfl rfl (fun _ => rfl)
theorem gwait : ∀ d a, Statement (.gwait d a) := by
  intro d a
  have hB : B4 d.enc a.val 0 := ⟨d.enc_lt, by omega, by omega⟩
  refine .ofBytes (op := 0x4E) hB rfl rfl ?_
  simp [oneTable, decodeL4, w4d hB, w4a hB, w4b hB, pure, Except.pure]
theorem gwaitPoll : ∀ d a, Statement (.gwaitPoll d a) := by
  intro d a
  have hB : B4 d.enc a.val 1 := ⟨d.enc_lt, by omega, by omega⟩
  refine .ofBytes (op := 0x4E) hB rfl rfl ?_
  simp [oneTable, decodeL4, w4d hB, w4a hB, w4b hB, pure, Except.pure]
theorem phase : ∀ s, Statement (.phase s) := by
  intro s
  cases s <;> exact .ofBytes (op := 0x4F) ⟨by decide, by decide, by decide⟩ rfl rfl rfl
theorem arrive : ∀ d n, Statement (.arrive d n) := by
  intro d n
  have hB : B4 d.enc n.val 0 := ⟨d.enc_lt, by omega, by omega⟩
  refine .ofBytes (op := 0x50) hB rfl rfl ?_
  simp [oneTable, decodeL4, w4d hB, w4a hB, w4b hB, pure, Except.pure]
theorem wait : ∀ n b, Statement (.wait n b) := by
  intro n b
  have hB : B4 0 n.val b.enc := ⟨by omega, by omega, b.enc_lt⟩
  refine .ofBytes (op := 0x51) hB rfl rfl ?_
  simp [oneTable, decodeL4, w4d hB, w4a hB, w4b hB, pure, Except.pure]
theorem barOwe : ∀ d n b, Statement (.barOwe d n b) := by
  intro d n b
  have hB : B4 d.enc n.val b.val := ⟨d.enc_lt, by omega, by omega⟩
  refine .ofBytes (op := 0x52) hB rfl rfl ?_
  simp [oneTable, decodeL4, w4d hB, w4a hB, w4b hB, pure, Except.pure]
theorem barTest : ∀ p n b, Statement (.barTest p n b) := by
  intro p n b
  have hB : B4 p.val n.val b.enc := ⟨by omega, by omega, b.enc_lt⟩
  refine .ofBytes (op := 0x53) hB rfl rfl ?_
  simp [oneTable, decodeL4, w4d hB, w4a hB, w4b hB, pure, Except.pure]
theorem hankPush : ∀ p a b, Statement (.hankPush p a b) := by
  intro p a b
  have hB : B4 p.val a.val b.enc := ⟨by omega, by omega, b.enc_lt⟩
  refine .ofBytes (op := 0x54) hB rfl rfl ?_
  simp [oneTable, decodeL4, w4d hB, w4a hB, w4b hB, pure, Except.pure]
theorem hankPop : ∀ d a p, Statement (.hankPop d a p) := by
  intro d a p
  have h1 : p.val / 16 = 0 := by omega
  have h2 : p.val / 8 % 2 = 0 := by omega
  have h3 : Fin.ofNat 8 (p.val % 8) = p := fin_ofNat _ _ (by omega)
  have hB : B4 d.val a.val p.val := ⟨by omega, by omega, by omega⟩
  refine .ofBytes (op := 0x55) hB rfl rfl ?_
  first
    | (simp [oneTable, decodeL4, w4d hB, w4a hB, w4b hB, h1, h2, h3, fb_word4 (show 85 < 256 by decide) hB.d hB.a hB.b, pure, Except.pure]; done)
    | (simp [oneTable, decodeL4, w4d hB, w4a hB, w4b hB, h1, h2, h3, fb_word4 (show 85 < 256 by decide) hB.d hB.a hB.b, pure, Except.pure]; exact h3)
theorem hankPopWait : ∀ d a p, Statement (.hankPopWait d a p) := by
  intro d a p
  have h1 : (8 + p.val) / 16 = 0 := by omega
  have h2 : (p.val / 8 + 1) % 2 = 1 := by omega
  have h3 : Fin.ofNat 8 (p.val % 8) = p := fin_ofNat _ _ (by omega)
  have hB : B4 d.val a.val (8 + p.val) := ⟨by omega, by omega, by omega⟩
  refine .ofBytes (op := 0x55) hB rfl rfl ?_
  first
    | (simp [oneTable, decodeL4, w4d hB, w4a hB, w4b hB, h1, h2, h3, fb_word4 (show 85 < 256 by decide) hB.d hB.a hB.b, pure, Except.pure]; done)
    | (simp [oneTable, decodeL4, w4d hB, w4a hB, w4b hB, h1, h2, h3, fb_word4 (show 85 < 256 by decide) hB.d hB.a hB.b, pure, Except.pure]; exact h3)
theorem hankSteal : ∀ d a p, Statement (.hankSteal d a p) := by
  intro d a p
  have hB : B4 d.val a.val p.val := ⟨by omega, by omega, by omega⟩
  refine .ofBytes (op := 0x56) hB rfl rfl ?_
  simp [oneTable, decodeL4, w4d hB, w4a hB, w4b hB, pure, Except.pure]
theorem hankSize : ∀ d a, Statement (.hankSize d a) := by
  intro d a
  have hB : B4 d.val a.val 0 := ⟨by omega, by omega, by omega⟩
  refine .ofBytes (op := 0x57) hB rfl rfl ?_
  simp [oneTable, decodeL4, w4d hB, w4a hB, w4b hB, pure, Except.pure]
theorem boundMin : ∀ a n v i, Statement (.boundMin a n v i) := by
  intro a n v i
  exact ofBound (k := .boundMin) (kSet := .boundMinSet) (op := 0x58) (a := a) false (n := n) (dv := v) (i := i) rfl rfl (fun _ => rfl)
theorem boundMinSet : ∀ a n v i, Statement (.boundMinSet a n v i) := by
  intro a n v i
  exact ofBound (k := .boundMin) (kSet := .boundMinSet) (op := 0x58) (a := a) true (n := n) (dv := v) (i := i) rfl rfl (fun _ => rfl)
theorem boundMax : ∀ a n v i, Statement (.boundMax a n v i) := by
  intro a n v i
  exact ofBound (k := .boundMax) (kSet := .boundMaxSet) (op := 0x59) (a := a) false (n := n) (dv := v) (i := i) rfl rfl (fun _ => rfl)
theorem boundMaxSet : ∀ a n v i, Statement (.boundMaxSet a n v i) := by
  intro a n v i
  exact ofBound (k := .boundMax) (kSet := .boundMaxSet) (op := 0x59) (a := a) true (n := n) (dv := v) (i := i) rfl rfl (fun _ => rfl)
theorem boundGet : ∀ d v i, Statement (.boundGet d v i) := by
  intro d v i
  have hi := i.isLt
  have e7 : (boolNat v * 16 + i.val) / 2 ^ 5 % 2 ^ (7 - 5 + 1) = 0 := by
    cases v <;> simp only [boolNat, if_true, Bool.false_eq_true, if_false] <;> omega
  have e4 : (boolNat v * 16 + i.val) / 2 ^ 4 % 2 ^ (4 - 4 + 1) = boolNat v := by
    cases v <;> simp only [boolNat, if_true, Bool.false_eq_true, if_false] <;> omega
  have e0 : Fin.ofNat 16 ((boolNat v * 16 + i.val) / 2 ^ 0 % 2 ^ (3 - 0 + 1)) = i := fin_ofNat _ _ (by omega)
  have h0 : (0x5A : Nat) < 256 := by omega
  have hB : B4 d.val 0 (boolNat v * 16 + i.val) := ⟨f128_lt d, by omega, boundGet_lt v i⟩
  refine .ofBytes (op := 0x5A) hB rfl rfl ?_
  show (do zero (fA _); zero (field _ 7 5); return Instr.boundGet (← regOf (fD _)) (field _ 4 4 == 1) (Fin.ofNat 16 (field _ 3 0)) : Dec Instr) = _
  rw [w4a hB h0, w4d hB h0, fb_word4 h0 hB.d hB.a hB.b (by omega) (by omega), fb_word4 h0 hB.d hB.a hB.b (by omega) (by omega),
    fb_word4 h0 hB.d hB.a hB.b (by omega) (by omega), e7, e4, e0, regOf_val, bool_eq1]
  rfl
theorem regclaim : ∀ n, Statement (.regclaim n) := fun _ => ofImm (k := .regclaim) (op := 0x5B) rfl rfl (fun _ => rfl)
theorem regrel : ∀ n, Statement (.regrel n) := fun _ => ofImm (k := .regrel) (op := 0x5C) rfl rfl (fun _ => rfl)
theorem chpoll : ∀ d c, Statement (.chpoll d c) := by
  intro d c
  have hB : B4 d.enc c.val 0 := ⟨d.enc_lt, by omega, by omega⟩
  refine .ofBytes (op := 0x5D) hB rfl rfl ?_
  simp [oneTable, decodeL4, w4d hB, w4a hB, w4b hB, pure, Except.pure]
theorem wSend : ∀ a b, Statement (.wSend a b) := by
  intro a b
  have hB : B4 0 a.enc b.val := ⟨by omega, a.enc_lt, by omega⟩
  refine .ofBytes (op := 0x5E) hB rfl rfl ?_
  simp [oneTable, decodeL4, w4d hB, w4a hB, w4b hB, pure, Except.pure]
theorem wRecv : ∀ d, Statement (.wRecv d) := by
  intro d
  have hB : B4 d.val 0 0 := ⟨by omega, by omega, by omega⟩
  refine .ofBytes (op := 0x5F) hB rfl rfl ?_
  simp [oneTable, decodeL4, w4d hB, w4a hB, w4b hB, f150_word4 (show 95 < 256 by decide) hB.d hB.a hB.b, pure, Except.pure]
theorem sadd : ∀ d a b, Statement (.sadd d a b) := fun _ _ _ => ofU3 (k := .sadd) (op := 0x80) rfl rfl (fun _ => rfl)
theorem ssub : ∀ d a b, Statement (.ssub d a b) := fun _ _ _ => ofU3 (k := .ssub) (op := 0x81) rfl rfl (fun _ => rfl)
theorem sand : ∀ d a b, Statement (.sand d a b) := fun _ _ _ => ofU3 (k := .sand) (op := 0x82) rfl rfl (fun _ => rfl)
theorem sor : ∀ d a b, Statement (.sor d a b) := fun _ _ _ => ofU3 (k := .sor) (op := 0x83) rfl rfl (fun _ => rfl)
theorem sxor : ∀ d a b, Statement (.sxor d a b) := fun _ _ _ => ofU3 (k := .sxor) (op := 0x84) rfl rfl (fun _ => rfl)
theorem sshl : ∀ d a b, Statement (.sshl d a b) := fun _ _ _ => ofU3 (k := .sshl) (op := 0x85) rfl rfl (fun _ => rfl)
theorem sshr : ∀ d a b, Statement (.sshr d a b) := fun _ _ _ => ofU3 (k := .sshr) (op := 0x86) rfl rfl (fun _ => rfl)
theorem smov : ∀ d a, Statement (.smov d a) := by
  intro d a
  have hB : B4 d.enc a.enc 0 := ⟨d.enc_lt, a.enc_lt, by omega⟩
  refine .ofBytes (op := 0x87) hB rfl rfl ?_
  simp [oneTable, decodeU, w4d hB, w4a hB, w4b hB, pure, Except.pure]
theorem smovi : ∀ d i, Statement (.smovi d i) := by
  intro d i
  have hi : i.toNat < 65536 := i.isLt
  have hB : B4 d.enc (i.toNat / 256) (i.toNat % 256) := ⟨d.enc_lt, by omega, by omega⟩
  refine .ofBytes (op := 0x88) hB rfl rfl ?_
  simp [oneTable, decodeU, w4d hB, w4a hB, w4b hB, f150_word4 (show 136 < 256 by decide) hB.d hB.a hB.b, pure, Except.pure]
theorem smovh : ∀ d i, Statement (.smovh d i) := by
  intro d i
  have hi : i.toNat < 65536 := i.isLt
  have hB : B4 d.val (i.toNat / 256) (i.toNat % 256) := ⟨by omega, by omega, by omega⟩
  refine .ofBytes (op := 0x89) hB rfl rfl ?_
  simp [oneTable, decodeU, w4d hB, w4a hB, w4b hB, f150_word4 (show 137 < 256 by decide) hB.d hB.a hB.b, pure, Except.pure]
theorem sbr : ∀ c k o, Statement (.sbr c k o) := by
  intro c k o
  have he := SCond.enc_lt c
  have hk := k.isLt
  have ho := o.isLt
  have hx : c.enc * 2 ^ 21 + k.val * 2 ^ 15 + o.toNat < 2 ^ 24 := by omega
  refine .ofOne (op := 0x8A) (w := BitVec.ofNat 32 (0x8A * 2 ^ 24 + (c.enc * 2 ^ 21 + k.val * 2 ^ 15 + o.toNat))) ?_ rfl
    (opcodeOf_w24 (by omega) hx) (isUForm_w24 (by omega) hx) ?_
  · rw [← Nat.add_assoc, ← Nat.add_assoc]; rfl
  · show (do return Instr.sbr (← scondOf (field _ 23 21)) (Fin.ofNat 64 (field _ 20 15)) (BitVec.ofNat 15 (field _ 14 0)) : Dec Instr) = _
    have e := w24_toNat (show 0x8A < 256 by omega) hx
    rw [show field _ 23 21 = c.enc by simp only [field, e]; omega]
    rw [show Fin.ofNat 64 (field _ 20 15) = k by apply fin_ofNat; simp only [field, e]; omega]
    rw [show BitVec.ofNat 15 (field _ 14 0) = o by apply BitVec.eq_of_toNat_eq; simp only [field, e, BitVec.toNat_ofNat]; omega]
    rw [scondOf_enc]; rfl
theorem rdsr : ∀ d r, Statement (.rdsr d r) := by
  intro d r
  have hB : B4 d.enc r.toNat 0 := ⟨d.enc_lt, r.isLt, by omega⟩
  refine .ofBytes (op := 0x8B) hB rfl rfl ?_
  simp [oneTable, decodeU, w4d hB, w4a hB, w4b hB, pure, Except.pure]
theorem wrsr : ∀ r a, Statement (.wrsr r a) := by
  intro r a
  have hB : B4 0 r.toNat a.enc := ⟨by omega, r.isLt, a.enc_lt⟩
  refine .ofBytes (op := 0x8C) hB rfl rfl ?_
  simp [oneTable, decodeU, w4d hB, w4a hB, w4b hB, pure, Except.pure]
theorem barInit : ∀ n a k, Statement (.barInit n a k) := by
  intro n a k
  cases k <;> (refine .ofBytes (op := 0x8D) ⟨by omega, by omega, by decide⟩ rfl rfl ?_
               simp [oneTable, decodeU, BarKind.enc, fD_word4, fA_word4, fB_word4, f16_lt, f64_lt, pure, Except.pure])
theorem hankInit : ∀ a b, Statement (.hankInit a b) := fun _ _ => ofK2 (k := .hankInit) (op := 0x8E) rfl rfl (fun _ => rfl)
theorem chbind : ∀ c a, Statement (.chbind c a) := by
  intro c a
  have hB : B4 c.val a.val 0 := ⟨by omega, by omega, by omega⟩
  refine .ofBytes (op := 0x8F) hB rfl rfl ?_
  simp [oneTable, decodeU, w4d hB, w4a hB, w4b hB, pure, Except.pure]
theorem chfree : ∀ c, Statement (.chfree c) := by
  intro c
  have hB : B4 c.val 0 0 := ⟨by omega, by omega, by omega⟩
  refine .ofBytes (op := 0x90) hB rfl rfl ?_
  simp [oneTable, decodeU, w4d hB, w4a hB, w4b hB, f150_word4 (show 144 < 256 by decide) hB.d hB.a hB.b, pure, Except.pure]
theorem guardSet : ∀ g a, Statement (.guardSet g a) := by
  intro g a
  have hB : B4 g.val a.val 0 := ⟨by omega, by omega, by omega⟩
  refine .ofBytes (op := 0x91) hB rfl rfl ?_
  simp [oneTable, decodeU, w4d hB, w4a hB, w4b hB, pure, Except.pure]
theorem mxAcquire : Statement .mxAcquire := ofT0 (op := 0x92) rfl rfl (fun _ => rfl)
theorem mxRelease : Statement .mxRelease := ofT0 (op := 0x93) rfl rfl (fun _ => rfl)
theorem mxIssue : ∀ a, Statement (.mxIssue a) := fun _ => ofK1 (k := .mxIssue) (op := 0x94) rfl rfl (fun _ => rfl)
theorem accAlloc : ∀ d a, Statement (.accAlloc d a) := fun _ _ => ofKd1 (k := .accAlloc) (op := 0x95) rfl rfl (fun _ => rfl)
theorem accFree : ∀ a, Statement (.accFree a) := fun _ => ofK1 (k := .accFree) (op := 0x96) rfl rfl (fun _ => rfl)
theorem accZero : ∀ a, Statement (.accZero a) := fun _ => ofK1 (k := .accZero) (op := 0x97) rfl rfl (fun _ => rfl)
theorem accDrain : ∀ a b, Statement (.accDrain a b) := fun _ _ => ofK2 (k := .accDrain) (op := 0x98) rfl rfl (fun _ => rfl)
theorem accPack : ∀ a b, Statement (.accPack a b) := fun _ _ => ofK2 (k := .accPack) (op := 0x99) rfl rfl (fun _ => rfl)
theorem xfer : ∀ d a b, Statement (.xfer d a b) := fun _ _ _ => ofK3 (k := .xfer) (op := 0x9A) rfl rfl (fun _ => rfl)
theorem xferMc : ∀ d a b, Statement (.xferMc d a b) := fun _ _ _ => ofK3 (k := .xferMc) (op := 0x9B) rfl rfl (fun _ => rfl)
theorem bufDecl : ∀ a, Statement (.bufDecl a) := fun _ => ofK1 (k := .bufDecl) (op := 0x9C) rfl rfl (fun _ => rfl)
theorem bufSet : ∀ n k, Statement (.bufSet n k) := by
  intro n k
  cases k <;> (refine .ofBytes (op := 0x9D) ⟨by omega, by omega, by decide⟩ rfl rfl ?_
               simp [oneTable, decodeU, BufSetTo.enc, fD_word4, fA_word4, fB_word4, f16_lt, f64_lt, pure, Except.pure])
theorem cardOpenX : ∀ a, Statement (.cardOpenX a) := fun _ => ofK1 (k := .cardOpenX) (op := 0x9E) rfl rfl (fun _ => rfl)
theorem cardOpenM : ∀ a, Statement (.cardOpenM a) := fun _ => ofK1 (k := .cardOpenM) (op := 0x9F) rfl rfl (fun _ => rfl)
theorem cardSplit : ∀ a, Statement (.cardSplit a) := fun _ => ofK1 (k := .cardSplit) (op := 0xA0) rfl rfl (fun _ => rfl)
theorem cardSave : ∀ a, Statement (.cardSave a) := fun _ => ofK1 (k := .cardSave) (op := 0xA1) rfl rfl (fun _ => rfl)
theorem cardRestore : ∀ a, Statement (.cardRestore a) := fun _ => ofK1 (k := .cardRestore) (op := 0xA2) rfl rfl (fun _ => rfl)
theorem cardClose : Statement .cardClose := ofT0 (op := 0xA3) rfl rfl (fun _ => rfl)
theorem sfUnbind : ∀ a, Statement (.sfUnbind a) := fun _ => ofK1 (k := .sfUnbind) (op := 0xA4) rfl rfl (fun _ => rfl)
theorem ctxsave : ∀ d a b, Statement (.ctxsave d a b) := fun _ _ _ => ofK3 (k := .ctxsave) (op := 0xA5) rfl rfl (fun _ => rfl)
theorem ctxload : ∀ d a b, Statement (.ctxload d a b) := fun _ _ _ => ofK3 (k := .ctxload) (op := 0xA6) rfl rfl (fun _ => rfl)
theorem tsync : Statement .tsync := ofT0 (op := 0xA7) rfl rfl (fun _ => rfl)
theorem replay : Statement .replay := ofT0 (op := 0xA8) rfl rfl (fun _ => rfl)
theorem idle : ∀ d a, Statement (.idle d a) := fun _ _ => ofKd1 (k := .idle) (op := 0xA9) rfl rfl (fun _ => rfl)
theorem halt : Statement .halt := ofT0 (op := 0xAA) rfl rfl (fun _ => rfl)
theorem errack : ∀ a b, Statement (.errack a b) := fun _ _ => ofK2 (k := .errack) (op := 0xAB) rfl rfl (fun _ => rfl)
theorem add : ∀ f d a b, Statement (.add f d a b) := fun _ _ _ _ => ofXc3 (k := .add) (sub := 0x00) (by decide) rfl (fun w1 w2 h => by rw [decodePage0, h]; rfl)
theorem sub : ∀ f d a b, Statement (.sub f d a b) := fun _ _ _ _ => ofXc3 (k := .sub) (sub := 0x01) (by decide) rfl (fun w1 w2 h => by rw [decodePage0, h]; rfl)
theorem mul : ∀ f d a b, Statement (.mul f d a b) := fun _ _ _ _ => ofXc3 (k := .mul) (sub := 0x02) (by decide) rfl (fun w1 w2 h => by rw [decodePage0, h]; rfl)
theorem mulh : ∀ f d a b, Statement (.mulh f d a b) := fun _ _ _ _ => ofXc3 (k := .mulh) (sub := 0x03) (by decide) rfl (fun w1 w2 h => by rw [decodePage0, h]; rfl)
theorem div : ∀ f d a b, Statement (.div f d a b) := fun _ _ _ _ => ofXc3 (k := .div) (sub := 0x04) (by decide) rfl (fun w1 w2 h => by rw [decodePage0, h]; rfl)
theorem rem : ∀ f d a b, Statement (.rem f d a b) := fun _ _ _ _ => ofXc3 (k := .rem) (sub := 0x05) (by decide) rfl (fun w1 w2 h => by rw [decodePage0, h]; rfl)
theorem min : ∀ f d a b, Statement (.min f d a b) := fun _ _ _ _ => ofXc3 (k := .min) (sub := 0x06) (by decide) rfl (fun w1 w2 h => by rw [decodePage0, h]; rfl)
theorem max : ∀ f d a b, Statement (.max f d a b) := fun _ _ _ _ => ofXc3 (k := .max) (sub := 0x07) (by decide) rfl (fun w1 w2 h => by rw [decodePage0, h]; rfl)
theorem abs : ∀ f d a, Statement (.abs f d a) := fun _ _ _ => ofXc2 (k := .abs) (sub := 0x08) (by decide) rfl (fun w1 w2 h => by rw [decodePage0, h]; rfl)
theorem neg : ∀ f d a, Statement (.neg f d a) := fun _ _ _ => ofXc2 (k := .neg) (sub := 0x09) (by decide) rfl (fun w1 w2 h => by rw [decodePage0, h]; rfl)
theorem absd : ∀ f d a b, Statement (.absd f d a b) := fun _ _ _ _ => ofXc3 (k := .absd) (sub := 0x0A) (by decide) rfl (fun w1 w2 h => by rw [decodePage0, h]; rfl)
theorem sqrt : ∀ f d a, Statement (.sqrt f d a) := fun _ _ _ => ofXc2 (k := .sqrt) (sub := 0x0B) (by decide) rfl (fun w1 w2 h => by rw [decodePage0, h]; rfl)
theorem fma : ∀ f d a b c, Statement (.fma f d a b c) := fun _ _ _ _ _ => ofXc4 (k := .fma) (sub := 0x0C) (by decide) rfl (fun w1 w2 h => by rw [decodePage0, h]; rfl)
theorem mad : ∀ f d a b c, Statement (.mad f d a b c) := fun _ _ _ _ _ => ofXc4 (k := .mad) (sub := 0x0D) (by decide) rfl (fun w1 w2 h => by rw [decodePage0, h]; rfl)
theorem madw : ∀ f d a b c, Statement (.madw f d a b c) := fun _ _ _ _ _ => ofXc4 (k := .madw) (sub := 0x0E) (by decide) rfl (fun w1 w2 h => by rw [decodePage0, h]; rfl)
theorem scalb : ∀ f d a b, Statement (.scalb f d a b) := fun _ _ _ _ => ofXc3 (k := .scalb) (sub := 0x0F) (by decide) rfl (fun w1 w2 h => by rw [decodePage0, h]; rfl)
theorem rnd : ∀ f d a, Statement (.rnd f d a) := fun _ _ _ => ofXc2 (k := .rnd) (sub := 0x10) (by decide) rfl (fun w1 w2 h => by rw [decodePage0, h]; rfl)
theorem cvt : ∀ f d a, Statement (.cvt f d a) := by
  intro f d a
  have := d.enc_lt
  have := a.enc_lt
  have := f.rc.enc_lt
  have := f.dst.enc_lt
  have := f.src.enc_lt
  have := f.spk.enc_lt
  have := f.dpk.enc_lt
  have := f.dst.flag_lt
  have := f.src.flag_lt
  have hB : B4 d.enc a.enc 0 := ⟨by omega, by omega, by omega⟩
  have h2 : B2 0x11 f.rc.enc f.dst.enc (f.src.enc * 2 ^ 12 + f.spk.enc * 2 ^ 10 + f.dpk.enc * 2 ^ 8 + f.dst.flag * 2 ^ 7 + f.src.flag * 2 ^ 6) := ⟨by omega, by omega, by omega, by omega⟩
  refine .ofTwo rfl (two_word hB).1 fun hw => ?_
  rw [raw_page0 hB, decodePage0, w2s h2]
  show decodeCvt _ _ = _
  rw [decodeCvt, w2lo h2 5 0 (by omega) (by omega), zb (by omega), w4b hB (by omega), zb rfl, w2lo h2 7 7 (by omega) (by omega), w2lo h2 6 6 (by omega) (by omega), w2lo h2 15 12 (by omega) (by omega), w2lo h2 9 8 (by omega) (by omega), w2lo h2 11 10 (by omega) (by omega), w2t h2, w2r h2]
  generalize hL : f.src.enc * 2 ^ 12 + f.spk.enc * 2 ^ 10 + f.dpk.enc * 2 ^ 8 + f.dst.flag * 2 ^ 7 + f.src.flag * 2 ^ 6 = L
  rw [show L / 2 ^ 7 % 2 ^ (7 - 7 + 1) = f.dst.flag by omega, show L / 2 ^ 6 % 2 ^ (6 - 6 + 1) = f.src.flag by omega, show L / 2 ^ 12 % 2 ^ (15 - 12 + 1) = f.src.enc by omega, show L / 2 ^ 8 % 2 ^ (9 - 8 + 1) = f.dpk.enc by omega, show L / 2 ^ 10 % 2 ^ (11 - 10 + 1) = f.spk.enc by omega]
  rw [cvtTyOf_ok, bind_ok, cvtTyOf_ok, bind_ok, rcOf_enc, bind_ok, packOf_enc, packOf_enc, w4d hB (by omega), w4a hB (by omega), dstOf_enc, bind_ok, srcOf_enc, bind_ok]
  rfl
theorem pack : ∀ t d a b, Statement (.pack t d a b) := by
  intro t d a b
  have := d.enc_lt
  have := a.enc_lt
  have := b.enc_lt
  have := t.enc_lt
  have := t.packOf.enc_lt
  have hB : B4 d.enc a.enc b.enc := ⟨by omega, by omega, by omega⟩
  have h2 : B2 0x12 0 t.enc (t.packOf.enc * 2 ^ 14) := ⟨by omega, by omega, by omega, by omega⟩
  refine .ofTwo rfl (two_word hB).1 fun hw => ?_
  rw [raw_page0 hB, decodePage0, w2s h2]
  have hp : (t.packOf != .one) = true := by revert hw; simp only [Instr.wf]; cases t <;> simp [Ty.packOf]
  show (do return Instr.pack (← _) (← _) (← _) (← _) : Dec Instr) = _
  rw [packFields_ok t h2 hp, bind_ok, w4d hB (by omega), w4a hB (by omega), w4b hB (by omega), dstOf_enc, srcOf_enc, srcOf_enc]
  rfl
theorem unpack : ∀ t d a, Statement (.unpack t d a) := by
  intro t d a
  have := d.enc_lt
  have := a.enc_lt
  have := t.enc_lt
  have := t.packOf.enc_lt
  have hB : B4 d.enc a.enc 0 := ⟨by omega, by omega, by omega⟩
  have h2 : B2 0x13 0 t.enc (t.packOf.enc * 2 ^ 14) := ⟨by omega, by omega, by omega, by omega⟩
  refine .ofTwo rfl (two_word hB).1 fun hw => ?_
  rw [raw_page0 hB, decodePage0, w2s h2]
  have hp : (t.packOf != .one) = true := by revert hw; simp only [Instr.wf]; cases t <;> simp [Ty.packOf]
  show (do zero _; return Instr.unpack (← _) (← _) (← _) : Dec Instr) = _
  rw [w4b hB (by omega), zb rfl, packFields_ok t h2 hp, bind_ok, w4d hB (by omega), w4a hB (by omega), dstOf_enc, srcOf_enc]
  rfl
theorem cmp : ∀ c t p a b, Statement (.cmp c t p a b) := by
  intro c t p a b
  have := c.enc_lt
  have := t.enc_lt
  have := p.isLt
  have := a.enc_lt
  have := b.enc_lt
  have hB : B4 p.val a.enc b.enc := ⟨by omega, by omega, by omega⟩
  have h2 : B2 0x14 0 t.enc c.enc := ⟨by omega, by omega, by omega, by omega⟩
  refine .ofTwo rfl (two_word hB).1 fun hw => ?_
  rw [raw_page0 hB, decodePage0, w2s h2]
  show (do zero _; zero _; return Instr.cmp (← _) _ (← _) (← _) (← _) : Dec Instr) = _
  rw [w2r h2, zb rfl, w2lo h2 15 4 (by omega) (by omega), zb (by omega), w2lo h2 3 0 (by omega) (by omega), show c.enc / 2 ^ 0 % 2 ^ (3 - 0 + 1) = c.enc by omega, cmpCondOf_enc, w2t h2, tyOf_enc, w4d hB (by omega), w4a hB (by omega), w4b hB (by omega), numOf_val, srcOf_enc, srcOf_enc]
  rfl
theorem sel : ∀ t p n d a b, Statement (.sel t p n d a b) := by
  intro t p n d a b
  have := d.enc_lt
  have := t.enc_lt
  have := p.isLt
  have := a.enc_lt
  have := b.enc_lt
  have := boolNat_lt n
  have hB : B4 d.enc a.enc b.enc := ⟨by omega, by omega, by omega⟩
  have h2 : B2 0x15 0 t.enc (boolNat n * 8 + p.val) := ⟨by omega, by omega, by omega, by omega⟩
  refine .ofTwo rfl (two_word hB).1 fun hw => ?_
  rw [raw_page0 hB, decodePage0, w2s h2]
  show (do zero _; zero _; return Instr.sel _ _ _ (← _) (← _) (← _) : Dec Instr) = _
  rw [w2r h2, zb rfl, w2lo h2 15 4 (by omega) (by omega), zb (by omega), w2lo h2 2 0 (by omega) (by omega), w2lo h2 3 3 (by omega) (by omega), w2t h2, tyOf_enc, fin_eq p (by omega), bool_eq n (by omega), w4d hB (by omega), w4a hB (by omega), w4b hB (by omega), dstOf_enc, srcOf_enc, srcOf_enc]
  rfl
theorem lea : ∀ s o sh d a b, Statement (.lea s o sh d a b) := by
  intro s o sh d a b
  have := d.enc_lt
  have := a.enc_lt
  have := b.enc_lt
  have := encSigned_lt s
  have := o.isLt
  have := sh.isLt
  have hB : B4 d.enc a.enc b.enc := ⟨by omega, by omega, by omega⟩
  have h2 : B2 0x16 0 (encSigned s) (o.toNat * 4 + sh.val) := ⟨by omega, by omega, by omega, by omega⟩
  refine .ofTwo rfl (two_word hB).1 fun hw => ?_
  rw [raw_page0 hB, decodePage0, w2s h2]
  show (do return Instr.lea (← _) _ _ (← _) (← _) (← _) : Dec Instr) = _
  rw [signed32_ok s h2, bind_ok, w2lo h2 15 2 (by omega) (by omega), w2lo h2 1 0 (by omega) (by omega), bv_eq o (by omega), fin_eq sh (by omega), w4d hB (by omega), w4a hB (by omega), w4b hB (by omega), dstOf_enc, srcOf_enc, srcOf_enc]
  rfl
theorem bfe : ∀ s p l d a, Statement (.bfe s p l d a) := by
  intro s p l d a
  have := d.enc_lt
  have := a.enc_lt
  have := encSigned_lt s
  have := p.isLt
  have := l.isLt
  have hB : B4 d.enc a.enc 0 := ⟨by omega, by omega, by omega⟩
  have h2 : B2 0x17 0 (encSigned s) (l.toNat * 32 + p.toNat) := ⟨by omega, by omega, by omega, by omega⟩
  refine .ofTwo rfl (two_word hB).1 fun hw => ?_
  rw [raw_page0 hB, decodePage0, w2s h2]
  show (do zero _; zero _; return Instr.bfe (← _) _ _ (← _) (← _) : Dec Instr) = _
  rw [w4b hB (by omega), zb rfl, w2lo h2 15 11 (by omega) (by omega), zb (by omega), signed32_ok s h2, bind_ok, w2lo h2 4 0 (by omega) (by omega), w2lo h2 10 5 (by omega) (by omega), bv_eq p (by omega), bv_eq l (by omega), w4d hB (by omega), w4a hB (by omega), dstOf_enc, srcOf_enc]
  rfl
theorem bfi : ∀ p l d a b, Statement (.bfi p l d a b) := by
  intro p l d a b
  have := d.enc_lt
  have := a.enc_lt
  have := b.enc_lt
  have := p.isLt
  have := l.isLt
  have hB : B4 d.enc a.enc b.enc := ⟨by omega, by omega, by omega⟩
  have h2 : B2 0x18 0 6 (l.toNat * 32 + p.toNat) := ⟨by omega, by omega, by omega, by omega⟩
  refine .ofTwo rfl (two_word hB).1 fun hw => ?_
  rw [raw_page0 hB, decodePage0, w2s h2]
  have g : signed32 (word2 0x18 0 6 (l.toNat * 32 + p.toNat)) = .ok false := signed32_ok false h2
  show (zero _ >>= _) = _
  rw [w2lo h2 15 11 (by omega) (by omega), zb (by omega), g, bind_ok, w2lo h2 4 0 (by omega) (by omega), w2lo h2 10 5 (by omega) (by omega), bv_eq p (by omega), bv_eq l (by omega), w4d hB (by omega), w4a hB (by omega), w4b hB (by omega), dstOf_enc, srcOf_enc, srcOf_enc]
  rfl
theorem fsh : ∀ d a b c, Statement (.fsh d a b c) := by
  intro d a b c
  have := d.enc_lt
  have := a.enc_lt
  have := b.enc_lt
  have := c.enc_lt
  have hB : B4 d.enc a.enc b.enc := ⟨by omega, by omega, by omega⟩
  have h2 : B2 0x19 0 6 c.enc := ⟨by omega, by omega, by omega, by omega⟩
  refine .ofTwo rfl (two_word hB).1 fun hw => ?_
  rw [raw_page0 hB, decodePage0, w2s h2]
  have g : signed32 (word2 0x19 0 6 c.enc) = .ok false := signed32_ok false h2
  show (zero _ >>= _) = _
  rw [w2lo h2 15 8 (by omega) (by omega), zb (by omega), g, bind_ok, w2lo h2 7 0 (by omega) (by omega), show c.enc / 2 ^ 0 % 2 ^ (7 - 0 + 1) = c.enc by omega, w4d hB (by omega), w4a hB (by omega), w4b hB (by omega), dstOf_enc, srcOf_enc, srcOf_enc, srcOf_enc]
  rfl
theorem lscan : ∀ op e t rc d a, Statement (.lscan op e t rc d a) := by
  intro op e t rc d a
  have := d.enc_lt
  have := a.enc_lt
  have := rc.enc_lt
  have := t.enc_lt
  have := op.enc_lt
  have := boolNat_lt e
  have hB : B4 d.enc a.enc 0 := ⟨by omega, by omega, by omega⟩
  have h2 : B2 0x1A rc.enc t.enc (boolNat e * 16 + op.enc) := ⟨by omega, by omega, by omega, by omega⟩
  refine .ofTwo rfl (two_word hB).1 fun hw => ?_
  rw [raw_page0 hB, decodePage0, w2s h2]
  show (do zero _; zero _; return Instr.lscan (← _) _ _ (← _) (← _) (← _) : Dec Instr) = _
  rw [w4b hB (by omega), zb rfl, w2lo h2 15 5 (by omega) (by omega), zb (by omega), w2lo h2 3 0 (by omega) (by omega), w2lo h2 4 4 (by omega) (by omega), show (boolNat e * 16 + op.enc) / 2 ^ 0 % 2 ^ (3 - 0 + 1) = op.enc by omega, redOpOf_enc, bool_eq e (by omega), w2t h2, tyOf_enc, w2r h2, rcOf_enc, w4d hB (by omega), w4a hB (by omega), dstOf_enc, srcOf_enc]
  rfl
theorem lred : ∀ op t rc d a, Statement (.lred op t rc d a) := by
  intro op t rc d a
  have := d.enc_lt
  have := a.enc_lt
  have := rc.enc_lt
  have := t.enc_lt
  have := op.enc_lt
  have hB : B4 d.enc a.enc 0 := ⟨by omega, by omega, by omega⟩
  have h2 : B2 0x1B rc.enc t.enc op.enc := ⟨by omega, by omega, by omega, by omega⟩
  refine .ofTwo rfl (two_word hB).1 fun hw => ?_
  rw [raw_page0 hB, decodePage0, w2s h2]
  show (do zero _; zero _; return Instr.lred (← _) _ (← _) (← _) (← _) : Dec Instr) = _
  rw [w4b hB (by omega), zb rfl, w2lo h2 15 4 (by omega) (by omega), zb (by omega), w2lo h2 3 0 (by omega) (by omega), show op.enc / 2 ^ 0 % 2 ^ (3 - 0 + 1) = op.enc by omega, redOpOf_enc, w2t h2, tyOf_enc, w2r h2, rcOf_enc, w4d hB (by omega), w4a hB (by omega), dstOf_enc, srcOf_enc]
  rfl
theorem ld : ∀ t d m, Statement (.ld t d m) := by
  intro t d m
  have := d.enc_lt
  have := t.enc_lt
  have := m.base.isLt
  have := m.encB_lt
  have := m.encLo_lt
  have hB : B4 d.enc m.base.val m.encB := ⟨by omega, by omega, by omega⟩
  have h2 : B2 0x1C 0 t.enc m.encLo := ⟨by omega, by omega, by omega, by omega⟩
  refine .ofTwo rfl (two_word hB).1 fun hw => ?_
  rw [raw_page0 hB, decodePage0, w2s h2]
  show (do return Instr.ld _ (← _) (← _) : Dec Instr) = _
  rw [w2t h2, tyOf_enc, w4d hB (by omega), dstOf_enc, bind_ok, memPlain_ok m (by omega) hB h2]
  rfl
theorem st : ∀ t d m, Statement (.st t d m) := by
  intro t d m
  have := d.enc_lt
  have := t.enc_lt
  have := m.base.isLt
  have := m.encB_lt
  have := m.encLo_lt
  have hB : B4 d.enc m.base.val m.encB := ⟨by omega, by omega, by omega⟩
  have h2 : B2 0x1D 0 t.enc m.encLo := ⟨by omega, by omega, by omega, by omega⟩
  refine .ofTwo rfl (two_word hB).1 fun hw => ?_
  rw [raw_page0 hB, decodePage0, w2s h2]
  show (do return Instr.st _ (← _) (← _) : Dec Instr) = _
  rw [w2t h2, tyOf_enc, w4d hB (by omega), srcOf_enc, bind_ok, memPlain_ok m (by omega) hB h2]
  rfl
theorem gld : ∀ t d m, Statement (.gld t d m) := by
  intro t d m
  have := d.enc_lt
  have := t.enc_lt
  have := m.base.isLt
  have := m.encB_lt
  have := m.encLo_lt
  have hB : B4 d.enc m.base.val m.encB := ⟨by omega, by omega, by omega⟩
  have h2 : B2 0x1E 0 t.enc m.encLo := ⟨by omega, by omega, by omega, by omega⟩
  refine .ofTwo rfl (two_word hB).1 fun hw => ?_
  rw [raw_page0 hB, decodePage0, w2s h2]
  show (do return Instr.gld _ (← _) (← _) : Dec Instr) = _
  rw [w2t h2, tyOf_enc, w4d hB (by omega), dstOf_enc, bind_ok, memPlain_ok m (by omega) hB h2]
  rfl
theorem gst : ∀ t d m, Statement (.gst t d m) := by
  intro t d m
  have := d.enc_lt
  have := t.enc_lt
  have := m.base.isLt
  have := m.encB_lt
  have := m.encLo_lt
  have hB : B4 d.enc m.base.val m.encB := ⟨by omega, by omega, by omega⟩
  have h2 : B2 0x1F 0 t.enc m.encLo := ⟨by omega, by omega, by omega, by omega⟩
  refine .ofTwo rfl (two_word hB).1 fun hw => ?_
  rw [raw_page0 hB, decodePage0, w2s h2]
  show (do return Instr.gst _ (← _) (← _) : Dec Instr) = _
  rw [w2t h2, tyOf_enc, w4d hB (by omega), srcOf_enc, bind_ok, memPlain_ok m (by omega) hB h2]
  rfl
theorem atomXchg : ∀ t sc o d m, Statement (.atomXchg t sc o d m) := by
  intro t sc o d m
  have := d.isLt
  have := t.enc_lt
  have := sc.enc_lt
  have := o.enc_lt
  have := m.base.isLt
  have := m.encB_lt
  have := m.encLo_lt
  have hB : B4 d.val m.base.val m.encB := ⟨by omega, by omega, by omega⟩
  have h2 : B2 0 (sc.enc * 4 + o.enc) t.enc (0 * 2 ^ 12 + m.encLo) := ⟨by omega, by omega, by omega, by omega⟩
  refine .ofTwo rfl (two_word hB).2.1 fun hw => ?_
  rw [raw_page1 hB, decodePage1, w2s h2]
  show decodeAtom _ _ = _
  rw [decodeAtom, w2t h2, tyOf_enc, w2sc h2, w2or h2, show (sc.enc * 4 + o.enc) / 4 = sc.enc by omega, show (sc.enc * 4 + o.enc) % 4 = o.enc by omega, scopeOf_enc, orderOf_enc, w4d hB (by omega), regOf_val, bind_ok, memOf_ok m (by omega) hB h2, bind_ok, w2lo h2 15 12 (by omega) (by omega), show (0 * 2 ^ 12 + m.encLo) / 2 ^ 12 % 2 ^ (15 - 12 + 1) = 0 by omega]
  rfl
theorem atomAdd : ∀ t sc o d m, Statement (.atomAdd t sc o d m) := by
  intro t sc o d m
  have := d.isLt
  have := t.enc_lt
  have := sc.enc_lt
  have := o.enc_lt
  have := m.base.isLt
  have := m.encB_lt
  have := m.encLo_lt
  have hB : B4 d.val m.base.val m.encB := ⟨by omega, by omega, by omega⟩
  have h2 : B2 0 (sc.enc * 4 + o.enc) t.enc (1 * 2 ^ 12 + m.encLo) := ⟨by omega, by omega, by omega, by omega⟩
  refine .ofTwo rfl (two_word hB).2.1 fun hw => ?_
  rw [raw_page1 hB, decodePage1, w2s h2]
  show decodeAtom _ _ = _
  rw [decodeAtom, w2t h2, tyOf_enc, w2sc h2, w2or h2, show (sc.enc * 4 + o.enc) / 4 = sc.enc by omega, show (sc.enc * 4 + o.enc) % 4 = o.enc by omega, scopeOf_enc, orderOf_enc, w4d hB (by omega), regOf_val, bind_ok, memOf_ok m (by omega) hB h2, bind_ok, w2lo h2 15 12 (by omega) (by omega), show (1 * 2 ^ 12 + m.encLo) / 2 ^ 12 % 2 ^ (15 - 12 + 1) = 1 by omega]
  rfl
theorem atomAnd : ∀ t sc o d m, Statement (.atomAnd t sc o d m) := by
  intro t sc o d m
  have := d.isLt
  have := t.enc_lt
  have := sc.enc_lt
  have := o.enc_lt
  have := m.base.isLt
  have := m.encB_lt
  have := m.encLo_lt
  have hB : B4 d.val m.base.val m.encB := ⟨by omega, by omega, by omega⟩
  have h2 : B2 0 (sc.enc * 4 + o.enc) t.enc (2 * 2 ^ 12 + m.encLo) := ⟨by omega, by omega, by omega, by omega⟩
  refine .ofTwo rfl (two_word hB).2.1 fun hw => ?_
  rw [raw_page1 hB, decodePage1, w2s h2]
  show decodeAtom _ _ = _
  rw [decodeAtom, w2t h2, tyOf_enc, w2sc h2, w2or h2, show (sc.enc * 4 + o.enc) / 4 = sc.enc by omega, show (sc.enc * 4 + o.enc) % 4 = o.enc by omega, scopeOf_enc, orderOf_enc, w4d hB (by omega), regOf_val, bind_ok, memOf_ok m (by omega) hB h2, bind_ok, w2lo h2 15 12 (by omega) (by omega), show (2 * 2 ^ 12 + m.encLo) / 2 ^ 12 % 2 ^ (15 - 12 + 1) = 2 by omega]
  rfl
theorem atomOr : ∀ t sc o d m, Statement (.atomOr t sc o d m) := by
  intro t sc o d m
  have := d.isLt
  have := t.enc_lt
  have := sc.enc_lt
  have := o.enc_lt
  have := m.base.isLt
  have := m.encB_lt
  have := m.encLo_lt
  have hB : B4 d.val m.base.val m.encB := ⟨by omega, by omega, by omega⟩
  have h2 : B2 0 (sc.enc * 4 + o.enc) t.enc (3 * 2 ^ 12 + m.encLo) := ⟨by omega, by omega, by omega, by omega⟩
  refine .ofTwo rfl (two_word hB).2.1 fun hw => ?_
  rw [raw_page1 hB, decodePage1, w2s h2]
  show decodeAtom _ _ = _
  rw [decodeAtom, w2t h2, tyOf_enc, w2sc h2, w2or h2, show (sc.enc * 4 + o.enc) / 4 = sc.enc by omega, show (sc.enc * 4 + o.enc) % 4 = o.enc by omega, scopeOf_enc, orderOf_enc, w4d hB (by omega), regOf_val, bind_ok, memOf_ok m (by omega) hB h2, bind_ok, w2lo h2 15 12 (by omega) (by omega), show (3 * 2 ^ 12 + m.encLo) / 2 ^ 12 % 2 ^ (15 - 12 + 1) = 3 by omega]
  rfl
theorem atomXor : ∀ t sc o d m, Statement (.atomXor t sc o d m) := by
  intro t sc o d m
  have := d.isLt
  have := t.enc_lt
  have := sc.enc_lt
  have := o.enc_lt
  have := m.base.isLt
  have := m.encB_lt
  have := m.encLo_lt
  have hB : B4 d.val m.base.val m.encB := ⟨by omega, by omega, by omega⟩
  have h2 : B2 0 (sc.enc * 4 + o.enc) t.enc (4 * 2 ^ 12 + m.encLo) := ⟨by omega, by omega, by omega, by omega⟩
  refine .ofTwo rfl (two_word hB).2.1 fun hw => ?_
  rw [raw_page1 hB, decodePage1, w2s h2]
  show decodeAtom _ _ = _
  rw [decodeAtom, w2t h2, tyOf_enc, w2sc h2, w2or h2, show (sc.enc * 4 + o.enc) / 4 = sc.enc by omega, show (sc.enc * 4 + o.enc) % 4 = o.enc by omega, scopeOf_enc, orderOf_enc, w4d hB (by omega), regOf_val, bind_ok, memOf_ok m (by omega) hB h2, bind_ok, w2lo h2 15 12 (by omega) (by omega), show (4 * 2 ^ 12 + m.encLo) / 2 ^ 12 % 2 ^ (15 - 12 + 1) = 4 by omega]
  rfl
theorem atomMin : ∀ t sc o d m, Statement (.atomMin t sc o d m) := by
  intro t sc o d m
  have := d.isLt
  have := t.enc_lt
  have := sc.enc_lt
  have := o.enc_lt
  have := m.base.isLt
  have := m.encB_lt
  have := m.encLo_lt
  have hB : B4 d.val m.base.val m.encB := ⟨by omega, by omega, by omega⟩
  have h2 : B2 0 (sc.enc * 4 + o.enc) t.enc (5 * 2 ^ 12 + m.encLo) := ⟨by omega, by omega, by omega, by omega⟩
  refine .ofTwo rfl (two_word hB).2.1 fun hw => ?_
  rw [raw_page1 hB, decodePage1, w2s h2]
  show decodeAtom _ _ = _
  rw [decodeAtom, w2t h2, tyOf_enc, w2sc h2, w2or h2, show (sc.enc * 4 + o.enc) / 4 = sc.enc by omega, show (sc.enc * 4 + o.enc) % 4 = o.enc by omega, scopeOf_enc, orderOf_enc, w4d hB (by omega), regOf_val, bind_ok, memOf_ok m (by omega) hB h2, bind_ok, w2lo h2 15 12 (by omega) (by omega), show (5 * 2 ^ 12 + m.encLo) / 2 ^ 12 % 2 ^ (15 - 12 + 1) = 5 by omega]
  rfl
theorem atomMax : ∀ t sc o d m, Statement (.atomMax t sc o d m) := by
  intro t sc o d m
  have := d.isLt
  have := t.enc_lt
  have := sc.enc_lt
  have := o.enc_lt
  have := m.base.isLt
  have := m.encB_lt
  have := m.encLo_lt
  have hB : B4 d.val m.base.val m.encB := ⟨by omega, by omega, by omega⟩
  have h2 : B2 0 (sc.enc * 4 + o.enc) t.enc (6 * 2 ^ 12 + m.encLo) := ⟨by omega, by omega, by omega, by omega⟩
  refine .ofTwo rfl (two_word hB).2.1 fun hw => ?_
  rw [raw_page1 hB, decodePage1, w2s h2]
  show decodeAtom _ _ = _
  rw [decodeAtom, w2t h2, tyOf_enc, w2sc h2, w2or h2, show (sc.enc * 4 + o.enc) / 4 = sc.enc by omega, show (sc.enc * 4 + o.enc) % 4 = o.enc by omega, scopeOf_enc, orderOf_enc, w4d hB (by omega), regOf_val, bind_ok, memOf_ok m (by omega) hB h2, bind_ok, w2lo h2 15 12 (by omega) (by omega), show (6 * 2 ^ 12 + m.encLo) / 2 ^ 12 % 2 ^ (15 - 12 + 1) = 6 by omega]
  rfl
theorem atomLd : ∀ t sc o d m, Statement (.atomLd t sc o d m) := by
  intro t sc o d m
  have := d.isLt
  have := t.enc_lt
  have := sc.enc_lt
  have := o.enc_lt
  have := m.base.isLt
  have := m.encB_lt
  have := m.encLo_lt
  have hB : B4 d.val m.base.val m.encB := ⟨by omega, by omega, by omega⟩
  have h2 : B2 0 (sc.enc * 4 + o.enc) t.enc (7 * 2 ^ 12 + m.encLo) := ⟨by omega, by omega, by omega, by omega⟩
  refine .ofTwo rfl (two_word hB).2.1 fun hw => ?_
  rw [raw_page1 hB, decodePage1, w2s h2]
  show decodeAtom _ _ = _
  rw [decodeAtom, w2t h2, tyOf_enc, w2sc h2, w2or h2, show (sc.enc * 4 + o.enc) / 4 = sc.enc by omega, show (sc.enc * 4 + o.enc) % 4 = o.enc by omega, scopeOf_enc, orderOf_enc, w4d hB (by omega), regOf_val, bind_ok, memOf_ok m (by omega) hB h2, bind_ok, w2lo h2 15 12 (by omega) (by omega), show (7 * 2 ^ 12 + m.encLo) / 2 ^ 12 % 2 ^ (15 - 12 + 1) = 7 by omega]
  rfl
theorem atomSt : ∀ t sc o d m, Statement (.atomSt t sc o d m) := by
  intro t sc o d m
  have := d.isLt
  have := t.enc_lt
  have := sc.enc_lt
  have := o.enc_lt
  have := m.base.isLt
  have := m.encB_lt
  have := m.encLo_lt
  have hB : B4 d.val m.base.val m.encB := ⟨by omega, by omega, by omega⟩
  have h2 : B2 0 (sc.enc * 4 + o.enc) t.enc (8 * 2 ^ 12 + m.encLo) := ⟨by omega, by omega, by omega, by omega⟩
  refine .ofTwo rfl (two_word hB).2.1 fun hw => ?_
  rw [raw_page1 hB, decodePage1, w2s h2]
  show decodeAtom _ _ = _
  rw [decodeAtom, w2t h2, tyOf_enc, w2sc h2, w2or h2, show (sc.enc * 4 + o.enc) / 4 = sc.enc by omega, show (sc.enc * 4 + o.enc) % 4 = o.enc by omega, scopeOf_enc, orderOf_enc, w4d hB (by omega), regOf_val, bind_ok, memOf_ok m (by omega) hB h2, bind_ok, w2lo h2 15 12 (by omega) (by omega), show (8 * 2 ^ 12 + m.encLo) / 2 ^ 12 % 2 ^ (15 - 12 + 1) = 8 by omega]
  rfl
theorem cas : ∀ t sc o d a b c, Statement (.cas t sc o d a b c) := by
  intro t sc o d a b c
  have := d.isLt
  have := a.isLt
  have := b.isLt
  have := c.isLt
  have := t.enc_lt
  have := sc.enc_lt
  have := o.enc_lt
  have hB : B4 d.val a.val b.val := ⟨by omega, by omega, by omega⟩
  have h2 : B2 0x01 (sc.enc * 4 + o.enc) t.enc c.val := ⟨by omega, by omega, by omega, by omega⟩
  refine .ofTwo rfl (two_word hB).2.1 fun hw => ?_
  rw [raw_page1 hB, decodePage1, w2s h2]
  show (do zero _; return Instr.cas _ _ _ (← _) (← _) (← _) (← _) : Dec Instr) = _
  rw [w2lo h2 15 8 (by omega) (by omega), zb (by omega), w2t h2, tyOf_enc, w2sc h2, w2or h2, show (sc.enc * 4 + o.enc) / 4 = sc.enc by omega, show (sc.enc * 4 + o.enc) % 4 = o.enc by omega, scopeOf_enc, orderOf_enc, w4d hB (by omega), w4a hB (by omega), w4b hB (by omega), w2lo h2 7 0 (by omega) (by omega), show c.val / 2 ^ 0 % 2 ^ (7 - 0 + 1) = c.val by omega, regOf_val, regOf_val, regOf_val, regOf_val]
  rfl
theorem pfch : ∀ t m, Statement (.pfch t m) := by
  intro t m
  have := t.enc_lt
  have := m.base.isLt
  have := m.encB_lt
  have := m.encLo_lt
  have hB : B4 0 m.base.val m.encB := ⟨by omega, by omega, by omega⟩
  have h2 : B2 0x02 0 t.enc m.encLo := ⟨by omega, by omega, by omega, by omega⟩
  refine .ofTwo rfl (two_word hB).2.1 fun hw => ?_
  rw [raw_page1 hB, decodePage1, w2s h2]
  show (do zero _; return Instr.pfch _ (← _) : Dec Instr) = _
  rw [w4d hB (by omega), zb rfl, w2t h2, tyOf_enc, memPlain_ok m (by omega) hB h2]
  rfl
theorem wHop : ∀ a, Statement (.wHop a) := by
  intro a
  have := a.enc_lt
  have hB : B4 0 a.enc 0 := ⟨by omega, by omega, by omega⟩
  have h2 : B2 0x03 0 0 0 := ⟨by omega, by omega, by omega, by omega⟩
  refine .ofTwo rfl (two_word hB).2.1 fun hw => ?_
  rw [raw_page1 hB, decodePage1, w2s h2]
  show (do zero _; zero _; zero _; return Instr.wHop (← _) : Dec Instr) = _
  rw [w4d hB (by omega), zb rfl, w4b hB (by omega), zb rfl, w2all h2, zb, w4a hB (by omega), srcOf_enc]
  all_goals rfl
theorem wEmit : ∀ a n, Statement (.wEmit a n) := by
  intro a n
  have := a.isLt
  have := n.isLt
  have hB : B4 0 a.val 0 := ⟨by omega, by omega, by omega⟩
  have h2 : B2 0x04 0 0 n.val := ⟨by omega, by omega, by omega, by omega⟩
  refine .ofTwo rfl (two_word hB).2.1 fun hw => ?_
  rw [raw_page1 hB, decodePage1, w2s h2]
  show (do zero _; zero _; return Instr.wEmit (← _) (← _) : Dec Instr) = _
  rw [w4d hB (by omega), zb rfl, w4b hB (by omega), zb rfl, w4a hB (by omega), regOf_val, bind_ok, walkNum_ok n h2]
  rfl
theorem wDist : ∀ d a n, Statement (.wDist d a n) := by
  intro d a n
  have := d.isLt
  have := a.isLt
  have := n.isLt
  have hB : B4 d.val a.val 0 := ⟨by omega, by omega, by omega⟩
  have h2 : B2 0x05 0 0 n.val := ⟨by omega, by omega, by omega, by omega⟩
  refine .ofTwo rfl (two_word hB).2.1 fun hw => ?_
  rw [raw_page1 hB, decodePage1, w2s h2]
  show (do zero _; return Instr.wDist (← _) (← _) (← _) : Dec Instr) = _
  rw [w4b hB (by omega), zb rfl, w4d hB (by omega), w4a hB (by omega), regOf_val, bind_ok, regOf_val, bind_ok, walkNum_ok n h2]
  rfl
theorem wHeap : ∀ d a n, Statement (.wHeap d a n) := by
  intro d a n
  have := d.isLt
  have := a.isLt
  have := n.isLt
  have hB : B4 d.val a.val 0 := ⟨by omega, by omega, by omega⟩
  have h2 : B2 0x06 0 0 n.val := ⟨by omega, by omega, by omega, by omega⟩
  refine .ofTwo rfl (two_word hB).2.1 fun hw => ?_
  rw [raw_page1 hB, decodePage1, w2s h2]
  show (do zero _; return Instr.wHeap (← _) (← _) (← _) : Dec Instr) = _
  rw [w4b hB (by omega), zb rfl, w4d hB (by omega), w4a hB (by omega), numOf_val, bind_ok, regOf_val, bind_ok, walkNum_ok n h2]
  rfl
theorem wVisit : ∀ d a n, Statement (.wVisit d a n) := by
  intro d a n
  have := d.isLt
  have := a.enc_lt
  have := n.isLt
  have hB : B4 d.val a.enc 0 := ⟨by omega, by omega, by omega⟩
  have h2 : B2 0x07 0 0 n.val := ⟨by omega, by omega, by omega, by omega⟩
  refine .ofTwo rfl (two_word hB).2.1 fun hw => ?_
  rw [raw_page1 hB, decodePage1, w2s h2]
  show (do zero _; return Instr.wVisit (← _) (← _) (← _) : Dec Instr) = _
  rw [w4b hB (by omega), zb rfl, w4d hB (by omega), w4a hB (by omega), numOf_val, bind_ok, srcOf_enc, bind_ok, walkNum_ok n h2]
  rfl
theorem launch : ∀ d a, Statement (.launch d a) := by
  intro d a
  have := d.isLt
  have := a.isLt
  have hB : B4 d.val a.val 0 := ⟨by omega, by omega, by omega⟩
  have h2 : B2 0x00 0 0 0 := ⟨by omega, by omega, by omega, by omega⟩
  refine .ofTwo rfl (two_word hB).2.2 fun hw => ?_
  rw [raw_u hB, decodeUPage0]
  rw [w2r h2, zb rfl, w2s h2]
  show (zero _ >>= _) = _
  rw [w2t h2, zb rfl]
  show (do zero _; kd1 _ _ : Dec Instr) = _
  rw [w2lo h2 15 0 (by omega) (by omega), zb (by omega), kd1, w4b hB (by omega), zb rfl, w4d hB (by omega), w4a hB (by omega), kOf_val, bind_ok, kOf_val]
  rfl
theorem xferTr : ∀ t cf d a b, Statement (.xferTr t cf d a b) := by
  intro t cf d a b
  have := d.isLt
  have := a.isLt
  have := b.isLt
  have := cf.isLt
  have := t.enc_lt
  have hB : B4 d.val a.val b.val := ⟨by omega, by omega, by omega⟩
  have h2 : B2 0x01 0 t.enc cf.toNat := ⟨by omega, by omega, by omega, by omega⟩
  refine .ofTwo rfl (two_word hB).2.2 fun hw => ?_
  rw [raw_u hB, decodeUPage0]
  rw [w2r h2, zb rfl, w2s h2]
  show (do return Instr.xferTr _ _ (← _) (← _) (← _) : Dec Instr) = _
  rw [w2t h2, tyOf_enc, w2lo h2 15 0 (by omega) (by omega), show cf.toNat / 2 ^ 0 % 2 ^ (15 - 0 + 1) = cf.toNat by omega, bv16_toNat, w4d hB (by omega), w4a hB (by omega), w4b hB (by omega), kOf_val, kOf_val, kOf_val]
  rfl
theorem cgLaunch : ∀ cf a b, Statement (.cgLaunch cf a b) := by
  intro cf a b
  have := a.isLt
  have := b.isLt
  have := cf.isLt
  have hB : B4 0 a.val b.val := ⟨by omega, by omega, by omega⟩
  have h2 : B2 0x02 0 0 cf.toNat := ⟨by omega, by omega, by omega, by omega⟩
  refine .ofTwo rfl (two_word hB).2.2 fun hw => ?_
  rw [raw_u hB, decodeUPage0]
  rw [w2r h2, zb rfl, w2s h2]
  show (zero _ >>= _) = _
  rw [w2t h2, zb rfl]
  show k2 _ _ = _
  rw [w2lo h2 15 0 (by omega) (by omega), show cf.toNat / 2 ^ 0 % 2 ^ (15 - 0 + 1) = cf.toNat by omega, bv16_toNat, k2, w4d hB (by omega), zb rfl, w4a hB (by omega), w4b hB (by omega), kOf_val, bind_ok, kOf_val]
  rfl
theorem sfLoad : ∀ f d a, Statement (.sfLoad f d a) := by
  intro f d a
  have := f.isLt
  have := d.isLt
  have := a.isLt
  have hB : B4 d.val a.val 0 := ⟨by omega, by omega, by omega⟩
  have h2 : B2 0x03 0 0 f.val := ⟨by omega, by omega, by omega, by omega⟩
  refine .ofTwo rfl (two_word hB).2.2 fun hw => ?_
  rw [raw_u hB, decodeUPage0]
  rw [w2r h2, zb rfl, w2s h2]
  show (zero _ >>= _) = _
  rw [w2t h2, zb rfl]
  show (do kd1 (Instr.sfLoad (← _)) _ : Dec Instr) = _
  rw [w2lo h2 15 0 (by omega) (by omega), show f.val / 2 ^ 0 % 2 ^ (15 - 0 + 1) = f.val by omega, numOf_val, bind_ok, kd1, w4b hB (by omega), zb rfl, w4d hB (by omega), w4a hB (by omega), kOf_val, bind_ok, kOf_val]
  rfl
theorem sfBind : ∀ a b, Statement (.sfBind a b) := by
  intro a b
  have := a.isLt
  have := b.isLt
  have hB : B4 0 a.val b.val := ⟨by omega, by omega, by omega⟩
  have h2 : B2 0x04 0 0 0 := ⟨by omega, by omega, by omega, by omega⟩
  refine .ofTwo rfl (two_word hB).2.2 fun hw => ?_
  rw [raw_u hB, decodeUPage0]
  rw [w2r h2, zb rfl, w2s h2]
  show (zero _ >>= _) = _
  rw [w2t h2, zb rfl]
  show (do zero _; k2 _ _ : Dec Instr) = _
  rw [w2lo h2 15 0 (by omega) (by omega), zb (by omega), k2, w4d hB (by omega), zb rfl, w4a hB (by omega), w4b hB (by omega), kOf_val, bind_ok, kOf_val]
  rfl
theorem sfRun : ∀ cf a b, Statement (.sfRun cf a b) := by
  intro cf a b
  have := a.isLt
  have := b.isLt
  have := cf.isLt
  have hB : B4 0 a.val b.val := ⟨by omega, by omega, by omega⟩
  have h2 : B2 0x05 0 0 cf.toNat := ⟨by omega, by omega, by omega, by omega⟩
  refine .ofTwo rfl (two_word hB).2.2 fun hw => ?_
  rw [raw_u hB, decodeUPage0]
  rw [w2r h2, zb rfl, w2s h2]
  show (zero _ >>= _) = _
  rw [w2t h2, zb rfl]
  show k2 _ _ = _
  rw [w2lo h2 15 0 (by omega) (by omega), show cf.toNat / 2 ^ 0 % 2 ^ (15 - 0 + 1) = cf.toNat by omega, bv16_toNat, k2, w4d hB (by omega), zb rfl, w4a hB (by omega), w4b hB (by omega), kOf_val, bind_ok, kOf_val]
  rfl
theorem srchIssue : ∀ cf a b, Statement (.srchIssue cf a b) := by
  intro cf a b
  have := a.isLt
  have := b.isLt
  have := cf.isLt
  have hB : B4 0 a.val b.val := ⟨by omega, by omega, by omega⟩
  have h2 : B2 0x06 0 0 cf.toNat := ⟨by omega, by omega, by omega, by omega⟩
  refine .ofTwo rfl (two_word hB).2.2 fun hw => ?_
  rw [raw_u hB, decodeUPage0]
  rw [w2r h2, zb rfl, w2s h2]
  show (zero _ >>= _) = _
  rw [w2t h2, zb rfl]
  show k2 _ _ = _
  rw [w2lo h2 15 0 (by omega) (by omega), show cf.toNat / 2 ^ 0 % 2 ^ (15 - 0 + 1) = cf.toNat by omega, bv16_toNat, k2, w4d hB (by omega), zb rfl, w4a hB (by omega), w4b hB (by omega), kOf_val, bind_ok, kOf_val]
  rfl
theorem srchVer : ∀ d a, Statement (.srchVer d a) := by
  intro d a
  have := d.isLt
  have := a.isLt
  have hB : B4 d.val a.val 0 := ⟨by omega, by omega, by omega⟩
  have h2 : B2 0x07 0 0 0 := ⟨by omega, by omega, by omega, by omega⟩
  refine .ofTwo rfl (two_word hB).2.2 fun hw => ?_
  rw [raw_u hB, decodeUPage0]
  rw [w2r h2, zb rfl, w2s h2]
  show (zero _ >>= _) = _
  rw [w2t h2, zb rfl]
  have e := w2lo h2 15 0 (by omega) (by omega)
  rw [show 0 / 2 ^ 0 % 2 ^ (15 - 0 + 1) = 0 by omega] at e
  rw [e]
  show kd1 _ _ = _
  rw [kd1, w4b hB (by omega), zb rfl, w4d hB (by omega), w4a hB (by omega), kOf_val, bind_ok, kOf_val]
  rfl
theorem srchVerRead : ∀ d a, Statement (.srchVerRead d a) := by
  intro d a
  have := d.isLt
  have := a.isLt
  have hB : B4 d.val a.val 0 := ⟨by omega, by omega, by omega⟩
  have h2 : B2 0x07 0 0 1 := ⟨by omega, by omega, by omega, by omega⟩
  refine .ofTwo rfl (two_word hB).2.2 fun hw => ?_
  rw [raw_u hB, decodeUPage0]
  rw [w2r h2, zb rfl, w2s h2]
  show (zero _ >>= _) = _
  rw [w2t h2, zb rfl]
  have e := w2lo h2 15 0 (by omega) (by omega)
  rw [show 1 / 2 ^ 0 % 2 ^ (15 - 0 + 1) = 1 by omega] at e
  rw [e]
  show kd1 _ _ = _
  rw [kd1, w4b hB (by omega), zb rfl, w4d hB (by omega), w4a hB (by omega), kOf_val, bind_ok, kOf_val]
  rfl
theorem collStart : ∀ cf a, Statement (.collStart cf a) := by
  intro cf a
  have := a.isLt
  have := cf.isLt
  have hB : B4 0 a.val 0 := ⟨by omega, by omega, by omega⟩
  have h2 : B2 0x08 0 0 cf.toNat := ⟨by omega, by omega, by omega, by omega⟩
  refine .ofTwo rfl (two_word hB).2.2 fun hw => ?_
  rw [raw_u hB, decodeUPage0]
  rw [w2r h2, zb rfl, w2s h2]
  show (zero _ >>= _) = _
  rw [w2t h2, zb rfl]
  show k1 _ _ = _
  rw [w2lo h2 15 0 (by omega) (by omega), show cf.toNat / 2 ^ 0 % 2 ^ (15 - 0 + 1) = cf.toNat by omega, bv16_toNat, k1, w4d hB (by omega), zb rfl, w4b hB (by omega), zb rfl, w4a hB (by omega), kOf_val]
  rfl
theorem tlbinvAll : Statement .tlbinvAll := by
  have hB : B4 0 0 0 := ⟨by omega, by omega, by omega⟩
  refine .ofTwo rfl (two_word hB).2.2 fun hw => ?_
  rfl
theorem tlbinvAsid : ∀ a, Statement (.tlbinvAsid a) := by
  intro a
  have := a.isLt
  have hB : B4 0 a.val 0 := ⟨by omega, by omega, by omega⟩
  have h2 : B2 0x09 0 0 1 := ⟨by omega, by omega, by omega, by omega⟩
  refine .ofTwo rfl (two_word hB).2.2 fun hw => ?_
  rw [raw_u hB, decodeUPage0]
  rw [w2r h2, zb rfl, w2s h2]
  show (zero _ >>= _) = _
  rw [w2t h2, zb rfl]
  have e := w2lo h2 15 0 (by omega) (by omega)
  rw [show 1 / 2 ^ 0 % 2 ^ (15 - 0 + 1) = 1 by omega] at e
  rw [e]
  show k1 _ _ = _
  rw [k1, w4d hB (by omega), zb rfl, w4b hB (by omega), zb rfl, w4a hB (by omega), kOf_val]
  rfl
theorem tlbinvVa : ∀ a b, Statement (.tlbinvVa a b) := by
  intro a b
  have := a.isLt
  have := b.isLt
  have hB : B4 0 a.val b.val := ⟨by omega, by omega, by omega⟩
  have h2 : B2 0x09 0 0 2 := ⟨by omega, by omega, by omega, by omega⟩
  refine .ofTwo rfl (two_word hB).2.2 fun hw => ?_
  rw [raw_u hB, decodeUPage0]
  rw [w2r h2, zb rfl, w2s h2]
  show (zero _ >>= _) = _
  rw [w2t h2, zb rfl]
  have e := w2lo h2 15 0 (by omega) (by omega)
  rw [show 2 / 2 ^ 0 % 2 ^ (15 - 0 + 1) = 2 by omega] at e
  rw [e]
  show k2 _ _ = _
  rw [k2, w4d hB (by omega), zb rfl, w4a hB (by omega), w4b hB (by omega), kOf_val, bind_ok, kOf_val]
  rfl
theorem dirReclaim : ∀ a b, Statement (.dirReclaim a b) := by
  intro a b
  have := a.isLt
  have := b.isLt
  have hB : B4 0 a.val b.val := ⟨by omega, by omega, by omega⟩
  have h2 : B2 0x0A 0 0 0 := ⟨by omega, by omega, by omega, by omega⟩
  refine .ofTwo rfl (two_word hB).2.2 fun hw => ?_
  rw [raw_u hB, decodeUPage0]
  rw [w2r h2, zb rfl, w2s h2]
  show (zero _ >>= _) = _
  rw [w2t h2, zb rfl]
  show (do zero _; k2 _ _ : Dec Instr) = _
  rw [w2lo h2 15 0 (by omega) (by omega), zb (by omega), k2, w4d hB (by omega), zb rfl, w4a hB (by omega), w4b hB (by omega), kOf_val, bind_ok, kOf_val]
  rfl
theorem keyselLoad : ∀ a b, Statement (.keyselLoad a b) := by
  intro a b
  have := a.isLt
  have := b.isLt
  have hB : B4 0 a.val b.val := ⟨by omega, by omega, by omega⟩
  have h2 : B2 0x0B 0 0 0 := ⟨by omega, by omega, by omega, by omega⟩
  refine .ofTwo rfl (two_word hB).2.2 fun hw => ?_
  rw [raw_u hB, decodeUPage0]
  rw [w2r h2, zb rfl, w2s h2]
  show (zero _ >>= _) = _
  rw [w2t h2, zb rfl]
  show (do zero _; k2 _ _ : Dec Instr) = _
  rw [w2lo h2 15 0 (by omega) (by omega), zb (by omega), k2, w4d hB (by omega), zb rfl, w4a hB (by omega), w4b hB (by omega), kOf_val, bind_ok, kOf_val]
  rfl
theorem keyselErase : ∀ a b, Statement (.keyselErase a b) := fun a b _ _ _ h => absurd rfl (h a b)
theorem draw : ∀ x0, Statement (.draw x0) := fun _ => .ofNone rfl
theorem registerGrant : ∀ x0, Statement (.registerGrant x0) := fun _ => .ofNone rfl
theorem convergeStarveRelease : ∀ x0, Statement (.convergeStarveRelease x0) := fun _ => .ofNone rfl
theorem forcing : ∀ x0, Statement (.forcing x0) := fun _ => .ofNone rfl
theorem starvation : ∀ x0 x1 x2, Statement (.starvation x0 x1 x2) := fun _ _ _ => .ofNone rfl
theorem claimDeadlock : ∀ x0, Statement (.claimDeadlock x0) := fun _ => .ofNone rfl
theorem coreRestart : ∀ x0, Statement (.coreRestart x0) := fun _ => .ofNone rfl
theorem implicitRelease : ∀ x0 x1, Statement (.implicitRelease x0 x1) := fun _ _ => .ofNone rfl
theorem tableWalk : ∀ x0 x1 x2 x3, Statement (.tableWalk x0 x1 x2 x3) := fun _ _ _ _ => .ofNone rfl
theorem runAheadRollback : ∀ x0, Statement (.runAheadRollback x0) := fun _ => .ofNone rfl
theorem batchEntryDeferred : Statement .batchEntryDeferred := .ofNone rfl
theorem gatherAccess : ∀ x0, Statement (.gatherAccess x0) := fun _ => .ofNone rfl
theorem accessAtHome : Statement .accessAtHome := .ofNone rfl
theorem commandHead : ∀ x0, Statement (.commandHead x0) := fun _ => .ofNone rfl
theorem commandComplete : ∀ x0, Statement (.commandComplete x0) := fun _ => .ofNone rfl
theorem commandEnd : ∀ x0 x1 x2, Statement (.commandEnd x0 x1 x2) := fun _ _ _ => .ofNone rfl
theorem commandHold : ∀ x0 x1, Statement (.commandHold x0 x1) := fun _ _ => .ofNone rfl
theorem multicastAbandon : ∀ x0, Statement (.multicastAbandon x0) := fun _ => .ofNone rfl
theorem graphNodeIssue : ∀ x0, Statement (.graphNodeIssue x0) := fun _ => .ofNone rfl
theorem carderDeal : ∀ x0, Statement (.carderDeal x0) := fun _ => .ofNone rfl
theorem streamChunk : ∀ x0 x1, Statement (.streamChunk x0 x1) := fun _ _ => .ofNone rfl
theorem cycleViolation : ∀ x0 x1 x2 x3, Statement (.cycleViolation x0 x1 x2 x3) := fun _ _ _ _ => .ofNone rfl
theorem searchBlockStart : ∀ x0, Statement (.searchBlockStart x0) := fun _ => .ofNone rfl
theorem searchNop : ∀ x0, Statement (.searchNop x0) := fun _ => .ofNone rfl
theorem qload : ∀ x0, Statement (.qload x0) := fun _ => .ofNone rfl
theorem hinit : ∀ x0, Statement (.hinit x0) := fun _ => .ofNone rfl
theorem scan : ∀ x0, Statement (.scan x0) := fun _ => .ofNone rfl
theorem cent : ∀ x0, Statement (.cent x0) := fun _ => .ofNone rfl
theorem hmerge : ∀ x0, Statement (.hmerge x0) := fun _ => .ofNone rfl
theorem hout : ∀ x0, Statement (.hout x0) := fun _ => .ofNone rfl
theorem vclr : ∀ x0, Statement (.vclr x0) := fun _ => .ofNone rfl
theorem walk : ∀ x0, Statement (.walk x0) := fun _ => .ofNone rfl
theorem searchPreempt : ∀ x0, Statement (.searchPreempt x0) := fun _ => .ofNone rfl
theorem searchResume : ∀ x0, Statement (.searchResume x0) := fun _ => .ofNone rfl
theorem walkerThreadStart : ∀ x0, Statement (.walkerThreadStart x0) := fun _ => .ofNone rfl
theorem hopTakeup : ∀ x0, Statement (.hopTakeup x0) := fun _ => .ofNone rfl
theorem walkerMessage : ∀ x0, Statement (.walkerMessage x0) := fun _ => .ofNone rfl
theorem exitNotice : ∀ x0, Statement (.exitNotice x0) := fun _ => .ofNone rfl
theorem walkStalled : ∀ x0, Statement (.walkStalled x0) := fun _ => .ofNone rfl
theorem lqTailDoorbell : ∀ x0 x1, Statement (.lqTailDoorbell x0 x1) := fun _ _ => .ofNone rfl
theorem lqEnable : ∀ x0, Statement (.lqEnable x0) := fun _ => .ofNone rfl
theorem lqDisable : ∀ x0, Statement (.lqDisable x0) := fun _ => .ofNone rfl
theorem lqDisableEffect : ∀ x0, Statement (.lqDisableEffect x0) := fun _ => .ofNone rfl
theorem recordAdmission : Statement .recordAdmission := .ofNone rfl
theorem extentTranslation : ∀ x0, Statement (.extentTranslation x0) := fun _ => .ofNone rfl
theorem gridRecord : ∀ x0, Statement (.gridRecord x0) := fun _ => .ofNone rfl
theorem gangRecord : ∀ x0, Statement (.gangRecord x0) := fun _ => .ofNone rfl
theorem graphRecord : ∀ x0, Statement (.graphRecord x0) := fun _ => .ofNone rfl
theorem waitOnValue : ∀ x0, Statement (.waitOnValue x0) := fun _ => .ofNone rfl
theorem waitOnValuePoll : ∀ x0, Statement (.waitOnValuePoll x0) := fun _ => .ofNone rfl
theorem signalRecord : ∀ x0, Statement (.signalRecord x0) := fun _ => .ofNone rfl
theorem teamPlacement : Statement .teamPlacement := .ofNone rfl
theorem teamRetire : ∀ x0 x1, Statement (.teamRetire x0 x1) := fun _ _ => .ofNone rfl
theorem gridRetire : ∀ x0, Statement (.gridRetire x0) := fun _ => .ofNone rfl
theorem phaseComplete : ∀ x0 x1 x2 x3, Statement (.phaseComplete x0 x1 x2 x3) := fun _ _ _ _ => .ofNone rfl
theorem tsyncComplete : ∀ x0 x1 x2, Statement (.tsyncComplete x0 x1 x2) := fun _ _ _ => .ofNone rfl
theorem tlbinvComplete : ∀ x0 x1 x2, Statement (.tlbinvComplete x0 x1 x2) := fun _ _ _ => .ofNone rfl
theorem ctxsaveWrite : ∀ x0 x1 x2, Statement (.ctxsaveWrite x0 x1 x2) := fun _ _ _ => .ofNone rfl
theorem idleTimer : ∀ x0 x1, Statement (.idleTimer x0 x1) := fun _ _ => .ofNone rfl
theorem hostMemoryWrite : ∀ x0 x1 x2 x3, Statement (.hostMemoryWrite x0 x1 x2 x3) := fun _ _ _ _ => .ofNone rfl
theorem hostMemoryRead : ∀ x0 x1 x2, Statement (.hostMemoryRead x0 x1 x2) := fun _ _ _ => .ofNone rfl
theorem pcieUnsupportedRequest : ∀ x0, Statement (.pcieUnsupportedRequest x0) := fun _ => .ofNone rfl
theorem pcieError : ∀ x0, Statement (.pcieError x0) := fun _ => .ofNone rfl
theorem hostLinkDown : Statement .hostLinkDown := .ofNone rfl
theorem supervisorMailbox : ∀ x0, Statement (.supervisorMailbox x0) := fun _ => .ofNone rfl
theorem coldReset : Statement .coldReset := .ofNone rfl
theorem warmReset : Statement .warmReset := .ofNone rfl
theorem kseedLock : Statement .kseedLock := .ofNone rfl
theorem privLock : Statement .privLock := .ofNone rfl
theorem domainJoin : ∀ x0 x1, Statement (.domainJoin x0 x1) := fun _ _ => .ofNone rfl
theorem attestationStart : Statement .attestationStart := .ofNone rfl
theorem attestationDone : Statement .attestationDone := .ofNone rfl
theorem coreResume : ∀ x0, Statement (.coreResume x0) := fun _ => .ofNone rfl
theorem eqHeadWrite : ∀ x0 x1, Statement (.eqHeadWrite x0 x1) := fun _ _ => .ofNone rfl
theorem bqHeadWrite : ∀ x0, Statement (.bqHeadWrite x0) := fun _ => .ofNone rfl
theorem registerWrite : ∀ x0 x1 x2, Statement (.registerWrite x0 x1 x2) := fun _ _ _ => .ofNone rfl
theorem powerSample : ∀ x0 x1 x2, Statement (.powerSample x0 x1 x2) := fun _ _ _ => .ofNone rfl
theorem temperatureSample : ∀ x0 x1, Statement (.temperatureSample x0 x1) := fun _ _ => .ofNone rfl
theorem scrub : ∀ x0 x1, Statement (.scrub x0 x1) := fun _ _ => .ofNone rfl
theorem unitFence : ∀ x0, Statement (.unitFence x0) := fun _ => .ofNone rfl
theorem coreIssueHang : ∀ x0, Statement (.coreIssueHang x0) := fun _ => .ofNone rfl
theorem deviceStop : Statement .deviceStop := .ofNone rfl
theorem deviceStopLinkDrop : Statement .deviceStopLinkDrop := .ofNone rfl
theorem remoteAccess : ∀ x0 x1 x2 x3 x4, Statement (.remoteAccess x0 x1 x2 x3 x4) := fun _ _ _ _ _ => .ofNone rfl
theorem directoryRequest : ∀ x0 x1 x2, Statement (.directoryRequest x0 x1 x2) := fun _ _ _ => .ofNone rfl
theorem snoop : ∀ x0 x1, Statement (.snoop x0 x1) := fun _ _ => .ofNone rfl
theorem snoopReply : ∀ x0 x1, Statement (.snoopReply x0 x1) := fun _ _ => .ofNone rfl
theorem invalidation : ∀ x0, Statement (.invalidation x0) := fun _ => .ofNone rfl
theorem snoopTimeout : ∀ x0, Statement (.snoopTimeout x0) := fun _ => .ofNone rfl
theorem eorexPortFailure : ∀ x0 x1, Statement (.eorexPortFailure x0 x1) := fun _ _ => .ofNone rfl
theorem deviceLossNotice : ∀ x0, Statement (.deviceLossNotice x0) := fun _ => .ofNone rfl
theorem collectiveDelivery : ∀ x0 x1 x2, Statement (.collectiveDelivery x0 x1 x2) := fun _ _ _ => .ofNone rfl
theorem collectiveTimeout : ∀ x0 x1 x2, Statement (.collectiveTimeout x0 x1 x2) := fun _ _ _ => .ofNone rfl
theorem collectiveAbort : ∀ x0 x1 x2 x3, Statement (.collectiveAbort x0 x1 x2 x3) := fun _ _ _ _ => .ofNone rfl
theorem illegalEncoding : ∀ x0 x1, Statement (.illegalEncoding x0 x1) := fun _ _ => .ofNone rfl
theorem sleepEnd : ∀ x0, Statement (.sleepEnd x0) := fun _ => .ofNone rfl
theorem hostLinkRetrained : Statement .hostLinkRetrained := .ofNone rfl
theorem powerDown : Statement .powerDown := .ofNone rfl

end Sys2Proof.Laws.RoundTrip
end

