-- ==== Sys2Proof/Laws/Steps.lean ====
section
/-!
SUPPORT. Laws of the step: every due step is the device step of its name, and a clk adds one to the time.
-/
namespace Sys2Proof.Machine

theorem decode_wf_steps {w1 w2 : Word} {i : Instr} (h : decode w1 w2 = .ok i) : i.wf = true := by
  simp only [decode] at h
  cases hr : decodeRaw w1 w2 with
  | error e => rw [hr] at h; cases h
  | ok j =>
    rw [hr] at h
    simp only [bind, Except.bind] at h
    split at h
    · next hw => cases h; exact hw
    · cases h

theorem runDue_exec (d : Due) : ∃ i : Instr, ∀ u : State, runDue d u = exec i u := by
  cases d with
  | draw core => exact ⟨.draw core, fun _ => rfl⟩
  | registerGrant core => exact ⟨.registerGrant core, fun _ => rfl⟩
  | convergeStarveRelease who => exact ⟨.convergeStarveRelease who, fun _ => rfl⟩
  | forcing who => exact ⟨.forcing who, fun _ => rfl⟩
  | starvation core slot o => exact ⟨.starvation core slot o, fun _ => rfl⟩
  | claimDeadlock core => exact ⟨.claimDeadlock core, fun _ => rfl⟩
  | coreRestart core => exact ⟨.coreRestart core, fun _ => rfl⟩
  | implicitRelease who n => exact ⟨.implicitRelease who n, fun _ => rfl⟩
  | tableWalk u asid root va => exact ⟨.tableWalk u asid root va, fun _ => rfl⟩
  | runAheadRollback id => exact ⟨.runAheadRollback id, fun _ => rfl⟩
  | batchEntryDeferred => exact ⟨.batchEntryDeferred, fun _ => rfl⟩
  | gatherAccess core => exact ⟨.gatherAccess core, fun _ => rfl⟩
  | accessAtHome => exact ⟨.accessAtHome, fun _ => rfl⟩
  | commandHead q => exact ⟨.commandHead q, fun _ => rfl⟩
  | commandComplete id => exact ⟨.commandComplete id, fun _ => rfl⟩
  | commandEnd id code addr => exact ⟨.commandEnd id code addr, fun _ => rfl⟩
  | commandHold id va => exact ⟨.commandHold id va, fun _ => rfl⟩
  | multicastAbandon id => exact ⟨.multicastAbandon id, fun _ => rfl⟩
  | graphNodeIssue core => exact ⟨.graphNodeIssue core, fun _ => rfl⟩
  | carderDeal core => exact ⟨.carderDeal core, fun _ => rfl⟩
  | streamChunk f slot => exact ⟨.streamChunk f slot, fun _ => rfl⟩
  | cycleViolation f slot node cycles => exact ⟨.cycleViolation f slot node cycles, fun _ => rfl⟩
  | searchBlockStart stack => exact ⟨.searchBlockStart stack, fun _ => rfl⟩
  | searchNop stack => exact ⟨.searchNop stack, fun _ => rfl⟩
  | qload stack => exact ⟨.qload stack, fun _ => rfl⟩
  | hinit stack => exact ⟨.hinit stack, fun _ => rfl⟩
  | scan stack => exact ⟨.scan stack, fun _ => rfl⟩
  | cent stack => exact ⟨.cent stack, fun _ => rfl⟩
  | hmerge stack => exact ⟨.hmerge stack, fun _ => rfl⟩
  | hout stack => exact ⟨.hout stack, fun _ => rfl⟩
  | vclr stack => exact ⟨.vclr stack, fun _ => rfl⟩
  | walk stack => exact ⟨.walk stack, fun _ => rfl⟩
  | searchPreempt stack => exact ⟨.searchPreempt stack, fun _ => rfl⟩
  | searchResume stack => exact ⟨.searchResume stack, fun _ => rfl⟩
  | walkerThreadStart stack => exact ⟨.walkerThreadStart stack, fun _ => rfl⟩
  | hopTakeup stack => exact ⟨.hopTakeup stack, fun _ => rfl⟩
  | walkerMessage dst => exact ⟨.walkerMessage dst, fun _ => rfl⟩
  | exitNotice stack => exact ⟨.exitNotice stack, fun _ => rfl⟩
  | walkStalled stack => exact ⟨.walkStalled stack, fun _ => rfl⟩
  | lqTailDoorbell q v => exact ⟨.lqTailDoorbell q v, fun _ => rfl⟩
  | lqEnable q => exact ⟨.lqEnable q, fun _ => rfl⟩
  | lqDisable q => exact ⟨.lqDisable q, fun _ => rfl⟩
  | lqDisableEffect q => exact ⟨.lqDisableEffect q, fun _ => rfl⟩
  | recordAdmission => exact ⟨.recordAdmission, fun _ => rfl⟩
  | extentTranslation g => exact ⟨.extentTranslation g, fun _ => rfl⟩
  | gridRecord g => exact ⟨.gridRecord g, fun _ => rfl⟩
  | gangRecord g => exact ⟨.gangRecord g, fun _ => rfl⟩
  | graphRecord g => exact ⟨.graphRecord g, fun _ => rfl⟩
  | waitOnValue g => exact ⟨.waitOnValue g, fun _ => rfl⟩
  | waitOnValuePoll g => exact ⟨.waitOnValuePoll g, fun _ => rfl⟩
  | signalRecord g => exact ⟨.signalRecord g, fun _ => rfl⟩
  | teamPlacement => exact ⟨.teamPlacement, fun _ => rfl⟩
  | teamRetire core slot => exact ⟨.teamRetire core slot, fun _ => rfl⟩
  | gridRetire g => exact ⟨.gridRetire g, fun _ => rfl⟩
  | phaseComplete core ctx sc pc => exact ⟨.phaseComplete core ctx sc pc, fun _ => rfl⟩
  | tsyncComplete core ctx pc => exact ⟨.tsyncComplete core ctx pc, fun _ => rfl⟩
  | tlbinvComplete core ctx pc => exact ⟨.tlbinvComplete core ctx pc, fun _ => rfl⟩
  | ctxsaveWrite core ctx pc => exact ⟨.ctxsaveWrite core ctx pc, fun _ => rfl⟩
  | idleTimer core slot => exact ⟨.idleTimer core slot, fun _ => rfl⟩
  | hostMemoryWrite bar off bytes ep => exact ⟨.hostMemoryWrite bar off bytes ep, fun _ => rfl⟩
  | hostMemoryRead bar off n => exact ⟨.hostMemoryRead bar off n, fun _ => rfl⟩
  | pcieUnsupportedRequest addr => exact ⟨.pcieUnsupportedRequest addr, fun _ => rfl⟩
  | pcieError aerBit => exact ⟨.pcieError aerBit, fun _ => rfl⟩
  | hostLinkDown => exact ⟨.hostLinkDown, fun _ => rfl⟩
  | supervisorMailbox v => exact ⟨.supervisorMailbox v, fun _ => rfl⟩
  | coldReset => exact ⟨.coldReset, fun _ => rfl⟩
  | warmReset => exact ⟨.warmReset, fun _ => rfl⟩
  | kseedLock => exact ⟨.kseedLock, fun _ => rfl⟩
  | privLock => exact ⟨.privLock, fun _ => rfl⟩
  | domainJoin refused members => exact ⟨.domainJoin refused members, fun _ => rfl⟩
  | attestationStart => exact ⟨.attestationStart, fun _ => rfl⟩
  | attestationDone => exact ⟨.attestationDone, fun _ => rfl⟩
  | coreResume core => exact ⟨.coreResume core, fun _ => rfl⟩
  | eqHeadWrite n v => exact ⟨.eqHeadWrite n v, fun _ => rfl⟩
  | bqHeadWrite v => exact ⟨.bqHeadWrite v, fun _ => rfl⟩
  | registerWrite off size v => exact ⟨.registerWrite off size v, fun _ => rfl⟩
  | powerSample pkgW coreA badRail => exact ⟨.powerSample pkgW coreA badRail, fun _ => rfl⟩
  | temperatureSample clusters stks => exact ⟨.temperatureSample clusters stks, fun _ => rfl⟩
  | scrub pa found => exact ⟨.scrub pa found, fun _ => rfl⟩
  | unitFence u => exact ⟨.unitFence u, fun _ => rfl⟩
  | coreIssueHang core => exact ⟨.coreIssueHang core, fun _ => rfl⟩
  | deviceStop => exact ⟨.deviceStop, fun _ => rfl⟩
  | deviceStopLinkDrop => exact ⟨.deviceStopLinkDrop, fun _ => rfl⟩
  | remoteAccess dev pa size key k => exact ⟨.remoteAccess dev pa size key k, fun _ => rfl⟩
  | directoryRequest dev line store => exact ⟨.directoryRequest dev line store, fun _ => rfl⟩
  | snoop line keep => exact ⟨.snoop line keep, fun _ => rfl⟩
  | snoopReply line data => exact ⟨.snoopReply line data, fun _ => rfl⟩
  | invalidation line => exact ⟨.invalidation line, fun _ => rfl⟩
  | snoopTimeout line => exact ⟨.snoopTimeout line, fun _ => rfl⟩
  | eorexPortFailure port retries => exact ⟨.eorexPortFailure port retries, fun _ => rfl⟩
  | deviceLossNotice dev => exact ⟨.deviceLossNotice dev, fun _ => rfl⟩
  | collectiveDelivery group round contribs => exact ⟨.collectiveDelivery group round contribs, fun _ => rfl⟩
  | collectiveTimeout group round mask => exact ⟨.collectiveTimeout group round mask, fun _ => rfl⟩
  | collectiveAbort group round code mask => exact ⟨.collectiveAbort group round code mask, fun _ => rfl⟩
  | illegalEncoding w1 w2 => exact ⟨.illegalEncoding w1 w2, fun _ => rfl⟩
  | sleepEnd who => exact ⟨.sleepEnd who, fun _ => rfl⟩
  | hostLinkRetrained => exact ⟨.hostLinkRetrained, fun _ => rfl⟩
  | powerDown => exact ⟨.powerDown, fun _ => rfl⟩

theorem dues_clk (s : State) (ds : List Due) : (s.due ds).sys.clk = s.sys.clk := rfl

theorem foldl_clk {α : Type} (f : State → α → State) (hf : ∀ s a, (f s a).now = s.now) (l : List α) (s : State) : (l.foldl f s).now = s.now := by
  induction l generalizing s with
  | nil => rfl
  | cons a l ih => rw [List.foldl_cons, ih, hf]

theorem wakeCore_now (s : State) (c : Nat) : (s.wakeCore c).now = s.now := by
  simp only [State.wakeCore]; split <;> rfl

theorem unstall_now (s : State) : s.unstall.now = s.now := foldl_clk _ (fun s p => by rw [wakeCore_now]; rfl) _ _

theorem clearWaits_now (s : State) : s.clearWaits.now = s.now := rfl

theorem bufSetState_now (s : State) (r : BufRef) (b : BufState) : (s.bufSetState r b).now = s.now := rfl

theorem arriveBufs_now (s : State) : s.arriveBufs.now = s.now := by
  refine foldl_clk _ (fun s c => ?_) _ _
  show (State.arriveBufsOf s c).now = s.now
  unfold State.arriveBufsOf
  refine Eq.trans rfl ((foldl_clk _ (fun s r => bufSetState_now s r _) _ _).trans (foldl_clk _ (fun s r => bufSetState_now s r _) _ _))

theorem coreClk_now (s : State) (c : Nat) : (s.coreClk c).now = s.now := by
  unfold State.coreClk
  extract_lets u
  have hu : u.now = s.now := rfl
  clear_value u
  split
  · exact hu
  · split
    · exact hu
    · rw [wakeCore_now, hu]

theorem nextClk_now (s : State) : s.nextClk.now = s.now + 1 := by
  have h : s.writeRecords.sys.clk + 1 = s.now + 1 := by rw [writeRecords_sys]; rfl
  simp only [State.nextClk]
  split
  · exact h
  · refine (foldl_clk _ coreClk_now _ _).trans ?_
    rw [clearWaits_now, unstall_now, arriveBufs_now]
    exact h

theorem andThen_next {o : Host.Outcome State Fault Refusal} {f : State → State} : 
   (match andThen o f with | .next s => (.next s : Host.Outcome State Fault Refusal) | o => o) = andThen o f := by
  cases o <;> rfl

end Sys2Proof.Machine
end

