-- ==== Sys2Proof/Laws/Uniform.lean ====
section
/-!
SUPPORT. Laws of the checks that uniform instructions make before they issue a command, and what they answer where each passes.
-/
namespace Sys2Proof.Machine

theorem smovh_eq (x : DWord) (imm : BitVec 16) : (x <<< 16) ||| imm.setWidth 64 = (x.setWidth 48 ++ imm : BitVec 64) := by
  apply BitVec.eq_of_getLsbD_eq
  intro i hi
  simp only [BitVec.getLsbD_or, BitVec.getLsbD_shiftLeft, BitVec.getLsbD_setWidth, BitVec.getLsbD_append]
  by_cases h16 : i < 16
  · simp [h16, hi]
  · have : i - 16 < 48 := by omega
    simp only [h16, hi, this]
    simp
    intro h
    exact absurd h (by rw [BitVec.getLsbD_of_ge imm i (by omega)]; simp)

theorem asInt (v : DWord) : (v == 0) = decide (v.toInt = 0) ∧ (v != 0) = decide (v.toInt ≠ 0) ∧ v.slt 0 = decide (v.toInt < 0) := by
  have h0 : (0 : DWord).toInt = 0 := by decide
  have h : v = 0 ↔ v.toInt = 0 := by rw [← BitVec.toInt_inj, h0]
  refine ⟨?_, ?_, ?_⟩
  · rw [Bool.eq_iff_iff]; simpa using h
  · rw [Bool.eq_iff_iff]; simpa using not_congr h
  · simp [BitVec.slt, h0]

theorem popU_sys (s : State) (t : TeamId) (srcs : List USrc) (s' : State) (vs : List DWord)
    (h : s.popU t srcs = some (s', vs)) : s'.sys = s.sys := by
  induction srcs generalizing s vs with
  | nil => cases h; rfl
  | cons x r ih =>
    cases x with
    | k n =>
      simp only [State.popU, Option.map_eq_some_iff] at h
      obtain ⟨q, hq, h⟩ := h
      cases h
      exact ih s _ hq
    | pop c =>
      simp only [State.popU] at h
      split at h
      · next s1 v h1 =>
        simp only [Option.map_eq_some_iff] at h
        obtain ⟨q, hq, h⟩ := h
        cases h
        rw [ih s1 _ hq, popOne_sys _ _ _ _ _ h1]
      · cases h
    | peek c =>
      simp only [State.popU] at h
      split at h
      · simp only [Option.map_eq_some_iff] at h
        obtain ⟨q, hq, h⟩ := h
        cases h
        exact ih s _ hq
      · cases h

theorem actingU_sys {s s' : State} {srcs : List USrc} {dst : Option UDst} {vs : List DWord} (h : UReady s srcs dst s' vs) :
    (s.actingU s' srcs).sys.issue = s.sys.issue := by
  rw [State.actingU, State.wakePops, foldl_keeps (·.sys) _ (fun s c => wakeChan_sys s _ c), popU_sys _ _ _ _ _ h.values]

theorem dfTop (v : DWord) : dfield v 63 48 = v.toNat / 2 ^ 48 := by
  have := v.isLt
  simp only [dfield, bitsOf]
  omega

theorem banks_all (s : State) (t : TeamId) (lo n : Nat) (h : ∀ i < n, lo + i ∈ s.heldBanks t) :
    (bankList lo n).all (fun x => (s.heldBanks t).contains x) = true := by
  simp only [bankList, List.all_map, List.all_eq_true, List.mem_range]
  intro i hi
  simpa using h i hi

theorem bankRange_ok (s : State) (t : TeamId) (w : DWord) (b : Bool) (h1 : 1 ≤ dfield w 18 9) (h2 : dfield w 18 9 ≤ 512)
    (h3 : dfield w 8 0 + dfield w 18 9 ≤ 512) (h4 : dfield w 47 19 = 0)
    (h5 : (if b then !cfOk (dfield w 63 48) else dfield w 63 48 != 0) = false)
    (h6 : ∀ i < dfield w 18 9, dfield w 8 0 + i ∈ s.heldBanks t) : s.bankRange t w b = .ok (dfield w 8 0, dfield w 18 9) := by
  simp only [State.bankRange]
  rw [if_neg (by rw [h4, h5]; simp; omega), if_neg (by rw [banks_all s t _ _ h6]; simp; omega)]

theorem prepDrain_ok (s : State) (t : TeamId) (x w : DWord) (h1 : x.toNat % 64 = 0) (h2 : dfield w 47 37 = 0) (h3 : dfield w 33 31 ≤ 5)
    (h4 : cfOk (dfield w 63 48) = true) (h5 : 1 ≤ dfield w 26 9) (h6 : dfield w 26 9 ≤ 131072)
    (h7 : dfield w 8 0 + (dfield w 26 9 + 255) / 256 ≤ 512)
    (h8 : ∀ i < (dfield w 26 9 + 255) / 256, dfield w 8 0 + i ∈ s.heldBanks t) :
    s.prepDrain t false x w = .ok (.accDrain x (s.drainMode t w)) (cfOf (dfield w 63 48)) := by
  simp only [State.prepDrain, adCount, adBank, Bool.false_eq_true, if_false]
  rw [if_neg (by rw [h4]; simp; omega), if_neg (by rw [banks_all _ _ _ _ h8]; simp [bankList]; omega)]

theorem prepPack_ok (s : State) (t : TeamId) (x w : DWord) (h1 : x.toNat % 64 = 0) (h2 : dfield w 47 37 = 0) (h3 : dfield w 33 31 ≤ 5)
    (h4 : cfOk (dfield w 63 48) = true) (h5 : 1 ≤ dfield w 26 9) (h6 : dfield w 26 9 ≤ 512)
    (h7 : dfield w 8 0 + dfield w 26 9 ≤ 512)
    (h8 : ∀ i < dfield w 26 9, dfield w 8 0 + i ∈ s.heldBanks t) :
    s.prepDrain t true x w = .ok (.accPack x (s.drainMode t w)) (cfOf (dfield w 63 48)) := by
  simp only [State.prepDrain, adCount, adBank, if_true]
  rw [if_neg (by rw [h4]; simp; omega), if_neg (by rw [banks_all _ _ _ _ h8]; simp [bankList]; omega)]

theorem dfHigh (w : DWord) (h : dfield w 63 19 = 0) : dfield w 47 19 = 0 ∧ dfield w 63 48 = 0 := by
  have := w.isLt
  simp only [dfield, bitsOf] at h ⊢
  constructor <;> omega

theorem prepMx_eq (v : State) (t : TeamId) (bs : List Byte) (x : DWord) (op : MxOp) (cf : CompField) (h4 : mxBlockOf bs x = some (op, cf)) :
    v.prepMx t bs x = if !v.streamOk t op.a || !v.streamOk t op.b then .fail { code := 0x0B05 }
    else if !(CmdOp.banks (.mx op)).all (fun b => (v.heldBanks t).contains b) then .fail { code := 0x0405 }
    else .ok (.mx op) cf := by
  unfold State.prepMx
  generalize mxBlockOf bs x = q at *
  subst h4
  rfl

theorem prepMx_ok (v : State) (t : TeamId) (bs : List Byte) (x : DWord) (op : MxOp) (cf : CompField) (h4 : mxBlockOf bs x = some (op, cf))
    (h5 : v.streamOk t op.a = true) (h6 : v.streamOk t op.b = true) (h7 : ∀ b ∈ CmdOp.banks (.mx op), b ∈ v.heldBanks t) :
    v.prepMx t bs x = .ok (.mx op) cf := by
  have h8 : (CmdOp.banks (.mx op)).all (fun b => (v.heldBanks t).contains b) = true := by
    rw [List.all_eq_true]
    intro b hb
    simpa using h7 b hb
  rw [prepMx_eq _ _ _ _ _ _ h4, if_neg (by rw [h5, h6]; simp), if_neg (by rw [h8]; simp)]

theorem prepXfer_ok (x y w : DWord) (h1 : 1 ≤ dfield w 31 0) (h2 : dfield w 31 0 % 64 = 0) (h3 : x.toNat % 64 = 0) (h4 : y.toNat % 64 = 0)
    (h5 : dfield w 47 32 = 0) (h6 : cfOk (dfield w 63 48) = true)
    (h7 : x.toNat + dfield w 31 0 ≤ y.toNat ∨ y.toNat + dfield w 31 0 ≤ x.toNat) :
    prepXfer x y w = .ok (.xfer x y (dfield w 31 0)) (cfOf (dfield w 63 48)) := by
  simp only [prepXfer]
  rw [if_neg]
  rw [h6]
  simp [overlaps]
  omega

theorem prepMc_ok (s : State) (t : TeamId) (x y w : DWord) (h1 : dfield w 39 32 ≠ 0) (h2 : dfield w 47 40 = 0) (h3 : cfOk (dfield w 63 48) = true)
    (h4 : ∀ c ∈ maskCores t.1 (dfield w 39 32), ∃ g v, s.gangTeamOn t c = some g ∧ s.team g = some v ∧ x.toNat + dfield w 31 0 ≤ v.tileSize) :
    s.prepXferMc t x y w = .ok (.xferMc x y (dfield w 31 0) (dfield w 39 32)) (cfOf (dfield w 63 48)) := by
  simp only [State.prepXferMc]
  rw [if_neg (by rw [h2, h3]; simp [h1]), if_neg, if_neg]
  · simp only [List.any_eq_true, not_exists]
    rintro c ⟨hc, hh⟩
    obtain ⟨g, v, hg, hv, hl⟩ := h4 c hc
    simp [hg, hv] at hh
    omega
  · simp only [List.any_eq_true, not_exists]
    rintro c ⟨hc, hh⟩
    obtain ⟨g, v, hg, hv, hl⟩ := h4 c hc
    simp [hg] at hh

theorem prepTr_ok (t : Ty) (c : Nat) (x y w : DWord) (h1 : dfield w 63 52 = 0)
    (h2 : 16 * 2 ^ dfield w 49 48 * (storageBits t / 8) ≤ dfield w 47 24)
    (h3 : 16 * 2 ^ dfield w 51 50 * (storageBits t / 8) ≤ dfield w 23 0)
    (h4 : dfield w 47 24 % (storageBits t / 8) = 0) (h5 : dfield w 23 0 % (storageBits t / 8) = 0)
    (h6 : x.toNat % (storageBits t / 8) = 0) (h7 : y.toNat % (storageBits t / 8) = 0) :
    prepXferTr t c x y w =
      .ok (.xferTr x y t (16 * 2 ^ dfield w 49 48) (16 * 2 ^ dfield w 51 50) (dfield w 47 24) (dfield w 23 0)) (cfOf c) := by
  refine if_neg ?_
  simp only [tileDim, h1, h4, h5, h6, h7]
  simp only [not_or, ne_eq, not_true, not_false_eq_true, Nat.not_lt, and_true, true_and]
  exact ⟨h2, h3⟩

theorem declare_ok (s : State) (t : TeamId) (w : DWord) (h1 : dfield w 63 44 = 0) (h2 : dfield w 37 36 ≠ 3)
    (h3 : 64 * dfield w 35 18 ≤ 64 * 131072) (h4 : 64 * dfield w 35 18 ≠ 0) (h5 : s.inReservation t (64 * dfield w 17 0) (64 * dfield w 35 18) = true)
    (h6 : (s.team t).bind (fun x => x.bufs.find (dfield w 43 38)) = none)
    (h7 : s.rangeFree t (64 * dfield w 17 0) (64 * dfield w 35 18) = true) :
    s.declareBuffer t w =
      (let b : Buf := { off := 64 * dfield w 17 0, size := 64 * dfield w 35 18,
                        prod := if dfield w 37 36 = 0 then .team else if dfield w 37 36 = 1 then .engine else .any }
       let base := Config.tileBase + t.1 * Config.sliceBytes + ((s.team t).map (·.tileBase)).getD 0 + 64 * dfield w 17 0
       .ok ((s.performStores (fun p => meets base (64 * dfield w 35 18) p.loc p.bytes.length)).modTeam t
         (fun x => { x with bufs := x.bufs.put (dfield w 43 38) b }))) := by
  simp only [State.declareBuffer]
  rw [if_neg (by omega), if_neg h4, if_neg (by rw [h5]; simp), if_neg (by rw [h6, h7]; simp)]

theorem remove_ok (s : State) (t : TeamId) (w : DWord) (b : Buf) (h1 : dfield w 63 44 = 0) (h2 : dfield w 37 36 ≠ 3)
    (h4 : 64 * dfield w 35 18 = 0) (h6 : (s.team t).bind (fun x => x.bufs.find (dfield w 43 38)) = some b) (h7 : b.state = .empty) :
    s.declareBuffer t w = .ok (s.modTeam t (fun x => { x with bufs := x.bufs.del (dfield w 43 38) })) := by
  simp only [State.declareBuffer]
  rw [if_neg (by omega), if_pos h4, h6]
  dsimp only
  rw [if_pos h7]

theorem runSup_ready {s s' : State} {srcs : List (Fin 64)} {dst : Option (Fin 64)} {vs : List DWord} (us : List USrc)
    (hu : srcs.map .k = us) (h : SupReady s srcs dst s' vs)
    (act : State → List DWord → State × UOut) {t : State} {o : UOut} (ha : act (s.actingU s' us) vs = (t, o)) :
    (Host.Outcome.next (s.runSup srcs dst act) : Host.Outcome State Fault Refusal) = s.supDone t dst o := by
  subst hu
  simp only [State.runSup]
  rw [if_neg (by simp [State.ahead, h.gang.plain]), if_neg (by rw [h.level]; simp), runU_ready h.gang, ha]
  rfl

end Sys2Proof.Machine
end

