-- ==== Sys2Proof/Tests/Slice0.lean ====
section
/-!
SUPPORT. The model's own tests: words written out from the specification's encodings that decode to the instructions they stand
for, ill-formed terms that `Instr.wf` refuses, worked examples of the specification, and for every statement of
Certificates/Slice0/Obligations.lean with hypotheses a concrete state and operands that meet them together.
-/
namespace Sys2Proof.Tests
open Sys2Proof Sys2Proof.Machine
set_option maxRecDepth 100000

/-! ### Small states -/

/-- A thread with the registers given, 0 in every other of its 128. -/
def thr (rs : List (Nat × Word)) : Thread := rs.foldl (fun t p => t.wr p.1 p.2) placedThread

/-- A gang of the threads given, lane n holding `$tid` n, that issues in slot 0 of core 0. -/
def place (tm : Team) (ts : List Thread) : State :=
  let s := State.reset.placeLane []
  let lanes := List.range ts.length
  { s with
    teams := [((0, 0), { tm with size := ts.length })],
    threads := ts.zipIdx.map (fun p => (Who.lane 0 0 p.2, { p.1 with lane := p.2 })),
    sys := { s.sys with turns := [], issue := { core := 0, ctx := 0, lanes := lanes.map (fun n => (n, Who.lane 0 0 n)), pc := dw placeVa } } }

/-- One lane; two lanes; a lane of a user team; a walker thread of stack 0. -/
def lane1 : State := place placedTeam [thr [(5, 7), (6, 0xFFFFFFFE)]]
def lane2 : State := place placedTeam [thr [(5, 7), (6, 0xFFFFFFFE)], thr [(5, 0x80000000), (6, 32)]]
def userTeam : Team := { placedTeam with sup := false }
def user1 : State := place userTeam [thr []]
def walk1 : State :=
  let s := State.reset.placeWalker []
  { s with sys := { s.sys with turns := [], issue := { core := 192, ctx := 0, lanes := [(0, Who.walk 0)], pc := dw placeVa } } }

/-- The gang's team, its scalars, its core, and one record each, replaced. -/
def withTeam (s : State) (f : Team → Team) : State := s.modTeam (0, 0) f
def withKs (s : State) (ks : List (Nat × DWord)) : State :=
  s.modSkein 0 0 (fun k => { k with ks := ks.foldl (fun l p => l.set (p.1 - 16) p.2) k.ks })
def withCore (s : State) (f : Core → Core) : State := s.modCore 0 f
def withChan (s : State) (c : Nat) (k : Chan) : State := withTeam s (fun t => { t with chans := t.chans.put c k })

/-- A team channel of eight elements. -/
def chanOf (es : List DWord) : Chan := { kind := .team, cls := 0, owner := (0, 0), depth := 8, off := 0, elems := es }

/-! ### Readiness by evaluation -/

def readyB (s : State) (sp : LaneSpec) : Bool :=
  s.sys.issue.runAhead.isNone && (match s.lanesIn sp with | l :: _ => decide (l.who = s.leader) | [] => false) &&
  (s.lanesIn sp).all (fun l => l.known && (sp.laneCheck s l.who l.t).isNone && (sp.page s l.who l.t).isNone) &&
  (s.chanCheck s.issueTeam (whoIsWalk s.leader) sp.uses sp.push (s.lanesIn sp).length).isNone &&
  (match s.popLanes sp.srcs (s.lanesIn sp) with
    | some (s', _) => s'.pushRoom s.issueTeam sp.dst (s.lanesIn sp).length
    | none => false)

theorem ready_at {s s' : State} {sp : LaneSpec} {ls : List LaneIn} (h : readyB s sp = true)
    (hv : s.popLanes sp.srcs (s.lanesIn sp) = some (s', ls)) : LaneReady s sp s' ls := by
  simp only [readyB, Bool.and_eq_true, List.all_eq_true, Option.isNone_iff_eq_none] at h
  obtain ⟨⟨⟨⟨h1, h2⟩, h3⟩, h4⟩, h5⟩ := h
  simp only [hv] at h5
  refine ⟨h1, ?_, fun l hl => (h3 l hl).1.1, fun l hl => (h3 l hl).1.2, fun l hl => (h3 l hl).2, h4, h5, hv⟩
  revert h2
  cases s.lanesIn sp with
  | nil => intro h; cases h
  | cons l r => intro h; exact ⟨l, r, rfl, by simpa using h⟩

theorem solo_at {s s' : State} {sp : LaneSpec} {l : LaneIn} (h : readyB s sp = true)
    (hv : s.popLanes sp.srcs (s.lanesIn sp) = some (s', [l])) : SoloReady s sp s' l := ⟨ready_at h hv⟩

def ureadyB (s : State) (srcs : List USrc) (dst : Option UDst) : Bool :=
  s.sys.issue.runAhead.isNone && (s.chanCheck s.issueTeam false (srcs.filterMap uuse) (upush dst) 1).isNone &&
  (match s.popU s.issueTeam srcs with
    | some (s', _) => s'.pushRoom s.issueTeam ((upush dst).map (fun c => (Dst.push (Fin.ofNat 32 c), true))) 1
    | none => false)

theorem uready_at {s s' : State} {srcs : List USrc} {dst : Option UDst} {vs : List DWord} (h : ureadyB s srcs dst = true)
    (hv : s.popU s.issueTeam srcs = some (s', vs)) : UReady s srcs dst s' vs := by
  simp only [ureadyB, Bool.and_eq_true, Option.isNone_iff_eq_none, hv] at h
  exact ⟨h.1.1, h.1.2, h.2, hv⟩

theorem supready_at {s s' : State} {srcs : List (Fin 64)} {dst : Option (Fin 64)} {vs : List DWord}
    (h : (ureadyB s (srcs.map .k) (dst.map .k) && s.isSup s.issueTeam) = true)
    (hv : s.popU s.issueTeam (srcs.map .k) = some (s', vs)) : SupReady s srcs dst s' vs := by
  simp only [Bool.and_eq_true] at h
  exact ⟨uready_at h.1 hv, h.2⟩

/-- Bytes at VA 0x10000 + k, which is byte k of the slice of core 0; and a page at VA 0x20000 over the start of the memory stacks. -/
def withBytes (s : State) (k : Nat) (bs : List Byte) : State := s.setMem { s.mem with cells := cellPuts s.mem.cells (Config.tileBase + k) bs }
def withDwords (s : State) (k : Nat) (ws : List Nat) : State := withBytes s k (ws.flatMap (bytesOf 8))
def withPage (s : State) (pa attr : Nat) : State :=
  s.setMem { s.mem with tlbs := s.mem.tlbs.put (.core 0) [{ asid := 0, base := 1, log := 16, leaf := placeLeaf Config.tileBase },
                                                          { asid := 0, base := 2, log := 16, leaf := dw (pa + attr) }] }

theorem test_decode_integer :
    decode 0x007E64DF 0x00000000 = .ok (.addI32 (.reg 126) (.reg 100) (.peek 31)) ∧
    decode 0x01838540 0x00000000 = .ok (.subI32 (.push 3) (.pop 5) (.reg 64)) ∧
    decode 0x027EC69E 0x00000000 = .ok (.mulI32 (.reg 126) (.peek 6) (.pop 30)) ∧
    decode 0x038364DF 0x00000000 = .ok (.mulhI32 (.push 3) (.reg 100) (.peek 31)) ∧
    decode 0x047E8540 0x00000000 = .ok (.minI32 (.reg 126) (.pop 5) (.reg 64)) ∧
    decode 0x0583C69E 0x00000000 = .ok (.maxI32 (.push 3) (.peek 6) (.pop 30)) ∧
    decode 0x067E64DF 0x00000000 = .ok (.and (.reg 126) (.reg 100) (.peek 31)) ∧
    decode 0x07838540 0x00000000 = .ok (.or (.push 3) (.pop 5) (.reg 64)) ∧
    decode 0x087EC69E 0x00000000 = .ok (.xor (.reg 126) (.peek 6) (.pop 30)) ∧
    decode 0x09836400 0x00000000 = .ok (.not (.push 3) (.reg 100)) ∧
    decode 0x0A7E8540 0x00000000 = .ok (.shl (.reg 126) (.pop 5) (.reg 64)) ∧
    decode 0x0B83C69E 0x00000000 = .ok (.shr (.push 3) (.peek 6) (.pop 30)) ∧
    decode 0x0C7E64DF 0x00000000 = .ok (.sra (.reg 126) (.reg 100) (.peek 31)) ∧
    decode 0x0D838500 0x00000000 = .ok (.mov (.push 3) (.pop 5)) ∧
    decode 0x0E7EC600 0x00000000 = .ok (.clz (.reg 126) (.peek 6)) ∧
    decode 0x0F836400 0x00000000 = .ok (.popc (.push 3) (.reg 100)) ∧
    decode 0x107E85A7 0x00000000 = .ok (.addI32Imm (.reg 126) (.pop 5) 0xA7) ∧
    decode 0x1183C6A7 0x00000000 = .ok (.andImm (.push 3) (.peek 6) 0xA7) ∧
    decode 0x127E64A7 0x00000000 = .ok (.orImm (.reg 126) (.reg 100) 0xA7) ∧
    decode 0x138385A7 0x00000000 = .ok (.xorImm (.push 3) (.pop 5) 0xA7) ∧
    decode 0x147EC613 0x00000000 = .ok (.shlImm (.reg 126) (.peek 6) 0x13) ∧
    decode 0x15836413 0x00000000 = .ok (.shrImm (.push 3) (.reg 100) 0x13) ∧
    decode 0x167E8513 0x00000000 = .ok (.sraImm (.reg 126) (.pop 5) 0x13) ∧
    decode 0x17838A5C 0x00000000 = .ok (.movi (.push 3) 0x8A5C) ∧
    decode 0x182A8A5C 0x00000000 = .ok (.movhi 42 0x8A5C) ∧
    decode 0x19832102 0x00000000 = .ok (.movk (.push 3) 33 .hi) ∧
    decode 0x1A7EC600 0x00000000 = .ok (.ctz (.reg 126) (.peek 6)) ∧
    decode 0x1B836400 0x00000000 = .ok (.bitrev (.push 3) (.reg 100)) ∧
    decode 0x1C7E0D00 0x00000000 = .ok (.rds (.reg 126) 0x0D) ∧
    decode 0x1D000DC6 0x00000000 = .ok (.wrs 0x0D (.peek 6)) ∧
    decode 0x1E056400 0x00000000 = .ok (.pmovFromReg 5 (.reg 100)) ∧
    decode 0x1E830501 0x00000000 = .ok (.pmovToReg (.push 3) 5) ∧
    decode 0x1E050602 0x00000000 = .ok (.pmovPred 5 6) ∧
    decode 0x1F050600 0x00000000 = .ok (.pnot 5 6) :=
  ⟨rfl, rfl, rfl, rfl, rfl, rfl, rfl, rfl, rfl, rfl, rfl, rfl, rfl, rfl, rfl, rfl, rfl, rfl, rfl, rfl, rfl, rfl, rfl, rfl, rfl, rfl, rfl, rfl, rfl, rfl, rfl, rfl, rfl, rfl⟩

theorem test_decode_float :
    decode 0x207E8540 0x00000000 = .ok (.addF32 (.reg 126) (.pop 5) (.reg 64)) ∧
    decode 0x2183C69E 0x00000000 = .ok (.subF32 (.push 3) (.peek 6) (.pop 30)) ∧
    decode 0x227E64DF 0x00000000 = .ok (.mulF32 (.reg 126) (.reg 100) (.peek 31)) ∧
    decode 0x23838540 0x00000000 = .ok (.divF32 (.push 3) (.pop 5) (.reg 64)) ∧
    decode 0x247EC69E 0x00000000 = .ok (.minF32 (.reg 126) (.peek 6) (.pop 30)) ∧
    decode 0x258364DF 0x00000000 = .ok (.maxF32 (.push 3) (.reg 100) (.peek 31)) ∧
    decode 0x267E8500 0x00000000 = .ok (.sqrtF32 (.reg 126) (.pop 5)) ∧
    decode 0x2783C600 0x00000000 = .ok (.rsqrtF32 (.push 3) (.peek 6)) ∧
    decode 0x287E6400 0x00000000 = .ok (.rcpF32 (.reg 126) (.reg 100)) ∧
    decode 0x29838500 0x00000000 = .ok (.exp2F32 (.push 3) (.pop 5)) ∧
    decode 0x2A7EC600 0x00000000 = .ok (.log2F32 (.reg 126) (.peek 6)) ∧
    decode 0x2B836400 0x00000000 = .ok (.sinF32 (.push 3) (.reg 100)) ∧
    decode 0x2C7E8500 0x00000000 = .ok (.cosF32 (.reg 126) (.pop 5)) ∧
    decode 0x2D83C600 0x00000000 = .ok (.tanhF32 (.push 3) (.peek 6)) ∧
    decode 0x2E7E6400 0x00000000 = .ok (.fclassF32 (.reg 126) (.reg 100)) ∧
    decode 0x2F838500 0x00000000 = .ok (.absF32 (.push 3) (.pop 5)) :=
  ⟨rfl, rfl, rfl, rfl, rfl, rfl, rfl, rfl, rfl, rfl, rfl, rfl, rfl, rfl, rfl, rfl⟩

theorem test_decode_lanes :
    decode 0x307EC69E 0x00000000 = .ok (.lperm (.reg 126) (.peek 6) (.pop 30)) ∧
    decode 0x3183640D 0x00000000 = .ok (.lrot (.push 3) (.reg 100) (.const 13)) ∧
    decode 0x327E8544 0x00000000 = .ok (.lxor (.reg 126) (.pop 5) (.width 4)) ∧
    decode 0x3383C683 0x00000000 = .ok (.lbcast (.push 3) (.peek 6) (.widthLess1 3)) ∧
    decode 0x347E6400 0x00000000 = .ok (.lballot (.reg 126) (.reg 100)) ∧
    decode 0x35838500 0x00000000 = .ok (.lmatch (.push 3) (.pop 5)) ∧
    decode 0x36050603 0x00000000 = .ok (.pand 5 6 3) ∧
    decode 0x37050603 0x00000000 = .ok (.por 5 6 3) ∧
    decode 0x38050603 0x00000000 = .ok (.pxor 5 6 3) ∧
    decode 0x3983C600 0x00000000 = .ok (.accRead (.push 3) (.peek 6)) ∧
    decode 0x3A0064DF 0x00000000 = .ok (.accWrite (.reg 100) (.peek 31)) ∧
    decode 0x3B830006 0x00000000 = .ok (.cardNext (.push 3) 6) ∧
    decode 0x3C2DC69E 0x00000000 = .ok (.cardFeed 45 (.peek 6) (.pop 30)) ∧
    decode 0x3D8364DF 0x00000000 = .ok (.crc (.push 3) (.reg 100) (.peek 31)) ∧
    decode 0x3E7E8540 0x00000000 = .ok (.absdI32 (.reg 126) (.pop 5) (.reg 64)) ∧
    decode 0x3F83C69E 0x00000000 = .ok (.mulhN32 (.push 3) (.peek 6) (.pop 30)) :=
  ⟨rfl, rfl, rfl, rfl, rfl, rfl, rfl, rfl, rfl, rfl, rfl, rfl, rfl, rfl, rfl, rfl⟩

theorem test_decode_control :
    decode 0x40ADA5A5 0x00000000 = .ok (.br (some ⟨false, 5⟩) 0x5A5A5) ∧
    decode 0x41EDA5A5 0x00000000 = .ok (.call (some ⟨true, 5⟩) 0x5A5A5) ∧
    decode 0x42000000 0x00000000 = .ok (.ret) ∧
    decode 0x43005400 0x00000000 = .ok (.jr 84) ∧
    decode 0x44005400 0x00000000 = .ok (.calr 84) ∧
    decode 0x45858A5C 0x00000000 = .ok (.switch (.pop 5) 0x8A5C) ∧
    decode 0x46000000 0x00000000 = .ok (.converge) ∧
    decode 0x47000000 0x00000000 = .ok (.reform) ∧
    decode 0x487E541E 0x00000000 = .ok (.spawn (.reg 126) 84 30) ∧
    decode 0x49000000 0x00000000 = .ok (.exit) ∧
    decode 0x4A0000A7 0x00000000 = .ok (.trap 0xA7) ∧
    decode 0x4B0000A7 0x00000000 = .ok (.brk 0xA7) ∧
    decode 0x4C000000 0x00000000 = .ok (.yield) ∧
    decode 0x4D0000A7 0x00000000 = .ok (.sleep 0xA7) ∧
    decode 0x4E7E5400 0x00000000 = .ok (.gwait (.reg 126) 84) ∧
    decode 0x4E835401 0x00000000 = .ok (.gwaitPoll (.push 3) 84) ∧
    decode 0x4F000003 0x00000000 = .ok (.phase .dom) :=
  ⟨rfl, rfl, rfl, rfl, rfl, rfl, rfl, rfl, rfl, rfl, rfl, rfl, rfl, rfl, rfl, rfl, rfl⟩

theorem test_decode_objects :
    decode 0x50830D00 0x00000000 = .ok (.arrive (.push 3) 13) ∧
    decode 0x51000DDF 0x00000000 = .ok (.wait 13 (.peek 31)) ∧
    decode 0x52830D40 0x00000000 = .ok (.barOwe (.push 3) 13 64) ∧
    decode 0x53060D9E 0x00000000 = .ok (.barTest 6 13 (.pop 30)) ∧
    decode 0x540654DF 0x00000000 = .ok (.hankPush 6 84 (.peek 31)) ∧
    decode 0x552A5406 0x00000000 = .ok (.hankPop 42 84 6) ∧
    decode 0x552A540E 0x00000000 = .ok (.hankPopWait 42 84 6) ∧
    decode 0x562A5406 0x00000000 = .ok (.hankSteal 42 84 6) ∧
    decode 0x57035400 0x00000000 = .ok (.hankSize 3 84) ∧
    decode 0x5800542B 0x00000000 = .ok (.boundMin 84 true false 11) ∧
    decode 0x5800545B 0x00000000 = .ok (.boundMinSet 84 false true 11) ∧
    decode 0x5900542B 0x00000000 = .ok (.boundMax 84 true false 11) ∧
    decode 0x5900545B 0x00000000 = .ok (.boundMaxSet 84 false true 11) ∧
    decode 0x5A2A001B 0x00000000 = .ok (.boundGet 42 true 11) ∧
    decode 0x5B0000A7 0x00000000 = .ok (.regclaim 0xA7) ∧
    decode 0x5C0000A7 0x00000000 = .ok (.regrel 0xA7) ∧
    decode 0x5D831500 0x00000000 = .ok (.chpoll (.push 3) 21) ∧
    decode 0x5E008510 0x00000000 = .ok (.wSend (.pop 5) 16) ∧
    decode 0x5F100000 0x00000000 = .ok (.wRecv 16) :=
  ⟨rfl, rfl, rfl, rfl, rfl, rfl, rfl, rfl, rfl, rfl, rfl, rfl, rfl, rfl, rfl, rfl, rfl, rfl, rfl⟩

theorem test_decode_uniform :
    decode 0x803F03C0 0x00000000 = .ok (.sadd (.k 63) (.k 3) (.peek 0)) ∧
    decode 0x819F843E 0x00000000 = .ok (.ssub (.push 31) (.pop 4) (.k 62)) ∧
    decode 0x823FDE80 0x00000000 = .ok (.sand (.k 63) (.peek 30) (.pop 0)) ∧
    decode 0x839F03C0 0x00000000 = .ok (.sor (.push 31) (.k 3) (.peek 0)) ∧
    decode 0x843F843E 0x00000000 = .ok (.sxor (.k 63) (.pop 4) (.k 62)) ∧
    decode 0x859FDE80 0x00000000 = .ok (.sshl (.push 31) (.peek 30) (.pop 0)) ∧
    decode 0x863F03C0 0x00000000 = .ok (.sshr (.k 63) (.k 3) (.peek 0)) ∧
    decode 0x879F8400 0x00000000 = .ok (.smov (.push 31) (.pop 4)) ∧
    decode 0x883F8A5C 0x00000000 = .ok (.smovi (.k 63) 0x8A5C) ∧
    decode 0x89338A5C 0x00000000 = .ok (.smovh 51 0x8A5C) ∧
    decode 0x8AD0DA3C 0x00000000 = .ok (.sbr .le 33 0x5A3C) ∧
    decode 0x8B9F0C00 0x00000000 = .ok (.rdsr (.push 31) 0x0C) ∧
    decode 0x8C000C03 0x00000000 = .ok (.wrsr 0x0C (.k 3)) ∧
    decode 0x8D0D2501 0x00000000 = .ok (.barInit 13 37 .gang) ∧
    decode 0x8E00251A 0x00000000 = .ok (.hankInit 37 26) ∧
    decode 0x8F152500 0x00000000 = .ok (.chbind 21 37) ∧
    decode 0x90150000 0x00000000 = .ok (.chfree 21) ∧
    decode 0x91062500 0x00000000 = .ok (.guardSet 6 37) ∧
    decode 0x92000000 0x00000000 = .ok (.mxAcquire) ∧
    decode 0x93000000 0x00000000 = .ok (.mxRelease) ∧
    decode 0x94002500 0x00000000 = .ok (.mxIssue 37) ∧
    decode 0x95332500 0x00000000 = .ok (.accAlloc 51 37) ∧
    decode 0x96002500 0x00000000 = .ok (.accFree 37) ∧
    decode 0x97002500 0x00000000 = .ok (.accZero 37) ∧
    decode 0x9800251A 0x00000000 = .ok (.accDrain 37 26) ∧
    decode 0x9900251A 0x00000000 = .ok (.accPack 37 26) ∧
    decode 0x9A33251A 0x00000000 = .ok (.xfer 51 37 26) ∧
    decode 0x9B33251A 0x00000000 = .ok (.xferMc 51 37 26) ∧
    decode 0x9C002500 0x00000000 = .ok (.bufDecl 37) ∧
    decode 0x9D2D0002 0x00000000 = .ok (.bufSet 45 .draining) ∧
    decode 0x9E002500 0x00000000 = .ok (.cardOpenX 37) ∧
    decode 0x9F002500 0x00000000 = .ok (.cardOpenM 37) ∧
    decode 0xA0002500 0x00000000 = .ok (.cardSplit 37) ∧
    decode 0xA1002500 0x00000000 = .ok (.cardSave 37) ∧
    decode 0xA2002500 0x00000000 = .ok (.cardRestore 37) ∧
    decode 0xA3000000 0x00000000 = .ok (.cardClose) ∧
    decode 0xA4002500 0x00000000 = .ok (.sfUnbind 37) ∧
    decode 0xA533251A 0x00000000 = .ok (.ctxsave 51 37 26) ∧
    decode 0xA633251A 0x00000000 = .ok (.ctxload 51 37 26) ∧
    decode 0xA7000000 0x00000000 = .ok (.tsync) ∧
    decode 0xA8000000 0x00000000 = .ok (.replay) ∧
    decode 0xA9332500 0x00000000 = .ok (.idle 51 37) ∧
    decode 0xAA000000 0x00000000 = .ok (.halt) ∧
    decode 0xAB00251A 0x00000000 = .ok (.errack 37 26) :=
  ⟨rfl, rfl, rfl, rfl, rfl, rfl, rfl, rfl, rfl, rfl, rfl, rfl, rfl, rfl, rfl, rfl, rfl, rfl, rfl, rfl, rfl, rfl, rfl, rfl, rfl, rfl, rfl, rfl, rfl, rfl, rfl, rfl, rfl, rfl, rfl, rfl, rfl, rfl, rfl, rfl, rfl, rfl, rfl, rfl⟩

theorem test_decode_elements :
    decode 0x70050607 0x00814000 = .ok (.add ⟨.i16, .x2, ⟨.dyn, true⟩⟩ (.reg 5) (.reg 6) (.reg 7)) ∧
    decode 0x70050607 0x01290000 = .ok (.sub ⟨.f32, .one, ⟨.rtz, false⟩⟩ (.reg 5) (.reg 6) (.reg 7)) ∧
    decode 0x70830607 0x021B4000 = .ok (.mul ⟨.h16, .x2, ⟨.rne, false⟩⟩ (.push 3) (.reg 6) (.reg 7)) ∧
    decode 0x70040608 0x03030000 = .ok (.mulh ⟨.i64, .one, ⟨.dyn, false⟩⟩ (.reg 4) (.reg 6) (.reg 8)) ∧
    decode 0x70040608 0x04380000 = .ok (.div ⟨.f64, .one, ⟨.rup, false⟩⟩ (.reg 4) (.reg 6) (.reg 8)) ∧
    decode 0x70040608 0x05070000 = .ok (.rem ⟨.n64, .one, ⟨.dyn, false⟩⟩ (.reg 4) (.reg 6) (.reg 8)) ∧
    decode 0x70050607 0x06048000 = .ok (.min ⟨.n8, .x4, ⟨.dyn, false⟩⟩ (.reg 5) (.reg 6) (.reg 7)) ∧
    decode 0x70050607 0x070FC000 = .ok (.max ⟨.e2m1, .x8, ⟨.dyn, false⟩⟩ (.reg 5) (.reg 6) (.reg 7)) ∧
    decode 0x70050600 0x08820000 = .ok (.abs ⟨.i32, .one, ⟨.dyn, true⟩⟩ (.reg 5) (.reg 6)) ∧
    decode 0x70050600 0x090A0000 = .ok (.neg ⟨.bf16, .one, ⟨.dyn, false⟩⟩ (.reg 5) (.reg 6)) ∧
    decode 0x70050607 0x0A050000 = .ok (.absd ⟨.n16, .one, ⟨.dyn, false⟩⟩ (.reg 5) (.reg 6) (.reg 7)) ∧
    decode 0x70050600 0x0B4B0000 = .ok (.sqrt ⟨.h16, .one, ⟨.rdn, false⟩⟩ (.reg 5) (.reg 6)) ∧
    decode 0x70050607 0x0C190009 = .ok (.fma ⟨.f32, .one, ⟨.rne, false⟩⟩ (.reg 5) (.reg 6) (.reg 7) (.reg 9)) ∧
    decode 0x70050607 0x0D008009 = .ok (.mad ⟨.i8, .x4, ⟨.dyn, false⟩⟩ (.reg 5) (.reg 6) (.reg 7) (.reg 9)) ∧
    decode 0x70040607 0x0E014008 = .ok (.madw ⟨.i16, .x2, ⟨.dyn, false⟩⟩ (.reg 4) (.reg 6) (.reg 7) (.reg 8)) ∧
    decode 0x70050607 0x0F590000 = .ok (.scalb ⟨.f32, .one, ⟨.rodd, false⟩⟩ (.reg 5) (.reg 6) (.reg 7)) ∧
    decode 0x70040600 0x10080000 = .ok (.rnd ⟨.f64, .one, ⟨.dyn, false⟩⟩ (.reg 4) (.reg 6)) ∧
    decode 0x70060800 0x119DB600 = .ok (.cvt ⟨⟨.rne, true⟩, .ty .e4m3, .x4, .ty .h16, .x2⟩ (.reg 6) (.reg 8)) ∧
    decode 0x70050607 0x120A4000 = .ok (.pack .bf16 (.reg 5) (.reg 6) (.reg 7)) ∧
    decode 0x70040600 0x130D8000 = .ok (.unpack .e4m3 (.reg 4) (.reg 6)) ∧
    decode 0x70030608 0x14080005 = .ok (.cmp .ge .f64 3 (.reg 6) (.reg 8)) ∧
    decode 0x70050607 0x1506000A = .ok (.sel .n32 2 true (.reg 5) (.reg 6) (.reg 7)) ∧
    decode 0x70040607 0x1602FFE3 = .ok (.lea true 0x3FF8 3 (.reg 4) (.reg 6) (.reg 7)) ∧
    decode 0x70050600 0x17060125 = .ok (.bfe false 5 9 (.reg 5) (.reg 6)) ∧
    decode 0x70050607 0x18060400 = .ok (.bfi 0 32 (.reg 5) (.reg 6) (.reg 7)) ∧
    decode 0x70050607 0x19060009 = .ok (.fsh (.reg 5) (.reg 6) (.reg 7) (.reg 9)) ∧
    decode 0x70040600 0x1A030012 = .ok (.lscan .max true .i64 ⟨.dyn, false⟩ (.reg 4) (.reg 6)) ∧
    decode 0x70010200 0x1B190000 = .ok (.lred .add .f32 ⟨.rne, false⟩ (.reg 1) (.reg 2)) :=
  ⟨rfl, rfl, rfl, rfl, rfl, rfl, rfl, rfl, rfl, rfl, rfl, rfl, rfl, rfl, rfl, rfl, rfl, rfl, rfl, rfl, rfl, rfl, rfl, rfl, rfl, rfl, rfl, rfl⟩

theorem test_decode_memory :
    decode 0x70050206 0x1C020C04 = .ok (.ld .i32 (.reg 5) ⟨2, some (6, 2), 4⟩) ∧
    decode 0x70040600 0x1D0301F0 = .ok (.st .i64 (.reg 4) ⟨6, none, 0x1F0⟩) ∧
    decode 0x70050607 0x1E090A00 = .ok (.gld .f32 (.reg 5) ⟨6, some (7, 1), 0⟩) ∧
    decode 0x70050600 0x1F050004 = .ok (.gst .n16 (.reg 5) ⟨6, none, 4⟩) ∧
    decode 0x71040600 0x00030001 = .ok (.atomXchg .i64 .core .none 4 ⟨6, none, 1⟩) ∧
    decode 0x71646800 0x00861000 = .ok (.atomAdd .n32 .dev .none 100 ⟨104, none, 0⟩) ∧
    decode 0x71050600 0x00522000 = .ok (.atomAnd .i32 .cluster .rel 5 ⟨6, none, 0⟩) ∧
    decode 0x71050600 0x00A63000 = .ok (.atomOr .n32 .dev .acq 5 ⟨6, none, 0⟩) ∧
    decode 0x71050600 0x00F24000 = .ok (.atomXor .i32 .dom .ar 5 ⟨6, none, 0⟩) ∧
    decode 0x71050607 0x00025E00 = .ok (.atomMin .i32 .core .none 5 ⟨6, some (7, 3), 0⟩) ∧
    decode 0x71050600 0x000660FF = .ok (.atomMax .n32 .core .none 5 ⟨6, none, 0xFF⟩) ∧
    decode 0x71050600 0x00297000 = .ok (.atomLd .f32 .core .acq 5 ⟨6, none, 0⟩) ∧
    decode 0x71040600 0x00588000 = .ok (.atomSt .f64 .cluster .rel 4 ⟨6, none, 0⟩) ∧
    decode 0x71050607 0x01060009 = .ok (.cas .n32 .core .none 5 6 7 9) ∧
    decode 0x71000600 0x02020010 = .ok (.pfch .i32 ⟨6, none, 0x10⟩) :=
  ⟨rfl, rfl, rfl, rfl, rfl, rfl, rfl, rfl, rfl, rfl, rfl, rfl, rfl, rfl, rfl⟩

theorem test_decode_walker :
    decode 0x71000300 0x03000000 = .ok (.wHop (.reg 3)) ∧
    decode 0x71000600 0x0400001F = .ok (.wEmit 6 31) ∧
    decode 0x71050600 0x05000011 = .ok (.wDist 5 6 17) ∧
    decode 0x71070600 0x06000003 = .ok (.wHeap 7 6 3) ∧
    decode 0x71060500 0x07000012 = .ok (.wVisit 6 (.reg 5) 18) :=
  ⟨rfl, rfl, rfl, rfl, rfl⟩

theorem test_decode_uniform_page :
    decode 0xF0141500 0x00000000 = .ok (.launch 20 21) ∧
    decode 0xF0141516 0x01040011 = .ok (.xferTr .n8 0x11 20 21 22) ∧
    decode 0xF0001415 0x0200001F = .ok (.cgLaunch 0x1F 20 21) ∧
    decode 0xF0141500 0x0300003F = .ok (.sfLoad 63 20 21) ∧
    decode 0xF0001415 0x04000000 = .ok (.sfBind 20 21) ∧
    decode 0xF0001415 0x05000013 = .ok (.sfRun 0x13 20 21) ∧
    decode 0xF0001415 0x06000400 = .ok (.srchIssue 0x400 20 21) ∧
    decode 0xF0141500 0x07000000 = .ok (.srchVer 20 21) ∧
    decode 0xF0141500 0x07000001 = .ok (.srchVerRead 20 21) ∧
    decode 0xF0001400 0x08000014 = .ok (.collStart 0x14 20) ∧
    decode 0xF0000000 0x09000000 = .ok (.tlbinvAll) ∧
    decode 0xF0001400 0x09000001 = .ok (.tlbinvAsid 20) ∧
    decode 0xF0001415 0x09000002 = .ok (.tlbinvVa 20 21) ∧
    decode 0xF0001415 0x0A000000 = .ok (.dirReclaim 20 21) ∧
    decode 0xF0001415 0x0B000000 = .ok (.keyselLoad 20 21) :=
  ⟨rfl, rfl, rfl, rfl, rfl, rfl, rfl, rfl, rfl, rfl, rfl, rfl, rfl, rfl, rfl⟩

theorem test_decode_operand_forms :
    decode 0x40040000 0x00000000 = .ok (.br none 0x40000) ∧
    decode 0x00838405 0x00000000 = .ok (.addI32 (.push 3) (.pop 4) (.reg 5)) ∧
    decode 0x19020000 0x00000000 = .ok (.movk (.reg 2) 0 .full) ∧
    decode 0x0D000000 0x00000000 = .ok (.mov (.reg 0) (.reg 0)) ∧
    decode 0x9D030001 0x00000000 = .ok (.bufSet 3 .full) ∧
    decode 0x8A001234 0x00000000 = .ok (.sbr .always 0 0x1234) :=
  ⟨rfl, rfl, rfl, rfl, rfl, rfl⟩

/-! ### What well-formedness refuses, one term for each check -/

theorem test_wf_integers : ([.movk (.reg 3) 0 .full, .rds (.reg 6) 0x15, .rds (.reg 7) 0x0B, .rds (.reg 7) 0x1F, .wrs 0x0B (.reg 1),
    .wrs 0xC0 (.reg 1), .accRead (.reg 3) (.reg 1), .accWrite (.reg 1) (.reg 3), .cardNext (.reg 3) 0, .jr 3, .calr 3,
    .spawn (.reg 1) 3 1, .gwait (.reg 1) 3, .gwaitPoll (.reg 1) 3, .hankPush 0 3 (.reg 2), .hankPush 0 2 (.reg 3), .hankPop 3 2 0,
    .hankPop 2 3 0, .hankPopWait 3 2 0, .hankSteal 2 3 0, .hankSize 1 3, .boundMin 3 true true 0, .boundMinSet 3 true true 0,
    .boundMax 3 true true 0, .boundMaxSet 3 true true 0, .boundGet 3 true 0] : List Instr).all
    (fun i => !i.wf) = true := by decide

theorem test_wf_uniform : ([.sadd (.k 15) (.k 1) (.k 2), .smov (.k 0) (.k 1), .smovi (.k 15) 0, .smovh 15 0, .sbr .always 1 0, .rdsr (.k 15) 5,
    .rdsr (.k 16) 0, .rdsr (.k 16) 0x7F, .wrsr 0x0D (.k 1), .wrsr 0x05 (.k 1), .accAlloc 15 0, .xfer 15 0 0, .ctxsave 15 0 0, .ctxload 15 0 0,
    .idle 15 0, .launch 15 0, .sfLoad 0 15 0, .srchVer 15 0, .srchVerRead 15 0, .xferTr .e2m1 0 20 21 22, .xferTr .i64 0 20 21 22,
    .xferTr .n8 0x0020 20 21 22, .cgLaunch 0x0800 20 21, .sfRun 0x0001 20 21, .srchIssue 0x0200 20 21, .collStart 0x8000 20] : List Instr).all
    (fun i => !i.wf) = true := by decide

theorem test_wf_elements :
    (let f (t : Ty) (p : Pack) (m : RMode) (sat : Bool) : Fmt := ⟨t, p, ⟨m, sat⟩⟩
     let r (n : Fin 128) : Src := .reg n
     ([.add (f .i16 .x4 .dyn false) (.reg 0) (r 0) (r 0), .add (f .i32 .one .rne false) (.reg 0) (r 0) (r 0), .sub (f .f64 .one .dyn false) (.reg 1) (r 0) (r 0),
      .mul (f .f64 .one .dyn false) (.reg 0) (r 1) (r 0), .mulh (f .i16 .one .dyn false) (.reg 0) (r 0) (r 0), .mulh (f .i32 .one .dyn true) (.reg 0) (r 0) (r 0),
      .div (f .h16 .one .dyn false) (.reg 0) (r 0) (r 0), .div (f .i32 .one .dyn true) (.reg 0) (r 0) (r 0), .rem (f .f32 .one .dyn false) (.reg 0) (r 0) (r 0),
      .rem (f .i32 .one .dyn true) (.reg 0) (r 0) (r 0), .min (f .f32 .one .rne false) (.reg 0) (r 0) (r 0), .max (f .i32 .one .dyn true) (.reg 0) (r 0) (r 0),
      .abs (f .f32 .one .dyn true) (.reg 0) (r 0), .neg (f .i32 .one .rtz false) (.reg 0) (r 0), .absd (f .i32 .one .dyn true) (.reg 0) (r 0) (r 0),
      .sqrt (f .i32 .one .dyn false) (.reg 0) (r 0), .sqrt (f .h16 .x2 .dyn false) (.reg 0) (r 0), .fma (f .i32 .one .dyn false) (.reg 0) (r 0) (r 0) (r 0),
      .mad (f .f32 .one .dyn false) (.reg 0) (r 0) (r 0) (r 0), .mad (f .i32 .one .rne false) (.reg 0) (r 0) (r 0) (r 0),
      .madw (f .i8 .one .dyn false) (.reg 0) (r 0) (r 0) (r 0), .madw (f .i64 .one .dyn false) (.reg 0) (r 0) (r 0) (r 0),
      .madw (f .n32 .one .dyn false) (.reg 0) (r 0) (r 0) (r 1), .scalb (f .e4m3 .one .dyn false) (.reg 0) (r 0) (r 0), .rnd (f .f32 .one .dyn true) (.reg 0) (r 0),
      .rnd (f .i32 .one .dyn false) (.reg 0) (r 0), .cvt ⟨⟨.dyn, false⟩, .e8m0, .one, .e8m0, .one⟩ (.reg 0) (r 0),
      .cvt ⟨⟨.rne, false⟩, .ty .i32, .one, .ty .n32, .one⟩ (.reg 0) (r 0), .cvt ⟨⟨.dyn, false⟩, .ty .f64, .one, .ty .h16, .x2⟩ (.reg 0) (r 0),
      .cvt ⟨⟨.dyn, false⟩, .ty .f64, .one, .ty .f32, .one⟩ (.reg 1) (r 0), .cvt ⟨⟨.dyn, false⟩, .ty .f32, .x2, .ty .h16, .x2⟩ (.reg 0) (r 0),
      .pack .i32 (.reg 0) (r 0) (r 0), .unpack .f64 (.reg 0) (r 0), .unpack .i16 (.reg 1) (r 0), .cmp .ord .i32 0 (r 0) (r 0), .cmp .lt .i64 0 (r 1) (r 0),
      .sel .i16 0 false (.reg 0) (r 0) (r 0), .sel .i64 0 false (.reg 0) (r 0) (r 1), .lea true 0 0 (.reg 1) (r 0) (r 0), .lea true 0 0 (.reg 0) (r 1) (r 0),
      .bfe true 0 0 (.reg 0) (r 0), .bfe true 0 33 (.reg 0) (r 0), .bfi 1 32 (.reg 0) (r 0) (r 0), .lscan .and false .f32 ⟨.dyn, false⟩ (.reg 0) (r 0),
      .lscan .add false .i16 ⟨.dyn, false⟩ (.reg 0) (r 0), .lred .max .f32 ⟨.rne, false⟩ (.reg 0) (r 0), .lred .add .i64 ⟨.dyn, false⟩ (.reg 1) (r 0)] :
      List Instr).all (fun i => !i.wf)) = true := by decide

theorem test_wf_memory : ([.ld .e2m1 (.reg 0) ⟨0, none, 0⟩, .ld .i64 (.reg 1) ⟨0, none, 0⟩, .ld .i32 (.reg 0) ⟨1, none, 0⟩, .st .i64 (.reg 1) ⟨0, none, 0⟩,
    .gld .e2m1 (.reg 0) ⟨0, none, 0⟩, .gst .n64 (.reg 1) ⟨0, none, 0⟩, .atomAdd .i16 .core .none 0 ⟨0, none, 0⟩, .atomAdd .f64 .core .none 1 ⟨0, none, 0⟩,
    .atomAnd .f32 .core .none 0 ⟨0, none, 0⟩, .atomMin .f64 .core .none 0 ⟨0, none, 0⟩, .atomSt .i32 .core .none 0 ⟨1, none, 0⟩,
    .cas .f32 .core .none 0 0 0 0, .cas .i32 .core .none 0 1 0 0, .cas .i64 .core .none 0 0 1 0, .pfch .e2m1 ⟨0, none, 0⟩, .pfch .i32 ⟨1, none, 0⟩,
    .wEmit 1 0, .wDist 0 1 0, .wHeap 0 1 0] : List Instr).all (fun i => !i.wf) = true := by decide

theorem test_wf_units : (∀ i ∈ ([.draw 192, .registerGrant 192, .gatherAccess 192, .forcing (.lane 0 16 0), .sleepEnd (.lane 0 0 1024),
    .convergeStarveRelease (.walk 8192), .implicitRelease (.lane 192 0 0) 1, .starvation 0 16 (.barrier 0), .tableWalk (.die 16) 0 0 0,
    .tableWalk (.core 192) 0 0 0, .commandHead (.matrix 192), .commandHead (.fabric 64 0), .commandHead (.fabric 0 8), .commandHead (.round 16),
    .streamChunk 64 0, .cycleViolation 0 8 0 0, .searchBlockStart 16, .walkerMessage 8192, .teamRetire 0 16] : List Instr), i.wf = false) ∧
    (∀ i ∈ ([.idleTimer 192 0, .hostMemoryWrite 1 0 [0] false, .hostMemoryWrite 2 0 [] false, .hostMemoryRead 3 0 4, .hostMemoryRead 2 0 4097,
      .domainJoin false [288], .coreResume 192, .registerWrite 0 2 0, .temperatureSample [] [], .unitFence (.slice 192), .unitFence (.stack 16),
      .unitFence (.fabric 64), .unitFence (.walker 512), .unitFence (.port 18), .remoteAccess 288 0 4 0 .load, .remoteAccess 0 0 3 0 .load,
      .directoryRequest 288 0 false, .snoopReply 0 [], .eorexPortFailure 18 0, .deviceLossNotice 288] : List Instr), i.wf = false) := by
  refine ⟨fun i h => ?_, fun i h => ?_⟩ <;> (simp only [List.mem_cons, List.not_mem_nil, or_false] at h; rcases h with rfl | rfl | rfl | rfl | rfl | rfl | rfl | rfl | rfl | rfl | rfl | rfl | rfl | rfl | rfl | rfl | rfl | rfl | rfl | rfl <;> rfl)

/-! ### What the decoder refuses -/

/-- R137 (a destination that peeks, bit 5), R139 (`cond` 0b111, bits of an absent predicate), R141, R142, R143, R123, R144, R150, R152:
reserved words have no instruction. -/
theorem test_decode_refuses : ([(0x00C30000, 0), (0x00A30000, 0), (0x0000A000, 0), (0x40080000, 0), (0x8AE00000, 0), (0x8A008000, 0),
    (0x800F1415, 0), (0x80405500, 0), (0x09010203, 0), (0x60000000, 0), (0xAC000000, 0), (0x72000000, 0), (0x70000000, 0x20000000),
    (0x71000000, 0x08000000), (0xF0000000, 0x0C000000), (0x70050607, 0x00614000), (0x70050607, 0x0001C000), (0x70050607, 0x00000100),
    (0x70050607, 0x08020000), (0x70050206, 0x1C020404), (0x70050200, 0x1C120000), (0x71050600, 0x00029000), (0x70030608, 0x14020006),
    (0x70030608, 0x14020008), (0x70050600, 0x17060800), (0x3100001F, 0), (0x31000045, 0), (0x310000C0, 0), (0x31000048, 0), (0x4F000004, 0),
    (0x8D021403, 0), (0x9D010003, 0), (0xF0001400, 0x09000003), (0xF0001415, 0x05000800), (0x1C061500, 0), (0x8B140000, 0), (0x487E549E, 0), (0x520A0D9E, 0),
    (0x57835400, 0), (0x71830600, 0x05000011)] :
    List (Word × Word)).all (fun w => match decode w.1 w.2 with | .ok _ => false | .error _ => true) = true := by decide

/-! ### Worked examples of the specification -/

/-- R10's example: an unsigned byte add that saturates. -/
theorem test_saturating_byte_add : intElem .n8 true (0xC8 + 0x50) = 0xFF ∧ intElem .n8 true (0x10 + 0x20) = 0x30 := by decide

/-- R127's example: 1.25 + 2^-10 to `e2m1`, straight, through `e4m3` with `rne` (wrong) and through `e4m3` with `rodd`. -/
theorem test_rounding_to_odd :
    let x := f32F.decode 0x3FA02000
    (e2m1F.finish .rne false (x, 0)).1 = 3 ∧ (e4m3F.finish .rne false (x, 0)).1 = 0x3A ∧
    (e2m1F.finish .rne false (e4m3F.decode 0x3A, 0)).1 = 2 ∧ (e4m3F.finish .rodd false (x, 0)).1 = 0x3B ∧
    (e2m1F.finish .rne false (e4m3F.decode 0x3B, 0)).1 = 3 := by decide

/-- R184's example: `cvt.e4m3x4.h16x2.rne.sat v6, v8`. -/
theorem test_cvt_example :
    let s := place placedTeam [thr [(8, 0x5C003C00), (9, 0xBC007C00)]]
    (match exec (.cvt ⟨⟨.rne, true⟩, .ty .e4m3, .x4, .ty .h16, .x2⟩ (.reg 6) (.reg 8)) s with
     | .next t => (t.thread (.lane 0 0 0)).map (fun th => (th.rd 6).toNat)
     | _ => none) = some 0xB87E7838 := by decide

/-- R131's example: one block of `e4m3` with two scales, added to 1.0. -/
theorem test_matrix_block :
    mxElem ([0x7E, 0x01, 0xFE].map e4m3F.decode) ([0x7E, 0x01, 0x7E].map e4m3F.decode) [0x82] [0x7E] 0x3FF0000000000000 1 =
      (0x3FF0001000000000, 0) := by decide

/-- R363's example: the header of a hop to stack 5 by thread 70, for command 2 of block entry 9 of stack 0, core 17, slot 1, ASID 7. -/
theorem test_hop_header :
    (let m := walkMsg 2 5 70 0 { stack := 0, block := 9, cmd := 2, origin := 0, core := 17, team := 1, asid := 7 }
     (m.h0, m.h1)) = (0x0000000000004652, 0x0000111008900007) := by decide

/-- The example of a coded block (R337): eight symbols in 14 bits. -/
def codeTable : List Byte := [1, 1, 2].foldl (fun (l : List Byte) n => l ++ [BitVec.ofNat 8 n, 0]) [] ++ List.replicate 26 0 ++ [0, 0x11, 0x22, 0x33] ++ List.replicate 252 0
def codedBlock : List Byte := bytesOf 8 0x02000008 ++ bytesOf 8 (crc32c [0x2D, 0xD0]).toNat ++ [0x2D, 0xD0]
theorem test_coded_block : untag (runPdec codeTable 4096 (tagInput codedBlock) true 18).out0 = [0, 0, 0x11, 0x22, 0x33, 0, 0x11, 0] := by decide +kernel

/-! ### Witnesses: integers, elements, floating point, predicates, lanes -/

/-- IntegerTwoSource, ShiftAmounts: registers of two lanes (a shift amount of 32 among them), a channel's elements, a walker thread. -/
theorem witness_two_sources : ∃ s' ls, LaneReady lane2 (shape2 (.reg 5) (.reg 5) (.reg 6)) s' ls ∧
    ls.map (fun l => (l.w 0, l.w 1)) = [(7, 0xFFFFFFFE), (0x80000000, 32)] := ⟨_, _, ready_at (by decide) rfl, by decide⟩

theorem witness_two_sources_by_channels : ∃ s' ls,
    LaneReady (withChan lane2 3 (chanOf [1, 2, 3, 4])) (shape2 (.push 3) (.pop 3) (.peek 3)) s' ls := ⟨_, _, ready_at (by decide) rfl⟩

theorem witness_two_sources_of_a_walker : ∃ s' ls, LaneReady walk1 (shape2 (.reg 5) (.reg 6) (.reg 31)) s' ls := ⟨_, _, ready_at (by decide) rfl⟩

/-- IntegerOneSource, ShiftAmounts, BitFields: one source, none, the destination as source, three, and `lea`'s pair. -/
theorem witness_other_shapes :
    (∃ s' ls, LaneReady lane2 (shape1 (.reg 127) (.reg 6)) s' ls) ∧ (∃ s' ls, LaneReady lane2 (shapeD (.reg 0) false) s' ls) ∧
    (∃ s' ls, LaneReady lane2 (shapeD (.reg 126) true) s' ls) ∧
    (∃ s' ls, LaneReady lane2 (shape1 (.reg (7 : Fin 128)) (.reg (7 : Fin 128))) s' ls) ∧
    (∃ s' ls, LaneReady lane2 (shape3 (.reg 5) (.reg 5) (.reg 6) (.reg 7)) s' ls) ∧
    (∃ s' ls, LaneReady lane2 { srcs := [(.reg 6, true), (.reg 5, false)], dst := some (.reg 8, true) } s' ls) :=
  ⟨⟨_, _, ready_at (by decide) rfl⟩, ⟨_, _, ready_at (by decide) rfl⟩, ⟨_, _, ready_at (by decide) rfl⟩, ⟨_, _, ready_at (by decide) rfl⟩,
   ⟨_, _, ready_at (by decide) rfl⟩, ⟨_, _, ready_at (by decide) rfl⟩⟩

/-- PackingAndSelection. -/
theorem witness_packing :
    (∃ s' ls, LaneReady lane2 { srcs := [(.reg 5, false)], dst := some (.reg 8, true) } s' ls) ∧
    (∃ s' ls, LaneReady lane2 { srcs := [(.reg 6, Ty.f64.wide), (.reg 8, Ty.f64.wide)], pdst := some 7 } s' ls) ∧
    (∃ s' ls, LaneReady lane2 { shapeTy .i32 (.reg 1) [.reg 5, .reg 6] with preds := [7] } s' ls) :=
  ⟨⟨_, _, ready_at (by decide) rfl⟩, ⟨_, _, ready_at (by decide) rfl⟩, ⟨_, _, ready_at (by decide) rfl⟩⟩

/-- ElementArithmetic, DivisionAndRemainder: wide and narrow types, one to three sources. -/
theorem witness_elements :
    (∃ s' ls, LaneReady lane2 (shapeTy .f64 (.reg 0) [.reg 2, .reg 4, .reg 126]) s' ls) ∧
    (∃ s' ls, LaneReady lane2 (shapeTy .e2m1 (.reg 1) [.reg 5]) s' ls) ∧
    (∃ s' ls, LaneReady lane2 (shapeTy .i32 (.reg 1) [.reg 5, .reg 6]) s' ls ∧ (Fmt.mk .i32 .one ⟨.dyn, false⟩).ty.isInt = true) :=
  ⟨⟨_, _, ready_at (by decide) rfl⟩, ⟨_, _, ready_at (by decide) rfl⟩, ⟨_, _, ready_at (by decide) rfl, by decide⟩⟩

/-- DivisionAndRemainder: each corner of the operands of `i32`, and an ordinary pair. -/
theorem witness_division : (0 : Nat) < 2 ^ Ty.i32.bits ∧ 0x80000000 < 2 ^ Ty.i32.bits ∧ 2 ^ Ty.i32.bits - 1 ≠ 0 ∧
    0x80000000 = 2 ^ (Ty.i32.bits - 1) ∧ Ty.i32.isSigned = true ∧ (Instr.div ⟨.i32, .one, ⟨.dyn, false⟩⟩ (.reg 1) (.reg 5) (.reg 6)).wf = true := by decide

/-- WideningAndConversion: `madw` to 32 and to 64 bits, `scalb`, `cvt` between one register and a pair. -/
theorem witness_widening :
    (∃ s' ls, LaneReady lane2 { srcs := [(.reg 5, false), (.reg 6, false), (.reg 7, false)], dst := some (.reg 1, false) } s' ls ∧
      false = (Ty.i16.bits == 32)) ∧
    (∃ s' ls, LaneReady lane2 { srcs := [(.reg 5, false), (.reg 6, false), (.reg 8, true)], dst := some (.reg 2, true) } s' ls ∧
      true = (Ty.n32.bits == 32)) ∧
    (∃ s' ls F, LaneReady lane2 { srcs := [(.reg 6, Ty.f64.wide), (.reg 5, false)], dst := some (.reg 2, Ty.f64.wide) } s' ls ∧ tyFmt .f64 = some F) ∧
    (∃ s' ls, LaneReady lane2 { srcs := [(.reg 6, decide (32 < (CvtFmt.mk ⟨.rne, false⟩ (.ty .f64) .one (.ty .h16) .one).srcBits))],
                                dst := some (.reg 2, decide (32 < (CvtFmt.mk ⟨.rne, false⟩ (.ty .f64) .one (.ty .h16) .one).dstBits)) } s' ls) :=
  ⟨⟨_, _, ready_at (by decide) rfl, by decide⟩, ⟨_, _, ready_at (by decide) rfl, by decide⟩, ⟨_, _, _, ready_at (by decide) rfl, rfl⟩,
   ⟨_, _, ready_at (by decide) rfl⟩⟩

/-- Binary32. -/
theorem witness_binary32 :
    (∃ s' ls, LaneReady lane2 { srcs := [Src.reg 5, Src.reg 6].map (fun x => (x, false)), dst := some (.reg 1, false) } s' ls) ∧
    (∃ s' ls, LaneReady lane2 { srcs := [Src.reg 6].map (fun x => (x, false)), dst := some (.reg 1, false) } s' ls) :=
  ⟨⟨_, _, ready_at (by decide) rfl⟩, ⟨_, _, ready_at (by decide) rfl⟩⟩

/-- Predicates. -/
theorem witness_predicates :
    (∃ s' ls, LaneReady lane2 { srcs := [(.reg 5, false)], pdst := some 0 } s' ls) ∧
    (∃ s' ls, LaneReady lane2 { dst := some (.reg 5, false), preds := [7] } s' ls) ∧
    (∃ s' ls, LaneReady lane2 { preds := ([1, 1] : List (Fin 8)).map (·.val), pdst := some 1 } s' ls) :=
  ⟨⟨_, _, ready_at (by decide) rfl⟩, ⟨_, _, ready_at (by decide) rfl⟩, ⟨_, _, ready_at (by decide) rfl⟩⟩

/-- LaneExchanges, LaneVotes, LaneReductions. -/
theorem witness_lanes :
    (∃ s' ls, (∀ l ∈ ls, l.t.unkRegs = []) ∧
      LaneReady lane2 { srcs := [Src.reg 5, Src.reg 6].map (fun x => (x, false)), dst := some (.reg 1, false), cross := true } s' ls) ∧
    (∃ s' ls, LaneReady lane2 { srcs := [(.reg 5, false)], dst := some (.reg 1, false), cross := true } s' ls) ∧
    (∃ s' ls, LaneReady lane2 { srcs := [(.reg 6, Ty.f64.wide)], dst := some (.reg 2, Ty.f64.wide), cross := true } s' ls) :=
  ⟨⟨_, _, by decide, ready_at (by decide) rfl⟩, ⟨_, _, ready_at (by decide) rfl⟩, ⟨_, _, ready_at (by decide) rfl⟩⟩

/-! ### Witnesses: control and traps -/

/-- Branches: with a predicate and without, a walker thread that takes one, and `switch` at both sides of 8. -/
theorem witness_branches :
    (∃ s' ls, LaneReady lane2 { preds := predOf (some ⟨true, 7⟩) } s' ls ∧ ∀ l ∈ ls, whoIsWalk l.who = false) ∧
    (∃ s' ls, LaneReady lane2 { preds := predOf none } s' ls ∧ ∀ l ∈ ls, whoIsWalk l.who = false) ∧
    (∃ s' l, SoloReady walk1 { preds := predOf (some ⟨true, 0⟩) } s' l ∧ whoIsWalk l.who = true ∧ brTaken (some ⟨true, 0⟩) l.t = true) ∧
    (∃ s' ls, LaneReady lane2 { srcs := [(.reg 5, false)] } s' ls ∧ (ls.map (fun l => decide ((l.w 0).toNat < 8))) = [true, false]) :=
  ⟨⟨_, _, ready_at (by decide) rfl, by decide⟩, ⟨_, _, ready_at (by decide) rfl, by decide⟩, ⟨_, _, solo_at (by decide) rfl, by decide, by decide⟩,
   ⟨_, _, ready_at (by decide) rfl, by decide⟩⟩

/-- One lane's turn: with a witness of SoloReady, the hypotheses of a statement about lanes that act in turn. -/
theorem turn_at {P : State → LaneIn → State → β → Prop} {s s' v : State} {sp : LaneSpec} {l : LaneIn} {o : β} (h : SoloReady s sp s' l)
    (hP : P (s.acting s' sp) l v o) : LaneReady s sp s' [l] ∧ InTurn P (s.acting s' sp) [l] v [o] := ⟨h.ready, .cons hP (.nil v)⟩

/-- Two lanes' turns: two jumps, two bound updates, an exit that leaves a last thread and that thread's, two elements of a port. -/
theorem witness_lanes_in_turn :
    (let s := place placedTeam [thr [(8, 0x2000)], thr [(8, 0x3000)]]
     let sp : LaneSpec := { srcs := [(.reg (8 : Fin 128), true)], check := jrCheck 8 }
     ∃ s' l k v os, LaneReady s sp s' [l, k] ∧ l.v 0 = 0x2000 ∧ k.v 0 = 0x3000 ∧ InTurn (fun u l v o =>
       v = (u.modThread l.who (fun t => { t with trapActive := false, pc := l.v 0 })).arriving l.who (l.v 0) ∧ o = goes (l.v 0))
       (s.acting s' sp) [l, k] v os) ∧
    (let sp : LaneSpec := { srcs := [(.reg (6 : Fin 128), true)] }
     ∃ s' l k v os, LaneReady lane2 sp s' [l, k] ∧ InTurn (fun u l v o => v = u.setBound false (u.coreOf l.who) 3 (l.v 0) ∧ o = ({} : LaneOut))
       (lane2.acting s' sp) [l, k] v os) ∧
    (∃ s' l k v w os, LaneReady lane2 {} s' [l, k] ∧ 1 < ((lane2.acting s' {}).threadsOf (0, 0)).length ∧
      v = (lane2.acting s' {}).exitThread l.who ∧ (v.threadsOf (0, 0)).length ≤ 1 ∧ (v.abandonGraphs (0, 0)).outstanding (0, 0) = false ∧
      InTurn (fun u l v o => ∃ a, (a = u ∨ a = u.abandonGraphs (0, 0)) ∧ v = a.exitThread l.who ∧ o = ({ next := .gone } : LaneOut))
        (lane2.acting s' {}) [l, k] w os) :=
  ⟨⟨_, _, _, _, _, ready_at (by decide) rfl, by decide, by decide, .cons ⟨rfl, rfl⟩ (.cons ⟨rfl, rfl⟩ (.nil _))⟩,
   ⟨_, _, _, _, _, ready_at (by decide) rfl, .cons ⟨rfl, rfl⟩ (.cons ⟨rfl, rfl⟩ (.nil _))⟩,
   ⟨_, _, _, _, _, _, ready_at (by decide) rfl, by decide, rfl, by decide, by decide,
    .cons ⟨_, .inl rfl, rfl, rfl⟩ (.cons ⟨_, .inr rfl, rfl, rfl⟩ (.nil _))⟩⟩

/-- CallsAndReturns. -/
theorem witness_calls :
    (∃ s' l, SoloReady lane1 { preds := predOf none, check := callCheck none } s' l ∧ brTaken none l.t = true) ∧
    (∃ s' l, SoloReady lane1 { preds := predOf (some ⟨false, 1⟩), check := callCheck (some ⟨false, 1⟩) } s' l ∧ ¬ brTaken (some ⟨false, 1⟩) l.t = true) ∧
    (∃ s' l, SoloReady (place placedTeam [{ thr [] with rstack := [0x2000, 0x3000] }]) { check := retCheck } s' l ∧ l.t.rstack.headD 0 = 0x2000) ∧
    (∃ s' l, SoloReady (place placedTeam [thr [(8, 0x2000)]]) { srcs := [(.reg (8 : Fin 128), true)], check := jrCheck 8 } s' l ∧ l.v 0 = 0x2000) ∧
    (∃ s' l, SoloReady (place placedTeam [thr [(8, 0x2000)]]) { srcs := [(.reg (8 : Fin 128), true)], check := calrCheck 8 } s' l ∧ l.v 0 = 0x2000) :=
  ⟨⟨_, _, solo_at (by decide) rfl, by decide⟩, ⟨_, _, solo_at (by decide) rfl, by decide⟩, ⟨_, _, solo_at (by decide) rfl, by decide⟩,
   ⟨_, _, solo_at (by decide) rfl, by decide⟩, ⟨_, _, solo_at (by decide) rfl, by decide⟩⟩

/-- Converge: a lane that another of its skein keeps waiting, the last one to arrive, and one that `$starve` has released. -/
def convergeWaits : State :=
  let s := place placedTeam [thr [], { thr [] with pc := 0x8000 }]
  { s with sys := { s.sys with issue := { s.sys.issue with lanes := [(0, Who.lane 0 0 0)] } } }

theorem witness_converge :
    (let check (s : State) (due : Bool) : Bool :=
       let i := s.sys.issue
       let h := s.gangGo (fun t => if t.released then t else { t with state := .held, heldSince := s.now })
       let ms := h.skeinThreads i.core i.ctx
       decide (i.runAhead = none) && !ms.isEmpty && ms.all (fun p => p.2.released == false) && (releaseDue ms i.pc == due)
     check convergeWaits false = true ∧ check lane2 true = true ∧
     (let s := convergeWaits.modThread (.lane 0 0 0) (fun t => { t with released := true })
      let h := s.gangGo (fun t => if t.released then t else { t with state := .held, heldSince := s.now })
      s.sys.issue.runAhead = none ∧ releaseDue (h.skeinThreads 0 0) s.sys.issue.pc = false)) := by decide

/-- ThreadsComeAndGo. -/
theorem witness_spawn_and_exit :
    (let sp : LaneSpec := { srcs := [(.reg (8 : Fin 128), true), (.reg (6 : Fin 128), false)], dst := some (.reg 1, false), check := jrCheck 8 }
     let s := withTeam (place placedTeam [thr [(8, 0x2000)]]) (fun t => { t with size := 2 })
     ∃ s' l v n, SoloReady s sp s' l ∧ (s.acting s' sp).team (State.teamIdOf (s.acting s' sp) l.who) = some v ∧
       (s.acting s' sp).freeTid (State.teamIdOf (s.acting s' sp) l.who) v.size = some n ∧ n = 1) ∧
    (∃ s' l c k tid, SoloReady convergeWaits {} s' l ∧ l.who = .lane c k tid ∧ 1 < ((convergeWaits.acting s' {}).threadsOf (c, k)).length) ∧
    (∃ s' l c k tid, SoloReady lane1 {} s' l ∧ l.who = .lane c k tid ∧ ((lane1.acting s' {}).threadsOf (c, k)).length ≤ 1 ∧
      (State.abandonGraphs (lane1.acting s' {}) (c, k)).outstanding (c, k) = false) ∧
    (let s : State := { lane1 with cmds := [{ id := 0, engine := .copy 0, team := (0, 0), tag := 0, asid := 0, grid := 0, op := .xfer 0 0 64 }] }
     ∃ s' l c k tid, SoloReady s {} s' l ∧ l.who = .lane c k tid ∧ ((s.acting s' {}).threadsOf (c, k)).length ≤ 1 ∧
      (State.abandonGraphs (s.acting s' {}) (c, k)).outstanding (c, k) = true) ∧
    (∃ s' l n, SoloReady walk1 {} s' l ∧ l.who = .walk n) :=
  ⟨⟨_, _, _, _, solo_at (by decide) rfl, rfl, rfl, by decide⟩, ⟨_, _, _, _, _, solo_at (by decide) rfl, rfl, by decide⟩,
   ⟨_, _, _, _, _, solo_at (by decide) rfl, rfl, by decide, by decide⟩, ⟨_, _, _, _, _, solo_at (by decide) rfl, rfl, by decide, by decide⟩,
   ⟨_, _, _, solo_at (by decide) rfl, rfl⟩⟩

/-- YieldAndSleep: a gang, a sleep that ends now, a held thread. -/
def at_ (s : State) (clk : Nat) : State := s.setSys { s.sys with clk }

theorem witness_yield_and_sleep :
    (∃ s' ls, LaneReady lane2 {} s' ls) ∧
    (let s := place placedTeam [{ thr [] with stall := .until 0 }]
     ∃ t, s.thread (.lane 0 0 0) = some t ∧ t.stall = .until 0 ∧ 0 ≤ s.now) ∧
    (let s := at_ (place placedTeam [{ thr [] with state := .held }]) 65536
     (s.core (s.coreOf (.lane 0 0 0))).halted = false ∧ s.team (s.teamIdOf (.lane 0 0 0)) = some placedTeam ∧ placedTeam.saving = false ∧
       placedTeam.saved = false ∧
       ∃ t, s.thread (.lane 0 0 0) = some t ∧ t.state = .held ∧ t.heldSince + (s.core (s.coreOf (.lane 0 0 0))).starve ≤ s.now) :=
  ⟨⟨_, _, ready_at (by decide) rfl⟩, ⟨_, rfl, by decide, by decide⟩, by decide, by decide, by decide, by decide, ⟨_, rfl, by decide, by decide⟩⟩

/-- TakingATrap: a second trap, no handler, a misaligned handler, a handler; gangs of a debugged team and of another. -/
theorem witness_traps :
    (let h (v : DWord) : State := withKs lane1 [(63, v)]
     (∃ t, (place placedTeam [{ thr [] with trapActive := true }]).thread (.lane 0 0 0) = some t ∧ t.trapActive = true) ∧
     (∃ t, (h 0).thread (.lane 0 0 0) = some t ∧ t.trapActive = false ∧ (h 0).handler 0 t.ctx = 0) ∧
     (∃ t, (h 0x2002).thread (.lane 0 0 0) = some t ∧ t.trapActive = false ∧ ((h 0x2002).handler 0 t.ctx).toNat % 4 ≠ 0) ∧
     (∃ t, (h 0x2000).thread (.lane 0 0 0) = some t ∧ t.trapActive = false ∧ (h 0x2000).handler 0 t.ctx ≠ 0 ∧
       ((h 0x2000).handler 0 t.ctx).toNat % 4 = 0)) ∧
    (lane2.sys.issue.runAhead = none ∧ (∀ l ∈ lane2.sys.issue.lanes, whoIsWalk l.2 = false ∧ (lane2.thread l.2).isSome)) ∧
    (let s := withTeam lane2 (fun t => { t with debug := true })
     s.sys.issue.runAhead = none ∧ (∀ l ∈ s.sys.issue.lanes, whoIsWalk l.2 = false ∧ (s.thread l.2).isSome) ∧
     ∀ l ∈ s.sys.issue.lanes, (s.team (s.teamIdOf l.2)).any (·.debug) = true) ∧
    (∃ s' ls, LaneReady lane2 { check := brkCheck } s' ls) ∧
    (let s := place placedTeam [{ thr [] with regs := List.replicate 8 0 }, { thr [] with regs := List.replicate 8 0 }]
     s.sys.issue.runAhead = none ∧ (∀ l ∈ s.sys.issue.lanes, whoIsWalk l.2 = false ∧ (s.thread l.2).isSome) ∧
     ∀ l ∈ s.lanesIn (shape2 (.reg 8) (.reg 0) (.reg 1)), ∃ r ∈ (shape2 (.reg 8) (.reg 0) (.reg 1)).regs, l.t.holding ≤ r) ∧
    (user1.sys.issue.runAhead = none ∧ (∀ l ∈ user1.sys.issue.lanes, whoIsWalk l.2 = false ∧ (user1.thread l.2).isSome) ∧
     (0x80 ≤ (0x80 : BitVec 8).toNat ∧ (0x80 : BitVec 8).toNat < 0xC0) ∧ (∀ l ∈ user1.sys.issue.lanes, user1.isSup (user1.teamIdOf l.2) = false) ∧
     ∀ l ∈ user1.lanesIn { srcs := [(.reg 1, false)] }, l.t.unkRegs = []) :=
  ⟨⟨⟨_, rfl, by decide⟩, ⟨_, rfl, by decide, by decide⟩, ⟨_, rfl, by decide, by decide⟩, ⟨_, rfl, by decide, by decide, by decide⟩⟩, by decide, by decide,
   ⟨_, _, ready_at (by decide) rfl⟩, ⟨by decide, by decide, by decide⟩, by decide, by decide, by decide, by decide, by decide⟩

/-! ### Witnesses: synchronising objects -/

def barOf (pending : Nat) (balance : Int) (phase : Bool) : Bar :=
  { kind := .team, cls := 0, count := 2, pending, quota := 64, balance, phase }
def withBar (s : State) (b : Bar) : State := withTeam s (fun t => { t with bars := [(15, b)] })

/-- Barriers: an arrival that completes a phase and one that does not, `bar.owe`, waits at both phases and on no barrier, a test. -/
theorem witness_barriers :
    (let s := withBar lane1 (barOf 1 0 false)
     let sp : LaneSpec := { dst := some (.reg 1, false), check := arriveCheck 15 }
     ∃ s' l b v, SoloReady s sp s' l ∧ (s.acting s' sp).bar (State.teamIdOf (s.acting s' sp) l.who) 15 = some b ∧ b.pending ≠ 0 ∧
       ((((s.acting s' sp).flushGather l.who).release l.who .core).modBar (State.teamIdOf (s.acting s' sp) l.who) 15
         (fun b => { b with members := addOnce b.members l.who, arrived := addOnce b.arrived l.who })).arriveOne (State.teamIdOf (s.acting s' sp) l.who)
           15 0 = some v) ∧
    (let s := withBar lane1 (barOf 1 0 false)
     let sp : LaneSpec := { srcs := [(.reg 5, false)], dst := some (.reg 1, false) }
     ∃ s' l b, SoloReady s sp s' l ∧ (s.acting s' sp).bar (State.teamIdOf (s.acting s' sp) l.who) 15 = some b ∧
       balanceOk (b.balance + ((l.w 0).toNat : Int)) = true) ∧
    (let sp : LaneSpec := { srcs := [(.reg 5, false)], dst := some (.reg 1, false) }
     ∃ s' l, SoloReady lane1 sp s' l ∧ (lane1.acting s' sp).bar (State.teamIdOf (lane1.acting s' sp) l.who) 15 = none) ∧
    (let s := withBar lane1 (barOf 1 0 false)
     let sp : LaneSpec := { srcs := [(.reg 5, false)], check := waitCheck 15 }
     ∃ s' l b, SoloReady s sp s' l ∧ (s.acting s' sp).bar (State.teamIdOf (s.acting s' sp) l.who) 15 = some b ∧ b.declared = true ∧
       b.phase ≠ (l.v 0).getLsbD 0) ∧
    (let s := withBar lane1 (barOf 1 0 true)
     let sp : LaneSpec := { srcs := [(.reg 5, false)], check := waitCheck 15 }
     ∃ s' l b, SoloReady s sp s' l ∧ (s.acting s' sp).bar (State.teamIdOf (s.acting s' sp) l.who) 15 = some b ∧ b.phase = (l.v 0).getLsbD 0) ∧
    (let sp : LaneSpec := { srcs := [(.reg 5, false)], check := waitCheck 15 }
     ∃ s' l, SoloReady lane1 sp s' l ∧ (lane1.acting s' sp).bar (State.teamIdOf (lane1.acting s' sp) l.who) 15 = none) ∧
    (∃ s' ls, LaneReady lane2 { srcs := [(.reg 5, false)] } s' ls) :=
  ⟨⟨_, _, _, _, solo_at (by decide) rfl, rfl, by decide, rfl⟩, ⟨_, _, _, solo_at (by decide) rfl, rfl, by decide⟩,
   ⟨_, _, solo_at (by decide) rfl, rfl⟩, ⟨_, _, _, solo_at (by decide) rfl, rfl, rfl, by decide⟩,
   ⟨_, _, _, solo_at (by decide) rfl, rfl, by decide⟩, ⟨_, _, solo_at (by decide) rfl, rfl⟩, ⟨_, _, ready_at (by decide) rfl⟩⟩

theorem witness_arrivals :
    (∃ v, (withBar lane1 (barOf 1 8 false)).team (0, 0) = some v ∧ v.bars.find 15 = some (barOf 1 8 false) ∧ (barOf 1 8 false).pending ≠ 0 ∧
      balanceOk ((barOf 1 8 false).balance - ((8 : Nat) : Int)) = true ∧ 0 < (barOf 1 8 false).count ∧ (barOf 1 8 false).balance = ((8 : Nat) : Int)) ∧
    (∃ v, (withBar lane1 (barOf 2 8 false)).team (0, 0) = some v ∧ v.bars.find 15 = some (barOf 2 8 false) ∧
      ¬ ((barOf 2 8 false).pending = 1 ∧ (barOf 2 8 false).balance = ((8 : Nat) : Int))) :=
  ⟨⟨_, rfl, by decide, by decide, by decide, by decide, by decide⟩, ⟨_, rfl, by decide, by decide⟩⟩

/-- A lane whose pair v8 holds the address 0x10100, that of a live hank with `n` entries of eight. -/
def hankState (n : Nat) : State :=
  { place placedTeam [thr [(8, 0x10100)]] with
    hanks := [(Config.tileBase + 0x100, { owner := (0, 0), cls := 0, scope := .core, cap := 3, top := 2 ^ 32 - 1, bottom := (2 ^ 32 - 1 + n) % 2 ^ 32 })] }

/-- Hanks: with room and full, with an entry and empty. -/
theorem witness_hanks :
    (let sp := hankSpec 8 true false hankOwns [(.reg 6, true)] none
     (∃ s' u l loc h, SoloReady (hankState 7) sp s' l ∧ ((hankState 7).acting s' sp).hankAt l.who (l.t.rd2 8) true = (u, .live loc h) ∧
       h.count < 2 ^ h.cap) ∧
     (∃ s' u l loc h, SoloReady (hankState 8) sp s' l ∧ ((hankState 8).acting s' sp).hankAt l.who (l.t.rd2 8) true = (u, .live loc h) ∧
       ¬ h.count < 2 ^ h.cap)) ∧
    (∀ wait, (let sp := hankSpec 8 true wait hankOwns [] (some (.reg 4, true))
      (∃ s' u l loc h, SoloReady (hankState 1) sp s' l ∧ ((hankState 1).acting s' sp).hankAt l.who (l.t.rd2 8) true = (u, .live loc h) ∧
        0 < h.count ∧ (u.modThread l.who (fun t => t.accessOk u.sys.issue.pc)).mem.poisoned (loc + 64 + 8 * (h.newest % 2 ^ h.cap)) 8 = false) ∧
      (∃ s' u l loc h, SoloReady (hankState 0) sp s' l ∧ ((hankState 0).acting s' sp).hankAt l.who (l.t.rd2 8) true = (u, .live loc h) ∧
        h.count = 0))) ∧
    (let sp := hankSpec 8 true false hankNear [] (some (.reg 4, true))
     (∃ s' u l loc h, SoloReady (hankState 8) sp s' l ∧ ((hankState 8).acting s' sp).hankAt l.who (l.t.rd2 8) true = (u, .live loc h) ∧
       0 < h.count ∧ (u.modThread l.who (fun t => t.accessOk u.sys.issue.pc)).mem.poisoned (loc + 64 + 8 * (h.top % 2 ^ h.cap)) 8 = false) ∧
     (∃ s' u l loc h, SoloReady (hankState 0) sp s' l ∧ ((hankState 0).acting s' sp).hankAt l.who (l.t.rd2 8) true = (u, .live loc h) ∧
       h.count = 0)) ∧
    (let sp := hankSpec 8 false false hankNear [] (some (.reg 4, false))
     ∃ s' u l loc h, SoloReady (hankState 8) sp s' l ∧ ((hankState 8).acting s' sp).hankAt l.who (l.t.rd2 8) false = (u, .live loc h)) := by
  refine ⟨⟨⟨_, _, _, _, _, solo_at (by decide) rfl, rfl, by decide⟩, ⟨_, _, _, _, _, solo_at (by decide) rfl, rfl, by decide⟩⟩, fun wait => ?_,
    ⟨⟨_, _, _, _, _, solo_at (by decide) rfl, rfl, by decide, by decide⟩, ⟨_, _, _, _, _, solo_at (by decide) rfl, rfl, by decide⟩⟩,
    ⟨_, _, _, _, _, solo_at (by decide) rfl, rfl⟩⟩
  cases wait
  · exact ⟨⟨_, _, _, _, _, solo_at (by decide) rfl, rfl, by decide, by decide⟩, ⟨_, _, _, _, _, solo_at (by decide) rfl, rfl, by decide⟩⟩
  · exact ⟨⟨_, _, _, _, _, solo_at (by decide) rfl, rfl, by decide, by decide⟩, ⟨_, _, _, _, _, solo_at (by decide) rfl, rfl, by decide⟩⟩

/-- BoundRegisters. -/
theorem witness_bounds : (∃ s' l, SoloReady lane1 { srcs := [(.reg (6 : Fin 128), true)] } s' l) ∧
    (∃ s' ls, LaneReady lane2 { dst := some (.reg (6 : Fin 128), true) } s' ls) := ⟨⟨_, _, solo_at (by decide) rfl⟩, ⟨_, _, ready_at (by decide) rfl⟩⟩

/-- RegisterPool: a claim at once, one that waits, a release, a grant, a request that stays. -/
theorem witness_pool :
    (let s := place placedTeam [{ thr [] with regs := List.replicate 64 0 }]
     let cl : LaneSpec := { check := fun _ _ t => if claimOk t.holding 8 then none else some { code := 0x0204 } }
     (∃ s' l c k tid, SoloReady s cl s' l ∧ l.who = .lane c k tid ∧ ((s.acting s' cl).core c).poolQueue = [] ∧ 8 ≤ ((s.acting s' cl).core c).free) ∧
     (let t := withCore s (fun k => { k with free := 7 })
      ∃ s' l c k tid, SoloReady t cl s' l ∧ l.who = .lane c k tid ∧ ((t.acting s' cl).core c).free < 8) ∧
     (let re : LaneSpec := { check := fun _ _ t => if relOk t.holding 8 then none else some { code := 0x0204 } }
      ∃ s' l, SoloReady s re s' l)) ∧
    (let s := withCore lane1 (fun k => { k with poolQueue := [.claim 0 0 8], free := 8 })
     0 < Config.cores ∧ (s.core 0).poolQueue = .claim 0 0 8 :: [] ∧ 8 ≤ (s.core 0).free) ∧
    (let s := withCore lane1 (fun k => { k with poolQueue := [.claim 0 0 8], free := 7 })
     0 < Config.cores ∧ (s.core 0).poolQueue = .claim 0 0 8 :: [] ∧ (s.core 0).free < s.reqSize 0 (.claim 0 0 8)) :=
  ⟨⟨⟨_, _, _, _, _, solo_at (by decide) rfl, rfl, by decide, by decide⟩, ⟨_, _, _, _, _, solo_at (by decide) rfl, rfl, by decide⟩,
    ⟨_, _, solo_at (by decide) rfl⟩⟩, by decide, by decide⟩

/-- LaneQueries: a child that has completed and one that has not, `rds` and `wrs`, `phase`. -/
def childState (st : RecState) : State :=
  let s := place { placedTeam with children := [9] } [thr [(8, 9)]]
  s.setFront { s.front with grids := [(9, { kind := .grid, queue := 0, prio := 0, seq := 0, state := st, status := 3 })] }

theorem witness_queries :
    (∃ s' ls, LaneReady lane2 { dst := some (.reg 1, false) } s' ls ∧ ∀ x ∈ ls, whoIsWalk x.who = false) ∧
    (∀ wait, (let sp : LaneSpec := { srcs := [(.reg (8 : Fin 128), true)], dst := some (.reg 1, false), check := gwaitCheck 8 wait }
      (∃ s' l, SoloReady (childState .completed) sp s' l ∧ ((childState .completed).acting s' sp).childStatus (l.v 0).toNat = some 3) ∧
      (∃ s' l, SoloReady (childState .admitted) sp s' l ∧ ((childState .admitted).acting s' sp).childStatus (l.v 0).toNat = none))) ∧
    (∃ s' ls, LaneReady lane2 { dst := some (.reg 2, srWide 0x1E), check := fun s w _ => srReadFail s (s.teamIdOf w) 0x1E true } s' ls) ∧
    (∃ s' l, SoloReady lane1 { srcs := [(.reg 5, false)], check := fun s w _ => srWriteFail s (s.teamIdOf w) 0x0D } s' l) ∧
    (∃ s' l, SoloReady lane1 {} s' l) := by
  refine ⟨⟨_, _, ready_at (by decide) rfl, by decide⟩, fun wait => ?_, ⟨_, _, ready_at (by decide) rfl⟩, ⟨_, _, solo_at (by decide) rfl⟩,
    ⟨_, _, solo_at (by decide) rfl⟩⟩
  cases wait
  · exact ⟨⟨_, _, solo_at (by decide) rfl, by decide⟩, ⟨_, _, solo_at (by decide) rfl, by decide⟩⟩
  · exact ⟨⟨_, _, solo_at (by decide) rfl, by decide⟩, ⟨_, _, solo_at (by decide) rfl, by decide⟩⟩

/-! ### Witnesses: memory -/

/-- A lane whose pair v8 holds the address 0x10100. -/
def memLane : State := place placedTeam [thr [(5, 7), (6, 0xFFFFFFFE), (8, 0x10100)]]

/-- LoadsAndStores. -/
theorem witness_loads_and_stores : memLane.ahead = false ∧
    (let m : MemAddr := ⟨8, none, 0⟩
     let sp := memSpec m .i64 .load true [] (some (.reg 4, Ty.i64.wide))
     let f := memLane.flushGang
     ∃ s' l v tg, memLane.awaitGrants .load (fun th => effAddr m th (tySize .i64)) (tySize .i64) = none ∧ SoloReady f sp s' l ∧
       (f.acting s' sp).reach l.who ((f.acting s' sp).memAccess l .load m .i64 true) = (v, .ok tg)) ∧
    (let m : MemAddr := ⟨8, some (5, 3), 0x1FF⟩
     let sp := memSpec m .i8 .store true [(.reg 5, Ty.i8.wide)] none
     let f := memLane.flushGang
     ∃ s' l v tg, memLane.awaitGrants .store (fun th => effAddr m th (tySize .i8)) (tySize .i8) = none ∧ SoloReady f sp s' l ∧
       (f.acting s' sp).reach l.who ((f.acting s' sp).memAccess l .store m .i8 true) = (v, .ok tg) ∧ tg.loc = Config.tileBase + 0x137) :=
  ⟨rfl, ⟨_, _, _, _, by decide, solo_at (by decide) rfl, rfl⟩, ⟨_, _, _, _, by decide, solo_at (by decide) rfl, rfl, by decide⟩⟩

/-- Two lanes that store to lines of their own, and two that meet in one line. -/
theorem witness_two_stores :
    (∀ second ∈ ([0x10140, 0x10100] : List Nat),
      (let s := place placedTeam [thr [(5, 7), (8, 0x10100)], thr [(5, 9), (8, second)]]
       let m : MemAddr := ⟨8, none, 0⟩
       let sp := memSpec m .i32 .store true [(.reg 5, Ty.i32.wide)] none
       let f := s.flushGang
       ∃ s' l k v p q, s.ahead = false ∧ s.awaitGrants .store (fun th => effAddr m th (tySize .i32)) (tySize .i32) = none ∧
         LaneReady f sp s' [l, k] ∧
         InTurn (fun u l w q => ∃ tg, u.reach l.who (u.memAccess l .store m .i32 true) = (w, .ok tg) ∧ q = (l.who, tg, storeBytes .i32 (l.v 0)))
           (f.acting s' sp) [l, k] v [p, q] ∧
         (p.2.1.loc / 64 = q.2.1.loc / 64 ↔ second = 0x10100))) := by
  intro n h
  simp only [List.mem_cons, List.not_mem_nil, or_false] at h
  rcases h with rfl | rfl <;> exact ⟨_, _, _, _, _, _, rfl, by decide, ready_at (by decide) rfl,
    .cons ⟨_, rfl, rfl⟩ (.cons ⟨_, rfl, rfl⟩ (.nil _)), by decide⟩

/-- Atomics: with a result, without one, `cas`; and a plain target. -/
theorem witness_atomics :
    (let m : MemAddr := ⟨8, none, 0⟩
     (let sp := accessSpec m [(.reg 6, Ty.i32.wide)] (some (.reg 6, Ty.i32.wide))
      let b := memLane.atomicsBegin .ar
      ∃ s' l v tg, memLane.awaitGrants .atomic (fun th => effAddr m th (tySize .i32)) (tySize .i32) = none ∧ SoloReady b sp s' l ∧
        (b.acting s' sp).reach l.who ((b.acting s' sp).memAccess l .atomic m .i32 false) = (v, .ok tg) ∧
        isRemote tg.loc = false ∧ tg.line = false) ∧
     (let sp := accessSpec m [(.reg 6, Ty.f64.wide)] none
      let b := memLane.atomicsBegin .rel
      ∃ s' l v tg, memLane.awaitGrants .atomic (fun th => effAddr m th (tySize .f64)) (tySize .f64) = none ∧ SoloReady b sp s' l ∧
        (b.acting s' sp).reach l.who ((b.acting s' sp).memAccess l .atomic m .f64 false) = (v, .ok tg))) ∧
    (let sp : LaneSpec := { srcs := [(.reg (8 : Fin 128), true), (.reg 5, Ty.i32.wide), (.reg 6, Ty.i32.wide)], dst := some (.reg 1, Ty.i32.wide) }
     let b := memLane.atomicsBegin .none
     ∃ s' l v tg, memLane.awaitGrants .atomic (fun th => th.rd2 8) (tySize .i32) = none ∧ SoloReady b sp s' l ∧
       (b.acting s' sp).reach l.who ((b.acting s' sp).laneAccess l.who .atomic (l.v 0) (tySize .i32) (tySize .i32)) = (v, .ok tg)) :=
  ⟨⟨⟨_, _, _, _, by decide, solo_at (by decide) rfl, rfl, by decide, by decide⟩, ⟨_, _, _, _, by decide, solo_at (by decide) rfl, rfl⟩⟩,
   ⟨_, _, _, _, by decide, solo_at (by decide) rfl, rfl⟩⟩

/-- Gathers: a gather, a scatter, each on a plain page and on a `tso` page; a prefetch; requests that the collector performs. -/
def tsoLane : State := withPage (place placedTeam [thr [(4, 9), (8, 0x20100)]]) Config.tileBase 0x3F
def gatherState (st : Option DWord) : State :=
  { withCore memLane (fun k => { k with gather := [{ who := .lane 0 0 0, va := 0x10100, size := 4, store := st, dst := some (.reg 5, false),
                                                     loc := Config.tileBase + 0x100, iss := memLane.sys.issue }] }) with
    sys := { memLane.sys with clk := 64 } }

theorem witness_gathers :
    (∀ s tso, (s, tso) ∈ [(memLane, false), (tsoLane, true)] →
     (let m : MemAddr := ⟨8, none, 0⟩
      (let sp := memSpec m .i32 .load false [] (some (.reg 4, Ty.i32.wide))
       let f := s.flushGang
       ∃ s' l v tg, s.awaitGrants .load (fun th => effAddr m th (tySize .i32)) (tySize .i32) = none ∧
         f.gatherFull false m (tySize .i32) = false ∧ SoloReady f sp s' l ∧
         (f.acting s' sp).checkIssue ((f.acting s' sp).memAccess l .load m .i32 false) = (v, .ok tg) ∧ (tg.tso || tg.line) = tso ∧
         v.homeFault ((f.acting s' sp).memAccess l .load m .i32 false) tg = none) ∧
      (let sp := memSpec m .i32 .store false [(.reg 4, Ty.i32.wide)] none
       ∃ s' l v tg, s.awaitGrants .store (fun th => effAddr m th (tySize .i32)) (tySize .i32) = none ∧
         s.gatherFull true m (tySize .i32) = false ∧ SoloReady s sp s' l ∧
         (s.acting s' sp).checkIssue ((s.acting s' sp).memAccess l .store m .i32 false) = (v, .ok tg) ∧ (tg.tso || tg.line) = tso ∧
         v.homeFault ((s.acting s' sp).memAccess l .store m .i32 false) tg = none))) ∧
    (let m : MemAddr := ⟨8, none, 0⟩
     ∃ s' l, SoloReady memLane (accessSpec m [] none) s' l ∧ memLane.mem.walkQueue.length + memLane.sys.issue.lanes.length ≤ walkRoom) ∧
    (∀ st ∈ [none, some (0x12 : DWord)], ∃ g, ((gatherState st).core 0).gather = [g] ∧ g.val = none ∧ g.store = st ∧
      g.since + gatherWindow ≤ (gatherState st).now ∧ isRemote g.loc = false ∧
      (gatherState st).homeFault ((gatherState st).laneAccess g.who (if g.store.isSome then .store else .load) g.va g.size g.size) g.target = none) := by
  refine ⟨fun s tso h => ?_, ⟨_, _, solo_at (by decide) rfl, by decide⟩, fun st h => ?_⟩
  · simp only [List.mem_cons, List.not_mem_nil, or_false, Prod.mk.injEq] at h
    rcases h with ⟨rfl, rfl⟩ | ⟨rfl, rfl⟩
    · exact ⟨⟨_, _, _, _, by decide, by decide, solo_at (by decide) rfl, rfl, by decide, by decide⟩,
        ⟨_, _, _, _, by decide, by decide, solo_at (by decide) rfl, rfl, by decide, by decide⟩⟩
    · exact ⟨⟨_, _, _, _, by decide, by decide, solo_at (by decide) rfl, rfl, by decide, by decide⟩,
        ⟨_, _, _, _, by decide, by decide, solo_at (by decide) rfl, rfl, by decide, by decide⟩⟩
  simp only [List.mem_cons, List.not_mem_nil, or_false] at h
  rcases h with rfl | rfl
  · exact ⟨_, rfl, by decide, by decide, by decide, by decide, by decide⟩
  · exact ⟨_, rfl, by decide, by decide, by decide, by decide, by decide⟩

/-- MemoryWrite, OwnStores: a memory with a byte, the ends of a write, and stores held back, one of them to a fenced stack. -/
def heldStore (loc : Nat) : PendStore := { who := .lane 0 0 0, core := 0, loc, bytes := [1, 2] }

theorem witness_writes :
    ((lane1.mem.write 0 Config.tileBase [1, 2]).wf ∧ Config.tileBase / 64 < (Config.tileBase + 64) / 64 ∧
      (Config.tileBase + 2 + 63) / 64 ≤ (Config.tileBase + 64) / 64) ∧
    (let s (k : Nat) (fs : List Nat) : State :=
       { lane1 with mem := { lane1.mem with stores := [{ heldStore 64 with who := .walk 0 }, heldStore k] }, plat := { lane1.plat with fsStack := fs } }
     (s 0 []).mem.stores = { heldStore 64 with who := .walk 0 } :: [heldStore 0] ∧ (s 0 []).fencedLoc 64 = false ∧ (s 0 [0]).fencedLoc 64 = true ∧
     (s 0 []).mem.stores = [{ heldStore 64 with who := .walk 0 }] ++ heldStore 0 :: [] ∧ (heldStore 0).who = .lane 0 0 0 ∧
     ∀ q ∈ [{ heldStore 64 with who := .walk 0 }], q.who ≠ Who.lane 0 0 0) := by decide

/-- OwnStores: a store to an ordinary page, one to a `tso` page whose thread holds one back, and bytes off both. -/
theorem witness_other_bytes :
    (let bs : List Byte := [1, 2]
     let s : State := { lane1 with mem := { lane1.mem with stores := [heldStore 64] } }
     s.mem.wf ∧ isCtl 0 = false ∧ whoIsWalk (.lane 0 0 0) = false ∧ s.regionsAt 0 bs.length = [] ∧
     (∀ p ∈ s.ownStores (.lane 0 0 0), 0 / 64 < p.loc / 64 ∨ (p.loc + p.bytes.length + 63) / 64 ≤ 0 / 64) ∧ s.ownStores (.lane 0 0 0) = [heldStore 64] ∧
     (∀ p ∈ s.ownStores (.lane 0 0 0), 200 / 64 < p.loc / 64 ∨ (p.loc + p.bytes.length + 63) / 64 ≤ 200 / 64) ∧ 0 + bs.length ≤ 2) := by decide

/-! ### Witnesses: uniform instructions -/

/-- ScalarArithmetic: k registers and channels, at a shift of 64; `sbr` on every sign. -/
theorem witness_scalars :
    (∃ s' vs, UReady (withKs lane1 [(20, 5), (21, 64)]) [.k 20, .k 21] (some (.k 63)) s' vs ∧ vs = [5, 64]) ∧
    (∃ s' vs, UReady (withChan lane1 3 (chanOf [1, 2])) [.pop 3, .peek 3] (some (.push 3)) s' vs) ∧
    (∃ s' vs, UReady lane1 [.k 15] (some (.k 16)) s' vs) ∧ (∃ s' vs, UReady lane1 [] (some (.k 16)) s' vs) ∧
    (∃ s' vs, UReady lane1 [.k 16] (some (.k 16)) s' vs) ∧
    (∃ s' vs, UReady (withKs lane1 [(20, 0xFFFFFFFFFFFFFFFF)]) [.k 20] none s' vs ∧ (vs.getD 0 0).toInt < 0) :=
  ⟨⟨_, _, uready_at (by decide) rfl, by decide⟩, ⟨_, _, uready_at (by decide) rfl⟩, ⟨_, _, uready_at (by decide) rfl⟩, ⟨_, _, uready_at (by decide) rfl⟩,
   ⟨_, _, uready_at (by decide) rfl⟩, ⟨_, _, uready_at (by decide) rfl, by decide⟩⟩

/-- SpecialRegisterMoves, DrawTimer: at both levels, at the ends of the supervisor numbers, and in a run-ahead. -/
theorem witness_special_registers :
    (∃ s' vs, srReadFail lane1 lane1.issueTeam 0x81 true = none ∧ UReady lane1 [] (some (.k 20)) s' vs) ∧
    (0x80 ≤ (0x80#8).toNat ∧ (0xBF#8).toNat ≤ 0xBF ∧ (user1.team user1.issueTeam).any (·.sup) = false) ∧
    (∃ s' vs, srWriteFail lane1 lane1.issueTeam 0x13 = none ∧ UReady lane1 [.k 20] none s' vs) ∧
    (user1.sys.issue.runAhead = none ∧ (user1.team user1.issueTeam).any (·.sup) = false) ∧
    ({ lane1 with sys := { lane1.sys with issue := { lane1.sys.issue with runAhead := some 0 } } } : State).sys.issue.runAhead = some 0 :=
  ⟨⟨_, _, by decide, uready_at (by decide) rfl⟩, by decide, ⟨_, _, by decide, uready_at (by decide) rfl⟩, by decide, by decide⟩

/-- MakingObjects: a barrier of 65,535 arrivals over a complete one, a queue bound and freed, guards, a hank. -/
def tiled : State := withTeam lane1 (fun t => { t with tileSize := 65536 })

theorem witness_making :
    (let s := withKs (withBar lane1 { kind := .team, cls := 0, count := 1, pending := 1, quota := 8, balance := 8 }) [(20, 0x00000001FFFF)]
     ∃ s' vs, UReady s [.k 20] none s' vs ∧ 1 ≤ (vs.getD 0 0).toNat % 2 ^ 16 ∧ (vs.getD 0 0).toNat / 2 ^ 48 = 0 ∧
       (∃ b, (s.actingU s' [.k 20]).bar (State.issueTeam (s.actingU s' [.k 20])) 15 = some b ∧ b.pending = b.count ∧ b.balance = b.quota) ∧
       (s.actingU s' [.k 20]).barBlocked (State.issueTeam (s.actingU s' [.k 20])) 15 = false) ∧
    (let s := withKs tiled [(20, dw (8 * 2 ^ 24 + 0x1000))]
     ∃ s' vs v, UReady s [.k 20] none s' vs ∧
       State.bindChan (s.actingU s' [.k 20]) (State.issueTeam (s.actingU s' [.k 20])) 31 (vs.getD 0 0) = .ok v) ∧
    (let s := withChan lane1 31 (chanOf [])
     ∃ s' vs k, UReady s [] none s' vs ∧ (s.actingU s' []).chan (State.issueTeam (s.actingU s' [])) 31 = some k ∧ k.kind ≠ .gang ∧
       (∀ p ∈ (s.actingU s' []).threads, (s.actingU s' []).sharesBar false (State.issueTeam (s.actingU s' [])) p.1 = true →
         p.2.state ≠ .blocked (.chan 31) ∧ p.2.state ≠ .blocked (.carder (some 31)))) ∧
    (∀ x ∈ ([0, 1, 2] : List DWord), ∃ s' vs, UReady (withKs lane1 [(20, x)]) [.k 20] none s' vs ∧ vs.getD 0 0 = x) ∧
    (∃ g : Team, g.guardsNew = [(7, none)]) := by
  refine ⟨⟨_, _, uready_at (by decide) rfl, by decide, by decide, ⟨_, rfl, by decide, by decide⟩, by decide⟩, ⟨_, _, _, uready_at (by decide) rfl, rfl⟩,
    ⟨_, _, _, uready_at (by decide) rfl, rfl, by decide, by decide⟩, fun x h => ?_, ⟨{ placedTeam with guardsNew := [(7, none)] }, rfl⟩⟩
  simp only [List.mem_cons, List.not_mem_nil, or_false] at h
  rcases h with rfl | rfl | rfl <;> exact ⟨_, _, uready_at (by decide) rfl, by decide⟩

theorem witness_hank_init :
    (let s := withKs tiled [(20, 0x10100), (21, 12)]
     let u (s' : State) : State := s.actingU s' [.k 20, .k 21]
     ∃ s' vs v tg, UReady s [.k 20, .k 21] none s' vs ∧ vs = [0x10100, 12] ∧ (u s').issueTeam = (0, 0) ∧
       (∃ x, (State.checkIssue (u s') { State.laneAccess (u s') (u s').leader .load 0x10100 8 1 with user := false }).2 = .ok x ∧
         isTile x.loc = true ∧ sliceOf x.loc = 0 ∧
         ((u s').team (0, 0)).any (fun t => decide (t.tileBase ≤ x.loc - (Config.tileBase + 0 * Config.sliceBytes)) &&
           decide (x.loc - (Config.tileBase + 0 * Config.sliceBytes) + (64 + 8 * 2 ^ 12) ≤ t.tileBase + t.tileSize)) = true ∧
         (u s').hanks.find x.loc = none ∧ ((u s').hanks.filter (fun x => x.2.owner.1 = 0)).length < 64 ∧
         (u s').regionsAt x.loc (64 + 8 * 2 ^ 12) = []) ∧
       (u s').checkIssue (State.laneAccess (u s') (u s').leader .store 0x10100 8 8) = (v, .ok tg) ∧ v.fencedLoc tg.loc = false) :=
  ⟨_, _, _, _, uready_at (by decide) rfl, by decide, by decide, ⟨_, rfl, by decide, by decide, by decide, by decide, by decide, by decide⟩, rfl, by decide⟩

/-! ### Witnesses: engines -/

/-- The matrix engine owned by slot `o`, and the team's 512 accumulator banks with bank 0 and 511 held. -/
def owned (s : State) (o : Option Nat) : State :=
  withTeam (withCore s (fun k => { k with owner := o })) (fun t => { t with accCount := 512, banks := [0, 511] })

/-- A matrix operation on one element of `i8` each, its block at 0x10100. -/
def mxState : State :=
  withDwords (withKs (owned lane1 (some 0)) [(20, 0x10100)]) 0x100
    [1 + 2 ^ 16 + 2 ^ 32, 0, 0x10200, 16 * 2 ^ 16, 0, 0x10300, 16 * 2 ^ 16, 0]

/-- MatrixInstructions: the owner none, itself, another; a block that passes; control words at the last bank. -/
theorem witness_matrix_owner :
    (∀ o ∈ ([none, some 0, some 3] : List (Option Nat)), ∃ s' vs, UReady (owned lane1 o) [] none s' vs ∧ ((State.actingU (owned lane1 o) s' []).core 0).owner = o ∧
      0 ∉ ((State.actingU (owned lane1 o) s' []).core 0).ownerQueue ∧ ((State.actingU (owned lane1 o) s' []).core 0).ownerQueue.length < 8) := by
  intro o h
  simp only [List.mem_cons, List.not_mem_nil, or_false] at h
  rcases h with rfl | rfl | rfl <;> exact ⟨_, _, uready_at (by decide) rfl, by decide, by decide, by decide⟩

theorem witness_matrix_owner_room :
    (let s := withCore (owned lane1 (some 3)) (fun k => { k with ownerQueue := [4, 5, 6, 7, 8, 9, 10, 11] })
     ∃ s' vs, UReady s [] none s' vs ∧ ((s.actingU s' []).core 0).owner = some 3 ∧ 0 ∉ ((s.actingU s' []).core 0).ownerQueue ∧
       8 ≤ ((s.actingU s' []).core 0).ownerQueue.length) := ⟨_, _, uready_at (by decide) rfl, by decide, by decide, by decide⟩

theorem witness_matrix_issue :
    ∃ s' vs v bs op cf, UReady mxState [.k 20] none s' vs ∧ vs.getD 0 0 = 0x10100 ∧
      ((mxState.actingU s' [.k 20]).core (State.sys (mxState.actingU s' [.k 20])).issue.core).owner = some (State.sys (mxState.actingU s' [.k 20])).issue.ctx ∧
      (0x10100 : DWord).toNat % 128 = 0 ∧ (mxState.actingU s' [.k 20]).uRead 0x10100 0x78 1 = (v, .ok bs) ∧ mxBlockOf bs 0x10100 = some (op, cf) ∧
      v.streamOk v.issueTeam op.a = true ∧ v.streamOk v.issueTeam op.b = true ∧ (∀ b ∈ CmdOp.banks (.mx op), b ∈ v.heldBanks v.issueTeam) ∧
      MayIssue v (.matrix 0) (.mx op) cf :=
  ⟨_, _, _, _, _, _, uready_at (by decide) rfl, by decide, by decide, by decide, rfl, rfl, by decide, by decide, by decide, ⟨by decide, by decide⟩⟩

theorem witness_accumulator_commands :
    (let s := withKs (owned lane1 (some 0)) [(20, dw (511 + 2 ^ 9))]
     ∃ s' vs, UReady s [.k 20] none s' vs ∧
       (let u := s.actingU s' [.k 20]
        let w := vs.getD 0 0
        let lo := dfield w 8 0
        let n := dfield w 18 9
        let cf := dfield w 63 48
        1 ≤ n ∧ n ≤ 512 ∧ lo + n ≤ 512 ∧ dfield w 47 19 = 0 ∧ cfOk cf = true ∧ (∀ i < n, lo + i ∈ u.heldBanks u.issueTeam) ∧
        MayIssue u (.matrix u.sys.issue.core) (.accZero lo n) (cfOf cf))) ∧
    (let s := withKs (owned lane1 (some 0)) [(20, 0x10040), (21, dw (511 + 2 ^ 9))]
     ∃ s' vs, UReady s [.k 20, .k 21] none s' vs ∧
       (let u := s.actingU s' [.k 20, .k 21]
        let x := vs.getD 0 0
        let w := vs.getD 1 0
        let lo := dfield w 8 0
        let n := dfield w 26 9
        let cf := dfield w 63 48
        let e := Engine.matrix u.sys.issue.core
        let w' := u.drainMode u.issueTeam w
        x.toNat % 64 = 0 ∧ dfield w 47 37 = 0 ∧ dfield w 33 31 ≤ 5 ∧ cfOk cf = true ∧ 1 ≤ n ∧ n ≤ 512 ∧ lo + (n + 255) / 256 ≤ 512 ∧ lo + n ≤ 512 ∧
        (∀ i < (n + 255) / 256, lo + i ∈ u.heldBanks u.issueTeam) ∧ (∀ i < n, lo + i ∈ u.heldBanks u.issueTeam) ∧
        MayIssue u e (.accDrain x w') (cfOf cf) ∧ MayIssue u e (.accPack x w') (cfOf cf))) :=
  ⟨⟨_, _, uready_at (by decide) rfl, by decide, by decide, by decide, by decide, by decide, by decide, ⟨by decide, by decide⟩⟩,
   ⟨_, _, uready_at (by decide) rfl, by decide, by decide, by decide, by decide, by decide, by decide, by decide, by decide, by decide, by decide,
    ⟨by decide, by decide⟩, ⟨by decide, by decide⟩⟩⟩

/-- AccumulatorBanks: a run that is free and none that is, banks unnamed and named by a command, elements 0 and 131071. -/
theorem witness_banks :
    (let s := withKs (owned lane1 none) [(20, 1)]
     ∃ s' vs v, UReady s [.k 20] (some (.k 21)) s' vs ∧ (vs.getD 0 0).toNat = 1 ∧ (s.actingU s' [.k 20]).team (State.issueTeam (s.actingU s' [.k 20])) = some v ∧
       (v.accBase ≤ 1 ∧ 1 + 1 ≤ v.accBase + v.accCount ∧ ∀ i < 1, 1 + i ∉ v.banks) ∧
       ∀ x < 1, ¬ (v.accBase ≤ x ∧ x + 1 ≤ v.accBase + v.accCount ∧ ∀ i < 1, x + i ∉ v.banks)) ∧
    (let s := withKs lane1 [(20, 512)]
     ∃ s' vs v, UReady s [.k 20] (some (.k 21)) s' vs ∧ (vs.getD 0 0).toNat = 512 ∧ (s.actingU s' [.k 20]).team (State.issueTeam (s.actingU s' [.k 20])) = some v ∧
       ∀ lo, ¬ (v.accBase ≤ lo ∧ lo + 512 ≤ v.accBase + v.accCount ∧ ∀ i < 512, lo + i ∉ v.banks)) ∧
    (∀ named : Bool, let s : State := { withKs (owned lane1 none) [(20, dw (511 + 2 ^ 9))] with
        cmds := if named then [{ id := 0, engine := .matrix 0, team := (0, 0), tag := 0, asid := 0, grid := 0, op := .accZero 511 1 }] else [] }
     ∃ s' vs, UReady s [.k 20] none s' vs ∧
       (let u := s.actingU s' [.k 20]
        let w := vs.getD 0 0
        let lo := dfield w 8 0
        let n := dfield w 18 9
        1 ≤ n ∧ n ≤ 512 ∧ lo + n ≤ 512 ∧ dfield w 63 19 = 0 ∧ (∀ i < n, lo + i ∈ u.heldBanks u.issueTeam) ∧
        u.banksNamed u.issueTeam.1 (bankList lo n) = named)) :=
  ⟨⟨_, _, _, uready_at (by decide) rfl, by decide, rfl, by decide, by decide⟩,
   ⟨_, _, _, uready_at (by decide) rfl, by decide, rfl, fun lo h => absurd h.2.1 (by show ¬ (lo + 512 ≤ 0 + 0); omega)⟩,
   fun named => by cases named <;> exact ⟨_, _, uready_at (by decide) rfl, by decide, by decide, by decide, by decide, by decide, by decide⟩⟩

theorem witness_acc_elements :
    (let s := owned (place placedTeam [thr [(5, 131071), (8, 9)]]) none
     s.accWaits (.reg 5) (.reg 5) = false ∧ s.accWaits (.reg 5) (.reg 8) = false ∧
     (let sp : LaneSpec := { srcs := [(.reg 5, false)], dst := some (.reg 2, true), check := accCheck (.reg 5) }
      ∃ s' l, SoloReady s sp s' l ∧
        (let u := s.acting s' sp
         let t := u.teamIdOf l.who
         let idx := (l.v 0).toNat % 131072
         idx / 256 ∈ u.heldBanks t ∧ (∀ c ∈ u.cmds, c.engine = .matrix t.1 → c.team = t → idx / 256 ∉ c.op.banks) ∧
         idx / 256 ∉ (u.core t.1).accPoison)) ∧
     (let sp : LaneSpec := { srcs := [(.reg 5, false), (.reg 8, true)], check := accCheck (.reg 5) }
      ∃ s' l, SoloReady s sp s' l ∧
        (let u := s.acting s' sp
         let t := u.teamIdOf l.who
         let idx := (l.v 0).toNat % 131072
         idx / 256 ∈ u.heldBanks t ∧ (∀ c ∈ u.cmds, c.engine = .matrix t.1 → c.team = t → idx / 256 ∉ c.op.banks)))) :=
  ⟨by decide, by decide, ⟨_, _, solo_at (by decide) rfl, by decide, by decide, by decide⟩, ⟨_, _, solo_at (by decide) rfl, by decide, by decide⟩⟩

/-- CopiesAndBuffers. -/
def gangGrid (s : State) : State := s.setFront { s.front with grids := [(0, { kind := .gang, queue := 0, prio := 0, seq := 0, state := .admitted })] }

theorem witness_copies :
    (let s := withKs tiled [(20, 0x10100), (21, 0x10140), (22, 64)]
     ∃ s' vs, UReady s [.k 20, .k 21, .k 22] none s' vs ∧
       (let u := s.actingU s' [.k 20, .k 21, .k 22]
        let x := vs.getD 0 0
        let y := vs.getD 1 0
        let w := vs.getD 2 0
        let n := dfield w 31 0
        1 ≤ n ∧ n % 64 = 0 ∧ x.toNat % 64 = 0 ∧ y.toNat % 64 = 0 ∧ dfield w 47 32 = 0 ∧ cfOk (dfield w 63 48) = true ∧ x.toNat + n ≤ y.toNat ∧
        MayIssue u (.copy u.sys.issue.core) (.xfer x y n) (cfOf (dfield w 63 48)))) ∧
    (let s := gangGrid (withKs tiled [(20, 65472), (21, 0x10140), (22, dw (64 + 2 ^ 32))])
     ∃ s' vs, UReady s [.k 20, .k 21, .k 22] none s' vs ∧
       (let u := s.actingU s' [.k 20, .k 21, .k 22]
        let x := vs.getD 0 0
        let y := vs.getD 1 0
        let w := vs.getD 2 0
        let n := dfield w 31 0
        let mask := dfield w 39 32
        mask ≠ 0 ∧ dfield w 47 40 = 0 ∧ cfOk (dfield w 63 48) = true ∧ maskCores u.issueTeam.1 mask = [0] ∧
        (∃ t v, u.gangTeamOn u.issueTeam 0 = some t ∧ u.team t = some v ∧ x.toNat + n ≤ v.tileSize) ∧
        MayIssue u (.copy u.sys.issue.core) (.xferMc x y n mask) (cfOf (dfield w 63 48)))) ∧
    (let s := withKs tiled [(20, 0x10100), (21, 0x11000), (22, dw (16 * 2 ^ 24 + 16))]
     ∃ s' vs, UReady s [.k 20, .k 21, .k 22] none s' vs ∧
       (let u := s.actingU s' [.k 20, .k 21, .k 22]
        let x := vs.getD 0 0
        let y := vs.getD 1 0
        let w := vs.getD 2 0
        let size := storageBits .n8 / 8
        let cols := 16 * 2 ^ dfield w 51 50
        let rows := 16 * 2 ^ dfield w 49 48
        let dstr := dfield w 47 24
        let sstr := dfield w 23 0
        dfield w 63 52 = 0 ∧ rows * size ≤ dstr ∧ cols * size ≤ sstr ∧ dstr % size = 0 ∧ sstr % size = 0 ∧ x.toNat % size = 0 ∧ y.toNat % size = 0 ∧
        MayIssue u (.copy u.sys.issue.core) (.xferTr x y .n8 rows cols dstr sstr) (cfOf 0x11))) :=
  ⟨⟨_, _, uready_at (by decide) rfl, by decide, by decide, by decide, by decide, by decide, by decide, by decide, ⟨by decide, by decide⟩⟩,
   ⟨_, _, uready_at (by decide) rfl, by decide, by decide, by decide, by decide, ⟨(0, 0), _, by decide, rfl, by decide⟩, ⟨by decide, by decide⟩⟩,
   ⟨_, _, uready_at (by decide) rfl, by decide, by decide, by decide, by decide, by decide, by decide, by decide, ⟨by decide, by decide⟩⟩⟩

/-- Buffer 63 declared where none stands, undeclared, and in each state of the changes. -/
theorem witness_buffers :
    (let s := withKs tiled [(20, dw (63 * 2 ^ 38 + 2 * 2 ^ 36 + 2 ^ 18 + 1023))]
     ∃ s' vs, UReady s [.k 20] none s' vs ∧
       (let u := s.actingU s' [.k 20]
        let w := vs.getD 0 0
        let t := u.issueTeam
        dfield w 63 44 = 0 ∧ dfield w 37 36 ≠ 3 ∧ 64 * dfield w 35 18 ≤ 64 * 131072 ∧ 64 * dfield w 35 18 ≠ 0 ∧
        u.inReservation t (64 * dfield w 17 0) (64 * dfield w 35 18) = true ∧ (u.team t).bind (fun x => x.bufs.find (dfield w 43 38)) = none ∧
        u.rangeFree t (64 * dfield w 17 0) (64 * dfield w 35 18) = true)) ∧
    (let s := withKs (withTeam tiled (fun t => { t with bufs := [(63, { off := 0, size := 64, prod := .any })] })) [(20, dw (63 * 2 ^ 38))]
     ∃ s' vs b, UReady s [.k 20] none s' vs ∧
       (let u := s.actingU s' [.k 20]
        let w := vs.getD 0 0
        64 * dfield w 35 18 = 0 ∧ (u.team u.issueTeam).bind (fun x => x.bufs.find (dfield w 43 38)) = some b ∧ b.state = .empty)) ∧
    (∀ st ∈ ([.empty, .filling, .full, .draining] : List BufState),
      let s := withTeam tiled (fun t => { t with bufs := [(63, { off := 0, size := 64, prod := .any, state := st })] })
      ∃ s' vs b, UReady s [] none s' vs ∧
        ((s.actingU s' []).team (State.issueTeam (s.actingU s' []))).bind (fun x => x.bufs.find 63) = some b ∧ b.state = st) ∧
    (let v := { placedTeam with bufs := [(63, { off := 0, size := 64, prod := .any, state := .full })], bufsNew := [(63, .draining)] }
     v.bufs.find 63 = some { off := 0, size := 64, prod := .any, state := .full } ∧ v.bufsNew = [(63, .draining)]) := by
  refine ⟨⟨_, _, uready_at (by decide) rfl, by decide, by decide, by decide, by decide, by decide, by decide, by decide⟩,
    ⟨_, _, _, uready_at (by decide) rfl, by decide, rfl, by decide⟩, fun st h => ?_, rfl, rfl⟩
  simp only [List.mem_cons, List.not_mem_nil, or_false] at h
  rcases h with rfl | rfl | rfl | rfl <;> exact ⟨_, _, _, uready_at (by decide) rfl, rfl, by decide⟩

/-- CarderInstructions: an open record of two empty streams at 0x10100, an open carder, a cursor record. -/
def openState : State := withDwords (withKs tiled [(20, 0x10100)]) 0x100 [2]
def carderState (k : Carder) : State := withCore (withKs tiled [(20, 0x10400)]) (fun c => { c with carder := some k })
def openCarder : Carder := { slot := 0, mode := 1, record := 0x10100 }

theorem witness_carder_open : ∃ s' vs v bs, UReady openState [.k 20] none s' vs ∧ vs.getD 0 0 = 0x10100 ∧
    (openState.actingU s' [.k 20]).readOpen 0x10100 = (v, .ok bs) ∧ v.carderTaken (State.issueTeam (openState.actingU s' [.k 20])) = false ∧
    (openRecordOf false bs).isSome = true ∧ (openRecordOf true bs).isSome = true :=
  ⟨_, _, _, _, uready_at (by decide) rfl, by decide, rfl, by decide, by decide, by decide⟩

theorem witness_carder_cursor :
    (∃ s' vs k, UReady (withKs (carderState openCarder) [(20, 65535)]) [.k 20] none s' vs ∧
      ((withKs (carderState openCarder) [(20, 65535)]).actingU s' [.k 20]).carderOf (0, 0) = some k ∧ (vs.getD 0 0).toNat < 65536) ∧
    (∃ s' vs k v tg, UReady (carderState openCarder) [.k 20] none s' vs ∧ vs.getD 0 0 = 0x10400 ∧
      ((carderState openCarder).actingU s' [.k 20]).carderOf (0, 0) = some k ∧
      ((carderState openCarder).actingU s' [.k 20]).cursorPlace (0, 0) 0x10400 .store = (v, .ok tg)) ∧
    (let s := withKs (withDwords openState 0x400 [1, 0x10100]) [(20, 0x10400)]
     ∃ s' vs v bs w k, UReady s [.k 20] none s' vs ∧ vs.getD 0 0 = 0x10400 ∧ (s.actingU s' [.k 20]).uRead 0x10400 576 64 = (v, .ok bs) ∧
       v.restoreCarder (fun s va n => s.uRead va n 1) (0, 0) bs = (w, .inl k) ∧ w.carderTaken (0, 0) = false) :=
  ⟨⟨_, _, _, uready_at (by decide) rfl, rfl, by decide⟩, ⟨_, _, _, _, _, uready_at (by decide) rfl, by decide, rfl, rfl⟩,
   ⟨_, _, _, _, _, _, uready_at (by decide) rfl, by decide, rfl, rfl, by decide⟩⟩

theorem witness_carder_lanes :
    (∃ s' vs, UReady lane1 [] none s' vs ∧ (lane1.actingU s' []).carderOf (0, 0) = none) ∧
    (let sp : LaneSpec := { dst := some (.reg 4, true), pdst := some 7 }
     (∃ s' l k, SoloReady (carderState { openCarder with port := [9] }) sp s' l ∧
       (State.acting (carderState { openCarder with port := [9] }) s' sp).carderOf (0, 0) = some k ∧ k.port = (9 : DWord) :: [] ∧
       (9 : DWord) ≠ 0xFFFFFFFFFFFFFFFF#64) ∧
     (∃ s' l k, SoloReady (carderState { openCarder with done := true }) sp s' l ∧
       (State.acting (carderState { openCarder with done := true }) s' sp).carderOf (0, 0) = some k ∧ k.port = [] ∧ k.done = true)) ∧
    (let k : Carder := { openCarder with streams := [{ addr := 0, vals := 0, enc := 5, len := 0, base := 0 }], fed := [(0, List.replicate 63 (1, 2))] }
     let sp (b : Fin 128) : LaneSpec := { srcs := [(.reg 5, false), (.reg b, false)], check := fun s w _ =>
        if (s.fedStream (s.teamIdOf w) 0).isSome then none else some { code := 0x0903 } }
     ∀ w ∈ ([0xFFFFFFFF#32, 7] : List Word),
       let s := withCore (place placedTeam [thr [(5, w)]]) (fun c => { c with carder := some k })
       ∃ s' l, s.fedStream s.issueTeam 0 = some k ∧ ((k.fed.find 0).getD []).length + s.feedNeed (.reg 5) (.reg 6) ≤ 64 ∧ SoloReady s (sp 6) s' l ∧
         (s.acting s' (sp 6)).fedStream s.issueTeam 0 = some k ∧ 0 ∉ k.fedEnd ∧ l.w 0 = w) := by
  refine ⟨⟨_, _, uready_at (by decide) rfl, by decide⟩, ⟨⟨_, _, _, solo_at (by decide) rfl, rfl, by decide, by decide⟩,
    ⟨_, _, _, solo_at (by decide) rfl, rfl, by decide, by decide⟩⟩, fun w h => ?_⟩
  simp only [List.mem_cons, List.not_mem_nil, or_false] at h
  rcases h with rfl | rfl <;> exact ⟨_, _, by decide, by decide, solo_at (by decide) rfl, by decide, by decide, by decide⟩

/-- StreamFabricInstructions: a graph of one node that copies its input, with a free slot and with none; a bind record; a
bound handle of fabric 0 idle and running. -/
def slotOf (run : Option Nat) : FabSlot :=
  { owner := (0, 0), wdcyc := 1, wdx := 1, chunk := 4096, out := 0, outp := 0, stat := 0, nodes := [{ op := 0, ina := 128, inb := 0, p1 := 0, p2 := 0 }],
    bind := some (0x20000, 64, 64, false), run }
def graphState (used : Nat) : State :=
  { withDwords (withKs lane1 [(20, 0x10100)]) 0x100 [1 + 12 * 2 ^ 24 + 2 ^ 32 + 2 ^ 40, 0, 0, 0, 0, 0, 0, 0, 128 * 2 ^ 8, 0] with
    fabs := (List.range used).map (fun i => ((63, i), slotOf none)) }

theorem witness_fabric_load :
    ∀ used ∈ [0, 8], ∃ s' vs v w x h body nodes, UReady (graphState used) [.k 20] (some (.k 21)) s' vs ∧ vs.getD 0 0 = 0x10100 ∧
      (let u := (graphState used).actingU s' [.k 20]
       let h0 := dwordsOf h 0
       let n := dfield h0 7 0
       let raw := (List.range n).map (fun i => (dwordsOf body (16 * i), dwordsOf body (16 * i + 8)))
       u.uRead 0x10100 64 1 = (v, .ok h) ∧ 1 ≤ n ∧ n ≤ 64 ∧ v.uRead (0x10100 + 64) (16 * n) 1 = (w, .ok body) ∧
       graphOk h0 (dwordsOf h 8) ((h.drop 16).all (· == 0)) raw = true ∧ w.readTables (raw.map (fun r => sgNodeOf r.1 r.2)) = (x, .inr nodes) ∧
       nodes.all tablesOk = true ∧ x.tableUsed 63 + sumOf (nodes.map tableBytes) ≤ 65536 ∧ 63 ∉ x.plat.fsFabric ∧
       (∀ k < 8, (x.fabs.find (63, k)).isSome = decide (used = 8))) := by
  intro used h
  simp only [List.mem_cons, List.not_mem_nil, or_false] at h
  rcases h with rfl | rfl <;>
    exact ⟨_, _, _, _, _, _, _, _, uready_at (by decide) rfl, by decide, rfl, by decide, by decide, rfl, by decide, rfl, by decide, by decide, by decide, by decide⟩

theorem witness_fabric_run :
    (let s : State := { withPage (withDwords (withKs lane1 [(20, 0x1C0), (21, 0x10100)]) 0x100 [0x20000, 2 ^ 40 - 1, 1, 1]) 0 0x1F with fabs := [((0, 7), slotOf none)] }
     ∃ s' vs key sl v r, UReady s [.k 20, .k 21] none s' vs ∧
       (let u := s.actingU s' [.k 20, .k 21]
        u.handle u.issueTeam (vs.getD 0 0) = some (key, sl) ∧ vs.getD 1 0 = 0x10100 ∧
        (let w (i : Nat) := dwordsOf r (8 * i)
         u.uRead 0x10100 32 1 = (v, .ok r) ∧ (w 0).toNat % 64 = 0 ∧ (w 1).toNat < 2 ^ 40 ∧ (w 2).toNat < 2 ^ 40 ∧ (w 3).toNat < 2 ∧ v.fabBusy key = false) ∧
        sl.bind = some (0x20000, 64, 64, false) ∧ sl.spent = false ∧
        u.backingOut (u.mkCmd u.issueTeam (.fabric key.1 key.2) (.sfRun key.1 key.2 0x10100) (cfOf 0x13)) key.1 0x20000 64 = false ∧
        MayIssue u (.fabric key.1 key.2) (.sfRun key.1 key.2 0x10100) (cfOf 0x13))) ∧
    (∀ run ∈ [none, some 5],
      let s : State := { withKs lane1 [(20, 0x1C0)] with fabs := [((0, 7), slotOf run)] }
      ∃ s' vs key sl, UReady s [.k 20] none s' vs ∧
        (s.actingU s' [.k 20]).handle (State.issueTeam (s.actingU s' [.k 20])) (vs.getD 0 0) = some (key, sl) ∧
        (s.actingU s' [.k 20]).fabBusy key = run.isSome) := by
  refine ⟨⟨_, _, _, _, _, _, uready_at (by decide) rfl, rfl, by decide, ⟨rfl, by decide, by decide, by decide, by decide, by decide⟩, by decide, by decide, by decide,
    ⟨by decide, by decide⟩⟩, fun run h => ?_⟩
  simp only [List.mem_cons, List.not_mem_nil, or_false] at h
  rcases h with rfl | rfl <;> exact ⟨_, _, _, _, uready_at (by decide) rfl, rfl, by decide⟩

set_option exponentiation.threshold 300 in
/-- StartingWork: a block of one record, the published version, a round of two devices, a child, a graph of one node. -/
theorem witness_starting :
    (let s := withKs lane1 [(20, 0x10100), (21, 16)]
     ∃ s' vs v bs rs, UReady s [.k 20, .k 21] none s' vs ∧ vs = [0x10100, 16] ∧ 0 ∉ (State.plat (s.actingU s' [.k 20, .k 21])).fsStack ∧
       (s.actingU s' [.k 20, .k 21]).uRead 0x10100 64 1 = (v, .ok bs) ∧ searchRecords bs 1 = some rs ∧
       v.blockFail (v.mkCmd v.issueTeam (.search 0) (v.blockOp 0 rs) (cfOf 0x11)) = none ∧ v.hasRoom (.search 0) = true) ∧
    (∃ s' vs, UReady (withKs lane1 [(20, 5)]) [.k 20] (some (.k 21)) s' vs) ∧
    (let s := withDwords (withKs lane1 [(20, 0x10100)]) 0x100 [1 + 9 * 2 ^ 8 + 2 ^ 32, 0x10200, 0x10300, 1, 3]
     ∃ s' vs v bs r slot, UReady s [.k 20] none s' vs ∧ vs = [0x10100] ∧ (s.actingU s' [.k 20]).uRead 0x10100 128 1 = (v, .ok bs) ∧
       collOf v.dom.dev bs = some r ∧ v.freeRound = some slot ∧ (∀ x ∈ v.rounds, x.2.group = r.group → x.2.round ≠ r.round) ∧
       v.ownBuffers (v.mkCmd v.issueTeam (.round slot) (.coll r) (cfOf 0x14)) = true ∧ v.cmdRefused (v.mkCmd v.issueTeam (.round slot) (.coll r) (cfOf 0x14)) = none) ∧
    (let s := withTeam (withKs lane1 [(20, 0x10100)]) (fun t => { t with depth := 9 })
     ∃ s' vs v w bs, UReady s [.k 20] (some (.k 21)) s' vs ∧ vs = [0x10100] ∧
       (let u := s.actingU s' [.k 20]
        u.team u.issueTeam = some v ∧ (∃ l ∈ u.sys.issue.lanes, whoTid l.2 = 0) ∧ v.depth < 10 ∧ u.childCount < 4096 ∧
        u.issueRelease.engRead (u.issueRelease.mkCmd u.issueTeam (.copy u.issueTeam.1) (.xfer 0 0x10100 128) {}) 0x10100 128 = (w, .ok (bs, false)))) ∧
    (let s := withKs tiled [(20, 0x10100), (21, 1)]
     ∃ s' vs v loc, UReady s [.k 20, .k 21] none s' vs ∧ vs = [0x10100, 1] ∧
       (let u := s.actingU s' [.k 20, .k 21]
        u.nodesAt (u.mkCmd u.issueTeam (.walker u.issueTeam.1) (.graph u.sys.nextCmd) (cfOf 0x1F)) 0x10100 1 = (v, .ok loc) ∧
        v.regionsAt loc (64 * 1) = [] ∧ v.hasRoom (.walker u.issueTeam.1) = true)) :=
  ⟨⟨_, _, _, _, _, uready_at (by decide) rfl, by decide, by decide, rfl, rfl, by decide, by decide⟩, ⟨_, _, uready_at (by decide) rfl⟩,
   ⟨_, _, _, _, _, _, uready_at (by decide) rfl, by decide, rfl, rfl, rfl, by decide, by decide, by decide⟩,
   ⟨_, _, _, _, _, uready_at (by decide) rfl, by decide, rfl, ⟨_, List.mem_cons_self .., by decide⟩, by decide, by decide, rfl⟩,
   ⟨_, _, _, _, uready_at (by decide) rfl, by decide, rfl, by decide, by decide⟩⟩

/-! ### Witnesses: supervisor and walker instructions -/

theorem witness_supervisor :
    (∃ s' vs, SupReady lane2 [] none s' vs) ∧
    (∃ s' vs, SupReady (withKs lane1 [(20, 65535)]) [20] none s' vs ∧ (vs.getD 0 0).toNat < 2 ^ 16) ∧
    (∀ ev ∈ ([0, 2] : List (BitVec 4)),
      let s := withKs (withTeam lane1 (fun t => { t with events := ev })) [(20, 10)]
      ∃ s' vs, SupReady s [20] (some 21) s' vs ∧ dfield (vs.getD 0 0) 15 4 = 0 ∧ dfield (vs.getD 0 0) 63 40 = 0 ∧
        dfield (vs.getD 0 0) 39 16 = 0 ∧ (vs.getD 0 0).toNat = 10) ∧
    (∃ s' vs, SupReady (withKs lane1 [(20, 65535), (21, 0xFF00000000000000)]) [20, 21] none s' vs ∧ (vs.getD 0 0).toNat < 2 ^ 16 ∧
      canonical (vs.getD 1 0) = true) ∧
    (∃ s' vs v, SupReady (withKs lane1 [(20, 3), (21, 0)]) [20, 21] none s' vs ∧ (vs.getD 0 0).toNat < 4 ∧ (vs.getD 1 0).toNat < 2 ^ 32 ∧
      (State.actingU (withKs lane1 [(20, 3), (21, 0)]) s' [.k 20, .k 21]).ackQueue 3 0 = some v) ∧
    (∃ s' vs, SupReady (withKs lane1 [(20, 65), (21, 0)]) [20, 21] none s' vs ∧ 65 ≤ (vs.getD 0 0).toNat ∧ (vs.getD 0 0).toNat < 128) ∧
    (user1.sys.issue.runAhead = none ∧ user1.isSup user1.issueTeam = false) := by
  refine ⟨⟨_, _, supready_at (by decide) rfl⟩, ⟨_, _, supready_at (by decide) rfl, by decide⟩, fun ev h => ?_, ⟨_, _, supready_at (by decide) rfl, by decide, by decide⟩,
    ⟨_, _, _, supready_at (by decide) rfl, by decide, by decide, rfl⟩, ⟨_, _, supready_at (by decide) rfl, by decide, by decide⟩, by decide⟩
  simp only [List.mem_cons, List.not_mem_nil, or_false] at h
  rcases h with rfl | rfl <;> exact ⟨_, _, supready_at (by decide) rfl, by decide, by decide, by decide, by decide⟩

/-- `idle`: the latch holds an event that the mask names, or none. -/
theorem witness_idle :
    (let s := withKs (withTeam lane1 (fun t => { t with events := 2 })) [(20, 10)]
     let p := s.modTeam (0, 0) (fun x => { x with events := x.events ||| 8#4 })
     (((p.team (0, 0)).map (·.events)).getD 0) &&& (10 : BitVec 4) ≠ 0) ∧
    (let s := withKs lane1 [(20, 2)]
     (((s.team (0, 0)).map (·.events)).getD 0) &&& (2 : BitVec 4) = 0) := by decide

/-- `dir.reclaim` of a line whose owner is lost, through a `line` page at VA 0x20000; `keysel` with a record at 0x10100. -/
def lostLine : State :=
  let s := withPage (withKs lane1 [(20, 0x20000), (21, 0x10100)]) 0 0x5F
  s.setDir 0 { ownerLost := true }
def keyState : State :=
  let s := withDwords (withKs lane1 [(20, 63), (21, 0x10100)]) 0x100 [1, 7]
  s.setPlat { s.plat with wrapKey := some 5 }

theorem witness_reclaim_and_keys :
    (∃ s' vs v w tg bs, SupReady lostLine [20, 21] none s' vs ∧ vs = [0x20000, 0x10100] ∧
      (let u := lostLine.actingU s' [.k 20, .k 21]
       u.checkIssue (u.laneAccess u.leader .store 0x20000 1 1) = (v, .ok tg) ∧ isRemote tg.loc = false ∧ tg.line = true ∧ v.lineLost tg.loc = true ∧
       v.uRead 0x10100 64 1 = (w, .ok bs) ∧ w.checkHome (w.laneAccess w.leader .store 0x20000 64 1) tg = none)) ∧
    (∃ s' vs, SupReady (withKs lane1 [(20, 127), (21, 0)]) [20, 21] none s' vs ∧ vs = [127, 0]) ∧
    (∃ s' vs v bs, SupReady keyState [20, 21] none s' vs ∧ vs = [63, 0x10100] ∧ (keyState.actingU s' [.k 20, .k 21]).uRead 0x10100 128 1 = (v, .ok bs) ∧
      v.plat.wrapKey = some 5 ∧ numOfBytes (bs.take 8) = 1 ∧ (bs.drop 0x30).all (· == 0) = true) :=
  ⟨⟨_, _, _, _, _, _, supready_at (by decide) rfl, by decide, rfl, by decide, by decide, by decide, rfl, by decide⟩,
   ⟨_, _, supready_at (by decide) rfl, by decide⟩,
   ⟨_, _, _, _, supready_at (by decide) rfl, by decide, rfl, rfl, by decide, by decide⟩⟩

/-- `ctxsave` of the team in slot 15, and `ctxload` of it from the area that its image fills. -/
def twoTeams : State :=
  let s := withKs lane1 [(20, 15), (21, 0x18000)]
  { s with teams := s.teams.put (0, 15) { placedTeam with regs := 32 },
           skeins := s.skeins.put (0, 1) { slot := 15, pipe := 1, formed := 0 },
           threads := s.threads.put (.lane 0 15 0) { placedThread with regs := List.replicate 32 0, ctx := 1 } }

theorem witness_ctxsave : ∃ s' vs v w tg, SupReady twoTeams [20, 21] (some 22) s' vs ∧ vs = [15, 0x18000] ∧
    (let u := twoTeams.actingU s' [.k 20, .k 21]
     u.team (0, 15) = some v ∧ (0, 15) ≠ u.issueTeam ∧ v.saved = false ∧ v.saving = false ∧ v.ending = none ∧ u.threadsOf (0, 15) ≠ [] ∧
     u.areaBad u.leader 0x18000 (u.areaOf (0, 15) v) = (w, .ok tg)) :=
  ⟨_, _, _, _, _, supready_at (by decide) rfl, by decide, rfl, by decide, by decide, by decide, by decide, by decide, rfl⟩

/-- The area of a team in slot 15 with one thread of 32 registers in one skein, by R327 to R329: its bytes that are not 0. -/
def areaBytesSet : List (Nat × Byte) := [(0, 15), (5, 32), (8, 1), (16, 1), (18, 1), (25, 16), (33, 18), (40, 128), (41, 19), (1024, 170), (1025, 170),
  (1026, 1), (4480, 1), (4552, 1), (4610, 1), (4618, 32), (4628, 255)]
/-- A machine that may load it from VA 0x28000, a `tso` page, or whose core has no register left. -/
def savedState (busy : Bool) : State :=
  let s := withPage (withKs lane1 [(20, 0), (21, 0x28000)]) Config.tileBase 0x3F
  { s with teams := s.teams.put (0, 15) { placedTeam with regs := 32, saved := true },
           cores := [(0, { s.core 0 with free := if busy then 0 else 4096, saveTags := [(15, 1)] })],
           mem := { s.mem with cells := areaBytesSet.map (fun p => (Config.tileBase + 0x8000 + p.1, p.2)) } }

/-- The hypotheses of `ctxload` on the area that the machine reads: a team that can be loaded, and one that cannot. -/
def loadCheck (s : State) (can : Bool) : Bool :=
  ((s.popU (0, 0) [.k 20, .k 21]).map (·.2) == some [0, 0x28000]) &&
  (match s.uRead 0x28000 256 1 with
    | (v, .ok h) =>
      (match v.team (0, 15) with
        | some tm => tm.saved && decide (tm.ending = none) && decide ((v.core 0).saveTags.find 15 = some 1) && decide (dwordsOf h 8 = 1) &&
            decide (dfield (dwordsOf h 0) 3 0 = 15) && decide (4096 ≤ dfield (dwordsOf h 0) 63 32) && decide (dfield (dwordsOf h 0) 63 32 ≤ 1904640) &&
            (match v.uRead 0x28000 (dfield (dwordsOf h 0) 63 32) 1 with
              | (w, .ok bs) => (readArea bs (0, 15) tm 1 w.now).any (fun x => (w.canLoad (0, 15) tm x == can) && x.cursor.all (· == 0) &&
                  (match w.loadChans (0, 15) x with | .ok _ => true | .error _ => false))
              | _ => false)
        | none => false)
    | _ => false)

theorem witness_ctxload : loadCheck (savedState false) true = true ∧ (∃ s' vs, SupReady (savedState false) [20, 21] (some 22) s' vs) :=
  ⟨by decide +kernel, ⟨_, _, supready_at (by decide) rfl⟩⟩
theorem witness_ctxload_full : loadCheck (savedState true) false = true ∧ (∃ s' vs, SupReady (savedState true) [20, 21] (some 22) s' vs) :=
  ⟨by decide +kernel, ⟨_, _, supready_at (by decide) rfl⟩⟩

/-- WalkerInstructions: the walker thread 0, its registers and its stack's die replaced. -/
def walkState (rs : List (Nat × Word)) (ft : Thread → Thread) (fd : SearchDie → SearchDie) : State :=
  (walk1.modThread (.walk 0) (fun t => ft (rs.foldl (fun t p => t.wr p.1 p.2) t))).modDie 0 fd
def idD (d : SearchDie) : SearchDie := d
def idT (t : Thread) : Thread := t

theorem witness_walker_messages :
    (∃ x, (walk1.thread (.walk 0)).bind (·.walk) = some x) ∧
    (let sp : LaneSpec := { srcs := [(.reg 16, false)], more := regsFrom 0 16 }
     (let s := walkState [(16, 8191)] idT idD
      ∃ s' l, SoloReady s sp s' l ∧ l.who = .walk 0 ∧ (l.w 0).toNat < 8192 ∧ (s.acting s' sp).peerRoom (l.w 0).toNat = true) ∧
     (let s := walkState [(16, 0)] (fun t => { t with msgs := List.replicate 4 [] }) idD
      ∃ s' l, SoloReady s sp s' l ∧ (l.w 0).toNat < 8192 ∧ (s.acting s' sp).peerRoom (l.w 0).toNat = false) ∧
     (let s := walkState [(16, 8192)] idT idD
      ∃ s' l, SoloReady s sp s' l ∧ 8192 ≤ (l.w 0).toNat)) ∧
    (let sp : LaneSpec := { more := regsFrom 16 16 }
     (let s := walkState [] (fun t => { t with msgs := [[1]] }) idD
      ∃ s' l m ms, SoloReady s sp s' l ∧ l.t.msgs = m :: ms) ∧
     (∃ s' l, SoloReady walk1 sp s' l ∧ l.t.msgs = [])) :=
  ⟨⟨_, rfl⟩, ⟨⟨_, _, solo_at (by decide) rfl, rfl, by decide, by decide⟩, ⟨_, _, solo_at (by decide) rfl, by decide, by decide⟩,
    ⟨_, _, solo_at (by decide) rfl, by decide⟩⟩, ⟨_, _, _, _, solo_at (by decide) rfl, rfl⟩, ⟨_, _, solo_at (by decide) rfl, by decide⟩⟩

theorem witness_walker_hops :
    (let sp : LaneSpec := { srcs := [(.reg 5, false)] }
     let s (n : Nat) : State := (walkState [(5, 15)] idT idD).modDie 15 (fun d => { d with
       hops := List.replicate n (walkMsg 2 15 0 0 { stack := 15, block := 0, cmd := 0, origin := 0, core := 0, team := 0, asid := 0 }) })
     (∃ s' l, SoloReady (s 63) sp s' l ∧ (l.w 0).toNat ≤ 15 ∧ (l.w 0).toNat ∉ ((s 63).acting s' sp).plat.fsStack ∧
       (((s 63).acting s' sp).die (l.w 0).toNat).hops.length < 64) ∧
     (∃ s' l, SoloReady (s 64) sp s' l ∧ (l.w 0).toNat ≤ 15 ∧ 64 ≤ (((s 64).acting s' sp).die (l.w 0).toNat).hops.length)) ∧
    (let sp : LaneSpec := { srcs := [(.reg (6 : Fin 128), true)] }
     let s (es : List DWord) : State := withChan walk1 31 { chanOf es with kind := .emissions }
     (∃ s' l ch, SoloReady (s []) sp s' l ∧ ((s []).acting s' sp).chan (0, 0) 31 = some ch ∧ ch.kind = .emissions ∧ ch.elems.length < ch.room) ∧
     (let t : State := s (List.replicate 4096 0)
      ∃ s' l ch, SoloReady t sp s' l ∧ (t.acting s' sp).chan (0, 0) 31 = some ch ∧ ch.kind = .emissions ∧ ch.room ≤ ch.elems.length) ∧
     (∃ s' l, SoloReady walk1 sp s' l ∧ (walk1.acting s' sp).chan (0, 0) 31 = none)) :=
  ⟨⟨⟨_, _, solo_at (by decide) rfl, by decide, by decide, by decide⟩, ⟨_, _, solo_at (by decide) rfl, by decide, by decide⟩⟩,
   ⟨_, _, _, solo_at (by decide) rfl, rfl, by decide, by decide⟩, ⟨_, _, _, solo_at (by decide) rfl, rfl, by decide, by decide⟩,
   ⟨_, _, solo_at (by decide) rfl, by decide⟩⟩

theorem witness_walker_search :
    (let sp : LaneSpec := { srcs := [(.reg (6 : Fin 128), true)], dst := some (.reg 5, false) }
     let s := walkState [(6, 0x10100)] idT (fun d => { d with slots := [(31, { dim := 1, fmt := .i8, bytes := [3] })] })
     ∃ s' l slot v bs, SoloReady s sp s' l ∧ ((s.acting s' sp).die 0).slots.find 31 = some slot ∧
       (s.acting s' sp).uReadGo l.who (l.v 0) (vecBytes slot.dim slot.fmt) (vecBytes slot.dim slot.fmt / 64 + 2) = (v, .ok bs)) ∧
    (let sp : LaneSpec := { srcs := [(.reg (6 : Fin 128), true)] }
     let s := walkState [] (fun t => { t with latch := some .nan }) (fun d => { d with heaps := [(31, { cap := 1, asid := some 0 })] })
     ∃ s' l m, SoloReady s sp s' l ∧ l.t.latch = some m ∧ heapFail (((s.acting s' sp).die 0).heap 31) 0 = false) ∧
    (let sp : LaneSpec := { srcs := [(.reg 5, false)] }
     let s := walkState [(5, 7)] idT (fun d => { d with visited := [(31, (8, [3]))] })
     ∃ s' l size set, SoloReady s sp s' l ∧ ((s.acting s' sp).die 0).visited.find 31 = some (size, set) ∧ (l.w 0).toNat < size) :=
  ⟨⟨_, _, _, _, _, solo_at (by decide) rfl, rfl, rfl⟩, ⟨_, _, _, solo_at (by decide) rfl, rfl, by decide⟩, ⟨_, _, _, _, solo_at (by decide) rfl, rfl, by decide⟩⟩

/-! ### Witnesses: steps of the cores -/

/-- CoreSteps: a bobbin that is old enough; a ready thread; a barrier whose waiter starves; a core whose only thread waits
for registers that it cannot have; a run-ahead; a deferred batch entry. -/
def claimState : State :=
  at_ (withCore (place placedTeam [{ thr [] with state := .blocked (.claim 8) }]) (fun k => { k with free := 0, poolQueue := [.claim 0 0 8], claimSince := some 0 })) 1024

theorem witness_core_steps :
    (let s := at_ (withCore lane1 (fun k => { k with bobbins := [(63, { slot := 0, pc := 0, threads := [(0, 0)] })] })) 257
     ∃ n b, 0 < 192 ∧ s.drawChoice 0 = some (n, b) ∧ s.canDraw 0 = true) ∧
    (∃ t, lane1.thread (.lane 0 0 0) = some t ∧ t.state = .ready) ∧
    (let b : Bar := { kind := .team, cls := 0, count := 2, pending := 1, quota := 0, balance := 0, blockedSince := some 0 }
     let s := at_ (withTeam (place placedTeam [{ thr [] with state := .blocked (.bar 15) }]) (fun t => { t with bars := [(15, b)] })) 65536
     ∃ x, s.timed (0, 0) (.barrier 15) = some x ∧ (s.core 0).halted = false ∧ x.due s.now (s.core 0).starve = true) ∧
    (claimState.claimStuck 0 = true ∧ (claimState.core 0).claimSince.any (fun c => decide (c + 1024 ≤ claimState.now)) = true) ∧
    (let r : RunAhead := { id := 3, core := 0, ctx := 0, ks := [], granules := [], code := 0x0701, pc := 0, asid := 0, access := 0, addr := 0, whos := [.lane 0 0 0] }
     let s : State := { lane1 with runs := [r] }
     s.runs.find? (fun x => decide (x.id = r.id)) = some r) ∧
    (let b : BatchEntry := { code := 0x0701, core := 0, asid := 0, pc := 0, granules := [], refault := 0, team := none, tag := 0, index := 0, access := 0, addr := 0 }
     let s := lane1.setErrs { lane1.errs with bqBase := 0x10000, bqLog := 1, waiting := [b] }
     s.errs.waiting = b :: [] ∧ s.errs.ringFull = false) :=
  ⟨⟨_, _, by decide, rfl, by decide⟩, ⟨_, rfl, by decide⟩, ⟨_, rfl, by decide, by decide⟩, by decide, by decide, by decide⟩

/-- The completions: a timer that is due, a save that must wait for engine work and one that may be written. -/
theorem witness_completions :
    (let s := at_ (withTeam lane1 (fun t => { t with timers := [7, 8] })) 7
     ∃ v, s.team (0, 0) = some v ∧ ∃ c ∈ v.timers, c ≤ s.now) ∧
    (∀ busy : Bool, let s : State := { twoTeams.modThread (.lane 0 0 0) (fun t => { t with stall := .completion }) with
        pend := [{ core := 0, ctx := 0, slot := 15, area := 0x18000, dest := 22 }],
        cmds := if busy then [{ id := 0, engine := .copy 0, team := (0, 15), tag := 0, asid := 0, grid := 0, op := .xfer 0 0 64 }] else [] }
      ∃ p v, s.pend.find? (fun p => p.core = 0 ∧ p.ctx = 0) = some p ∧ s.team (0, p.slot) = some v ∧ v.ending = none ∧
        s.completing 0 0 (dw placeVa) ≠ [] ∧ s.outstanding (0, p.slot) = busy ∧ ∀ b ∈ v.banks, b ∉ (s.core 0).accPoison) :=
  ⟨⟨_, rfl, ⟨7, by decide, by decide⟩⟩, fun busy => by cases busy <;> exact ⟨_, _, rfl, rfl, by decide, by decide, by decide, by decide⟩⟩

/-! ### Witnesses: engine steps -/

/-- A copy of 64 bytes as the copy engine's only command, and the same with another source, guard or mark. -/
def copyCmd (src : DWord) : Cmd := { id := 0, engine := .copy 0, team := (0, 0), tag := 0, asid := 0, grid := 0, op := .xfer 0x10100 src 64 }
def cmdState (c : Cmd) : State := { withTeam tiled (fun t => { t with guards := t.guards.set 7 (some false) }) with cmds := [c] }
def leftCmd (src : DWord) : Cmd := { copyCmd src with left := true }

theorem witness_command_heads :
    (∀ g : Nat × Bool, g ∈ [(6, true), (7, true), (7, false)] →
      let c := { copyCmd 0x10140 with cf := { guard := some g } }
      (cmdState c).headOf (engineOf (.copy 0)) = some c ∧
      (cmdState c).guardOf c = (if g.1 = 6 then none else some (!g.2)) ∧ (cmdState c).slotRuns c = false ∧
      (cmdState c).headBufs c = some ([], [])) ∧
    (let s := withTeam (cmdState (copyCmd 0x10140)) (fun t => { t with bufs := [(0, { off := 0x100, size := 64, prod := .any, state := .full })] })
     s.headOf (engineOf (.copy 0)) = some (copyCmd 0x10140) ∧ s.guardOf (copyCmd 0x10140) = some true ∧ s.slotRuns (copyCmd 0x10140) = false ∧
     s.headBufs (copyCmd 0x10140) = none) := by decide

theorem witness_command_ready :
    (∀ a, (cmdState (leftCmd a)).cmd 0 = some (leftCmd a) ∧ (leftCmd a).left = true ∧ (leftCmd a).waitReplay = false ∧
      (leftCmd a).laterDsts = [] ∧ (leftCmd a).laterRels = [] ∧ (cmdState (leftCmd a)).behind (leftCmd a) = false) ∧
    (cmdState (leftCmd 0x10140)).srcReady (leftCmd 0x10140) = true ∧ (cmdState (leftCmd 0x30000)).srcReady (leftCmd 0x30000) = true ∧
    (cmdState (leftCmd 0x0100000000000000)).srcReady (leftCmd 0x0100000000000000) = true :=
  ⟨fun a => ⟨rfl, rfl, rfl, rfl, rfl, rfl⟩, by decide, by decide, by decide⟩

theorem witness_command_done : ∃ v n, (cmdState (leftCmd 0x10140)).runCmd (leftCmd 0x10140) = (v, .done n) := ⟨_, _, rfl⟩
theorem witness_command_hold : ∃ v va, (cmdState (leftCmd 0x30000)).runCmd (leftCmd 0x30000) = (v, .hold va) := ⟨_, _, rfl⟩
theorem witness_command_bad : ∃ v f i0 i1, (cmdState (leftCmd 0x0100000000000000)).runCmd (leftCmd 0x0100000000000000) = (v, .bad f i0 i1) :=
  ⟨_, _, _, _, rfl⟩

theorem witness_command_waits :
    let c := { copyCmd 0 with engine := .walker 0, op := .graph 5, left := true }
    let s : State := { cmdState c with graphs := [(5, { core := 0, team := (0, 0), addr := 0, loc := 0, n := 1, ready := [] })] }
    s.cmd 0 = some c ∧ c.left = true ∧ c.waitReplay = false ∧ c.laterDsts = [] ∧ c.laterRels = [] ∧ s.behind c = false ∧ s.srcReady c = true ∧
      ∃ v, s.runCmd c = (v, .wait) :=
  ⟨by decide, by decide, by decide, by decide, by decide, by decide, by decide, _, rfl⟩

theorem witness_command_ends :
    (∃ v bytes kind index i0 i1, (cmdState (leftCmd 0x10140)).endUnit (leftCmd 0x10140) 0x0701 = (kind, index, i0, i1) ∧
      (cmdState (leftCmd 0x10140)).endActions (leftCmd 0x10140) 0x0701 = (v, bytes)) ∧
    (let k : Multicast := { core := 0, addr := 0x10000, bytes := 64, tag := 15, want := 2, cmds := [0], presented := 1, start := 0 }
     let s : State := { lane1 with casts := [k] }
     s.casts.find? (fun k => k.cmds.contains 0 && decide (k.presented < k.want)) = some k) :=
  ⟨⟨_, _, _, _, _, _, rfl, rfl⟩, by decide⟩

/-- EngineSteps: a started graph with node 0 ready; the deals of the carder; a chunk of a stream; a run past its limit. -/
def oneNode : Graph := { core := 0, team := (0, 0), addr := 0x10100, loc := Config.tileBase + 0x100, n := 1, slot := 7, ready := [(0, 0)], started := true }

theorem witness_graph_node :
    let s : State := { lane1 with graphs := [(5, oneNode)] }
    (∀ y ∈ s.graphsOn 0, y.2.started = true ∧ y.2.dead = false) ∧ ∃ x : Nat × Nat × Nat, s.nextNode 0 = some (x, 5, oneNode) ∧ x.2.2 = 0 := by
  refine ⟨fun y h => ?_, _, rfl, rfl⟩
  have h : y ∈ [(5, oneNode)] := h
  simp only [List.mem_cons, List.not_mem_nil, or_false] at h
  rcases h with rfl
  decide

/-- Two u16 streams at 0x10400 and 0x10440 that share the coordinate 7, or the first alone ending; and a stream that falls. -/
def dealState : State := withDwords tiled 0x400 [7, 0, 0, 0, 0, 0, 0, 0, 7]
def dealer (len : Nat) : Carder :=
  { openCarder with streams := [{ addr := 0x10400, vals := 0, enc := 0, len, base := 0 }, { addr := 0x10440, vals := 0, enc := 0, len := 1, base := 0 }] }

theorem witness_carder_deals :
    (dealer 2).done = false ∧ (dealer 2).held = none ∧ (dealer 2).port.length < 32 ∧
    (∃ v k' e, dealState.intersect 0 (dealer 1) 6 = (v, .elem k' e)) ∧
    (∃ v k', dealState.intersect 0 (dealer 0) 5 = (v, .finished k')) ∧
    (∃ v k' f, dealState.intersect 0 { dealer 2 with posA := 1 } 7 = (v, .fault k' f)) ∧
    (let k := { openCarder with streams := [{ addr := 0, vals := 0, enc := 5, len := 0, base := 0 }] }
     ∃ v k', dealState.intersect 0 k 4 = (v, .wait k') ∧ k'.fed = k.fed) ∧
    (let k := { openCarder with spJ := 0, spK := 1, spN := 4, spA := 8, spB := 16 }
     k.spJ < k.spK ∧ ∃ k' e, k.segment = .elem k' e) :=
  ⟨by decide, by decide, by decide, ⟨_, _, _, rfl⟩, ⟨_, _, rfl⟩, ⟨_, _, _, rfl⟩, ⟨_, _, rfl, rfl⟩, by decide, _, _, rfl⟩

/-- A run of fabric 63, slot 7, over 64 bytes at 0x10140. -/
def runCmd0 : Cmd := { copyCmd 0 with engine := .fabric 63 7, op := .sfRun 63 7 0x10100, left := true }
def runState : State := { cmdState runCmd0 with fabs := [((63, 7), { slotOf (some 0) with bind := some (0x10140, 64, 64, false) })] }

theorem witness_stream_chunk :
    ∃ v sl bs out, runState.fabs.find (63, 7) = some sl ∧ sl.run = some 0 ∧ runState.cmd 0 = some runCmd0 ∧ sl.bind = some (0x10140, 64, 64, false) ∧
      sl.output = none ∧ sl.doomed = none ∧ sl.stuck = false ∧ runCmd0.waitReplay = false ∧ runState.streamReady runCmd0 = true ∧
      runState.engRead runCmd0 (0x10140 + dw sl.input.length) (Nat.min sl.chunk (64 - sl.input.length)) = (v, .ok (bs, false)) ∧
      evalRun sl (sl.input ++ bs) (decide (64 ≤ (sl.input ++ bs).length)) = (out, none) ∧
      (sl.input ++ bs).length ≤ accepted sl (sl.input ++ bs) (decide (64 ≤ (sl.input ++ bs).length)) ∧
      outputEnd (0x10140, 64, 64, false) out (decide (64 ≤ (sl.input ++ bs).length)) (sl.input.length / sl.chunk) (sl.input ++ bs).length = none ∧
      slowChunks sl (sl.input ++ bs) (decide (64 ≤ (sl.input ++ bs).length)) (sl.input.length / sl.chunk) = [] :=
  ⟨_, _, _, _, rfl, rfl, rfl, rfl, rfl, rfl, rfl, rfl, rfl, rfl, rfl, by decide, by decide, by decide⟩

theorem witness_zeroing : ({ copyCmd 0 with engine := .matrix 0, op := .accZero 511 1, left := true } : Cmd).op = .accZero 511 1 := rfl

/-! ### Witnesses: the sequencer of a base die and its walks -/

/-- A command record, a block of one record, its command, and stack 0 with them; its die translates VA 0x20000 to stack 0. -/
def sc (op : Nat) : SearchCmd :=
  { op, q := 31, h := 31, t := 31, cur := false, metric := false, fmt := 0, stk := 15, dim := 16, addr := 0x20000, count := 1, snap := 1,
    fval := 0, fmask := 0, fcond := 0, arg := 0 }
def blockOf (c : SearchCmd) : Block :=
  { entry := 63, cmdId := 0, core := 0, team := (0, 0), asid := 0, root := 0, prio := 1, order := 0, records := [c] }
def blockCmd : Cmd := { copyCmd 0 with engine := .search 0, op := .search 0 63 [] }
def dieOf (b : Block) (run : Bool) : SearchDie :=
  { blocks := [b], running := if run then some 63 else none, slots := [(31, { dim := 4, fmt := .i8, bytes := [1, 2, 3, 4] })],
    heaps := [(31, { cap := 2, asid := some 0 })] }
def searchAt (b : Block) (run : Bool) (k : Cmd) : State :=
  let s := (withTeam tiled (fun t => { t with guards := t.guards.set 7 (some false) })).modDie 0 (fun _ => dieOf b run)
  let s := s.modDie 15 (fun _ => { heaps := [(31, { cap := 2, asid := some 0 })] })
  { s with cmds := [k], mem := { s.mem with tlbs := s.mem.tlbs.put (.die 0) [{ asid := 0, base := 2, log := 16, leaf := dw 0x1F }] } }
def running (c : SearchCmd) : State := searchAt (blockOf c) true blockCmd

theorem witness_block_start :
    (∀ g ∈ ([none, some (7, false), some (7, true)] : List (Option (Nat × Bool))),
      let k := { blockCmd with cf := { guard := g } }
      let s := searchAt (blockOf (sc 0)) false k
      (s.die 0).nextBlock = some (blockOf (sc 0)) ∧ (s.die 0).running = none ∧ (s.die 0).spilled = none ∧ (blockOf (sc 0)).started = false ∧
      s.cmd 0 = some k ∧ s.guardOf k = some (decide (g ≠ some (7, true))) ∧ s.headBufs k = some ([], [])) ∧
    (let b := { blockOf (sc 0) with started := true }
     let low : Block := { blockOf (sc 0) with entry := 1, prio := 0, started := true }
     let s := (searchAt b false blockCmd).modDie 0 (fun d => { d with blocks := [b, low], preempted := [1] })
     (s.die 0).nextBlock = some b ∧ (s.die 0).running = none ∧ (s.die 0).spilled = some low ∧ low.prio < b.prio ∧ b.started = true) := by decide

theorem witness_block_commands :
    (∀ op ≤ 8, (running (sc op)).running 0 op = some (blockOf (sc op), sc op)) ∧
    (∃ v bs, (running (sc 1)).dieRead 0 (blockOf (sc 1)) false (sc 1).addr (vecBytes (sc 1).dim (tyOf (sc 1).fmt)) = (v, .ok bs)) ∧
    (let c := { sc 1 with addr := 0x30000 }
     (running c).running 0 1 = some (blockOf c, c) ∧ ∃ v va, (running c).dieRead 0 (blockOf c) false c.addr (vecBytes c.dim (tyOf c.fmt)) = (v, .hold va)) ∧
    (let c := { sc 1 with addr := 0x0100000000000000 }
     (running c).running 0 1 = some (blockOf c, c) ∧ ∃ v f, (running c).dieRead 0 (blockOf c) false c.addr (vecBytes c.dim (tyOf c.fmt)) = (v, .bad f)) ∧
    15 ∉ (running (sc 5)).plat.fsStack ∧ heapFail (((running (sc 5)).die 0).heap 31) 0 = false ∧ heapFail (((running (sc 5)).die 15).heap 31) 0 = false :=
  ⟨by decide, ⟨_, _, rfl⟩, ⟨by decide, _, _, rfl⟩, ⟨by decide, _, _, rfl⟩, by decide, by decide, by decide⟩

/-- A record of a scan that passes the snapshot, one that does not, a bare vector, and a heap of each owner. -/
theorem witness_scans :
    ∃ slot, ((running (sc 3)).die 0).slots.find 31 = some slot ∧
      (let rd (s : State) (c : SearchCmd) (bare : Bool) := (s.modBlock 0 63 (fun x => { x with snapTaken := some 1 })).scanRecord 0
          { blockOf c with snapTaken := some 1 } c slot bare 1 (alignUp 16 (16 + vecBytes slot.dim slot.fmt) - (if bare then 16 else 0))
       let m (s : State) : State := s.setMem { s.mem with cells := cellPuts s.mem.cells 8 (bytesOf 8 (2 ^ 32 * 2)) }
       (∃ v x id, rd (m (running (sc 3))) (sc 3) false = (v, .ok (.offer x id))) ∧ (∃ v, rd (running (sc 3)) (sc 3) false = (v, .ok .skip)) ∧
       (∃ v x id, rd (running (sc 4)) (sc 4) true = (v, .ok (.offer x id)))) ∧
      (running (sc 3)).takeSnap (blockOf (sc 3)) (sc 3) = (running (sc 3), 1, 0) :=
  ⟨_, rfl, ⟨⟨_, _, _, rfl⟩, ⟨_, rfl⟩, ⟨_, _, _, rfl⟩⟩, rfl⟩

theorem witness_hinit :
    (∀ x, (((running (sc 2)).die 0).heap 31).asid = some x → x = (blockOf (sc 2)).asid) ∧
    (let s := (running (sc 2)).modDie 0 (fun d => { d with heaps := [(31, { cap := 2, asid := some 7 })] })
     s.running 0 2 = some (blockOf (sc 2), sc 2) ∧ ∃ x, ((s.die 0).heap 31).asid = some x ∧ x ≠ (blockOf (sc 2)).asid) :=
  ⟨fun x h => by cases h; rfl, by decide, 7, rfl, by decide⟩

theorem witness_hout :
    let c := { sc 6 with addr := 0x10100 }
    let bs := ((running c).die 0).heap 31 |>.result
    (running c).running 0 6 = some (blockOf c, c) ∧ (running c).cmd 0 = some blockCmd ∧
    ownSlice 0 ((running c).pieces blockCmd .engWrite [.va c.addr bs.length]) = true ∧
    ∃ v n, (running c).engWrite blockCmd c.addr bs (fun _ _ => false) 0 = (v, n, .ok ()) := by
  refine ⟨by decide, by decide, by decide, _, _, rfl⟩

theorem witness_walks :
    (let s : State := (running (sc 8)).modDie 0 (fun d => d)
     ∃ v tg, s.checkIssue (s.dieAccess 0 (blockOf (sc 8)) .fetch 0x20000 4) = (v, .ok tg) ∧ isHbm tg.loc = true ∧ stackOf tg.loc = 0) ∧
    (blockOf (sc 8)).cursor = 0 ∧ (blockOf (sc 8)).preempting = false ∧
    (let b := { blockOf (sc 8) with cursor := 1 }
     let s := at_ (searchAt b true blockCmd) 1638400
     s.running 0 8 = some (b, sc 8) ∧ b.cursor ≠ 0 ∧ b.lastWalk + 1638400 ≤ s.now ∧
     ∀ p ∈ s.walkThreads 0 b.entry, p.2.stopped = false ∧ p.2.state ≠ .parked) :=
  ⟨⟨_, _, rfl, by decide, by decide⟩, by decide, by decide, by decide, by decide, by decide, by decide⟩

/-- What walkers send and leave; a block that gives way, and one that resumes. -/
def ctxOf (block : Nat) : WalkCtx := { stack := 0, block, cmd := 0, origin := 0, core := 0, team := 0, asid := 0 }
def walker (block : Nat) : Thread := { placedThread with walk := some (ctxOf block) }

theorem witness_walker_traffic :
    (let h : WalkMsg := walkMsg 2 0 0 0 (ctxOf 0)
     let s := lane1.modDie 0 (fun d => { d with hops := [h] })
     (s.die 0).hops.find? (fun h => !s.hopHeld h) = some h ∧ ∃ n, s.idleWalker 0 = some n) ∧
    (∀ block ∈ [0, 1],
      let m : WalkMsg := { walkMsg 1 0 3 511 (ctxOf 0) with body := [7] }
      let s : State := { lane1.modDie 0 (fun d => { d with sends := [m] }) with threads := [(.walk 511, walker block)] }
      (s.die (walkerStack 511)).sends.find? (fun m => m.dst = 511) = some m ∧ s.thread (.walk 511) = some (walker block) ∧
      m.src = 3 ∧ m.ctx = ctxOf 0 ∧ (decide (m.ctx.search = (ctxOf block).search) = decide (block = 0))) ∧
    (∀ live ∈ [1, 2],
      let b := { blockOf (sc 8) with walkLive := live }
      let s := (searchAt b true blockCmd).modDie 0 (fun d => { d with notices := [walkMsg 3 0 0 0 (ctxOf 63)] })
      (s.die 0).notices = walkMsg 3 0 0 0 (ctxOf 63) :: [] ∧
      ((s.modDie 0 (fun d => { d with notices := [] })).die 0).blocks.find? (fun b => b.entry = (walkMsg 3 0 0 0 (ctxOf 63)).ctx.block ∧ b.pos = (walkMsg 3 0 0 0 (ctxOf 63)).ctx.cmd) =
        some b ∧ b.walkLeft = 0) := by
  refine ⟨⟨by decide, _, rfl⟩, by decide, by decide⟩

theorem witness_preemption :
    (let high : Block := { blockOf (sc 0) with entry := 0, prio := 7 }
     let s := (running (sc 3)).modDie 0 (fun d => { d with blocks := d.blocks ++ [high] })
     (s.die 0).running = some 63 ∧ (s.die 0).blocks.find? (fun b => b.entry = 63) = some (blockOf (sc 3)) ∧ (s.die 0).saveLost = false ∧
     (s.die 0).higherWaits (blockOf (sc 3)).prio = true ∧ (s.modBlock 0 63 (fun b => { b with preempting := true })).walkThreads 0 63 = []) ∧
    (let s := (searchAt (blockOf (sc 3)) false blockCmd).modDie 0 (fun d => { d with preempted := [63] })
     (s.die 0).spilled = some (blockOf (sc 3)) ∧ (s.die 0).running = none ∧ (s.die 0).higherWaits (blockOf (sc 3)).prio = false) := by decide

/-! ### Witnesses: launch and placement -/

theorem snd_some {α β : Type} {p : α × Option β} (h : p.2.isSome = true) : ∃ v b, p = (v, some b) := by
  obtain ⟨a, o⟩ := p
  cases o with
  | none => cases h
  | some b => exact ⟨a, b, rfl⟩

/-- LaunchQueues: queue 63 of four slots in each state of the clauses, at the edges of its ring. -/
def queueState (r : LaunchQueue) : State := lane1.modQueue 63 (fun _ => r)
def queue4 : LaunchQueue := { size := 4, head := 2, done := 2, tail := 2, en := true }

theorem witness_queues :
    (((queueState { queue4 with en := false }).queue 63).en = false ∧ ((queueState { queue4 with stop := true }).queue 63).stop = true) ∧
    (∀ n ∈ [1, 2, 3, 4], ∀ tail ∈ [2, 0],
      let v : BitVec 17 := BitVec.ofNat 17 n
      let r := (queueState { queue4 with tail }).queue 63
      let occ := (r.tail + r.size - r.done) % Nat.max r.size 1
      let adv := (v.toNat + r.size - r.tail) % Nat.max r.size 1
      r.en = true ∧ r.stop = false ∧ (decide (r.size ≤ v.toNat) = decide (n = 4)) ∧
      (n ≠ 4 → decide (r.size ≤ occ + adv) = decide (tail = 0 ∧ n ≠ 1))) ∧
    ((queueState { queue4 with disabling := true }).queue 63).disabling = true ∧
    ((queueState { queue4 with disabling := true }).queue 63).done = ((queueState { queue4 with disabling := true }).queue 63).head ∧
    (let u := (queueState { queue4 with done := 0 }).modQueue 63 (fun r => if r.en then { r with disabling := true } else r)
     (u.queue 63).disabling = true ∧ (u.queue 63).done ≠ (u.queue 63).head) := by decide

/-- LaunchSteps: one record, with a table at PA 0x1000 that maps the first pages of the address space or is malformed. -/
def gridOf (k : RecKind) : Grid :=
  { kind := k, queue := 63, prio := 7, seq := 0, state := .translated, cls := 0, sup := true, teams := 1, nodes := 1, addr := 0x40, root := 0x1000,
    kernel := some { entry := 0, tile := 0, acc := 0, regs := 32, threads := 1, ext := 0, decls := [] } }
def recState (x : Grid) (ws : List Nat) : State :=
  let s := lane1.setFront { lane1.front with grids := [(9, x)] }
  s.setMem { s.mem with cells := cellPuts (cellPuts (cellPuts s.mem.cells 0x1000 (bytesOf 8 (ws.getD 0 0))) 0x2000 (bytesOf 8 (ws.getD 1 0))) 0x3000 (bytesOf 8 (ws.getD 2 0)) }
def mapped : List Nat := [0x2001, 0x3001, 0x17]

theorem witness_translation :
    ∀ x ∈ ([{ gridOf .grid with state := .checked, extents := [(0, { base := 0, len := 65536, write := true })] },
            { gridOf .grid with state := .held, retry := true, extents := [(0, { base := 0, len := 65536, write := true })] }] : List Grid),
      (∀ ws ∈ [mapped, [0x2081]], (recState x ws).grid 9 = some x ∧ (x.state = .checked ∨ (x.state = .held ∧ x.retry = true))) ∧
      (∃ v r es, (recState x mapped).scanAll x {} x.ranges = (v, r, es) ∧ r.err = none ∧ r.excess = none ∧ r.invalid = []) ∧
      (∃ v r es e, (recState x [0x2081]).scanAll x {} x.ranges = (v, r, es) ∧ r.err = some e) ∧
      (∃ v r es, (recState x []).scanAll x {} x.ranges = (v, r, es) ∧ r.err = none ∧ r.invalid ≠ []) := by
  intro x h
  simp only [List.mem_cons, List.not_mem_nil, or_false] at h
  rcases h with rfl | rfl <;> exact ⟨by decide, ⟨_, _, _, rfl, rfl, rfl, rfl⟩, ⟨_, _, _, _, rfl, rfl⟩, ⟨_, _, _, rfl, rfl, by decide⟩⟩

theorem foldl_isSome {α β : Type} {f : Option β → α → Option β} {r : α} (hk : ∀ b x, b.isSome = true → (f b x).isSome = true)
    (hr : ∀ b, (f b r).isSome = true) : ∀ (l : List α) (b : Option β), b.isSome = true ∨ r ∈ l → (l.foldl f b).isSome = true := by
  intro l
  induction l with
  | nil => intro b hb; simpa using hb
  | cons x xs ih =>
    intro b hb
    refine ih _ ?_
    rcases hb with hb | hb
    · exact .inl (hk b x hb)
    · rcases List.mem_cons.mp hb with rfl | hb
      · exact .inl (hr b)
      · exact .inr hb

/-- A core that fits a team is found, whatever the others hold. -/
theorem chooseSpot_isSome {rs : List Room} {k : Kernel} {cls : Nat} {r : Room} (h : r ∈ rs) (hf : (r.fit k cls).isSome = true) :
    (chooseSpot rs k cls).isSome = true := by
  rw [chooseSpot, Option.isSome_map]
  refine foldl_isSome (r := r) (fun b x hb => ?_) (fun b => ?_) rs none (.inr h)
  · split
    · exact hb
    · split
      · split <;> rfl
      · rfl
  · obtain ⟨p, hp⟩ := Option.isSome_iff_exists.mp hf
    split
    · rename_i hn; rw [hn] at hp; cases hp
    · split
      · split <;> rfl
      · rfl

theorem planGrid_one {rs : List Room} {k : Kernel} {cls : Nat} {r : Room} (h : r ∈ rs) (hf : (r.fit k cls).isSome = true) :
    ∃ ps, planGrid k cls 1 rs = some ps := by
  obtain ⟨p, hp⟩ := Option.isSome_iff_exists.mp (chooseSpot_isSome h hf)
  exact ⟨[p], by simp [planGrid, hp]⟩

/-- A cluster of most room is at least as good as cluster 0. -/
theorem planGang_one {rs : List Room} {k : Kernel} {cls : Nat} {r : Room} (h : r ∈ rs) (hc : r.core / 8 = 0) (hf : (r.fit k cls).isSome = true) :
    ∃ ps, planGang k cls 1 rs = some ps := by
  have hmax : ∀ (f : Nat → Nat) (l : List Nat) (b : Nat), f b ≤ f (l.foldl (fun b c => if f b < f c then c else b) b) := by
    intro f l
    induction l with
    | nil => intro b; exact Nat.le_refl _
    | cons c l ih =>
      intro b
      refine Nat.le_trans ?_ (ih _)
      by_cases hl : f b < f c <;> simp [hl]
      exact Nat.le_of_lt hl
  obtain ⟨p, hp⟩ := Option.isSome_iff_exists.mp hf
  have h0 : 1 ≤ ((rs.filter (fun r => r.core / 8 = 0)).filterMap (fun r => r.fit k cls)).length :=
    List.length_pos_of_mem (List.mem_filterMap.mpr ⟨r, List.mem_filter.mpr ⟨h, by simp [hc]⟩, hp⟩)
  have h1 := Nat.le_trans h0 (hmax (fun c => ((rs.filter (fun r => r.core / 8 = c)).filterMap (fun r => r.fit k cls)).length) (List.range 24) 0)
  exact ⟨_, by simp only [planGang]; exact if_pos h1⟩

theorem usable5 {s : State} (h : (s.core 5).fenced = false) : 5 ∈ s.usable := List.mem_filter.mpr ⟨by decide, by simp [h]⟩

def kernel1 : Kernel := { entry := 0, tile := 0, acc := 0, regs := 32, threads := 1, ext := 0, decls := [] }
theorem plan_grid (rs : List Room) : (gridOf .grid).plan rs = planGrid kernel1 0 1 rs := rfl
theorem plan_gang (rs : List Room) : (gridOf .gang).plan rs = planGang kernel1 0 1 rs := rfl

theorem witness_admission :
    (let x := { gridOf .grid with kernel := none }
     (recState x []).grid 9 = some x ∧ x.state = .translated ∧ (recState x []).hopeless x = true) ∧
    (let x := { gridOf .grid with cls := 2 }
     (recState x []).hopeless x = false ∧ x.atOnce = false) ∧
    (∀ k ∈ [RecKind.grid, .gang], (recState (gridOf k) []).hopeless (gridOf k) = false ∧ (gridOf k).atOnce = true ∧
      ∃ ps kn, (gridOf k).plan (recState (gridOf k) []).rooms = some ps ∧ (gridOf k).kernel = some kn) := by
  refine ⟨⟨by decide, rfl, by simp [State.hopeless, Grid.plan, gridOf, Grid.atOnce]⟩, ⟨rfl, rfl⟩, fun k h => ?_⟩
  have hu : ∀ k, 5 ∈ (recState (gridOf k) []).usable := fun k => usable5 rfl
  have hr : ∀ k, (recState (gridOf k) []).roomOf 5 ∈ (recState (gridOf k) []).rooms := fun k => List.mem_map_of_mem (hu k)
  have he : ∀ k, emptyRoom 5 ∈ (recState (gridOf k) []).usable.map emptyRoom := fun k => List.mem_map_of_mem (hu k)
  simp only [List.mem_cons, List.not_mem_nil, or_false] at h
  rcases h with rfl | rfl
  · obtain ⟨ps, hp⟩ := planGrid_one (k := kernel1) (cls := 0) (hr .grid) (by decide)
    obtain ⟨qs, hq⟩ := planGrid_one (k := kernel1) (cls := 0) (he .grid) (by decide)
    rw [← plan_grid] at hp hq
    exact ⟨by rw [State.hopeless, hq]; rfl, rfl, ps, _, hp, rfl⟩
  · obtain ⟨ps, hp⟩ := planGang_one (k := kernel1) (cls := 0) (hr .gang) rfl (by decide)
    obtain ⟨qs, hq⟩ := planGang_one (k := kernel1) (cls := 0) (he .gang) rfl (by decide)
    rw [← plan_gang] at hp hq
    exact ⟨by rw [State.hopeless, hq]; rfl, rfl, ps, _, hp, rfl⟩

theorem witness_other_records :
    (∀ k ∈ [RecKind.waitOn, .signal, .graph], (recState (gridOf k) mapped).grid 9 = some (gridOf k) ∧ (gridOf k).state = .translated) ∧
    ((withCore (recState (gridOf .graph) mapped) (fun c => { c with fenced := true })).core 0).fenced = true ∧
    (((recState (gridOf .graph) mapped).core 0).fenced = false ∧
      ∃ v bs, (recState (gridOf .graph) mapped).frontRead (gridOf .graph) 0x40 64 = (v, some bs)) ∧
    (let x := { gridOf .waitOn with state := .admitted }
     (recState x mapped).grid 9 = some x ∧ x.state = .admitted ∧ x.kind = .waitOn) ∧
    (let x := { gridOf .grid with state := .admitted, retired := 1 }
     (recState x mapped).grid 9 = some x ∧ x.state = .admitted ∧ (recState x mapped).workOver 9 x = true) :=
  ⟨by decide, by decide, ⟨by decide, snd_some (by decide +kernel)⟩, by decide, by decide⟩

/-- An admitted W grid with a team to place. -/
def wideGrid : Grid := { gridOf .grid with state := .admitted, cls := 2 }
theorem nextPlaced_wide : (recState wideGrid []).nextPlaced = some (9, wideGrid) := by decide

theorem witness_placement :
    ((∃ n g k p, (recState wideGrid []).nextTeam = some (n, g, k, p)) ∧ (recState wideGrid []).placeDue = true) ∧
    (let s : State := { place placedTeam [] with threads := [] }
     ∃ v, s.team (0, 0) = some v ∧ (v.saved = false ∨ v.ending.isSome = true) ∧ (v.saving = false ∨ v.ending.isSome = true) ∧
       v.ending.isSome = false ∧ s.threadsOf (0, 0) = [] ∧ s.outstanding (0, 0) = false) := by
  refine ⟨⟨?_, by decide⟩, _, rfl, by decide, by decide, by decide, by decide, by decide⟩
  have hr : (recState wideGrid []).roomOf 5 ∈ (recState wideGrid []).rooms := List.mem_map_of_mem (usable5 rfl)
  obtain ⟨p, hp⟩ := Option.isSome_iff_exists.mp (chooseSpot_isSome (k := kernel1) (cls := 2) hr (by decide))
  exact ⟨9, wideGrid, kernel1, p, by rw [State.nextTeam, nextPlaced_wide]; show (chooseSpot _ kernel1 2).map _ = _; rw [hp]; rfl⟩

/-! ### Witnesses: the host, the platform, failures -/

def withPlat (s : State) (f : Plat → Plat) : State := s.setPlat (f s.plat)
def withDom (s : State) (f : Domain → Domain) : State := s.setDom (f s.dom)

/-- HostPort: the last byte of the memory stacks and of the tiles, under a loaded and an empty slot; the first byte past them. -/
theorem witness_host_port :
    (State.reset.plat.off = false ∧ State.reset.plat.linkUp = true ∧ State.reset.plat.ready = true) ∧
    (∀ x ∈ [(2, Config.hbmEnd - 1, Config.hbmEnd - 1), (4, Config.cores * Config.sliceBytes - 1, Config.tileBase + Config.cores * Config.sliceBytes - 1)],
      ((x.1 = 2 ∧ x.2.1 + [(7 : Byte)].length ≤ Config.hbmEnd ∧ x.2.2 = x.2.1) ∨
        (x.1 = 4 ∧ x.2.1 + [(7 : Byte)].length ≤ Config.cores * Config.sliceBytes ∧ x.2.2 = Config.tileBase + x.2.1)) ∧
      State.reset.fencedLoc x.2.2 = false ∧ State.reset.hostKeyless x.2.2 = false) ∧
    (withPlat State.reset (fun p => { p with hkSlot := 63 })).hostKeyless (Config.hbmEnd - 1) = true ∧
    (∀ x ∈ [(2, Config.hbmEnd), (4, Config.cores * Config.sliceBytes)],
      (x.1 = 2 ∧ Config.hbmEnd < x.2 + [(7 : Byte)].length) ∨ (x.1 = 4 ∧ Config.cores * Config.sliceBytes < x.2 + [(7 : Byte)].length)) ∧
    (withPlat State.reset (fun p => { p with ready := false })).plat.ready = false ∧
    (withPlat State.reset (fun p => { p with linkUp := false })).plat.linkUp = false := by decide

/-- HostRegisters: locks open and taken, an error queue of no records acknowledged in place and past its tail, a report. -/
theorem witness_host_registers :
    (∀ b : Bool, (withPlat State.reset (fun p => { p with lkKseed := b })).plat.lkKseed = b ∧
      (withPlat State.reset (fun p => { p with domEn := b })).plat.domEn = b ∧ (withPlat State.reset (fun p => { p with atBusy := b })).plat.atBusy = b) ∧
    ((4 : DWord).getLsbD 2 = true ∧ (3 : DWord).getLsbD 2 = false) ∧
    (let e := State.reset.errs.queues.getD 3 {}
     ((0 : BitVec 32).toNat + 2 ^ 32 - e.head) % 2 ^ 32 ≤ (e.tail + 2 ^ 32 - e.head) % 2 ^ 32 ∧
     (e.tail + 2 ^ 32 - e.head) % 2 ^ 32 < ((1 : BitVec 32).toNat + 2 ^ 32 - e.head) % 2 ^ 32) ∧
    (let e := State.reset.errs
     ((0 : BitVec 16).toNat + 65536 - e.bqHead) % 65536 ≤ (e.bqTail + 65536 - e.bqHead) % 65536 ∧
     (e.bqTail + 65536 - e.bqHead) % 65536 < ((1 : BitVec 16).toNat + 65536 - e.bqHead) % 65536) ∧
    (let s := withPlat State.reset (fun p => { p with atBusy := true })
     s.plat.atBusy = true ∧ s.loc s.plat.attAddr = some 0 ∧ s.loc (s.plat.attAddr + 4096) = some 4096 ∧
     s.fencedLoc 0 = false ∧ s.fencedLoc 4096 = false) := by decide

/-- PowerAndResets: a sample over the limit and one well below it, each long after the last change; hot and cool dies. -/
theorem witness_power :
    (∀ x ∈ [(2001, 16), (1000, 15)],
      let s := at_ (withPlat State.reset (fun p => { p with pwFrac := x.2, lastFall := some 0, lastRise := some 0 })) 250000
      let sum := sumOf ((x.1 :: s.plat.samples).take 1000)
      let n := ((x.1 :: s.plat.samples).take 1000).length
      s.plat.off = false ∧ 1 ≤ s.plat.pwFrac ∧ s.plat.pwFrac ≤ 16 ∧ spaced s.plat.lastFall 25000 s.now = true ∧ spaced s.plat.lastRise 250000 s.now = true ∧
      (decide (s.plat.pwLim * n < sum) = decide (x.1 = 2001)) ∧ (decide (sum + 50 * n < s.plat.pwLim * n) = decide (x.1 = 1000)) ∧
      s.plat.hotDie = false ∧ 1 < s.plat.pwFrac ∧ (x.1 = 1000 → s.plat.pwFrac < 16)) ∧
    ((∃ x ∈ [116], 115 < x) ∧ (∀ x ∈ [115], x ≤ 115) ∧ (∀ x ∈ [105], x ≤ 105)) ∧ isHbm 0 = true ∧ isHbm Config.tileBase = false := by decide

/-- Failures: a location in a stack and one in a slice, poisoned or not; each unit fenced or not; a stop 1 ms ago or less. -/
theorem witness_failures :
    (State.reset.plat.off = false ∧ State.reset.loc 0 = some 0 ∧ State.reset.loc Config.tileBase = some Config.tileBase ∧
      isHbm 0 = true ∧ isTile 0 = false ∧ isTile Config.tileBase = true) ∧
    (∀ l ∈ [0, Config.tileBase], State.reset.mem.poison.contains (l / 64) = false ∧
      (State.reset.setMem { State.reset.mem with poison := [l / 64] }).mem.poison.contains (l / 64) = true) ∧
    (191 < Config.cores ∧ ((withCore State.reset (fun c => { c with fenced := true })).core 0).fenced = true) ∧
    (State.reset.plat.fsSlice.contains 191 = false ∧ State.reset.plat.fsFabric.contains 63 = false ∧ State.reset.plat.fsWalker.contains 511 = false) ∧
    (let s := withPlat State.reset (fun p => { p with fsSlice := [191], fsFabric := [63], fsWalker := [511], fsStack := [15] })
     s.plat.fsSlice.contains 191 = true ∧ s.plat.fsFabric.contains 63 = true ∧ s.plat.fsWalker.contains 511 = true ∧ s.plat.fsStack.contains 15 = true) ∧
    State.reset.plat.stopped = false ∧
    (∀ x ∈ [24999999, 25000000],
      let s := at_ (withPlat State.reset (fun p => { p with stopped := true })) x
      s.plat.stopped = true ∧ (decide (s.plat.stopAt + 25000000 ≤ s.now) = decide (x = 25000000))) := by decide

/-- DomainCoherence: locations that other devices may and may not reach, a fenced one, a line in each state. -/
theorem witness_domain_access :
    (State.reset.answers = true ∧ State.reset.dom.lost.contains 3 = false ∧ State.reset.loc (2 ^ 50) = none ∧
      State.reset.loc Config.ctlBase = some Config.ctlBase ∧ isHbm Config.ctlBase = false ∧ isTile Config.ctlBase = false) ∧
    (let a : Access := { core := Config.cores, team := (Config.cores, 0), unit := .core 0, asid := 0, root := 0, grid := none,
                         user := false, kind := .load, va := dw 0, size := 4, align := 4 }
     State.reset.loc 0 = some 0 ∧ isHbm 0 = true ∧ State.reset.checkHome a { loc := 0, key := 0 } = none ∧
     ∃ f, State.reset.checkHome a { loc := 0, key := 63 } = some f) ∧
    ((∃ n fl, atomNew .add .i32 1 2 = (some n, fl)) ∧ ∃ fl, atomNew .ld .i32 1 2 = (none, fl)) :=
  ⟨by decide, ⟨by decide, by decide, by decide, _, rfl⟩, ⟨_, _, rfl⟩, _, rfl⟩

theorem witness_domain_lines :
    ((3 : Nat) ≠ State.reset.dom.dev ∧ State.reset.dirEntry 9 = {} ∧ State.reset.dirCount < dirCapacity) ∧
    (let s := withDom State.reset (fun d => { d with held := [(9, true)] })
     s.answers = true ∧ s.dom.held.find 9 = some true) ∧
    (let s := State.reset.setDir 9 { ownerLost := true }
     s.answers = true ∧ (s.dirEntry 9).ownerLost = true) ∧
    (∀ x ∈ [49999, 50000],
      let s := at_ (State.reset.setDir 9 { owner := some 3, snooped := some 0 }) x
      s.answers = true ∧ (s.dirEntry 9).ownerLost = false ∧ (s.dirEntry 9).owner = some 3 ∧ (s.dirEntry 9).snooped = some 0 ∧
      (decide (0 + 50000 ≤ s.now) = decide (x = 50000))) ∧
    (State.reset.plat.fsPort.contains 17 = false ∧ (withPlat State.reset (fun p => { p with fsPort := [17] })).plat.fsPort.contains 17 = true) ∧
    (State.reset.dom.lost.contains 287 = false ∧ 287 ≠ State.reset.dom.dev) := by decide

/-- CollectiveRounds: a round of two devices that has contributed, with one contribution of its length; and no round. -/
def roundOp : CollOp := { group := 65535, round := 65535, op := 1, ty := some .f32, k := 0, tmo := 1, src := 0x10100, dst := 0x10200, count := 1, members := [0, 1] }
def roundCmd : Cmd := { copyCmd 0 with engine := .round 15, op := .coll roundOp, left := true, stage := 1, image := [0, 0, 0, 0] }

theorem witness_rounds :
    (let s := cmdState roundCmd
     s.rounds.find? (fun x => x.2.group = 65535 && x.2.round = 65535 && x.1.stage == 1) = some (roundCmd, roundOp) ∧
     [[(0 : Byte), 0, 0, 0]].length + 1 = roundOp.members.length ∧ (∀ b ∈ [[(0 : Byte), 0, 0, 0]], b.length = roundOp.bytes) ∧
     ([] : List (List Byte)).length + 1 ≠ roundOp.members.length) ∧
    (let u := (cmdState roundCmd).setDom { (cmdState roundCmd).dom with aborted := (cmdState roundCmd).dom.aborted.put 65535 (65535, 0x0D01, 3) }
     u.rounds.find? (fun x => x.2.group = 65535 && x.2.round = 65535 && decide (x.1.stage ≤ 1)) = some (roundCmd, roundOp) ∧
     u.rounds.find? (fun x => x.2.group = 0 && x.2.round = 0 && decide (x.1.stage ≤ 1)) = none) := by decide

/-! ### Witnesses: frames and the whole machine -/

/-- LaneFrame: `add.i32` on two lanes; UniformFrame: a U-form result in k63. -/
theorem witness_lane_frame : ∃ s' ls, LaneReady lane2 (shape2 (.reg 127) (.reg 5) (.reg 6)) s' ls ∧ (ls.map (·.who)).Nodup ∧ ls.length = 2 ∧
    exec (.addI32 (.reg 127) (.reg 5) (.reg 6)) lane2 =
      .next (lane2.eachDone s' (shape2 (.reg 127) (.reg 5) (.reg 6)) ls (fun _ l => gives (l.w 0 + l.w 1))) := by
  refine ⟨_, _, ready_at (by decide) rfl, by decide, by decide, ?_⟩
  exact runPure_next (ready_at (by decide) rfl) _ (fun _ => ⟨rfl, rfl⟩)

theorem witness_uniform_frame : ∃ s' vs k, UReady lane2 [.k 62] (some (.k 63)) s' vs ∧ ({} : UOut).fault = none ∧ ({} : UOut).next ≠ .gone ∧
    lane2.sys.issue.runAhead = none ∧ lane2.skein lane2.sys.issue.core lane2.sys.issue.ctx = some k :=
  ⟨_, _, _, uready_at (by decide) rfl, rfl, by decide, rfl, rfl⟩

/-- LaneFrame and UniformFrame of a machine that the acts have changed: one lane's result in v127 and another's block. -/
theorem witness_changed_frame :
    (let u := lane2.setBound false 0 3 9
     let l (n : Nat) : LaneIn := { lane := n, who := .lane 0 0 n, t := (thr []), vals := [] }
     let rs : List (LaneIn × LaneOut) := [(l 0, gives 5), (l 1, { next := .stay, block := some (.bar 0) })]
     u.sys.issue = lane2.sys.issue ∧ (u.skein lane2.sys.issue.core lane2.sys.issue.ctx).isSome = true ∧ (rs.map (·.1.who)).Nodup ∧
     (∀ r ∈ rs, r.2.fault = none ∧ r.2.page = none ∧ r.2.next ≠ .gone ∧ r.2.known = true ∧ (u.thread r.1.who).any (fun t => decide (127 < t.holding)) = true) ∧
     (∃ th, u.thread (.lane 0 0 1) = some th ∧ Who.lane 0 0 1 ∉ ([(l 0, gives 5)] : List (LaneIn × LaneOut)).map (·.1.who))) :=
  ⟨rfl, by decide, by decide, by decide, _, rfl, by decide⟩

/-- StepRunsDecoded: a due step, nothing left to do, and a turn whose gang fetches an instruction that its core accepts, one of
a walker core, or a reserved encoding. -/
def fetching (w1 w2 : Nat) : State := State.reset.placeLane (bytesOf 4 w1 ++ bytesOf 4 w2)

def turnFinds (s : State) (want1 want2 : Word) (ok accepted : Bool) : Bool :=
  match s.sys.turns with
  | [] => false
  | (core, pipe) :: ts =>
    let u := s.setSys { s.sys with turns := ts }
    match u.cands core pipe with
    | [] => false
    | k :: _ =>
      let lanes := gangLanes k.gang none
      let v := u.noteSelection core pipe ((u.cands core pipe).map (·.ctx)) k.ctx
      let v := if u.candU k then v.modCore core (fun c => { c with uniformClk := v.now + 1 }) else v
      let v := v.passOver k.sets k.gang
      let w := v.setSys { v.sys with issue := { core, ctx := k.ctx, lanes, pc := k.pc, runAhead := none } }
      let w := lanes.foldl (fun (s : State) l => s.modThread l.2 (fun t => t.issued s.now)) w
      gangRuns k.gang == [none] && core < Config.cores && s.sys.agenda.isEmpty && (!u.candU k || u.uniformGrants core k) &&
      (match w.fetchInstr with
       | (x, some (w1, w2)) => w1 == want1 && w2 == want2 && kindAccepts x.leader w1 w2 == accepted &&
           (match decode w1 w2 with
            | .ok _ => ok
            | .error _ => !ok)
       | (_, none) => false)

theorem witness_turns :
    (let s := State.reset.due [.hostLinkRetrained]
     s.sys.agenda = .hostLinkRetrained :: []) ∧
    (let s := (withPlat State.reset (fun p => { p with stopped := true })).due [.teamPlacement]
     s.sys.agenda = .teamPlacement :: [] ∧ s.plat.stopped = true ∧ Due.outside .teamPlacement = false ∧ Due.outside .hostLinkRetrained = true) ∧
    (State.reset.sys.agenda = [] ∧ State.reset.sys.turns = [] ∧ State.reset.live = true) ∧
    turnFinds (fetching 0x00040405 0) 0x00040405 0 true true = true ∧
    turnFinds (fetching 0x71000300 0x03000000) 0x71000300 0x03000000 true false = true ∧
    turnFinds (fetching 0x49FFFFFF 0) 0x49FFFFFF 0 false true = true := by decide

theorem witness_fetch :
    let s := fetching 0x00040405 0
    ∃ v tg, s.reach (.lane 0 0 0) (s.laneAccess (.lane 0 0 0) .fetch (dw placeVa) 4 4) = (v, .ok tg) ∧
      (∀ p ∈ v.mem.stores, p.who ≠ .lane 0 0 0) ∧ v.mem.hist.find? (·.on (tg.loc / 8 * 8) 8) = none ∧ v.walkBlock (.lane 0 0 0) = none :=
  ⟨_, _, rfl, by decide, by decide, by decide⟩

/-- EncodingRoundTrip: a one-word and a two-word instruction. -/
theorem witness_encoding :
    (∃ ws, (Instr.addI32 (.reg 127) (.pop 31) (.reg 126)).wf = true ∧ encode (.addI32 (.reg 127) (.pop 31) (.reg 126)) = some ws) ∧
    (∃ ws, (Instr.wHop (.reg 3)).wf = true ∧ encode (.wHop (.reg 3)) = some ws) := ⟨⟨_, by decide, rfl⟩, ⟨_, by decide, rfl⟩⟩

/-- EveryStepKeepsSound: the machine right after reset, and what its first step leaves. -/
theorem witness_sound : State.reset.Sound ∧ ∃ t, step State.reset = .next t := ⟨⟨by decide, by decide, by decide⟩, _, rfl⟩

/-- DrawTimer: a lane's write of `$drawtime`; a team below supervisor level. -/
theorem witness_draw_timer :
    (let sp : LaneSpec := { srcs := [(.reg 5, false)], check := fun s w _ => srWriteFail s (s.teamIdOf w) 0x13 }
     ∃ s' l, SoloReady lane1 sp s' l) ∧ user1.isSup user1.issueTeam = false ∧ user1.ahead = false :=
  ⟨⟨_, _, solo_at (by decide) rfl⟩, by decide, by decide⟩

end Sys2Proof.Tests
end

section
/-!
The special register `$drawtime` (R43): what its read, its write and the checks of both answer, and that the instructions `wrs`
and `wrsr` go through them.
-/
namespace Sys2Proof.Machine

/-! ### The level that accesses to `$drawtime` need -/

/-- Every level reads `$drawtime`. -/
theorem srReadFail_drawtime (s : State) (t : TeamId) (b : Bool) : srReadFail s t 0x13 b = none := rfl

/-- A write of `$drawtime` needs supervisor level (R43). -/
theorem srWriteFail_drawtime (s : State) (t : TeamId) :
    srWriteFail s t 0x13 = if s.isSup t then none else some { code := 0x1002 } := by
  cases h : s.isSup t <;> simp [srWriteFail, srSupervisor, h]

/-! ### The value that a write stores -/

/-- `$drawtime` after a write of a value whose writable bits are n: the floor of R43. -/
def drawtimeFloor (n : Nat) : Nat := if n < 16 then 16 else n

theorem max_eq_drawtimeFloor (n : Nat) : Nat.max 16 n = drawtimeFloor n := by
  unfold drawtimeFloor
  split
  case isTrue hlt => exact Nat.max_eq_left (Nat.le_of_lt hlt)
  case isFalse hge => exact Nat.max_eq_right (Nat.le_of_not_lt hge)

theorem le_drawtimeFloor (n : Nat) : 16 ≤ drawtimeFloor n := by
  rw [← max_eq_drawtimeFloor]
  exact Nat.le_max_left 16 n

theorem drawtimeFloor_le {n m : Nat} (hm : 16 ≤ m) (hn : n ≤ m) : drawtimeFloor n ≤ m := by
  rw [← max_eq_drawtimeFloor]
  exact Nat.max_le.2 ⟨hm, hn⟩

/-- The core of the writing team takes the new draw timer on the next clk (R293); nothing else changes. -/
theorem writeSr_drawtime (s : State) (w : Who) (rank : Nat) (v : DWord) :
    s.writeSr w rank 0x13 v = s.modCore (s.teamIdOf w).1
      (fun c => { c with drawtimeNew := some (drawtimeFloor (v.toNat % 65536)) }) := by
  rw [← max_eq_drawtimeFloor]
  rfl

/-- The writing team's core, once `$drawtime` has been written. -/
theorem core_writeSr_drawtime (s : State) (w : Who) (rank : Nat) (v : DWord) :
    (s.writeSr w rank 0x13 v).core (s.teamIdOf w).1 =
      { s.core (s.teamIdOf w).1 with drawtimeNew := some (drawtimeFloor (v.toNat % 65536)) } := by
  rw [writeSr_drawtime, State.core_modCore]

/-! ### The instructions -/

/-- A gang that is ready to act is no run-ahead. -/
theorem LaneReady.ahead_eq_false {s s' : State} {sp : LaneSpec} {ls : List LaneIn} (h : LaneReady s sp s' ls) :
    s.ahead = false := by
  simp [State.ahead, h.plain]

/-- Outside a run-ahead `wrs` writes its special register lane by lane. -/
theorem execWrs_of_not_ahead {s : State} (sr : BitVec 8) (a : Src) (h : s.ahead = false) :
    execWrs sr a s = .next (s.runSeq { srcs := [(a, false)], check := fun s w _ => srWriteFail s (s.teamIdOf w) sr.toNat }
      (fun s l => (s.writeSr l.who (whoTid l.who + 1) sr.toNat ((l.w 0).setWidth 64), {}))) := by
  simp [execWrs, h]

/-- Outside a run-ahead `wrsr` raises the failure of its register's check before it reads any operand (R430). -/
theorem execWrsr_of_srWriteFail {s : State} (sr : BitVec 8) (a : USrc) {f : Fail} (h : s.ahead = false)
    (hf : srWriteFail s s.issueTeam sr.toNat = some f) : execWrsr sr a s = .next (s.gangRaise f) := by
  simp [execWrsr, h, hf]

/-- Settles O60, from what a read, a write and their checks answer for the register's number, and the two instructions. -/
theorem drawTimer : Obligations.DrawTimer := by
  unfold Obligations.DrawTimer
  refine ⟨fun _ => rfl, fun s w => ⟨rfl, srReadFail_drawtime s _⟩, fun s w rank v => ?write, fun s t hsup => ?allowed,
    fun s t huser => ?refused, fun s s' t ls os a sr hsr => ?wrs, fun s a huser hah => ?wrsr⟩
  case write =>
    dsimp only
    have hbits : v.toNat % 65536 ≤ 65535 := Nat.le_of_lt_succ (Nat.mod_lt _ (by decide))
    rw [core_writeSr_drawtime]
    exact ⟨writeSr_drawtime s w rank v, rfl, rfl, le_drawtimeFloor _, drawtimeFloor_le (by decide) hbits⟩
  case allowed => simp [srWriteFail_drawtime, hsup]
  case refused => simp [srWriteFail_drawtime, huser]
  case wrs =>
    subst hsr
    intro sp hready hturns
    calc exec (.wrs 0x13 a) s
      _ = _ := execWrs_of_not_ahead 0x13 a hready.ahead_eq_false
      _ = _ := runSeq_each hready hturns _ fun _ _ _ _ ⟨hv, ho⟩ => turn_ok hv ho rfl rfl rfl
  case wrsr =>
    have hfail : srWriteFail s s.issueTeam 0x13 = some { code := 0x1002 } := by simp [srWriteFail_drawtime, huser]
    exact execWrsr_of_srWriteFail 0x13 a hah hfail

end Sys2Proof.Machine
end

section
/-!
The three shifts by every amount (R168): what the two operand shapes of one-word integer instructions leave behind, and the shift
of an immediate amount.
-/
namespace Sys2Proof.Machine

/-- A ready gang of an instruction with one 32-bit source and a 32-bit result `g`. -/
theorem lane1_next {s s' : State} {d : Dst} {a : Src} {ls : List LaneIn} (h : LaneReady s (shape1 d a) s' ls)
    {f : Word → Word} (g : Word → Word) (hfg : ∀ x, f x = g x) :
    (Host.Outcome.next (s.lane1 d a f) : Host.Outcome State Fault Refusal) =
      .next (s.eachDone s' (shape1 d a) ls (fun _ l => gives (g (l.w 0)))) := by
  obtain rfl : f = g := funext hfg
  exact runPure_next h _ fun _ => ⟨rfl, rfl⟩

/-- A ready gang of an instruction with two 32-bit sources and a 32-bit result `g`. -/
theorem lane2_next {s s' : State} {d : Dst} {a b : Src} {ls : List LaneIn} (h : LaneReady s (shape2 d a b) s' ls)
    {f : Word → Word → Word} (g : Word → Word → Word) (hfg : ∀ x y, f x y = g x y) :
    (Host.Outcome.next (s.lane2 d a b f) : Host.Outcome State Fault Refusal) =
      .next (s.eachDone s' (shape2 d a b) ls (fun _ l => gives (g (l.w 0) (l.w 1)))) := by
  obtain rfl : f = g := funext fun x => funext (hfg x)
  exact runPure_next h _ fun _ => ⟨rfl, rfl⟩

/-- An immediate amount never reaches 32, so it needs no clamp to 31. -/
theorem sshiftRight_imm (x : Word) (n : BitVec 5) : x.sshiftRight n.toNat = x.sshiftRight (Nat.min n.toNat 31) := by
  rw [show Nat.min n.toNat 31 = n.toNat from Nat.min_eq_left (Nat.le_of_lt_succ n.isLt)]

/-! ### The instructions -/

section
variable (d : Dst) (a b : Src) (n : BitVec 5) (s : State)

theorem exec_shl : exec (.shl d a b) s = .next (s.lane2 d a b fun x y => x <<< y.toNat) := rfl
theorem exec_shr : exec (.shr d a b) s = .next (s.lane2 d a b fun x y => x >>> y.toNat) := rfl
theorem exec_sra : exec (.sra d a b) s = .next (s.lane2 d a b shiftArith) := rfl
theorem exec_shlImm : exec (.shlImm d a n) s = .next (s.lane1 d a fun x => x <<< n.toNat) := rfl
theorem exec_shrImm : exec (.shrImm d a n) s = .next (s.lane1 d a fun x => x >>> n.toNat) := rfl
theorem exec_sraImm : exec (.sraImm d a n) s = .next (s.lane1 d a fun x => x.sshiftRight n.toNat) := rfl

end

/-- Settles O58, from the operand shape of each form and the three laws of shifts by every amount. -/
theorem shiftAmounts : Obligations.ShiftAmounts := by
  unfold Obligations.ShiftAmounts
  intro d a b n s s' ls left right arith
  refine ⟨fun hready => ⟨?shl, ?shr, ?sra⟩, fun hready => ⟨?shlImm, ?shrImm, ?sraImm⟩⟩
  case shl => exact (exec_shl d a b s).trans <| lane2_next hready (fun x y => left x y.toNat) fun x y => left_eq x y.toNat
  case shr => exact (exec_shr d a b s).trans <| lane2_next hready (fun x y => right x y.toNat) fun x y => right_eq x y.toNat
  case sra => exact (exec_sra d a b s).trans <| lane2_next hready (fun x y => arith x y.toNat) fun x y => arith_eq x y.toNat
  case shlImm => exact (exec_shlImm d a n s).trans <| lane1_next hready (fun x => left x n.toNat) fun x => left_eq x n.toNat
  case shrImm => exact (exec_shrImm d a n s).trans <| lane1_next hready (fun x => right x n.toNat) fun x => right_eq x n.toNat
  case sraImm => exact (exec_sraImm d a n s).trans <| lane1_next hready (fun x => arith x n.toNat) fun x =>
      (sshiftRight_imm x n).trans (arith_eq x n.toNat)

end Sys2Proof.Machine
end

section
/-!
Integer division and remainder (R172): an unpacked element-wise instruction of two sources, and what the quotient and the
remainder are on every pair of elements.
-/
namespace Sys2Proof.Machine

/-! ### Unpacked element-wise instructions -/

/-- With no packing the operation acts on element 0 of each source alone. -/
theorem eachElem_one {f : Fmt} (hpk : f.pk = .one) (signed : Bool) (vs : List DWord) (op : List Nat → Nat × Flags) :
    eachElem f signed vs op =
      (dw (extendTo32 signed f.ty.bits (op (vs.map fun v => elemAt f.ty.bits v 0)).1),
       (op (vs.map fun v => elemAt f.ty.bits v 0)).2) := by
  simp [eachElem, hpk, Pack.count]

/-- A ready gang of an unpacked instruction that computes `g` of the elements of its two sources in every rounding mode. -/
theorem elementwise_one_next {f : Fmt} {s s' : State} {d : Dst} {srcs : List Src} {ls : List LaneIn} (hpk : f.pk = .one)
    (h : LaneReady s (shapeTy f.ty d srcs) s' ls) (signed : Bool) {op : RMode → List Nat → Nat × Flags}
    {g : Nat → Nat → Nat × Flags} (hop : ∀ m xs, op m xs = g (xs.getD 0 0) (xs.getD 1 0)) :
    (Host.Outcome.next (s.elementwise f signed d srcs op) : Host.Outcome State Fault Refusal) =
      .next (s.eachDone s' (shapeTy f.ty d srcs) ls (fun _ l =>
        { res := some (dw (extendTo32 signed f.ty.bits (g (elemAt f.ty.bits (l.v 0) 0) (elemAt f.ty.bits (l.v 1) 0)).1)),
          fl := (g (elemAt f.ty.bits (l.v 0) 0) (elemAt f.ty.bits (l.v 1) 0)).2 })) := by
  simp only [State.elementwise, eachElem_one hpk, hop, elem_get]
  exact runPure_next h _ fun _ => ⟨rfl, rfl⟩

/-- An integer type has no floating-point format. -/
theorem tyFmt_of_isInt {t : Ty} (h : t.isInt = true) : tyFmt t = none := by
  revert h
  cases t <;> simp [Ty.isInt, tyFmt]

/-! ### Quotients and remainders (R172) -/

theorem intDiv_zero_right (t : Ty) (x : Nat) : intDiv t x 0 = (2 ^ t.bits - 1, flDZ) :=
  if_pos ((div_ok t x 0 (Nat.two_pow_pos _)).2 rfl)

theorem intRem_zero_right (t : Ty) (x : Nat) : intRem t x 0 = (x, flDZ) :=
  if_pos ((div_ok t x 0 (Nat.two_pow_pos _)).2 rfl)

theorem intDiv_of_ne_zero {t : Ty} {y : Nat} (x : Nat) (hy : intVal t y ≠ 0) :
    intDiv t x y = (wrapTo t.bits ((intVal t x).tdiv (intVal t y)), 0) := if_neg hy

/-- The remainder is what the truncated quotient leaves of the dividend. -/
theorem intRem_of_ne_zero {t : Ty} {y : Nat} (x : Nat) (hy : intVal t y ≠ 0) :
    intRem t x y = (wrapTo t.bits (intVal t x - (intVal t x).tdiv (intVal t y) * intVal t y), 0) := by
  rw [Int.mul_comm, ← Int.tmod_def]
  exact if_neg hy

/-! ### The most negative dividend over −1 -/

/-- An element that stands in its width wraps to itself. -/
theorem wrapTo_natCast {w n : Nat} (h : n < 2 ^ w) : wrapTo w n = n := by
  rw [wrapTo, ← Int.natCast_emod, Int.toNat_natCast, Nat.mod_eq_of_lt h]

/-- The sign bit's weight stands in the width. -/
theorem two_pow_pred_bits_lt (t : Ty) : 2 ^ (t.bits - 1) < 2 ^ t.bits := by
  cases t <;> decide

theorem intVal_min {t : Ty} (h : t.isSigned = true) : intVal t (2 ^ (t.bits - 1)) = -((2 ^ (t.bits - 1) : Nat) : Int) := by
  revert h
  cases t <;> decide

theorem intVal_allOnes {t : Ty} (h : t.isSigned = true) : intVal t (2 ^ t.bits - 1) = -1 := by
  revert h
  cases t <;> decide

theorem intDiv_min_allOnes {t : Ty} (h : t.isSigned = true) :
    intDiv t (2 ^ (t.bits - 1)) (2 ^ t.bits - 1) = (2 ^ (t.bits - 1), 0) := by
  have hone := intVal_allOnes h
  rw [intDiv_of_ne_zero _ (by rw [hone]; decide), intVal_min h, hone, Int.neg_tdiv_neg, Int.tdiv_one,
    wrapTo_natCast (two_pow_pred_bits_lt t)]

theorem intRem_min_allOnes {t : Ty} (h : t.isSigned = true) :
    intRem t (2 ^ (t.bits - 1)) (2 ^ t.bits - 1) = (0, 0) := by
  have hone := intVal_allOnes h
  rw [intRem_of_ne_zero _ (by rw [hone]; decide), intVal_min h, hone, Int.neg_tdiv_neg, Int.tdiv_one]
  simp [wrapTo]

/-! ### The instructions -/

/-- Integer `div` and `rem` accept no `.sat` (R172). -/
theorem not_sat_of_wf_div_or_rem {f : Fmt} {d : Dst} {a b : Src} (hint : f.ty.isInt = true)
    (hwf : (Instr.div f d a b).wf = true ∨ (Instr.rem f d a b).wf = true) : f.rc.sat = false := by
  have hzero : f.rc.isZero = true := by
    rcases hwf with hwf | hwf <;> simp_all [Instr.wf, arith3]
  simp_all [Rc.isZero]

/-- Settles O59 with the model's own quotient and remainder: the unpacked instructions compute them, and each clause about
a pair of elements is a law of the two. -/
theorem divisionAndRemainder : Obligations.DivisionAndRemainder := by
  unfold Obligations.DivisionAndRemainder
  intro f d a b s s' ls hint
  refine ⟨not_sat_of_wf_div_or_rem hint, intDiv f.ty, intRem f.ty, fun hpk hready => ⟨?div, ?rem⟩, fun x y hx hy => ?pairs⟩
  case div =>
    refine elementwise_one_next hpk hready _ fun m xs => ?_
    simp only [tyFmt_of_isInt hint]
  case rem => exact elementwise_one_next hpk hready _ fun _ _ => rfl
  case pairs =>
    rw [← intVal_eq f.ty x hx, ← intVal_eq f.ty y hy]
    refine ⟨?zeroDivisor, ?quotient, ?mostNegative⟩
    case zeroDivisor =>
      rintro rfl
      exact ⟨intDiv_zero_right f.ty x, intRem_zero_right f.ty x⟩
    case quotient =>
      intro hne
      have hval : intVal f.ty y ≠ 0 := mt (div_ok f.ty x y hy).1 hne
      rw [intDiv_of_ne_zero x hval, intRem_of_ne_zero x hval]
      exact ⟨rfl, rfl, wrapTo_cast _ _, wrapTo_cast _ _⟩
    case mostNegative =>
      rintro hsigned rfl rfl
      exact ⟨intDiv_min_allOnes hsigned, intRem_min_allOnes hsigned⟩

end Sys2Proof.Machine
end

section
/-!
Decoding what an instruction encodes to (R134, R137 to R151): one case for each row of the opcode table that has an encoding, by
that instruction's own lemma; a device step has none.
-/
namespace Sys2Proof.Laws

theorem statement_of_instr (i : Instr) : RoundTrip.Statement i := by
  cases i with
  | addI32 d a b => exact RoundTrip.addI32 d a b
  | subI32 d a b => exact RoundTrip.subI32 d a b
  | mulI32 d a b => exact RoundTrip.mulI32 d a b
  | mulhI32 d a b => exact RoundTrip.mulhI32 d a b
  | minI32 d a b => exact RoundTrip.minI32 d a b
  | maxI32 d a b => exact RoundTrip.maxI32 d a b
  | and d a b => exact RoundTrip.and d a b
  | or d a b => exact RoundTrip.or d a b
  | xor d a b => exact RoundTrip.xor d a b
  | not d a => exact RoundTrip.not d a
  | shl d a b => exact RoundTrip.shl d a b
  | shr d a b => exact RoundTrip.shr d a b
  | sra d a b => exact RoundTrip.sra d a b
  | mov d a => exact RoundTrip.mov d a
  | clz d a => exact RoundTrip.clz d a
  | popc d a => exact RoundTrip.popc d a
  | addI32Imm d a i => exact RoundTrip.addI32Imm d a i
  | andImm d a i => exact RoundTrip.andImm d a i
  | orImm d a i => exact RoundTrip.orImm d a i
  | xorImm d a i => exact RoundTrip.xorImm d a i
  | shlImm d a i => exact RoundTrip.shlImm d a i
  | shrImm d a i => exact RoundTrip.shrImm d a i
  | sraImm d a i => exact RoundTrip.sraImm d a i
  | movi d i => exact RoundTrip.movi d i
  | movhi d i => exact RoundTrip.movhi d i
  | movk d k m => exact RoundTrip.movk d k m
  | ctz d a => exact RoundTrip.ctz d a
  | bitrev d a => exact RoundTrip.bitrev d a
  | rds d r => exact RoundTrip.rds d r
  | wrs r a => exact RoundTrip.wrs r a
  | pmovFromReg n a => exact RoundTrip.pmovFromReg n a
  | pmovToReg d n => exact RoundTrip.pmovToReg d n
  | pmovPred n m => exact RoundTrip.pmovPred n m
  | pnot n m => exact RoundTrip.pnot n m
  | addF32 d a b => exact RoundTrip.addF32 d a b
  | subF32 d a b => exact RoundTrip.subF32 d a b
  | mulF32 d a b => exact RoundTrip.mulF32 d a b
  | divF32 d a b => exact RoundTrip.divF32 d a b
  | minF32 d a b => exact RoundTrip.minF32 d a b
  | maxF32 d a b => exact RoundTrip.maxF32 d a b
  | sqrtF32 d a => exact RoundTrip.sqrtF32 d a
  | rsqrtF32 d a => exact RoundTrip.rsqrtF32 d a
  | rcpF32 d a => exact RoundTrip.rcpF32 d a
  | exp2F32 d a => exact RoundTrip.exp2F32 d a
  | log2F32 d a => exact RoundTrip.log2F32 d a
  | sinF32 d a => exact RoundTrip.sinF32 d a
  | cosF32 d a => exact RoundTrip.cosF32 d a
  | tanhF32 d a => exact RoundTrip.tanhF32 d a
  | fclassF32 d a => exact RoundTrip.fclassF32 d a
  | absF32 d a => exact RoundTrip.absF32 d a
  | lperm d a b => exact RoundTrip.lperm d a b
  | lrot d a o => exact RoundTrip.lrot d a o
  | lxor d a o => exact RoundTrip.lxor d a o
  | lbcast d a o => exact RoundTrip.lbcast d a o
  | lballot d a => exact RoundTrip.lballot d a
  | lmatch d a => exact RoundTrip.lmatch d a
  | pand n m q => exact RoundTrip.pand n m q
  | por n m q => exact RoundTrip.por n m q
  | pxor n m q => exact RoundTrip.pxor n m q
  | accRead d a => exact RoundTrip.accRead d a
  | accWrite a b => exact RoundTrip.accWrite a b
  | cardNext d p => exact RoundTrip.cardNext d p
  | cardFeed n a b => exact RoundTrip.cardFeed n a b
  | crc d a b => exact RoundTrip.crc d a b
  | absdI32 d a b => exact RoundTrip.absdI32 d a b
  | mulhN32 d a b => exact RoundTrip.mulhN32 d a b
  | br p o => exact RoundTrip.br p o
  | call p o => exact RoundTrip.call p o
  | ret => exact RoundTrip.ret
  | jr a => exact RoundTrip.jr a
  | calr a => exact RoundTrip.calr a
  | switch a i => exact RoundTrip.switch a i
  | converge => exact RoundTrip.converge
  | reform => exact RoundTrip.reform
  | spawn d a b => exact RoundTrip.spawn d a b
  | exit => exact RoundTrip.exit
  | trap n => exact RoundTrip.trap n
  | brk n => exact RoundTrip.brk n
  | yield => exact RoundTrip.yield
  | sleep n => exact RoundTrip.sleep n
  | gwait d a => exact RoundTrip.gwait d a
  | gwaitPoll d a => exact RoundTrip.gwaitPoll d a
  | phase s => exact RoundTrip.phase s
  | arrive d n => exact RoundTrip.arrive d n
  | wait n b => exact RoundTrip.wait n b
  | barOwe d n b => exact RoundTrip.barOwe d n b
  | barTest p n b => exact RoundTrip.barTest p n b
  | hankPush p a b => exact RoundTrip.hankPush p a b
  | hankPop d a p => exact RoundTrip.hankPop d a p
  | hankPopWait d a p => exact RoundTrip.hankPopWait d a p
  | hankSteal d a p => exact RoundTrip.hankSteal d a p
  | hankSize d a => exact RoundTrip.hankSize d a
  | boundMin a n v i => exact RoundTrip.boundMin a n v i
  | boundMinSet a n v i => exact RoundTrip.boundMinSet a n v i
  | boundMax a n v i => exact RoundTrip.boundMax a n v i
  | boundMaxSet a n v i => exact RoundTrip.boundMaxSet a n v i
  | boundGet d v i => exact RoundTrip.boundGet d v i
  | regclaim n => exact RoundTrip.regclaim n
  | regrel n => exact RoundTrip.regrel n
  | chpoll d c => exact RoundTrip.chpoll d c
  | wSend a b => exact RoundTrip.wSend a b
  | wRecv d => exact RoundTrip.wRecv d
  | sadd d a b => exact RoundTrip.sadd d a b
  | ssub d a b => exact RoundTrip.ssub d a b
  | sand d a b => exact RoundTrip.sand d a b
  | sor d a b => exact RoundTrip.sor d a b
  | sxor d a b => exact RoundTrip.sxor d a b
  | sshl d a b => exact RoundTrip.sshl d a b
  | sshr d a b => exact RoundTrip.sshr d a b
  | smov d a => exact RoundTrip.smov d a
  | smovi d i => exact RoundTrip.smovi d i
  | smovh d i => exact RoundTrip.smovh d i
  | sbr c k o => exact RoundTrip.sbr c k o
  | rdsr d r => exact RoundTrip.rdsr d r
  | wrsr r a => exact RoundTrip.wrsr r a
  | barInit n a k => exact RoundTrip.barInit n a k
  | hankInit a b => exact RoundTrip.hankInit a b
  | chbind c a => exact RoundTrip.chbind c a
  | chfree c => exact RoundTrip.chfree c
  | guardSet g a => exact RoundTrip.guardSet g a
  | mxAcquire => exact RoundTrip.mxAcquire
  | mxRelease => exact RoundTrip.mxRelease
  | mxIssue a => exact RoundTrip.mxIssue a
  | accAlloc d a => exact RoundTrip.accAlloc d a
  | accFree a => exact RoundTrip.accFree a
  | accZero a => exact RoundTrip.accZero a
  | accDrain a b => exact RoundTrip.accDrain a b
  | accPack a b => exact RoundTrip.accPack a b
  | xfer d a b => exact RoundTrip.xfer d a b
  | xferMc d a b => exact RoundTrip.xferMc d a b
  | bufDecl a => exact RoundTrip.bufDecl a
  | bufSet n k => exact RoundTrip.bufSet n k
  | cardOpenX a => exact RoundTrip.cardOpenX a
  | cardOpenM a => exact RoundTrip.cardOpenM a
  | cardSplit a => exact RoundTrip.cardSplit a
  | cardSave a => exact RoundTrip.cardSave a
  | cardRestore a => exact RoundTrip.cardRestore a
  | cardClose => exact RoundTrip.cardClose
  | sfUnbind a => exact RoundTrip.sfUnbind a
  | ctxsave d a b => exact RoundTrip.ctxsave d a b
  | ctxload d a b => exact RoundTrip.ctxload d a b
  | tsync => exact RoundTrip.tsync
  | replay => exact RoundTrip.replay
  | idle d a => exact RoundTrip.idle d a
  | halt => exact RoundTrip.halt
  | errack a b => exact RoundTrip.errack a b
  | add f d a b => exact RoundTrip.add f d a b
  | sub f d a b => exact RoundTrip.sub f d a b
  | mul f d a b => exact RoundTrip.mul f d a b
  | mulh f d a b => exact RoundTrip.mulh f d a b
  | div f d a b => exact RoundTrip.div f d a b
  | rem f d a b => exact RoundTrip.rem f d a b
  | min f d a b => exact RoundTrip.min f d a b
  | max f d a b => exact RoundTrip.max f d a b
  | abs f d a => exact RoundTrip.abs f d a
  | neg f d a => exact RoundTrip.neg f d a
  | absd f d a b => exact RoundTrip.absd f d a b
  | sqrt f d a => exact RoundTrip.sqrt f d a
  | fma f d a b c => exact RoundTrip.fma f d a b c
  | mad f d a b c => exact RoundTrip.mad f d a b c
  | madw f d a b c => exact RoundTrip.madw f d a b c
  | scalb f d a b => exact RoundTrip.scalb f d a b
  | rnd f d a => exact RoundTrip.rnd f d a
  | cvt f d a => exact RoundTrip.cvt f d a
  | pack t d a b => exact RoundTrip.pack t d a b
  | unpack t d a => exact RoundTrip.unpack t d a
  | cmp c t p a b => exact RoundTrip.cmp c t p a b
  | sel t p n d a b => exact RoundTrip.sel t p n d a b
  | lea s o sh d a b => exact RoundTrip.lea s o sh d a b
  | bfe s p l d a => exact RoundTrip.bfe s p l d a
  | bfi p l d a b => exact RoundTrip.bfi p l d a b
  | fsh d a b c => exact RoundTrip.fsh d a b c
  | lscan op e t rc d a => exact RoundTrip.lscan op e t rc d a
  | lred op t rc d a => exact RoundTrip.lred op t rc d a
  | ld t d m => exact RoundTrip.ld t d m
  | st t d m => exact RoundTrip.st t d m
  | gld t d m => exact RoundTrip.gld t d m
  | gst t d m => exact RoundTrip.gst t d m
  | atomXchg t sc o d m => exact RoundTrip.atomXchg t sc o d m
  | atomAdd t sc o d m => exact RoundTrip.atomAdd t sc o d m
  | atomAnd t sc o d m => exact RoundTrip.atomAnd t sc o d m
  | atomOr t sc o d m => exact RoundTrip.atomOr t sc o d m
  | atomXor t sc o d m => exact RoundTrip.atomXor t sc o d m
  | atomMin t sc o d m => exact RoundTrip.atomMin t sc o d m
  | atomMax t sc o d m => exact RoundTrip.atomMax t sc o d m
  | atomLd t sc o d m => exact RoundTrip.atomLd t sc o d m
  | atomSt t sc o d m => exact RoundTrip.atomSt t sc o d m
  | cas t sc o d a b c => exact RoundTrip.cas t sc o d a b c
  | pfch t m => exact RoundTrip.pfch t m
  | wHop a => exact RoundTrip.wHop a
  | wEmit a n => exact RoundTrip.wEmit a n
  | wDist d a n => exact RoundTrip.wDist d a n
  | wHeap d a n => exact RoundTrip.wHeap d a n
  | wVisit d a n => exact RoundTrip.wVisit d a n
  | launch d a => exact RoundTrip.launch d a
  | xferTr t cf d a b => exact RoundTrip.xferTr t cf d a b
  | cgLaunch cf a b => exact RoundTrip.cgLaunch cf a b
  | sfLoad f d a => exact RoundTrip.sfLoad f d a
  | sfBind a b => exact RoundTrip.sfBind a b
  | sfRun cf a b => exact RoundTrip.sfRun cf a b
  | srchIssue cf a b => exact RoundTrip.srchIssue cf a b
  | srchVer d a => exact RoundTrip.srchVer d a
  | srchVerRead d a => exact RoundTrip.srchVerRead d a
  | collStart cf a => exact RoundTrip.collStart cf a
  | tlbinvAll => exact RoundTrip.tlbinvAll
  | tlbinvAsid a => exact RoundTrip.tlbinvAsid a
  | tlbinvVa a b => exact RoundTrip.tlbinvVa a b
  | dirReclaim a b => exact RoundTrip.dirReclaim a b
  | keyselLoad a b => exact RoundTrip.keyselLoad a b
  | keyselErase a b => exact RoundTrip.keyselErase a b
  | _ => exact .ofNone rfl

/-- Settles O55, from the lemma of each instruction. -/
theorem encodingRoundTrip : Obligations.EncodingRoundTrip := statement_of_instr

end Sys2Proof.Laws
end

section
/-!
Integer, bit-field, packing and floating-point instructions (R163, R167 to R186): each acts in every lane for itself, so a ready
gang leaves behind what its row of the statement computes.
-/
namespace Sys2Proof.Machine

/-- What the lanes leave behind depends on their outcomes in the acting machine alone. -/
theorem eachDone_congr {s s' : State} {sp : LaneSpec} {ls : List LaneIn} {f g : State → LaneIn → LaneOut}
    (h : ∀ l, f (s.acting s' sp) l = g (s.acting s' sp) l) : s.eachDone s' sp ls f = s.eachDone s' sp ls g := by
  simp only [State.eachDone, h]

/-- Outside a run-ahead every k register is known. -/
theorem kUnknown_acting {s s' : State} {sp : LaneSpec} {ls : List LaneIn} (h : LaneReady s sp s' ls) (n : Nat) :
    (s.acting s' sp).kUnknown n = false := by
  simp [State.kUnknown, acting_sys h, h.plain]

/-- Settles O1: every row is an operation on two 32-bit sources. -/
theorem integerTwoSource : Obligations.IntegerTwoSource := by
  unfold Obligations.IntegerTwoSource
  simp only [List.forall_mem_cons, List.not_mem_nil, false_imp_iff, implies_true, and_true]
  and_intros
  all_goals exact fun _ _ _ _ _ _ h => runPure_next h _ fun _ => ⟨rfl, rfl⟩

/-- Settles O2: the rows of one 32-bit source, and the three moves of an immediate or a scalar. -/
theorem integerOneSource : Obligations.IntegerOneSource := by
  unfold Obligations.IntegerOneSource
  refine ⟨fun d a i n => ?oneSource, fun s s' ls i => ⟨fun d h => ?movi, fun d h => ?movhi, fun d k m h => ?movk⟩⟩
  case oneSource =>
    simp only [List.forall_mem_cons, List.not_mem_nil, false_imp_iff, implies_true, and_true]
    and_intros
    all_goals exact fun _ _ _ h => runPure_next h _ fun _ => ⟨rfl, rfl⟩
  case movi => exact runPure_next h _ fun _ => ⟨rfl, rfl⟩
  case movhi => exact lane1_next h _ fun _ => rfl
  case movk =>
    refine (runPure_next h _ fun _ => ⟨rfl, rfl⟩).trans (congrArg _ (eachDone_congr fun l => ?_))
    simp only [kUnknown_acting h, Bool.not_false] <;> rfl

/-- Settles O3, each row by its operand shape. -/
theorem bitFields : Obligations.BitFields := by
  unfold Obligations.BitFields
  intro s s' ls
  refine ⟨fun sg pos len d a h => ?bfe, fun pos len d a b h => ?bfi, fun d a b c h => ?fsh, fun sg off sh d a b h => ?lea⟩
  case bfe => exact lane1_next h (fun x => wd (if sg then wrapTo 32 (signedOf len.toNat (x.toNat / 2 ^ pos.toNat % 2 ^ len.toNat))
          else x.toNat / 2 ^ pos.toNat % 2 ^ len.toNat)) fun _ => rfl
  case bfi => exact lane2_next h (fun x y => (x &&& ~~~wd ((2 ^ len.toNat - 1) * 2 ^ pos.toNat)) |||
      ((y <<< pos.toNat) &&& wd ((2 ^ len.toNat - 1) * 2 ^ pos.toNat))) fun _ _ => rfl
  case fsh => exact runPure_next h _ fun _ => ⟨rfl, rfl⟩
  case lea => exact runPure_next h _ fun _ => ⟨rfl, rfl⟩

/-- Settles O4, each row by its operand shape. -/
theorem packingAndSelection : Obligations.PackingAndSelection := by
  unfold Obligations.PackingAndSelection
  intro s s' ls t
  refine ⟨fun d a b h => ?pack, fun d a h => ?unpack, fun c p a b h => ?cmp, fun p neg d a b h => ?sel⟩
  case pack => exact lane2_next h _ fun _ _ => rfl
  case unpack => exact runPure_next h _ fun _ => ⟨rfl, rfl⟩
  case cmp => exact runPure_next h _ fun _ => ⟨rfl, rfl⟩
  case sel => exact runPure_next h _ fun _ => ⟨rfl, rfl⟩

/-- A ready gang of an instruction on the elements of a format. -/
theorem elementwise_next {f : Fmt} {s s' : State} {d : Dst} {srcs : List Src} {ls : List LaneIn}
    (h : LaneReady s (shapeTy f.ty d srcs) s' ls) (signed : Bool) (op : RMode → List Nat → Nat × Flags) :
    (Host.Outcome.next (s.elementwise f signed d srcs op) : Host.Outcome State Fault Refusal) =
      .next (s.eachDone s' (shapeTy f.ty d srcs) ls (fun t l =>
        { res := some (eachElem f signed l.vals (op (t.roundMode l.who f.rc.mode))).1,
          fl := (eachElem f signed l.vals (op (t.roundMode l.who f.rc.mode))).2 })) :=
  runPure_next h _ fun _ => ⟨rfl, rfl⟩

/-- Settles O5: every row is an operation on the elements of a format. -/
theorem elementArithmetic : Obligations.ElementArithmetic := by
  unfold Obligations.ElementArithmetic
  intro f d a b c
  simp only [List.forall_mem_cons, List.not_mem_nil, false_imp_iff, implies_true, and_true]
  and_intros
  all_goals exact fun _ _ _ h => elementwise_next h _ _

/-- Settles O6: the three instructions act in every lane for itself. -/
theorem wideningAndConversion : Obligations.WideningAndConversion := by
  unfold Obligations.WideningAndConversion
  intro s s' ls
  refine ⟨fun f d a b c wide hwide h => ?madw, fun f F d a b hF h => ?scalb, fun f d a h => ?cvt⟩
  case madw =>
    subst hwide
    exact runPure_next h _ fun _ => ⟨rfl, rfl⟩
  case scalb =>
    have hexec : exec (.scalb f d a b) s = .next (s.runPure { srcs := [(a, f.ty.wide), (b, false)], dst := some (d, f.ty.wide) }
        (fun s l =>
          { res := some (dw (F.finish (s.roundMode l.who f.rc.mode) f.rc.sat (FVal.scalb (F.decode (l.v 0).toNat) (l.w 1).toInt)).1),
            fl := (F.finish (s.roundMode l.who f.rc.mode) f.rc.sat (FVal.scalb (F.decode (l.v 0).toNat) (l.w 1).toInt)).2 })) := by
      show execScalb f d a b s = _
      simp only [execScalb, hF]
    exact hexec.trans (runPure_next h _ fun _ => ⟨rfl, rfl⟩)
  case cvt => exact runPure_next h _ fun _ => ⟨rfl, rfl⟩

/-- Settles O7: the rows that round by `$fmode`, and those on codes. -/
theorem binary32 : Obligations.Binary32 := by
  unfold Obligations.Binary32
  intro d a b s s' ls
  simp only [List.forall_mem_cons, List.not_mem_nil, false_imp_iff, implies_true, and_true]
  and_intros
  all_goals exact fun h => runPure_next h _ fun _ => ⟨rfl, rfl⟩

end Sys2Proof.Machine
end

section
/-!
Predicate and cross-lane instructions (R187 to R192): a ready gang outside a run-ahead knows every value that its lanes read of
one another.
-/
namespace Sys2Proof.Machine

/-- The lanes of a ready gang know their sources. -/
theorem LaneReady.values_known {s s' : State} {sp : LaneSpec} {ls : List LaneIn} (h : LaneReady s sp s' ls) :
    ∀ l ∈ ls, l.known = true :=
  popLanes_known s sp.srcs _ s' ls h.values h.known

theorem LaneReady.all_known {s s' : State} {sp : LaneSpec} {ls : List LaneIn} (h : LaneReady s sp s' ls)
    (q : LaneIn → Bool) : ls.all (fun x => x.known || q x) = true := by
  simp only [List.all_eq_true]
  intro l hl
  rw [h.values_known l hl, Bool.true_or]

/-- A ready gang whose lanes read one another: what each lane's outcome is has to be said for the gang's own lanes alone. -/
theorem runLanes_map_next {s s' : State} {sp : LaneSpec} {ls : List LaneIn} (h : LaneReady s sp s' ls)
    (f : State → List LaneIn → LaneIn → LaneOut) (g : State → LaneIn → LaneOut)
    (hfg : ∀ l ∈ ls, f (s.acting s' sp) ls l = g (s.acting s' sp) l)
    (hg : ∀ l, (g (s.acting s' sp) l).fault = none ∧ (g (s.acting s' sp) l).page = none) :
    (Host.Outcome.next (s.runLanes sp fun u ls => (u, ls.map (f u ls))) : Host.Outcome State Fault Refusal) =
      .next (s.eachDone s' sp ls g) :=
  runLanes_next h _ g (congrArg _ (List.map_congr_left hfg)) hg

/-! ### Predicates -/

/-- Settles O8, each row by its operand shape. -/
theorem predicates : Obligations.Predicates := by
  unfold Obligations.Predicates
  intro s s' ls n m k
  refine ⟨fun a h => ?fromReg, fun d h => ?toReg, ?logic⟩
  case fromReg => exact runPure_next h _ fun _ => ⟨rfl, rfl⟩
  case toReg => exact runPure_next h _ fun _ => ⟨rfl, rfl⟩
  case logic =>
    simp only [List.forall_mem_cons, List.not_mem_nil, false_imp_iff, implies_true, and_true]
    and_intros
    all_goals exact fun h => runPure_next h _ fun _ => ⟨rfl, rfl⟩

/-! ### Exchanges and votes -/

/-- A ready gang's exchange: every lane receives what the lane it picks holds. -/
theorem exchange_next {s s' : State} {d : Dst} {srcs : List Src} {ls : List LaneIn} (hunk : ∀ l ∈ ls, l.t.unkRegs = [])
    (h : LaneReady s { srcs := srcs.map (fun x => (x, false)), dst := some (d, false), cross := true } s' ls) (pick : LaneIn → Nat) :
    (Host.Outcome.next (s.exchange d srcs pick) : Host.Outcome State Fault Refusal) =
      .next (s.eachDone s' { srcs := srcs.map (fun x => (x, false)), dst := some (d, false), cross := true } ls
        (fun _ l => gives (((ls.find? (fun x => x.lane = pick l)).getD l).w 0))) := by
  refine runLanes_map_next h _ _ (fun l hl => ?_) fun _ => ⟨rfl, rfl⟩
  have hfrom : ((ls.find? (fun x => x.lane = pick l)).getD l).t.unkRegs = [] := by
    cases hfind : ls.find? (fun x => x.lane = pick l) with
    | none => exact hunk l hl
    | some x => exact hunk x (List.mem_of_find?_eq_some hfind)
  simp [hfrom, hunk l hl, gives]

/-- Settles O9: the four rows differ in the lane that is read. -/
theorem laneExchanges : Obligations.LaneExchanges := by
  unfold Obligations.LaneExchanges
  intro d a b o
  simp only [List.forall_mem_cons, List.not_mem_nil, false_imp_iff, implies_true, and_true]
  and_intros
  all_goals exact fun s s' ls hunk h => exchange_next hunk h _

/-- A ready gang's vote. -/
theorem vote_next {s s' : State} {d : Dst} {a : Src} {ls : List LaneIn}
    (h : LaneReady s { srcs := [(a, false)], dst := some (d, false), cross := true } s' ls) (f : LaneIn → LaneIn → Bool) :
    (Host.Outcome.next (s.vote d a f) : Host.Outcome State Fault Refusal) =
      .next (s.eachDone s' { srcs := [(a, false)], dst := some (d, false), cross := true } ls (fun _ l =>
        { res := some (dw (State.vote.maskOfLanes ((ls.filter (f l)).map (·.lane)))) })) := by
  refine runLanes_map_next h _ _ (fun l _ => ?_) fun _ => ⟨rfl, rfl⟩
  have hall : ls.all (·.known) = true := List.all_eq_true.2 h.values_known
  simp only [hall]

/-- Settles O10: both rows are votes. -/
theorem laneVotes : Obligations.LaneVotes := by
  unfold Obligations.LaneVotes
  intro d a
  simp only [List.forall_mem_cons, List.not_mem_nil, false_imp_iff, implies_true, and_true]
  and_intros
  all_goals exact fun s s' ls h => vote_next h _

/-! ### Reductions and scans -/

/-- Settles O11: every value of the gang is known, and the five steps are written out. -/
theorem laneReductions : Obligations.LaneReductions := by
  unfold Obligations.LaneReductions
  refine ⟨fun op t rc d a s s' ls h => ?lred, fun op excl t rc d a s s' ls h => ?lscan⟩
  case lred =>
    refine runLanes_map_next h (fun u ls l => _) _ (fun l _ => ?_) fun _ => ⟨rfl, rfl⟩
    have hall : ls.all (·.known) = true := List.all_eq_true.2 h.values_known
    simp only [hall]
    rfl
  case lscan =>
    refine runLanes_map_next h (fun u ls l => _) _ (fun l _ => ?_) fun l => ?_
    · have hall := h.all_known
      cases excl with
      | false => simp only [hall]; rfl
      | true =>
        cases (ls.filter (fun x => x.lane < l.lane)).getLast? with
        | none => rfl
        | some b => simp only [hall]; rfl
    · dsimp only
      split <;> exact ⟨rfl, rfl⟩

end Sys2Proof.Machine
end

section
/-!
Transfers of control, regrouping, threads that come and go, sleeping and holding (R36, R39, R50, R202 to R213).
-/
namespace Sys2Proof.Machine

/-- The act of a ready gang finds the issue record as it was. -/
theorem acting_issue {s s' : State} {sp : LaneSpec} {ls : List LaneIn} (h : LaneReady s sp s' ls) :
    (s.acting s' sp).sys.issue = s.sys.issue := by
  rw [acting_sys h]

/-! ### Branches -/

/-- A lane that is no walker thread arrives at its target without more ado. -/
theorem goto_of_not_walk (s : State) {l : LaneIn} (target : DWord) (h : whoIsWalk l.who = false) :
    s.goto l target = (s, goes target) := by
  simp [goto_eq, State.arriving, h]

/-- A lane that goes to its target or on meets no fault and no page. -/
theorem goesIf_clean (c : Prop) [Decidable c] (target : DWord) :
    (if c then goes target else {}).fault = none ∧ (if c then goes target else {}).page = none := by
  split <;> exact ⟨rfl, rfl⟩

/-- A source read as a number of 32 bits is its low word. -/
theorem toNat_mod_eq_w (l : LaneIn) (i : Nat) : (l.vals.getD i 0).toNat % 2 ^ 32 = (l.w i).toNat :=
  (BitVec.toNat_setWidth ..).symm

/-- Settles O12: a branch in every lane for itself, a walker thread's own branch, and `switch` by the index's low word. -/
theorem branches : Obligations.Branches := by
  unfold Obligations.Branches
  intro s s' ls
  refine ⟨fun p off h hlane => ?br, fun p off l h hwalk htaken => ?walkBr, fun i off h => ?switch⟩
  case br =>
    refine seqN h _ _ (fun l hl => ?_) fun l => ?_
    · simp only [goto_of_not_walk _ _ (hlane l hl), acting_issue h]
      show (if brTaken p l.t then _ else _) = (_, if brTaken p l.t then _ else _)
      split <;> rfl
    · exact goesIf_clean _ _
  case walkBr =>
    refine runSeq_next h _ ?_ rfl rfl
    simp only [htaken, if_true, goto_eq, acting_issue h.ready]
    rfl
  case switch =>
    refine (runPure_next h _ fun l => ?_).trans (congrArg _ (eachDone_congr fun l => ?_))
    · exact goesIf_clean _ _
    · simp only [toNat_mod_eq_w, acting_issue h]
      rfl

/-! ### Calls and returns -/

/-- Settles O13: each lane in its turn pushes, drops or jumps, and arrives. -/
theorem callsAndReturns : Obligations.CallsAndReturns := by
  unfold Obligations.CallsAndReturns
  intro s s' t ls os
  refine ⟨fun p off h hturns => ?call, fun h hturns => ?ret, fun a h hturns => ?jr, fun a h hturns => ?calr⟩
  case call =>
    refine runSeq_each h hturns _ fun u l v o hturn => ?_
    dsimp only at hturn
    split at hturn
    case isTrue htaken => exact turn_ok hturn.1 hturn.2 (if_pos htaken) rfl rfl
    case isFalse htaken => exact turn_ok hturn.1 hturn.2 (if_neg htaken) rfl rfl
  case ret => exact runSeq_each h hturns _ fun _ _ _ _ ⟨hv, ho⟩ => turn_ok hv ho rfl rfl rfl
  case jr => exact runSeq_each h hturns _ fun _ _ _ _ ⟨hv, ho⟩ => turn_ok hv ho rfl rfl rfl
  case calr => exact runSeq_each h hturns _ fun _ _ _ _ ⟨hv, ho⟩ => turn_ok hv ho rfl rfl rfl

/-! ### Converge -/

/-- Settles O14: which of the skein's threads go past the `converge` in each case. -/
theorem converge : Obligations.Converge := by
  unfold Obligations.Converge
  intro s hplain i h ms
  have hexec : exec .converge s =
      .next (((ms.filter (fun p => p.2.pc = i.pc ∧ ((p.2.released ∧ p.1 ∈ i.lanes.map (·.2)) ∨ (releaseDue ms i.pc ∧ p.2.state = .held)))).foldl
        (fun u p => u.modThread p.1 (fun t => { t with pc := i.pc + 4, waited := false, state := .ready, released := false, lastIssue := u.now }))
        h).releaseHeld i.core i.ctx) := by
    show execConverge s = _
    simp only [execConverge, hplain]
    rfl
  refine ⟨fun hnone hdue => ?stay, fun hnone hdue => ?together, fun hdue => ?alone⟩
  case stay =>
    have hgo : ms.filter (fun p => p.2.pc = i.pc ∧ ((p.2.released ∧ p.1 ∈ i.lanes.map (·.2)) ∨ (releaseDue ms i.pc ∧ p.2.state = .held))) = [] := by
      rw [List.filter_eq_nil_iff]
      intro p hp
      simp [hnone p hp, hdue]
    rw [hexec, hgo]
    rfl
  case together =>
    rw [hexec, List.filter_congr fun p hp => ?_]
    simp [hnone p hp, hdue]
  case alone =>
    rw [hexec, List.filter_congr fun p _ => ?_]
    simp [hdue]

/-! ### Threads that come and go -/

/-- Settles O15: `reform` as it is defined, the free $tid that `spawn` finds, and whether an exit is the team's last. -/
theorem threadsComeAndGo : Obligations.ThreadsComeAndGo := by
  unfold Obligations.ThreadsComeAndGo
  intro s s' t ls os
  refine ⟨rfl, fun d a b h hturns => ?spawn, fun h hturns => ?exit⟩
  case spawn =>
    refine runSeq_each h hturns _ fun u l v o ⟨x, n, hteam, hfree, hv, ho⟩ => turn_ok hv ho ?_ rfl rfl
    simp only [hteam, hfree]
    rfl
  case exit =>
    refine runSeq_each h hturns _ fun u l v o hturn => ?_
    cases hwho : l.who with
    | walk n =>
      simp only [hwho] at hturn
      exact turn_ok hturn.1 hturn.2 rfl rfl rfl
    | lane c k tid =>
      simp only [hwho] at hturn
      rcases hturn with ⟨hmany, hv, ho⟩ | ⟨hlast, hidle, hv, ho⟩ | ⟨hlast, hbusy, hv, ho⟩
      · exact turn_ok hv ho (by simp [Nat.not_le.2 hmany]) rfl rfl
      · exact turn_ok hv ho (by simp [hlast, hidle]) rfl rfl
      · exact turn_ok hv ho (by simp [hlast, hbusy]) rfl rfl

/-! ### Sleeping and holding -/

/-- Settles O16: outside a run-ahead `yield` and `sleep` mark the gang's threads once its lanes have gone on. -/
theorem yieldAndSleep : Obligations.YieldAndSleep := by
  unfold Obligations.YieldAndSleep
  refine ⟨fun s s' ls h => ⟨?yield, fun n => ?sleep⟩, fun s w t c hw hstall hc => ⟨_, rfl, ?sleepEnd⟩,
    fun s w t hw hheld hrun hteam hdue => ?starved⟩
  case yield =>
    show execYield s = _
    simp only [execYield, runPure_ready h (fun _ _ => {}) fun _ => ⟨rfl, rfl⟩, h.plain, Option.isSome_none, Bool.false_eq_true, if_false]
  case sleep =>
    show execSleep n s = _
    have hnow : (s.acting s' {}).now = s.now := congrArg (fun y => y.clk) (acting_sys h)
    simp only [execSleep, runPure_ready h (fun s _ => { stall := .until (s.now + 16 * (n.toNat + 1)) }) fun _ => ⟨rfl, rfl⟩, h.plain,
      Option.isSome_none, Bool.false_eq_true, if_false]
    rw [eachDone_congr (g := fun _ _ => { stall := .until (s.now + 16 * (n.toNat + 1)) }) fun _ => by rw [hnow]]
  case sleepEnd =>
    refine modThread_eq s w t _ _ hw ?_
    simp [hstall, hc]
  case starved =>
    have hout : s.heldOut w t = true := by
      have hsave : (s.team (s.teamIdOf w)).any (fun v => v.saving || v.saved) = false := by
        cases hv : s.team (s.teamIdOf w) with
        | none => rfl
        | some v => simp [hteam v hv]
      simp [State.heldOut, hheld, hrun, hsave, hdue]
    show execConvergeStarveRelease w s = _
    simp only [execConvergeStarveRelease, hw, hout, if_true]

end Sys2Proof.Machine
end

section
/-!
Taking a trap (R422, R429 to R433), and the instructions that take one in every lane of their gang.
-/
namespace Sys2Proof.Machine

/-! ### One thread -/

section
variable {s : State} {c k tid : Nat} {t : Thread} (f : Fail) (ht : s.thread (.lane c k tid) = some t)
include ht

/-- A trap in a thread that stands in a trap ends the team (R432). -/
theorem trapLane_double (hact : t.trapActive = true) :
    s.trapLane (.lane c k tid) f = s.endTeam (c, k) 0x030A t.trap.code.toNat f.code := by
  simp only [State.trapLane, ht, hact, if_true]

/-- A trap with no usable handler writes its record and ends the team (R431). -/
theorem trapLane_no_handler (hact : t.trapActive = false) (hh : s.handler c t.ctx = 0 ∨ (s.handler c t.ctx).toNat % 4 ≠ 0) :
    s.trapLane (.lane c k tid) f =
      ((s.setThread (.lane c k tid) { t with trap := trapFields s.sys.issue.w1 s.sys.issue.w2 s.sys.issue.two s.sys.issue.pc f.code }).trapRecord
        (.lane c k tid) f).endTeam (c, k) f.code 0 0 := by
  simp only [State.trapLane, ht, hact, Bool.false_eq_true, if_false, if_pos hh]

/-- A trap with a handler goes there (R431). -/
theorem trapLane_handler (hact : t.trapActive = false) (hh : s.handler c t.ctx ≠ 0) (halign : (s.handler c t.ctx).toNat % 4 = 0) :
    s.trapLane (.lane c k tid) f =
      (s.setThread (.lane c k tid) { t with
        trap := trapFields s.sys.issue.w1 s.sys.issue.w2 s.sys.issue.two s.sys.issue.pc f.code, trapActive := true,
        pc := s.handler c t.ctx, pass := 0, stall := .none, state := .ready, released := false }).trapRecord (.lane c k tid) f := by
  simp only [State.trapLane, ht, hact, Bool.false_eq_true, if_false]
  exact if_neg (not_or.2 ⟨hh, Classical.not_not.2 halign⟩)

end

/-! ### A gang -/

/-- Faults raised outside a run-ahead in lanes that are no walker threads are traps, lane by lane. -/
theorem raise_lanes (s : State) (f : Fail) (ls : List (Nat × Who)) (hplain : s.sys.issue.runAhead = none)
    (hlane : ∀ l ∈ ls, whoIsWalk l.2 = false) :
    s.raise (ls.map (fun l => (l.1, l.2, f))) = ls.foldl (fun u l => u.trapLane l.2 f) s := by
  simp only [State.raise, hplain, Option.isSome_none, Bool.false_eq_true, if_false]
  clear hplain
  induction ls generalizing s with
  | nil => rfl
  | cons l ls ih =>
    have hl := hlane l (List.mem_cons_self ..)
    obtain ⟨n, w⟩ := l
    cases w with
    | walk => simp [whoIsWalk] at hl
    | lane => exact ih _ fun x hx => hlane x (List.mem_cons_of_mem _ hx)

/-- A fault of a whole gang outside a run-ahead traps in each of its lanes (R429). -/
theorem gangRaise_eq_foldl (s : State) (f : Fail) (hplain : s.sys.issue.runAhead = none)
    (hlane : ∀ l ∈ s.sys.issue.lanes, whoIsWalk l.2 = false) :
    s.gangRaise f = (s.sys.issue.lanes.foldl (fun u l => u.trapLane l.2 f) s).releaseHeld s.sys.issue.core s.sys.issue.ctx := by
  rw [State.gangRaise, raise_lanes s f _ hplain hlane]

/-- A lane of the gang is one of the issue record. -/
theorem mem_issue_of_mem_lanesIn {s : State} {sp : LaneSpec} {l : LaneIn} (h : l ∈ s.lanesIn sp) :
    ∃ x ∈ s.sys.issue.lanes, x.2 = l.who := by
  simp only [State.lanesIn, List.mem_filterMap, Option.map_eq_some_iff] at h
  obtain ⟨x, hx, t, -, rfl⟩ := h
  exact ⟨x, hx, rfl⟩

/-- A check that comes before those of the registers decides (R430). -/
theorem laneCheck_of_early {sp : LaneSpec} {s : State} {w : Who} {t : Thread} {f : Fail} (hknows : sp.knows t = true)
    (hcheck : sp.check s w t = some f) (hearly : f.stage < 3) : sp.laneCheck s w t = some f := by
  simp [LaneSpec.laneCheck, hknows, hcheck, Nat.not_le.2 hearly]

/-- A lane that names a register beyond its holding, in an instruction without checks of its own. -/
theorem laneCheck_of_beyond {sp : LaneSpec} {s : State} {w : Who} {t : Thread} (hcheck : sp.check s w t = none)
    (hbeyond : ∃ r ∈ sp.regs, t.holding ≤ r) : sp.laneCheck s w t = some { code := 0x0201 } := by
  have hany : sp.regs.any (fun n => decide (t.holding ≤ n)) = true := by simpa using hbeyond
  simp [LaneSpec.laneCheck, hcheck, hany]

theorem srSupervisor_of_range {n : Nat} (hn : 0x80 ≤ n ∧ n < 0xC0) : srSupervisor n = true := by
  simp only [srSupervisor, Bool.and_eq_true, decide_eq_true_eq]
  omega

theorem srReadFail_user {s : State} {t : TeamId} {n : Nat} (b : Bool) (hn : 0x80 ≤ n ∧ n < 0xC0) (huser : s.isSup t = false) :
    srReadFail s t n b = some { code := 0x1002 } := by
  simp [srReadFail, srSupervisor_of_range hn, huser]

theorem srWriteFail_user {s : State} {t : TeamId} {n : Nat} (hn : 0x80 ≤ n ∧ n < 0xC0) (huser : s.isSup t = false) :
    srWriteFail s t n = some { code := 0x1002 } := by
  simp [srWriteFail, srSupervisor_of_range hn, huser]

/-- Settles O17: what one trap does, and for each instruction that every lane of its gang fails the one check. -/
theorem takingATrap : Obligations.TakingATrap := by
  unfold Obligations.TakingATrap
  refine ⟨fun s c k tid t f ht => ⟨trapLane_double f ht, trapLane_no_handler f ht, fun hact hh halign =>
    ⟨_, trapLane_handler f ht hact hh halign, rfl, rfl, rfl, rfl, rfl, rfl, rfl, rfl, rfl, rfl⟩⟩, fun s n hplain hlanes => ?gang⟩
  case gang =>
    have hbad (sp : LaneSpec) (act : State → List LaneIn → State × List LaneOut) (f : Fail) (hstage : f.stage ≤ 3)
        (hcheck : ∀ l ∈ s.lanesIn sp, sp.laneCheck s l.who l.t = some f) :=
      congrArg (Host.Outcome.next (φ := Fault) (ρ := Refusal)) (runLanes_bad s sp act f hplain hlanes hstage hcheck)
    refine ⟨?trap, fun hdebug => ?brk, fun w1 w2 => ?illegal, fun s' ls h => ?quiet, ?beyond, fun sr hsr huser => ⟨fun d => ?rds, fun a hunk => ?wrs⟩⟩
    case trap => exact hbad _ _ _ (by decide) fun l _ => check_reg _ _ _ _ rfl rfl
    case brk =>
      refine hbad _ _ _ (by decide) fun l hl => (check_reg _ _ _ _ rfl rfl).trans ?_
      obtain ⟨x, hx, hwho⟩ := mem_issue_of_mem_lanesIn hl
      exact if_pos (hwho ▸ hdebug x hx)
    case illegal => exact congrArg Host.Outcome.next (gangRaise_eq_foldl _ _ hplain fun l hl => (hlanes l hl).1)
    case quiet => exact runPure_next h _ fun _ => ⟨rfl, rfl⟩
    case beyond =>
      simp only [List.forall_mem_cons, List.not_mem_nil, false_imp_iff, implies_true, and_true]
      and_intros
      all_goals exact fun d a b hbeyond => hbad (shape2 d a b) _ _ (by decide) fun l hl => laneCheck_of_beyond rfl (hbeyond l hl)
    case rds =>
      refine hbad _ _ _ (by decide) fun l hl => ?_
      obtain ⟨x, hx, hwho⟩ := mem_issue_of_mem_lanesIn hl
      exact laneCheck_of_early rfl (srReadFail_user _ hsr (hwho ▸ huser x hx)) (by decide)
    case wrs =>
      refine (execWrs_of_not_ahead sr (.reg a) (by simp [State.ahead, hplain])).trans (hbad _ _ _ (by decide) fun l hl => ?_)
      obtain ⟨x, hx, hwho⟩ := mem_issue_of_mem_lanesIn hl
      refine laneCheck_of_early ?_ (srWriteFail_user hsr (hwho ▸ huser x hx)) (by decide)
      have hnil : l.t.unkRegs = [] := hunk l hl
      simp [LaneSpec.knows, LaneSpec.reads, hnil]

end Sys2Proof.Machine
end

section
/-!
Synchronising objects: barriers, hanks, bound registers, the register pool, and what a lane asks of the machine (R57 to R59, R170,
R209, R215 to R238).
-/
namespace Sys2Proof.Machine

/-! ### Barriers -/

/-- A lane's outcome that is one bit. -/
theorem gives_bit (c : Bool) : ({ res := some (if c then 1 else 0) } : LaneOut) = gives (if c then 1 else 0) := by
  cases c <;> rfl

/-- A wait that goes on. -/
theorem wait_passes {b : Bar} {c : Bool} (hdecl : b.declared = true) (hphase : b.phase ≠ c) : (b.declared && b.phase != c) = true := by
  simp [hdecl, hphase]

/-- A wait that blocks. -/
theorem wait_blocks {b : Bar} {c : Bool} (h : b.declared = false ∨ b.phase = c) : ¬(b.declared && b.phase != c) = true := by
  rcases h with h | h <;> simp [h]

/-- What completing a phase leaves of a team's own barrier. -/
def Bar.completed (b : Bar) : Bar :=
  { b with phase := !b.phase, pending := b.count, balance := b.quota, arrived := [], blockedSince := none, wroteLast := b.wrote, wrote := [] }

/-- The waiters of a barrier let go. -/
def State.wakeBar (s : State) (b : Bar) (ps : List (Who × Thread)) : State :=
  ps.foldl (fun (u : State) p => (u.barAcquire p.1 b).readyPast p.1 4) s

/-- Waking a barrier's waiters changes no team and no grid. -/
theorem wakeBar_teams (s : State) (b : Bar) (ps : List (Who × Thread)) :
    ((s.wakeBar b ps).teams, (s.wakeBar b ps).front) = (s.teams, s.front) := by
  induction ps generalizing s with
  | nil => rfl
  | cons p ps ih => exact (ih _).trans (barWake_teams s b p.1)

/-- The phase of a team's own barrier completes where nothing is pending and nothing owed (R218). -/
theorem checkComplete_own {s : State} {t : TeamId} {v : Team} {n : Nat} {b : Bar} (hv : s.team t = some v)
    (hb : v.bars.find n = some b) (hcount : 0 < b.count) :
    (s.checkComplete t n).bar t n = some (if b.pending = 0 ∧ b.balance = 0 then b.completed else b) := by
  have hbar := bar_own s t v n b hv hb
  simp only [State.checkComplete, hbar]
  by_cases hdone : b.pending = 0 ∧ b.balance = 0
  · rw [if_pos ⟨hdone.1, hdone.2, hcount⟩, if_pos hdone]
    obtain ⟨v', hv', hb'⟩ := modBar_own s t v n b Bar.completed hv hb
    exact (bar_of _ _ (wakeBar_teams _ { b with wroteLast := b.wrote } _) t n).trans (bar_own _ t v' n _ hv' hb')
  · rw [if_neg fun h => hdone ⟨h.1, h.2.1⟩, if_neg hdone]
    exact hbar

/-- An arrival at a team's own barrier counts, and completes the phase where it is the last and nothing is owed (R218). -/
theorem arriveOne_own {s : State} {t : TeamId} {v : Team} {n bytes : Nat} {b : Bar} (hv : s.team t = some v)
    (hb : v.bars.find n = some b) (hpending : b.pending ≠ 0) (hrange : balanceOk (b.balance - (bytes : Int)) = true) (hcount : 0 < b.count) :
    ∃ u, s.arriveOne t n bytes = some u ∧
      (let x : Bar := { b with pending := b.pending - 1, balance := b.balance - bytes, lastOp := s.now, reported := false }
       u.bar t n = some (if x.pending = 0 ∧ x.balance = 0 then x.completed else x)) := by
  have hone : s.arriveOne t n bytes = some ((s.modBar t n (fun b =>
      { b with pending := b.pending - 1, balance := b.balance - bytes, lastOp := s.now, reported := false })).checkComplete t n) := by
    simp only [State.arriveOne, bar_own s t v n b hv hb]
    exact if_neg (by simp [hpending, hrange])
  obtain ⟨v', hv', hb'⟩ := modBar_own s t v n b
    (fun b => { b with pending := b.pending - 1, balance := b.balance - bytes, lastOp := s.now, reported := false }) hv hb
  exact ⟨_, hone, checkComplete_own hv' hb' hcount⟩

/-- The last arrival with nothing owed. -/
theorem last_arrival {b : Bar} {bytes : Nat} (hpending : b.pending ≠ 0) :
    (b.pending - 1 = 0 ∧ b.balance - (bytes : Int) = 0) ↔ (b.pending = 1 ∧ b.balance = (bytes : Int)) := by
  omega

/-- Settles O18: the lanes' turns at a barrier, and what one arrival leaves of it. -/
theorem barriers : Obligations.Barriers := by
  unfold Obligations.Barriers
  refine ⟨fun s s' t ls os nb => ⟨fun d h hturns => ?arrive, fun d x h hturns => ?owe, fun x h hturns => ?wait, fun p x h => ?test⟩,
    fun s t v n bytes b hv hb hpending hrange hcount => ?arrival⟩
  case arrive =>
    refine runSeq_each h hturns _ fun u l v o ⟨b, hbar, hpending, hone, ho⟩ => ?_
    refine turn_ok rfl (ho.trans (gives_bit b.phase).symm) ?_ rfl rfl
    simp only [hbar, if_neg hpending]
    cases hkind : b.kind <;> simp only [hkind] at hone ⊢ <;> rw [hone] <;> rfl
  case owe =>
    refine runSeq_each h hturns _ fun u l v o hturn => ?_
    dsimp only at hturn
    cases hbar : u.bar (u.teamIdOf l.who) nb.val with
    | none =>
      simp only [hbar] at hturn
      refine turn_ok hturn.1 (hturn.2.trans (gives_bit false).symm) ?_ rfl rfl
      simp only [hbar, toNat_mod_eq_w]
      rfl
    | some b =>
      simp only [hbar] at hturn
      obtain ⟨hrange, hv, ho⟩ := hturn
      refine turn_ok hv (ho.trans (gives_bit b.phase).symm) ?_ rfl rfl
      simp only [hbar, toNat_mod_eq_w, hrange]
      rfl
  case wait =>
    refine runSeq_each h hturns _ fun u l v o hturn => ?_
    dsimp only at hturn
    cases hbar : u.bar (u.teamIdOf l.who) nb.val with
    | none =>
      simp only [hbar] at hturn
      exact turn_ok hturn.1 hturn.2 (by simp only [hbar]) rfl rfl
    | some b =>
      simp only [hbar] at hturn
      rcases hturn with ⟨hdecl, hphase, hv, ho⟩ | ⟨hblock, hv, ho⟩
      · refine turn_ok hv ho ?_ rfl rfl
        simp only [hbar]
        exact if_pos (wait_passes hdecl hphase)
      · refine turn_ok hv ho ?_ rfl rfl
        simp only [hbar]
        exact if_neg (wait_blocks hblock)
  case test => exact runPure_next h _ fun _ => ⟨rfl, rfl⟩
  case arrival =>
    obtain ⟨u, hone, hu⟩ := arriveOne_own hv hb hpending hrange hcount
    refine ⟨u, hone, _, hu, ?_⟩
    dsimp only
    by_cases hlast : b.pending = 1 ∧ b.balance = (bytes : Int)
    · rw [if_pos ((last_arrival hpending).2 hlast), if_pos hlast]
      exact ⟨rfl, rfl, rfl, rfl, rfl, rfl, rfl⟩
    · rw [if_neg (mt (last_arrival hpending).1 hlast), if_neg hlast]
      exact ⟨rfl, rfl, rfl, rfl, rfl, rfl⟩

/-! ### Hanks -/

/-- An entry taken from a hank whose ring is not poisoned there. -/
theorem tookEntry_clean (u : State) (loc i : Nat) (h x : Hank) (p : Fin 8) (va : DWord) (hclean : u.mem.poisoned (ringLoc loc h i) 8 = false) :
    u.tookEntry loc x p (u.ringEntry (ringLoc loc h i) va) =
      (u.putHank loc { x with blockedSince := none },
        { res := some (dw (numOfBytes (u.mem.read 0 (ringLoc loc h i) 8))), pred := some (p.val, true) }) := by
  rw [ringEntry_clean u _ va hclean]
  rfl

/-- Settles O19: each lane's turn at a live hank, by the count of its entries. -/
theorem hanks : Obligations.Hanks := by
  unfold Obligations.Hanks
  intro s s' t ls os a p
  refine ⟨fun b h hturns => ?push, fun d h hturns => ?pop, fun d h hturns => ?popWait, fun d h hturns => ?steal, fun d h hturns => ?size⟩
  case push =>
    refine runSeq_each h hturns _ fun x l y o ⟨u, loc, hk, ⟨v, hat, hu⟩, hcase⟩ => ?_
    subst hu
    rcases hcase with ⟨hroom, ho, hy⟩ | ⟨hfull, ho, hy⟩
    · exact turn_ok hy ho ((hankOp_live x v l _ _ _ loc hk hat).trans (if_pos hroom)) rfl rfl
    · exact turn_ok hy ho ((hankOp_live x v l _ _ _ loc hk hat).trans (if_neg hfull)) rfl rfl
  case pop =>
    refine runSeq_each h hturns _ fun x l y o ⟨u, loc, hk, ⟨v, hat, hu⟩, hcase⟩ => ?_
    subst hu
    rcases hcase with ⟨hsome, hclean, ho, hy⟩ | ⟨hnone, ho, hy⟩
    · exact turn_ok hy ho ((hankOp_live x v l _ _ _ loc hk hat).trans ((if_pos hsome).trans (tookEntry_clean _ loc _ _ _ p _ hclean))) rfl rfl
    · exact turn_ok hy ho ((hankOp_live x v l _ _ _ loc hk hat).trans (if_neg (Nat.not_lt.2 (Nat.le_of_eq hnone)))) rfl rfl
  case popWait =>
    refine runSeq_each h hturns _ fun x l y o ⟨u, loc, hk, ⟨v, hat, hu⟩, hcase⟩ => ?_
    subst hu
    rcases hcase with ⟨hsome, hclean, ho, hy⟩ | ⟨hnone, ho, hy⟩
    · exact turn_ok hy ho ((hankOp_live x v l _ _ _ loc hk hat).trans ((if_pos hsome).trans (tookEntry_clean _ loc _ _ _ p _ hclean))) rfl rfl
    · exact turn_ok hy ho ((hankOp_live x v l _ _ _ loc hk hat).trans (if_neg (Nat.not_lt.2 (Nat.le_of_eq hnone)))) rfl rfl
  case steal =>
    refine runSeq_each h hturns _ fun x l y o ⟨u, loc, hk, ⟨v, hat, hu⟩, hcase⟩ => ?_
    subst hu
    rcases hcase with ⟨hsome, hclean, ho, hy⟩ | ⟨hnone, ho, hy⟩
    · exact turn_ok hy ho ((hankOp_live x v l _ _ _ loc hk hat).trans ((if_pos hsome).trans (tookEntry_clean _ loc _ _ _ p _ hclean))) rfl rfl
    · exact turn_ok hy ho ((hankOp_live x v l _ _ _ loc hk hat).trans (if_neg (Nat.not_lt.2 (Nat.le_of_eq hnone)))) rfl rfl
  case size =>
    refine runSeq_each h hturns _ fun x l y o ⟨loc, hk, ⟨v, hat, hu⟩, ho⟩ => ?_
    subst hu
    exact turn_ok rfl ho (hankOp_live x v l _ _ _ loc hk hat) rfl rfl

/-! ### Bound registers and the register pool -/

/-- Settles O20: every update in its lane's turn, and the read of `bound.get`. -/
theorem boundRegisters : Obligations.BoundRegisters := by
  unfold Obligations.BoundRegisters
  intro s s' t ls os a d nat dev i
  refine ⟨fun h => ⟨fun hturns => ?min, fun hturns => ?max, fun hturns => ⟨?minSet, ?maxSet⟩⟩, fun h => ?get⟩
  case min => exact runSeq_each h hturns _ fun _ _ _ _ ⟨hv, ho⟩ => turn_ok hv ho rfl rfl rfl
  case max => exact runSeq_each h hturns _ fun _ _ _ _ ⟨hv, ho⟩ => turn_ok hv ho rfl rfl rfl
  case minSet => exact runSeq_each h hturns _ fun _ _ _ _ ⟨hv, ho⟩ => turn_ok hv ho rfl rfl rfl
  case maxSet => exact runSeq_each h hturns _ fun _ _ _ _ ⟨hv, ho⟩ => turn_ok hv ho rfl rfl rfl
  case get => exact runPure_next h _ fun _ => ⟨rfl, rfl⟩

theorem canGrant_iff (k : Core) (n : Nat) : k.canGrant n = true ↔ k.poolQueue = [] ∧ n ≤ k.free := by
  simp [Core.canGrant]

/-- Settles O21: a claim by whether it is granted at once, a return, and the oldest request by whether its registers are there. -/
theorem registerPool : Obligations.RegisterPool := by
  unfold Obligations.RegisterPool
  refine ⟨fun s s' t ls os n => ⟨fun h hturns => ?claim, fun h hturns => ?release⟩,
    fun s c slot tid n rs hc hqueue hfree => ?grant, fun s c r rs hc hqueue hfree => ?short⟩
  case claim =>
    refine runSeq_each h hturns _ fun u l v o ⟨c, k, tid, hwho, hcase⟩ => ?_
    rcases hcase with ⟨hqueue, hfree, ho, hv⟩ | ⟨hwait, ho, hv⟩
    · have hgrant := (canGrant_iff (u.core c) n.toNat).2 ⟨hqueue, hfree⟩
      exact turn_ok hv ho (by simp only [hwho, hgrant, if_true]) rfl rfl
    · have hgrant : ¬(u.core c).canGrant n.toNat = true := fun hg => by
        obtain ⟨hnil, hle⟩ := (canGrant_iff _ _).1 hg
        exact hwait.elim (fun hne => hne hnil) (Nat.not_lt.2 hle)
      exact turn_ok hv ho (by simp only [hwho, if_neg hgrant]) rfl rfl
  case release =>
    refine runSeq_each h hturns _ fun u l v o ⟨c, k, tid, hwho, ho, hv⟩ => turn_ok hv ho ?_ rfl rfl
    simp only [hwho]
    rfl
  case grant =>
    show execRegisterGrant c s = _
    simp only [execRegisterGrant, if_neg (Nat.not_le.2 hc), hqueue, State.reqSize]
    exact if_neg (Nat.not_lt.2 hfree)
  case short =>
    show execRegisterGrant c s = _
    simp only [execRegisterGrant, if_neg (Nat.not_le.2 hc), hqueue, if_pos hfree]

/-! ### Queries -/

/-- Settles O22: every query by its lane's turn; `phase` makes its release and leaves its completion due. -/
theorem laneQueries : Obligations.LaneQueries := by
  unfold Obligations.LaneQueries
  intro s s' t ls os
  refine ⟨fun d c h hlane => ?chpoll, fun d a wait h hturns => ⟨fun hw => ?gwait, fun hw => ?gwaitPoll⟩, fun d sr h => ?rds,
    fun sr a h hturns => ?wrs, fun sc h hturns => ?phase, fun c x sc pc => rfl⟩
  case chpoll =>
    refine runLanes_map_next h (fun u _ l => { res := some (if whoIsWalk l.who then 0 else dw (u.chanCount (u.teamIdOf l.who) c.val)) }) _
      (fun l hl => ?_) fun _ => ⟨rfl, rfl⟩
    simp only [hlane l hl, Bool.false_eq_true, if_false]
  case gwait =>
    subst hw
    refine runSeq_each h hturns _ fun u l v o hturn => ?_
    have hval : u.childStatus (l.vals.getD 0 0).toNat = u.childStatus (l.v 0).toNat := rfl
    cases hst : u.childStatus (l.v 0).toNat with
    | none =>
      simp only [hst] at hturn
      exact turn_ok hturn.1 hturn.2 (by simp only [hval, hst]; rfl) rfl rfl
    | some st =>
      simp only [hst] at hturn
      exact turn_ok hturn.1 hturn.2 (by simp only [hval, hst]) rfl rfl
  case gwaitPoll =>
    subst hw
    refine runSeq_each h hturns _ fun u l v o hturn => ?_
    have hval : u.childStatus (l.vals.getD 0 0).toNat = u.childStatus (l.v 0).toNat := rfl
    cases hst : u.childStatus (l.v 0).toNat with
    | none =>
      simp only [hst] at hturn
      exact turn_ok hturn.1 hturn.2 (by simp only [hval, hst]; rfl) rfl rfl
    | some st =>
      simp only [hst] at hturn
      exact turn_ok hturn.1 hturn.2 (by simp only [hval, hst]) rfl rfl
  case rds => exact runPure_next h _ fun _ => ⟨rfl, rfl⟩
  case wrs =>
    exact (execWrs_of_not_ahead sr a h.ahead_eq_false).trans
      (runSeq_each h hturns _ fun _ _ _ _ ⟨hv, ho⟩ => turn_ok hv ho rfl rfl rfl)
  case phase =>
    refine congrArg (fun u : State => (Host.Outcome.next (u.due [.phaseComplete s.sys.issue.core s.sys.issue.ctx sc s.sys.issue.pc]) :
      Host.Outcome State Fault Refusal)) (runSeq_turns (fun _ => True) h hturns _ trivial fun u l v o _ ⟨hv, ho⟩ => ?_)
    exact ⟨(turn_ok hv ho rfl rfl rfl).1, (turn_ok hv ho rfl rfl rfl).2, trivial⟩

end Sys2Proof.Machine
end

section
/-!
Loads, stores, atomics and gathers, the memory they act on, and what a thread sees of its own stores (R77 to R102, R193 to R200).
-/
namespace Sys2Proof.Machine

/-! ### Writes of memory -/

/-- Settles O26, by what a write within its lines does. -/
theorem memoryWrite : Obligations.MemoryWrite := by
  unfold Obligations.MemoryWrite
  intro m key loc bs hwf
  obtain ⟨hwf', hsame, hother⟩ := write_spec m key loc bs hwf
  exact ⟨hsame, hother, hwf'⟩

/-! ### Loads and stores -/

/-- The machine is not in a run-ahead, which a lane's act keeps. -/
def State.goesAsIs (s : State) : Prop := s.sys.issue.runAhead = none

theorem acting_goesAsIs {s s' : State} {sp : LaneSpec} {ls : List LaneIn} (h : LaneReady s sp s' ls) : (s.acting s' sp).goesAsIs := by
  rw [State.goesAsIs, acting_sys h]
  exact h.plain

theorem goesAsIs_of_issue {u v : State} (hissue : v.sys.issue = u.sys.issue) (hu : u.goesAsIs) : v.goesAsIs :=
  (congrArg Issue.runAhead hissue).trans hu

theorem not_ahead {u : State} (hu : u.goesAsIs) : u.ahead = false := by
  rw [State.ahead, show u.sys.issue.runAhead = none from hu]
  rfl

/-- An access that reaches its target acts there, its refaults ended. -/
theorem accessLane_reached {u x : State} {l : LaneIn} {a : Access} {tg : Target} (go : State → Target → State × LaneOut)
    (hreach : u.reach l.who a = (x, .ok tg)) (hu : u.goesAsIs) :
    u.accessLane l a go = go (x.modThread l.who (fun th => th.accessOk x.sys.issue.pc)) tg := by
  rw [accessLane_ok u x l a tg go hreach hu, reach_sys' hreach]

/-- What every lane of a store instruction finds at its target. -/
def StoreTurn (t : Ty) (m : MemAddr) (u : State) (l : LaneIn) (w : State) (q : Who × Target × List Byte) : Prop :=
  ∃ tg, u.reach l.who (u.memAccess l .store m t true) = (w, .ok tg) ∧ q = (l.who, tg, storeBytes t (l.v 0))

/-- The checks of stores that all reach their targets let them all through. -/
theorem storeChecks_turns {t : Ty} {m : MemAddr} {u v : State} {ls : List LaneIn} {qs : List (Who × Target × List Byte)}
    (hturns : InTurn (StoreTurn t m) u ls v qs) (hu : u.goesAsIs) :
    u.storeChecks t m ls = (v, qs.map (fun q => ({}, some q))) ∧ qs.length = ls.length ∧ ∀ q ∈ qs, q.2.2.length ≤ 8 := by
  induction hturns with
  | nil s => exact ⟨rfl, rfl, fun _ hq => absurd hq List.not_mem_nil⟩
  | @cons u w v l q ls qs hturn _ ih =>
    obtain ⟨tg, hreach, rfl⟩ := hturn
    have hw : w.goesAsIs := goesAsIs_of_issue (congrArg Sys.issue (reach_sys' hreach)) hu
    obtain ⟨hrest, hlen, hshort⟩ := ih hw
    have hreach' : u.reach l.who { u.laneAccess l.who .store (effAddr m l.t (tySize t)) (tySize t) (tySize t) with plain := true } =
      (w, .ok tg) := hreach
    refine ⟨?_, congrArg (· + 1) hlen, fun q hq => ?_⟩
    · simp only [State.storeChecks, hreach', not_ahead hw, Bool.false_eq_true, if_false, hrest, List.map_cons]
    · rcases List.mem_cons.1 hq with rfl | hq
      · exact storeBytes_length t _
      · exact hshort q hq

/-- Lanes zipped with outcomes that are all the same. -/
theorem zip_map_const {α β γ : Type} (c : γ) : ∀ (xs : List α) (ys : List β), ys.length = xs.length →
    xs.zip (ys.map (fun _ => c)) = xs.map (fun x => (x, c))
  | [], _, _ => rfl
  | x :: xs, _ :: ys, h => congrArg ((x, c) :: ·) (zip_map_const c xs ys (Nat.succ.inj h))

/-- A gang acting together whose outcomes are clean. -/
theorem runLanes_clean {s s' t : State} {sp : LaneSpec} {ls : List LaneIn} {os : List LaneOut} (h : LaneReady s sp s' ls)
    (act : State → List LaneIn → State × List LaneOut) (hact : act (s.acting s' sp) ls = (t, os))
    (hclean : ∀ r ∈ ls.zip os, r.2.fault = none ∧ r.2.page = none) : s.runLanes sp act = s.gangDone sp t (ls.zip os) := by
  rw [runLanes_ready h, hact]
  exact endLanes_clean _ _ _ _ h.plain hclean

/-- Settles O23: each load in its lane's turn; the stores of a gang checked in turn, then performed together. -/
theorem loadsAndStores : Obligations.LoadsAndStores := by
  unfold Obligations.LoadsAndStores
  refine fun s s' v ls t m hahead => ⟨fun d os hgrants h hturns => ?load, fun x qs hgrants h hturns => ⟨?store, ?apart⟩⟩
  case load =>
    show execLd t d m s = _
    simp only [execLd, hgrants]
    refine congrArg _ (runSeq_turns State.goesAsIs h hturns _ (acting_goesAsIs h) fun u l w o hu ⟨x, tg, hreach, hw, ho⟩ => ?_)
    have hx := congrArg Sys.issue (reach_sys' hreach)
    refine ⟨?_, by rw [ho]; exact ⟨rfl, rfl⟩, ?_⟩
    · rw [hw, ho]
      exact accessLane_reached _ hreach hu
    · rw [hw]
      exact goesAsIs_of_issue ((loadTarget_issue ..).trans hx) hu
  case store =>
    obtain ⟨hchecks, hlen, -⟩ := storeChecks_turns (t := t) (m := m) hturns (acting_goesAsIs h)
    have hzip := zip_map_const ({} : LaneOut) ls qs hlen
    show execSt t x m s = _
    simp only [execSt, hgrants, hahead, Bool.false_eq_true, if_false]
    rw [← hzip]
    refine congrArg _ (runLanes_clean h _ ?_ fun r hr => ?_)
    · simp only [hchecks, List.map_map, List.filterMap_map]
      exact Prod.ext (congrArg v.storeAll List.filterMap_some) rfl
    · rw [hzip] at hr
      obtain ⟨l, -, rfl⟩ := List.mem_map.1 hr
      exact ⟨rfl, rfl⟩
  case apart =>
    exact storeAll_apart v qs (storeChecks_turns (t := t) (m := m) hturns (acting_goesAsIs h)).2.2

/-! ### Atomics -/

/-- The operands of an atomic: all but `st` give the old value. -/
def atomSpec (op : AtomOp) (t : Ty) (d : Fin 128) (m : MemAddr) : LaneSpec :=
  accessSpec m [(.reg d, t.wide)] (if op = .st then none else some (.reg d, t.wide))

/-- What a lane makes of an atomic whose access reaches its target: `f` gives the new value, `out` the lane's outcome. -/
def AtomTurn (a : State → LaneIn → Access) (n : Nat) (sc : Scope) (o : AtomOrder) (f : LaneIn → Nat → Option Nat × Flags)
    (out : Nat × Flags → LaneOut) (u : State) (l : LaneIn) (w : State) (y : LaneOut) : Prop :=
  ∃ x tg, u.reach l.who (a u l) = (x, .ok tg) ∧
    (let r := (x.modThread l.who (fun th => th.accessOk x.sys.issue.pc)).atomicAt l.who sc o tg n (f l)
     w = r.1 ∧ y = out r.2)

/-- Atomics in lane order, each on the machine that the one before left. -/
theorem runSeq_atomics {a : State → LaneIn → Access} {n : Nat} {sc : Scope} {o : AtomOrder} {f : LaneIn → Nat → Option Nat × Flags}
    {out : Nat × Flags → LaneOut} (hout : ∀ r, (out r).fault = none ∧ (out r).page = none) {s s' v : State} {sp : LaneSpec} {ls : List LaneIn}
    {os : List LaneOut} (h : LaneReady s sp s' ls) (hturns : InTurn (AtomTurn a n sc o f out) (s.acting s' sp) ls v os) :
    s.runSeq sp (fun u l => u.accessLane l (a u l) (fun x tg =>
      ((x.atomicAt l.who sc o tg n (f l)).1, out (x.atomicAt l.who sc o tg n (f l)).2))) = s.gangDone sp v (ls.zip os) := by
  refine runSeq_turns State.goesAsIs h hturns _ (acting_goesAsIs h) fun u l w y hu ⟨x, tg, hreach, hw, hy⟩ => ?_
  rw [hw, hy]
  refine ⟨accessLane_reached _ hreach hu, hout _, goesAsIs_of_issue ?_ hu⟩
  have hx : x.sys.issue = u.sys.issue := congrArg Sys.issue (reach_sys' hreach)
  exact (atomicAt_issue ..).trans hx

/-- An atomic's lanes act in turn. -/
theorem atom_turns (op : AtomOp) {s s' v : State} {t : Ty} {sc : Scope} {o : AtomOrder} {d : Fin 128} {m : MemAddr} {ls : List LaneIn}
    {os : List LaneOut} (hgrants : s.awaitGrants .atomic (fun th => effAddr m th (tySize t)) (tySize t) = none)
    (h : LaneReady (s.atomicsBegin o) (atomSpec op t d m) s' ls)
    (hturns : InTurn (AtomTurn (fun u l => u.memAccess l .atomic m t false) (tySize t) sc o (fun l old => atomNew op t old (l.v 0).toNat)
      (fun r => { res := if op = .st then none else some (dw r.1), fl := r.2 })) ((s.atomicsBegin o).acting s' (atomSpec op t d m)) ls v os) :
    s.atom op t sc o d m = (s.atomicsBegin o).gangDone (atomSpec op t d m) v (ls.zip os) := by
  rw [← runSeq_atomics (fun r => ⟨rfl, rfl⟩) h hturns]
  simp only [State.atom, hgrants, memAccess_lane]
  cases op <;> rfl

/-- An atomic without an order at the home of a line that no other device holds. -/
theorem atomicAt_home (s : State) (c k tid : Nat) (sc : Scope) (tg : Target) (n : Nat) (f : Nat → Option Nat × Flags)
    (hnear : isRemote tg.loc = false) (hline : tg.line = false) :
    (let w := Who.lane c k tid
     let d := s.drainOf w
     let u := (d.readHome w c tg.key tg.loc n).1
     let old := numOfBytes (d.mem.read tg.key tg.loc n)
     s.atomicAt w sc .none tg n f =
       ((match (f old).1 with
         | some v => u.write { whos := [w], core := some c } tg.key tg.loc (bytesOf n v)
         | none => u), old, (f old).2)) := by
  simp only [State.atomicAt, State.beforeAtomic, hnear, hline, Bool.false_eq_true, if_false]
  rfl

/-- Settles O24: the lanes' atomics in turn, and what one atomic without an order does at its home. -/
theorem atomics : Obligations.Atomics := by
  unfold Obligations.Atomics
  refine ⟨fun s s' v ls os t sc o d m => ⟨?atoms, fun a b c hgrants h hturns => ?cas⟩, fun s c k tid sc tg n f => atomicAt_home s c k tid sc tg n f⟩
  case atoms =>
    simp only [List.forall_mem_cons, List.not_mem_nil, false_imp_iff, implies_true, and_true]
    and_intros
    all_goals exact fun hgrants h hturns => congrArg Host.Outcome.next (atom_turns _ hgrants h hturns)
  case cas =>
    show execCas t sc o d a b c s = _
    simp only [execCas, hgrants]
    exact congrArg _ (runSeq_atomics (out := fun r => { res := some (dw r.1) }) (fun r => ⟨rfl, rfl⟩) h hturns)

/-! ### The cores while memory is read -/

theorem performOne_cores (s : State) (p : PendStore) : (s.performOne p).cores = s.cores := by
  unfold State.performOne
  split <;> rfl

theorem performStores_cores (s : State) (q : PendStore → Bool) : (s.performStores q).cores = s.cores :=
  foldl_keeps (·.cores) _ (fun u p => performOne_cores u p) _ _

theorem acquire_cores (s : State) (w : Who) (c : Nat) (sc : Scope) : (s.acquire w c sc).cores = s.cores := performStores_cores ..

theorem sawWrite_cores (s : State) (w : Who) (loc n q : Nat) : (s.sawWrite w loc n q).cores = s.cores := by
  unfold State.sawWrite
  split <;> rfl

theorem fillLine_cores (s : State) (c line : Nat) : (s.fillLine c line).1.cores = s.cores := by
  simp only [State.fillLine]
  split <;> rfl

theorem viewBytes_cores (s : State) (req : Wrote → Bool) (fill : Option Nat) (key loc n : Nat) :
    (s.viewBytes req fill key loc n).1.cores = s.cores := by
  simp only [State.viewBytes]
  split
  · rfl
  · split <;> rfl

theorem readHome_cores (s : State) (w : Who) (c key loc n : Nat) : (s.readHome w c key loc n).1.cores = s.cores := by
  simp only [State.readHome]
  split
  · split
    · rfl
    · exact sawWrite_cores ..
  · rfl

theorem loadValue_cores (s : State) (w : Who) (c key loc n : Nat) (home : Bool) : (s.loadValue w c key loc n home).1.cores = s.cores := by
  cases home with
  | true => exact readHome_cores ..
  | false => exact (sawWrite_cores ..).trans ((viewBytes_cores ..).trans (fillLine_cores ..))

theorem holdLine_cores (s : State) (tg : Target) (own : Bool) : (s.holdLine tg own).cores = s.cores := by
  unfold State.holdLine
  split <;> rfl

/-- A load changes no core. -/
theorem loadAt_cores (s : State) (w : Who) (tg : Target) (n : Nat) : (s.loadAt w tg n).1.cores = s.cores := by
  unfold State.loadAt
  split
  · split
    · exact holdLine_cores ..
    · rfl
  · next c k i =>
    have hload : (if isRemote tg.loc = true then (s.holdLine tg false).freeBytes n
        else s.loadValue (.lane c k i) c tg.key tg.loc n (tg.tso || tg.line)).1.cores = s.cores := by
      split
      · exact holdLine_cores ..
      · exact loadValue_cores ..
    dsimp only
    split
    · exact (acquire_cores ..).trans hload
    · exact hload

/-- Two changes that agree on a core as it stands. -/
theorem modCore_congr {s : State} {c : Nat} {f g : Core → Core} (h : f (s.core c) = g (s.core c)) : s.modCore c f = s.modCore c g :=
  congrArg (s.setCore c) h

theorem core_of_cores {s t : State} (h : t.cores = s.cores) (c : Nat) : t.core c = s.core c :=
  congrArg (fun cs : Table Nat Core => (cs.find c).getD {}) h

theorem modCore_gather (s : State) (c : Nat) (gs : List GatherReq) : ((s.modCore c (fun k => { k with gather := gs })).core c).gather = gs :=
  congrArg Core.gather (modCore_core s c _)

/-! ### Gathers -/

/-- A request of the issuing gang's lane: a load's without `store`, a scatter's with its value. -/
def State.request (x : State) (l : LaneIn) (a : Access) (t : Ty) (store : Option DWord) (dst : Option (Dst × Bool)) (tg : Target) : GatherReq :=
  { who := l.who, va := a.va, size := tySize t, store, dst, ty := t, loc := tg.loc, key := tg.key, line := tg.line, tso := tg.tso,
    iss := x.sys.issue, since := x.now }

/-- A request enters its core's collector. -/
def State.collect (x : State) (a : Access) (g : GatherReq) : State := x.modCore a.core (fun k => { k with gather := k.gather ++ [g] })

/-- A gather of a lane whose address is checked: it enters the collector, performed as it enters on a `tso` or `line` page. -/
theorem gatherLane_load {u x : State} {l : LaneIn} {t : Ty} {m : MemAddr} {dst : Option (Dst × Bool)} {tg : Target} (hu : u.goesAsIs)
    (hcheck : u.checkIssue (u.memAccess l .load m t false) = (x, .ok tg))
    (hfault : (tg.tso || tg.line) = true → x.homeFault (u.memAccess l .load m t false) tg = none) :
    u.gatherLane l t m none dst =
      (let a := u.memAccess l .load m t false
       let g := x.request l a t none dst tg
       (if (tg.tso || tg.line) = true then
          (x.loadAt l.who tg (tySize t)).1.collect a { g with val := some (loadExt t (x.loadAt l.who tg (tySize t)).2) }
        else x.collect a g, { next := .stay, stall := .gather })) := by
  have hx : x.ahead = false := not_ahead (goesAsIs_of_issue (congrArg Sys.issue (check_sys' hcheck)) hu)
  rw [memAccess_lane] at hcheck hfault ⊢
  simp only [State.gatherLane, Option.isSome_none, Bool.false_eq_true, if_false, hcheck, hx, laneAccess_size]
  by_cases hpage : (tg.tso || tg.line) = true
  · simp only [if_pos hpage, hfault hpage]
    rfl
  · simp only [if_neg hpage]
    rfl

/-- A scatter of a lane whose address is checked: it enters the collector, or is performed as it enters on a `tso` or `line` page. -/
theorem gatherLane_store {u x : State} {l : LaneIn} {t : Ty} {m : MemAddr} {v : DWord} {tg : Target} (hu : u.goesAsIs)
    (hcheck : u.checkIssue (u.memAccess l .store m t false) = (x, .ok tg))
    (hfault : (tg.tso || tg.line) = true → x.homeFault (u.memAccess l .store m t false) tg = none) :
    u.gatherLane l t m (some v) none =
      (let a := u.memAccess l .store m t false
       (if (tg.tso || tg.line) = true then
          ((x.flushGather l.who).modThread l.who (fun th => th.accessOk x.sys.issue.pc)).storeAt l.who tg (storeBytes t v)
        else x.collect a (x.request l a t (some v) none tg), {})) := by
  have hx : x.ahead = false := not_ahead (goesAsIs_of_issue (congrArg Sys.issue (check_sys' hcheck)) hu)
  rw [memAccess_lane] at hcheck hfault ⊢
  simp only [State.gatherLane, Option.isSome_some, if_true, hcheck, hx, Bool.false_eq_true, if_false, laneAccess_size]
  by_cases hpage : (tg.tso || tg.line) = true
  · simp only [if_pos hpage, hfault hpage]
  · simp only [if_neg hpage]
    rfl

/-- A collector without a load settles at once. -/
theorem gatherSettle_empty {s : State} {c : Nat} (h : (s.core c).gather = []) : s.gatherSettle c = s := by
  simp only [State.gatherSettle, h, List.filter_nil, List.foldl_nil]

/-- A collector that holds one load settles it. -/
theorem gatherSettle_one {s : State} {c : Nat} {g : GatherReq} (h : (s.core c).gather = [g]) (hload : g.store = none) :
    s.gatherSettle c = s.gatherFinish c g := by
  simp [State.gatherSettle, h, hload]

/-- The access of a collector that holds one request, whose window is over. -/
theorem execGatherAccess_one {s : State} {c : Nat} {g : GatherReq} (h : (s.core c).gather = [g]) (hval : g.val = none)
    (hwindow : g.since + gatherWindow ≤ s.now) :
    execGatherAccess c s =
      .next (((if g.store.isSome then s.performStores (fun p => g.who = p.who) else s).gatherOne c g |>.gatherSettle c).gatherWake c) := by
  have hfind : (s.core c).gather.find? (fun g => g.waiting && decide (g.since + gatherWindow ≤ s.now)) = some g := by
    simp [h, GatherReq.waiting, hval, hwindow]
  have hmine : (s.core c).gather.filter (fun x : GatherReq => x.waiting && x.merges g) = [g] := by
    simp [h, GatherReq.waiting, hval, GatherReq.merges]
  simp only [execGatherAccess, hfind, State.gatherGroup, hmine, List.any_cons, List.any_nil, Bool.or_false, List.foldl_cons, List.foldl_nil]

/-- What the access of a load leaves of a collector that holds that load alone. -/
theorem gatherOne_load {s : State} {c : Nat} {g : GatherReq} (hg : (s.core c).gather = [g]) (hstore : g.store = none)
    (hfault : s.homeFault (s.laneAccess g.who .load g.va g.size g.size) g.target = none) :
    s.gatherOne c g = (s.loadAt g.who g.target g.size).1.modCore c
      (fun k => { k with gather := [{ g with val := some (loadExt g.ty (s.loadAt g.who g.target g.size).2) }] }) := by
  have hcore : ((s.loadAt g.who g.target g.size).1.core c).gather = [g] :=
    (congrArg Core.gather (core_of_cores (loadAt_cores ..) c)).trans hg
  simp only [State.gatherOne, hstore, Option.isSome_none, Bool.false_eq_true, if_false, hfault]
  exact modCore_congr (by simp [hcore, hstore])

/-- Settles O25: each request in its lane's turn, and the collector's access of a line. -/
theorem gathers : Obligations.Gathers := by
  unfold Obligations.Gathers
  refine ⟨fun s s' v ls os t m => ⟨fun d hgrants hfull h hturns => ?gather, fun x hgrants hfull h hturns => ?scatter, fun h hroom hturns => ?prefetch⟩,
    fun s c g hg hval hwindow => ⟨fun v hstore hfault hnear => ?accessStore, fun hstore hfault => ?accessLoad⟩⟩
  case gather =>
    show execGld t d m s = _
    simp only [execGld, hgrants, hfull, Bool.false_eq_true, if_false]
    refine congrArg (fun u : State => Host.Outcome.next (u.gatherSettle s.flushGang.sys.issue.core))
      (runSeq_turns State.goesAsIs h hturns _ (acting_goesAsIs h) fun u l w o hu ⟨x, tg, hcheck, ho, hcase⟩ => ?_)
    have hx := congrArg Sys.issue (check_sys' hcheck)
    subst ho
    rcases hcase with ⟨hpage, hw⟩ | ⟨hpage, hfault, hw⟩
    · refine ⟨(gatherLane_load hu hcheck fun hp => absurd hp (by simp [hpage])).trans ?_, ⟨rfl, rfl⟩, ?_⟩
      · simp only [hpage, Bool.false_eq_true, if_false, hw]
        rfl
      · rw [hw]
        exact goesAsIs_of_issue hx hu
    · refine ⟨(gatherLane_load hu hcheck fun _ => hfault).trans ?_, ⟨rfl, rfl⟩, ?_⟩
      · simp only [hpage, if_true, hw]
        rfl
      · rw [hw]
        exact goesAsIs_of_issue ((loadAt_issue ..).trans hx) hu
  case scatter =>
    show execGst t x m s = _
    simp only [execGst, hgrants, hfull, Bool.false_eq_true, if_false]
    have hahead : s.ahead = false := not_ahead h.plain
    simp only [hahead, Bool.false_eq_true, if_false]
    refine congrArg _ (runSeq_turns State.goesAsIs h hturns _ (acting_goesAsIs h) fun u l w o hu ⟨x, tg, hcheck, ho, hcase⟩ => ?_)
    have hx := congrArg Sys.issue (check_sys' hcheck)
    subst ho
    rcases hcase with ⟨hpage, hw⟩ | ⟨hpage, hfault, hw⟩
    · refine ⟨(gatherLane_store hu hcheck fun hp => absurd hp (by simp [hpage])).trans ?_, ⟨rfl, rfl⟩, ?_⟩
      · simp only [hpage, Bool.false_eq_true, if_false, hw]
        rfl
      · rw [hw]
        exact goesAsIs_of_issue hx hu
    · refine ⟨(gatherLane_store hu hcheck fun _ => hfault).trans ?_, ⟨rfl, rfl⟩, ?_⟩
      · simp only [hpage, if_true, hw]
      · rw [hw]
        have hflush := (flushGather_issue x l.who).trans hx
        exact goesAsIs_of_issue ((storeAt_issue ..).trans hflush) hu
  case prefetch =>
    have hahead : ∀ u : State, u.goesAsIs → u.ahead = false := fun u => not_ahead
    have hwalks (p : Nat × Who → Bool) : ¬walkRoom < s.mem.walkQueue.length + (s.sys.issue.lanes.filter p).length :=
      Nat.not_lt.2 (Nat.le_trans (Nat.add_le_add_left (List.length_filter_le ..) _) hroom)
    show execPfch t m s = _
    simp only [execPfch, hwalks, decide_false, Bool.and_false, Bool.false_eq_true, if_false]
    refine congrArg _ (runSeq_turns State.goesAsIs h hturns _ (acting_goesAsIs h) fun u l w o hu ⟨hw, ho⟩ => ?_)
    subst hw ho
    exact ⟨by rw [hahead u hu]; rfl, ⟨rfl, rfl⟩, goesAsIs_of_issue (prefetch_issue ..) hu⟩
  case accessStore =>
    refine (execGatherAccess_one hg hval hwindow).trans ?_
    have hcore : ((s.performStores (fun p => g.who = p.who)).core c).gather = [g] :=
      (congrArg Core.gather (core_of_cores (performStores_cores ..) c)).trans hg
    have hdrop : (s.performStores (fun p => g.who = p.who)).modCore c (fun k => { k with gather := k.gather.filter (fun x => decide (x ≠ g)) }) =
        (s.performStores (fun p => g.who = p.who)).modCore c (fun k => { k with gather := [] }) :=
      modCore_congr (by simp [hcore])
    simp only [hstore, Option.isSome_some, if_true, State.gatherOne, hfault, hnear, Bool.false_eq_true, if_false, hdrop]
    rw [gatherSettle_empty]
    exact modCore_gather (s.performStores (fun p => g.who = p.who)) c []
  case accessLoad =>
    refine (execGatherAccess_one hg hval hwindow).trans ?_
    have hload : g.store.isSome = false := congrArg Option.isSome hstore
    rw [hload, if_neg Bool.false_ne_true, gatherOne_load hg hstore hfault]
    exact congrArg (fun u : State => Host.Outcome.next (u.gatherWake c))
      (gatherSettle_one (g := { g with val := _ }) (modCore_gather _ c [_]) hstore)

end Sys2Proof.Machine
end

section
/-!
What a thread sees of its own stores, and how a store held back reaches its home (R77 to R85, R91, R93, R102, R197).
-/
namespace Sys2Proof.Machine

/-! ### A thread's own stores -/

/-- A store held back joins its thread's own. -/
theorem ownStores_storeValue (s : State) (w : Who) (core key loc : Nat) (bs : List Byte) (due : Option Nat) :
    (s.storeValue w core key loc bs false due).ownStores w = s.ownStores w ++ [{ who := w, core, loc, bytes := bs, key, due }] := by
  simp [State.storeValue, State.ownStores, State.setMem, List.filter_append]

/-- A thread's load sees its newest store, held back. -/
theorem loadValue_held (s : State) (w : Who) (core key loc : Nat) (bs : List Byte) (due : Option Nat) :
    ((s.storeValue w core key loc bs false due).loadValue w core key loc bs.length false).2 = bs := by
  obtain ⟨-, found, hlen, -, hload⟩ := loadValue_spec (s.storeValue w core key loc bs false due) w core key loc bs.length false
  rw [hload, ownStores_storeValue, overlay_append]
  exact lay_own _ loc bs ((overlay_length _ found loc).trans hlen)

/-- A thread's load at the home sees its newest store, performed there. -/
theorem loadValue_home (s : State) (w : Who) (core key loc : Nat) (bs : List Byte) (due : Option Nat) (hwf : s.mem.wf) :
    ((s.storeValue w core key loc bs true due).loadValue w core key loc bs.length true).2 = bs := by
  obtain ⟨-, found, -, hfound, hload⟩ := loadValue_spec (s.storeValue w core key loc bs true due) w core key loc bs.length true
  have hown : (s.storeValue w core key loc bs true due).ownStores w = [] := by
    rw [State.ownStores, State.storeValue, if_pos rfl, write_stores]
    exact drainOf_own s w
  have hread : (s.storeValue w core key loc bs true due).mem.read key loc bs.length = bs :=
    write_read (s.drainOf w) _ key loc bs ((performStores_mem s _).2 hwf)
  rw [hload, hown, hfound rfl]
  exact hread

/-! ### What a store changes at the homes -/

/-- A byte that the store of a thread leaves as it was: off the lines of the thread's own stores, which a store may perform first. -/
structure OffOwn (s : State) (w : Who) (k a : Nat) (u : State) : Prop where
  wf : u.mem.wf
  off : ∀ p ∈ u.ownStores w, a / 64 < p.loc / 64 ∨ (p.loc + p.bytes.length + 63) / 64 ≤ a / 64
  same : u.mem.byteAt k a = s.mem.byteAt k a

theorem OffOwn.of_mem {s u v : State} {w : Who} {k a : Nat} (h : OffOwn s w k a u) (hmem : v.mem = u.mem) : OffOwn s w k a v := by
  refine ⟨?_, ?_, ?_⟩
  · rw [hmem]; exact h.wf
  · rw [State.ownStores, hmem]; exact h.off
  · rw [hmem]; exact h.same

theorem OffOwn.drainOf {s u : State} {w : Who} {k a : Nat} (h : OffOwn s w k a u) : OffOwn s w k a (u.drainOf w) :=
  ⟨(performStores_mem u _).2 h.wf, fun p hp => absurd hp (by rw [drainOf_own]; exact List.not_mem_nil),
    (drainOf_byteAt u w k a h.wf h.off).trans h.same⟩

theorem dropCopies_mem (s : State) (loc : Nat) : (s.dropCopies loc).mem = s.mem := by
  simp only [State.dropCopies]
  split <;> rfl

theorem holdLine_mem (s : State) (tg : Target) (own : Bool) : (s.holdLine tg own).mem = s.mem := by
  unfold State.holdLine
  split <;> rfl

/-- A byte that a store of some bytes at a place leaves: another byte read through the store's key, or one of another line. -/
def StoreLeaves (key loc : Nat) (bs : List Byte) (k a : Nat) : Prop :=
  (k = key ∧ (a < loc ∨ loc + bs.length ≤ a)) ∨ a / 64 < loc / 64 ∨ (loc + bs.length + 63) / 64 ≤ a / 64

theorem write_leaves {s : State} {p : Party} {key loc k a : Nat} {bs : List Byte} (hwf : s.mem.wf) (hoff : StoreLeaves key loc bs k a) :
    (s.write p key loc bs).mem.byteAt k a = s.mem.byteAt k a := by
  rcases hoff with ⟨rfl, hout⟩ | hline
  · rw [write_byteAt _ _ _ _ _ _ hwf, if_neg fun hin => hout.elim (Nat.not_lt.2 hin.1) (Nat.not_le.2 hin.2)]
  · exact (write_spec _ key loc bs hwf).2.2 k a hline

theorem OffOwn.storeValue {s u : State} {w : Who} {core key loc k a : Nat} {bs : List Byte} (h : OffOwn s w k a u)
    (hoff : StoreLeaves key loc bs k a) (home : Bool) (due : Option Nat) :
    (u.storeValue w core key loc bs home due).mem.byteAt k a = s.mem.byteAt k a := by
  cases home with
  | true => exact (write_leaves h.drainOf.wf hoff).trans h.drainOf.same
  | false => exact h.same

/-- A store of a thread leaves every byte off its own line and those of the stores held back. -/
theorem OffOwn.storeAt {s u : State} {w : Who} {k a : Nat} {tg : Target} {bs : List Byte} (h : OffOwn s w k a u)
    (hoff : StoreLeaves tg.key tg.loc bs k a) :
    (u.storeAt w tg bs).mem.byteAt k a = s.mem.byteAt k a := by
  cases w with
  | walk n =>
    have hmem : (u.storeAt (.walk n) tg bs).mem = u.mem := by
      simp only [State.storeAt]
      split
      · exact holdLine_mem ..
      · split <;> rfl
    rw [hmem]
    exact h.same
  | lane c x i =>
    have hrel : OffOwn s (.lane c x i) k a (if tg.tso then u.release (.lane c x i) .dev else u) := by
      split
      · exact ⟨h.drainOf.wf, h.drainOf.off, h.drainOf.same⟩
      · exact h
    simp only [State.storeAt]
    split
    · rw [holdLine_mem]
      exact hrel.same
    · have hdrop : OffOwn s (.lane c x i) k a (if tg.line then (if tg.tso then u.release (.lane c x i) .dev else u).dropCopies tg.loc
          else if tg.tso then u.release (.lane c x i) .dev else u) := by
        split
        · exact hrel.of_mem (dropCopies_mem ..)
        · exact hrel
      exact hdrop.storeValue hoff ..

/-- A lane's store to an ordinary page outside declared buffers is held back. -/
theorem storeAt_ordinary {s : State} {w : Who} {tg : Target} {bs : List Byte} (hlane : whoIsWalk w = false) (htso : tg.tso = false)
    (hline : tg.line = false) (hregion : s.regionsAt tg.loc bs.length = []) (k a : Nat) :
    (s.storeAt w tg bs).mem.byteAt k a = s.mem.byteAt k a := by
  cases w with
  | walk n => cases hlane
  | lane c x i =>
    simp only [State.storeAt, htso, hline, Bool.false_eq_true, if_false, hregion]
    split
    · rw [holdLine_mem]
    · rfl

/-! ### Stores that reach their homes -/

theorem performEarly_mem (s : State) (p : PendStore) :
    ∃ l, s.performEarly p = (s.performOne p).setMem { (s.performOne p).mem with early := l } := by
  simp only [State.performEarly]
  split
  · exact ⟨(s.performOne p).mem.early, rfl⟩
  · exact ⟨_, rfl⟩

theorem performEarly_tso {s : State} {p : PendStore} (h : p.due.isSome = true) : s.performEarly p = s.performOne p := by
  simp [State.performEarly, h]

/-- A free choice of a thread takes one of the stores. -/
theorem pickStore_mem (ps : List PendStore) : ∀ (n : Nat) (p : PendStore), pickStore n p ps ∈ p :: ps := by
  induction ps with
  | nil => exact fun _ _ => List.mem_singleton_self _
  | cons q qs ih =>
    intro n p
    rw [pickStore]
    split
    · exact List.mem_cons_of_mem _ (ih _ q)
    · rcases List.mem_cons.1 (ih n p) with h | h
      · rw [h]
        exact List.mem_cons_self ..
      · exact List.mem_cons_of_mem _ (List.mem_cons_of_mem _ h)

/-- The first store of a thread that has one. -/
theorem first_store {ps : List PendStore} {x : PendStore} (hx : x ∈ ps) :
    ∃ pre p post, ps = pre ++ p :: post ∧ (∀ q ∈ pre, q.who ≠ p.who) ∧ p.who = x.who ∧ ps.find? (fun q => q.who = x.who) = some p := by
  have hany : (ps.find? (fun q => q.who = x.who)).isSome := List.find?_isSome.2 ⟨x, hx, decide_eq_true rfl⟩
  obtain ⟨p, hp⟩ := Option.isSome_iff_exists.1 hany
  obtain ⟨hwho, pre, post, hps, hpre⟩ := List.find?_eq_some_iff_append.1 hp
  have hwho' : p.who = x.who := of_decide_eq_true hwho
  exact ⟨pre, p, post, hps, fun q hq h => by simpa [h.trans hwho'] using hpre q hq, hwho', hp⟩

/-- The freely chosen thread's oldest store is taken out and performed. -/
theorem drainOne_of_find {s : State} {p₀ p : PendStore} {ps : List PendStore} (hstores : s.mem.stores = p₀ :: ps)
    (hfind : s.mem.stores.find? (fun q => q.who = (pickStore s.sys.free p₀ ps).who) = some p) :
    s.drainOne = State.performEarly ({ s.setMem { s.mem with stores := s.mem.stores.erase p } with
      sys := { s.sys with free := s.sys.free + s.mem.stores.length } } : State) p := by
  unfold State.drainOne
  split
  · next hnil => exact nomatch hstores.symm.trans hnil
  · next q qs hcons =>
    obtain ⟨rfl, rfl⟩ := List.cons.inj (hstores.symm.trans hcons)
    simp only [hfind]

/-- The first store of a thread, and the rest. -/
theorem splitFirst_none (w : Who) (ps : List PendStore) : splitFirst w 0 ps = ([], ps) := by
  induction ps with
  | nil => rfl
  | cons q qs ih => simp only [splitFirst, Nat.lt_irrefl, and_false, if_false, ih]

theorem splitFirst_one {w : Who} {p : PendStore} (hp : p.who = w) (post : List PendStore) :
    ∀ pre : List PendStore, (∀ q ∈ pre, q.who ≠ w) → splitFirst w 1 (pre ++ p :: post) = ([p], pre ++ post)
  | [], _ => by simp [splitFirst, hp, splitFirst_none]
  | q :: qs, hpre => by
    have hq := hpre q (List.mem_cons_self ..)
    have hqs := splitFirst_one hp post qs fun x hx => hpre x (List.mem_cons_of_mem _ hx)
    simp only [List.cons_append, splitFirst, hq, false_and, if_false, hqs]

/-- Settles O27: what a thread's load finds, what its store leaves, and the steps by which stores reach their homes. -/
theorem ownStores : Obligations.OwnStores := by
  unfold Obligations.OwnStores
  refine ⟨fun s w core key loc bs due => ⟨loadValue_held s w core key loc bs due, loadValue_home s w core key loc bs due, rfl, rfl,
      fun tg hctl => ⟨fun hlane htso hline hregion k a => ?ordinary, fun hwf k a hown hoff => ?any⟩⟩,
    fun s p => ⟨fun h => ?performed, fun h => ?fenced, performEarly_mem s p, performEarly_tso, fun h => ?overdue⟩,
    fun s hne hnone => ?chosen, fun s w pre post p hstores hp hpre => ?implicit,
    fun s x u asid root va r hlook => ⟨fun hleaf => ?noLeaf, fun hcore => ?noCore, fun c e log l hu hr hl => ?leaf⟩⟩
  case ordinary =>
    rw [State.storeTarget, hctl]
    exact storeAt_ordinary hlane htso hline hregion k a
  case any =>
    rw [State.storeTarget, hctl]
    exact OffOwn.storeAt ⟨hwf, hown, rfl⟩ hoff
  case performed => simp only [State.performOne, h, Bool.false_eq_true, if_false]
  case fenced => simp only [State.performOne, h, if_true]
  case overdue =>
    show execAccessAtHome s = _
    simp only [execAccessAtHome, h]
  case chosen =>
    show ∃ pre p post, _ ∧ _ ∧ execAccessAtHome s = _
    simp only [execAccessAtHome, hnone]
    obtain ⟨p₀, ps, hstores⟩ := List.exists_cons_of_ne_nil hne
    obtain ⟨pre, p, post, hsplit, hpre, -, hfind⟩ := first_store (hstores ▸ pickStore_mem ps s.sys.free p₀)
    refine ⟨pre, p, post, hsplit, hpre, ?_⟩
    have hnot : p ∉ pre := fun hp => hpre p hp rfl
    have herase : s.mem.stores.erase p = pre ++ post := by
      rw [hsplit, List.erase_append_right _ hnot, List.erase_cons_head]
    rw [drainOne_of_find hstores hfind, herase]
    rfl
  case implicit =>
    show execImplicitRelease w 1 s = _
    simp only [execImplicitRelease, hstores, splitFirst_one hp post pre hpre, List.foldl_cons, List.foldl_nil]
  case noLeaf =>
    show execTableWalk u asid root va s = _
    simp only [execTableWalk, hlook]
    split
    · next heq => cases heq; exact absurd rfl (hleaf _ _)
    · next heq => cases heq; rfl
  case noCore =>
    show execTableWalk u asid root va s = _
    simp only [execTableWalk, hlook]
    split
    · exact absurd rfl (hcore _)
    · next heq => cases heq; rfl
  case leaf =>
    show execTableWalk u asid root va s = _
    subst hu hr
    simp only [execTableWalk, hlook, hl]

end Sys2Proof.Machine
end

section
/-!
Scalar and special-register instructions of the U-form, and the objects that uniform instructions make (R139, R216 to R245, R288 to R295).
-/
namespace Sys2Proof.Machine

/-! ### Scalars and branches -/

/-- The tests of `sbr` are those of the signed value. -/
theorem scondHolds_signed (v : DWord) :
    ∀ p ∈ ([(.always, true), (.z, decide (v.toInt = 0)), (.nz, decide (v.toInt ≠ 0)), (.lt, decide (v.toInt < 0)),
      (.ge, decide (0 ≤ v.toInt)), (.gt, decide (0 < v.toInt)), (.le, decide (v.toInt ≤ 0))] : List (SCond × Bool)),
      scondHolds p.1 v = p.2 := by
  obtain ⟨hzero, hnonzero, hneg⟩ := asInt v
  have hge : (!v.slt 0) = decide (0 ≤ v.toInt) := by rw [hneg, ← decide_not, decide_eq_decide, Int.not_lt]
  have hle : (!decide (0 < v.toInt)) = decide (v.toInt ≤ 0) := by rw [← decide_not, decide_eq_decide, Int.not_lt]
  simp only [List.forall_mem_cons, List.not_mem_nil, false_imp_iff, implies_true, and_true]
  exact ⟨rfl, hzero, hnonzero, hneg, hge, rfl, hle⟩

/-- Settles O28: each scalar operation on its sources' values, and the branch by the signed register. -/
theorem scalarArithmetic : Obligations.ScalarArithmetic := by
  unfold Obligations.ScalarArithmetic
  refine ⟨fun s s' d a b vs => ⟨fun h => ?two, fun h => ?mov, fun imm h => ?movi, fun k imm h => ?movh⟩, fun s s' k off vs h p hp => ?branch⟩
  case two => exact ⟨runU_next h _ rfl, runU_next h _ rfl, runU_next h _ rfl, runU_next h _ rfl, runU_next h _ rfl, runU_next h _ rfl,
    runU_next h _ rfl⟩
  case mov => exact runU_next h _ rfl
  case movi => exact runU_next h _ rfl
  case movh => exact runU_next h _ (by rw [smovh_eq])
  case branch =>
    refine runU_next h _ ?_
    rw [scondHolds_signed _ p hp, actingU_sys h, branchTarget]

/-! ### Special registers -/

/-- Settles O29: the level and the number are checked before the value is read or written. -/
theorem specialRegisterMoves : Obligations.SpecialRegisterMoves := by
  unfold Obligations.SpecialRegisterMoves
  refine fun s s' sr vs => ⟨fun d hok h => ?read, fun d hlo hhi huser => ?readUser, fun a hok h => ?write, fun a hplain hlo hhi huser => ?writeUser,
    fun r hrun a => ?writeAhead⟩
  case read =>
    show execRdsr d sr s = _
    simp only [execRdsr, hok]
    exact runU_next h _ rfl
  case readUser =>
    show execRdsr d sr s = _
    simp only [execRdsr, srReadFail_user true ⟨hlo, Nat.lt_succ_of_le hhi⟩ huser]
  case write =>
    have hahead : s.ahead = false := not_ahead h.plain
    show execWrsr sr a s = _
    simp only [execWrsr, hahead, Bool.false_eq_true, if_false, hok]
    exact runU_next h _ rfl
  case writeUser =>
    have hahead : s.ahead = false := not_ahead hplain
    show execWrsr sr a s = _
    simp only [execWrsr, hahead, Bool.false_eq_true, if_false, srWriteFail_user ⟨hlo, Nat.lt_succ_of_le hhi⟩ huser]
  case writeAhead =>
    have hahead : s.ahead = true := by rw [State.ahead, hrun]; rfl
    show execWrsr sr a s = _
    simp only [execWrsr, hahead, if_true]

/-! ### Synchronising objects -/

/-- The low 16 bits of a word. -/
theorem dfield_low16 (v : DWord) : dfield v 15 0 = v.toNat % 2 ^ 16 := by
  simp [dfield, bitsOf]

theorem dfield_mid32 (v : DWord) : dfield v 47 16 = v.toNat / 2 ^ 16 % 2 ^ 32 := by
  simp [dfield, bitsOf]

/-- A ready channel's users, none of which is blocked at it. -/
theorem noneBlocked_any {u : State} {c : Nat} (h : ∀ p ∈ u.threads, u.sharesBar false u.issueTeam p.1 = true →
      p.2.state ≠ .blocked (.chan c) ∧ p.2.state ≠ .blocked (.carder (some c))) :
    u.threads.any (fun p => u.sharesBar false u.issueTeam p.1 &&
      (p.2.state = .blocked (.chan c) || p.2.state = .blocked (.carder (some c)))) = false := by
  rw [List.any_eq_false]
  intro p hp hblocked
  rw [Bool.and_eq_true, Bool.or_eq_true, decide_eq_true_eq, decide_eq_true_eq] at hblocked
  obtain ⟨hchan, hcarder⟩ := h p hp hblocked.1
  exact hblocked.2.elim hchan hcarder

/-- The capacity and scope fields of a hank's second operand, within their ranges. -/
theorem hank_fields {cw : DWord} (h : cw.toNat / 16 ≤ 2) :
    dfield cw 3 0 = cw.toNat % 16 ∧ dfield cw 5 4 = cw.toNat / 16 ∧ dfield cw 63 6 = 0 := by
  have := cw.isLt
  simp only [dfield, bitsOf]
  omega

/-- A hank at a place of its team's own reservation where none stands. -/
theorem hankInitFail_none {u : State} {t : TeamId} {loc n : Nat} {h : Hank} (hbytes : h.bytes = n) (htile : isTile loc = true)
    (hslice : sliceOf loc = t.1) (hinside : (u.team t).any (fun v => decide (v.tileBase ≤ loc - (Config.tileBase + t.1 * Config.sliceBytes)) &&
      decide (loc - (Config.tileBase + t.1 * Config.sliceBytes) + n ≤ v.tileBase + v.tileSize)) = true)
    (hnew : u.hanks.find loc = none) (hroom : (u.hanks.filter (fun y => y.2.owner.1 = t.1)).length < 64)
    (hregion : u.regionsAt loc n = []) : u.hankInitFail t loc h = none := by
  simp [State.hankInitFail, hbytes, htile, hslice, hinside, hnew, Nat.not_le.2 hroom, hregion]

/-- Settles O30: each object is made where every check passes. -/
theorem makingObjects : Obligations.MakingObjects := by
  unfold Obligations.MakingObjects
  refine fun s s' vs => ⟨fun nb a kind h hcount hhigh hgang hidle hfree => ?bar, fun c a v h hbind => ?bind,
    fun c k h hchan hkind hfree => ?free, fun g a h => ⟨fun hv => ?zero, fun hv => ?one, fun hv => ?two, fun t x hnew => ?taken⟩,
    fun a b v tg h hlo hhi hscope halign hown hcheck hfence => ?hank⟩
  case bar =>
    refine runU_next h _ ?_
    have hfields : ¬((vs.getD 0 0).toNat % 2 ^ 16 = 0 ∨ dfield (vs.getD 0 0) 63 48 ≠ 0) := by
      rw [dfTop]
      omega
    have hkind : ¬(kind = .gang ∧ !(s.actingU s' [.k a]).isGang (s.actingU s' [.k a]).issueTeam) := by
      rintro ⟨hk, hnot⟩
      rw [hgang hk] at hnot
      exact Bool.false_ne_true hnot
    have hbar : ((s.actingU s' [.k a]).bar (s.actingU s' [.k a]).issueTeam nb.val).any
        (fun b => b.pending != b.count || decide (b.balance ≠ b.quota)) = false := by
      cases hb : (s.actingU s' [.k a]).bar (s.actingU s' [.k a]).issueTeam nb.val with
      | none => rfl
      | some b =>
        obtain ⟨hpending, hbalance⟩ := hidle b hb
        simp [hpending, hbalance]
    simp only [dfield_low16, dfield_mid32, hfields, if_false, hkind, hbar, hfree, Bool.or_false, Bool.false_eq_true]
    rfl
  case bind =>
    refine runU_next h _ ?_
    simp only [hbind]
  case free =>
    refine runU_next h _ ?_
    have hnot : decide (k.kind = .gang) = false := decide_eq_false hkind
    simp only [hchan, hnot, noneBlocked_any hfree, Bool.false_eq_true, if_false]
  case zero => exact runU_next h _ (by rw [hv]; rfl)
  case one => exact runU_next h _ (by rw [hv]; rfl)
  case two => exact runU_next h _ (by rw [hv]; rfl)
  case taken => simp only [Team.takeMode, hnew, List.foldl_cons, List.foldl_nil]
  case hank =>
    obtain ⟨hcapField, hscopeField, hrest⟩ := hank_fields hscope
    have hfields : ¬((vs.getD 1 0).toNat % 16 < 3 ∨ 12 < (vs.getD 1 0).toNat % 16 ∨ (vs.getD 1 0).toNat / 16 = 3 ∨ 0 ≠ 0 ∨
        (vs.getD 0 0).toNat % 64 ≠ 0) := by omega
    refine runU_next h _ ?_
    simp only [hcapField, hscopeField, hrest, hfields, if_false]
    split
    · next f _ hfail =>
      split at hfail
      · next x hx =>
        obtain ⟨htile, hslice, hinside, hnew, hroom, hregion⟩ := hown x hx
        exact nomatch hfail.symm.trans (hankInitFail_none rfl htile hslice hinside hnew hroom hregion)
      · cases hfail
    · next heq => cases hcheck.symm.trans heq
    · next heq => cases hcheck.symm.trans heq
    · next heq =>
      cases hcheck.symm.trans heq
      simp only [hfence, Bool.false_eq_true, if_false]

end Sys2Proof.Machine
end

section
/-!
The matrix engine, its accumulator banks, the copy engine and the declared buffers (R75, R76, R239 to R264, R465).
-/
namespace Sys2Proof.Machine

/-! ### Commands -/

/-- A U-form instruction whose checks pass and give a command that may issue. -/
theorem runU_issue {s s' : State} {srcs : List USrc} {dst : Option UDst} {vs : List DWord} (h : UReady s srcs dst s' vs) {e : State → Engine}
    {prep : State → List DWord → Prep} {op : CmdOp} {cf : CompField} (hprep : prep (s.actingU s' srcs) vs = .ok op cf)
    (hmay : MayIssue (s.actingU s' srcs) (e (s.actingU s' srcs)) op cf) :
    (Host.Outcome.next (s.runU srcs dst (fun u vs => u.issueCmd (e u) (prep u vs))) : Host.Outcome State Fault Refusal) =
      .next (s.uDone ((s.actingU s' srcs).issued (e (s.actingU s' srcs)) op cf) dst {}) :=
  runU_next h _ (by rw [hprep]; exact issueCmd_ok hmay)

/-- Settles O31: the owner's queue by the engine's owner, and each command whose checks pass. -/
theorem matrixInstructions : Obligations.MatrixInstructions := by
  unfold Obligations.MatrixInstructions
  refine fun s s' vs => ⟨fun h => ⟨fun hfree => ?acquire, fun hown => ?again, fun o ho hne hnot hroom => ?waits, fun o ho hne hnot hfull => ?full,
      fun hown => ?release, fun hnot => ?notOwner⟩, fun a v bs op cf h hown halign hread hblock ha hb hbanks hmay => ?issue,
    fun a h hlo hhi hend hrest hcf hheld hmay => ?zero,
    fun a b h halign hrest hfmt hcf hlo => ⟨fun hhi hend hheld hmay => ?drain, fun hhi hend hheld hmay => ?pack⟩⟩
  case acquire => exact runU_next h _ (by simp only [hfree])
  case again => exact runU_next h _ (by simp only [hown, if_true])
  case waits =>
    have hin : ¬((s.actingU s' []).core (s.actingU s' []).sys.issue.core).ownerQueue.contains (s.actingU s' []).sys.issue.ctx = true :=
      fun hc => hnot (List.contains_iff_mem.1 hc)
    exact runU_next h _ (by simp only [ho, if_neg hne, if_neg hin, if_neg (Nat.not_le.2 hroom)])
  case full =>
    have hin : ¬((s.actingU s' []).core (s.actingU s' []).sys.issue.core).ownerQueue.contains (s.actingU s' []).sys.issue.ctx = true :=
      fun hc => hnot (List.contains_iff_mem.1 hc)
    exact runU_next h _ (by simp only [ho, if_neg hne, if_neg hin, if_pos hfull])
  case release => exact runU_next h _ (by simp only [hown, if_true])
  case notOwner => exact runU_next h _ (by simp only [if_neg hnot])
  case issue =>
    refine runU_next h _ ?_
    have hnot : ¬((s.actingU s' [.k a]).core (s.actingU s' [.k a]).sys.issue.core).owner ≠ some (s.actingU s' [.k a]).sys.issue.ctx := Classical.not_not.2 hown
    have hmul : ¬(vs.getD 0 0).toNat % 128 ≠ 0 := Classical.not_not.2 halign
    simp only [if_neg hnot, if_neg hmul, hread, prepMx_ok _ _ _ _ _ _ hblock ha hb hbanks]
    exact issueCmd_ok hmay
  case zero =>
    have hcf' : (if true then !cfOk (dfield (vs.getD 0 0) 63 48) else dfield (vs.getD 0 0) 63 48 != 0) = false := by
      rw [if_pos rfl, hcf]
      rfl
    exact runU_issue h (by simp only [State.prepAccZero, bankRange_ok _ _ _ true hlo hhi hend hrest hcf' hheld]) hmay
  case drain => exact runU_issue h (prepDrain_ok _ _ _ _ halign hrest hfmt hcf hlo hhi hend hheld) hmay
  case pack => exact runU_issue h (prepPack_ok _ _ _ _ halign hrest hfmt hcf hlo hhi hend hheld) hmay

/-! ### Accumulator banks -/

/-- n banks of a team from lo on, none of them in use. -/
def Team.freeRun (v : Team) (n lo : Nat) : Prop := v.accBase ≤ lo ∧ lo + n ≤ v.accBase + v.accCount ∧ ∀ i < n, lo + i ∉ v.banks

theorem bankList_free (v : Team) (lo n : Nat) :
    (bankList lo n).all (fun b => !v.banks.contains b) = true ↔ ∀ i < n, lo + i ∉ v.banks := by
  simp [bankList]

/-- The search for a free run, offset by offset from the team's first bank. -/
def Team.findRun (v : Team) (n : Nat) : Option Nat :=
  (List.range (v.accCount + 1 - n)).find? (fun i => (bankList (v.accBase + i) n).all (fun b => !v.banks.contains b))

theorem freeRun_offset {v : Team} {n i : Nat} :
    v.freeRun n (v.accBase + i) ↔
      i < v.accCount + 1 - n ∧ (bankList (v.accBase + i) n).all (fun b => !v.banks.contains b) = true := by
  rw [bankList_free, Team.freeRun]
  have hrange : (v.accBase ≤ v.accBase + i ∧ v.accBase + i + n ≤ v.accBase + v.accCount) ↔ i < v.accCount + 1 - n := by omega
  rw [← and_assoc, hrange]

/-- The search finds the lowest free run. -/
theorem findRun_lowest {v : Team} {n lo : Nat} (hrun : v.freeRun n lo) (hlow : ∀ x < lo, ¬v.freeRun n x) :
    ∃ i, v.findRun n = some i ∧ v.accBase + i = lo := by
  obtain ⟨i, rfl⟩ := Nat.exists_eq_add_of_le hrun.1
  obtain ⟨hi, hfree⟩ := freeRun_offset.1 hrun
  refine ⟨i, List.find?_range_eq_some.2 ⟨hfree, List.mem_range.2 hi, fun j hj => ?_⟩, rfl⟩
  rw [Bool.not_eq_true']
  exact Bool.eq_false_iff.2 fun hj' => hlow _ (Nat.add_lt_add_left hj _) (freeRun_offset.2 ⟨Nat.lt_trans hj hi, hj'⟩)

theorem findRun_none {v : Team} {n : Nat} (hnone : ∀ lo, ¬v.freeRun n lo) : v.findRun n = none := by
  refine List.find?_range_eq_none.2 fun i hi => ?_
  rw [Bool.not_eq_true']
  exact Bool.eq_false_iff.2 fun hfree => hnone _ (freeRun_offset.2 ⟨hi, hfree⟩)

/-- Whether a matrix-queue command of a team names a bank. -/
theorem bankBusy_iff (u : State) (t : TeamId) (b : Nat) :
    u.bankBusy t b = true ↔ ∃ x ∈ u.cmds, x.engine = .matrix t.1 ∧ x.team = t ∧ b ∈ x.op.banks := by
  simp [State.bankBusy, and_assoc]

/-- A lane's access of a bank that its team holds: as given, or a wait where a command names the bank. -/
theorem accLane_held {u : State} {l : LaneIn} {c idx : Nat} (hc : c = (u.teamIdOf l.who).1) (hidx : idx = (l.v 0).toNat % 131072)
    (hheld : idx / 256 ∈ u.heldBanks (u.teamIdOf l.who)) (f : State → Nat → Nat → State × LaneOut) :
    u.accLane l f =
      if u.bankBusy (u.teamIdOf l.who) (idx / 256) = true then (u, { next := .stay, stall := .bank (idx / 256) 1 }) else f u c idx := by
  subst hc hidx
  have hin : (!(u.heldBanks (u.teamIdOf l.who)).contains ((l.v 0).toNat % 131072 / 256)) = false := by simpa using hheld
  simp only [State.accLane, hin, Bool.false_eq_true, if_false]

/-- Settles O32: banks by the lowest free run, and elements by the banks that a team holds and that no command names. -/
theorem accumulatorBanks : Obligations.AccumulatorBanks := by
  unfold Obligations.AccumulatorBanks
  refine fun s s' => ⟨fun d a vs v h hlo hhi hteam => ⟨fun lo hrun hlow => ?alloc, fun hnone => ?none⟩,
    fun a vs h hlo hhi hend hrest hheld => ⟨fun hfree => ?free, fun hbusy => ?wait⟩,
    fun t ls os a => ⟨fun d hwaits h hturns => ?read, fun b hwaits h hturns => ?write⟩, fun u c idx x => ?same⟩
  case alloc =>
    obtain ⟨i, hfind, rfl⟩ := findRun_lowest hrun hlow
    have hrange : ¬((vs.getD 0 0).toNat = 0 ∨ 512 < (vs.getD 0 0).toNat) := by omega
    rw [Team.findRun] at hfind
    exact runU_next h _ (by simp only [if_neg hrange, hteam, hfind])
  case none =>
    have hfind := findRun_none hnone
    have hrange : ¬((vs.getD 0 0).toNat = 0 ∨ 512 < (vs.getD 0 0).toNat) := by omega
    rw [Team.findRun] at hfind
    exact runU_next h _ (by simp only [if_neg hrange, hteam, hfind]; rfl)
  case free =>
    obtain ⟨hmid, htop⟩ := dfHigh _ hrest
    have hok := bankRange_ok _ _ _ false hlo hhi hend hmid (by rw [if_neg Bool.false_ne_true, htop]; rfl) hheld
    exact runU_next h _ (by simp only [hok, hfree, Bool.false_eq_true, if_false])
  case wait =>
    obtain ⟨hmid, htop⟩ := dfHigh _ hrest
    have hok := bankRange_ok _ _ _ false hlo hhi hend hmid (by rw [if_neg Bool.false_ne_true, htop]; rfl) hheld
    exact runU_next h _ (by simp only [hok, hbusy, if_true])
  case read =>
    show execAccRead d a s = _
    simp only [execAccRead, hwaits, Bool.false_eq_true, if_false]
    refine runSeq_each h hturns _ fun u l v o ⟨c, idx, ⟨hc, hidx, hheld⟩, hv, hcase⟩ => ?_
    rcases hcase with ⟨hfree, hclean, ho⟩ | ⟨hbusy, ho⟩
    · refine turn_ok hv ho ((accLane_held hc hidx hheld _).trans ?_) rfl rfl
      subst hc
      rw [if_neg (mt (bankBusy_iff ..).1 hfree), if_neg (mt List.contains_iff_mem.1 hclean)]
    · subst hc
      exact turn_ok hv ho ((accLane_held rfl hidx hheld _).trans (if_pos ((bankBusy_iff ..).2 hbusy))) rfl rfl
  case write =>
    show execAccWrite a b s = _
    simp only [execAccWrite, hwaits, Bool.false_eq_true, if_false]
    refine runSeq_each h hturns _ fun u l v o ⟨c, idx, ⟨hc, hidx, hheld⟩, hcase⟩ => ?_
    rcases hcase with ⟨hfree, hv, ho⟩ | ⟨hbusy, hv, ho⟩
    · exact turn_ok hv ho ((accLane_held hc hidx hheld _).trans (if_neg (mt (bankBusy_iff ..).1 hfree))) rfl rfl
    · exact turn_ok hv ho ((accLane_held hc hidx hheld _).trans (if_pos ((bankBusy_iff ..).2 hbusy))) rfl rfl
  case same => simp only [State.acc, State.setAcc, find_put, Option.getD_some]

/-! ### Copies and buffers -/

/-- The changes of a buffer's state that R75 lists, and the others. -/
theorem bufSetOk_listed : ∀ p ∈ ([(.empty, .full, .full), (.full, .draining, .draining), (.full, .empty, .empty), (.draining, .empty, .empty)] :
    List (BufState × BufSetTo × BufState)), bufSetOk p.2.1 p.1 = true ∧ bufStateOf p.2.1 = p.2.2 := by decide

theorem bufSetOk_other : ∀ p ∈ ([(.empty, .draining), (.empty, .empty), (.filling, .full), (.filling, .draining), (.filling, .empty),
    (.full, .full), (.draining, .draining), (.draining, .full)] : List (BufState × BufSetTo)), bufSetOk p.2 p.1 = false := by decide

/-- Settles O33: each command whose checks pass, and what a set of a buffer's state does by R75's table. -/
theorem copiesAndBuffers : Obligations.CopiesAndBuffers := by
  unfold Obligations.CopiesAndBuffers
  refine fun s s' vs => ⟨fun d a b h => ⟨fun hlo hn hx hy hrest hcf hdisj hmay => ?xfer, fun hmask hrest hcf hcores hmay => ?mc,
      fun t c hrest hdstr hsstr hd hs hx hy hmay => ?tr⟩,
    fun a h hrest hprod hsize => ⟨fun hne hin hnew hfree => ?decl, fun b hzero hb hempty => ?remove⟩,
    fun n b h hb => ⟨fun p hp hst => ?set, fun p hp hst => ?refused, fun v st hbuf hnew => ?taken⟩⟩
  case xfer => exact runU_issue h (prepXfer_ok _ _ _ hlo hn hx hy hrest hcf hdisj) hmay
  case mc => exact runU_issue h (prepMc_ok _ _ _ _ _ hmask hrest hcf hcores) hmay
  case tr => exact runU_issue h (prepTr_ok t c.toNat _ _ _ hrest hdstr hsstr hd hs hx hy) hmay
  case decl => exact runU_next h _ (by rw [declare_ok _ _ _ hrest hprod hsize hne hin hnew hfree])
  case remove => exact runU_next h _ (by rw [remove_ok _ _ _ b hrest hprod hzero hb hempty])
  case set =>
    obtain ⟨hok, hto⟩ := bufSetOk_listed p hp
    exact runU_next h _ (by simp only [hb, hst, hok, if_true, hto])
  case refused =>
    have hno := bufSetOk_other p hp
    exact runU_next h _ (by simp only [hb, hst, hno, Bool.false_eq_true, if_false])
  case taken => simp only [Team.takeMode, hnew, List.foldl_cons, List.foldl_nil, find_upd, hbuf, Option.map_some]

end Sys2Proof.Machine
end

section
/-!
The carder's instructions and those of the stream fabrics (R87, R268 to R278, R477).
-/
namespace Sys2Proof.Machine

/-! ### The carder -/

/-- What a lane takes from its carder's port (R272). -/
def PortTurn (t : TeamId) (p : Fin 8) (x : State) (w : State) (o : LaneOut) : Prop :=
  match x.carderOf t with
  | none => w = x ∧ o = { pred := some (p.val, false) }
  | some k =>
    match k.port with
    | [] => w = x ∧ o = { pred := some (p.val, false) }
    | e :: es => w = x.setCarder t.1 (some { k with port := es }) ∧
      o = if e = 0xFFFFFFFFFFFFFFFF#64 then { pred := some (p.val, false) } else { res := some e, pred := some (p.val, true) }

/-- A lane's outcome of an element: the end marker gives no result. -/
def portOut (p : Fin 8) (e : DWord) : LaneOut :=
  if e = endMarker then { pred := some (p.val, false) } else { res := some e, pred := some (p.val, true) }

theorem portOut_clean (p : Fin 8) (e : DWord) : (portOut p e).fault = none ∧ (portOut p e).page = none := by
  unfold portOut
  split <;> exact ⟨rfl, rfl⟩

theorem takePort_turn {t : TeamId} {p : Fin 8} {x w : State} {o : LaneOut} (h : PortTurn t p x w o) :
    ((x.takePort t).1, portOut p (x.takePort t).2) = (w, o) := by
  unfold PortTurn at h
  unfold State.takePort
  split at h
  · next hk =>
    rw [hk, h.1, h.2]
    rfl
  · next k hk =>
    rw [hk]
    split at h
    · next hport =>
      simp only [hport, h.1, h.2]
      rfl
    · next e es hport =>
      simp only [hport, h.1, h.2]
      rfl

/-- Settles O34: each carder instruction by what its reads give and by the carder that its team finds. -/
theorem carderInstructions : Obligations.CarderInstructions := by
  unfold Obligations.CarderInstructions
  refine fun s s' vs => ⟨fun a h => ⟨fun v bs vt ss hread hfree => ⟨fun hrec => ?openX, fun hrec => ?openM⟩, fun k hk hx => ?split,
      fun k v tg hk hplace => ?save, fun v w bs k hread hrestore hfree => ?restore⟩,
    fun h => ⟨fun k hk => ?close, fun hk => ?closeNone⟩,
    fun v l0 rest os d p h => ⟨fun hready hturns => ?next, fun k hk hshort hdone => ?blocked⟩,
    fun v ls os n a b hroom h hturns => ?feed⟩
  case openX => exact runU_next h _ (by simp only [hread, hrec, hfree, Bool.false_eq_true, if_false]; rfl)
  case openM => exact runU_next h _ (by simp only [hread, hrec, hfree, Bool.false_eq_true, if_false, if_true]; rfl)
  case split => exact runU_next h _ (by simp only [if_neg (Nat.not_le.2 hx), hk])
  case save => exact runU_next h _ (by simp only [hk, hplace])
  case restore => exact runU_next h _ (by simp only [hread, hrestore, hfree, Bool.false_eq_true, if_false]; rfl)
  case close => exact runU_next h _ (by simp only [hk, Option.isSome_some, if_true])
  case closeNone => exact runU_next h _ (by simp only [hk, Option.isSome_none, Bool.false_eq_true, if_false])
  case next =>
    have hport : (s.acting s' { dst := some (d, true), pdst := some p.val }).portReady
        ((s.acting s' { dst := some (d, true), pdst := some p.val }).teamIdOf l0.who) (l0 :: rest).length = true := by
      unfold State.portReady
      split
      · next k hk => simpa using hready k hk
      · rfl
    obtain ⟨hfold, hclean⟩ := foldLanes_turns (fun _ => True) (fun x _ => ((x.takePort _).1, portOut p (x.takePort _).2))
      (fun u _ w o _ hturn => ⟨takePort_turn hturn, by rw [← (Prod.mk.inj (takePort_turn hturn)).2]; exact portOut_clean .., trivial⟩)
      hturns trivial
    refine congrArg _ (runLanes_clean h _ ?_ hclean)
    simp only [hport, if_true]
    exact hfold
  case blocked =>
    have hport : (s.acting s' { dst := some (d, true), pdst := some p.val }).portReady
        ((s.acting s' { dst := some (d, true), pdst := some p.val }).teamIdOf l0.who) (l0 :: rest).length = false := by
      unfold State.portReady
      simp only [hk, hdone, Bool.or_false]
      exact decide_eq_false (Nat.not_le.2 hshort)
    have hzip : (l0 :: rest).zip ((l0 :: rest).map (fun _ => ({ next := .stay, block := some (.carder none) } : LaneOut))) =
        (l0 :: rest).map (fun l => (l, { next := .stay, block := some (.carder none) })) := zip_map_const _ _ _ rfl
    refine (congrArg Host.Outcome.next (runLanes_clean h _ (os := (l0 :: rest).map (fun _ => { next := .stay, block := some (.carder none) }))
      ?_ fun r hr => ?_)).trans (by rw [hzip])
    · simp only [hport, Bool.false_eq_true, if_false]
    · rw [hzip] at hr
      obtain ⟨l, -, rfl⟩ := List.mem_map.1 hr
      exact ⟨rfl, rfl⟩
  case feed =>
    have hfull : (s.fedStream s.issueTeam n.val).any
        (fun k => decide (64 < ((k.fed.find n.val).getD []).length + s.feedNeed a b)) = false := by
      cases hk : s.fedStream s.issueTeam n.val with
      | none => rfl
      | some k => exact decide_eq_false (Nat.not_lt.2 (hroom k hk))
    show execCardFeed n a b s = _
    simp only [execCardFeed, hfull, Bool.false_eq_true, if_false]
    refine runSeq_each h hturns _ fun x l w o ⟨k, hk, ho, hw⟩ => ?_
    subst ho
    refine turn_ok hw rfl ?_ rfl rfl
    simp only [hk, List.contains_iff_mem]
    split
    · rfl
    · split <;> rfl

/-! ### Stream fabrics -/

/-- The lowest free slot of a fabric. -/
theorem freeSlot_lowest {x : State} {fab k : Nat} (hk : k < 8) (hfree : x.fabs.find (fab, k) = none)
    (hlow : ∀ j < k, (x.fabs.find (fab, j)).isSome = true) :
    (List.range 8).find? (fun k => (x.fabs.find (fab, k)).isNone) = some k := by
  refine List.find?_range_eq_some.2 ⟨by rw [hfree]; rfl, List.mem_range.2 hk, fun j hj => ?_⟩
  rw [← Option.not_isSome, hlow j hj]
  rfl

theorem freeSlot_none {x : State} {fab : Nat} (hfull : ∀ k < 8, (x.fabs.find (fab, k)).isSome = true) :
    (List.range 8).find? (fun k => (x.fabs.find (fab, k)).isNone) = none := by
  refine List.find?_range_eq_none.2 fun k hk => ?_
  rw [← Option.not_isSome, hfull k hk]
  rfl

/-- Tables that are in order and find room in their fabric. -/
theorem tables_fit {nodes : List SgNode} {used : Nat} (hok : nodes.all tablesOk = true) (hsize : used + sumOf (nodes.map tableBytes) ≤ 65536) :
    (!nodes.all tablesOk || decide (65536 < used + sumOf (nodes.map tableBytes))) = false := by
  rw [hok, decide_eq_false (Nat.not_lt.2 hsize)]
  rfl

/-- The checks of a run on a slot that is bound and not spent. -/
theorem prepSfRun_ok {u : State} {t : TeamId} {cf mem str : Nat} {wr : Bool} {x y addr : DWord} {key : Nat × Nat} {sl : FabSlot}
    (hhandle : u.handle t x = some (key, sl)) (hbind : sl.bind = some (addr, mem, str, wr)) (hspent : sl.spent = false)
    (hback : u.backingOut (u.mkCmd t (.fabric key.1 key.2) (.sfRun key.1 key.2 y) (cfOf cf)) key.1 addr mem = false) :
    u.prepSfRun t cf x y = (.fabric key.1 key.2, .ok (.sfRun key.1 key.2 y) (cfOf cf)) := by
  simp only [State.prepSfRun, hhandle, hbind, hspent, Bool.false_and, hback, Bool.false_eq_true, if_false]

/-- Settles O35: a slot is loaded into the lowest free place, bound, run and unbound through its handle. -/
theorem streamFabricInstructions : Obligations.StreamFabricInstructions := by
  unfold Obligations.StreamFabricInstructions
  refine fun s s' vs => ⟨fun fab d a h v w x hd body nodes hread hlo hhi hbody hgraph htables hok hsize hfab =>
      ⟨fun k hk hfree hlow => ?load, fun hfull => ?loadFull⟩,
    fun a b h key sl hhandle => ⟨fun v r hread haddr hmem hstr hdir hidle => ?bind, fun cf addr mem str wr hbind hspent hback hmay => ?run⟩,
    fun a h key sl hhandle => ⟨fun hidle => ?unbind, fun hbusy => ?wait⟩⟩
  case load =>
    have hn : ¬(dfield (dwordsOf hd 0) 7 0 = 0 ∨ 64 < dfield (dwordsOf hd 0) 7 0) := by omega
    exact runU_next h _ (by
      simp only [hread, if_neg hn, hbody, hgraph, Bool.not_true, Bool.false_eq_true, if_false, htables, tables_fit hok hsize,
        if_neg (mt List.contains_iff_mem.1 hfab), freeSlot_lowest hk hfree hlow])
  case loadFull =>
    have hn : ¬(dfield (dwordsOf hd 0) 7 0 = 0 ∨ 64 < dfield (dwordsOf hd 0) 7 0) := by omega
    exact runU_next h _ (by
      simp only [hread, if_neg hn, hbody, hgraph, Bool.not_true, Bool.false_eq_true, if_false, htables, tables_fit hok hsize,
        if_neg (mt List.contains_iff_mem.1 hfab), freeSlot_none hfull]
      rfl)
  case bind =>
    have hfields : ¬((dwordsOf r 0).toNat % 64 ≠ 0 ∨ 2 ^ 40 ≤ (dwordsOf r 8).toNat ∨ 2 ^ 40 ≤ (dwordsOf r 16).toNat ∨
        2 ≤ (dwordsOf r 24).toNat) := by
      simp only [not_or, Classical.not_not, Nat.not_le]
      exact ⟨haddr, hmem, hstr, hdir⟩
    exact runU_next h _ (by simp only [hhandle, hread, if_neg hfields, hidle, Bool.false_eq_true, if_false]; rfl)
  case run => exact runU_next h _ (by rw [prepSfRun_ok hhandle hbind hspent hback]; exact issueCmd_ok hmay)
  case unbind => exact runU_next h _ (by simp only [hhandle, hidle, Bool.false_eq_true, if_false])
  case wait => exact runU_next h _ (by simp only [hhandle, hbusy, if_true])

end Sys2Proof.Machine
end

section
/-!
The instructions that start work: search blocks, published versions, collective rounds, child launches and command graphs (R208, R266,
R279 to R281, R345, R377).
-/
namespace Sys2Proof.Machine

/-- A round's command whose group and number no live round has, and whose buffers lie on the device. -/
theorem round_clear {v : State} {c : Cmd} {r : CollOp} (hother : ∀ x ∈ v.rounds, x.2.group = r.group → x.2.round ≠ r.round)
    (hown : v.ownBuffers c = true) :
    (v.rounds.any (fun x => x.2.group == r.group && x.2.round == r.round) || !v.ownBuffers c) = false := by
  have hnone : v.rounds.any (fun x => x.2.group == r.group && x.2.round == r.round) = false := by
    rw [List.any_eq_false]
    intro x hx hsame
    rw [Bool.and_eq_true, beq_iff_eq, beq_iff_eq] at hsame
    exact hother x hx hsame.1 hsame.2
  rw [hnone, hown]
  rfl

/-- Settles O36: each start where every check passes. -/
theorem startingWork : Obligations.StartingWork := by
  unfold Obligations.StartingWork
  refine fun s s' vs => ⟨fun cf a b h v bs rs hrest hn hstack halign hread hrecords hfit hroom => ?search, fun d a h => ⟨?publish, ?version⟩,
    fun cf a h v bs r slot halign hread hrec hslot hother hown hranges => ?round,
    fun d a v h hteam hfirst hdepth halign hchildren w bs hread => ?launch,
    fun cf a b h hn hrest halign v loc hnodes hregion hroom => ?graph⟩
  case search =>
    have hfields : ¬(dfield (vs.getD 1 0) 63 14 ≠ 0 ∨ dfield (vs.getD 1 0) 13 4 = 0) := fun hbad => hbad.elim (absurd hrest) hn
    have hmul : ¬(vs.getD 0 0).toNat % 64 ≠ 0 := Classical.not_not.2 halign
    exact runU_next h _ (by
      simp only [if_neg hfields, if_neg (mt List.contains_iff_mem.1 hstack), if_neg hmul, hread, hrecords, State.issueBlock, hfit, hroom, if_true])
  case publish => exact runU_next h _ (by simp only [BitVec.ult, decide_eq_true_eq])
  case version => exact runU_next h _ rfl
  case round =>
    have hmul : ¬(vs.getD 0 0).toNat % 128 ≠ 0 := Classical.not_not.2 halign
    exact runU_next h _ (by
      simp only [if_neg hmul, hread, hrec, hslot, round_clear hother hown, Bool.false_eq_true, if_false, hranges])
  case launch =>
    have hany : (!(s.actingU s' [.k a]).sys.issue.lanes.any (fun l => whoTid l.2 = 0)) = false := by
      obtain ⟨l, hl, htid⟩ := hfirst
      rw [List.any_eq_true.2 ⟨l, hl, decide_eq_true htid⟩]
      rfl
    have hmul : ¬(vs.getD 0 0).toNat % 128 ≠ 0 := Classical.not_not.2 halign
    exact runU_next h _ (by
      simp only [hteam, hany, Bool.false_eq_true, if_false, if_neg (Nat.not_le.2 hdepth), if_neg hmul, if_neg (Nat.not_le.2 hchildren), hread])
  case graph =>
    have hfields : ¬(dfield (vs.getD 1 0) 15 0 = 0 ∨ dfield (vs.getD 1 0) 63 16 ≠ 0 ∨ (vs.getD 0 0).toNat % 64 ≠ 0) := by
      simp only [not_or, Classical.not_not]
      exact ⟨hn, hrest, halign⟩
    exact runU_next h _ (by
      simp only [if_neg hfields, hnodes, hregion, List.isEmpty_nil, Bool.not_true, Bool.false_eq_true, if_false, hroom])

end Sys2Proof.Machine
end

section
/-!
The supervisor instructions at both levels (R109, R112, R289, R296 to R305).
-/
namespace Sys2Proof.Machine

/-- A field that starts above a word's value. -/
theorem dfield_above {v : DWord} {lo : Nat} (hi : Nat) (h : v.toNat < 2 ^ lo) : dfield v hi lo = 0 := by
  simp [dfield, bitsOf, Nat.div_eq_of_lt h]

/-- The lowest field of a word that has no bit above it. -/
theorem dfield_low {v : DWord} {hi : Nat} (h : v.toNat < 2 ^ (hi + 1)) : dfield v hi 0 = v.toNat := by
  simp [dfield, bitsOf, Nat.mod_eq_of_lt h]

/-- The fields of `keysel`'s first operand: the operation above the slot. -/
theorem keysel_fields {v : DWord} (h : v.toNat < 128) : dfield v 5 0 = v.toNat % 64 ∧ dfield v 7 6 = v.toNat / 64 ∧ dfield v 63 8 = 0 := by
  simp only [dfield, bitsOf]
  omega

/-- At user level a supervisor instruction raises 0x1001. -/
theorem runSup_user {s : State} (hplain : s.sys.issue.runAhead = none) (huser : s.isSup s.issueTeam = false) (srcs : List (Fin 64))
    (dst : Option (Fin 64)) (act : State → List DWord → State × UOut) : s.runSup srcs dst act = s.gangRaise { code := 0x1001 } := by
  simp only [State.runSup, not_ahead hplain, Bool.false_eq_true, if_false, huser, Bool.not_false, if_true]

/-- A run-ahead skips a supervisor instruction without a destination. -/
theorem runSup_ahead {s : State} {r : Nat} (hrun : s.sys.issue.runAhead = some r) (srcs : List (Fin 64))
    (act : State → List DWord → State × UOut) :
    s.runSup srcs none act = s.gangGo (fun t => { t with pc := s.sys.issue.pc + dw s.sys.issue.len }) := by
  have hahead : s.ahead = true := by rw [State.ahead, hrun]; rfl
  simp only [State.runSup, hahead, if_true]

/-- A team that `ctxsave` may save into an aligned area. -/
theorem not_saveRefused {u : State} {x t : TeamId} {v : Team} {va : DWord} (hother : x ≠ t) (hsaved : v.saved = false)
    (hsaving : v.saving = false) (hending : v.ending = none) (hthreads : u.threadsOf x ≠ []) (halign : va.toNat % 4096 = 0) :
    ¬(x = t ∨ v.saved ∨ v.saving ∨ v.ending.isSome ∨ (u.threadsOf x).isEmpty ∨ va.toNat % 4096 ≠ 0) := by
  simp [hother, hsaved, hsaving, hending, hthreads, halign]

/-- A saved team whose area names it and has a size within its bounds. -/
theorem not_loadRefused {v : Team} {size : Nat} {x y : DWord} (hsaved : v.saved = true) (hending : v.ending = none) (htag : x = y)
    (hlo : 4096 ≤ size) (hhi : size ≤ 1904640) :
    (!v.saved || v.ending.isSome || decide (size < 4096 ∨ 1904640 < size) || x != y) = false := by
  simp [hsaved, hending, htag, hlo, hhi]

/-- Settles O37: each instruction's effect at supervisor level, its trap at user level, and its skip in a run-ahead. -/
theorem supervisorInstructions : Obligations.SupervisorInstructions := by
  unfold Obligations.SupervisorInstructions
  refine fun s s' vs d a b => ⟨fun h => ⟨?tsync, ?replay, ?halt, ?tlbAll⟩, fun h hasid => ?tlbAsid,
    fun h hlow hhigh => ⟨fun hhit => ?idleHit, fun hnone => ?idleWait⟩,
    fun h => ⟨fun hasid hva => ?tlbVa, fun v hq hv hack => ?errack, fun v w tg bs hcheck hnear hline hlost hread hhome => ?reclaim,
      fun v bs w hlo hhi hread hkey hone hzero => ?load, fun hlo hhi hy => ?erase⟩,
    fun h => ⟨fun v w tg hslot hteam hother hsaved hsaving hending hthreads halign harea => ?save,
      fun v w hd bs tm tag x r hzero halign hread hteam hsaved hending htag hdtag hlo hhi hbody harea => ⟨fun hcan => ?cannot, fun hcan hchans hcursor => ?restore⟩⟩,
    fun hplain huser => ?user, fun r hrun => ?ahead⟩
  case tsync => exact runSup_ready [] rfl h _ rfl
  case replay => exact runSup_ready [] rfl h _ rfl
  case halt => exact runSup_ready [] rfl h _ rfl
  case tlbAll => exact runSup_ready [] rfl h _ rfl
  case tlbAsid =>
    have hhigh : ¬dfield (vs.getD 0 0) 63 16 ≠ 0 := Classical.not_not.2 (dfield_above 63 hasid)
    exact runSup_ready [.k a] rfl h _ (by simp only [if_neg hhigh, dfield_low hasid]; rfl)
  case idleHit =>
    have hfields : ¬(dfield (vs.getD 0 0) 15 4 ≠ 0 ∨ dfield (vs.getD 0 0) 63 40 ≠ 0) := fun hbad => hbad.elim (absurd hlow) (absurd hhigh)
    exact runSup_ready [.k a] rfl h _ (by simp only [if_neg hfields]; exact if_neg hhit)
  case idleWait =>
    have hfields : ¬(dfield (vs.getD 0 0) 15 4 ≠ 0 ∨ dfield (vs.getD 0 0) 63 40 ≠ 0) := fun hbad => hbad.elim (absurd hlow) (absurd hhigh)
    exact runSup_ready [.k a] rfl h _ (by simp only [if_neg hfields]; exact if_pos hnone)
  case tlbVa =>
    have hhigh : ¬dfield (vs.getD 0 0) 63 16 ≠ 0 := Classical.not_not.2 (dfield_above 63 hasid)
    exact runSup_ready [.k a, .k b] rfl h _ (by
      simp only [if_neg hhigh, hva, Bool.not_true, Bool.false_eq_true, if_false, dfield_low hasid]
      rfl)
  case errack =>
    have hq8 : (vs.getD 0 0).toNat < 2 ^ 8 := by omega
    have hfields : ¬(dfield (vs.getD 0 0) 63 8 ≠ 0 ∨ dfield (vs.getD 1 0) 63 32 ≠ 0) := by
      rw [dfield_above 63 hq8, dfield_above 63 hv]
      simp
    have hlow : dfield (vs.getD 0 0) 7 0 = (vs.getD 0 0).toNat := dfield_low hq8
    have hval : dfield (vs.getD 1 0) 31 0 = (vs.getD 1 0).toNat := dfield_low hv
    exact runSup_ready [.k a, .k b] rfl h _ (by simp only [if_neg hfields, hlow, hval, if_neg (Nat.not_le.2 hq), hack])
  case reclaim =>
    have hplace : (isRemote tg.loc || !tg.line || !v.lineLost tg.loc) = false := by rw [hnear, hline, hlost]; rfl
    exact runSup_ready [.k a, .k b] rfl h _ (by simp only [hcheck, hplace, Bool.false_eq_true, if_false, hread, hhome])
  case load =>
    obtain ⟨hslot, hop, hhigh⟩ := keysel_fields (v := vs.getD 0 0) (by omega)
    have hslot' : dfield (vs.getD 0 0) 5 0 = (vs.getD 0 0).toNat := hslot.trans (Nat.mod_eq_of_lt hhi)
    have hop' : dfield (vs.getD 0 0) 7 6 = 0 := hop.trans (Nat.div_eq_of_lt hhi)
    have hne : ¬(vs.getD 0 0).toNat = 0 := Nat.pos_iff_ne_zero.1 hlo
    have hunwrap : v.unwrapKey bs = Config.unwrap w (BitVec.ofNat 320 (numOfBytes ((bs.drop 8).take 40))) := by
      simp only [State.unwrapKey, hkey, hone, hzero, decide_true, Bool.and_true, if_true]
    have hfields : ¬(0 ≠ 0 ∨ 1 < 0 ∨ 0 = 1 ∧ vs.getD 1 0 ≠ 0) := by simp
    cases hk : Config.unwrap w (BitVec.ofNat 320 (numOfBytes ((bs.drop 8).take 40))) with
    | none =>
      exact runSup_ready [.k a, .k b] rfl h _ (by
        simp only [hslot', hop', hhigh, if_neg hne, if_neg hfields, if_neg Nat.zero_ne_one, hread, hunwrap, hk])
    | some k =>
      exact runSup_ready [.k a, .k b] rfl h _ (by
        simp only [hslot', hop', hhigh, if_neg hne, if_neg hfields, if_neg Nat.zero_ne_one, hread, hunwrap, hk])
  case erase =>
    obtain ⟨hslot, hop, hhigh⟩ := keysel_fields hhi
    have hslot' : dfield (vs.getD 0 0) 5 0 = (vs.getD 0 0).toNat - 64 := by rw [hslot]; omega
    have hop' : dfield (vs.getD 0 0) 7 6 = 1 := by rw [hop]; omega
    have hne : ¬(vs.getD 0 0).toNat - 64 = 0 := by omega
    have hfields : ¬(0 ≠ 0 ∨ 1 < 1 ∨ True ∧ vs.getD 1 0 ≠ 0) := by rw [hy]; simp
    exact runSup_ready [.k a, .k b] rfl h _ (by simp only [hslot', hop', hhigh, if_neg hne, if_neg hfields, if_true])
  case save =>
    have hslot4 : (vs.getD 0 0).toNat < 2 ^ 4 := hslot
    have hfield : dfield (vs.getD 0 0) 3 0 = (vs.getD 0 0).toNat := dfield_low hslot4
    have hhigh : ¬dfield (vs.getD 0 0) 63 4 ≠ 0 := Classical.not_not.2 (dfield_above 63 hslot4)
    exact runSup_ready [.k a, .k b] rfl h _ (by
      simp only [if_neg hhigh, hfield, hteam, if_neg (not_saveRefused hother hsaved hsaving hending hthreads halign), harea]
      rfl)
  case cannot =>
    have hok := not_loadRefused hsaved hending hdtag hlo hhi
    exact runSup_ready [.k a, .k b] rfl h _ (by
      simp only [if_neg (Classical.not_not.2 hzero), if_neg (Classical.not_not.2 halign), hread, hteam, htag, hok, Bool.false_eq_true, if_false, hbody, harea, hcan,
        Bool.not_false, if_true])
  case restore =>
    have hok := not_loadRefused hsaved hending hdtag hlo hhi
    exact runSup_ready [.k a, .k b] rfl h _ (by
      simp only [if_neg (Classical.not_not.2 hzero), if_neg (Classical.not_not.2 halign), hread, hteam, htag, hok, Bool.false_eq_true, if_false, hbody, harea, hcan,
        Bool.not_true, hchans, hcursor, if_true])
  case user =>
    simp only [List.forall_mem_cons, List.not_mem_nil, false_imp_iff, implies_true, and_true]
    and_intros
    all_goals exact congrArg Host.Outcome.next (runSup_user hplain huser _ _ _)
  case ahead =>
    simp only [List.forall_mem_cons, List.not_mem_nil, false_imp_iff, implies_true, and_true]
    and_intros
    all_goals exact congrArg Host.Outcome.next (runSup_ahead hrun _ _)

end Sys2Proof.Machine
end

section
/-!
The walker instructions (R284 to R287, R360, R363).
-/
namespace Sys2Proof.Machine

/-- Settles O38: each walker instruction of one lane, by what it finds of its walk, its peers and its die. -/
theorem walkerInstructions : Obligations.WalkerInstructions := by
  unfold Obligations.WalkerInstructions
  refine fun s s' l n x hwho hwalk => ⟨fun a b h => ⟨fun hdst hroom => ?send, fun hdst hfull => ?sendWaits, fun hdst => ?sendDropped⟩,
    fun d h => ⟨fun m ms hmsgs => ?receive, fun hnone => ?receiveWaits⟩,
    fun a h hk hstack => ⟨fun hroom => ?hop, fun hfull => ?hopWaits⟩,
    fun a c ch h => ⟨fun hchan hkind hroom => ?emit, fun hchan hkind hfull => ?emitWaits, fun hnone => ?emitDropped⟩,
    fun d a q slot v bs h hslot hread => ?distance, fun p a hn m h hlatch hheap => ?heap, fun p a t size set h hset hi => ?visit⟩
  case send =>
    exact runSeq_next h _ (by simp only [hwho, hwalk, if_neg (Nat.not_le.2 hdst), hroom, Bool.not_true, Bool.false_eq_true, if_false]) rfl rfl
  case sendWaits =>
    exact runSeq_next h _ (by simp only [hwho, hwalk, if_neg (Nat.not_le.2 hdst), hfull, Bool.not_false, if_true]) rfl rfl
  case sendDropped => exact runSeq_next h _ (by simp only [hwho, hwalk, if_pos hdst]) rfl rfl
  case receive => exact runSeq_next h _ (by simp only [hwho, hmsgs]) rfl rfl
  case receiveWaits => exact runSeq_next h _ (by simp only [hwho, hnone]) rfl rfl
  case hop =>
    exact runSeq_next h _ (by
      simp only [hwho, hwalk, if_neg (Nat.not_lt.2 hk), if_neg (mt List.contains_iff_mem.1 hstack), if_neg (Nat.not_le.2 hroom), acting_sys_solo h]) rfl rfl
  case hopWaits =>
    exact runSeq_next h _ (by
      simp only [hwho, hwalk, if_neg (Nat.not_lt.2 hk), if_neg (mt List.contains_iff_mem.1 hstack), if_pos hfull]) rfl rfl
  case emit =>
    exact runSeq_next h _ (by simp only [hwho, hwalk, hchan, if_neg (Classical.not_not.2 hkind), if_neg (Nat.not_le.2 hroom)]) rfl rfl
  case emitWaits => exact runSeq_next h _ (by simp only [hwho, hwalk, hchan, if_neg (Classical.not_not.2 hkind), if_pos hfull]) rfl rfl
  case emitDropped => exact runSeq_next h _ (by simp only [hwho, hwalk, hnone]) rfl rfl
  case distance =>
    rw [hwho] at hread
    exact runSeq_next h _ (by simp only [hwho, hwalk, hslot, hread]) rfl rfl
  case heap => exact runSeq_next h _ (by simp only [hwho, hwalk, hlatch, hheap, Bool.false_eq_true, if_false]; rfl) rfl rfl
  case visit => exact runSeq_next h _ (by simp only [hwho, hwalk, hset, Option.getD_some, if_neg (Nat.not_le.2 hi)]; rfl) rfl rfl

end Sys2Proof.Machine
end

section
/-!
What a U-form instruction leaves unchanged (R144, R288, R290).
-/
namespace Sys2Proof.Machine

/-- What a thread keeps of its gang's U-form instruction, which may move its pc. -/
def SameButPc (a b : Thread) : Prop :=
  b.regs = a.regs ∧ b.preds = a.preds ∧ b.fflags = a.fflags ∧ b.rstack = a.rstack ∧ b.trap = a.trap ∧ b.trapActive = a.trapActive

theorem SameButPc.of_keep {a b : Thread} (h : Keep a b) : SameButPc a b := by
  obtain ⟨hregs, hpreds, hflags, hstack, htrap, hactive, -⟩ := h
  exact ⟨hregs, hpreds, hflags, hstack, htrap, hactive⟩

theorem SameButPc.trans {a b c : Thread} (h : SameButPc a b) (k : SameButPc b c) : SameButPc a c := by
  obtain ⟨h1, h2, h3, h4, h5, h6⟩ := h
  obtain ⟨k1, k2, k3, k4, k5, k6⟩ := k
  exact ⟨k1.trans h1, k2.trans h2, k3.trans h3, k4.trans h4, k5.trans h5, k6.trans h6⟩

theorem Keep.pc {a b : Thread} (h : Keep a b) : b.pc = a.pc := h.2.2.2.2.2.2

/-- The result of a U-form instruction put where its destination says. -/
def State.resultU (s : State) (team : TeamId) (dst : Option UDst) (o : UOut) : State :=
  match o.res, dst with
  | some v, some (.k n) => s.writeK n.val v
  | some v, some (.push c) => (s.pushOne team c.val v).wakeChan team c.val
  | _, _ => s

/-- How the threads of a gang go on: a change of pc and stall that is made once. -/
structure GoesOn (i : Issue) (next : Next) (f : Thread → Thread) : Prop where
  once : ∀ t, f (f t) = f t
  same : ∀ t, SameButPc t (f t)
  adv : next = .adv → ∀ t, (f t).pc = i.pc + dw i.len
  goto : ∀ p, next = .goto p → ∀ t, (f t).pc = p

/-- A U-form instruction that does not fault puts its result, moves its gang and lets held threads go. -/
theorem endU_goesOn (s : State) (i : Issue) (team : TeamId) (dst : Option UDst) (o : UOut) (hfault : o.fault = none) (hnext : o.next ≠ .gone) :
    ∃ f, s.endU i team dst o = ((s.resultU team dst o).gangGo f).releaseHeld i.core i.ctx ∧ GoesOn i o.next f := by
  have same (p : Thread → DWord) (t : Thread) : SameButPc t { t with pc := p t, stall := o.stall } := ⟨rfl, rfl, rfl, rfl, rfl, rfl⟩
  cases hn : o.next with
  | adv =>
    refine ⟨fun t => { t with pc := i.pc + dw i.len, stall := o.stall }, ?_, fun _ => rfl, same _, fun _ _ => rfl, nofun⟩
    simp only [State.endU, hfault, hn]
    rfl
  | goto p =>
    refine ⟨fun t => { t with pc := p, stall := o.stall }, ?_, fun _ => rfl, same _, nofun, fun q h _ => Next.goto.inj h⟩
    simp only [State.endU, hfault, hn]
    rfl
  | stay =>
    refine ⟨fun t => { t with stall := o.stall }, ?_, fun _ => rfl, same _, nofun, nofun⟩
    simp only [State.endU, hfault, hn]
    rfl
  | gone => exact absurd hn hnext

/-- What the result changes: at most the destination scalar of the gang's skein, or the channel. -/
structure ResultFrame (s t : State) (dst : Option UDst) (res : Option DWord) (k : Skein) : Prop where
  still : StillU s t
  others : ∀ c x, (c, x) ≠ (s.sys.issue.core, s.sys.issue.ctx) → t.skein c x = s.skein c x
  scalars : ∃ ks, t.skein s.sys.issue.core s.sys.issue.ctx = some { k with ks } ∧
    (∀ d v, dst = some (.k d) → res = some v → ks = if d.val < 16 then k.ks else k.ks.set (d.val - 16) v) ∧
    ((∀ d, dst ≠ some (.k d)) ∨ res = none → ks = k.ks)
  threads : ∀ w th, s.thread w = some th → ∃ th', t.thread w = some th' ∧ Keep th th'

/-- Where no scalar is the destination, a calm change is all. -/
theorem ResultFrame.of_calm {s t : State} {dst : Option UDst} {res : Option DWord} {k : Skein} (h : Calm s t)
    (hk : s.skein s.sys.issue.core s.sys.issue.ctx = some k) (hdst : (∀ d, dst ≠ some (.k d)) ∨ res = none) : ResultFrame s t dst res k := by
  have hskein (c x : Nat) : t.skein c x = s.skein c x := congrArg (fun m : Table (Nat × Nat) Skein => m.find (c, x)) h.still.skeins
  refine ⟨h.still.u, fun c x _ => hskein c x, ⟨k.ks, (hskein _ _).trans hk, fun d v hd hv => ?_, fun _ => rfl⟩, h.threads⟩
  rcases hdst with hnot | hnone
  · exact absurd hd (hnot d)
  · rw [hnone] at hv
    cases hv

theorem writeK_frame {s : State} {k : Skein} (d : Fin 64) (v : DWord) (hplain : s.sys.issue.runAhead = none)
    (hk : s.skein s.sys.issue.core s.sys.issue.ctx = some k) : ResultFrame s (s.writeK d.val v) (some (.k d)) (some v) k := by
  have hput (ks : List DWord) (hks : ks = if d.val < 16 then k.ks else k.ks.set (d.val - 16) v) :
      (∀ e x, some (UDst.k d) = some (.k e) → some v = some x → ks = if e.val < 16 then k.ks else k.ks.set (e.val - 16) x) ∧
        ((∀ e, some (UDst.k d) ≠ some (.k e)) ∨ some v = none → ks = k.ks) := by
    refine ⟨fun e x he hx => ?_, fun h => ?_⟩
    · cases he
      cases hx
      exact hks
    · exact h.elim (fun hno => absurd rfl (hno d)) nofun
  by_cases hlow : d.val < 16
  · have hsame : s.writeK d.val v = s := if_pos hlow
    rw [hsame]
    exact ⟨(Still.refl s).u, fun _ _ _ => rfl, ⟨k.ks, hk, hput k.ks (if_pos hlow).symm⟩, (Calm.refl s).threads⟩
  · have hset : s.writeK d.val v = s.modSkein s.sys.issue.core s.sys.issue.ctx (fun k => { k with ks := k.ks.set (d.val - 16) v }) := by
      simp only [State.writeK, if_neg hlow, hplain]
    rw [hset]
    refine ⟨⟨rfl, rfl, rfl, rfl, rfl, rfl, rfl, rfl, rfl, rfl, (Still.refl s).teams⟩, fun c x hne => find_upd_ne _ _ _ _ hne,
      ⟨k.ks.set (d.val - 16) v, ?_, hput _ (if_neg hlow).symm⟩, (Calm.refl s).threads⟩
    rw [State.skein, State.modSkein, find_upd, show s.skeins.find (s.sys.issue.core, s.sys.issue.ctx) = some k from hk]
    rfl

theorem resultU_frame {s : State} {k : Skein} (team : TeamId) (dst : Option UDst) (o : UOut) (hplain : s.sys.issue.runAhead = none)
    (hk : s.skein s.sys.issue.core s.sys.issue.ctx = some k) : ResultFrame s (s.resultU team dst o) dst o.res k := by
  cases hres : o.res with
  | none =>
    have hsame : s.resultU team dst o = s := by simp only [State.resultU, hres]
    rw [hsame]
    exact .of_calm (Calm.refl s) hk (.inr rfl)
  | some v =>
    match dst with
    | none =>
      have hsame : s.resultU team none o = s := by simp only [State.resultU, hres]
      rw [hsame]
      exact .of_calm (Calm.refl s) hk (.inl fun _ => nofun)
    | some (.push c) =>
      have hpush : s.resultU team (some (.push c)) o = (s.pushOne team c.val v).wakeChan team c.val := by simp only [State.resultU, hres]
      rw [hpush]
      exact .of_calm (pushU_calm s team c.val v) hk (.inl fun _ => nofun)
    | some (.k d) =>
      have hset : s.resultU team (some (.k d)) o = s.writeK d.val v := by simp only [State.resultU, hres]
      rw [hset]
      exact writeK_frame d v hplain hk

/-- What a U-form instruction that acts on s leaves of it in t. -/
structure UniformKeeps (s t : State) (i : Issue) (dst : Option UDst) (o : UOut) (k : Skein) : Prop where
  still : StillU s t
  others : ∀ c x, (c, x) ≠ (i.core, i.ctx) → t.skein c x = s.skein c x
  scalars : ∃ ks, t.skein i.core i.ctx = some { k with ks } ∧
    (∀ d v, dst = some (.k d) → o.res = some v → ks = if d.val < 16 then k.ks else k.ks.set (d.val - 16) v) ∧
    ((∀ d, dst ≠ some (.k d)) ∨ o.res = none → ks = k.ks)
  threads : ∀ w th, s.thread w = some th → ∃ th', t.thread w = some th' ∧ SameButPc th th' ∧
    (w ∉ i.lanes.map (·.2) → th'.pc = th.pc) ∧ (w ∈ i.lanes.map (·.2) → o.next = .adv → th'.pc = i.pc + dw i.len) ∧
    (∀ p, w ∈ i.lanes.map (·.2) → o.next = .goto p → th'.pc = p)

/-- A calm change before the instruction acts. -/
theorem UniformKeeps.of_calm {s u t : State} {i : Issue} {dst : Option UDst} {o : UOut} {k : Skein} (h : Calm s u)
    (hu : UniformKeeps u t i dst o k) : UniformKeeps s t i dst o k := by
  have hskein (c x : Nat) : u.skein c x = s.skein c x := congrArg (fun m : Table (Nat × Nat) Skein => m.find (c, x)) h.still.skeins
  refine ⟨h.still.u.trans hu.still, fun c x hne => (hu.others c x hne).trans (hskein c x), hu.scalars, fun w th hw => ?_⟩
  obtain ⟨th₁, hw₁, hkeep⟩ := h.threads w th hw
  obtain ⟨th', hw', hsame, hout, hadv, hgoto⟩ := hu.threads w th₁ hw₁
  exact ⟨th', hw', (SameButPc.of_keep hkeep).trans hsame, fun hno => (hout hno).trans hkeep.pc, hadv, hgoto⟩

/-- The result, the gang's next pc and the release of held threads together. -/
theorem endU_keeps {s : State} {k : Skein} {i : Issue} (team : TeamId) (dst : Option UDst) (o : UOut) (hfault : o.fault = none)
    (hnext : o.next ≠ .gone) (hissue : s.sys.issue = i) (hplain : i.runAhead = none) (hk : s.skein i.core i.ctx = some k) :
    UniformKeeps s (s.endU i team dst o) i dst o k := by
  subst hissue
  obtain ⟨f, hend, hgo⟩ := endU_goesOn s s.sys.issue team dst o hfault hnext
  have hres := resultU_frame team dst o hplain hk
  have hgang := gangGo_still (s.resultU team dst o) f
  have hheld := releaseHeld_calm ((s.resultU team dst o).gangGo f) s.sys.issue.core s.sys.issue.ctx
  have hafter := hgang.trans hheld.still
  rw [hend]
  have hskein (c x : Nat) : (((s.resultU team dst o).gangGo f).releaseHeld s.sys.issue.core s.sys.issue.ctx).skein c x =
      (s.resultU team dst o).skein c x := congrArg (fun m : Table (Nat × Nat) Skein => m.find (c, x)) hafter.skeins
  obtain ⟨ks, hks, hput, hnot⟩ := hres.scalars
  refine ⟨hres.still.trans hafter.u, fun c x hne => (hskein c x).trans (hres.others c x hne), ⟨ks, (hskein _ _).trans hks, hput, hnot⟩,
    fun w th hw => ?_⟩
  obtain ⟨th₁, hw₁, hkeep₁⟩ := hres.threads w th hw
  have hlanes : (s.resultU team dst o).sys.issue.lanes = s.sys.issue.lanes := congrArg (fun y : Sys => y.issue.lanes) hres.still.sys
  have hgo' := gangGo_thread (s.resultU team dst o) f hgo.once w
  rw [hlanes, hw₁, Option.map_some] at hgo'
  by_cases hin : w ∈ s.sys.issue.lanes.map (·.2)
  · rw [if_pos hin] at hgo'
    obtain ⟨th', hw', hkeep'⟩ := hheld.threads w _ hgo'
    exact ⟨th', hw', ((SameButPc.of_keep hkeep₁).trans (hgo.same th₁)).trans (.of_keep hkeep'), fun hno => absurd hin hno,
      fun _ hadv => hkeep'.pc.trans (hgo.adv hadv th₁), fun p _ hgoto => hkeep'.pc.trans (hgo.goto p hgoto th₁)⟩
  · rw [if_neg hin] at hgo'
    obtain ⟨th', hw', hkeep'⟩ := hheld.threads w _ hgo'
    exact ⟨th', hw', (SameButPc.of_keep hkeep₁).trans (.of_keep hkeep'), fun _ => hkeep'.pc.trans hkeep₁.pc, fun h => absurd h hin,
      fun _ h => absurd h hin⟩

/-- Settles O52: the sources' reads are calm, and the end changes the destination and the gang's pcs alone. -/
theorem uniformFrame : Obligations.UniformFrame := by
  unfold Obligations.UniformFrame
  intro s s' u srcs dst vs o k hfault hnext hplain keeps
  have flat {a t : State} (h : UniformKeeps a t s.sys.issue dst o k) : keeps a t s.sys.issue := by
    obtain ⟨⟨hmem, hsync, haccs, hhanks, herrs, hplat, hdom, hcmds, hsys, hqueues, hteams⟩, hothers, hscalars, hthreads⟩ := h
    refine ⟨hmem, hsync, haccs, hhanks, herrs, hplat, hdom, hcmds, hsys, hqueues, hteams, hothers, hscalars, fun w th hw => ?_⟩
    obtain ⟨th', hw', ⟨hregs, hpreds, hflags, hstack, htrap, hactive⟩, hpc⟩ := hthreads w th hw
    exact ⟨th', hw', hregs, hpreds, hflags, hstack, htrap, hactive, hpc⟩
  refine ⟨fun h hk => ?acts, fun hissue hk => flat (endU_keeps s.issueTeam dst o hfault hnext hissue hplain hk)⟩
  have hcalm := actingU_calm h
  have hk' : (s.actingU s' srcs).skein s.sys.issue.core s.sys.issue.ctx = some k :=
    (congrArg (fun m : Table (Nat × Nat) Skein => m.find _) hcalm.still.skeins).trans hk
  exact flat (.of_calm hcalm (endU_keeps s.issueTeam dst o hfault hnext (actingU_sys h) hplain hk'))

end Sys2Proof.Machine
end

section
/-!
The step: what it runs, and the machine right after reset (R33, R134 to R154, R322, R418).
-/
namespace Sys2Proof.Machine

/-! ### The words of the specification -/

/-- Settles O54, by evaluating the decoder on each of the words. -/
theorem specWordsDecode : Obligations.SpecWordsDecode := by
  unfold Obligations.SpecWordsDecode
  and_intros <;> rfl

/-! ### One pipe's turn -/

/-- A candidate selected, with the notes of its selection. -/
def State.selected (u : State) (core pipe : Nat) (ready : List Nat) (uniform : Bool) (k : Cand) : State :=
  let v := u.noteSelection core pipe ready k.ctx
  let v := if uniform then v.modCore core (fun c => { c with uniformClk := v.now + 1 }) else v
  v.passOver k.sets k.gang

/-- The ordinary gang of a selected candidate about to fetch. -/
def State.fetching (v : State) (core : Nat) (k : Cand) : State :=
  let lanes := gangLanes k.gang none
  let w := v.setSys { v.sys with issue := { core, ctx := k.ctx, lanes, pc := k.pc, runAhead := none } }
  lanes.foldl (fun (s : State) l => s.modThread l.2 (fun t => t.issued s.now)) w

/-- What the issue of an ordinary gang leaves beside its instruction. -/
def State.issuedOf (v : State) (k : Cand) (t : State) : State :=
  let lanes := gangLanes k.gang none
  let old := lanes.filterMap (fun l => (v.thread l.2).map (fun t => (l.2, t)))
  lanes.foldl (fun (s : State) l => s.modThread l.2 Thread.movedOn) (t.keepWaiting old)

/-- The issue of a candidate whose gang is an ordinary one, after its fetch. -/
theorem issueCand_fetched {u x : State} {core pipe : Nat} {ready : List Nat} {uniform : Bool} {k : Cand} {w1 w2 : Word}
    (hruns : gangRuns k.gang = [none])
    (hfetch : ((u.selected core pipe ready uniform k).fetching core k).fetchInstr = (x, some (w1, w2))) :
    u.issueCand core pipe ready uniform k = andThen (x.act w1 w2) ((u.selected core pipe ready uniform k).issuedOf k) := by
  have hgang : (u.selected core pipe ready uniform k).issueGang core k.ctx none (gangLanes k.gang none) k.pc =
      andThen (x.act w1 w2) ((u.selected core pipe ready uniform k).issuedOf k) := by
    simp only [State.fetching] at hfetch
    simp only [State.issueGang, hfetch]
    rfl
  have hcand : u.issueCand core pipe ready uniform k =
      (u.selected core pipe ready uniform k).issueRuns core k.ctx k.gang k.pc [none] := by rw [← hruns]; rfl
  rw [hcand, State.issueRuns, hgang]
  exact andThen_next

/-- The first candidate's instruction is the turn's where it goes on and the uniform pipe lets it. -/
theorem issueFirst_next {u t : State} {core pipe : Nat} {ready : List Nat} {k : Cand} {ks : List Cand}
    (hcand : u.issueCand core pipe ready (u.candU k) k = .next t) (hstall : t.onlyStalled k = false)
    (hgrant : u.candU k = false ∨ u.uniformGrants core k = true) : u.issueFirst core pipe ready false (k :: ks) = .next t := by
  have hlet : (u.candU k && (false || !u.uniformGrants core k)) = false := by
    rcases hgrant with h | h <;> simp [h]
  simp only [State.issueFirst, hcand, hstall, hlet, Bool.false_eq_true, if_false]

/-- A fault or a refusal of the first candidate's instruction is the turn's. -/
theorem issueFirst_stop {u : State} {core pipe : Nat} {ready : List Nat} {k : Cand} {ks : List Cand} {o : Host.Outcome State Fault Refusal}
    (hcand : u.issueCand core pipe ready (u.candU k) k = o) (hstop : ∀ t, o ≠ .next t) :
    u.issueFirst core pipe ready false (k :: ks) = o := by
  cases o with
  | next t => exact absurd rfl (hstop t)
  | fault f => simp only [State.issueFirst, hcand]
  | refused f => simp only [State.issueFirst, hcand]

theorem act_accepted {x : State} {w1 w2 : Word} {i : Instr} (hdec : decode w1 w2 = .ok i) (hkind : kindAccepts x.leader w1 w2 = true) :
    x.act w1 w2 = exec i x := by
  simp only [State.act, hdec, hkind, if_true]

theorem act_illegal {x : State} {w1 w2 : Word} (h : (∃ i, decode w1 w2 = .ok i) → kindAccepts x.leader w1 w2 = false) :
    x.act w1 w2 = exec (.illegalEncoding w1 w2) x := by
  cases hdec : decode w1 w2 with
  | error e =>
    simp only [State.act, hdec]
    rfl
  | ok i =>
    simp only [State.act, hdec, h ⟨i, hdec⟩, Bool.false_eq_true, if_false]
    rfl

/-- A turn of a compute core's pipe. -/
theorem step_turn {s : State} {core pipe : Nat} {ts : List (Nat × Nat)} (hagenda : s.sys.agenda = []) (hturns : s.sys.turns = (core, pipe) :: ts)
    (hcore : core < Config.cores) : step s = (s.setSys { s.sys with turns := ts }).issuePipe core pipe := by
  simp only [step, hagenda, hturns, State.takeTurn, if_pos hcore]

/-- What a turn comes to whose first candidate's gang has fetched words in x: `done` is what the issue leaves beside its instruction. -/
structure TurnOf (s u x : State) (core : Nat) (k : Cand) (w1 w2 : Word) (done : State → State) : Prop where
  next : ∀ {t : State}, x.act w1 w2 = .next t → (done t).onlyStalled k = false → u.candU k = false ∨ u.uniformGrants core k = true →
    step s = .next (done t)
  stop : ∀ {o : Host.Outcome State Fault Refusal}, x.act w1 w2 = o → (∀ t, o ≠ .next t) → step s = o

theorem andThen_stop {o : Host.Outcome State Fault Refusal} (f : State → State) (h : ∀ t, o ≠ .next t) : andThen o f = o := by
  cases o with
  | next t => exact absurd rfl (h t)
  | fault r => rfl
  | refused r => rfl

theorem turn_issue {s x : State} {core pipe : Nat} {ts : List (Nat × Nat)} {k : Cand} {ks : List Cand} {w1 w2 : Word}
    (hcands : (s.setSys { s.sys with turns := ts }).cands core pipe = k :: ks) (hruns : gangRuns k.gang = [none])
    (hfetch : ((State.selected (s.setSys { s.sys with turns := ts }) core pipe (((s.setSys { s.sys with turns := ts }).cands core pipe).map (·.ctx))
      ((s.setSys { s.sys with turns := ts }).candU k) k).fetching core k).fetchInstr = (x, some (w1, w2)))
    (hagenda : s.sys.agenda = []) (hturns : s.sys.turns = (core, pipe) :: ts) (hcore : core < Config.cores) :
    TurnOf s (s.setSys { s.sys with turns := ts }) x core k w1 w2
      ((State.selected (s.setSys { s.sys with turns := ts }) core pipe (((s.setSys { s.sys with turns := ts }).cands core pipe).map (·.ctx))
        ((s.setSys { s.sys with turns := ts }).candU k) k).issuedOf k) := by
  generalize hu : s.setSys { s.sys with turns := ts } = u at hcands hfetch ⊢
  have hpipe : step s = u.issueFirst core pipe ((u.cands core pipe).map (·.ctx)) false (k :: ks) := by
    rw [step_turn hagenda hturns hcore, hu]
    exact congrArg (u.issueFirst core pipe _ false) hcands
  have hissue := issueCand_fetched hruns hfetch
  refine ⟨fun hact hstall hgrant => ?_, fun hact hstop => ?_⟩
  · rw [hact] at hissue
    exact hpipe.trans (issueFirst_next hissue hstall hgrant)
  · rw [hact, andThen_stop _ hstop] at hissue
    exact hpipe.trans (issueFirst_stop hissue hstop)

/-! ### Words fetched -/

/-- Performing stores none of which is chosen changes nothing. -/
theorem splitStores_none {q : PendStore → Bool} : ∀ {l : List PendStore}, (∀ p ∈ l, q p = false) → splitStores q l = ([], l)
  | [], _ => rfl
  | p :: ps, h => by
    simp [splitStores, splitStores_none fun x hx => h x (List.mem_cons_of_mem _ hx), h p (List.mem_cons_self ..)]

theorem performStores_none {s : State} {q : PendStore → Bool} (h : ∀ p ∈ s.mem.stores, q p = false) : s.performStores q = s := by
  simp only [State.performStores, splitStores_none h]
  rfl

/-- The 8 bytes around a word that no write and no store of the thread touches. -/
theorem fetchUnit_plain {v : State} {w : Who} {tg : Target} (hstores : ∀ p ∈ v.mem.stores, p.who ≠ w)
    (hhist : v.mem.hist.find? (·.on (tg.loc / 8 * 8) 8) = none) (hwalk : v.walkBlock w = none) :
    v.fetchUnit [w] tg = (v, v.mem.read tg.key (tg.loc / 8 * 8) 8) := by
  have hperform : v.performStores (fun p => decide (p.who ∈ [w]) && meets (tg.loc / 8 * 8) 8 p.loc p.bytes.length) = v :=
    performStores_none fun p hp => by simp [hstores p hp]
  simp only [State.fetchUnit, hperform, State.viewBytes, hhist, List.foldl_cons, List.foldl_nil, State.sawWrite, if_true, List.flatMap_cons,
    List.flatMap_nil, hwalk, Option.map_none, Option.getD_none, List.append_nil]
  rfl

theorem fault_ne_next (f : Fault) (t : State) : (.fault f : Host.Outcome State Fault Refusal) ≠ .next t := nofun

theorem refused_ne_next (r : Refusal) (t : State) : (.refused r : Host.Outcome State Fault Refusal) ≠ .next t := nofun

/-- Settles O53: due steps first, then the turns, then the next clk; a turn runs what its fetched words decode to. -/
theorem stepRunsDecoded : Obligations.StepRunsDecoded := by
  unfold Obligations.StepRunsDecoded
  refine fun s => ⟨fun d ds hagenda => ⟨fun hlive => ⟨?due, runDue_exec d⟩, fun hstop hin => ?dropped⟩,
    fun hagenda hturns => ⟨?clk, fun _ => nextClk_now s⟩,
    fun core pipe ts k ks x w1 w2 hagenda hturns hcore hcands hruns hfetch hgrant => ?turn,
    fun w pc v tg hreach hstores hhist hwalk => ?fetch⟩
  case due =>
    have hserve : ¬(s.plat.stopped && !d.outside) = true := by rcases hlive with h | h <;> simp [h]
    simp only [step, hagenda]
    exact if_neg hserve
  case dropped =>
    have hserve : (s.plat.stopped && !d.outside) = true := by simp [hstop, hin]
    simp only [step, hagenda]
    exact if_pos hserve
  case clk => simp only [step, hagenda, hturns]
  case turn =>
    have hissue := turn_issue hcands hruns hfetch hagenda hturns hcore
    exact ⟨fun i t hdec hkind hexec => ⟨decode_wf_steps hdec, fun hstall =>
        hissue.next ((act_accepted hdec hkind).trans hexec) hstall hgrant⟩,
      fun i f hdec hkind hexec => hissue.stop ((act_accepted hdec hkind).trans hexec) (fault_ne_next f),
      fun i r hdec hkind hexec => hissue.stop ((act_accepted hdec hkind).trans hexec) (refused_ne_next r),
      fun t hexec hillegal hstall => hissue.next ((act_illegal hillegal).trans hexec) hstall hgrant⟩
  case fetch =>
    simp only [State.fetchWord, hreach, fetchUnit_plain hstores hhist hwalk]
    exact ⟨_, rfl⟩

/-! ### The machine right after reset -/

/-- Every register of a launch queue reads 0 after reset. -/
theorem launchQueue_read_reset (o : Nat) : LaunchQueue.read {} o = 0 := by
  simp only [LaunchQueue.read]
  repeat' split
  all_goals rfl

/-- Every register of an error queue reads 0 after reset. -/
theorem errQueue_read_reset (o : Nat) : ErrQueue.read {} o = 0 := by
  simp only [ErrQueue.read]
  repeat' split
  all_goals rfl

/-- The launch-queue registers of the control space (R371). -/
theorem ctlRead8_queue (s : State) {q o : Nat} (hq : q < 64) (ho : o < 64) :
    s.ctlRead8 (0x10000 + 64 * q + o) = dw ((s.queue q).read o) := by
  have hnum : (0x10000 + 64 * q + o - 0x10000) / 64 = q := by omega
  have hoff : (0x10000 + 64 * q + o - 0x10000) % 64 = o := by omega
  rw [State.ctlRead8, if_neg (by omega), if_neg (by omega), if_neg (by omega), if_neg (by omega), if_pos (by omega), hnum, hoff]

/-- The error-queue registers of the control space (R420). -/
theorem ctlRead8_errQueue (s : State) {n o : Nat} (hn : n < 4) (ho : o < 64) :
    s.ctlRead8 (0x20000 + 64 * n + o) = dw ((s.errs.queues.getD n {}).read o) := by
  have hnum : (0x20000 + 64 * n + o - 0x20000) / 64 = n := by omega
  have hoff : (0x20000 + 64 * n + o - 0x20000) % 64 = o := by omega
  rw [State.ctlRead8, if_neg (by omega), if_neg (by omega), if_neg (by omega), if_neg (by omega), if_neg (by omega), if_pos (by omega),
    hnum, hoff]

theorem register_offset_lt {o : Nat} (ho : o ∈ [0, 8, 16, 24, 32]) : o < 64 := by
  revert o
  decide

/-- Tile memory is not HBM. -/
theorem isHbm_of_isTile {loc : Nat} (h : isTile loc = true) : isHbm loc = false := by
  simp only [isTile, Bool.and_eq_true, decide_eq_true_eq] at h
  simp only [isHbm, decide_eq_false_iff_not]
  simp only [Config.tileBase, Config.hbmEnd] at *
  omega

/-- The error queues of the reset machine are as new. -/
theorem reset_errQueue : ∀ n < 4, State.reset.errs.queues.getD n {} = {} := by
  intro n hn
  match n, hn with
  | 0, _ | 1, _ | 2, _ | 3, _ => rfl

/-- Settles O57: the fields of the reset machine by evaluation, the registers of all queues through the one rule of each block. -/
theorem resetValues : Obligations.ResetValues := by
  unfold Obligations.ResetValues
  refine ⟨⟨rfl, by decide, by decide⟩, fun key a ha => ?tile, fun k hk _ => ?keys, rfl, rfl, rfl, rfl, rfl, rfl, rfl, rfl, rfl, fun c => ⟨rfl, rfl, rfl⟩, fun q => rfl,
    fun q hq o ho => ?queue, fun n hn o ho => ?errQueue, ?_⟩
  case tile =>
    rw [Mem.byteAt, isHbm_of_isTile ha]
    rfl
  case keys =>
    have hne : ¬0 = k := by omega
    exact if_neg hne
  case queue =>
    rw [ctlRead8_queue _ hq (register_offset_lt ho)]
    exact congrArg dw (launchQueue_read_reset o)
  case errQueue =>
    rw [ctlRead8_errQueue _ hn (register_offset_lt ho), reset_errQueue n hn, errQueue_read_reset]
    rfl
  and_intros <;> rfl

end Sys2Proof.Machine
end

section
/-!
The steps of a core that no instruction names, and the completions of supervisor instructions (R39, R41, R54, R55, R61 to R64, R108,
R110, R299, R301, R395, R413).
-/
namespace Sys2Proof.Machine

/-- A core number of the device meets the range check of the steps of a core. -/
theorem not_cores_le {core : Nat} (h : core < 192) : ¬Config.cores ≤ core := Nat.not_le.2 h

/-- A number inserted one by one comes from the list or stood there before. -/
theorem mem_of_mem_foldl_insertNat {y : Nat} : ∀ {l acc : List Nat}, y ∈ l.foldl insertNat acc → y ∈ acc ∨ y ∈ l
  | [], _, h => .inl h
  | a :: l, acc, h => by
    rcases mem_of_mem_foldl_insertNat (l := l) h with h | h
    · rcases insertNat_mem acc a y h with rfl | h
      · exact .inr (List.mem_cons_self ..)
      · exact .inl h
    · exact .inr (List.mem_cons_of_mem _ h)

/-! ### The steps of a core -/

/-- A draw with a bobbin chosen and a context free (R41). -/
theorem execDraw_draws {s : State} {core n : Nat} {b : Bobbin} (hcore : core < 192) (hchoice : s.drawChoice core = some (n, b))
    (hcan : s.canDraw core = true) :
    exec (.draw core) s =
      (let left (bs : Table Nat Bobbin) : Table Nat Bobbin :=
         if b.threads.length ≤ 32 then bs.del n else bs.put n { b with threads := b.threads.drop 32 }
       let r := s.modCore core (fun k => { k with lastDraw := s.now, bobbins := left k.bobbins })
       .next (((r.formSkein core b.slot ((b.threads.take 32).map (fun x => Who.lane core b.slot x.1))).fileAll core).wakeCore core)) := by
  show execDraw core s = _
  have hnone : ((b.threads.drop 32).isEmpty = true) = (b.threads.length ≤ 32) := by simp
  simp only [execDraw, if_neg (not_cores_le hcore), hchoice, hcan, Bool.not_true, Bool.false_eq_true, if_false, hnone]

/-- Forcing changes a ready thread and no other (R54). -/
theorem execForcing_ready {s : State} {w : Who} {t : Thread} (ht : s.thread w = some t) (hready : t.state = .ready) :
    ∃ u, exec (.forcing w) s = .next u ∧ u.thread w = some { t with forced := true } ∧ ∀ v, v ≠ w → u.thread v = s.thread v := by
  refine ⟨_, rfl, ?_, fun v hv => thread_modThread_ne s hv _⟩
  rw [thread_modThread, ht, Option.map_some, if_pos hready]

/-- The timer of `idle` drops its expired intervals and sets event 3 in the team alone (R299). -/
theorem execIdleTimer_expired {s : State} {core slot : Nat} {v : Team} (hv : s.team (core, slot) = some v) (hdue : ∃ c ∈ v.timers, c ≤ s.now) :
    ∃ u, exec (.idleTimer core slot) s = .next u ∧
      u.team (core, slot) = some { v with timers := v.timers.filter (fun c => decide (s.now < c)), events := v.events ||| 8#4 } ∧
      ∀ t, t ≠ (core, slot) → u.team t = s.team t := by
  have hany : v.timers.any (· ≤ s.now) = true := by simpa using hdue
  refine ⟨_, rfl, ?_, fun t ht => team_modTeam_ne s ht _⟩
  rw [team_modTeam, hv, Option.map_some, if_pos hany]

/-- The writing of a saved team waits for its engine work, and then writes the area whose banks are sound (R301). -/
theorem execCtxsaveWrite_writes {s : State} {core ctx : Nat} {pc : DWord} {p : Pending} {v : Team}
    (hpend : s.pend.find? (fun p => p.core = core ∧ p.ctx = ctx) = some p) (hteam : s.team (core, p.slot) = some v)
    (hlive : v.ending = none) (hws : s.completing core ctx pc ≠ []) :
    (s.outstanding (core, p.slot) = true → exec (.ctxsaveWrite core ctx pc) s = .next s) ∧
    (s.outstanding (core, p.slot) = false → (∀ b ∈ v.banks, b ∉ (s.core core).accPoison) →
      exec (.ctxsaveWrite core ctx pc) s =
        (let w := (s.completing core ctx pc).headD (.lane core 0 0)
         let tag := (s.core core).saveCount + 1
         let bs := s.image (core, p.slot) v tag
         .next (((s.writeArea w core p.area bs (bs.length / 64 + 1)).freeSaved (core, p.slot) tag).finishSave p (s.completing core ctx pc)
           (dw bs.length)))) := by
  have hsome : v.ending.isSome = false := by rw [hlive]; rfl
  have hnonempty : (s.completing core ctx pc).isEmpty = false := by simpa using hws
  refine ⟨fun hout => ?waits, fun hout hbanks => ?writes⟩ <;> show execCtxsaveWrite core ctx pc s = _
  case waits =>
    simp only [execCtxsaveWrite, hpend, hteam, hsome, hnonempty, hout, Bool.false_eq_true, if_false, if_true]
  case writes =>
    have hsound : (v.banks.foldl insertNat []).zipIdx.filter (fun b => (s.core core).accPoison.contains b.1) = [] := by
      rw [List.filter_eq_nil_iff]
      intro b hb hmem
      have hbank : b.1 ∈ v.banks := (mem_of_mem_foldl_insertNat (List.fst_mem_of_mem_zipIdx hb)).resolve_left List.not_mem_nil
      exact hbanks b.1 hbank (List.contains_iff_mem.1 hmem)
    simp only [execCtxsaveWrite, hpend, hteam, hsome, hnonempty, hout, Bool.false_eq_true, if_false, hsound, List.foldl_nil]

/-- Settles O39: each step of a core by its own rule. -/
theorem coreSteps : Obligations.CoreSteps := by
  unfold Obligations.CoreSteps
  refine ⟨⟨fun s core n b => execDraw_draws, fun s w t => execForcing_ready, fun s core slot o x hx hhalt hdue => ?starvation,
      fun s core hcore hstuck hsince => ?deadlock, fun s core hcore => ⟨?restart, ?resume, ?hang⟩, fun s r hr => ?rollback,
      fun s b bs hwait hroom => ?deferred⟩,
    fun s core ctx pc => ⟨rfl, rfl⟩, fun s core slot v => execIdleTimer_expired, fun s core ctx pc p v => execCtxsaveWrite_writes⟩
  case starvation =>
    show execStarvation core slot o s = _
    simp only [execStarvation, hx, hhalt, hdue, Bool.not_true, Bool.or_self, Bool.false_eq_true, if_false]
  case deadlock =>
    show execClaimDeadlock core s = _
    simp only [execClaimDeadlock, if_neg (not_cores_le hcore), hstuck, hsince, Bool.and_self, Bool.not_true, Bool.false_eq_true, if_false]
  case restart => exact if_neg (not_cores_le hcore)
  case resume => exact if_neg (not_cores_le hcore)
  case hang => exact if_pos hcore
  case rollback =>
    show Host.Outcome.next (s.rollbackRun r.id) = _
    simp only [State.rollbackRun, hr]
  case deferred =>
    show execBatchEntryDeferred s = _
    simp only [execBatchEntryDeferred, hwait, hroom, Bool.false_eq_true, if_false]

end Sys2Proof.Machine
end

section
/-!
The steps of engine commands (R239, R242, R243, R245, R253, R457, R459, R467, R471, R474).
-/
namespace Sys2Proof.Machine

/-- The head of a queue stays until its guard is known, and goes unrun where the guard is false (R242, R245). -/
theorem execCommandHead_unguarded {s : State} {q : EngineQueue} {c : Cmd} (hhead : s.headOf (engineOf q) = some c) :
    (s.guardOf c = none → exec (.commandHead q) s = .next s) ∧
    (s.guardOf c = some false → exec (.commandHead q) s = .next (s.retireCmd c)) := by
  refine ⟨fun hguard => ?_, fun hguard => ?_⟩ <;> show execCommandHead q s = _ <;> simp only [execCommandHead, hhead, hguard]

/-- A guard that allows the head lets it leave once its buffers do; a destination that fails its check ends the command (R242). -/
theorem execCommandHead_leaves {s : State} {q : EngineQueue} {c : Cmd} (hhead : s.headOf (engineOf q) = some c)
    (hguard : s.guardOf c = some true) (hslot : s.slotRuns c = false) :
    (s.headBufs c = none → exec (.commandHead q) s = .next s) ∧
    (∀ ds rs, s.headBufs c = some (ds, rs) →
      (∀ f, (s.dests c).findSome? (s.destFail c) = some f →
        exec (.commandHead q) s =
          .next ((s.modCmd c.id (fun c => { c with info0 := f.info0.toNat, info1 := f.info1.toNat })).due
            [.commandEnd c.id (BitVec.ofNat 16 f.code) f.addr])) ∧
      ((s.dests c).findSome? (s.destFail c) = none →
        exec (.commandHead q) s = .next ((s.leaveHead c ds rs).startCmd { c with left := true, dsts := ds, rels := rs }))) := by
  have hrun : exec (.commandHead q) s = (match s.headBufs c with
      | none => .next s
      | some (ds, rs) =>
        match (s.dests c).findSome? (s.destFail c) with
        | some f =>
          .next ((s.modCmd c.id (fun c => { c with info0 := f.info0.toNat, info1 := f.info1.toNat })).due
            [.commandEnd c.id (BitVec.ofNat 16 f.code) f.addr])
        | none => .next ((s.leaveHead c ds rs).startCmd { c with left := true, dsts := ds, rels := rs })) := by
    show execCommandHead q s = _
    simp only [execCommandHead, hhead, hguard, hslot, Bool.false_eq_true, if_false] <;> rfl
  refine ⟨fun hbufs => ?_, fun ds rs hbufs => ⟨fun f hfail => ?_, fun hfail => ?_⟩⟩
  · rw [hrun, hbufs]
  · rw [hrun, hbufs, hfail]
  · rw [hrun, hbufs, hfail]

/-- A command that has left the head and waits for nothing goes as its run says (R243). -/
theorem execCommandComplete_runs {s v : State} {c : Cmd} {id : Nat} (hcmd : s.cmd id = some c) (hleft : c.left = true)
    (hreplay : c.waitReplay = false) (hdsts : c.laterDsts = []) (hrels : c.laterRels = []) (hbehind : s.behind c = false)
    (hsrc : s.srcReady c = true) {r : Ran} :
    s.runCmd c = (v, r) → exec (.commandComplete id) s =
      (match r with
       | .done n => .next ((v.dropWork ((v.cmd id).getD c)).settle ((v.cmd id).getD c) n)
       | .hold va => .next (v.due [.commandHold id (dw va)])
       | .bad f i0 i1 => .next ((v.modCmd id (fun c => { c with info0 := i0, info1 := i1 })).due [.commandEnd id (BitVec.ofNat 16 f.code) f.addr])
       | .wait => .next v) := by
  intro hrun
  show execCommandComplete id s = _
  simp only [execCommandComplete, hcmd, hleft, hreplay, hdsts, hrels, hbehind, hsrc, List.isEmpty_nil, Bool.not_true, Bool.or_self,
    Bool.false_eq_true, if_false, hrun] <;> rfl

/-- Settles O40: each step of a command by its own rule. -/
theorem commandSteps : Obligations.CommandSteps := by
  unfold Obligations.CommandSteps
  refine ⟨fun s q c hhead => ⟨(execCommandHead_unguarded hhead).1, (execCommandHead_unguarded hhead).2, execCommandHead_leaves hhead⟩,
    fun s v c id hcmd hleft hreplay hdsts hrels hbehind hsrc => ?complete, fun s c id va hcmd => ?hold,
    fun s v c id bytes kind index i0 i1 code addr hcmd hunit hacts => ?ends, fun s id k hcast => ?cast⟩
  case complete =>
    have hruns {r : Ran} := execCommandComplete_runs (v := v) (r := r) hcmd hleft hreplay hdsts hrels hbehind hsrc
    exact ⟨fun n => hruns, fun va => hruns, fun f i0 i1 => hruns, hruns⟩
  case hold =>
    show execCommandHold id va s = _
    simp only [execCommandHold, hcmd]
  case ends =>
    show execCommandEnd id code addr s = _
    simp only [execCommandEnd, hcmd, hunit, hacts]
  case cast =>
    show execMulticastAbandon id s = _
    simp only [execMulticastAbandon, hcast]

end Sys2Proof.Machine
end

section
/-!
Graph nodes, the carder's deals, stream chunks, and a run of `acc.zero` (R258, R265, R266, R270 to R272, R321, R339, R341, R476).
-/
namespace Sys2Proof.Machine

/-- A fold over no element that its filter keeps changes nothing. -/
theorem foldl_filter_none {α β : Type} {p : α → Bool} {l : List α} (f : β → α → β) (b : β) (h : ∀ a ∈ l, p a = false) :
    (l.filter p).foldl f b = b := by
  have hnil : l.filter p = [] := List.filter_eq_nil_iff.2 fun a ha => by simp [h a ha]
  rw [hnil, List.foldl_nil]

/-- The walker of a core whose graphs have started issues the next ready node (R321). -/
theorem execGraphNodeIssue_next {s : State} {core gid : Nat} {g : Graph} {x : Nat × Nat × Nat}
    (hstarted : ∀ y ∈ s.graphsOn core, y.2.started = true ∧ y.2.dead = false) (hnode : s.nextNode core = some (x, gid, g)) :
    exec (.graphNodeIssue core) s = .next (s.issueNode g gid x.2.2) := by
  have hgone (f : State → Nat × Graph → State) :
      ((s.graphsOn core).filter (fun g => g.2.dead && g.2.running.isEmpty)).foldl f s = s :=
    foldl_filter_none f s fun y hy => by simp [(hstarted y hy).2]
  have hfresh (f : State → Nat × Graph → State) :
      ((s.graphsOn core).filter (fun g => !g.2.started && !g.2.dead)).foldl f s = s :=
    foldl_filter_none f s fun y hy => by simp [(hstarted y hy).1]
  show execGraphNodeIssue core s = _
  simp only [execGraphNodeIssue, hgone, hfresh, hnode]

/-- What the carder of a core deals next: an element of its segment, or one of its two streams (R270, R271). -/
def State.dealOf (s : State) (core : Nat) (k : Carder) : State × Deal :=
  if k.spJ < k.spK then (s, k.segment)
  else if k.mode = 1 then s.intersect core k (sumOf (k.streams.map (·.len)) + sumOf (k.fed.map (fun f => f.2.length)) + 4)
  else s.mergeNext core k

/-- A deal of the carder of a core whose port has room: an element, the end, a wait for a feed, or a fault (R270 to R272, R476). -/
theorem execCarderDeal_deals {s v : State} {core : Nat} {k k' : Carder} (hcore : core < 192) (hcard : (s.core core).carder = some k)
    (hdone : k.done = false) (hheld : k.held = none) (hroom : k.port.length < 32) :
    (∀ e, s.dealOf core k = (v, .elem k' e) →
      exec (.carderDeal core) s =
        .next ((v.setCarder core (some { k' with port := k'.port ++ [e], retried := false, refault := 0 })).wakePort (core, k.slot))) ∧
    (s.dealOf core k = (v, .finished k') →
      exec (.carderDeal core) s = .next ((v.setCarder core (some { k' with done := true })).wakePort (core, k.slot))) ∧
    (s.dealOf core k = (v, .wait k') → k'.fed = k.fed → exec (.carderDeal core) s = .next (v.setCarder core (some k'))) ∧
    (∀ f, s.dealOf core k = (v, .fault k' f) →
      exec (.carderDeal core) s =
        (let r : ErrRec := { code := f.code, sev := 3, kind := 1, index := core, slot := k'.slot,
                             asid := ((v.team (core, k.slot)).map (·.asid)).getD 0,
                             tag := v.tagOf (core, k.slot), addr := f.addr, phys := f.phys, info0 := f.info0, info1 := f.info1 }
         .next (((v.record r).setCarder core (some { k' with port := k'.port ++ [faultMarker f.code], done := true, faulted := true })).wakePort
           (core, k.slot)))) := by
  have hgo : (k.done || k.held.isSome || decide (32 ≤ k.port.length)) = false := by simp [hdone, hheld, hroom]
  simp only [State.dealOf]
  refine ⟨fun e hdeal => ?_, fun hdeal => ?_, fun hdeal hfed => ?_, fun f hdeal => ?_⟩ <;> show execCarderDeal core s = _ <;>
    simp only [execCarderDeal, if_neg (not_cores_le hcore), hcard, hgo, Bool.false_eq_true, if_false, hdeal]
  simp only [State.wakeFed, hfed, if_true]

/-- A chunk that passes through the fabric with nothing to report (R339). -/
theorem execStreamChunk_passes {s v : State} {f slot mem str id : Nat} {addr : DWord} {wr : Bool} {c : Cmd} {sl : FabSlot}
    {bs out : List Byte} (hslot : s.fabs.find (f, slot) = some sl) (hrun : sl.run = some id) (hcmd : s.cmd id = some c)
    (hbind : sl.bind = some (addr, mem, str, wr)) (hout : sl.output = none) (hdoom : sl.doomed = none) (hstuck : sl.stuck = false)
    (hreplay : c.waitReplay = false) (hready : s.streamReady c = true)
    (hread : s.engRead c ((if wr then sl.dst else addr) + dw sl.input.length)
      (Nat.min sl.chunk ((if wr then str else mem) - sl.input.length)) = (v, .ok (bs, false)))
    (heval : evalRun sl (sl.input ++ bs) (decide ((if wr then str else mem) ≤ (sl.input ++ bs).length)) = (out, none))
    (htaken : (sl.input ++ bs).length ≤ accepted sl (sl.input ++ bs) (decide ((if wr then str else mem) ≤ (sl.input ++ bs).length)))
    (hend : outputEnd (addr, mem, str, wr) out (decide ((if wr then str else mem) ≤ (sl.input ++ bs).length)) (sl.input.length / sl.chunk)
      (sl.input ++ bs).length = none)
    (hslow : slowChunks sl (sl.input ++ bs) (decide ((if wr then str else mem) ≤ (sl.input ++ bs).length)) (sl.input.length / sl.chunk) = []) :
    exec (.streamChunk f slot) s =
      .next (v.modFab (f, slot) (fun x => { x with
        input := sl.input ++ bs, doomed := none,
        output := if decide ((if wr then str else mem) ≤ (sl.input ++ bs).length) then some out else none })) := by
  have htook : decide (accepted sl (sl.input ++ bs) (decide ((if wr then str else mem) ≤ (sl.input ++ bs).length)) < (sl.input ++ bs).length) =
      false := decide_eq_false (Nat.not_lt.2 htaken)
  have hnone : (none <|> none : Option FabEnd) = none := rfl
  show execStreamChunk f slot s = _
  simp only [execStreamChunk, hslot, hrun, Option.bind_some, hcmd, hbind, hout, hdoom, hstuck, hreplay, hready, Option.isSome_none,
    Bool.or_self, Bool.not_true, Bool.false_eq_true, if_false, hread, heval, htook, Bool.false_and, hend, hnone, hslow,
    Option.isNone_none, Bool.and_true]

/-! ### A run of `acc.zero` (R258) -/

/-- A bank stands in a range of banks. -/
theorem mem_bankList {lo n x : Nat} : x ∈ bankList lo n ↔ lo ≤ x ∧ x < lo + n := by
  simp only [bankList, List.mem_map, List.mem_range]
  exact ⟨fun ⟨i, hi, hx⟩ => by omega, fun h => ⟨x - lo, by omega, by omega⟩⟩

/-- Elements written as zeros read as +0, and every other element as it was. -/
theorem acc_setAccs_zero (s : State) (core k lo n i : Nat) :
    (s.setAccs core lo (List.replicate n 0)).acc k i =
      if accKey core lo ≤ accKey k i ∧ accKey k i < accKey core lo + n then 0 else s.acc k i := by
  simp only [State.acc, setAccs_find, List.length_replicate]
  split
  · next h => rw [Option.getD_some, List.getD_eq_getElem?_getD, List.getElem?_replicate_of_lt (by omega)]; rfl
  · rfl

/-- A run of `acc.zero` leaves +0 in its banks, unpoisoned, and nothing else changed. -/
theorem runCmd_accZero {s : State} {c : Cmd} {b n : Nat} (hop : c.op = .accZero b n) :
    (s.runCmd c).2 = .done 0 ∧
    (∀ i < 131072, (s.runCmd c).1.acc c.team.1 i = if 256 * b ≤ i ∧ i < 256 * (b + n) then 0 else s.acc c.team.1 i) ∧
    (∀ k i, k ≠ c.team.1 → i < 131072 → 256 * (b + n) ≤ 131072 → (s.runCmd c).1.acc k i = s.acc k i) ∧
    (∀ x, x ∈ ((s.runCmd c).1.core c.team.1).accPoison ↔ x ∈ (s.core c.team.1).accPoison ∧ ¬(b ≤ x ∧ x < b + n)) := by
  have hrun : s.runCmd c = ((s.setAccs c.team.1 (256 * b) (List.replicate (256 * n) 0)).modCore c.team.1
      (fun k => { k with accPoison := k.accPoison.filter (fun x => !(bankList b n).contains x) }), .done 0) := by
    simp only [State.runCmd, hop, State.runMatrix]
  have hacc (k i : Nat) : (s.runCmd c).1.acc k i = (s.setAccs c.team.1 (256 * b) (List.replicate (256 * n) 0)).acc k i := by
    rw [hrun]; rfl
  refine ⟨by rw [hrun], fun i hi => ?here, fun k i hk hi hbanks => ?there, fun x => ?poison⟩
  case here =>
    rw [hacc, acc_setAccs_zero]
    refine ite_congr (propext ?_) (fun _ => rfl) fun _ => rfl
    simp only [accKey]
    omega
  case there =>
    rw [hacc, acc_setAccs_zero, if_neg]
    simp only [accKey]
    omega
  case poison =>
    have hcore : (s.setAccs c.team.1 (256 * b) (List.replicate (256 * n) 0)).core c.team.1 = s.core c.team.1 :=
      core_of_cores (setAccs_cores ..) _
    rw [hrun, modCore_core, hcore, List.mem_filter, Bool.not_eq_true', ← Bool.not_eq_true, List.contains_iff_mem, mem_bankList]

/-- Settles O41: each step by its own rule. -/
theorem engineSteps : Obligations.EngineSteps := by
  unfold Obligations.EngineSteps
  refine ⟨⟨fun s core gid i g x hstarted hnode hi => ?node, fun s v core k k' hcore hcard hdone hheld hroom => ?deal,
      fun s v f slot mem str id addr wr c sl bs hslot hrun hcmd hbind hout hdoom hstuck hreplay hready hread out heval htaken hend hslow =>
        execStreamChunk_passes hslot hrun hcmd hbind hout hdoom hstuck hreplay hready hread heval htaken hend hslow,
      fun s f slot node cycles id sl hslot hrun hdoom => ?cycles⟩, fun s c b n => runCmd_accZero⟩
  case node => exact hi ▸ execGraphNodeIssue_next hstarted hnode
  case deal => exact execCarderDeal_deals hcore hcard hdone hheld hroom
  case cycles =>
    show execCycleViolation f slot node cycles s = _
    simp only [execCycleViolation, hslot, hrun, hdoom]
    rfl

end Sys2Proof.Machine
end

section
/-!
The steps of a search die and of its walkers (R284, R285, R345 to R364, R481 to R486).
-/
namespace Sys2Proof.Machine

/-! ### Choosing a block -/

/-- The next block starts at an idle sequencer above any spilled one, once its guard and buffers let it (R242, R245, R346). -/
theorem execSearchBlockStart_starts {s : State} {stack : Nat} {b : Block} (hnext : (s.die stack).nextBlock = some b)
    (hidle : (s.die stack).running = none) (hspilled : ∀ p, (s.die stack).spilled = some p → p.prio < b.prio) :
    (let run (v : State) : State :=
       (v.modBlock stack b.entry (fun b => { b with started := true, lastWalk := v.now })).modDie stack (fun d => { d with running := some b.entry })
     (b.started = true → exec (.searchBlockStart stack) s = .next (run s)) ∧
     (∀ k ds rs, b.started = false → s.cmd b.cmdId = some k → s.guardOf k = some true → s.headBufs k = some (ds, rs) →
       exec (.searchBlockStart stack) s = .next (run (s.leaveHead k ds rs))) ∧
     (∀ k, b.started = false → s.cmd b.cmdId = some k → s.guardOf k = some false →
       exec (.searchBlockStart stack) s = .next ((s.dropBlock stack b.entry).retireCmd k))) := by
  have hgo : ((s.die stack).running.isSome || (s.die stack).spilled.any (fun p => b.prio ≤ p.prio)) = false := by
    rw [hidle, Option.isSome_none, Bool.false_or]
    cases hsp : (s.die stack).spilled with
    | none => rfl
    | some p => exact decide_eq_false (Nat.not_le.2 (hspilled p hsp))
  refine ⟨fun hst => ?_, fun k ds rs hst hcmd hguard hbufs => ?_, fun k hst hcmd hguard => ?_⟩ <;>
    show execSearchBlockStart stack s = _
  · simp only [execSearchBlockStart, hnext, hgo, hst, Bool.false_eq_true, if_false, if_true]
  · simp only [execSearchBlockStart, hnext, hgo, hst, hcmd, hguard, hbufs, Bool.false_eq_true, if_false]
  · simp only [execSearchBlockStart, hnext, hgo, hst, hcmd, hguard, Bool.false_eq_true, if_false]

/-! ### Commands on the stack alone -/

/-- A command that its die's state allows takes its effect, and the block goes on (R348). -/
theorem dieStep_ok {s u : State} {stack op : Nat} {f : State → Block → SearchCmd → Except Fail State} {b : Block} {c : SearchCmd}
    (hrun : s.running stack op = some (b, c)) (hok : f s b c = .ok u) : s.dieStep stack op f = u.advance stack b := by
  simp only [State.dieStep, hrun, hok]

/-- A command that its die's state refuses ends its block (R349, R481). -/
theorem dieStep_error {s : State} {stack op : Nat} {f : State → Block → SearchCmd → Except Fail State} {b : Block} {c : SearchCmd} {e : Fail}
    (hrun : s.running stack op = some (b, c)) (herr : f s b c = .error e) : s.dieStep stack op f = s.failBlock b e := by
  simp only [State.dieStep, hrun, herr]

/-- An optional ASID that is no other block's passes the check of R349. -/
theorem any_ne_eq_false {o : Option Nat} {n : Nat} (h : ∀ x, o = some x → x = n) : o.any (· != n) = false := by
  cases o with
  | none => rfl
  | some x => simp [h x rfl]

/-! ### Scans -/

/-- The state after a scan's step whose record has been read: `on` is what the next record, or the end of the scan, leaves (R353, R354). -/
theorem scanStep_reads {s v : State} {stack snap acq : Nat} {bare : Bool} {b : Block} {c : SearchCmd} {slot : QSlot} {r : ScanRes} {w : State}
    (hslot : (s.die stack).slots.find c.q = some slot) (hheap : heapFail ((s.die stack).heap c.h) b.asid = false) (hcount : c.count ≠ 0)
    (hrun : s.running stack (if bare then 4 else 3) = some (b, c)) (hsnap : s.takeSnap b c = (w, snap, acq))
    (hread : (w.modBlock stack b.entry (fun x => { x with snapTaken := some snap, snapAcq := acq })).scanRecord stack
      { b with snapTaken := some snap, snapAcq := acq } c slot bare snap
      (alignUp 16 (16 + vecBytes slot.dim slot.fmt) - (if bare then 16 else 0)) = (v, .ok r)) :
    s.scanStep stack bare =
      (match r with
       | .skip => v.scanNext stack { b with snapTaken := some snap, snapAcq := acq } c
       | .more dim part recId => v.modBlock stack b.entry (fun b => { b with dim, part, recId })
       | .offer x id => (v.modDie stack (fun d => { d with heaps := d.heaps.put c.h ((d.heap c.h).offer (x, id)) })).scanNext stack
           { b with snapTaken := some snap, snapAcq := acq } c) := by
  revert hread
  cases r <;> exact fun hread => by
    simp only [State.scanStep, hrun, hslot, hheap, hcount, hsnap, hread, Bool.false_eq_true, if_false]

/-! ### Walks -/

/-- A walk begins with its entry checked, in the stack itself (R359). -/
theorem execWalk_begins {s v : State} {stack : Nat} {b : Block} {c : SearchCmd} {tg : Target} (hrun : s.running stack 8 = some (b, c))
    (hcursor : b.cursor = 0) (halign : c.addr.toNat % 4 = 0)
    (hcheck : s.checkIssue (s.dieAccess stack b .fetch c.addr 4) = (v, .ok tg)) (hhbm : isHbm tg.loc = true) (hstack : stackOf tg.loc = stack) :
    exec (.walk stack) s =
      .next ((v.modBlock stack b.entry (fun b =>
        { b with cursor := 1, walkLeft := c.count, walkLive := 0, walkOrd := 0, lastWalk := v.now, retried := false, refault := 0 })).startThreads
          stack b.entry c.count) := by
  have hcursor' : ¬(b.cursor ≠ 0) := Classical.not_not.2 hcursor
  have halign' : ¬(c.addr.toNat % 4 ≠ 0) := Classical.not_not.2 halign
  have hown : (!(isHbm tg.loc && stackOf tg.loc == stack)) = false := by simp [hhbm, hstack]
  show execWalk stack s = _
  simp only [execWalk, hrun, if_neg hcursor', if_neg halign', hcheck, hown, Bool.false_eq_true, if_false]

/-- A walk none of whose threads has issued for its patience ends (R485). -/
theorem execWalkStalled_ends {s : State} {stack : Nat} {b : Block} {c : SearchCmd} (hrun : s.running stack 8 = some (b, c))
    (hcursor : b.cursor ≠ 0) (hlast : b.lastWalk + 1638400 ≤ s.now)
    (hgoing : ∀ p ∈ s.walkThreads stack b.entry, p.2.stopped = false ∧ p.2.state ≠ .parked) :
    exec (.walkStalled stack) s = .next (s.failBlock b { code := 0x0C05 }) := by
  have hall : (s.walkThreads stack b.entry).all (fun p => !p.2.stopped && p.2.state != .parked) = true := by
    rw [List.all_eq_true]
    intro p hp
    obtain ⟨hstop, hpark⟩ := hgoing p hp
    simp [hstop, hpark]
  show execWalkStalled stack s = _
  simp only [execWalkStalled, hrun, walkPatience]
  exact if_pos ⟨hcursor, hlast, hall⟩

/-- A send reaches the queue of a thread of its own search, and is dropped at any other (R284, R484). -/
theorem execWalkerMessage_reaches {s : State} {dst : Nat} {m : WalkMsg} {t : Thread} (hdst : dst < 8192)
    (hsend : (s.die (walkerStack dst)).sends.find? (fun m => m.dst = dst) = some m) (hthread : s.thread (.walk dst) = some t) :
    (let u := s.modDie (walkerStack dst) (fun d => { d with sends := d.sends.erase m })
     (∀ y, t.walk = some y → m.ctx.search = y.search →
       exec (.walkerMessage dst) s = .next (u.modThread (.walk dst) (fun t => { t with msgs := t.msgs ++ [m.body] }))) ∧
     ((∀ y, t.walk = some y → m.ctx.search ≠ y.search) → exec (.walkerMessage dst) s = .next (u.walkerDropped m.ctx m.src))) := by
  have hthere : ((s.modDie (walkerStack dst) (fun d => { d with sends := d.sends.erase m })).thread (.walk dst)) = some t := hthread
  refine ⟨fun y hy hsearch => ?_, fun hother => ?_⟩ <;> show execWalkerMessage dst s = _ <;>
    simp only [execWalkerMessage, if_neg (Nat.not_le.2 hdst), hsend, hthere, Option.bind_some]
  · exact if_pos (by simp [hy, hsearch])
  · refine if_neg ?_
    cases hwalk : t.walk with
    | none => simp
    | some y => simp [hother y hwalk]

/-- An exit notice lowers the walk's count; with the last of a walk that has started all its threads, the walk is complete (R359, R362). -/
theorem execExitNotice_counts {s : State} {stack : Nat} {m : WalkMsg} {ms : List WalkMsg} {b : Block} (hnotices : (s.die stack).notices = m :: ms) :
    (let u := s.modDie stack (fun d => { d with notices := ms })
     let w := u.modBlock stack b.entry (fun b => { b with walkLive := b.walkLive - 1 })
     (u.die stack).blocks.find? (fun b => b.entry = m.ctx.block ∧ b.pos = m.ctx.cmd) = some b →
     (b.walkLive ≤ 1 → b.walkLeft = 0 → exec (.exitNotice stack) s = .next ((w.performWalk stack b.entry).advance stack b)) ∧
     (1 < b.walkLive ∨ b.walkLeft ≠ 0 → exec (.exitNotice stack) s = .next w)) := by
  intro u w hblock
  refine ⟨fun hlive hleft => ?_, fun hmore => ?_⟩ <;> show execExitNotice stack s = _ <;> simp only [execExitNotice, hnotices, u, hblock]
  · exact if_pos ⟨hlive, hleft⟩
  · exact if_neg (by omega)

/-! ### Pre-emption -/

/-- A running block with no walker threads gives way at once to one of higher priority, unless a save row fails (R364, R486). -/
theorem execSearchPreempt_gives {s : State} {stack e : Nat} {b : Block} (hrunning : (s.die stack).running = some e)
    (hblock : (s.die stack).blocks.find? (fun b => b.entry = e) = some b) (hsave : (s.die stack).saveLost = false)
    (hhigher : (s.die stack).higherWaits b.prio = true) :
    (let u := (s.modBlock stack b.entry (fun b => { b with preempting := true }))
     u.walkThreads stack b.entry = [] →
     exec (.searchPreempt stack) s =
       .next (if Config.saveRowFails u.sys.free then u.tickFree.saveLost stack b
         else u.tickFree.modDie stack (fun d => { d with running := none, preempted := d.preempted ++ [b.entry] }))) := by
  intro u hthreads
  show execSearchPreempt stack s = _
  simp only [execSearchPreempt, hrunning, Option.bind_some, hblock, hsave, hhigher, Bool.not_true, Bool.false_eq_true, if_false, u, hthreads,
    List.foldl_nil, List.all_nil, if_true]
  exact (apply_ite Host.Outcome.next _ _ _).symm

/-- A spilled block above which none waits resumes, unless a save row fails (R364, R486). -/
theorem execSearchResume_goes {s : State} {stack : Nat} {b : Block} (hspilled : (s.die stack).spilled = some b)
    (hidle : (s.die stack).running = none) (hhigher : (s.die stack).higherWaits b.prio = false) :
    (let u := s.tickFree
     let w := u.modBlock stack b.entry (fun b => { b with preempting := false, lastWalk := u.now })
     let r := (w.walkThreads stack b.entry).foldl (fun (s : State) p => s.modThread p.1 (fun t => { t with stopped := false })) w
     exec (.searchResume stack) s =
       .next (if Config.saveRowFails s.sys.free then u.saveLost stack b
         else r.modDie stack (fun d => { d with running := some b.entry, preempted := d.preempted.filter (· != b.entry) }))) := by
  show execSearchResume stack s = _
  simp only [execSearchResume, hspilled, hidle, hhigher, Option.isSome_none, Bool.or_self, Bool.false_eq_true, if_false]
  exact (apply_ite Host.Outcome.next _ _ _).symm

/-- Settles O42: each step of a stack by its own rule. -/
theorem searchSteps : Obligations.SearchSteps := by
  unfold Obligations.SearchSteps
  refine ⟨fun s v stack b c => ⟨execSearchBlockStart_starts, fun hrun => ?nop, fun hrun => ⟨fun bs hread => ?loaded, fun va hread => ?held, fun f hread => ?bad⟩,
      fun hrun => ⟨fun hasid => ?heap, fun x hx hne => ?heapOther⟩, fun slot r hslot hheap hcount => ?scans, fun hrun hstk hheap hsrc => ?merge,
      fun k n hrun hheap hcmd hown hwrite => ?out, fun hrun => ?clear,
      fun tg hrun hcursor halign hcheck hhbm hstack => execWalk_begins hrun hcursor halign hcheck hhbm hstack,
      fun hrun hpre => ?start, fun hrun hcursor hlast hgoing => execWalkStalled_ends hrun hcursor hlast hgoing⟩,
    fun s stack n h hhop hidle => ?hop, fun s dst m t => execWalkerMessage_reaches, fun s stack m ms b => execExitNotice_counts,
    fun s stack e b => execSearchPreempt_gives, fun s stack b => execSearchResume_goes⟩
  case nop => exact congrArg Host.Outcome.next (dieStep_ok hrun rfl)
  case loaded | held | bad =>
    show execQload stack s = _
    simp only [execQload, hrun, hread]
  case heap =>
    have hfree := any_ne_eq_false hasid
    exact congrArg Host.Outcome.next (dieStep_ok hrun (by simp only [hfree, Bool.false_eq_true, if_false]))
  case heapOther =>
    exact congrArg Host.Outcome.next (dieStep_error hrun (if_pos (by simp [hx, hne])))
  case scans =>
    refine ⟨fun hrun hread => ?scan, fun hrun hread => ?cent⟩
    case scan => exact congrArg Host.Outcome.next ((scanStep_reads (bare := false) hslot hheap hcount hrun rfl hread).trans (by cases r <;> rfl))
    case cent => exact congrArg Host.Outcome.next ((scanStep_reads (bare := true) hslot hheap hcount hrun rfl hread).trans (by cases r <;> rfl))
  case merge =>
    have hlive : ¬s.plat.fsStack.contains c.stk = true := fun h => hstk (List.contains_iff_mem.1 h)
    exact congrArg Host.Outcome.next
      (dieStep_ok hrun (by simp only [if_neg hlive, hheap, hsrc, Bool.or_self, Bool.false_eq_true, if_false]))
  case out =>
    show execHout stack s = _
    simp only [execHout, hrun, hheap, hcmd, hown, Bool.not_true, Bool.false_eq_true, if_false, hwrite]
  case clear => exact congrArg Host.Outcome.next (dieStep_ok hrun rfl)
  case start =>
    show execWalkerThreadStart stack s = _
    simp only [execWalkerThreadStart, hrun, hpre, Bool.false_eq_true, if_false]
  case hop =>
    show execHopTakeup stack s = _
    simp only [execHopTakeup, hhop, hidle]

end Sys2Proof.Machine
end

section
/-!
Launches: records translated and admitted by kind, teams placed and retired, grids complete (R50, R105, R307, R313 to R320, R414, R436,
R447, R458).
-/
namespace Sys2Proof.Machine

/-! ### Translation (R105, R458) -/

/-- A record whose translation may start goes as the walk over its pages says. -/
theorem execExtentTranslation_walks {s v : State} {g : Nat} {x : Grid} {r : Scan} {es : List (Nat × Extent)} (hgrid : s.grid g = some x)
    (hstate : x.state = .checked ∨ (x.state = .held ∧ x.retry = true)) (hscan : s.scanAll x {} x.ranges = (v, r, es)) :
    (∀ code a i0 i1, r.err = some (code, a, i0, i1) ∨ (r.err = none ∧ r.invalid = [] ∧ r.excess = some (code, a, i0, i1)) →
      exec (.extentTranslation g) s = .next (v.refuse g code 11 a i0 i1)) ∧
    (r.err = none → r.excess = none → r.invalid = [] →
      exec (.extentTranslation g) s =
        .next (v.modGrid g (fun y => { y with state := .translated, extents := if y.kind = .graph then [] else es }))) ∧
    (r.err = none → r.invalid ≠ [] →
      exec (.extentTranslation g) s =
        .next ((v.modGrid g (fun y => { y with state := .held, retry := false })).batch
          { code := if x.retried then 0x0702 else 0x0701, core := 255, asid := x.asid, pc := 0,
            granules := (r.invalid.foldl (fun l p => addGranule l p false false) []).take 33, refault := 0, team := none,
            tag := x.seq, kind := 11, index := x.queue, access := AccKind.walk.num, addr := dw (r.invalid.headD 0) })) := by
  have hmay : (!(decide (x.state = .checked) || (decide (x.state = .held) && x.retry))) = false := by
    rcases hstate with h | ⟨h, hretry⟩
    · simp [h]
    · simp [h, hretry]
  refine ⟨fun code a i0 i1 hfail => ?failed, fun herr hexcess hinvalid => ?done, fun herr hinvalid => ?held⟩ <;>
    show execExtentTranslation g s = _
  case failed =>
    have hor : r.err.or (if r.invalid.isEmpty then r.excess else none) = some (code, a, i0, i1) := by
      rcases hfail with h | ⟨herr, hinvalid, hexcess⟩
      · rw [h, Option.some_or]
      · rw [herr, hinvalid, hexcess]; rfl
    simp only [execExtentTranslation, hgrid, hmay, Bool.false_eq_true, if_false, hscan, hor]
  case done =>
    simp only [execExtentTranslation, hgrid, hmay, Bool.false_eq_true, if_false, hscan, herr, hexcess, hinvalid, List.isEmpty_nil, if_true,
      Option.or_none]
  case held =>
    have hsome : r.invalid.isEmpty = false := by simpa using hinvalid
    simp only [execExtentTranslation, hgrid, hmay, Bool.false_eq_true, if_false, hscan, herr, hsome, Option.or_none]

/-! ### Admission by kind (R315, R319, R320) -/

/-- Grid and gang records are admitted by one rule. -/
theorem exec_launchRecord (g : Nat) (s : State) : ∀ i ∈ [Instr.gridRecord g, Instr.gangRecord g], exec i s = .next (s.admitLaunch g) := by
  simp only [List.forall_mem_cons, List.not_mem_nil, false_imp_iff, implies_true, and_true]
  exact ⟨rfl, rfl⟩

/-- A translated launch is refused where it could never fit, waits for placement, or is placed at once (R315). -/
theorem admitLaunch_translated {s : State} {g : Nat} {x : Grid} (hgrid : s.grid g = some x) (hstate : x.state = .translated) :
    (s.hopeless x = true → s.admitLaunch g = s.refuse g 0x0401 10 0 0 0) ∧
    (s.hopeless x = false → x.atOnce = false → s.admitLaunch g = s.leaveQueue g) ∧
    (∀ ps k, s.hopeless x = false → x.atOnce = true → x.plan s.rooms = some ps → x.kernel = some k →
      s.admitLaunch g = (s.leaveQueue g).placeAll g x k 0 ps) := by
  have hgo : ¬(x.state ≠ .translated) := Classical.not_not.2 hstate
  refine ⟨fun hhope => ?_, fun hhope honce => ?_, fun ps k hhope honce hplan hkernel => ?_⟩
  · simp only [State.admitLaunch, hgrid, if_neg hgo, hhope, if_true]
  · simp only [State.admitLaunch, hgrid, if_neg hgo, hhope, honce, Bool.not_false, Bool.false_eq_true, if_false, if_true]
  · simp only [State.admitLaunch, hgrid, if_neg hgo, hhope, honce, Bool.not_true, Bool.false_eq_true, if_false, hplan, hkernel]

/-- A translated graph record is refused on a fenced core or where its nodes cannot be read, and else starts its graph (R320, R414). -/
theorem execGraphRecord_translated {s : State} {g : Nat} {x : Grid} (hgrid : s.grid g = some x) (hstate : x.state = .translated) :
    ((s.core x.core).fenced = true → exec (.graphRecord g) s = .next (s.refuse g 0x0F04 10 x.addr 0 0)) ∧
    (∀ v, (s.core x.core).fenced = false → s.frontRead x x.addr (64 * x.nodes) = (v, none) →
      exec (.graphRecord g) s = .next (v.refuse g 0x0F01 10 x.addr 0 0)) ∧
    (∀ v bs, (s.core x.core).fenced = false → s.frontRead x x.addr (64 * x.nodes) = (v, some bs) →
      exec (.graphRecord g) s =
        (let w := v.leaveQueue g
         let counts := (List.range x.nodes).map (fun i => dfield (dwordsOf bs (64 * i)) 15 0)
         let gr : Graph := { core := x.core, team := (x.core, 16), addr := x.addr, loc := 0, n := x.nodes, slot := w.graphSlot x.core,
                             ready := [], cmd := w.sys.nextCmd, record := some g, image := bs, counts }
         let c : Cmd := { id := w.sys.nextCmd, engine := .walker x.core, team := (x.core, 16), tag := x.seq, asid := x.asid, grid := g,
                          op := .graph w.sys.nextCmd, left := true }
         .next { (w.enqueue c) with graphs := w.graphs.put w.sys.nextCmd gr })) := by
  have hgo : ¬(x.state ≠ .translated) := Classical.not_not.2 hstate
  refine ⟨fun hfence => ?_, fun v hfence hread => ?_, fun v bs hfence hread => ?_⟩ <;> show execGraphRecord g s = _
  · simp only [execGraphRecord, hgrid, if_neg hgo, hfence, if_true]
  · simp only [execGraphRecord, hgrid, if_neg hgo, hfence, Bool.false_eq_true, if_false, hread]
  · simp only [execGraphRecord, hgrid, if_neg hgo, hfence, Bool.false_eq_true, if_false, hread]

/-! ### Retirement (R50, R436, R447) -/

/-- A team neither saved nor being saved, or one that is ended, retires once it has no threads and no engine work. -/
theorem execTeamRetire_retires {s : State} {core slot : Nat} {v : Team} (hteam : s.team (core, slot) = some v) :
    (let t : TeamId := (core, slot)
     let u := if v.ending.isSome then s.abandonGraphs t else s
     v.saved = false ∨ v.ending.isSome = true → v.saving = false ∨ v.ending.isSome = true → u.threadsOf t = [] → u.outstanding t = false →
     exec (.teamRetire core slot) s =
       .next ((v.banks.foldl (fun (s : State) b => s.discardBank core b) (u.retireRecord t v)).dropTeam t v)) := by
  intro t u hsaved hsaving hthreads hout
  have hgo : ((v.saved || v.saving) && v.ending.isNone) = false := by
    rw [← Option.not_isSome]
    revert hsaved hsaving
    cases v.saved <;> cases v.saving <;> cases v.ending.isSome <;> decide
  have hnone : (!(u.threadsOf t).isEmpty) = false := by rw [hthreads]; rfl
  have hretires : (((v.saved || v.saving) && v.ending.isNone) || !(u.threadsOf t).isEmpty || u.outstanding t) = false := by
    rw [hgo, hnone, hout]; rfl
  show execTeamRetire core slot s = _
  simp only [execTeamRetire, hteam]
  exact if_neg (ne_true_of_eq_false hretires)

/-- Settles O44: each step of a launch by its own rule. -/
theorem launchSteps : Obligations.LaunchSteps := by
  unfold Obligations.LaunchSteps
  refine fun s => ⟨rfl, fun g x hgrid => ⟨fun v r es hstate hscan => execExtentTranslation_walks hgrid hstate hscan,
      fun hstate => ⟨fun i hi => ?launch, ?wait, ?signal, execGraphRecord_translated hgrid hstate⟩, fun hstate => ⟨fun hkind => ?poll, fun hover => ?retire⟩⟩,
    fun n g k p hnext hdue => ?placement, fun core slot v hteam => execTeamRetire_retires hteam⟩
  case launch =>
    obtain ⟨hhope, hwait, hplace⟩ := admitLaunch_translated hgrid hstate
    rw [exec_launchRecord g s i hi]
    exact ⟨fun h => congrArg Host.Outcome.next (hhope h), fun h h' => congrArg Host.Outcome.next (hwait h h'),
      fun ps k h h' hplan hkernel => congrArg Host.Outcome.next (hplace ps k h h' hplan hkernel)⟩
  case wait =>
    show execWaitOnValue g s = _
    simp only [execWaitOnValue, hgrid, hstate, if_true]
  case signal =>
    show execSignalRecord g s = _
    simp only [execSignalRecord, hgrid, hstate, if_true]
  case poll =>
    show execWaitOnValuePoll g s = _
    simp only [execWaitOnValuePoll, hgrid, hkind, hstate, and_self, if_true]
  case retire =>
    show execGridRetire g s = _
    simp only [execGridRetire, hgrid, hstate, hover, and_self, if_true]
  case placement =>
    show execTeamPlacement s = _
    simp only [execTeamPlacement, hnext, hdue, if_true]

end Sys2Proof.Machine
end

section
/-!
What the host does through its windows, its link and its registers (R66, R92, R303, R368, R374, R387, R390 to R395, R420, R424, R425,
R491, R492).
-/
namespace Sys2Proof.Machine

/-! ### Memory through BAR2 and BAR4 (R92, R368) -/

/-- A host write that reaches a populated and unfenced location: performed there with a key, else recorded. -/
theorem execHostMemoryWrite_reaches {s : State} {bar off l : Nat} {bytes : List Byte} {ep : Bool} (hoff : s.plat.off = false)
    (hlink : s.plat.linkUp = true) (hready : s.plat.ready = true) (hbytes : bytes ≠ [])
    (hloc : (bar = 2 ∧ off + bytes.length ≤ Config.hbmEnd ∧ l = off) ∨
      (bar = 4 ∧ off + bytes.length ≤ Config.cores * Config.sliceBytes ∧ l = Config.tileBase + off))
    (hfence : s.fencedLoc l = false) :
    (s.hostKeyless l = false →
      exec (.hostMemoryWrite bar off bytes ep) s =
        (let t := s.write {} s.plat.hkSlot l bytes
         .next (if ep then t.poisonLines l bytes.length else t))) ∧
    (s.hostKeyless l = true →
      exec (.hostMemoryWrite bar off bytes ep) s =
        .next (s.record { code := 0x1004, sev := 1, kind := 9, addr := dw off, info0 := 1 })) := by
  obtain ⟨hl, hbar⟩ := barLoc_some hloc
  have hsome : bytes.isEmpty = false := by simpa using hbytes
  refine ⟨fun hkey => ?_, fun hkey => ?_⟩ <;> show execHostMemoryWrite bar off bytes ep s = _
  · simp only [execHostMemoryWrite, hlink, hoff, hsome, Bool.not_true, Bool.or_self, Bool.false_eq_true, if_false, if_neg hbar, hl, hready,
      hfence, hkey]
  · simp only [execHostMemoryWrite, hlink, hoff, hsome, Bool.not_true, Bool.or_self, Bool.false_eq_true, if_false, if_neg hbar, hl, hready,
      hfence, hkey, if_true]

/-- A host read of a populated location whose key is loaded. -/
theorem execHostMemoryRead_reads {s : State} {bar off l n : Nat} (hoff : s.plat.off = false) (hlink : s.plat.linkUp = true)
    (hready : s.plat.ready = true)
    (hloc : (bar = 2 ∧ off + n ≤ Config.hbmEnd ∧ l = off) ∨
      (bar = 4 ∧ off + n ≤ Config.cores * Config.sliceBytes ∧ l = Config.tileBase + off))
    (hkey : s.hostKeyless l = false) :
    exec (.hostMemoryRead bar off n) s =
      (let r := s.hostView s.plat.hkSlot l n
       .next (r.1.hostReply r.2 (s.fencedLoc l || s.mem.poisoned l n))) := by
  obtain ⟨hl, hbar⟩ := barLoc_some hloc
  show execHostMemoryRead bar off n s = _
  simp only [execHostMemoryRead, hlink, hoff, Bool.not_true, Bool.or_self, Bool.false_eq_true, if_false, if_neg hbar, hl, hready, hkey]

/-- A host write to an unpopulated offset is recorded (R368). -/
theorem execHostMemoryWrite_unpopulated {s : State} {bar off : Nat} {bytes : List Byte} {ep : Bool} (hoff : s.plat.off = false)
    (hlink : s.plat.linkUp = true) (hbytes : bytes ≠ [])
    (hloc : (bar = 2 ∧ Config.hbmEnd < off + bytes.length) ∨ (bar = 4 ∧ Config.cores * Config.sliceBytes < off + bytes.length)) :
    exec (.hostMemoryWrite bar off bytes ep) s = .next (s.hostUnpopulated off 1) := by
  obtain ⟨hl, hbar⟩ := barLoc_none hloc
  have hsome : bytes.isEmpty = false := by simpa using hbytes
  show execHostMemoryWrite bar off bytes ep s = _
  simp only [execHostMemoryWrite, hlink, hoff, hsome, Bool.not_true, Bool.or_self, Bool.false_eq_true, if_false, if_neg hbar, hl]

/-- A host read of memory gives all ones before bring-up is done and at an unpopulated offset (R368, R386). -/
theorem execHostMemoryRead_ones {s : State} {bar off n : Nat} (hoff : s.plat.off = false) (hlink : s.plat.linkUp = true)
    (hbar : bar = 2 ∨ bar = 4) :
    (s.plat.ready = false → exec (.hostMemoryRead bar off n) s = .next (s.hostReply (List.replicate n 0xFF#8) false)) ∧
    (s.plat.ready = true →
      (bar = 2 ∧ Config.hbmEnd < off + n) ∨ (bar = 4 ∧ Config.cores * Config.sliceBytes < off + n) →
      exec (.hostMemoryRead bar off n) s = .next ((s.hostUnpopulated off 0).hostReply (List.replicate n 0xFF#8) false)) := by
  have hbar0 : bar ≠ 0 := by omega
  refine ⟨fun hready => ?_, fun hready hloc => ?_⟩ <;> show execHostMemoryRead bar off n s = _
  · simp only [execHostMemoryRead, hlink, hoff, Bool.not_true, Bool.or_self, Bool.false_eq_true, if_false, if_neg hbar0, hready, Bool.not_false,
      if_true]
  · simp only [execHostMemoryRead, hlink, hoff, Bool.not_true, Bool.or_self, Bool.false_eq_true, if_false, if_neg hbar0, hready,
      (barLoc_none hloc).1]

/-- A host load finds the newest bytes where no write is still early (R92). -/
theorem hostView_newest {s : State} (hearly : s.mem.early = []) (key loc n : Nat) : s.hostView key loc n = (s, s.mem.read key loc n) := by
  have hnone : s.mem.early.isEmpty = true := by rw [hearly]; rfl
  simp only [State.hostView, hnone, if_true]

/-- Settles O45: the windows by the place of their offset, the rest by each step's own rule. -/
theorem hostPort : Obligations.HostPort := by
  unfold Obligations.HostPort
  refine fun s hoff => ⟨fun hlink hready bar off l => ⟨fun bytes ep hbytes hloc hfence => execHostMemoryWrite_reaches hoff hlink hready hbytes hloc hfence,
      fun n hloc hkey => ⟨execHostMemoryRead_reads hoff hlink hready hloc hkey, fun hearly => hostView_newest hearly _ _ _⟩⟩,
    fun hlink bar off => ⟨fun bytes ep hbytes hloc => execHostMemoryWrite_unpopulated hoff hlink hbytes hloc,
      fun n hbar => execHostMemoryRead_ones hoff hlink hbar⟩,
    fun hlink => ?down, fun hlink => ?stays, rfl, fun a => rfl, fun n => rfl⟩
  case down =>
    show execHostLinkDown s = _
    simp only [execHostLinkDown, hlink, Bool.not_true, Bool.false_eq_true, if_false]
  case stays =>
    show execHostLinkDown s = _
    simp only [execHostLinkDown, hlink, Bool.not_false, if_true]

/-! ### Registers that the host writes (R66, R393 to R395, R420) -/

/-- A whole word written is the new value of its low 16 bits, or of its low 6. -/
theorem bitsOf_merge_full (x hi : Nat) (v : DWord) : bitsOf (merge x v.toNat (2 ^ 64 - 1)) hi 0 = v.toNat % 2 ^ (hi + 1) := by
  rw [merge_full, bitsOf, Nat.pow_zero, Nat.div_one, Nat.mod_eq_of_lt v.isLt, Nat.sub_zero]

/-- A bit of a whole word written. -/
theorem bitsOf_full_bit (v : DWord) (i : Nat) : bitsOf (v.toNat &&& (2 ^ 64 - 1)) i i = 1 ↔ v.getLsbD i = true := by
  have hbit : bitsOf (v.toNat &&& (2 ^ 64 - 1)) i i = v.toNat / 2 ^ i % 2 := by
    rw [bitsOf, Nat.and_two_pow_sub_one_eq_mod _ 64, Nat.mod_eq_of_lt v.isLt, Nat.add_sub_cancel_left, Nat.pow_one]
  rw [hbit, BitVec.getLsbD, Nat.testBit_eq_decide_div_mod_eq, decide_eq_true_eq]

/-- A whole word written in the management block (R393). -/
theorem exec_registerWrite_mg (s : State) {o : Nat} (v : DWord) (ho : o < 0x1000) (halign : o % 8 = 0) :
    exec (.registerWrite o 8 v) s = .next (s.mgWrite o v.toNat (2 ^ 64 - 1)) := by
  rw [write8 s o v halign, State.ctlWrite8, if_pos ho]

/-- The host's write of word 0x38 of the mailbox (R374). -/
theorem ctlWrite_mailbox (s : State) (v : DWord) : s.ctlWrite true 0x1038 (bytesOf 8 v.toNat) =
    (s.setMem (s.mem.write 0 (Config.ctlBase + 0x1038) (bytesOf 8 v.toNat))).latchEvent 2 := by
  have hbytes : bytesOf 8 (merge (numOfBytes (s.mem.read 0 (Config.ctlBase + 0x1038) 8)) v.toNat (2 ^ 64 - 1)) = bytesOf 8 v.toNat := by
    rw [merge_full, Nat.mod_eq_of_lt v.isLt]
  rw [ctlWrite_full s true 0x1038 v (by decide), State.ctlWrite8, if_neg (by decide), if_pos (by decide), hbytes]
  rfl

/-- The management registers that the host writes whole: the power limit clamped, the host key slot, and the trip bit cleared by a 1
(R381, R393). -/
theorem registerWrite_management (s : State) (v : DWord) :
    (let n := v.toNat % 65536
     exec (.registerWrite 0x28 8 v) s =
       .next (s.setPlat { s.plat with pwLim := if 2000 < n then 2000 else if n < 500 then 500 else n })) ∧
    exec (.registerWrite 0x40 8 v) s = .next (s.setPlat { s.plat with hkSlot := v.toNat % 64 }) ∧
    ((v.getLsbD 2 = true → exec (.registerWrite 8 8 v) s = .next (s.setPlat { s.plat with trip := false })) ∧
     (v.getLsbD 2 = false → exec (.registerWrite 8 8 v) s = .next s)) ∧
    (s.plat.lkKseed = true → ∀ i < 4, exec (.registerWrite (0x60 + 8 * i) 8 v) s = .next s) := by
  refine ⟨?limit, ?slot, ⟨fun hbit => ?clear, fun hbit => ?keep⟩, fun hlock i hi => ?seed⟩
  case limit =>
    rw [exec_registerWrite_mg s v (by decide) (by decide), State.mgWrite, if_neg (by decide), if_neg (by decide), if_neg (by decide),
      if_neg (by decide), if_pos rfl, bitsOf_merge_full] <;> rfl
  case slot =>
    rw [exec_registerWrite_mg s v (by decide) (by decide), State.mgWrite, if_neg (by decide), if_neg (by decide), if_neg (by decide),
      if_neg (by decide), if_neg (by decide), if_pos rfl, bitsOf_merge_full] <;> rfl
  case clear =>
    rw [exec_registerWrite_mg s v (by decide) (by decide), State.mgWrite, if_pos rfl, if_pos ((bitsOf_full_bit v 2).2 hbit)]
  case keep =>
    have hclear : ¬bitsOf (v.toNat &&& (2 ^ 64 - 1)) 2 2 = 1 := fun h => Bool.false_ne_true (hbit.symm.trans ((bitsOf_full_bit v 2).1 h))
    rw [exec_registerWrite_mg s v (by decide) (by decide), State.mgWrite, if_pos rfl, if_neg hclear]
  case seed =>
    rw [exec_registerWrite_mg s v (by omega) (by omega)]
    match i, hi with
    | 0, _ | 1, _ | 2, _ | 3, _ => simp [State.mgWrite, hlock]

/-- An error queue's head moves within the records written, and nowhere else (R420). -/
theorem execEqHeadWrite_moves (s : State) (n : Fin 4) (v : BitVec 32) :
    (let e := s.errs.queues.getD n.val {}
     let d := (v.toNat + 2 ^ 32 - e.head) % 2 ^ 32
     (d ≤ (e.tail + 2 ^ 32 - e.head) % 2 ^ 32 →
       exec (.eqHeadWrite n v) s =
         .next (s.setErrs { s.errs with queues := s.errs.queues.set n { e with head := v.toNat, ovf := false } })) ∧
     ((e.tail + 2 ^ 32 - e.head) % 2 ^ 32 < d → exec (.eqHeadWrite n v) s = .next s)) := by
  refine ⟨fun hle => ?_, fun hlt => ?_⟩ <;> show Host.Outcome.next ((s.ackQueue n.val v.toNat).getD s) = _
  · rw [State.ackQueue, if_pos hle]
    rfl
  · rw [State.ackQueue, if_neg (Nat.not_le.2 hlt)]
    split <;> rfl

/-- The batch ring's head moves within the entries written, and nowhere else (R395). -/
theorem execBqHeadWrite_moves (s : State) (v : BitVec 16) :
    (let e := s.errs
     let d := (v.toNat + 65536 - e.bqHead) % 65536
     (d ≤ (e.bqTail + 65536 - e.bqHead) % 65536 →
       exec (.bqHeadWrite v) s =
         .next ((s.setErrs { e with bqHead := v.toNat }).due (if e.waiting.isEmpty then [] else [.batchEntryDeferred]))) ∧
     ((e.bqTail + 65536 - e.bqHead) % 65536 < d → exec (.bqHeadWrite v) s = .next s)) :=
  ⟨fun hle => congrArg Host.Outcome.next (if_pos hle), fun hlt => congrArg Host.Outcome.next (if_neg (Nat.not_le.2 hlt))⟩

/-- `dom.en` ends up set, and `$dev` takes `dom.dev` where it was not (R387). -/
theorem domEnable_sets (s : State) : s.domEnable.plat.domEn = true ∧ (s.plat.domEn = false → s.domEnable.dom.dev = s.plat.domDev) := by
  cases hen : s.plat.domEn with
  | true => exact ⟨by simp only [State.domEnable, hen, if_true], nofun⟩
  | false =>
    simp only [State.domEnable, hen, Bool.false_eq_true, if_false]
    exact ⟨rfl, fun _ => rfl⟩

/-- A write of memory moves no location. -/
theorem write_loc (s : State) (p : Party) (key loc pa : Nat) (bs : List Byte) : (s.write p key loc bs).loc pa = s.loc pa := rfl

/-- A write of memory fences nothing. -/
theorem write_fencedLoc (s : State) (p : Party) (key loc l : Nat) (bs : List Byte) : (s.write p key loc bs).fencedLoc l = s.fencedLoc l := rfl

/-- The report reaches its two pages before the busy bit clears (R390). -/
theorem execAttestationDone_writes {s : State} {l m : Nat} (hbusy : s.plat.atBusy = true) (hl : s.loc s.plat.attAddr = some l)
    (hm : s.loc (s.plat.attAddr + 4096) = some m) (hlf : s.fencedLoc l = false) (hmf : s.fencedLoc m = false) :
    (let t := s.write {} s.plat.hkSlot l (s.report.take 4096)
     let u := t.write {} t.plat.hkSlot m (s.report.drop 4096)
     exec .attestationDone s = .next (u.setPlat { u.plat with atBusy := false })) := by
  show execAttestationDone s = _
  simp only [execAttestationDone, hbusy, hl, hlf, Bool.not_true, Bool.false_eq_true, if_false, write_loc, hm, write_fencedLoc, hmf]

/-- Settles O46: the registers through the one rule of a whole word, the rest by each step's own rule. -/
theorem hostRegisters : Obligations.HostRegisters := by
  unfold Obligations.HostRegisters
  refine fun s => ⟨fun v => congrArg Host.Outcome.next (ctlWrite_mailbox s v), registerWrite_management s, execEqHeadWrite_moves s,
    execBqHeadWrite_moves s, fun hopen => ?lock, fun hlocked => ?locked, rfl, fun members => ⟨(domEnable_sets s).1, (domEnable_sets s).2, rfl, rfl⟩,
    fun hidle => ?start, fun hbusy => ?busy, fun l m => execAttestationDone_writes⟩
  case lock =>
    show Host.Outcome.next s.lockKseed = _
    simp only [State.lockKseed, hopen, Bool.false_eq_true, if_false]
  case locked =>
    show Host.Outcome.next s.lockKseed = _
    simp only [State.lockKseed, hlocked, if_true]
  case start =>
    show Host.Outcome.next s.attest = _
    simp only [State.attest, hidle, Bool.false_eq_true, if_false]
  case busy =>
    show Host.Outcome.next s.attest = _
    simp only [State.attest, hbusy, if_true]

end Sys2Proof.Machine
end

section
/-!
Power, temperature and the resets; scrubbing, fences and the stop of the device (R380 to R386, R393, R413, R414, R418, R423, R427, R487,
R501).
-/
namespace Sys2Proof.Machine

/-! ### Power (R380, R381) -/

/-- The record of one rail outside its band. -/
def State.recordRail (s : State) : State := (s.record { code := freeCode s.sys.free, sev := 1, kind := 13 }).tickFree

/-- The records of the rails outside their bands: one each, and nothing of memory, threads or the platform. -/
theorem foldl_recordRail (bad : List (Fin 7)) : ∀ s : State,
    (bad.foldl (fun s _ => s.recordRail) s).errs.raised.length = s.errs.raised.length + bad.length ∧
    (bad.foldl (fun s _ => s.recordRail) s).mem = s.mem ∧ (bad.foldl (fun s _ => s.recordRail) s).threads = s.threads ∧
    (bad.foldl (fun s _ => s.recordRail) s).plat = s.plat := by
  induction bad with
  | nil => exact fun s => ⟨rfl, rfl, rfl, rfl⟩
  | cons b bad ih =>
    intro s
    obtain ⟨hraised, hmem, hthreads, hplat⟩ := ih s.recordRail
    have hone : s.recordRail.errs.raised.length = s.errs.raised.length + 1 := by
      simp only [State.recordRail, State.tickFree_errs, State.record_errs, List.length_append, List.length_singleton]
    refine ⟨?_, hmem, hthreads, hplat⟩
    rw [List.foldl_cons, hraised, hone, List.length_cons]
    omega

/-- The platform with one more sample in its average. -/
def Plat.averaged (p : Plat) (w : Nat) : Plat :=
  let samples := (w :: p.samples).take 1000
  { p with samples, pwAvg := Nat.min (sumOf samples / samples.length) 65535 }

/-- The platform after a power sample, rails apart. -/
def Plat.sampled (p : Plat) (w a now : Nat) : Plat :=
  let samples := (w :: p.samples).take 1000
  let q := (p.averaged w).throttle (sumOf samples) samples.length now
  if 4000 < a then { q with pwFrac := Nat.min q.pwFrac 8 } else q

theorem sampled_samples (p : Plat) (w a now : Nat) : (p.sampled w a now).samples = (w :: p.samples).take 1000 := by
  simp only [Plat.sampled]
  split <;> exact (throttle_keeps _ _ _ _).1

theorem sampled_pwAvg (p : Plat) (w a now : Nat) :
    (p.sampled w a now).pwAvg = Nat.min (sumOf ((w :: p.samples).take 1000) / ((w :: p.samples).take 1000).length) 65535 := by
  simp only [Plat.sampled]
  split <;> exact (throttle_keeps _ _ _ _).2

/-- Above 4,000 A the fraction is at most 8 (R381). -/
theorem sampled_pwFrac_le (p : Plat) (w now : Nat) {a : Nat} (h : 4000 < a) : (p.sampled w a now).pwFrac ≤ 8 := by
  simp only [Plat.sampled, if_pos h]
  exact Nat.min_le_right ..

/-- The fraction stays in sixteenths. -/
theorem sampled_pwFrac_range (p : Plat) (w a now : Nat) (hlo : 1 ≤ p.pwFrac) (hhi : p.pwFrac ≤ 16) :
    1 ≤ (p.sampled w a now).pwFrac ∧ (p.sampled w a now).pwFrac ≤ 16 := by
  simp only [Plat.sampled]
  obtain ⟨h1, h16⟩ := throttle_range (p.averaged w) (sumOf ((w :: p.samples).take 1000)) ((w :: p.samples).take 1000).length now hlo hhi
  split
  · exact ⟨Nat.le_min.2 ⟨h1, by decide⟩, Nat.le_trans (Nat.min_le_left ..) h16⟩
  · exact ⟨h1, h16⟩

/-- A package over its limit, or a hot die, lowers the fraction by one sixteenth (R381, R384). -/
theorem sampled_falls {p : Plat} {w a now : Nat} (ha : a ≤ 4000)
    (hover : p.pwLim * ((w :: p.samples).take 1000).length < sumOf ((w :: p.samples).take 1000) ∨ p.hotDie = true)
    (hspace : spaced p.lastFall 25000 now = true) (hfrac : 1 < p.pwFrac) :
    (p.sampled w a now).pwFrac = p.pwFrac - 1 ∧ (p.sampled w a now).lastFall = some now := by
  have hfall : ((decide (p.pwLim * ((w :: p.samples).take 1000).length < sumOf ((w :: p.samples).take 1000)) || p.hotDie) &&
      spaced p.lastFall 25000 now && decide (1 < p.pwFrac)) = true := by
    rw [hspace, decide_eq_true hfrac, Bool.and_true, Bool.and_true, Bool.or_eq_true, decide_eq_true_eq]
    exact hover
  have hsampled : p.sampled w a now = { p.averaged w with pwFrac := p.pwFrac - 1, lastFall := some now } :=
    (if_neg (Nat.not_lt.2 ha)).trans (if_pos hfall)
  rw [hsampled]
  exact ⟨rfl, rfl⟩

/-- A package 50 W below its limit, with no hot die, raises it by one (R381). -/
theorem sampled_rises {p : Plat} {w a now : Nat} (ha : a ≤ 4000)
    (hunder : sumOf ((w :: p.samples).take 1000) + 50 * ((w :: p.samples).take 1000).length < p.pwLim * ((w :: p.samples).take 1000).length)
    (hcool : p.hotDie = false) (hspace : spaced p.lastRise 250000 now = true) (hfrac : p.pwFrac < 16) :
    (p.sampled w a now).pwFrac = p.pwFrac + 1 ∧ (p.sampled w a now).lastRise = some now := by
  have hstay : ¬((decide (p.pwLim * ((w :: p.samples).take 1000).length < sumOf ((w :: p.samples).take 1000)) || p.hotDie) &&
      spaced p.lastFall 25000 now && decide (1 < p.pwFrac)) = true := by
    rw [decide_eq_false (by omega), hcool, Bool.or_self, Bool.false_and, Bool.false_and]
    exact Bool.false_ne_true
  have hrise : (decide (sumOf ((w :: p.samples).take 1000) + 50 * ((w :: p.samples).take 1000).length <
      p.pwLim * ((w :: p.samples).take 1000).length) && !p.hotDie && spaced p.lastRise 250000 now && decide (p.pwFrac < 16)) = true := by
    rw [decide_eq_true hunder, hcool, hspace, decide_eq_true hfrac]
    rfl
  have hsampled : p.sampled w a now = { p.averaged w with pwFrac := p.pwFrac + 1, lastRise := some now } :=
    (if_neg (Nat.not_lt.2 ha)).trans ((if_neg hstay).trans (if_pos hrise))
  rw [hsampled]
  exact ⟨rfl, rfl⟩

/-- A power sample: the platform's figures, and one record for each rail outside its band (R380, R381). -/
theorem execPowerSample_samples {s : State} {w a : Nat} {bad : List (Fin 7)} (hoff : s.plat.off = false) :
    exec (.powerSample w a bad) s = .next (bad.foldl (fun s _ => s.recordRail) (s.setPlat (s.plat.sampled w a s.now))) := by
  show execPowerSample w a bad s = _
  exact if_neg (ne_true_of_eq_false hoff)

/-! ### Temperature (R384) -/

/-- A cluster above 115 or a base die above 105 trips the package; other temperatures are noted. -/
theorem execTemperatureSample_notes {s : State} {clusters stks : List Nat} (hoff : s.plat.off = false) :
    ((∃ x ∈ clusters, 115 < x) ∨ (∃ x ∈ stks, 105 < x) → exec (.temperatureSample clusters stks) s = .next (s.powerOff true)) ∧
    ((∀ x ∈ clusters, x ≤ 115) → (∀ x ∈ stks, x ≤ 105) →
      exec (.temperatureSample clusters stks) s =
        .next (s.setPlat { s.plat with
          tpCore := Nat.min (clusters.foldl Nat.max 0) 255, tpStack := Nat.min (stks.foldl Nat.max 0) 255,
          hotDie := clusters.any (fun t => decide (100 < t)),
          hotStacks := (List.range stks.length).filter (fun i => decide (95 < stks.getD i 0)) })) := by
  refine ⟨fun hhot => ?_, fun hclusters hstks => ?_⟩ <;> show execTemperatureSample clusters stks s = _
  · have htrip : (clusters.any (fun t => decide (115 < t)) || stks.any (fun t => decide (105 < t))) = true := by simpa using hhot
    simp only [execTemperatureSample, hoff, Bool.false_eq_true, if_false, htrip, if_true]
  · have hcool : (clusters.any (fun t => decide (115 < t)) || stks.any (fun t => decide (105 < t))) = false := by
      rw [Bool.or_eq_false_iff, List.any_eq_false, List.any_eq_false]
      exact ⟨fun x hx => by simpa using hclusters x hx, fun x hx => by simpa using hstks x hx⟩
    simp only [execTemperatureSample, hoff, Bool.false_eq_true, if_false, hcool]

/-! ### Resets (R385, R386) -/

/-- What a reset keeps of memory: HBM, and zero elsewhere. -/
theorem cellGet_hbm (m : Mem) (a : Nat) :
    (isHbm a = true → cellGet m.hbm a = cellGet m.cells a) ∧ (isHbm a = false → cellGet m.hbm a = 0) :=
  ⟨fun h => by simp only [Mem.hbm, cellGet_filter, h, if_true], fun h => by simp only [Mem.hbm, cellGet_filter, h, Bool.false_eq_true, if_false]⟩

/-- After a reset no key slot but 0 holds a key, and slot 0 holds one where bring-up is done. -/
theorem resetNumber_keys (n failed : Nat) :
    (∀ k, 1 ≤ k → k < 64 → (State.resetNumber n failed).mem.keys.find k = none) ∧
    ((State.resetNumber n failed).plat.ready = true → ((State.resetNumber n failed).mem.keys.find 0).isSome = true) := by
  by_cases hfailed : failed = 0
  · subst hfailed
    exact ⟨fun k hk _ => if_neg (by omega), fun _ => rfl⟩
  · have hkeys : (State.resetNumber n failed).mem.keys = [] := if_neg hfailed
    refine ⟨fun k _ _ => by rw [hkeys]; rfl, fun hready => absurd hready ?_⟩
    simp [State.resetNumber, hfailed]

/-- Bring-up stops at one of its four steps, or at none. -/
theorem bootStep_le (n : Nat) : bootStep n ≤ 4 := by
  simp only [bootStep]
  repeat' split
  all_goals decide

/-- Bring-up is done exactly where its result is 0 (R386). -/
theorem resetNumber_ready {n failed : Nat} (h : failed ≤ 4) :
    (State.resetNumber n failed).plat.ready = true ↔ (State.resetNumber n failed).plat.boot = 0 := by
  match failed, h with
  | 0, _ | 1, _ | 2, _ | 3, _ | 4, _ => simp [State.resetNumber]

/-- The measurements from the fifth on are zero after a reset (R389). -/
theorem resetNumber_meas (n failed : Nat) {i : Nat} (hlo : 4 ≤ i) (hhi : i < 8) : (State.resetNumber n failed).plat.meas.getD i 0 = 0 := by
  have hnone : measurement n failed i = 0 := if_neg (by omega)
  simp [State.resetNumber, List.getElem?_range hhi, hnone]

/-- Settles O47: the samples through the platform's new figures, the resets through what they keep. -/
theorem powerAndResets : Obligations.PowerAndResets := by
  unfold Obligations.PowerAndResets
  refine fun s => ⟨fun w a bad hoff => ⟨_, execPowerSample_samples hoff, ?power⟩,
    fun clusters stks hoff => ⟨fun hhot => ⟨_, (execTemperatureSample_notes hoff).1 hhot, ?trip⟩, (execTemperatureSample_notes hoff).2⟩,
    ⟨_, rfl, fun a => (cellGet_hbm s.mem a).1, fun a => (cellGet_hbm s.mem a).2, (resetNumber_keys ..).1, (resetNumber_keys ..).2,
      rfl, rfl, rfl, rfl, rfl, rfl, rfl, rfl⟩,
    ⟨_, rfl, fun a => (cellGet_hbm s.mem a).1, fun a => (cellGet_hbm s.mem a).2, (resetNumber_keys ..).1, (resetNumber_keys ..).2,
      resetNumber_ready (n := s.plat.resets + 1) (bootStep_le _), fun i => resetNumber_meas _ _, rfl, rfl, rfl, rfl, rfl, rfl⟩,
    ⟨_, rfl, rfl, rfl, rfl, Bool.or_false _⟩⟩
  case power =>
    obtain ⟨hraised, hmem, hthreads, hplat⟩ := foldl_recordRail bad (s.setPlat (s.plat.sampled w a s.now))
    rw [hplat]
    exact ⟨sampled_samples .., sampled_pwAvg .., sampled_falls, sampled_rises, sampled_pwFrac_le _ _ _, sampled_pwFrac_range _ _ _ _, hraised,
      hmem, hthreads⟩
  case trip => exact ⟨Bool.or_true _, Bool.or_true _, rfl, rfl⟩

/-! ### Scrubbing (R423, R427) -/

/-- A scrub of a stored line: nothing, a corrected error, or a poisoned line, which counts in its slice. -/
theorem execScrub_finds {s : State} {pa l : Nat} (hloc : s.loc pa = some l) (hstored : isHbm l = true ∨ isTile l = true)
    (hoff : s.plat.off = false) :
    (let u := memUnit l
     exec (.scrub pa .sound) s = .next s ∧
     exec (.scrub pa .correctable) s = .next (s.corrected u.1 u.2 l) ∧
     (s.mem.poison.contains (l / 64) = true → exec (.scrub pa .uncorrectable) s = .next s) ∧
     (s.mem.poison.contains (l / 64) = false → isTile l = false →
       exec (.scrub pa .uncorrectable) s = .next (s.poisonDetected u.1 u.2 l)) ∧
     (s.mem.poison.contains (l / 64) = false → isTile l = true →
       exec (.scrub pa .uncorrectable) s =
         (let v := s.poisonDetected u.1 u.2 l
          let ls := sliceLines ((v.plat.sliceErrs.find (sliceOf l)).getD []) (l / 64) v.now
          let w := v.setPlat { v.plat with sliceErrs := v.plat.sliceErrs.put (sliceOf l) ls }
          .next (if 16 ≤ ls.length then w.due [.unitFence (.slice (sliceOf l))] else w)))) := by
  have hgo : (!isHbm l && !isTile l || s.plat.off) = false := by
    rcases hstored with h | h <;> simp [h, hoff]
  have hrun (found : Soundness) : exec (.scrub pa found) s = execScrub pa found s := rfl
  refine ⟨?_, ?_, fun hpoison => ?_, fun hpoison htile => ?_, fun hpoison htile => ?_⟩ <;> rw [hrun] <;>
    simp only [execScrub, hloc, hgo, Bool.false_eq_true, if_false]
  · simp only [hpoison, if_true]
  · simp only [hpoison, htile, Bool.false_eq_true, if_false]
  · simp only [hpoison, htile, Bool.false_eq_true, if_false, if_true]

/-! ### Fences (R413, R414, R487) -/

/-- A fence of a core in range, and of one that is fenced. -/
theorem execUnitFence_core {s : State} {c : Nat} (hc : c < Config.cores) :
    exec (.unitFence (.core c)) s = .next (s.fenceCore c) ∧ ((s.core c).fenced = true → exec (.unitFence (.core c)) s = .next s) := by
  have hrun : exec (.unitFence (.core c)) s = .next (s.fenceCore c) := if_pos hc
  exact ⟨hrun, fun hfenced => hrun.trans (congrArg Host.Outcome.next (if_pos hfenced))⟩

/-- A fence of a slice performs the stores held for it and fences its core with it. -/
theorem execUnitFence_slice {s : State} {c : Nat} (hc : c < Config.cores) :
    (s.plat.fsSlice.contains c = false →
      exec (.unitFence (.slice c)) s =
        (let u := s.performStores (fun p => isTile p.loc && sliceOf p.loc == c)
         .next (((u.setPlat { u.plat with fsSlice := insertNat u.plat.fsSlice c }).fenceRecord 2 c).fenceCore c))) ∧
    (s.plat.fsSlice.contains c = true → exec (.unitFence (.slice c)) s = .next s) := by
  have hrun : exec (.unitFence (.slice c)) s = .next (s.fenceSlice c) := if_pos hc
  exact ⟨fun hopen => hrun.trans (congrArg Host.Outcome.next (if_neg (ne_true_of_eq_false hopen))),
    fun hfenced => hrun.trans (congrArg Host.Outcome.next (if_pos hfenced))⟩

/-- A fence of a fabric. -/
theorem execUnitFence_fabric {s : State} {f : Nat} (hf : f < 64) :
    (s.plat.fsFabric.contains f = false → exec (.unitFence (.fabric f)) s = .next ((s.closeFabric f).fenceRecord 5 f)) ∧
    (s.plat.fsFabric.contains f = true → exec (.unitFence (.fabric f)) s = .next s) := by
  have hrun : exec (.unitFence (.fabric f)) s = .next (s.fenceFabric f) := if_pos hf
  exact ⟨fun hopen => hrun.trans (congrArg Host.Outcome.next (if_neg (ne_true_of_eq_false hopen))),
    fun hfenced => hrun.trans (congrArg Host.Outcome.next (if_pos hfenced))⟩

/-- A fence of a walker core ends the walks with a thread on it. -/
theorem execUnitFence_walker {s : State} {w : Nat} (hw : w < 512) :
    (s.plat.fsWalker.contains w = false →
      exec (.unitFence (.walker w)) s =
        .next (((s.setPlat { s.plat with fsWalker := insertNat s.plat.fsWalker w }).endWalks (fun n => n / 16 == w)).fenceRecord 7 w)) ∧
    (s.plat.fsWalker.contains w = true → exec (.unitFence (.walker w)) s = .next s) := by
  have hrun : exec (.unitFence (.walker w)) s = .next (s.fenceWalker w) := if_pos hw
  exact ⟨fun hopen => hrun.trans (congrArg Host.Outcome.next (if_neg (ne_true_of_eq_false hopen))),
    fun hfenced => hrun.trans (congrArg Host.Outcome.next (if_pos hfenced))⟩

/-- A fence of a stack, and of one that is fenced. -/
theorem execUnitFence_stack {s : State} {k : Nat} (hk : k < 16) :
    exec (.unitFence (.stack k)) s = .next (s.fenceStack k) ∧ (s.plat.fsStack.contains k = true → exec (.unitFence (.stack k)) s = .next s) := by
  have hrun : exec (.unitFence (.stack k)) s = .next (s.fenceStack k) := if_pos hk
  exact ⟨hrun, fun hfenced => hrun.trans (congrArg Host.Outcome.next (if_pos hfenced))⟩

/-- Settles O48: scrubbing by what it finds, the fences unit by unit, the stop by its two steps. -/
theorem failures : Obligations.Failures := by
  unfold Obligations.Failures
  refine fun s => ⟨fun pa l => execScrub_finds, fun c hc => (execUnitFence_core hc).2,
    fun c hc => ⟨(execUnitFence_core hc).1, execUnitFence_slice hc⟩, fun f => execUnitFence_fabric, fun w => execUnitFence_walker,
    fun k => execUnitFence_stack, fun p hp => if_pos hp, fun hstop hoff => ?stop, fun hstop hlate => ?drop, fun hstop hearly => ?early⟩
  case stop =>
    show execDeviceStop s = _
    simp only [execDeviceStop, hstop, hoff, Bool.or_self, Bool.false_eq_true, if_false]
  case drop =>
    show execDeviceStopLinkDrop s = _
    simp only [execDeviceStopLinkDrop, hstop, decide_eq_true hlate, Bool.and_self, if_true]
  case early =>
    show execDeviceStopLinkDrop s = _
    simp only [execDeviceStopLinkDrop, hstop, decide_eq_false (Nat.not_le.2 hearly), Bool.and_false, Bool.false_eq_true, if_false]

end Sys2Proof.Machine
end

section
/-!
The Eorex domain: accesses of other devices, coherent lines, ports, lost devices, and how a round ends (R69, R93, R376 to R379, R463,
R464, R493 to R497).
-/
namespace Sys2Proof.Machine

/-! ### Accesses of other devices (R69, R376) -/

/-- The access that another device makes at a home here. -/
def remoteAccessOf (pa size : Nat) (k : RemoteKind) : Access :=
  let kind : AccKind := match k with
    | .load => .load
    | .store _ => .store
    | .atom .. | .cas .. => .atomic
  { core := Config.cores, team := (Config.cores, 0), unit := .core 0, asid := 0, root := 0, grid := none, user := false, kind, va := dw pa,
    size, align := size }

/-- An access that reaches no memory of this device answers 0x0503. -/
theorem execRemoteAccess_elsewhere {s : State} {dev pa size : Nat} {key : Fin 64} {k : RemoteKind} (hans : s.answers = true)
    (hlost : s.dom.lost.contains dev = false) (h : ∀ loc, s.loc pa = some loc → isHbm loc = false ∧ isTile loc = false) :
    exec (.remoteAccess dev pa size key k) s = .next (s.domReply 0x0503 []) := by
  show execRemoteAccess dev pa size key k s = _
  simp only [execRemoteAccess, hans, hlost, Bool.not_true, Bool.or_self, Bool.false_eq_true, if_false]
  cases hloc : s.loc pa with
  | none => rfl
  | some loc =>
    obtain ⟨hhbm, htile⟩ := h loc hloc
    simp only [hhbm, htile, Bool.not_false, Bool.and_self, if_true]

/-- What an access of another device does at a home that allows it. -/
def State.remoteAct (s : State) (key loc size : Nat) (k : RemoteKind) : State :=
  let old := s.mem.read key loc size
  match k with
  | .load => s.arrived.domReply 0 old
  | .store bs => (s.arrived.write { far := true } key loc (bs.take size)).domReply 0 []
  | .cas t x v =>
    (if numOfBytes old = x.toNat % 2 ^ t.bits then s.arrived.write { far := true } key loc (bytesOf size (v.toNat % 2 ^ t.bits))
      else s.arrived).domReply 0 old
  | .atom op t v =>
    match (atomNew op t (numOfBytes old) v.toNat).1 with
    | some n => (s.arrived.write { far := true } key loc (bytesOf size n)).domReply 0 old
    | none => s.arrived.domReply 0 old

/-- An access that reaches this device's memory: refused by the home's checks, or performed there. -/
theorem execRemoteAccess_home {s : State} {dev pa size loc : Nat} {key : Fin 64} {k : RemoteKind} (hans : s.answers = true)
    (hlost : s.dom.lost.contains dev = false) (hloc : s.loc pa = some loc) (hhome : isHbm loc = true ∨ isTile loc = true) :
    (∀ f, s.checkHome (remoteAccessOf pa size k) { loc, key := key.val } = some f →
      exec (.remoteAccess dev pa size key k) s = .next (s.domReply f.code [])) ∧
    (s.checkHome (remoteAccessOf pa size k) { loc, key := key.val } = none →
      exec (.remoteAccess dev pa size key k) s = .next (s.remoteAct key.val loc size k)) := by
  have hhere : (!isHbm loc && !isTile loc) = false := by rcases hhome with h | h <;> simp [h]
  have hrun : exec (.remoteAccess dev pa size key k) s = (match s.checkHome (remoteAccessOf pa size k) { loc, key := key.val } with
      | some f => .next (s.domReply f.code [])
      | none => .next (s.remoteAct key.val loc size k)) := by
    show execRemoteAccess dev pa size key k s = _
    simp only [execRemoteAccess, hans, hlost, Bool.not_true, Bool.or_self, Bool.false_eq_true, if_false, hloc, hhere]
    cases k with
    | load => rfl
    | store bs => rfl
    | cas t x v => rfl
    | atom op t v =>
      simp only [State.remoteAct]
      cases (atomNew op t (numOfBytes (s.mem.read key.val loc size)) v.toNat).1 <;> rfl
  exact ⟨fun f hcheck => by rw [hrun, hcheck], fun hcheck => by rw [hrun, hcheck]⟩

/-- A compare-and-swap of another device writes where the old value is the one named. -/
theorem remoteAct_cas (s : State) (key loc size : Nat) (t : Ty) (x v : DWord) :
    (numOfBytes (s.mem.read key loc size) = x.toNat % 2 ^ t.bits →
      s.remoteAct key loc size (.cas t x v) =
        (s.arrived.write { far := true } key loc (bytesOf size (v.toNat % 2 ^ t.bits))).domReply 0 (s.mem.read key loc size)) ∧
    (numOfBytes (s.mem.read key loc size) ≠ x.toNat % 2 ^ t.bits →
      s.remoteAct key loc size (.cas t x v) = s.arrived.domReply 0 (s.mem.read key loc size)) :=
  ⟨fun h => by simp only [State.remoteAct, if_pos h], fun h => by simp only [State.remoteAct, if_neg h]⟩

/-! ### Coherent lines (R379, R463, R464) -/

/-- A device that answers serves a request for a line of its own (R379). -/
theorem execDirectoryRequest_serves {s : State} {dev line : Nat} {store : Bool} (hans : s.answers = true)
    (hlost : s.dom.lost.contains dev = false) : exec (.directoryRequest dev line store) s = .next (s.dirRequest dev line store) := by
  show execDirectoryRequest dev line store s = _
  simp only [execDirectoryRequest, hans, hlost, Bool.not_true, Bool.or_self, Bool.false_eq_true, if_false]

/-- A write-back reaches the home, or is discarded from a lost owner (R379, R464). -/
theorem execSnoopReply_reaches {s : State} {line : Nat} {data : List Byte} (hans : s.answers = true) :
    (let e := s.dirEntry line
     (e.ownerLost = true →
       exec (.snoopReply line data) s =
         .next (s.record { code := 0x0D04, sev := 3, kind := 0, addr := dw (line * 64), phys := true, info0 := dw e.lostOwner, info1 := 0 })) ∧
     (∀ o, e.ownerLost = false → e.owner = some o →
       exec (.snoopReply line data) s =
         (let m := { s.mem with cells := cellPuts s.mem.cells (line * 64) (data.take 64), poison := s.mem.poison.filter (· != line) }
          let keep := (e.waiting.head?).any (fun w => !w.2)
          .next (((s.setMem m).setDir line
            { e with owner := none, snooped := none, copies := if keep then addOnce e.copies o else e.copies }).dirRun line)))) := by
  refine ⟨fun hlost => ?_, fun o hlost howner => ?_⟩ <;> show execSnoopReply line data s = _
  · simp only [execSnoopReply, hans, Bool.not_true, Bool.false_eq_true, if_false, hlost, if_true]
    rfl
  · simp only [execSnoopReply, hans, Bool.not_true, Bool.false_eq_true, if_false, hlost, howner]

/-- A snoop unanswered for its patience loses the line's owner (R463). -/
theorem execSnoopTimeout_loses {s : State} {line o t : Nat} (howner : (s.dirEntry line).owner = some o)
    (hsnoop : (s.dirEntry line).snooped = some t) :
    (t + 50000 ≤ s.now → exec (.snoopTimeout line) s = .next (s.loseOwner line o)) ∧
    (s.now < t + 50000 → exec (.snoopTimeout line) s = .next s) := by
  have hrun : exec (.snoopTimeout line) s = if t + snoopPatience ≤ s.now then .next (s.loseOwner line o) else .next s := by
    show execSnoopTimeout line s = _
    simp only [execSnoopTimeout, howner, hsnoop]
  exact ⟨fun hlate => hrun.trans (if_pos hlate), fun hearly => hrun.trans (if_neg (Nat.not_le.2 hearly))⟩

/-! ### Ports and lost devices (R413, R493, R495) -/

/-- A failed port is fenced once. -/
theorem execEorexPortFailure_fences {s : State} {p : Nat} (n : Nat) (hp : p < 18) :
    (s.plat.fsPort.contains p = false →
      exec (.eorexPortFailure p n) s =
        (let u := s.setPlat { s.plat with fsPort := insertNat s.plat.fsPort p }
         let r : ErrRec := { code := 0x0F04, sev := 4, kind := 8, index := p, info0 := dw n }
         .next ((u.setDom { u.dom with portDown := insertNat u.dom.portDown p }).record r))) ∧
    (s.plat.fsPort.contains p = true → exec (.eorexPortFailure p n) s = .next s) := by
  have hrun : exec (.eorexPortFailure p n) s = .next (s.fencePort p n) := if_neg (Nat.not_le.2 hp)
  exact ⟨fun hopen => hrun.trans (congrArg Host.Outcome.next (if_neg (ne_true_of_eq_false hopen))),
    fun hfenced => hrun.trans (congrArg Host.Outcome.next (if_pos hfenced))⟩

/-- Settles O49: accesses by the home they reach, lines by the directory, ports and devices by their own rules. -/
theorem domainCoherence : Obligations.DomainCoherence := by
  unfold Obligations.DomainCoherence
  refine fun s => ⟨fun dev pa size key k hans hlost => ⟨fun hnone => ?nowhere, fun loc hloc => ⟨fun hhbm htile => ?outside, fun hhome => ?home⟩⟩,
    fun dev line store => execDirectoryRequest_serves,
    fun dev line hans hlost hdev hentry hroom =>
      ⟨⟨_, execDirectoryRequest_serves hans hlost, ?load⟩, ⟨_, execDirectoryRequest_serves hans hlost, ?store⟩⟩,
    fun line d hans hheld => ?snoop, fun line hans => ?invalid, fun line data => execSnoopReply_reaches,
    fun line o t => execSnoopTimeout_loses, fun p n => execEorexPortFailure_fences n, fun d hlost hdev => ?lost⟩
  case nowhere => exact execRemoteAccess_elsewhere hans hlost fun loc hloc => nomatch hnone.symm.trans hloc
  case outside => exact execRemoteAccess_elsewhere hans hlost fun l hl => Option.some.inj (hloc.symm.trans hl) ▸ ⟨hhbm, htile⟩
  case home =>
    obtain ⟨hrefused, hdone⟩ := execRemoteAccess_home (size := size) (key := key) (k := k) hans hlost hloc hhome
    refine ⟨hrefused, fun hcheck => ⟨?_, ?_, ?_, ?_, ?_⟩⟩
    · rintro rfl
      exact hdone hcheck
    · rintro bs rfl
      exact hdone hcheck
    · rintro t x v rfl
      exact ⟨fun h => (hdone hcheck).trans (congrArg Host.Outcome.next ((remoteAct_cas ..).1 h)),
        fun h => (hdone hcheck).trans (congrArg Host.Outcome.next ((remoteAct_cas ..).2 h))⟩
    · rintro op t v n fl rfl hnew
      rw [hdone hcheck]
      simp only [State.remoteAct, hnew]
    · rintro op t v fl rfl hnew
      rw [hdone hcheck]
      simp only [State.remoteAct, hnew]
  case load =>
    rw [freshGrant s dev line false hdev hentry hroom]
    exact ⟨rfl, rfl⟩
  case store =>
    rw [freshGrant s dev line true hdev hentry hroom]
    exact ⟨rfl, rfl⟩
  case snoop =>
    refine ⟨?_, ?_⟩ <;> show execSnoop line _ s = _ <;>
      simp only [execSnoop, hans, Bool.not_true, Bool.false_eq_true, if_false, hheld, if_true]
  case invalid =>
    show execInvalidation line s = _
    simp only [execInvalidation, hans, Bool.not_true, Bool.false_eq_true, if_false]
  case lost =>
    have hnew : (s.dom.lost.contains d || d == s.dom.dev) = false := by rw [hlost, Bool.false_or, beq_false_of_ne hdev]
    exact if_neg (ne_true_of_eq_false hnew)

/-! ### Collective rounds (R281, R377, R378, R496, R497) -/

/-- Settles O50: a delivery by its contributions, an abort by whether this device has the round. -/
theorem collectiveRounds : Obligations.CollectiveRounds := by
  unfold Obligations.CollectiveRounds
  refine fun s group round => ⟨fun c r contribs hround => ⟨fun hcount hbytes => ?delivered, fun hcount => ?waits⟩,
    fun code mask => ⟨⟨fun hnone => ?noted, fun c r hsome => ?ended⟩, rfl⟩⟩
  case delivered =>
    have hall : contribs.all (fun b => b.length == r.bytes) = true := List.all_eq_true.2 fun b hb => by simp [hbytes b hb]
    show execCollectiveDelivery group round contribs s = _
    simp only [execCollectiveDelivery, hround]
    exact if_pos ⟨hcount, hall⟩
  case waits =>
    show execCollectiveDelivery group round contribs s = _
    simp only [execCollectiveDelivery, hround]
    exact if_neg fun h => hcount h.1
  case noted =>
    show Host.Outcome.next (s.abortRound group round code.toNat mask.toNat) = _
    simp only [State.abortRound, hnone]
  case ended =>
    show Host.Outcome.next (s.abortRound group round code.toNat mask.toNat) = _
    simp only [State.abortRound, hsome, BitVec.ofNat_toNat, BitVec.setWidth_eq]

end Sys2Proof.Machine
end

section
/-!
The operations on the state keep it sound: memory and held stores, the setters, error records, the register pool and skeins, traps
and the end of a team.

Soundness reads memory's cells and the two power figures. The operations that change one of these are few: a write of memory
(`State.write`, `State.ctlWrite8`, `State.setCount`, `execSnoopReply`), the management block and the power sample, and the
resets. Every other operation keeps soundness because those it is made of do, so there is one lemma for each, in the order
of the model's text.
-/
namespace Sys2Proof.Machine

/-- Soundness reads memory's cells and two figures of the platform. -/
theorem State.Sound.of_eq {s t : State} (h : s.Sound) (hmem : t.mem.cells = s.mem.cells)
    (hlim : t.plat.pwLim = s.plat.pwLim) (hfrac : t.plat.pwFrac = s.plat.pwFrac) : t.Sound :=
  ⟨by rw [Mem.wf, hmem]; exact h.mem, by rw [hlim]; exact h.limit, by rw [hfrac]; exact h.frac⟩

/-- A record update that leaves memory and the platform alone keeps soundness; written with the state's constructor, as such an
update unfolds to it. -/
theorem sound_same {a b c d e f g h i j k l m n o p q r : _} {s : State} (hs : s.Sound) :
    State.Sound ⟨a, b, c, d, e, f, s.mem, g, h, i, j, k, l, m, n, o, p, q, r, s.plat⟩ :=
  ⟨hs.mem, hs.limit, hs.frac⟩

theorem foldl_sound {α : Type} {f : State → α → State} (hf : ∀ u a, u.Sound → (f u a).Sound) {l : List α} {s : State}
    (h : s.Sound) : (l.foldl f s).Sound := by
  induction l generalizing s with
  | nil => exact h
  | cons a l ih => exact ih (hf _ _ h)

theorem getD_sound {o : Option State} {s : State} (h : s.Sound) (ho : ∀ u, o = some u → u.Sound) : (o.getD s).Sound := by
  cases o with
  | none => exact h
  | some u => exact ho u rfl

/-- A run of sorted cells without zeros keeps that form under a filter. -/
theorem cellsWf_filter (p : Host.Cell → Bool) (cs : List Host.Cell) (h : cellsWf cs = true) :
    cellsWf (cs.filter p) = true := by
  induction cs with
  | nil => rfl
  | cons c cs ih =>
    obtain ⟨hb, hlt, hcs⟩ := (cellsWf_cons c.1 c.2 cs).1 h
    rw [List.filter_cons]
    split
    · exact (cellsWf_cons ..).2 ⟨hb, fun x hx => hlt x (List.mem_filter.1 hx).1, ih hcs⟩
    · exact ih hcs

/-- What a write of `pw.lim` stores is within its bounds, whatever is written (R393). -/
theorem pwLim_range (n : Nat) :
    500 ≤ (if 2000 < n then 2000 else if n < 500 then 500 else n) ∧
      (if 2000 < n then 2000 else if n < 500 then 500 else n) ≤ 2000 := by
  split
  · decide
  · split <;> omega

theorem ite_sound {c : Prop} [Decidable c] {s t : State} (hs : s.Sound) (ht : t.Sound) : (if c then s else t).Sound := by
  split
  · exact hs
  · exact ht

/-! ### Home memory -/

theorem setMem_sound {s : State} {m : Mem} (h : s.Sound) (hm : m.cells = s.mem.cells) : (s.setMem m).Sound :=
  h.of_eq hm rfl rfl

theorem poisonLine_sound {s : State} {line : Nat} (h : s.Sound) : (s.setMem (s.mem.poisonLine line)).Sound :=
  setMem_sound h rfl

theorem write_sound {s : State} {p : Party} {key loc : Nat} {bs : List Byte} (h : s.Sound) :
    (s.write p key loc bs).Sound :=
  ⟨write_wf s p key loc bs h.mem, h.limit, h.frac⟩

/-! ### Held-back stores, releases and acquires (R77 to R81, R85) -/

theorem performOne_sound {s : State} {p : PendStore} (h : s.Sound) : (s.performOne p).Sound := by
  unfold State.performOne
  grind [write_sound]

theorem performEarly_sound {s : State} {p : PendStore} (h : s.Sound) : (s.performEarly p).Sound := by
  unfold State.performEarly
  grind [setMem_sound, performOne_sound]

theorem arrived_sound {s : State} (h : s.Sound) : s.arrived.Sound := by
  unfold State.arrived
  grind [setMem_sound]

theorem performStores_sound {s : State} {q : PendStore → Bool} (h : s.Sound) : (s.performStores q).Sound := by
  unfold State.performStores
  grind [setMem_sound, performOne_sound, foldl_sound]

theorem drainOne_sound {s : State} (h : s.Sound) : s.drainOne.Sound := by
  unfold State.drainOne
  grind [setMem_sound, performEarly_sound, sound_same]

theorem drainOf_sound {s : State} {w : Who} (h : s.Sound) : (s.drainOf w).Sound := performStores_sound h

theorem release_sound {s : State} {w : Who} {sc : Scope} (h : s.Sound) : (s.release w sc).Sound := by
  unfold State.release
  grind [setMem_sound, arrived_sound, drainOf_sound]

theorem staleSnap_sound {s : State} {core : Nat} (h : s.Sound) : (s.staleSnap core).Sound := by
  unfold State.staleSnap
  grind [setMem_sound, arrived_sound]

theorem acquire_sound {s : State} {w : Who} {core : Nat} {sc : Scope} (h : s.Sound) : (s.acquire w core sc).Sound := by
  unfold State.acquire
  grind [performStores_sound, staleSnap_sound, sound_same]

theorem startView_sound {s : State} {w : Who} {core : Nat} (h : s.Sound) : (s.startView w core).Sound := by
  unfold State.startView
  grind [acquire_sound, sound_same]

/-! ### The value of a load (R82) -/

theorem tickFree_sound {s : State} (h : s.Sound) : s.tickFree.Sound := sound_same h

theorem viewBytes_sound {s : State} {req : Wrote → Bool} {fill : Option Nat} {key loc n : Nat} (h : s.Sound) :
    (s.viewBytes req fill key loc n).1.Sound := by
  unfold State.viewBytes
  grind [tickFree_sound]

theorem sawWrite_sound {s : State} {w : Who} {loc n seq : Nat} (h : s.Sound) : (s.sawWrite w loc n seq).Sound := by
  unfold State.sawWrite
  split
  · exact h
  · exact sound_same (arrived_sound h)

theorem readHome_sound {s : State} {w : Who} {core key loc n : Nat} (h : s.Sound) :
    (s.readHome w core key loc n).1.Sound := by
  unfold State.readHome
  grind [arrived_sound, sawWrite_sound]

theorem hostView_sound {s : State} {key loc n : Nat} (h : s.Sound) : (s.hostView key loc n).1.Sound := by
  unfold State.hostView
  grind [setMem_sound, tickFree_sound]

theorem fillLine_sound {s : State} {core line : Nat} (h : s.Sound) : (s.fillLine core line).1.Sound := by
  unfold State.fillLine
  grind [setMem_sound]

theorem loadValue_sound {s : State} {w : Who} {core key loc n : Nat} {atHome : Bool} (h : s.Sound) :
    (s.loadValue w core key loc n atHome).1.Sound := by
  cases atHome with
  | true => exact readHome_sound h
  | false => exact sawWrite_sound (viewBytes_sound (fillLine_sound h))

theorem storeValue_sound {s : State} {w : Who} {core key loc : Nat} {bs : List Byte} {atHome : Bool}
    {due : Option Nat} (h : s.Sound) : (s.storeValue w core key loc bs atHome due).Sound := by
  unfold State.storeValue
  grind [setMem_sound, write_sound, drainOf_sound]

/-! ### Accessors -/

theorem setCore_sound {s : State} {c : Nat} {k : Core} (h : s.Sound) : (s.setCore c k).Sound := sound_same h

theorem modCore_sound {s : State} {c : Nat} {f : Core → Core} (h : s.Sound) : (s.modCore c f).Sound := setCore_sound h

theorem setThread_sound {s : State} {w : Who} {t : Thread} (h : s.Sound) : (s.setThread w t).Sound := sound_same h

theorem modThread_sound {s : State} {w : Who} {f : Thread → Thread} (h : s.Sound) : (s.modThread w f).Sound :=
  sound_same h

theorem dropThread_sound {s : State} {w : Who} (h : s.Sound) : (s.dropThread w).Sound := sound_same h

theorem modTeam_sound {s : State} {t : TeamId} {f : Team → Team} (h : s.Sound) : (s.modTeam t f).Sound := sound_same h

theorem setTeam_sound {s : State} {t : TeamId} {v : Team} (h : s.Sound) : (s.setTeam t v).Sound := sound_same h

theorem modSkein_sound {s : State} {c x : Nat} {f : Skein → Skein} (h : s.Sound) : (s.modSkein c x f).Sound :=
  sound_same h

theorem setSys_sound {s : State} {y : Sys} (h : s.Sound) : (s.setSys y).Sound := sound_same h

theorem setErrs_sound {s : State} {e : Errs} (h : s.Sound) : (s.setErrs e).Sound := sound_same h

theorem setPlat_sound {s : State} {p : Plat} (h : s.Sound) (hl : p.pwLim = s.plat.pwLim)
    (hf : p.pwFrac = s.plat.pwFrac) : (s.setPlat p).Sound :=
  h.of_eq rfl hl hf

theorem setFront_sound {s : State} {f : Front} (h : s.Sound) : (s.setFront f).Sound := sound_same h

theorem setDom_sound {s : State} {d : Domain} (h : s.Sound) : (s.setDom d).Sound := sound_same h

theorem setSync_sound {s : State} {y : Sync} (h : s.Sound) : (s.setSync y).Sound := sound_same h

theorem modGrid_sound {s : State} {g : Nat} {f : Grid → Grid} (h : s.Sound) : (s.modGrid g f).Sound := by
  unfold State.modGrid
  grind [setFront_sound]

theorem modDie_sound {s : State} {k : Nat} {f : SearchDie → SearchDie} (h : s.Sound) : (s.modDie k f).Sound :=
  sound_same h

theorem modQueue_sound {s : State} {q : Nat} {f : LaunchQueue → LaunchQueue} (h : s.Sound) : (s.modQueue q f).Sound := by
  unfold State.modQueue
  grind [setFront_sound]

theorem modCmd_sound {s : State} {id : Nat} {f : Cmd → Cmd} (h : s.Sound) : (s.modCmd id f).Sound := sound_same h

theorem dropCmd_sound {s : State} {id : Nat} (h : s.Sound) : (s.dropCmd id).Sound := sound_same h

theorem due_sound {s : State} {es : List Due} (h : s.Sound) : (s.due es).Sound := by
  unfold State.due
  grind [setSys_sound]

/-! ### Lane registers, predicates and scalars -/

theorem writeK_sound {s : State} {n : Nat} {v : DWord} (h : s.Sound) : (s.writeK n v).Sound := by
  unfold State.writeK
  grind [modSkein_sound, sound_same]

/-! ### Error records (R418 to R421) -/

theorem interrupt_sound {s : State} {v : Nat} (h : s.Sound) : (s.interrupt v).Sound := by
  unfold State.interrupt
  grind [setPlat_sound]

theorem latchEvent_sound {s : State} {n : Nat} (h : s.Sound) : (s.latchEvent n).Sound := sound_same h

theorem record_sound {s : State} {r : ErrRec} (h : s.Sound) : (s.record r).Sound := by
  unfold State.record
  grind [setErrs_sound]

theorem writeRecord_sound {s : State} {r : ErrRec} (h : s.Sound) : (s.writeRecord r).Sound := by
  unfold State.writeRecord
  grind [write_sound, setErrs_sound, interrupt_sound, latchEvent_sound]

theorem writeRecords_sound {s : State} (h : s.Sound) : s.writeRecords.Sound := by
  unfold State.writeRecords
  grind [setErrs_sound, writeRecord_sound, foldl_sound]

theorem corrected_sound {s : State} {kind index loc : Nat} (h : s.Sound) : (s.corrected kind index loc).Sound := by
  unfold State.corrected
  grind [setErrs_sound, record_sound]

theorem poisonDetected_sound {s : State} {kind index loc : Nat} (h : s.Sound) :
    (s.poisonDetected kind index loc).Sound := by
  unfold State.poisonDetected
  split
  · exact h
  · exact record_sound (setMem_sound h rfl)

/-! ### The register pool, skeins and bobbins -/

theorem wakeCore_sound {s : State} {c : Nat} (h : s.Sound) : (s.wakeCore c).Sound := by
  unfold State.wakeCore
  grind [setCore_sound]

theorem ready_sound {s : State} {w : Who} (h : s.Sound) : (s.ready w).Sound := by
  unfold State.ready
  grind [modThread_sound, wakeCore_sound]

theorem readyPast_sound {s : State} {w : Who} {len : Nat} (h : s.Sound) : (s.readyPast w len).Sound := by
  unfold State.readyPast
  grind [modThread_sound, ready_sound]

theorem passOwner_sound {s : State} {c : Nat} (h : s.Sound) : (s.passOwner c).Sound := by
  unfold State.passOwner
  grind [setCore_sound]

theorem freeSkein_sound {s : State} {c x : Nat} (h : s.Sound) : (s.freeSkein c x).Sound := by
  unfold State.freeSkein
  grind [modCore_sound, passOwner_sound, sound_same]

theorem sweepSkein_sound {s : State} {c x : Nat} (h : s.Sound) : (s.sweepSkein c x).Sound := by
  unfold State.sweepSkein
  grind [freeSkein_sound]

theorem fileOne_sound {s : State} {c : Nat} {w : Who} (h : s.Sound) : (s.fileOne c w).Sound := by
  unfold State.fileOne
  grind [modCore_sound, modThread_sound]

theorem fileAll_sound {s : State} {c : Nat} (h : s.Sound) : (s.fileAll c).Sound := by
  unfold State.fileAll
  grind [fileOne_sound, foldl_sound]

theorem releaseHeld_sound {s : State} {c x : Nat} (h : s.Sound) : (s.releaseHeld c x).Sound := by
  unfold State.releaseHeld
  grind [modThread_sound, ready_sound, foldl_sound]

/-! ### Taking a trap (R429 to R436) -/

theorem removeThread_sound {s : State} {w : Who} (h : s.Sound) : (s.removeThread w).Sound := by
  unfold State.removeThread
  grind [drainOf_sound, modCore_sound, dropThread_sound, sweepSkein_sound]

theorem stopTeam_sound {s : State} {t : TeamId} {e : Nat × Nat × Nat} (h : s.Sound) : (s.stopTeam t e).Sound := by
  unfold State.stopTeam
  grind [modTeam_sound, fileAll_sound, removeThread_sound, foldl_sound, sound_same]

theorem endTeam_sound {s : State} {t : TeamId} {code info0 info1 : Nat} (h : s.Sound) :
    (s.endTeam t code info0 info1).Sound := by
  unfold State.endTeam
  grind [modGrid_sound, stopTeam_sound, foldl_sound]

theorem trapRecord_sound {s : State} {w : Who} {f : Fail} (h : s.Sound) : (s.trapRecord w f).Sound := by
  unfold State.trapRecord
  grind [record_sound]

theorem trapLane_sound {s : State} {w : Who} {f : Fail} (h : s.Sound) : (s.trapLane w f).Sound := by
  unfold State.trapLane
  grind [setThread_sound, endTeam_sound, trapRecord_sound]

theorem returnFromTrap_sound {s : State} {w : Who} {target : DWord} (h : s.Sound) : (s.returnFromTrap w target).Sound :=
  modThread_sound h

end Sys2Proof.Machine
end

section
/-!
Translation, accesses, directory, channels and the way a gang acts keep the state sound. What a gang runs is a
parameter: its lemma asks that each act keep soundness.
-/
namespace Sys2Proof.Machine

/-! ### Page-table entries and walks (R96 to R102) -/

theorem walkGo_sound {s : State} {asid va table n : Nat} (h : s.Sound) : (s.walkGo asid va table n).1.Sound := by
  induction n generalizing s table with
  | zero => grind [State.walkGo]
  | succ n ih =>
    unfold State.walkGo
    grind [setMem_sound, arrived_sound, sound_same]

theorem walkTable_sound {s : State} {asid root va : Nat} (h : s.Sound) : (s.walkTable asid root va).1.Sound :=
  walkGo_sound h

theorem tlbFill_sound {s : State} {u : TlbUnit} {e : TlbEntry} (h : s.Sound) : (s.tlbFill u e).Sound := by
  unfold State.tlbFill
  grind [setMem_sound]

theorem tlbLookup_sound {s : State} {u : TlbUnit} {asid root va : Nat} (h : s.Sound) :
    (s.tlbLookup u asid root va).1.Sound := by
  unfold State.tlbLookup
  grind [walkTable_sound, tlbFill_sound]

/-! ### Accesses (R450) -/

theorem checkIssue_sound {s : State} {a : Access} (h : s.Sound) : (s.checkIssue a).1.Sound := by
  unfold State.checkIssue
  grind [tlbLookup_sound]

/-! ### Declared buffers and the regions the device keeps (R73 to R76, R227, R231, R266) -/

theorem bufSetState_sound {s : State} {r : BufRef} {st : BufState} (h : s.Sound) : (s.bufSetState r st).Sound :=
  modTeam_sound h

/-! ### The batch ring (R108 to R113, R395, R456 to R460) -/

theorem batchRecord_sound {s : State} {b : BatchEntry} {idx : Option Nat} (h : s.Sound) : (s.batchRecord b idx).Sound :=
  record_sound h

theorem batchWrite_sound {s : State} {b : BatchEntry} (h : s.Sound) : (s.batchWrite b).Sound := by
  unfold State.batchWrite
  grind [write_sound, setErrs_sound, interrupt_sound, latchEvent_sound, batchRecord_sound]

theorem batch_sound {s : State} {b : BatchEntry} (h : s.Sound) : (s.batch b).Sound := by
  unfold State.batch
  grind [setErrs_sound, batchRecord_sound, batchWrite_sound]

theorem rollbackRun_sound {s : State} {id : Nat} (h : s.Sound) : (s.rollbackRun id).Sound := by
  unfold State.rollbackRun
  grind [modThread_sound, batch_sound, foldl_sound, sound_same]

theorem startRun_sound {s : State} {ws : List Who} {kind : AccKind} {va : Nat} {granules : List (Nat × Bool × Bool)}
    {unk : List Nat} (h : s.Sound) : (s.startRun ws kind va granules unk).Sound := by
  unfold State.startRun
  grind [modThread_sound, setSys_sound, rollbackRun_sound, foldl_sound, sound_same]

theorem parkFetch_sound {s : State} {ws : List Who} {va : Nat} (h : s.Sound) : (s.parkFetch ws va).Sound := by
  unfold State.parkFetch
  grind [modThread_sound, batch_sound, foldl_sound]

/-! ### The home directory of coherent lines -/

theorem setDir_sound {s : State} {line : Nat} {e : DirEntry} (h : s.Sound) : (s.setDir line e).Sound := by
  unfold State.setDir
  grind [setDom_sound]

theorem grantThreads_sound {s : State} {line : Nat} (h : s.Sound) : (s.grantThreads line).Sound := sound_same h

theorem dirRecall_sound {s : State} {line : Nat} (h : s.Sound) : (s.dirRecall line).1.Sound := by
  unfold State.dirRecall
  grind [setDir_sound]

theorem dirServe_sound {s : State} {line n : Nat} (h : s.Sound) : (s.dirServe line n).Sound := by
  induction n generalizing s with
  | zero => exact h
  | succ n ih =>
    unfold State.dirServe
    grind [setDir_sound, grantThreads_sound, dirRecall_sound]

theorem dirRun_sound {s : State} {line : Nat} (h : s.Sound) : (s.dirRun line).Sound := dirServe_sound h

theorem dirRequest_sound {s : State} {dev line : Nat} {store : Bool} (h : s.Sound) :
    (s.dirRequest dev line store).Sound := by
  unfold State.dirRequest
  grind [setDir_sound, dirRun_sound]

theorem dropCopies_sound {s : State} {loc : Nat} (h : s.Sound) : (s.dropCopies loc).Sound := by
  unfold State.dropCopies
  grind [setDir_sound]

/-! ### Rounding modes (R123, R124) -/

theorem writeFmode_sound {s : State} {t : TeamId} {rank : Nat} {v : DWord} (h : s.Sound) :
    (s.writeFmode t rank v).Sound := by
  unfold State.writeFmode
  grind [modTeam_sound]

/-! ### Channels (R226 to R230) -/

theorem modChan_sound {s : State} {t : TeamId} {n : Nat} {f : Chan → Chan} (h : s.Sound) : (s.modChan t n f).Sound := by
  unfold State.modChan
  grind [modTeam_sound, modGrid_sound]

theorem popOne_sound {s u : State} {t : TeamId} {n : Nat} {r : DWord} (h : s.Sound) (e : s.popOne t n = some (u, r)) :
    u.Sound := by
  unfold State.popOne at e
  grind [modCore_sound, modChan_sound]

theorem pushOne_sound {s : State} {t : TeamId} {n : Nat} {v : DWord} (h : s.Sound) : (s.pushOne t n v).Sound :=
  modChan_sound h

theorem wakeChan_sound {s : State} {t : TeamId} {n : Nat} (h : s.Sound) : (s.wakeChan t n).Sound := by
  unfold State.wakeChan
  grind [ready_sound, foldl_sound]

theorem wakeCarder_sound {s : State} {t : TeamId} (h : s.Sound) : (s.wakeCarder t).Sound := by
  unfold State.wakeCarder
  grind [ready_sound, foldl_sound]

/-! ### L-form instructions -/

theorem popLane_sound {s t : State} {g : TeamId} {th : Thread} {srcs : List (Src × Bool)} {r : List DWord}
    (h : s.Sound) (e : s.popLane g th srcs = some (t, r)) : t.Sound := by
  induction srcs generalizing s r with
  | nil => grind [State.popLane]
  | cons x xs ih =>
    obtain ⟨x, w⟩ := x
    cases x with grind [State.popLane, popOne_sound, Option.map_eq_some_iff]

theorem popLanes_sound {s t : State} {srcs : List (Src × Bool)} {ls r : List LaneIn} (h : s.Sound)
    (e : s.popLanes srcs ls = some (t, r)) : t.Sound := by
  induction ls generalizing s r with
  | nil => grind [State.popLanes]
  | cons l ls ih => grind [State.popLanes, popLane_sound, Option.map_eq_some_iff]

theorem blockLane_sound {s : State} {w : Who} {on : WaitOn} (h : s.Sound) : (s.blockLane w on).Sound :=
  modThread_sound h

theorem stopSets_sound {s : State} {bad : List (Nat × Who)} (h : s.Sound) : (s.stopSets bad).Sound := by
  unfold State.stopSets
  grind [sound_same]

theorem addGranules_sound {s : State} {gs : List (Nat × AccKind)} (h : s.Sound) : (s.addGranules gs).Sound := by
  unfold State.addGranules
  grind [sound_same]

theorem walkFault_sound {s : State} {w : Who} {f : Fail} (h : s.Sound) : (s.walkFault w f).Sound := by
  unfold State.walkFault
  grind [modDie_sound]

theorem raise_sound {s : State} {fs : List (Nat × Who × Fail)} (h : s.Sound) : (s.raise fs).Sound := by
  unfold State.raise
  grind [trapLane_sound, stopSets_sound, walkFault_sound, foldl_sound]

theorem parkWalker_sound {s : State} {w : Who} {va : Nat} {kind : AccKind} (h : s.Sound) :
    (s.parkWalker w va kind).Sound := by
  unfold State.parkWalker
  grind [setThread_sound, record_sound, batch_sound]

theorem pageFaults_sound {s : State} {dst : Option (Dst × Bool)} {ps : List (Who × Nat × AccKind)} (h : s.Sound) :
    (s.pageFaults dst ps).Sound := by
  unfold State.pageFaults
  grind [startRun_sound, addGranules_sound, parkWalker_sound, foldl_sound]

theorem pagedAhead_sound {s : State} {sp : LaneSpec} {ws : List Who} (h : s.Sound) : (s.pagedAhead sp ws).Sound := by
  unfold State.pagedAhead
  grind [modThread_sound, foldl_sound]

theorem pagedLanes_sound {s : State} {sp : LaneSpec} {pg : List (LaneIn × Nat × AccKind)} (h : s.Sound) :
    (s.pagedLanes sp pg).Sound := by
  unfold State.pagedLanes
  grind [pageFaults_sound, pagedAhead_sound]

theorem wakePops_sound {s : State} {team : TeamId} {pops : List Nat} (h : s.Sound) : (s.wakePops team pops).Sound := by
  unfold State.wakePops
  grind [wakeChan_sound, foldl_sound]

theorem writeLanes_sound {s : State} {i : Issue} {sp : LaneSpec} {team : TeamId} {rs : List (LaneIn × LaneOut)}
    (h : s.Sound) : (s.writeLanes i sp team rs).Sound := by
  unfold State.writeLanes
  grind [modThread_sound, pushOne_sound, wakeChan_sound, foldl_sound]

theorem endLanes_sound {s : State} {i : Issue} {sp : LaneSpec} {pg : List (LaneIn × Nat × AccKind)}
    {rs : List (LaneIn × LaneOut)} (h : s.Sound) : (s.endLanes i sp pg rs).Sound := by
  unfold State.endLanes
  grind [releaseHeld_sound, addGranules_sound, raise_sound, pagedAhead_sound, pagedLanes_sound]

theorem actLanes_sound {s : State} {i : Issue} {sp : LaneSpec} {team : TeamId} {pg : List (LaneIn × Nat × AccKind)}
    {act : State → List LaneIn → State × List LaneOut} {ls : List LaneIn}
    (ha : ∀ u ls, u.Sound → (act u ls).1.Sound) (h : s.Sound) :
    (s.actLanes i sp team pg act ls).Sound :=
  endLanes_sound (writeLanes_sound (foldl_sound (fun _ _ hu => modThread_sound hu) (ha _ _ (wakePops_sound h))))

theorem blockLanes_sound {s : State} {sp : LaneSpec} {team : TeamId} {pg : List (LaneIn × Nat × AccKind)}
    {ls : List LaneIn} {c : Nat} (h : s.Sound) : (s.blockLanes sp team pg ls c).Sound := by
  unfold State.blockLanes
  grind [releaseHeld_sound, modChan_sound, blockLane_sound, pagedLanes_sound, foldl_sound]

theorem goLanes_sound {s : State} {sp : LaneSpec} {act : State → List LaneIn → State × List LaneOut} {ls : List LaneIn}
    (ha : ∀ u ls, u.Sound → (act u ls).1.Sound) (h : s.Sound) : (s.goLanes sp act ls).Sound := by
  unfold State.goLanes
  grind [actLanes_sound, blockLanes_sound, pagedLanes_sound, popLanes_sound, releaseHeld_sound]

theorem runLanes_sound {s : State} {sp : LaneSpec} {act : State → List LaneIn → State × List LaneOut}
    (ha : ∀ u ls, u.Sound → (act u ls).1.Sound) (h : s.Sound) : (s.runLanes sp act).Sound := by
  unfold State.runLanes
  grind [goLanes_sound, raise_sound, releaseHeld_sound, stopSets_sound]

theorem runPure_sound {s : State} {sp : LaneSpec} {f : State → LaneIn → LaneOut} (h : s.Sound) :
    (s.runPure sp f).Sound :=
  runLanes_sound (fun _ _ hu => hu) h

theorem foldLanes_sound {f : State → LaneIn → State × LaneOut} (hf : ∀ u l, u.Sound → (f u l).1.Sound) {s : State}
    {ls : List LaneIn} (h : s.Sound) : (foldLanes f s ls).1.Sound := by
  induction ls generalizing s with
  | nil => exact h
  | cons l ls ih => exact ih (hf _ _ h)

theorem runSeq_sound {s : State} {sp : LaneSpec} {f : State → LaneIn → State × LaneOut}
    (hf : ∀ u l, u.Sound → (f u l).1.Sound) (h : s.Sound) : (s.runSeq sp f).Sound :=
  runLanes_sound (fun _ _ => foldLanes_sound hf) h

/-! ### U-form instructions (R288 to R290) -/

theorem gangGo_sound {s : State} {f : Thread → Thread} (h : s.Sound) : (s.gangGo f).Sound := by
  unfold State.gangGo
  grind [modThread_sound, foldl_sound]

theorem gangRaise_sound {s : State} {f : Fail} (h : s.Sound) : (s.gangRaise f).Sound := by
  unfold State.gangRaise
  grind [releaseHeld_sound, raise_sound]

theorem forgetK_sound {s : State} {n : Nat} (h : s.Sound) : (s.forgetK n).Sound := sound_same h

theorem popU_sound {s t : State} {g : TeamId} {srcs : List USrc} {r : List DWord} (h : s.Sound)
    (e : s.popU g srcs = some (t, r)) : t.Sound := by
  induction srcs generalizing s r with
  | nil => grind [State.popU]
  | cons x xs ih => cases x with grind [State.popU, popOne_sound, Option.map_eq_some_iff]

theorem endU_sound {s : State} {i : Issue} {team : TeamId} {dst : Option UDst} {o : UOut} (h : s.Sound) :
    (s.endU i team dst o).Sound := by
  unfold State.endU
  grind [writeK_sound, releaseHeld_sound, pushOne_sound, wakeChan_sound, gangGo_sound, gangRaise_sound]

theorem blockU_sound {s : State} {team : TeamId} {c : Nat} (h : s.Sound) : (s.blockU team c).Sound := by
  unfold State.blockU
  grind [releaseHeld_sound, modChan_sound, blockLane_sound, foldl_sound]

theorem runU_sound {s : State} {srcs : List USrc} {dst : Option UDst} {act : State → List DWord → State × UOut}
    (ha : ∀ u vs, u.Sound → (act u vs).1.Sound) (h : s.Sound) : (s.runU srcs dst act).Sound := by
  unfold State.runU
  grind [blockU_sound, endU_sound, forgetK_sound, gangGo_sound, gangRaise_sound, popU_sound, stopSets_sound,
    wakePops_sound]

/-! ### Operand shapes -/

theorem lane1_sound {s : State} {d : Dst} {a : Src} {f : Word → Word} (h : s.Sound) : (s.lane1 d a f).Sound :=
  runPure_sound h

theorem lane2_sound {s : State} {d : Dst} {a b : Src} {f : Word → Word → Word} (h : s.Sound) : (s.lane2 d a b f).Sound :=
  runPure_sound h

/-! ### Elements (R120, R163, R171) -/

theorem elementwise_sound {s : State} {f : Fmt} {signed : Bool} {d : Dst} {srcs : List Src}
    {op : RMode → List Nat → Nat × Flags} (h : s.Sound) : (s.elementwise f signed d srcs op).Sound := runPure_sound h

theorem execMadw_sound {s t : State} {f : Fmt} {d : Dst} {a b c : Src} (h : s.Sound)
    (e : execMadw f d a b c s = .next t) : t.Sound := by
  unfold execMadw at e
  grind [runPure_sound]

/-! ### Bit fields and addresses (R174) -/

theorem execBfi_sound {s t : State} {pos : BitVec 5} {len : BitVec 6} {d : Dst} {a b : Src} (h : s.Sound)
    (e : execBfi pos len d a b s = .next t) : t.Sound := by
  unfold execBfi at e
  grind [lane2_sound]

end Sys2Proof.Machine
end

section
/-!
Barriers, hanks, bound registers, the register pool, accesses performed and control instructions keep the state sound.
-/
namespace Sys2Proof.Machine

/-! ### Named barriers -/

theorem modBar_sound {s : State} {t : TeamId} {n : Nat} {f : Bar → Bar} (h : s.Sound) : (s.modBar t n f).Sound := by
  unfold State.modBar
  grind [modTeam_sound, modGrid_sound]

theorem acquireRanges_sound {s : State} {w : Who} {core : Nat} {rs : List Seen} (h : s.Sound) :
    (s.acquireRanges w core rs).Sound := by
  unfold State.acquireRanges
  grind [sawWrite_sound, foldl_sound]

theorem barAcquire_sound {s : State} {w : Who} {b : Bar} (h : s.Sound) : (s.barAcquire w b).Sound := by
  unfold State.barAcquire
  grind [acquire_sound, acquireRanges_sound]

theorem checkComplete_sound {s : State} {t : TeamId} {n : Nat} (h : s.Sound) : (s.checkComplete t n).Sound := by
  unfold State.checkComplete
  grind [readyPast_sound, modBar_sound, barAcquire_sound, foldl_sound]

theorem arriveOne_sound {s u : State} {t : TeamId} {n bytes : Nat} (h : s.Sound) (e : s.arriveOne t n bytes = some u)
    : u.Sound := by
  unfold State.arriveOne at e
  grind [modBar_sound, checkComplete_sound]

theorem engineArrive_sound {s : State} {t : TeamId} {n bytes kind tag : Nat} {wrote : List Seen} (h : s.Sound) :
    (s.engineArrive t n bytes kind tag wrote).Sound := by
  unfold State.engineArrive
  grind [record_sound, modBar_sound, arriveOne_sound]

theorem exitBar_sound {s : State} {t : TeamId} {w : Who} {n : Nat} (h : s.Sound) : (s.exitBar t w n).Sound := by
  unfold State.exitBar
  grind [arriveOne_sound, modBar_sound, getD_sound]

theorem exitBars_sound {s : State} {t : TeamId} {w : Who} (h : s.Sound) : (s.exitBars t w).Sound := by
  unfold State.exitBars
  grind [exitBar_sound, foldl_sound]

theorem putBar_sound {s : State} {t : TeamId} {n : Nat} {b : Bar} (h : s.Sound) : (s.putBar t n b).Sound := by
  unfold State.putBar
  grind [modTeam_sound, modGrid_sound]

theorem execBarOwe_sound {s t : State} {d : Dst} {nb : Fin 16} {b : Fin 128} (h : s.Sound)
    (e : execBarOwe d nb b s = .next t) : t.Sound := by
  cases e
  refine runSeq_sound (fun u l hu => ?_) h
  grind [modBar_sound, checkComplete_sound, putBar_sound]

theorem execWait_sound {s t : State} {nb : Fin 16} {b : Src} (h : s.Sound) (e : execWait nb b s = .next t) : t.Sound := by
  cases e
  refine runSeq_sound (fun u l hu => ?_) h
  grind [modBar_sound, barAcquire_sound]

theorem execBarInit_sound {s t : State} {nb : Fin 16} {a : Fin 64} {kind : BarKind} (h : s.Sound)
    (e : execBarInit nb a kind s = .next t) : t.Sound := by
  cases e
  refine runU_sound (fun u vs hu => ?_) h
  grind [putBar_sound]

/-! ### Channels -/

theorem bindChan_sound {s u : State} {t : TeamId} {n : Nat} {desc : DWord} (h : s.Sound)
    (e : s.bindChan t n desc = .ok u) : u.Sound := by
  unfold State.bindChan at e
  grind [modTeam_sound, modGrid_sound]

theorem execChbind_sound {s t : State} {c : Fin 32} {a : Fin 64} (h : s.Sound) (e : execChbind c a s = .next t) :
    t.Sound := by
  cases e
  refine runU_sound (fun u vs hu => ?_) h
  grind [bindChan_sound]

theorem execChfree_sound {s t : State} {c : Fin 32} (h : s.Sound) (e : execChfree c s = .next t) : t.Sound := by
  cases e
  refine runU_sound (fun u vs hu => ?_) h
  grind [modTeam_sound, modGrid_sound]

/-! ### Hanks -/

theorem putHank_sound {s : State} {loc : Nat} {h : Hank} (hs : s.Sound) : (s.putHank loc h).Sound := by
  unfold State.putHank
  grind [write_sound, sound_same]

theorem hankAt_sound {s : State} {w : Who} {va : DWord} {writes : Bool} (h : s.Sound) : (s.hankAt w va writes).1.Sound := by
  unfold State.hankAt
  grind [checkIssue_sound]

theorem wakeHank_sound {s : State} {loc : Nat} (h : s.Sound) : (s.wakeHank loc).Sound := by
  unfold State.wakeHank
  grind [ready_sound, foldl_sound]

theorem hankOp_sound {s : State} {l : LaneIn} {va : DWord} {writes : Bool} {op : State → Nat → Hank → State × LaneOut}
    (hop : ∀ u loc k r, u.Sound → op u loc k = r → r.1.Sound) (h : s.Sound) : (s.hankOp l va writes op).1.Sound := by
  unfold State.hankOp
  grind [hankAt_sound, modThread_sound]

theorem execHankPush_sound {s t : State} {p : Fin 8} {a : Fin 128} {b : Src} (h : s.Sound)
    (e : execHankPush p a b s = .next t) : t.Sound := by
  cases e
  refine runSeq_sound (fun u l hu => hankOp_sound (fun v loc k r hv hr => ?_) hu) h
  split at hr <;> subst hr
  · exact wakeHank_sound (putHank_sound (write_sound hv))
  · exact hv

theorem tookEntry_sound {s : State} {loc : Nat} {k : Hank} {p : Fin 8} {v : Except Fail DWord} (h : s.Sound) :
    (s.tookEntry loc k p v).1.Sound := by
  unfold State.tookEntry
  grind [putHank_sound]

theorem execHankPop_sound {s t : State} {d a : Fin 128} {p : Fin 8} (h : s.Sound) (e : execHankPop d a p s = .next t) :
    t.Sound := by
  cases e
  refine runSeq_sound (fun u l hu => hankOp_sound (fun v loc k r hv hr => ?_) hu) h
  split at hr <;> subst hr
  · exact tookEntry_sound hv
  · exact hv

theorem execHankPopWait_sound {s t : State} {d a : Fin 128} {p : Fin 8} (h : s.Sound)
    (e : execHankPopWait d a p s = .next t) : t.Sound := by
  cases e
  refine runSeq_sound (fun u l hu => hankOp_sound (fun v loc k r hv hr => ?_) hu) h
  split at hr <;> subst hr
  · exact tookEntry_sound hv
  · exact sound_same hv

theorem execHankSteal_sound {s t : State} {d a : Fin 128} {p : Fin 8} (h : s.Sound)
    (e : execHankSteal d a p s = .next t) : t.Sound := by
  cases e
  refine runSeq_sound (fun u l hu => hankOp_sound (fun v loc k r hv hr => ?_) hu) h
  split at hr <;> subst hr
  · exact tookEntry_sound hv
  · exact hv

theorem execHankSize_sound {s t : State} {d a : Fin 128} (h : s.Sound) (e : execHankSize d a s = .next t) : t.Sound := by
  cases e
  refine runSeq_sound (fun u l hu => ?_) h
  grind [hankOp_sound]

theorem execHankInit_sound {s t : State} {a b : Fin 64} (h : s.Sound) (e : execHankInit a b s = .next t) : t.Sound := by
  cases e
  refine runU_sound (fun u vs hu => ?_) h
  grind [checkIssue_sound, startRun_sound, putHank_sound]

/-! ### Bound registers -/

theorem setBound_sound {s : State} {dev : Bool} {core i : Nat} {v : DWord} (h : s.Sound) :
    (s.setBound dev core i v).Sound := by
  unfold State.setBound
  grind [setSync_sound]

theorem boundStep_sound {s t : State} {a : Fin 128} {dev : Bool} {i : Fin 16} {f : DWord → DWord → DWord}
    (h : s.Sound) (e : s.boundStep a dev i f = .next t) : t.Sound := by
  unfold State.boundStep at e
  grind [runSeq_sound, setBound_sound]

theorem execBoundMin_sound {s t : State} {a : Fin 128} {nat dev : Bool} {i : Fin 16} (h : s.Sound)
    (e : execBoundMin a nat dev i s = .next t) : t.Sound := by
  unfold execBoundMin at e
  grind [boundStep_sound]

theorem execBoundMinSet_sound {s t : State} {a : Fin 128} {nat dev : Bool} {i : Fin 16} (h : s.Sound)
    (e : execBoundMinSet a nat dev i s = .next t) : t.Sound := by
  unfold execBoundMinSet at e
  grind [boundStep_sound]

theorem execBoundMax_sound {s t : State} {a : Fin 128} {nat dev : Bool} {i : Fin 16} (h : s.Sound)
    (e : execBoundMax a nat dev i s = .next t) : t.Sound := by
  unfold execBoundMax at e
  grind [boundStep_sound]

theorem execBoundMaxSet_sound {s t : State} {a : Fin 128} {nat dev : Bool} {i : Fin 16} (h : s.Sound)
    (e : execBoundMaxSet a nat dev i s = .next t) : t.Sound := by
  unfold execBoundMaxSet at e
  grind [boundStep_sound]

/-! ### Register pool -/

theorem execRegclaim_sound {s t : State} {n : BitVec 8} (h : s.Sound) (e : execRegclaim n s = .next t) : t.Sound := by
  cases e
  refine runSeq_sound (fun u l hu => ?_) h
  grind [modCore_sound, modThread_sound]

theorem execRegrel_sound {s t : State} {n : BitVec 8} (h : s.Sound) (e : execRegrel n s = .next t) : t.Sound := by
  cases e
  refine runSeq_sound (fun u l hu => ?_) h
  grind [modCore_sound, modThread_sound]

theorem execRegisterGrant_sound {s t : State} {core : Nat} (h : s.Sound) (e : execRegisterGrant core s = .next t) :
    t.Sound := by
  unfold execRegisterGrant at e
  grind [modCore_sound, modThread_sound, modSkein_sound, ready_sound, readyPast_sound, fileAll_sound, foldl_sound]

/-! ### Walks' own stores (R88, R361) -/

theorem modBlock_sound {s : State} {stack entry : Nat} {f : Block → Block} (h : s.Sound) :
    (s.modBlock stack entry f).Sound := modDie_sound h

/-! ### Reaching memory -/

theorem reach_sound {s : State} {w : Who} {a : Access} (h : s.Sound) : (s.reach w a).1.Sound := by
  unfold State.reach
  grind [checkIssue_sound]

theorem freeBytes_sound {s : State} {n : Nat} (h : s.Sound) : (s.freeBytes n).1.Sound := by
  unfold State.freeBytes
  grind [setSys_sound]

theorem holdLine_sound {s : State} {tg : Target} {own : Bool} (h : s.Sound) : (s.holdLine tg own).Sound := by
  unfold State.holdLine
  grind [setDom_sound]

theorem loadAt_sound {s : State} {w : Who} {tg : Target} {n : Nat} (h : s.Sound) : (s.loadAt w tg n).1.Sound := by
  unfold State.loadAt
  grind [arrived_sound, acquire_sound, loadValue_sound, freeBytes_sound, holdLine_sound]

theorem storeAt_sound {s : State} {w : Who} {tg : Target} {bs : List Byte} (h : s.Sound) : (s.storeAt w tg bs).Sound := by
  unfold State.storeAt
  grind [release_sound, storeValue_sound, dropCopies_sound, modBlock_sound, holdLine_sound]

/-! ### Grants of coherent lines (R379) -/

theorem awaitGrants_sound {s t : State} {kind : AccKind} {addr : Thread → DWord} {size : Nat} (h : s.Sound)
    (e : s.awaitGrants kind addr size = some t) : t.Sound := by
  unfold State.awaitGrants at e
  grind [dirRequest_sound, gangGo_sound, foldl_sound]

/-! ### The gather collector (R196) -/

theorem gatherOne_sound {s : State} {c : Nat} {g : GatherReq} (h : s.Sound) : (s.gatherOne c g).Sound := by
  unfold State.gatherOne
  grind [write_sound, modCore_sound, modThread_sound, setSys_sound, trapLane_sound, loadAt_sound]

theorem gatherGroup_sound {s : State} {c : Nat} {g : GatherReq} (h : s.Sound) : (s.gatherGroup c g).Sound := by
  unfold State.gatherGroup
  grind [performStores_sound, gatherOne_sound, foldl_sound]

theorem gatherFinish_sound {s : State} {c : Nat} {g : GatherReq} (h : s.Sound) : (s.gatherFinish c g).Sound := by
  unfold State.gatherFinish
  grind [modCore_sound, modThread_sound, wakeCore_sound, releaseHeld_sound, pushOne_sound, wakeChan_sound, foldl_sound]

theorem gatherWake_sound {s : State} {c : Nat} (h : s.Sound) : (s.gatherWake c).Sound := by
  unfold State.gatherWake
  grind [sound_same]

theorem gatherSettle_sound {s : State} {c : Nat} (h : s.Sound) : (s.gatherSettle c).Sound := by
  unfold State.gatherSettle
  grind [gatherFinish_sound, foldl_sound]

theorem execGatherAccess_sound {s t : State} {core : Nat} (h : s.Sound) (e : execGatherAccess core s = .next t) :
    t.Sound := by
  unfold execGatherAccess at e
  grind [gatherGroup_sound, gatherWake_sound, gatherSettle_sound]

theorem flushGather_sound {s : State} {w : Who} (h : s.Sound) : (s.flushGather w).Sound := by
  unfold State.flushGather
  grind [gatherGroup_sound, foldl_sound]

theorem flushGang_sound {s : State} (h : s.Sound) : s.flushGang.Sound := by
  unfold State.flushGang
  grind [flushGather_sound, foldl_sound]

/-! ### Control instructions -/

theorem walkBoundary_sound {s : State} {w : Who} (h : s.Sound) : (s.walkBoundary w).Sound := by
  unfold State.walkBoundary
  grind [modThread_sound]

theorem goto_sound {s : State} {l : LaneIn} {target : DWord} (h : s.Sound) : (s.goto l target).1.Sound := by
  unfold State.goto
  grind [walkBoundary_sound]

theorem execBr_sound {s t : State} {p : Option BrPred} {off : BitVec 19} (h : s.Sound) (e : execBr p off s = .next t)
    : t.Sound := by
  cases e
  refine runSeq_sound (fun u l hu => ?_) h
  grind [goto_sound]

theorem callTo_sound {s : State} {l : LaneIn} {target : DWord} (h : s.Sound) : (s.callTo l target).1.Sound := by
  unfold State.callTo
  grind [modThread_sound, goto_sound]

theorem execCall_sound {s t : State} {p : Option BrPred} {off : BitVec 19} (h : s.Sound)
    (e : execCall p off s = .next t) : t.Sound := by
  cases e
  refine runSeq_sound (fun u l hu => ?_) h
  grind [callTo_sound]

theorem execRet_sound {s t : State} (h : s.Sound) (e : execRet s = .next t) : t.Sound := by
  cases e
  refine runSeq_sound (fun u l hu => ?_) h
  grind [modThread_sound, goto_sound]

theorem execJr_sound {s t : State} {a : Fin 128} (h : s.Sound) (e : execJr a s = .next t) : t.Sound := by
  cases e
  refine runSeq_sound (fun u l hu => ?_) h
  grind [returnFromTrap_sound, goto_sound]

theorem execCalr_sound {s t : State} {a : Fin 128} (h : s.Sound) (e : execCalr a s = .next t) : t.Sound := by
  cases e
  refine runSeq_sound (fun u l hu => ?_) h
  grind [callTo_sound]

theorem execConverge_sound {s t : State} (h : s.Sound) (e : execConverge s = .next t) : t.Sound := by
  unfold execConverge at e
  grind [modThread_sound, releaseHeld_sound, gangGo_sound, foldl_sound]

theorem execConvergeStarveRelease_sound {s t : State} {who : Who} (h : s.Sound)
    (e : execConvergeStarveRelease who s = .next t) : t.Sound := by
  unfold execConvergeStarveRelease at e
  grind [modThread_sound, ready_sound]

theorem startFiling_sound {s : State} {w : Who} {next : DWord} (h : s.Sound) : (s.startFiling w next).Sound := by
  unfold State.startFiling
  grind [modThread_sound, setSys_sound]

theorem execReform_sound {s t : State} (h : s.Sound) (e : execReform s = .next t) : t.Sound := by
  unfold execReform at e
  grind [sweepSkein_sound, fileAll_sound, releaseHeld_sound, startFiling_sound, foldl_sound]

theorem createThread_sound {s : State} {t : TeamId} {v : Team} {tid : Nat} {entry : DWord} {args : List Word}
    (h : s.Sound) : (s.createThread t v tid entry args).Sound := by
  unfold State.createThread
  grind [startView_sound, modCore_sound, setThread_sound, modThread_sound, startFiling_sound]

theorem execSpawn_sound {s t : State} {d : Dst} {a b : Fin 128} (h : s.Sound) (e : execSpawn d a b s = .next t) :
    t.Sound := by
  cases e
  refine runSeq_sound (fun u l hu => ?_) h
  grind [fileAll_sound, createThread_sound]

theorem abandonGraphs_sound {s : State} {t : TeamId} (h : s.Sound) : (s.abandonGraphs t).Sound := by
  unfold State.abandonGraphs
  grind [dropCmd_sound, foldl_sound, sound_same]

theorem exitThread_sound {s : State} {w : Who} (h : s.Sound) : (s.exitThread w).Sound := by
  unfold State.exitThread
  grind [release_sound, dropThread_sound, modDie_sound, due_sound, removeThread_sound, exitBars_sound,
    flushGather_sound]

theorem execExit_sound {s t : State} (h : s.Sound) (e : execExit s = .next t) : t.Sound := by
  cases e
  refine runSeq_sound (fun u l hu => ?_) h
  grind [abandonGraphs_sound, exitThread_sound]

theorem execYield_sound {s t : State} (h : s.Sound) (e : execYield s = .next t) : t.Sound := by
  unfold execYield at e
  grind [modSkein_sound, runPure_sound, gangGo_sound]

theorem execSleep_sound {s t : State} {n : BitVec 8} (h : s.Sound) (e : execSleep n s = .next t) : t.Sound := by
  unfold execSleep at e
  grind [runPure_sound, gangGo_sound]

theorem execSleepEnd_sound {s t : State} {who : Who} (h : s.Sound) (e : execSleepEnd who s = .next t) : t.Sound := by
  unfold execSleepEnd at e
  grind [modThread_sound]

theorem execGwait_sound {s t : State} {d : Dst} {a : Fin 128} (h : s.Sound) (e : execGwait d a s = .next t) : t.Sound := by
  cases e
  refine runSeq_sound (fun u l hu => ?_) h
  grind [acquire_sound]

theorem execGwaitPoll_sound {s t : State} {d : Dst} {a : Fin 128} (h : s.Sound) (e : execGwaitPoll d a s = .next t) :
    t.Sound := by
  cases e
  refine runSeq_sound (fun u l hu => ?_) h
  grind [acquire_sound]

theorem execArrive_sound {s t : State} {d : Dst} {nb : Fin 16} (h : s.Sound) (e : execArrive d nb s = .next t) :
    t.Sound := by
  cases e
  refine runSeq_sound (fun u l hu => ?_) h
  have hr : ∀ (v : State) t n, v.Sound → ((v.arriveOne t n 0).getD v).Sound := fun v _ _ hv =>
    getD_sound hv fun _ ha => arriveOne_sound hv ha
  grind [modBar_sound, flushGather_sound, release_sound]

theorem execPhase_sound {s t : State} {sc : Scope} (h : s.Sound) (e : execPhase sc s = .next t) : t.Sound := by
  unfold execPhase at e
  grind [release_sound, due_sound, runSeq_sound, flushGather_sound]

theorem passAll_sound {s : State} {ws : List Who} {len : Nat} (h : s.Sound) : (s.passAll ws len).Sound := by
  unfold State.passAll
  grind [modThread_sound, foldl_sound]

theorem execPhaseComplete_sound {s t : State} {core ctx : Nat} {sc : Scope} {pc : DWord} (h : s.Sound)
    (e : execPhaseComplete core ctx sc pc s = .next t) : t.Sound := by
  unfold execPhaseComplete at e
  grind [acquire_sound, passAll_sound, foldl_sound]

theorem execImplicitRelease_sound {s t : State} {who : Who} {n : Nat} (h : s.Sound)
    (e : execImplicitRelease who n s = .next t) : t.Sound := by
  unfold execImplicitRelease at e
  grind [setMem_sound, performEarly_sound, foldl_sound]

end Sys2Proof.Machine
end

section
/-!
The control and status space, loads and stores, uniform and supervisor instructions keep the state sound.
-/
namespace Sys2Proof.Machine

/-! ### Launch queues (R371, R372, R489, R490) -/

theorem stopQueue_sound {s : State} {q code : Nat} {addr info0 info1 : DWord} (h : s.Sound) :
    (s.stopQueue q code addr info0 info1).Sound := by
  unfold State.stopQueue
  grind [modQueue_sound, record_sound]

theorem pollWaits_sound {s : State} (h : s.Sound) : s.pollWaits.Sound := due_sound h

theorem doorbell_sound {s : State} {q v : Nat} (h : s.Sound) : (s.doorbell q v).Sound := by
  unfold State.doorbell
  grind [modQueue_sound, stopQueue_sound, pollWaits_sound]

theorem enableQueue_sound {s : State} {q : Nat} (h : s.Sound) : (s.enableQueue q).Sound := modQueue_sound h

theorem dropHead_sound {s : State} {q : Nat} (h : s.Sound) : (s.dropHead q).Sound := by
  unfold State.dropHead
  grind [setFront_sound]

theorem disableEffect_sound {s : State} {q : Nat} (h : s.Sound) : (s.disableEffect q).Sound := by
  unfold State.disableEffect
  grind [modQueue_sound, dropHead_sound]

theorem disableQueue_sound {s : State} {q : Nat} (h : s.Sound) : (s.disableQueue q).Sound := by
  unfold State.disableQueue
  grind [modQueue_sound, disableEffect_sound]

theorem lqCtl_sound {s : State} {q v m : Nat} (h : s.Sound) : (s.lqCtl q v m).Sound := by
  unfold State.lqCtl
  grind [modQueue_sound, enableQueue_sound, disableQueue_sound]

/-! ### Error queues and the batch ring -/

theorem ackQueue_sound {s t : State} {n v : Nat} (h : s.Sound) (e : s.ackQueue n v = some t) : t.Sound := by
  rw [State.ackQueue] at e
  dsimp only at e
  split at e
  · exact Option.some.inj e ▸ setErrs_sound h
  · rw [Option.ite_none_right_eq_some] at e
    exact Option.some.inj e.2 ▸ h

theorem batchHead_sound {s : State} {v : Nat} (h : s.Sound) : (s.batchHead v).Sound := by
  unfold State.batchHead
  grind [setErrs_sound, due_sound]

theorem execBatchEntryDeferred_sound {s t : State} (h : s.Sound) (e : execBatchEntryDeferred s = .next t) : t.Sound := by
  unfold execBatchEntryDeferred at e
  grind [setErrs_sound, batchWrite_sound]

/-! ### Locks, domain, attestation, run control -/

theorem lockKseed_sound {s : State} (h : s.Sound) : s.lockKseed.Sound := by
  unfold State.lockKseed
  grind [setPlat_sound]

theorem domEnable_sound {s : State} (h : s.Sound) : s.domEnable.Sound := by
  unfold State.domEnable
  grind [setPlat_sound, setDom_sound]

theorem attest_sound {s : State} (h : s.Sound) : s.attest.Sound := by
  unfold State.attest
  grind [setPlat_sound, due_sound]

theorem execAttestationDone_sound {s t : State} (h : s.Sound) (e : execAttestationDone s = .next t) : t.Sound := by
  unfold execAttestationDone at e
  grind [write_sound, setPlat_sound]

theorem execAttestationStart_sound {s t : State} (h : s.Sound) (e : execAttestationStart s = .next t) : t.Sound := by
  unfold execAttestationStart at e
  grind [attest_sound]

theorem resumeCore_sound {s : State} {c : Nat} (h : s.Sound) : (s.resumeCore c).Sound := by
  unfold State.resumeCore
  grind [modCore_sound, modThread_sound, modTeam_sound, modGrid_sound, foldl_sound, sound_same]

/-! ### Resets (R385 to R389) -/

/-- A warm reset keeps HBM's cells and sets the power figures anew (R390). -/
theorem warmReset_sound {s : State} (h : s.Sound) : s.warmReset.Sound :=
  ⟨cellsWf_filter _ _ h.mem, by simp [State.warmReset, State.resetNumber], by simp [State.warmReset, State.resetNumber]⟩

/-! ### Writes -/

theorem mgWrite_sound {s : State} {o v m : Nat} (h : s.Sound) : (s.mgWrite o v m).Sound := by
  unfold State.mgWrite
  refine ite_sound (ite_sound (setPlat_sound h rfl rfl) h) ?_
  refine ite_sound (ite_sound (warmReset_sound h) h) ?_
  refine ite_sound ?priv (ite_sound ?dom (ite_sound ?limit ?_))
  case priv =>
    have hl := ite_sound (c := bitsOf (v &&& m) 1 1 = 1) (lockKseed_sound h) h
    exact ite_sound (setPlat_sound hl rfl rfl) hl
  case dom =>
    have hd := ite_sound (c := s.plat.domEn = true) h
      (setPlat_sound (p := { s.plat with domDev := bitsOf (merge (s.mgRead 0x20) v m) 8 0 }) h rfl rfl)
    exact ite_sound (domEnable_sound hd) (ite_sound (setDom_sound (setPlat_sound hd rfl rfl)) hd)
  case limit => exact ⟨h.mem, pwLim_range _, h.frac⟩
  refine ite_sound (setPlat_sound h rfl rfl) ?_
  refine ite_sound (ite_sound h (setErrs_sound h)) ?_
  refine ite_sound ?batch ?_
  case batch =>
    have hb := fun e ds => ite_sound (c := s.errs.bqTail ≠ s.errs.bqHead ∨ bitsOf m 35 32 = 0) h
      (due_sound (es := ds) (setErrs_sound (e := e) h))
    exact ite_sound (hb _ _) (batchHead_sound (hb _ _))
  refine ite_sound (ite_sound h (setPlat_sound h rfl rfl)) ?_
  refine ite_sound (ite_sound h (setPlat_sound h rfl rfl)) ?_
  refine ite_sound (ite_sound h (setPlat_sound h rfl rfl)) ?_
  refine ite_sound (ite_sound (attest_sound h) h) ?_
  exact ite_sound (foldl_sound (fun _ _ hu => ite_sound (resumeCore_sound hu) hu) h) h

theorem lqWrite_sound {s : State} {q o v m : Nat} (h : s.Sound) : (s.lqWrite q o v m).Sound := by
  unfold State.lqWrite
  grind [modQueue_sound, doorbell_sound, lqCtl_sound]

theorem eqWrite_sound {s : State} {n o v m : Nat} (h : s.Sound) : (s.eqWrite n o v m).Sound := by
  unfold State.eqWrite
  refine ite_sound (ite_sound h (setErrs_sound h)) (ite_sound (setErrs_sound h) (ite_sound (ite_sound h ?_) h))
  exact getD_sound h fun _ e => ackQueue_sound h e

theorem vectorWrite_sound {s : State} {b : List Byte} {q : List Nat} {vec : Nat} {c : Prop} [Decidable c] (h : s.Sound) :
    (let u := s.setPlat { s.plat with msix := b }
     if c then (u.setPlat { u.plat with msixPend := q }).interrupt vec else u).Sound :=
  have hb : (s.setPlat { s.plat with msix := b }).Sound := setPlat_sound h rfl rfl
  ite_sound (interrupt_sound (setPlat_sound hb rfl rfl)) hb

theorem ctlWrite8_sound {s : State} {host : Bool} {o v m : Nat} (h : s.Sound) : (s.ctlWrite8 host o v m).Sound := by
  unfold State.ctlWrite8
  refine ite_sound (mgWrite_sound h) (ite_sound ?memory (ite_sound ?vectors ?_))
  case memory =>
    have hw : ∀ l bs, (s.setMem (s.mem.write 0 l bs)).Sound := fun l bs =>
      ⟨(write_spec _ 0 l bs h.mem).1, h.limit, h.frac⟩
    exact ite_sound (latchEvent_sound (hw _ _)) (ite_sound (interrupt_sound (hw _ _)) (hw _ _))
  case vectors => exact ite_sound (vectorWrite_sound h) h
  exact ite_sound (lqWrite_sound h) (ite_sound (eqWrite_sound h) h)

theorem ctlWrite_sound {s : State} {host : Bool} {o : Nat} {bs : List Byte} (h : s.Sound) :
    (s.ctlWrite host o bs).Sound := ctlWrite8_sound h

/-! ### Loads, stores, gathers, scatters, prefetch and atomics -/

theorem loadTarget_sound {s : State} {w : Who} {tg : Target} {n : Nat} (h : s.Sound) : (s.loadTarget w tg n).1.Sound := by
  unfold State.loadTarget
  grind [loadAt_sound]

theorem storeTarget_sound {s : State} {w : Who} {tg : Target} {bs : List Byte} (h : s.Sound) :
    (s.storeTarget w tg bs).Sound := by
  unfold State.storeTarget
  grind [storeAt_sound, ctlWrite_sound]

theorem accessLane_sound {s : State} {l : LaneIn} {a : Access} {go : State → Target → State × LaneOut}
    (hgo : ∀ u tg, u.Sound → (go u tg).1.Sound) (h : s.Sound) : (s.accessLane l a go).1.Sound := by
  unfold State.accessLane
  grind [reach_sound, modThread_sound]

theorem execLd_sound {s u : State} {t : Ty} {d : Dst} {m : MemAddr} (h : s.Sound) (e : execLd t d m s = .next u) :
    u.Sound := by
  unfold execLd at e
  grind [runSeq_sound, awaitGrants_sound, flushGang_sound, loadTarget_sound, accessLane_sound]

theorem storeChecks_sound {s : State} {t : Ty} {m : MemAddr} {xs : List LaneIn} (h : s.Sound) :
    (s.storeChecks t m xs).1.Sound := by
  induction xs generalizing s with
  | nil => grind [State.storeChecks]
  | cons x xs ih =>
    unfold State.storeChecks
    grind [reach_sound, sound_same]

theorem storeJoint_sound {s : State} {ps : List (Who × Target × List Byte)} (h : s.Sound) : (s.storeJoint ps).Sound := by
  unfold State.storeJoint
  grind [write_sound, performStores_sound, dropCopies_sound, foldl_sound]

theorem storeAll_sound {s : State} {ps : List (Who × Target × List Byte)} (h : s.Sound) : (s.storeAll ps).Sound := by
  unfold State.storeAll
  grind [modThread_sound, storeTarget_sound, storeJoint_sound, foldl_sound]

theorem execSt_sound {s u : State} {t : Ty} {v : Src} {m : MemAddr} (h : s.Sound) (e : execSt t v m s = .next u) :
    u.Sound := by
  unfold execSt at e
  grind [runLanes_sound, awaitGrants_sound, flushGang_sound, storeChecks_sound, storeAll_sound]

/-! ### Gathers (R196) -/

theorem gatherLane_sound {s : State} {l : LaneIn} {t : Ty} {m : MemAddr} {st : Option DWord}
    {dst : Option (Dst × Bool)} (h : s.Sound) : (s.gatherLane l t m st dst).1.Sound := by
  unfold State.gatherLane
  grind [modCore_sound, modThread_sound, checkIssue_sound, loadAt_sound, storeAt_sound, flushGather_sound]

theorem execGld_sound {s u : State} {t : Ty} {d : Dst} {m : MemAddr} (h : s.Sound) (e : execGld t d m s = .next u) :
    u.Sound := by
  unfold execGld at e
  grind [runSeq_sound, gangGo_sound, awaitGrants_sound, gatherSettle_sound, flushGang_sound, gatherLane_sound]

theorem execGst_sound {s u : State} {t : Ty} {v : Src} {m : MemAddr} (h : s.Sound) (e : execGst t v m s = .next u) :
    u.Sound := by
  unfold execGst at e
  grind [runSeq_sound, gangGo_sound, awaitGrants_sound, gatherLane_sound]

/-! ### Prefetch (R197) -/

theorem prefetchLine_sound {s : State} {core : Nat} {tg : Target} (h : s.Sound) : (s.prefetchLine core tg).Sound := by
  unfold State.prefetchLine
  grind [fillLine_sound]

theorem prefetch_sound {s : State} {w : Who} {va : DWord} (h : s.Sound) : (s.prefetch w va).Sound := by
  unfold State.prefetch
  grind [setMem_sound, prefetchLine_sound]

theorem execPfch_sound {s u : State} {t : Ty} {m : MemAddr} (h : s.Sound) (e : execPfch t m s = .next u) : u.Sound := by
  unfold execPfch at e
  grind [runSeq_sound, gangGo_sound, prefetch_sound]

theorem execTableWalk_sound {s t : State} {u : TlbUnit} {asid root : Nat} {va : DWord} (h : s.Sound)
    (e : execTableWalk u asid root va s = .next t) : t.Sound := by
  unfold execTableWalk at e
  grind [setMem_sound, tlbLookup_sound, prefetchLine_sound]

theorem execAccessAtHome_sound {s t : State} (h : s.Sound) (e : execAccessAtHome s = .next t) : t.Sound := by
  unfold execAccessAtHome at e
  grind [performStores_sound, drainOne_sound]

/-! ### Atomics (R198 to R200) -/

theorem performBlockStores_sound {s : State} {ps : List PendStore} (h : s.Sound) : (s.performBlockStores ps).Sound := by
  unfold State.performBlockStores
  grind [write_sound, foldl_sound]

theorem performWalk_sound {s : State} {stack entry : Nat} (h : s.Sound) : (s.performWalk stack entry).Sound := by
  unfold State.performWalk
  grind [modBlock_sound, performBlockStores_sound]

theorem performWalkAt_sound {s : State} {w : Who} {loc : Nat} (h : s.Sound) : (s.performWalkAt w loc).Sound := by
  unfold State.performWalkAt
  grind [modBlock_sound, performBlockStores_sound]

theorem atomicsBegin_sound {s : State} {o : AtomOrder} (h : s.Sound) : (s.atomicsBegin o).Sound := by
  unfold State.atomicsBegin
  grind [performStores_sound, flushGang_sound]

theorem beforeAtomic_sound {s : State} {w : Who} {loc : Nat} (h : s.Sound) : (s.beforeAtomic w loc).Sound := by
  unfold State.beforeAtomic
  grind [drainOf_sound, performWalkAt_sound]

theorem afterAtomic_sound {s : State} {w : Who} {sc : Scope} {o : AtomOrder} (h : s.Sound) :
    (s.afterAtomic w sc o).Sound := by
  unfold State.afterAtomic
  grind [acquire_sound]

theorem atomicAt_sound {s : State} {w : Who} {sc : Scope} {o : AtomOrder} {tg : Target} {n : Nat}
    {f : Nat → Option Nat × Flags} (h : s.Sound) : (s.atomicAt w sc o tg n f).1.Sound := by
  unfold State.atomicAt
  grind [write_sound, readHome_sound, dropCopies_sound, freeBytes_sound, holdLine_sound, beforeAtomic_sound,
    afterAtomic_sound]

theorem atom_sound {s : State} {op : AtomOp} {t : Ty} {sc : Scope} {o : AtomOrder} {d : Fin 128} {m : MemAddr}
    (h : s.Sound) : (s.atom op t sc o d m).Sound := by
  unfold State.atom
  grind [runSeq_sound, awaitGrants_sound, accessLane_sound, atomicsBegin_sound, atomicAt_sound]

theorem execCas_sound {s u : State} {t : Ty} {sc : Scope} {o : AtomOrder} {d a b c : Fin 128} (h : s.Sound)
    (e : execCas t sc o d a b c s = .next u) : u.Sound := by
  unfold execCas at e
  grind [runSeq_sound, awaitGrants_sound, accessLane_sound, atomicsBegin_sound, atomicAt_sound]

/-! ### Scalar arithmetic (R290) -/

theorem scalar2_sound {s : State} {d : UDst} {a b : USrc} {f : DWord → DWord → DWord} (h : s.Sound) :
    (s.scalar2 d a b f).Sound := by
  unfold State.scalar2
  grind [runU_sound]

theorem execSmov_sound {s t : State} {d : UDst} {a : USrc} (h : s.Sound) (e : execSmov d a s = .next t) : t.Sound := by
  cases e
  refine runU_sound (fun u vs hu => ?_) h
  grind

theorem execSmovi_sound {s t : State} {d : UDst} {i : BitVec 16} (h : s.Sound) (e : execSmovi d i s = .next t) :
    t.Sound := by
  cases e
  refine runU_sound (fun u vs hu => ?_) h
  grind

theorem execSmovh_sound {s t : State} {d : Fin 64} {i : BitVec 16} (h : s.Sound) (e : execSmovh d i s = .next t) :
    t.Sound := by
  cases e
  refine runU_sound (fun u vs hu => ?_) h
  grind

theorem execSbr_sound {s t : State} {c : SCond} {k : Fin 64} {off : BitVec 15} (h : s.Sound)
    (e : execSbr c k off s = .next t) : t.Sound := by
  cases e
  refine runU_sound (fun u vs hu => ?_) h
  grind

/-! ### Special registers (R145, R146, R292 to R294) -/

theorem writeSr_sound {s : State} {w : Who} {rank n : Nat} {v : DWord} (h : s.Sound) : (s.writeSr w rank n v).Sound := by
  unfold State.writeSr
  grind [modCore_sound, modThread_sound, modTeam_sound, writeFmode_sound]

theorem execWrs_sound {s t : State} {sr : BitVec 8} {a : Src} (h : s.Sound) (e : execWrs sr a s = .next t) : t.Sound := by
  unfold execWrs at e
  grind [runPure_sound, runSeq_sound, writeSr_sound]

theorem execRdsr_sound {s t : State} {d : UDst} {sr : BitVec 8} (h : s.Sound) (e : execRdsr d sr s = .next t) :
    t.Sound := by
  unfold execRdsr at e
  grind [gangRaise_sound, runU_sound]

theorem execWrsr_sound {s t : State} {sr : BitVec 8} {a : USrc} (h : s.Sound) (e : execWrsr sr a s = .next t) :
    t.Sound := by
  unfold execWrsr at e
  grind [gangGo_sound, gangRaise_sound, runU_sound, writeSr_sound]

/-! ### Memory read by a U-form instruction -/

theorem uReadGo_sound {s : State} {w : Who} {va : DWord} {n k : Nat} (h : s.Sound) : (s.uReadGo w va n k).1.Sound := by
  induction k generalizing s va n with
  | zero => grind [State.uReadGo]
  | succ k ih =>
    unfold State.uReadGo
    grind [reach_sound, loadAt_sound]

theorem uRead_sound {s : State} {va : DWord} {n align : Nat} (h : s.Sound) : (s.uRead va n align).1.Sound := by
  unfold State.uRead
  grind [uReadGo_sound]

theorem uPage_sound {s : State} {va : Nat} {d : Option Nat} (h : s.Sound) : (s.uPage va d).1.Sound := by
  unfold State.uPage
  grind [startRun_sound, sound_same]

/-! ### Supervisor instructions (R296 to R305) -/

theorem runSup_sound {s : State} {srcs : List (Fin 64)} {dst : Option (Fin 64)}
    {act : State → List DWord → State × UOut} (ha : ∀ u vs r, u.Sound → act u vs = r → r.1.Sound) (h : s.Sound) :
    (s.runSup srcs dst act).Sound := by
  unfold State.runSup
  grind [forgetK_sound, gangGo_sound, gangRaise_sound, runU_sound]

theorem flushGathers_sound {s : State} (h : s.Sound) : s.flushGathers.Sound := by
  unfold State.flushGathers
  grind [gatherGroup_sound, foldl_sound]

theorem settleWrites_sound {s : State} (h : s.Sound) : s.settleWrites.Sound := sound_same h

theorem performAll_sound {s : State} (h : s.Sound) : s.performAll.Sound := by
  unfold State.performAll
  grind [performStores_sound, flushGathers_sound, settleWrites_sound]

theorem execTsync_sound {s t : State} (h : s.Sound) (e : execTsync s = .next t) : t.Sound := by
  cases e
  refine runSup_sound (fun u vs r hu hr => ?_) h
  grind [drainOf_sound, due_sound, flushGather_sound, foldl_sound]

theorem execTsyncComplete_sound {s t : State} {core ctx : Nat} {pc : DWord} (h : s.Sound)
    (e : execTsyncComplete core ctx pc s = .next t) : t.Sound := by
  unfold execTsyncComplete at e
  grind [setMem_sound, passAll_sound]

theorem dropTranslations_sound {s : State} {p : TlbEntry → Bool} {q : Nat → Bool} (h : s.Sound) :
    (s.dropTranslations p q).Sound := by
  unfold State.dropTranslations
  grind [setMem_sound]

theorem tlbinv_sound {s : State} {p : TlbEntry → Bool} {q : Nat → Bool} (h : s.Sound) : (s.tlbinv p q).1.Sound := by
  unfold State.tlbinv
  grind [due_sound, dropTranslations_sound]

theorem execTlbinvAll_sound {s t : State} (h : s.Sound) (e : execTlbinvAll s = .next t) : t.Sound := by
  cases e
  refine runSup_sound (fun u vs r hu hr => ?_) h
  grind [tlbinv_sound]

theorem execTlbinvAsid_sound {s t : State} {a : Fin 64} (h : s.Sound) (e : execTlbinvAsid a s = .next t) : t.Sound := by
  cases e
  refine runSup_sound (fun u vs r hu hr => ?_) h
  grind [tlbinv_sound]

theorem execTlbinvVa_sound {s t : State} {a b : Fin 64} (h : s.Sound) (e : execTlbinvVa a b s = .next t) : t.Sound := by
  cases e
  refine runSup_sound (fun u vs r hu hr => ?_) h
  grind [tlbinv_sound]

theorem execTlbinvComplete_sound {s t : State} {core ctx : Nat} {pc : DWord} (h : s.Sound)
    (e : execTlbinvComplete core ctx pc s = .next t) : t.Sound := by
  unfold execTlbinvComplete at e
  grind [passAll_sound, performAll_sound]

theorem restartStretches_sound {s : State} (h : s.Sound) : s.restartStretches.Sound := by
  unfold State.restartStretches
  grind [modTeam_sound, modGrid_sound, foldl_sound, sound_same]

theorem replayNow_sound {s : State} (h : s.Sound) : s.replayNow.Sound := by
  unfold State.replayNow
  grind [modGrid_sound, due_sound, wakeCore_sound, restartStretches_sound, foldl_sound, sound_same]

theorem execReplay_sound {s t : State} (h : s.Sound) (e : execReplay s = .next t) : t.Sound := by
  cases e
  refine runSup_sound (fun u vs r hu hr => ?_) h
  grind [replayNow_sound]

theorem execIdle_sound {s t : State} {d a : Fin 64} (h : s.Sound) (e : execIdle d a s = .next t) : t.Sound := by
  cases e
  refine runSup_sound (fun u vs r hu hr => ?_) h
  grind [modTeam_sound, gangGo_sound]

theorem execIdleTimer_sound {s t : State} {core slot : Nat} (h : s.Sound) (e : execIdleTimer core slot s = .next t) :
    t.Sound := by
  unfold execIdleTimer at e
  grind [modTeam_sound]

theorem execHalt_sound {s t : State} (h : s.Sound) (e : execHalt s = .next t) : t.Sound := by
  cases e
  refine runSup_sound (fun u vs r hu hr => ?_) h
  grind [modCore_sound, rollbackRun_sound, foldl_sound]

theorem execErrack_sound {s t : State} {a b : Fin 64} (h : s.Sound) (e : execErrack a b s = .next t) : t.Sound := by
  cases e
  refine runSup_sound (fun u vs r hu hr => ?_) h
  grind [ackQueue_sound]

theorem execDirReclaim_sound {s t : State} {a b : Fin 64} (h : s.Sound) (e : execDirReclaim a b s = .next t) : t.Sound := by
  cases e
  refine runSup_sound (fun u vs r hu hr => ?_) h
  grind [write_sound, checkIssue_sound, setDir_sound, dirRun_sound, uRead_sound, uPage_sound]

theorem setKey_sound {s : State} {slot : Nat} {k : Option (BitVec 256)} (h : s.Sound) : (s.setKey slot k).Sound := by
  unfold State.setKey
  grind [setMem_sound, performAll_sound]

theorem keysel_sound {s : State} {a b : Fin 64} (h : s.Sound) : (s.keysel a b).Sound := by
  refine runSup_sound (fun u vs r hu hr => ?_) h
  grind [setKey_sound, uPage_sound, uRead_sound]

end Sys2Proof.Machine
end

section
/-!
Engine commands, the coordinate engine and the stream fabrics keep the state sound.
-/
namespace Sys2Proof.Machine

/-! ### Queues (R239) -/

theorem issueRelease_sound {s : State} (h : s.Sound) : s.issueRelease.Sound := by
  unfold State.issueRelease
  grind [performStores_sound, release_sound, flushGather_sound, foldl_sound]

theorem enqueue_sound {s : State} {c : Cmd} (h : s.Sound) : (s.enqueue c).Sound := by
  unfold State.enqueue
  grind [setSys_sound, sound_same]

theorem issueCmd_sound {s : State} {e : Engine} {p : Prep} (h : s.Sound) : (s.issueCmd e p).1.Sound := by
  unfold State.issueCmd
  grind [uPage_sound, issueRelease_sound, enqueue_sound]

/-! ### The head of a queue (R242, R245) -/

theorem leaveHead_sound {s : State} {c : Cmd} {dsts rels : List BufRef} (h : s.Sound) :
    (s.leaveHead c dsts rels).Sound := by
  unfold State.leaveHead
  grind [modCmd_sound, bufSetState_sound, foldl_sound]

theorem arriveBufsOf_sound {s : State} {c : Cmd} (h : s.Sound) : (s.arriveBufsOf c).Sound := by
  unfold State.arriveBufsOf
  grind [modCmd_sound, bufSetState_sound, foldl_sound]

theorem arriveBufs_sound {s : State} (h : s.Sound) : s.arriveBufs.Sound := by
  unfold State.arriveBufs
  grind [arriveBufsOf_sound, foldl_sound]

/-! ### An engine's own accesses (R87, R88, R424, R450) -/

theorem engLine_sound {s : State} {c : Cmd} {kind : AccKind} {va : DWord} {n : Nat} (h : s.Sound) :
    (s.engLine c kind va n).1.Sound := by
  unfold State.engLine
  grind [checkIssue_sound]

theorem engFetch_sound {s : State} {c : Cmd} {t : Target} {n : Nat} (h : s.Sound) : (s.engFetch c t n).1.Sound := by
  unfold State.engFetch
  grind [arrived_sound, viewBytes_sound, freeBytes_sound]

theorem engStore_sound {s : State} {c : Cmd} {t : Target} {bs : List Byte} {poison : Bool} (h : s.Sound) :
    (s.engStore c t bs poison).Sound := by
  unfold State.engStore
  grind [modCmd_sound]

theorem engPerform_sound {s : State} {core : Nat} {x : EngWrite} (h : s.Sound) : (s.engPerform core x).Sound := by
  unfold State.engPerform
  grind [write_sound, poisonLine_sound]

theorem releaseWrites_sound {s : State} {c : Cmd} (h : s.Sound) : (s.releaseWrites c).1.Sound := by
  unfold State.releaseWrites
  grind [modCmd_sound, engPerform_sound, foldl_sound]

theorem engReadGo_sound {s : State} {c : Cmd} {va : DWord} {n k : Nat} (h : s.Sound) :
    (s.engReadGo c va n k).1.Sound := by
  induction k generalizing s va n with
  | zero => exact h
  | succ k ih =>
    unfold State.engReadGo
    dsimp only
    repeat' split
    all_goals grind [engLine_sound, engFetch_sound]

theorem engRead_sound {s : State} {c : Cmd} {va : DWord} {n : Nat} (h : s.Sound) : (s.engRead c va n).1.Sound :=
  engReadGo_sound h

theorem engWriteGo_sound {s : State} {c : Cmd} {va : DWord} {bs : List Byte} {bad : Nat → Nat → Bool} {done n : Nat}
    (h : s.Sound) : (s.engWriteGo c va bs bad done n).1.Sound := by
  induction n generalizing s done with
  | zero => grind [State.engWriteGo]
  | succ n ih =>
    unfold State.engWriteGo
    grind [engLine_sound, engStore_sound]

theorem engWrite_sound {s : State} {c : Cmd} {va : DWord} {bs : List Byte} {bad : Nat → Nat → Bool} {done : Nat}
    (h : s.Sound) : (s.engWrite c va bs bad done).1.Sound := engWriteGo_sound h

theorem poisonRange_sound {s : State} {c : Cmd} {r : Rng} {done : Nat} (h : s.Sound) : (s.poisonRange c r done).Sound := by
  unfold State.poisonRange
  grind [foldl_sound, poisonLine_sound]

/-! ### Settlement (R243, R467) -/

theorem setCount_sound {s : State} {gid : Nat} {g : Graph} {i n : Nat} (h : s.Sound) : (s.setCount gid g i n).Sound :=
  ite_sound (sound_same h) ⟨(write_spec _ _ _ _ h.mem).1, h.limit, h.frac⟩

theorem nodeFinished_sound {s : State} {gid i : Nat} (h : s.Sound) : (s.nodeFinished gid i).Sound := by
  unfold State.nodeFinished
  grind [setCount_sound, foldl_sound, sound_same]

theorem retireCmd_sound {s : State} {c : Cmd} (h : s.Sound) : (s.retireCmd c).Sound := by
  unfold State.retireCmd
  grind [dropCmd_sound, nodeFinished_sound, sound_same]

theorem roundBoundary_sound {s : State} {c : Cmd} (h : s.Sound) : (s.roundBoundary c).Sound := by
  unfold State.roundBoundary
  grind [performStores_sound, acquireRanges_sound, foldl_sound]

theorem settle_sound {s : State} {c : Cmd} {bytes : Nat} (h : s.Sound) : (s.settle c bytes).Sound := by
  unfold State.settle
  grind [bufSetState_sound, engineArrive_sound, releaseWrites_sound, retireCmd_sound, roundBoundary_sound, foldl_sound]

theorem endRecord_sound {s : State} {c : Cmd} {code : Nat} {addr : DWord} {phys : Bool} {kind index i0 i1 : Nat}
    (h : s.Sound) : (s.endRecord c code addr phys kind index i0 i1).Sound := record_sound h

theorem holdBatch_sound {s : State} {c : Cmd} {va code : Nat} (h : s.Sound) : (s.holdBatch c va code).Sound := by
  unfold State.holdBatch
  grind [batch_sound]

/-! ### Guard slots and declared buffers (R244 to R247) -/

theorem execGuardSet_sound {s t : State} {g : Fin 8} {a : Fin 64} (h : s.Sound) (e : execGuardSet g a s = .next t) :
    t.Sound := by
  cases e
  refine runU_sound (fun u vs hu => ?_) h
  grind [modTeam_sound]

theorem declareBuffer_sound {s u : State} {t : TeamId} {v : DWord} (h : s.Sound) (e : s.declareBuffer t v = .ok u) :
    u.Sound := by
  unfold State.declareBuffer at e
  grind [performStores_sound, modTeam_sound]

theorem execBufDecl_sound {s t : State} {a : Fin 64} (h : s.Sound) (e : execBufDecl a s = .next t) : t.Sound := by
  cases e
  refine runU_sound (fun u vs hu => ?_) h
  grind [declareBuffer_sound]

theorem execBufSet_sound {s t : State} {n : Fin 64} {x : BufSetTo} (h : s.Sound) (e : execBufSet n x s = .next t) :
    t.Sound := by
  cases e
  refine runU_sound (fun u vs hu => ?_) h
  grind [release_sound, acquire_sound, modTeam_sound, flushGather_sound, foldl_sound]

/-! ### The copy engine (R262 to R264) -/

theorem execXfer_sound {s t : State} {d a b : Fin 64} (h : s.Sound) (e : execXfer d a b s = .next t) : t.Sound := by
  cases e
  refine runU_sound (fun u vs hu => ?_) h
  grind [issueCmd_sound]

theorem execXferMc_sound {s t : State} {d a b : Fin 64} (h : s.Sound) (e : execXferMc d a b s = .next t) : t.Sound := by
  cases e
  refine runU_sound (fun u vs hu => ?_) h
  grind [issueCmd_sound]

theorem execXferTr_sound {s u : State} {t : Ty} {cf : BitVec 16} {d a b : Fin 64} (h : s.Sound)
    (e : execXferTr t cf d a b s = .next u) : u.Sound := by
  cases e
  refine runU_sound (fun u vs hu => ?_) h
  grind [issueCmd_sound]

theorem setDone_sound {s : State} {c : Cmd} {n : Nat} (h : s.Sound) : (s.setDone c n).Sound := modCmd_sound h

theorem copyGo_sound {s : State} {c : Cmd} {dst src : DWord} {n done k : Nat} (h : s.Sound) :
    (s.copyGo c dst src n done k).1.Sound := by
  induction k generalizing s done with
  | zero => grind [State.copyGo]
  | succ k ih =>
    unfold State.copyGo
    grind [engLine_sound, engStore_sound, engRead_sound]

theorem copyMcGo_sound {s : State} {c : Cmd} {places : List Nat} {off : Nat} {src : DWord} {n done k : Nat}
    (h : s.Sound) : (s.copyMcGo c places off src n done k).1.Sound := by
  induction k generalizing s done with
  | zero => grind [State.copyMcGo]
  | succ k ih =>
    unfold State.copyMcGo
    grind [engStore_sound, engRead_sound, foldl_sound]

theorem columnGo_sound {s : State} {c : Cmd} {a : DWord} {size sstr n : Nat} (h : s.Sound) :
    (s.columnGo c a size sstr n).1.Sound := by
  induction n with
  | zero => exact h
  | succ n ih =>
    unfold State.columnGo
    repeat' split
    all_goals grind [engRead_sound]

theorem transGo_sound {s : State} {c : Cmd} {dst src : DWord} {t : Ty} {rows dstr sstr cols j n : Nat} (h : s.Sound) :
    (s.transGo c dst src t rows dstr sstr cols j n).1.Sound := by
  induction n generalizing s j with
  | zero => grind [State.transGo]
  | succ n ih =>
    unfold State.transGo
    grind [engWrite_sound, columnGo_sound]

theorem runCopy_sound {s : State} {c : Cmd} (h : s.Sound) : (s.runCopy c).1.Sound := by
  unfold State.runCopy
  grind [setDone_sound, copyGo_sound, copyMcGo_sound, transGo_sound]

theorem poisonCopy_sound {s : State} {c : Cmd} (h : s.Sound) : (s.poisonCopy c).Sound := by
  unfold State.poisonCopy
  grind [poisonRange_sound, foldl_sound]

/-! ### Records (R268, R269) -/

theorem readOpen_sound {s : State} {va : DWord} (h : s.Sound) : (s.readOpen va).1.Sound := by
  unfold State.readOpen
  grind [uRead_sound]

theorem setCarder_sound {s : State} {core : Nat} {k : Option Carder} (h : s.Sound) : (s.setCarder core k).Sound :=
  modCore_sound h

theorem openCarder_sound {s : State} {t : TeamId} {k : Carder} (h : s.Sound) : (s.openCarder t k).1.Sound := by
  unfold State.openCarder
  grind [arrived_sound, performStores_sound, setCarder_sound]

theorem cardOpen_sound {s : State} {merge : Bool} {a : Fin 64} (h : s.Sound) : (s.cardOpen merge a).Sound := by
  unfold State.cardOpen
  grind [runU_sound, uPage_sound, readOpen_sound, openCarder_sound]

/-! ### Decoding (R268, R475) -/

theorem carderNum_sound {s : State} {c : Cmd} {va : DWord} {n : Nat} (h : s.Sound) : (s.carderNum c va n).1.Sound := by
  unfold State.carderNum
  grind [engRead_sound]

theorem nextBit_sound {s : State} {c : Cmd} {st : CStream} {k n : Nat} (h : s.Sound) : (s.nextBit c st k n).1.Sound := by
  induction n generalizing s k with
  | zero => grind [State.nextBit]
  | succ n ih =>
    unfold State.nextBit
    grind [carderNum_sound]

theorem ordBit_sound {s : State} {c : Cmd} {st : CStream} {k n : Nat} (h : s.Sound) : (s.ordBit c st k n).1.Sound := by
  induction n generalizing s k with
  | zero => exact nextBit_sound h
  | succ n ih =>
    unfold State.ordBit
    split <;> grind [nextBit_sound]

theorem runGo_sound {s : State} {c : Cmd} {st : CStream} {ord pair before lastEnd n : Nat} (h : s.Sound) :
    (s.runGo c st ord pair before lastEnd n).1.Sound := by
  induction n generalizing s pair before lastEnd with
  | zero => grind [State.runGo]
  | succ n ih =>
    unfold State.runGo
    grind [carderNum_sound]

theorem csrGo_sound {s : State} {c : Cmd} {st : CStream} {k n : Nat} (h : s.Sound) : (s.csrGo c st k n).1.Sound := by
  induction n generalizing s k with
  | zero => grind [State.csrGo]
  | succ n ih =>
    unfold State.csrGo
    grind [carderNum_sound]

theorem entryAt_sound {s : State} {core : Nat} {k : Carder} {i ord : Nat} (h : s.Sound) :
    (s.entryAt core k i ord).1.Sound := by
  unfold State.entryAt
  grind [carderNum_sound, ordBit_sound, runGo_sound, csrGo_sound]

/-! ### Dealing (R270, R271) -/

theorem intersect_sound {s : State} {core : Nat} {k : Carder} {n : Nat} (h : s.Sound) :
    (s.intersect core k n).1.Sound := by
  induction n generalizing s k with
  | zero => exact h
  | succ n ih =>
    unfold State.intersect
    split
    all_goals grind [entryAt_sound]

theorem fibreEntries_sound {s : State} {core : Nat} {k : Carder} {xs : List (Nat × Nat)} (h : s.Sound) :
    (s.fibreEntries core k xs).1.Sound := by
  induction xs generalizing s with
  | nil => grind [State.fibreEntries]
  | cons x xs ih =>
    unfold State.fibreEntries
    grind [entryAt_sound]

theorem fibreValue_sound {s : State} {c : Cmd} {st : CStream} {pos : Nat} {val : Word} (h : s.Sound) :
    (s.fibreValue c st pos val).1.Sound := by
  unfold State.fibreValue
  grind [carderNum_sound]

theorem fibreValues_sound {s : State} {c : Cmd} {k : Carder} {xs : List (Nat × Nat × Word)} (h : s.Sound) :
    (s.fibreValues c k xs).1.Sound := by
  induction xs generalizing s with
  | nil => grind [State.fibreValues]
  | cons x xs ih =>
    unfold State.fibreValues
    grind [fibreValue_sound]

theorem mergeNext_sound {s : State} {core : Nat} {k : Carder} (h : s.Sound) : (s.mergeNext core k).1.Sound := by
  unfold State.mergeNext
  grind [fibreEntries_sound, fibreValues_sound]

theorem wakePort_sound {s : State} {t : TeamId} (h : s.Sound) : (s.wakePort t).Sound := by
  unfold State.wakePort
  grind [wakeChan_sound, wakeCarder_sound, foldl_sound]

theorem wakeFed_sound {s : State} {t : TeamId} {old new : Carder} (h : s.Sound) : (s.wakeFed t old new).Sound := by
  unfold State.wakeFed
  grind [wakePort_sound]

theorem execCarderDeal_sound {s t : State} {core : Nat} (h : s.Sound) (e : execCarderDeal core s = .next t) : t.Sound := by
  unfold execCarderDeal at e
  grind [record_sound, batch_sound, setCarder_sound, intersect_sound, mergeNext_sound, wakePort_sound, wakeFed_sound]

/-! ### The port and feeding (R272, R273) -/

theorem takePort_sound {s : State} {t : TeamId} (h : s.Sound) : (s.takePort t).1.Sound := by
  unfold State.takePort
  grind [setCarder_sound]

theorem execCardNext_sound {s t : State} {d : Dst} {p : Fin 8} (h : s.Sound) (e : execCardNext d p s = .next t) :
    t.Sound := by
  cases e
  refine runLanes_sound (fun u ls hu => ?_) h
  grind [foldLanes_sound, takePort_sound]

theorem execCardFeed_sound {s t : State} {n : Fin 64} {a b : Src} (h : s.Sound) (e : execCardFeed n a b s = .next t) :
    t.Sound := by
  unfold execCardFeed at e
  grind [releaseHeld_sound, blockLane_sound, runSeq_sound, setCarder_sound, foldl_sound]

theorem execCardSplit_sound {s t : State} {a : Fin 64} (h : s.Sound) (e : execCardSplit a s = .next t) : t.Sound := by
  cases e
  refine runU_sound (fun u vs hu => ?_) h
  grind [setCarder_sound]

theorem execCardClose_sound {s t : State} (h : s.Sound) (e : execCardClose s = .next t) : t.Sound := by
  cases e
  refine runU_sound (fun u vs hu => ?_) h
  grind [setCarder_sound, wakePort_sound]

/-! ### The cursor (R274, R477) -/

theorem keepFed_sound {s : State} {core : Nat} {k : Carder} (h : s.Sound) : (s.keepFed core k).Sound := by
  unfold State.keepFed
  grind [modCore_sound]

theorem cursorPlace_sound {s : State} {t : TeamId} {va : DWord} {kind : AccKind} (h : s.Sound) :
    (s.cursorPlace t va kind).1.Sound := by
  unfold State.cursorPlace
  grind [checkIssue_sound]

theorem execCardSave_sound {s t : State} {a : Fin 64} (h : s.Sound) (e : execCardSave a s = .next t) : t.Sound := by
  cases e
  refine runU_sound (fun u vs hu => ?_) h
  grind [write_sound, drainOf_sound, flushGather_sound, uPage_sound, setCarder_sound, keepFed_sound, cursorPlace_sound,
    foldl_sound]

theorem restoreCarder_sound {s : State} {rd : State → DWord → Nat → State × URead} {t : TeamId} {bs : List Byte}
    (hrd : ∀ u va n, u.Sound → (rd u va n).1.Sound) (h : s.Sound) : (s.restoreCarder rd t bs).1.Sound := by
  unfold State.restoreCarder
  grind

theorem execCardRestore_sound {s t : State} {a : Fin 64} (h : s.Sound) (e : execCardRestore a s = .next t) : t.Sound := by
  cases e
  refine runU_sound (fun u vs hu => ?_) h
  grind [uRead_sound, uPage_sound, openCarder_sound, restoreCarder_sound]

/-! ### The descriptor (R332 to R335) -/

theorem readTables_sound {s : State} {xs : List SgNode} (h : s.Sound) : (s.readTables xs).1.Sound := by
  induction xs generalizing s with
  | nil => grind [State.readTables]
  | cons x xs ih =>
    unfold State.readTables
    grind [uRead_sound]

theorem execSfLoad_sound {s t : State} {fab d a : Fin 64} (h : s.Sound) (e : execSfLoad fab d a s = .next t) :
    t.Sound := by
  cases e
  refine runU_sound (fun u vs hu => ?_) h
  dsimp only
  repeat' split
  all_goals grind [uRead_sound, uPage_sound, readTables_sound, sound_same]

theorem modFab_sound {s : State} {k : Nat × Nat} {f : FabSlot → FabSlot} (h : s.Sound) : (s.modFab k f).Sound :=
  sound_same h

theorem execSfBind_sound {s t : State} {a b : Fin 64} (h : s.Sound) (e : execSfBind a b s = .next t) : t.Sound := by
  cases e
  refine runU_sound (fun u vs hu => ?_) h
  grind [uRead_sound, uPage_sound, modFab_sound]

theorem execSfRun_sound {s t : State} {cf : BitVec 16} {a b : Fin 64} (h : s.Sound) (e : execSfRun cf a b s = .next t)
    : t.Sound := by
  cases e
  refine runU_sound (fun u vs hu => ?_) h
  grind [issueCmd_sound]

theorem execSfUnbind_sound {s t : State} {a : Fin 64} (h : s.Sound) (e : execSfUnbind a s = .next t) : t.Sound := by
  cases e
  refine runU_sound (fun u vs hu => ?_) h
  grind [sound_same]

/-! ### Runs (R339 to R344) -/

theorem startFabric_sound {s : State} {key : Nat × Nat} {id : Nat} {dst : DWord} (h : s.Sound) :
    (s.startFabric key id dst).Sound := by
  unfold State.startFabric
  grind [modFab_sound]

theorem writeStatus_sound {s : State} {c : Cmd} {stat : DWord} {inBytes : Nat} {out : List Byte} {code : Nat}
    (h : s.Sound) : (s.writeStatus c stat inBytes out code).1.Sound := by
  unfold State.writeStatus
  grind [engWrite_sound]

theorem execStreamChunk_sound {s t : State} {f slot : Nat} (h : s.Sound) (e : execStreamChunk f slot s = .next t) :
    t.Sound := by
  unfold execStreamChunk at e
  dsimp only at e
  repeat' split at e
  all_goals grind [due_sound, engRead_sound, modFab_sound, tickFree_sound]

theorem checkFailed_sound {s : State} {id code : Nat} {addr : DWord} (h : s.Sound) :
    (s.checkFailed id code addr).Sound := by
  unfold State.checkFailed
  grind [sound_same]

theorem execCycleViolation_sound {s t : State} {f slot node cycles : Nat} (h : s.Sound)
    (e : execCycleViolation f slot node cycles s = .next t) : t.Sound := by
  unfold execCycleViolation at e
  grind [due_sound, modFab_sound]

theorem runFabric_sound {s : State} {c : Cmd} {f slot : Nat} (h : s.Sound) : (s.runFabric c f slot).1.Sound := by
  unfold State.runFabric
  grind [engWrite_sound, setDone_sound, modFab_sound, writeStatus_sound]

theorem endFabric_sound {s : State} {c : Cmd} {f slot code : Nat} (h : s.Sound) : (s.endFabric c f slot code).1.Sound := by
  unfold State.endFabric
  grind [engWrite_sound, poisonRange_sound, modFab_sound, writeStatus_sound]

end Sys2Proof.Machine
end

section
/-!
The matrix engine, the search at the stacks and the walker threads keep the state sound.
-/
namespace Sys2Proof.Machine

/-! ### Floating-point instructions, conversions, comparison and selection -/

theorem f32op_sound {s : State} {d : Dst} {srcs : List Src} {g : RMode → List FVal → FVal × Flags} (h : s.Sound) :
    (s.f32op d srcs g).Sound := runPure_sound h

theorem f32code_sound {s : State} {d : Dst} {srcs : List Src} {g : List Nat → Nat × Flags} (h : s.Sound) :
    (s.f32code d srcs g).Sound := runPure_sound h

/-! ### Ownership (R248, R324) -/

theorem execMxAcquire_sound {s t : State} (h : s.Sound) (e : execMxAcquire s = .next t) : t.Sound := by
  cases e
  refine runU_sound (fun u vs hu => ?_) h
  grind [setCore_sound]

theorem execMxRelease_sound {s t : State} (h : s.Sound) (e : execMxRelease s = .next t) : t.Sound := by
  cases e
  refine runU_sound (fun u vs hu => ?_) h
  grind [passOwner_sound]

/-! ### Accumulator banks (R257 to R259) -/

theorem setAcc_sound {s : State} {core idx : Nat} {v : DWord} (h : s.Sound) : (s.setAcc core idx v).Sound :=
  sound_same h

theorem execAccAlloc_sound {s t : State} {d a : Fin 64} (h : s.Sound) (e : execAccAlloc d a s = .next t) : t.Sound := by
  cases e
  refine runU_sound (fun u vs hu => ?_) h
  grind [modTeam_sound]

theorem execAccFree_sound {s t : State} {a : Fin 64} (h : s.Sound) (e : execAccFree a s = .next t) : t.Sound := by
  cases e
  refine runU_sound (fun u vs hu => ?_) h
  grind [modTeam_sound]

theorem execAccZero_sound {s t : State} {a : Fin 64} (h : s.Sound) (e : execAccZero a s = .next t) : t.Sound := by
  cases e
  refine runU_sound (fun u vs hu => ?_) h
  grind [issueCmd_sound]

theorem execAccDrain_sound {s t : State} {a b : Fin 64} (h : s.Sound) (e : execAccDrain a b s = .next t) : t.Sound := by
  cases e
  refine runU_sound (fun u vs hu => ?_) h
  grind [issueCmd_sound]

theorem execAccPack_sound {s t : State} {a b : Fin 64} (h : s.Sound) (e : execAccPack a b s = .next t) : t.Sound := by
  cases e
  refine runU_sound (fun u vs hu => ?_) h
  grind [issueCmd_sound]

theorem accLane_sound {s : State} {l : LaneIn} {f : State → Nat → Nat → State × LaneOut}
    (hf : ∀ u c i, u.Sound → (f u c i).1.Sound) (h : s.Sound) : (s.accLane l f).1.Sound := by
  unfold State.accLane
  grind

theorem execAccRead_sound {s t : State} {d : Dst} {a : Src} (h : s.Sound) (e : execAccRead d a s = .next t) : t.Sound := by
  unfold execAccRead at e
  grind [runSeq_sound, gangGo_sound, accLane_sound]

theorem execAccWrite_sound {s t : State} {a b : Src} (h : s.Sound) (e : execAccWrite a b s = .next t) : t.Sound := by
  unfold execAccWrite at e
  grind [runSeq_sound, gangGo_sound, setAcc_sound, accLane_sound]

/-! ### The parameter block (R250, R251) -/

theorem execMxIssue_sound {s t : State} {a : Fin 64} (h : s.Sound) (e : execMxIssue a s = .next t) : t.Sound := by
  cases e
  refine runU_sound (fun u vs hu => ?_) h
  grind [uRead_sound, uPage_sound, issueCmd_sound]

/-! ### Operand fetch (R252 to R255, R472, R473) -/

theorem mxRead_sound {s : State} {c : Cmd} {side src : Nat} {va : DWord} {n : Nat} (h : s.Sound) :
    (s.mxRead c side src va n).1.Sound := by
  unfold State.mxRead
  grind [engRead_sound]

theorem mxLines_sound {s : State} {c : Cmd} {side : Nat} {p : MxOperand} {n k : Nat} (h : s.Sound) :
    (s.mxLines c side p n k).1.Sound := by
  induction k with
  | zero => exact h
  | succ k ih =>
    unfold State.mxLines
    split <;> grind [mxRead_sound]

theorem present_sound {s : State} {c : Cmd} {o : MxOp} {side : Nat} {p : MxOperand} (h : s.Sound) :
    (s.present c o side p).Sound := by
  unfold State.present
  grind [sound_same]

theorem castRelease_sound {s : State} {k : Multicast} (h : s.Sound) : (s.castRelease k).Sound := by
  unfold State.castRelease
  grind [modCmd_sound, bufSetState_sound, foldl_sound]

theorem mxPieces_sound {s : State} {c : Cmd} {side src : Nat} {ps : List (DWord × Nat)} (h : s.Sound) :
    (s.mxPieces c side src ps).1.Sound := by
  induction ps generalizing s with
  | nil => exact h
  | cons p ps ih =>
    unfold State.mxPieces
    repeat' split
    all_goals grind [mxRead_sound]

theorem castEnter_sound {s : State} {c : Cmd} {side : Nat} {p : MxOperand} {n l : Nat} {k : Multicast} (h : s.Sound) :
    (s.castEnter c side p n l k).1.Sound := by
  unfold State.castEnter
  grind [castRelease_sound, mxPieces_sound, sound_same]

theorem operandLines_sound {s : State} {c : Cmd} {o : MxOp} {side : Nat} {p : MxOperand} (h : s.Sound) :
    (s.operandLines c o side p).1.Sound := by
  unfold State.operandLines
  grind [mxRead_sound, mxLines_sound, present_sound, castEnter_sound]

theorem operandScales_sound {s : State} {c : Cmd} {o : MxOp} {side : Nat} {p : MxOperand} (h : s.Sound) :
    (s.operandScales c o side p).1.Sound := by
  unfold State.operandScales
  grind [mxRead_sound]

theorem fetchOperand_sound {s : State} {c : Cmd} {o : MxOp} {side : Nat} {p : MxOperand} (h : s.Sound) :
    (s.fetchOperand c o side p).1.Sound := by
  unfold State.fetchOperand
  grind [operandLines_sound, operandScales_sound]

/-! ### The sums (R128, R129) -/

theorem setAccs_sound {s : State} {core i : Nat} {vs : List Nat} (h : s.Sound) : (s.setAccs core i vs).Sound := by
  induction vs generalizing s i with
  | nil => exact h
  | cons v vs ih => exact ih (setAcc_sound h)

theorem mxStatus_sound {s : State} {c : Cmd} {o : MxOp} {bs : List Byte} (h : s.Sound) : (s.mxStatus c o bs).1.Sound :=
  engWrite_sound h

theorem endStream_sound {s : State} {c : Cmd} {p : MxOperand} {code : Nat} (h : s.Sound) :
    (s.endStream c p code).1.Sound := by
  unfold State.endStream
  grind [modFab_sound, writeStatus_sound]

theorem dropStream_sound {s : State} {c : Cmd} {p : MxOperand} {code : Nat} (h : s.Sound) :
    (s.dropStream c p code).Sound := by
  unfold State.dropStream
  grind [modFab_sound, endStream_sound]

theorem finishMx_sound {s : State} {c : Cmd} {o : MxOp} {bs : List Byte} (h : s.Sound) : (s.finishMx c o bs).1.Sound := by
  unfold State.finishMx
  grind [mxStatus_sound, endStream_sound]

theorem runMx_sound {s : State} {c : Cmd} {o : MxOp} (h : s.Sound) : (s.runMx c o).1.Sound := by
  unfold State.runMx
  repeat' split
  all_goals grind [finishMx_sound, fetchOperand_sound, mxRead_sound, modCmd_sound, setAccs_sound]

/-! ### Drain and pack (R260, R261) -/

theorem drainElems_sound {s : State} {core lo n : Nat} {w : DWord} (h : s.Sound) : (s.drainElems core lo n w).1.Sound := by
  unfold State.drainElems
  grind [setAccs_sound]

theorem drainImage_sound {s : State} {c : Cmd} {w : DWord} (h : s.Sound) : (s.drainImage c w).1.Sound := by
  unfold State.drainImage
  grind [modCmd_sound, drainElems_sound]

theorem packImageOf_sound {s : State} {c : Cmd} {w : DWord} (h : s.Sound) : (s.packImageOf c w).1.Sound := by
  unfold State.packImageOf
  grind [modCmd_sound, drainElems_sound]

theorem runMatrix_sound {s : State} {c : Cmd} (h : s.Sound) : (s.runMatrix c).1.Sound := by
  unfold State.runMatrix
  grind [modCore_sound, engWrite_sound, setDone_sound, setAccs_sound, runMx_sound, drainImage_sound, packImageOf_sound]

theorem endMatrix_sound {s : State} {c : Cmd} {code : Nat} (h : s.Sound) : (s.endMatrix c code).1.Sound := by
  unfold State.endMatrix
  grind [modCore_sound, poisonRange_sound, poisonCopy_sound, mxStatus_sound, dropStream_sound]

theorem startMx_sound {s : State} {c : Cmd} (h : s.Sound) : (s.startMx c).Sound := by
  unfold State.startMx
  grind [modCmd_sound, due_sound, modFab_sound, startFabric_sound, present_sound]

/-! ### `srch.issue` and `srch.ver` -/

theorem queueBlock_sound {s : State} {stack : Nat} {c : Cmd} {rs : List SearchCmd} (h : s.Sound) :
    (s.queueBlock stack c rs).Sound := by
  unfold State.queueBlock
  grind [modDie_sound, enqueue_sound]

theorem issueBlock_sound {s : State} {stack : Nat} {cf : CompField} {rs : List SearchCmd} (h : s.Sound) :
    (s.issueBlock stack cf rs).1.Sound := by
  unfold State.issueBlock
  grind [issueRelease_sound, queueBlock_sound]

theorem execSrchIssue_sound {s t : State} {cf : BitVec 16} {a b : Fin 64} (h : s.Sound)
    (e : execSrchIssue cf a b s = .next t) : t.Sound := by
  cases e
  refine runU_sound (fun u vs hu => ?_) h
  grind [uRead_sound, uPage_sound, issueBlock_sound]

theorem execSrchVer_sound {s t : State} {d a : Fin 64} (h : s.Sound) (e : execSrchVer d a s = .next t) : t.Sound := by
  cases e
  refine runU_sound (fun u vs hu => ?_) h
  grind [release_sound, acquire_sound, setSync_sound, flushGather_sound, foldl_sound]

theorem execSrchVerRead_sound {s t : State} {d a : Fin 64} (h : s.Sound) (e : execSrchVerRead d a s = .next t) :
    t.Sound := by
  cases e
  refine runU_sound (fun u vs hu => ?_) h
  grind

/-! ### The running block -/

theorem advance_sound {s : State} {stack : Nat} {b : Block} (h : s.Sound) : (s.advance stack b).Sound := by
  unfold State.advance
  grind [due_sound, modBlock_sound]

theorem failBlock_sound {s : State} {b : Block} {f : Fail} (h : s.Sound) : (s.failBlock b f).Sound := by
  unfold State.failBlock
  grind [modCmd_sound, due_sound]

theorem dieStep_sound {s : State} {stack op : Nat} {f : State → Block → SearchCmd → Except Fail State}
    (hf : ∀ u b c v, u.Sound → f u b c = .ok v → v.Sound) (h : s.Sound) : (s.dieStep stack op f).Sound := by
  unfold State.dieStep
  grind [advance_sound, failBlock_sound]

theorem execSearchNop_sound {s t : State} {stack : Nat} (h : s.Sound) (e : execSearchNop stack s = .next t) : t.Sound := by
  cases e
  refine dieStep_sound (fun u b c v hu he => ?_) h
  grind

theorem execHinit_sound {s t : State} {stack : Nat} (h : s.Sound) (e : execHinit stack s = .next t) : t.Sound := by
  cases e
  refine dieStep_sound (fun u b c v hu he => ?_) h
  grind [modDie_sound]

theorem execVclr_sound {s t : State} {stack : Nat} (h : s.Sound) (e : execVclr stack s = .next t) : t.Sound := by
  cases e
  refine dieStep_sound (fun u b c v hu he => ?_) h
  grind [modDie_sound]

theorem execHmerge_sound {s t : State} {stack : Nat} (h : s.Sound) (e : execHmerge stack s = .next t) : t.Sound := by
  cases e
  refine dieStep_sound (fun u b c v hu he => ?_) h
  grind [modDie_sound]

/-! ### Reading through the base-die TLB (R114, R358) -/

theorem dieLine_sound {s : State} {stack : Nat} {b : Block} {own : Bool} {va : DWord} {n : Nat} (h : s.Sound) :
    (s.dieLine stack b own va n).1.Sound := by
  unfold State.dieLine
  grind [checkIssue_sound]

theorem dieReadGo_sound {s : State} {stack : Nat} {b : Block} {own : Bool} {va : DWord} {n k : Nat} (h : s.Sound) :
    (s.dieReadGo stack b own va n k).1.Sound := by
  induction k generalizing s va n with
  | zero => exact h
  | succ k ih =>
    unfold State.dieReadGo
    dsimp only
    repeat' split
    all_goals grind [dieLine_sound, engFetch_sound]

theorem dieRead_sound {s : State} {stack : Nat} {b : Block} {own : Bool} {va : DWord} {n : Nat} (h : s.Sound) :
    (s.dieRead stack b own va n).1.Sound := dieReadGo_sound h

/-! ### Parking (R482, R483) -/

theorem parkBlock_sound {s : State} {stack : Nat} {b : Block} {va stop : Nat} (h : s.Sound) :
    (s.parkBlock stack b va stop).Sound := by
  unfold State.parkBlock
  grind [modDie_sound, record_sound, batch_sound, modBlock_sound]

theorem holdBlock_sound {s : State} {stack : Nat} {b : Block} {va : Nat} (h : s.Sound) :
    (s.holdBlock stack b va).Sound := by
  unfold State.holdBlock
  grind [modDie_sound, modBlock_sound, holdBatch_sound]

/-! ### Commands that move data -/

theorem execQload_sound {s t : State} {stack : Nat} (h : s.Sound) (e : execQload stack s = .next t) : t.Sound := by
  unfold execQload at e
  grind [modDie_sound, advance_sound, failBlock_sound, dieRead_sound, parkBlock_sound]

theorem execHout_sound {s t : State} {stack : Nat} (h : s.Sound) (e : execHout stack s = .next t) : t.Sound := by
  unfold execHout at e
  grind [modBlock_sound, engWrite_sound, advance_sound, failBlock_sound, holdBlock_sound]

theorem vecStep_sound {s : State} {stack : Nat} {b : Block} {c : SearchCmd} {slot : QSlot} {va : DWord} {id : Nat}
    (h : s.Sound) : (s.vecStep stack b c slot va id).1.Sound := by
  unfold State.vecStep
  grind [dieRead_sound]

theorem scanRecord_sound {s : State} {stack : Nat} {b : Block} {c : SearchCmd} {slot : QSlot} {bare : Bool}
    {snap stride : Nat} (h : s.Sound) : (s.scanRecord stack b c slot bare snap stride).1.Sound := by
  unfold State.scanRecord
  grind [dieRead_sound, vecStep_sound]

theorem scanNext_sound {s : State} {stack : Nat} {b : Block} {c : SearchCmd} (h : s.Sound) :
    (s.scanNext stack b c).Sound := by
  unfold State.scanNext
  grind [modBlock_sound, advance_sound]

theorem takeSnap_sound {s : State} {b : Block} {c : SearchCmd} (h : s.Sound) : (s.takeSnap b c).1.Sound := by
  unfold State.takeSnap
  grind [arrived_sound, performStores_sound]

theorem scanStep_sound {s : State} {stack : Nat} {bare : Bool} (h : s.Sound) : (s.scanStep stack bare).Sound := by
  unfold State.scanStep
  grind [modDie_sound, modBlock_sound, advance_sound, failBlock_sound, parkBlock_sound, scanRecord_sound,
    scanNext_sound, takeSnap_sound]

/-! ### Choosing a block (R346), pre-emption (R364, R486) -/

theorem dropBlock_sound {s : State} {stack entry : Nat} (h : s.Sound) : (s.dropBlock stack entry).Sound :=
  modDie_sound h

theorem execSearchBlockStart_sound {s t : State} {stack : Nat} (h : s.Sound)
    (e : execSearchBlockStart stack s = .next t) : t.Sound := by
  unfold execSearchBlockStart at e
  grind [modDie_sound, modBlock_sound, leaveHead_sound, retireCmd_sound, dropBlock_sound]

theorem saveLost_sound {s : State} {stack : Nat} {b : Block} (h : s.Sound) : (s.saveLost stack b).Sound := by
  unfold State.saveLost
  grind [modDie_sound, due_sound]

theorem unstopWalk_sound {s : State} {stack entry : Nat} (h : s.Sound) : (s.unstopWalk stack entry).Sound := by
  unfold State.unstopWalk
  grind [modThread_sound, modBlock_sound, foldl_sound]

theorem execSearchPreempt_sound {s t : State} {stack : Nat} (h : s.Sound) (e : execSearchPreempt stack s = .next t) :
    t.Sound := by
  unfold execSearchPreempt at e
  grind [tickFree_sound, modThread_sound, modDie_sound, modBlock_sound, saveLost_sound, unstopWalk_sound, foldl_sound]

theorem execSearchResume_sound {s t : State} {stack : Nat} (h : s.Sound) (e : execSearchResume stack s = .next t) :
    t.Sound := by
  unfold execSearchResume at e
  grind [tickFree_sound, modDie_sound, saveLost_sound, unstopWalk_sound]

/-! ### Threads -/

theorem startWalker_sound {s : State} {n : Nat} {x : WalkCtx} {pc : DWord} {regs : List Word} (h : s.Sound) :
    (s.startWalker n x pc regs).Sound := setThread_sound h

theorem startThreads_sound {s : State} {stack entry n : Nat} (h : s.Sound) : (s.startThreads stack entry n).Sound := by
  induction n generalizing s with
  | zero => grind [State.startThreads]
  | succ n ih =>
    unfold State.startThreads
    grind [modBlock_sound, startWalker_sound]

theorem execWalk_sound {s t : State} {stack : Nat} (h : s.Sound) (e : execWalk stack s = .next t) : t.Sound := by
  unfold execWalk at e
  grind [checkIssue_sound, modBlock_sound, failBlock_sound, parkBlock_sound, startThreads_sound]

theorem execWalkerThreadStart_sound {s t : State} {stack : Nat} (h : s.Sound)
    (e : execWalkerThreadStart stack s = .next t) : t.Sound := by
  unfold execWalkerThreadStart at e
  grind [startThreads_sound]

/-! ### Messages (R284, R362, R363) -/

theorem walkerDropped_sound {s : State} {x : WalkCtx} {n : Nat} (h : s.Sound) : (s.walkerDropped x n).Sound :=
  record_sound h

theorem execWSend_sound {s t : State} {a : Src} {b : Fin 128} (h : s.Sound) (e : execWSend a b s = .next t) : t.Sound := by
  cases e
  refine runSeq_sound (fun u l hu => ?_) h
  grind [modDie_sound, walkerDropped_sound]

theorem execWRecv_sound {s t : State} {d : Fin 128} (h : s.Sound) (e : execWRecv d s = .next t) : t.Sound := by
  cases e
  refine runSeq_sound (fun u l hu => ?_) h
  grind [modThread_sound, walkBoundary_sound]

theorem execWalkerMessage_sound {s t : State} {dst : Nat} (h : s.Sound) (e : execWalkerMessage dst s = .next t) :
    t.Sound := by
  unfold execWalkerMessage at e
  grind [modThread_sound, modDie_sound, walkerDropped_sound]

/-! ### Hops (R285, R363) -/

theorem execWHop_sound {s t : State} {a : Src} (h : s.Sound) (e : execWHop a s = .next t) : t.Sound := by
  cases e
  refine runSeq_sound (fun u l hu => ?_) h
  grind [dropThread_sound, modDie_sound]

theorem execHopTakeup_sound {s t : State} {stack : Nat} (h : s.Sound) (e : execHopTakeup stack s = .next t) : t.Sound := by
  unfold execHopTakeup at e
  grind [modDie_sound, startWalker_sound]

/-! ### Emissions (R287) -/

theorem execWEmit_sound {s t : State} {a : Fin 128} {n : Fin 32} (h : s.Sound) (e : execWEmit a n s = .next t) :
    t.Sound := by
  cases e
  refine runSeq_sound (fun u l hu => ?_) h
  grind [pushOne_sound, wakeChan_sound, walkerDropped_sound]

/-! ### Search state (R286, R349) -/

theorem execWDist_sound {s t : State} {d a : Fin 128} {q : Fin 32} (h : s.Sound) (e : execWDist d a q s = .next t) :
    t.Sound := by
  cases e
  refine runSeq_sound (fun u l hu => ?_) h
  grind [modThread_sound, uReadGo_sound]

theorem execWHeap_sound {s t : State} {p : Fin 8} {a : Fin 128} {h : Fin 32} (hs : s.Sound)
    (e : execWHeap p a h s = .next t) : t.Sound := by
  cases e
  refine runSeq_sound (fun u l hu => ?_) hs
  grind [modDie_sound]

theorem execWVisit_sound {s u : State} {p : Fin 8} {a : Src} {t : Fin 32} (h : s.Sound)
    (e : execWVisit p a t s = .next u) : u.Sound := by
  cases e
  refine runSeq_sound (fun u l hu => ?_) h
  grind [modDie_sound]

/-! ### The end of a walk (R88, R359, R484, R485) -/

theorem execExitNotice_sound {s t : State} {stack : Nat} (h : s.Sound) (e : execExitNotice stack s = .next t) :
    t.Sound := by
  unfold execExitNotice at e
  grind [modDie_sound, modBlock_sound, performWalk_sound, advance_sound]

theorem stopWalk_sound {s : State} {stack entry : Nat} (h : s.Sound) : (s.stopWalk stack entry).Sound := by
  unfold State.stopWalk
  grind [dropThread_sound, foldl_sound, sound_same]

theorem execWalkStalled_sound {s t : State} {stack : Nat} (h : s.Sound) (e : execWalkStalled stack s = .next t) :
    t.Sound := by
  unfold execWalkStalled at e
  grind [failBlock_sound]

theorem endSearch_sound {s : State} {c : Cmd} {stack entry : Nat} {houts : List (Nat × DWord × Nat)} (h : s.Sound) :
    (s.endSearch c stack entry houts).1.Sound := by
  unfold State.endSearch
  grind [performWalk_sound, poisonRange_sound, dropBlock_sound, stopWalk_sound, foldl_sound]

end Sys2Proof.Machine
end

section
/-!
The steps of engine commands, the launch front end, placement and the team context switch keep the state sound.
-/
namespace Sys2Proof.Machine

/-! ### Heads (R239, R242) -/

theorem startCmd_sound {s : State} {c : Cmd} (h : s.Sound) : (s.startCmd c).Sound := by
  unfold State.startCmd
  grind [due_sound, startFabric_sound, startMx_sound]

theorem execCommandHead_sound {s t : State} {q : EngineQueue} (h : s.Sound) (e : execCommandHead q s = .next t) :
    t.Sound := by
  unfold execCommandHead at e
  grind [modCmd_sound, due_sound, leaveHead_sound, retireCmd_sound, startCmd_sound]

/-! ### Completion (R243) -/

theorem runGraph_sound {s : State} {gid : Nat} (h : s.Sound) : (s.runGraph gid).1.Sound := by
  unfold State.runGraph
  grind

theorem abortCmd_sound {s : State} {c : Cmd} (h : s.Sound) : (s.abortCmd c).Sound := modCmd_sound h

theorem runColl_sound {s : State} {c : Cmd} {r : CollOp} (h : s.Sound) : (s.runColl c r).1.Sound := by
  unfold State.runColl
  grind [tickFree_sound, setDom_sound, modCmd_sound, engRead_sound, engWrite_sound, setDone_sound, abortCmd_sound]

theorem runCmd_sound {s : State} {c : Cmd} (h : s.Sound) : (s.runCmd c).1.Sound := by
  unfold State.runCmd
  grind [runCopy_sound, runFabric_sound, runMatrix_sound, runGraph_sound, runColl_sound]

theorem dropWork_sound {s : State} {c : Cmd} (h : s.Sound) : (s.dropWork c).Sound := by
  unfold State.dropWork
  grind [due_sound, dropBlock_sound, sound_same]

theorem execCommandComplete_sound {s t : State} {id : Nat} (h : s.Sound) (e : execCommandComplete id s = .next t) :
    t.Sound := by
  unfold execCommandComplete at e
  grind [modCmd_sound, due_sound, settle_sound, runCmd_sound, dropWork_sound]

theorem execCommandHold_sound {s t : State} {id : Nat} {va : DWord} (h : s.Sound)
    (e : execCommandHold id va s = .next t) : t.Sound := by
  unfold execCommandHold at e
  grind [modCmd_sound, holdBatch_sound]

/-! ### Ends (R467 to R471) -/

theorem endActions_sound {s : State} {c : Cmd} {code : Nat} (h : s.Sound) : (s.endActions c code).1.Sound := by
  unfold State.endActions
  grind [modGrid_sound, due_sound, poisonRange_sound, poisonCopy_sound, endFabric_sound, endMatrix_sound,
    endSearch_sound, sound_same]

theorem execCommandEnd_sound {s t : State} {id : Nat} {code : BitVec 16} {addr : DWord} (h : s.Sound)
    (e : execCommandEnd id code addr s = .next t) : t.Sound := by
  unfold execCommandEnd at e
  grind [settle_sound, endRecord_sound, checkFailed_sound, endActions_sound]

theorem execMulticastAbandon_sound {s t : State} {id : Nat} (h : s.Sound) (e : execMulticastAbandon id s = .next t) :
    t.Sound := by
  unfold execMulticastAbandon at e
  grind [modCmd_sound, due_sound, foldl_sound, sound_same]

/-! ### Command graphs (R265 to R267, R320, R321) -/

theorem nodePages_sound {s : State} {c : Cmd} {xs : List (DWord × Nat)} (h : s.Sound) : (s.nodePages c xs).1.Sound := by
  induction xs generalizing s with
  | nil => grind [State.nodePages]
  | cons x xs ih =>
    unfold State.nodePages
    grind [checkIssue_sound]

theorem nodesAt_sound {s : State} {c : Cmd} {va : DWord} {n : Nat} (h : s.Sound) : (s.nodesAt c va n).1.Sound := by
  unfold State.nodesAt
  grind [nodePages_sound]

theorem execCgLaunch_sound {s t : State} {cf : BitVec 16} {a b : Fin 64} (h : s.Sound)
    (e : execCgLaunch cf a b s = .next t) : t.Sound := by
  cases e
  refine runU_sound (fun u vs hu => ?_) h
  grind [uPage_sound, issueRelease_sound, enqueue_sound, nodesAt_sound, sound_same]

theorem nodeWork_sound {s : State} {g : Graph} {gid i : Nat} (h : s.Sound) : (s.nodeWork g gid i).1.Sound := by
  have hr : ∀ c va n, (s.engRead c va n).1.Sound := fun _ _ _ => engRead_sound h
  unfold State.nodeWork
  dsimp only
  split
  · exact h
  split
  · exact h
  split
  all_goals grind

theorem takeNode_sound {s : State} {gid i : Nat} {runs : Bool} (h : s.Sound) : (s.takeNode gid i runs).Sound :=
  sound_same h

theorem failNode_sound {s : State} {g : Graph} {gid i code : Nat} (h : s.Sound) : (s.failNode g gid i code).Sound := by
  unfold State.failNode
  grind [nodeFinished_sound, endRecord_sound, takeNode_sound]

theorem issueNode_sound {s : State} {g : Graph} {gid i : Nat} (h : s.Sound) : (s.issueNode g gid i).Sound := by
  unfold State.issueNode
  grind [due_sound, enqueue_sound, nodeFinished_sound, queueBlock_sound, nodeWork_sound, takeNode_sound, failNode_sound]

theorem startGraph_sound {s : State} {gid : Nat} {g : Graph} (h : s.Sound) : (s.startGraph gid g).Sound := by
  unfold State.startGraph
  grind [retireCmd_sound, sound_same]

theorem execGraphNodeIssue_sound {s t : State} {core : Nat} (h : s.Sound) (e : execGraphNodeIssue core s = .next t) :
    t.Sound := by
  unfold execGraphNodeIssue at e
  grind [dropCmd_sound, issueNode_sound, startGraph_sound, foldl_sound, sound_same]

/-! ### Reads and writes of the front end -/

theorem frontLine_sound {s : State} {g : Grid} {kind : AccKind} {va : DWord} {n : Nat} (h : s.Sound) :
    (s.frontLine g kind va n).1.Sound := by
  unfold State.frontLine
  grind [walkTable_sound]

theorem frontReadGo_sound {s : State} {g : Grid} {va : DWord} {n k : Nat} (h : s.Sound) :
    (s.frontReadGo g va n k).1.Sound := by
  induction k generalizing s va n with
  | zero => exact h
  | succ k ih =>
    unfold State.frontReadGo
    dsimp only
    repeat' split
    all_goals grind [arrived_sound, frontLine_sound, freeBytes_sound]

theorem frontRead_sound {s : State} {g : Grid} {va : DWord} {n : Nat} (h : s.Sound) : (s.frontRead g va n).1.Sound :=
  frontReadGo_sound h

theorem frontStore_sound {s : State} {g : Grid} {va : DWord} {bs : List Byte} (h : s.Sound) :
    (s.frontStore g va bs).Sound := by
  unfold State.frontStore
  grind [write_sound, frontLine_sound]

theorem ringRead_sound {s : State} {r : LaunchQueue} {unit n : Nat} (h : s.Sound) : (s.ringRead r unit n).1.Sound := by
  unfold State.ringRead
  grind [arrived_sound, freeBytes_sound]

/-! ### Checks of R310 -/

theorem frontCheck_sound {s : State} {g : Grid} (h : s.Sound) : (s.frontCheck g).1.Sound := by
  have hr : ∀ (u : State) va n, u.Sound → (u.frontRead g va n).1.Sound := fun _ _ _ hu => frontRead_sound hu
  unfold State.frontCheck
  dsimp only
  repeat' split
  all_goals grind

/-! ### Completion (R307, R311, R372) -/

theorem advanceGo_sound {s : State} {q n : Nat} (h : s.Sound) : (s.advanceGo q n).Sound := by
  induction n generalizing s with
  | zero => grind [State.advanceGo]
  | succ n ih =>
    unfold State.advanceGo
    grind [setFront_sound, modQueue_sound, sound_same]

theorem advanceDone_sound {s : State} {q : Nat} (h : s.Sound) : (s.advanceDone q).Sound := by
  unfold State.advanceDone
  grind [due_sound, advanceGo_sound]

theorem complete_sound {s : State} {g status : Nat} (h : s.Sound) : (s.complete g status).Sound := by
  unfold State.complete
  grind [setFront_sound, modGrid_sound, due_sound, interrupt_sound, ready_sound, frontStore_sound, advanceDone_sound,
    foldl_sound]

theorem leaveQueue_sound {s : State} {g : Nat} (h : s.Sound) : (s.leaveQueue g).Sound := by
  unfold State.leaveQueue
  grind [setFront_sound, modGrid_sound, modQueue_sound]

theorem refuse_sound {s : State} {g code kind : Nat} {addr info0 info1 : DWord} (h : s.Sound) :
    (s.refuse g code kind addr info0 info1).Sound := by
  unfold State.refuse
  grind [record_sound, complete_sound, leaveQueue_sound]

/-! ### Heads (R306, R307, R313, R371, R489, R492) -/

theorem addGrid_sound {s : State} {g : Grid} (h : s.Sound) : (s.addGrid g).Sound := by
  unfold State.addGrid
  grind [setFront_sound]

theorem stopDown_sound {s : State} {q : Nat} (h : s.Sound) : (s.stopDown q).Sound := modQueue_sound h

theorem readHead_sound {s : State} {q : Nat} (h : s.Sound) : (s.readHead q).Sound := by
  unfold State.readHead
  grind [stopQueue_sound, ringRead_sound, frontCheck_sound, addGrid_sound, stopDown_sound]

/-! ### Extents (R105, R458) -/

theorem scanExtent_sound {s : State} {g : Grid} {slot : Nat} {e : Extent} {va : Nat} {x : Scan} {n : Nat}
    (h : s.Sound) : (s.scanExtent g slot e va x n).1.Sound := by
  induction n generalizing s va x with
  | zero => exact h
  | succ n ih =>
    unfold State.scanExtent
    dsimp only
    repeat' split
    all_goals grind [walkTable_sound]

theorem scanAll_sound {s : State} {g : Grid} {z : Scan} {xs : List (Nat × Extent)} (h : s.Sound) :
    (s.scanAll g z xs).1.Sound := by
  induction xs generalizing s z with
  | nil => exact h
  | cons a xs ih =>
    obtain ⟨i, x⟩ := a
    grind [State.scanAll, scanExtent_sound]

theorem execExtentTranslation_sound {s t : State} {g : Nat} (h : s.Sound) (e : execExtentTranslation g s = .next t) :
    t.Sound := by
  unfold execExtentTranslation at e
  grind [modGrid_sound, batch_sound, refuse_sound, scanAll_sound]

/-! ### Wait-on-value and signal records (R319) -/

theorem pollWait_sound {s : State} {g : Nat} {x : Grid} (h : s.Sound) : (s.pollWait g x).Sound := by
  unfold State.pollWait
  grind [modGrid_sound, frontRead_sound, complete_sound]

theorem execWaitOnValue_sound {s t : State} {g : Nat} (h : s.Sound) (e : execWaitOnValue g s = .next t) : t.Sound := by
  unfold execWaitOnValue at e
  grind [leaveQueue_sound, pollWait_sound]

theorem execWaitOnValuePoll_sound {s t : State} {g : Nat} (h : s.Sound) (e : execWaitOnValuePoll g s = .next t) :
    t.Sound := by
  unfold execWaitOnValuePoll at e
  grind [pollWait_sound]

theorem execSignalRecord_sound {s t : State} {g : Nat} (h : s.Sound) (e : execSignalRecord g s = .next t) : t.Sound := by
  unfold execSignalRecord at e
  grind [frontStore_sound, complete_sound, leaveQueue_sound]

/-! ### Graph records (R320) -/

theorem execGraphRecord_sound {s t : State} {g : Nat} (h : s.Sound) (e : execGraphRecord g s = .next t) : t.Sound := by
  unfold execGraphRecord at e
  grind [enqueue_sound, frontRead_sound, leaveQueue_sound, refuse_sound, sound_same]

/-! ### Doorbells and enables (R371, R490) -/

theorem execLqTailDoorbell_sound {s t : State} {q : Fin 64} {v : BitVec 17} (h : s.Sound)
    (e : execLqTailDoorbell q v s = .next t) : t.Sound := by
  unfold execLqTailDoorbell at e
  grind [doorbell_sound]

theorem execLqEnable_sound {s t : State} {q : Fin 64} (h : s.Sound) (e : execLqEnable q s = .next t) : t.Sound := by
  unfold execLqEnable at e
  grind [enableQueue_sound]

theorem execLqDisable_sound {s t : State} {q : Fin 64} (h : s.Sound) (e : execLqDisable q s = .next t) : t.Sound := by
  unfold execLqDisable at e
  grind [disableQueue_sound]

theorem execLqDisableEffect_sound {s t : State} {q : Fin 64} (h : s.Sound) (e : execLqDisableEffect q s = .next t) :
    t.Sound := by
  unfold execLqDisableEffect at e
  grind [disableEffect_sound]

/-! ### Choice among the heads (R314, R315) -/

theorem markPending_sound {s : State} (h : s.Sound) : s.markPending.Sound := by
  unfold State.markPending
  grind [modGrid_sound, foldl_sound]

theorem admitOne_sound {s : State} (h : s.Sound) : s.admitOne.Sound := by
  unfold State.admitOne
  grind [setFront_sound, due_sound]

theorem execRecordAdmission_sound {s t : State} (h : s.Sound) (e : execRecordAdmission s = .next t) : t.Sound := by
  unfold execRecordAdmission at e
  grind [modGrid_sound, due_sound, readHead_sound, markPending_sound, admitOne_sound, foldl_sound]

/-! ### Placement (R316 to R318) -/

theorem formSkein_sound {s : State} {c slot : Nat} {ws : List Who} (h : s.Sound) : (s.formSkein c slot ws).Sound := by
  unfold State.formSkein
  grind [modCore_sound, modThread_sound, foldl_sound, sound_same]

theorem placeTeam_sound {s : State} {gid : Nat} {g : Grid} {k : Kernel} {p : Spot} {index : Nat} (h : s.Sound) :
    (s.placeTeam gid g k p index).Sound := by
  unfold State.placeTeam
  grind [startView_sound, modCore_sound, setThread_sound, setTeam_sound, modGrid_sound, wakeCore_sound, formSkein_sound,
    foldl_sound]

theorem applyDecl_sound {s u : State} {t : TeamId} {first : Bool} {d : DWord × DWord} (h : s.Sound)
    (e : s.applyDecl t first d = .ok u) : u.Sound := by
  unfold State.applyDecl at e
  grind [putBar_sound, bindChan_sound, declareBuffer_sound]

theorem applyDecls_sound {s : State} {t : TeamId} {first : Bool} {xs : List (DWord × DWord)} (h : s.Sound) :
    (s.applyDecls t first xs).Sound := by
  induction xs generalizing s with
  | nil => grind [State.applyDecls]
  | cons x xs ih =>
    unfold State.applyDecls
    grind [endTeam_sound, applyDecl_sound]

theorem placeAll_sound {s : State} {gid : Nat} {g : Grid} {k : Kernel} {first : Nat} {ps : List Spot} (h : s.Sound) :
    (s.placeAll gid g k first ps).Sound := by
  unfold State.placeAll
  grind [placeTeam_sound, applyDecls_sound, foldl_sound]

theorem admitLaunch_sound {s : State} {n : Nat} (h : s.Sound) : (s.admitLaunch n).Sound := by
  unfold State.admitLaunch
  grind [leaveQueue_sound, refuse_sound, placeAll_sound]

theorem execTeamPlacement_sound {s t : State} (h : s.Sound) (e : execTeamPlacement s = .next t) : t.Sound := by
  unfold execTeamPlacement at e
  grind [setFront_sound, placeAll_sound]

/-! ### Retirement (R50, R436, R447) -/

theorem discardBank_sound {s : State} {core bank : Nat} (h : s.Sound) : (s.discardBank core bank).Sound := by
  unfold State.discardBank
  grind [tickFree_sound, setAcc_sound, foldl_sound]

theorem retireRecord_sound {s : State} {t : TeamId} {v : Team} (h : s.Sound) : (s.retireRecord t v).Sound := by
  unfold State.retireRecord
  grind [modGrid_sound, record_sound]

theorem leaveChildren_sound {s : State} {v : Team} (h : s.Sound) : (s.leaveChildren v).Sound := by
  unfold State.leaveChildren
  grind [setFront_sound, modGrid_sound, foldl_sound]

theorem dropTeam_sound {s : State} {t : TeamId} {v : Team} (h : s.Sound) : (s.dropTeam t v).Sound := by
  unfold State.dropTeam
  grind [modCore_sound, modGrid_sound, due_sound, leaveChildren_sound, sound_same]

theorem execTeamRetire_sound {s t : State} {core slot : Nat} (h : s.Sound) (e : execTeamRetire core slot s = .next t)
    : t.Sound := by
  unfold execTeamRetire at e
  grind [abandonGraphs_sound, discardBank_sound, retireRecord_sound, dropTeam_sound, foldl_sound]

theorem execGridRetire_sound {s t : State} {g : Nat} (h : s.Sound) (e : execGridRetire g s = .next t) : t.Sound := by
  unfold execGridRetire at e
  grind [complete_sound]

/-! ### `launch` (R208) -/

theorem failChild_sound {s : State} {g : Grid} {code reason : Nat} {addr w0 : DWord} (h : s.Sound) :
    (s.failChild g code reason addr w0).Sound := by
  unfold State.failChild
  grind [record_sound, addGrid_sound]

theorem handOver_sound {s : State} {bs : List Byte} {va : DWord} {supOk : Bool} {g0 : Grid} (h : s.Sound) :
    (s.handOver bs va supOk g0).Sound := by
  unfold State.handOver
  grind [frontCheck_sound, addGrid_sound, failChild_sound]

theorem execLaunch_sound {s t : State} {d a : Fin 64} (h : s.Sound) (e : execLaunch d a s = .next t) : t.Sound := by
  cases e
  refine runU_sound (fun u vs hu => ?_) h
  grind [modTeam_sound, uPage_sound, issueRelease_sound, engRead_sound, handOver_sound]

/-! ### Saving (R301) -/

theorem stopForSave_sound {s : State} {t : TeamId} (h : s.Sound) : (s.stopForSave t).Sound := by
  unfold State.stopForSave
  grind [modCore_sound, modThread_sound, modTeam_sound, rollbackRun_sound, flushGather_sound, foldl_sound]

theorem foldl_fst_sound {α β : Type} {f : State × β → α → State × β} (hf : ∀ u a, u.1.Sound → (f u a).1.Sound)
    {l : List α} {u : State × β} (h : u.1.Sound) : (l.foldl f u).1.Sound := by
  induction l generalizing u with
  | nil => exact h
  | cons a l ih => exact ih (hf _ _ h)

theorem areaBad_sound {s : State} {w : Who} {va : DWord} {n : Nat} (h : s.Sound) : (s.areaBad w va n).1.Sound := by
  refine foldl_fst_sound (fun u p hu => ?_) h
  obtain ⟨u, r⟩ := u
  cases r with grind [reach_sound]

theorem execCtxsave_sound {s t : State} {d a b : Fin 64} (h : s.Sound) (e : execCtxsave d a b s = .next t) : t.Sound := by
  cases e
  refine runSup_sound (fun u vs r hu hr => ?_) h
  grind [uPage_sound, stopForSave_sound, areaBad_sound, sound_same]

theorem writeArea_sound {s : State} {w : Who} {core : Nat} {va : DWord} {bs : List Byte} {n : Nat} (h : s.Sound) :
    (s.writeArea w core va bs n).Sound := by
  induction n generalizing s va bs with
  | zero => grind [State.writeArea]
  | succ n ih =>
    unfold State.writeArea
    grind [write_sound, checkIssue_sound]

theorem poisonArea_sound {s : State} {w : Who} {va : DWord} {n : Nat} (h : s.Sound) : (s.poisonArea w va n).Sound := by
  unfold State.poisonArea
  grind [checkIssue_sound, foldl_sound, poisonLine_sound]

theorem freeSaved_sound {s : State} {t : TeamId} {tag : Nat} (h : s.Sound) : (s.freeSaved t tag).Sound := by
  unfold State.freeSaved
  grind [modCore_sound, modTeam_sound, fileAll_sound, removeThread_sound, keepFed_sound, foldl_sound]

theorem finishSave_sound {s : State} {p : Pending} {ws : List Who} {r : DWord} (h : s.Sound) :
    (s.finishSave p ws r).Sound := by
  unfold State.finishSave
  grind [modSkein_sound, passAll_sound, sound_same]

theorem resumeTeam_sound {s : State} {t : TeamId} {v : Team} (h : s.Sound) : (s.resumeTeam t v).Sound := by
  unfold State.resumeTeam
  grind [modCore_sound, modTeam_sound]

theorem execCtxsaveWrite_sound {s t : State} {core ctx : Nat} {pc : DWord} (h : s.Sound)
    (e : execCtxsaveWrite core ctx pc s = .next t) : t.Sound := by
  unfold execCtxsaveWrite at e
  grind [writeArea_sound, poisonArea_sound, freeSaved_sound, finishSave_sound, resumeTeam_sound, foldl_sound]

/-! ### Loading (R302, R326, R328) -/

theorem loadSkein_sound {s : State} {t : TeamId} {v : Team} {x : SavedTeam} {i : Nat} {bs : List Byte} (h : s.Sound) :
    (s.loadSkein t v x i bs).Sound := by
  unfold State.loadSkein
  grind [setCore_sound, modCore_sound, setThread_sound, foldl_sound, sound_same]

theorem loadFiled_sound {s : State} {t : TeamId} {v : Team} {x : SavedTeam} (h : s.Sound) : (s.loadFiled t v x).Sound := by
  unfold State.loadFiled
  grind [modCore_sound, setThread_sound, modThread_sound, setSys_sound, fileAll_sound, foldl_sound]

/-- A fold that keeps its failures ends with the first of them. -/
theorem foldl_error {α β ε : Type} {f : Except ε β → α → Except ε β} (herr : ∀ x a, f (.error x) a = .error x)
    {l : List α} {x : ε} : l.foldl f (.error x) = .error x := by
  induction l with
  | nil => rfl
  | cons a l ih => rw [List.foldl_cons, herr, ih]

theorem foldl_ok_sound {α ε : Type} {f : Except ε State → α → Except ε State} (herr : ∀ x a, f (.error x) a = .error x)
    (hf : ∀ u a v, u.Sound → f (.ok u) a = .ok v → v.Sound) {l : List α} {s t : State} (h : s.Sound)
    (e : l.foldl f (.ok s) = .ok t) : t.Sound := by
  induction l generalizing s with
  | nil => exact Except.ok.inj e ▸ h
  | cons a l ih =>
    rw [List.foldl_cons] at e
    cases hx : f (.ok s) a with
    | ok u => exact ih (hf _ _ _ h hx) (hx ▸ e)
    | error x =>
      rw [hx, foldl_error herr] at e
      cases e

theorem loadChans_sound {s t : State} {g : TeamId} {x : SavedTeam} (h : s.Sound) (e : s.loadChans g x = .ok t) :
    t.Sound := by
  refine foldl_ok_sound (fun _ _ => rfl) (fun u p v hu he => ?_) h e
  grind [modTeam_sound, bindChan_sound]

theorem restoreTeam_sound {s : State} {t : TeamId} {v : Team} {x : SavedTeam} {k : Option Carder} (h : s.Sound) :
    (s.restoreTeam t v x k).Sound := by
  unfold State.restoreTeam
  grind [modCore_sound, modTeam_sound, modGrid_sound, wakeCore_sound, openCarder_sound, setAcc_sound, loadSkein_sound,
    loadFiled_sound, foldl_sound]

theorem execCtxload_sound {s t : State} {d a b : Fin 64} (h : s.Sound) (e : execCtxload d a b s = .next t) :
    t.Sound := by
  cases e
  refine runSup_sound (fun u vs r hu hr => ?_) h
  have hrestore : ∀ (v : State) t bs, v.Sound → (v.restoreCarder (fun s va n => s.uRead va n 1) t bs).1.Sound :=
    fun v _ _ hv => restoreCarder_sound (fun _ _ _ => uRead_sound) hv
  dsimp only at hr
  repeat' split at hr
  all_goals grind [loadChans_sound, restoreTeam_sound, uPage_sound, uRead_sound]

end Sys2Proof.Machine
end

section
/-!
The steps of a core, the host port, the resets, the domain, the power controller and the failures keep the state sound.
-/
namespace Sys2Proof.Machine

/-! ### Draws (R41, R42) -/

theorem execDraw_sound {s t : State} {core : Nat} (h : s.Sound) (e : execDraw core s = .next t) : t.Sound := by
  unfold execDraw at e
  grind [modCore_sound, wakeCore_sound, fileAll_sound, formSkein_sound]

/-! ### Forcing (R54) -/

theorem execForcing_sound {s t : State} {who : Who} (h : s.Sound) (e : execForcing who s = .next t) : t.Sound := by
  unfold execForcing at e
  grind [modThread_sound]

/-! ### Starvation (R55, R446) -/

theorem markReported_sound {s : State} {t : TeamId} {x1 : SyncObj} (h : s.Sound) : (s.markReported t x1).Sound := by
  unfold State.markReported
  grind [modChan_sound, modBar_sound, sound_same]

theorem execStarvation_sound {s t : State} {core slot : Nat} {o : SyncObj} (h : s.Sound)
    (e : execStarvation core slot o s = .next t) : t.Sound := by
  unfold execStarvation at e
  grind [record_sound, markReported_sound]

/-! ### Claim-deadlock (R61, R448) -/

theorem execClaimDeadlock_sound {s t : State} {core : Nat} (h : s.Sound) (e : execClaimDeadlock core s = .next t) :
    t.Sound := by
  unfold execClaimDeadlock at e
  grind [modCore_sound, setSys_sound, record_sound, ready_sound, trapLane_sound, foldl_sound]

/-! ### Clock gating (R63, R64) -/

theorem execCoreRestart_sound {s t : State} {core : Nat} (h : s.Sound) (e : execCoreRestart core s = .next t) :
    t.Sound := by
  unfold execCoreRestart at e
  grind [modCore_sound]

/-! ### Run-aheads and illegal encodings -/

theorem execRunAheadRollback_sound {s t : State} {id : Nat} (h : s.Sound) (e : execRunAheadRollback id s = .next t) :
    t.Sound := by
  unfold execRunAheadRollback at e
  grind [rollbackRun_sound]

theorem execIllegalEncoding_sound {s t : State} {w1 w2 : Word} (h : s.Sound)
    (e : execIllegalEncoding w1 w2 s = .next t) : t.Sound := by
  unfold execIllegalEncoding at e
  grind [setSys_sound, gangRaise_sound]

/-! ### Accesses through the BARs (R92, R368) -/

theorem hostUnpopulated_sound {s : State} {addr : Nat} {info0 : DWord} (h : s.Sound) :
    (s.hostUnpopulated addr info0).Sound := record_sound h

theorem poisonLines_sound {s : State} {loc n : Nat} (h : s.Sound) : (s.poisonLines loc n).Sound := by
  unfold State.poisonLines
  grind [poisonDetected_sound, foldl_sound]

theorem ctlBytes_sound {s : State} {off : Nat} {bs : List Byte} {n : Nat} (h : s.Sound) : (s.ctlBytes off bs n).Sound := by
  induction n generalizing s off bs with
  | zero => grind [State.ctlBytes]
  | succ n ih =>
    unfold State.ctlBytes
    grind [ctlWrite_sound]

theorem execHostMemoryWrite_sound {s t : State} {bar off : Nat} {bytes : List Byte} {ep : Bool} (h : s.Sound)
    (e : execHostMemoryWrite bar off bytes ep s = .next t) : t.Sound := by
  unfold execHostMemoryWrite at e
  grind [write_sound, record_sound, hostUnpopulated_sound, poisonLines_sound, ctlBytes_sound]

theorem hostReply_sound {s : State} {bs : List Byte} {ep : Bool} (h : s.Sound) : (s.hostReply bs ep).Sound := by
  unfold State.hostReply
  grind [setPlat_sound]

theorem execHostMemoryRead_sound {s t : State} {bar off n : Nat} (h : s.Sound)
    (e : execHostMemoryRead bar off n s = .next t) : t.Sound := by
  unfold execHostMemoryRead at e
  grind [hostView_sound, record_sound, hostUnpopulated_sound, hostReply_sound]

/-! ### Errors and the link (R491, R492) -/

theorem execHostLinkDown_sound {s t : State} (h : s.Sound) (e : execHostLinkDown s = .next t) : t.Sound := by
  unfold execHostLinkDown at e
  grind [setPlat_sound, record_sound]

theorem execHostLinkRetrained_sound {s t : State} (h : s.Sound) (e : execHostLinkRetrained s = .next t) : t.Sound := by
  unfold execHostLinkRetrained at e
  grind [setPlat_sound]

/-! ### Registers that the host writes -/

theorem execSupervisorMailbox_sound {s t : State} {v : DWord} (h : s.Sound) (e : execSupervisorMailbox v s = .next t)
    : t.Sound := by
  unfold execSupervisorMailbox at e
  grind [ctlWrite_sound]

theorem execKseedLock_sound {s t : State} (h : s.Sound) (e : execKseedLock s = .next t) : t.Sound := by
  unfold execKseedLock at e
  grind [lockKseed_sound]

theorem execPrivLock_sound {s t : State} (h : s.Sound) (e : execPrivLock s = .next t) : t.Sound := by
  unfold execPrivLock at e
  grind [setPlat_sound]

theorem execCoreResume_sound {s t : State} {core : Nat} (h : s.Sound) (e : execCoreResume core s = .next t) : t.Sound := by
  unfold execCoreResume at e
  grind [resumeCore_sound]

theorem execEqHeadWrite_sound {s t : State} {n : Fin 4} {v : BitVec 32} (h : s.Sound)
    (e : execEqHeadWrite n v s = .next t) : t.Sound :=
  Host.Outcome.next.inj e ▸ getD_sound h fun _ ha => ackQueue_sound h ha

theorem execBqHeadWrite_sound {s t : State} {v : BitVec 16} (h : s.Sound) (e : execBqHeadWrite v s = .next t) :
    t.Sound := by
  unfold execBqHeadWrite at e
  grind [batchHead_sound]

theorem execRegisterWrite_sound {s t : State} {off size : Nat} {v : DWord} (h : s.Sound)
    (e : execRegisterWrite off size v s = .next t) : t.Sound := by
  unfold execRegisterWrite at e
  grind [ctlBytes_sound]

theorem execDomainJoin_sound {s t : State} {refused : Bool} {members : List Nat} (h : s.Sound)
    (e : execDomainJoin refused members s = .next t) : t.Sound := by
  unfold execDomainJoin at e
  grind [tickFree_sound, setPlat_sound, setDom_sound, record_sound, domEnable_sound]

/-! ### Resets (R385, R386) -/

theorem execWarmReset_sound {s t : State} (h : s.Sound) (e : execWarmReset s = .next t) : t.Sound := by
  unfold execWarmReset at e
  grind [warmReset_sound]

theorem execColdReset_sound {s t : State} (h : s.Sound) (e : execColdReset s = .next t) : t.Sound := by
  cases e
  exact ⟨cellsWf_filter _ _ h.mem, by simp [State.resetNumber], by simp [State.resetNumber]⟩

theorem powerOff_sound {s : State} {trip : Bool} (_ : s.Sound) : (s.powerOff trip).Sound :=
  ⟨rfl, by simp [State.powerOff, State.setPlat, State.resetNumber],
    by simp [State.powerOff, State.setPlat, State.resetNumber]⟩

theorem execPowerDown_sound {s t : State} (h : s.Sound) (e : execPowerDown s = .next t) : t.Sound := by
  unfold execPowerDown at e
  grind [powerOff_sound]

/-! ### Starting a round (R281, R377) -/

theorem collRefused_sound {s : State} (h : s.Sound) : (collRefused s).1.Sound := h.of_eq rfl rfl rfl

theorem execCollStart_sound {s t : State} {cf : BitVec 16} {a : Fin 64} (h : s.Sound)
    (e : execCollStart cf a s = .next t) : t.Sound := by
  cases e
  refine runU_sound (fun u vs hu => ?_) h
  grind [uRead_sound, uPage_sound, issueRelease_sound, enqueue_sound, collRefused_sound]

/-! ### The result of a round (R378) -/

theorem execCollectiveDelivery_sound {s t : State} {group round : Nat} {contribs : List (List Byte)} (h : s.Sound)
    (e : execCollectiveDelivery group round contribs s = .next t) : t.Sound := by
  unfold execCollectiveDelivery at e
  grind [modCmd_sound, due_sound]

/-! ### Rounds that abort (R496, R497) -/

theorem abortRound_sound {s : State} {group round code mask : Nat} (h : s.Sound) :
    (s.abortRound group round code mask).Sound := by
  unfold State.abortRound
  grind [setDom_sound, modCmd_sound, due_sound, abortCmd_sound]

/-! ### Accesses of other devices (R376, R501) -/

theorem domReply_sound {s : State} {code : Nat} {bs : List Byte} (h : s.Sound) : (s.domReply code bs).Sound := by
  unfold State.domReply
  grind [setDom_sound]

theorem execRemoteAccess_sound {s t : State} {dev pa size : Nat} {key : Fin 64} {k : RemoteKind} (h : s.Sound)
    (e : execRemoteAccess dev pa size key k s = .next t) : t.Sound := by
  unfold execRemoteAccess at e
  grind [write_sound, arrived_sound, domReply_sound]

/-! ### Coherent lines (R93, R379, R463, R464) -/

theorem execDirectoryRequest_sound {s t : State} {dev line : Nat} {store : Bool} (h : s.Sound)
    (e : execDirectoryRequest dev line store s = .next t) : t.Sound := by
  unfold execDirectoryRequest at e
  grind [dirRequest_sound]

theorem execSnoop_sound {s t : State} {line : Nat} {keep : Bool} (h : s.Sound) (e : execSnoop line keep s = .next t) :
    t.Sound := by
  unfold execSnoop at e
  grind [setDom_sound]

theorem execInvalidation_sound {s t : State} {line : Nat} (h : s.Sound) (e : execInvalidation line s = .next t) :
    t.Sound := by
  unfold execInvalidation at e
  grind [setDom_sound]

theorem ownerLostRecord_sound {s : State} {line owner answered : Nat} (h : s.Sound) :
    (s.ownerLostRecord line owner answered).Sound := record_sound h

theorem execSnoopReply_sound {s t : State} {line : Nat} {data : List Byte} (h : s.Sound)
    (e : execSnoopReply line data s = .next t) : t.Sound := by
  have hm : (s.setMem { s.mem with
      cells := cellPuts s.mem.cells (line * 64) (data.take 64), poison := s.mem.poison.filter (· != line) }).Sound :=
    ⟨cellPuts_wf _ _ _ h.mem, h.limit, h.frac⟩
  unfold execSnoopReply at e
  grind [dirRun_sound, ownerLostRecord_sound, setDir_sound]

theorem loseOwner_sound {s : State} {line owner : Nat} (h : s.Sound) : (s.loseOwner line owner).Sound := by
  unfold State.loseOwner
  grind [setDir_sound, grantThreads_sound, ownerLostRecord_sound, poisonLine_sound]

theorem execSnoopTimeout_sound {s t : State} {line : Nat} (h : s.Sound) (e : execSnoopTimeout line s = .next t) :
    t.Sound := by
  unfold execSnoopTimeout at e
  grind [loseOwner_sound]

/-! ### Ports and lost devices (R413, R414, R493 to R495) -/

theorem fencePort_sound {s : State} {port retries : Nat} (h : s.Sound) : (s.fencePort port retries).Sound := by
  unfold State.fencePort
  grind [setPlat_sound, setDom_sound, record_sound]

theorem execEorexPortFailure_sound {s t : State} {port retries : Nat} (h : s.Sound)
    (e : execEorexPortFailure port retries s = .next t) : t.Sound := by
  unfold execEorexPortFailure at e
  grind [fencePort_sound]

theorem loseLine_sound {s : State} {d line : Nat} (h : s.Sound) : (s.loseLine d line).Sound := by
  unfold State.loseLine
  grind [setDir_sound, dirRun_sound, loseOwner_sound]

theorem execDeviceLossNotice_sound {s t : State} {dev : Nat} (h : s.Sound) (e : execDeviceLossNotice dev s = .next t)
    : t.Sound := by
  unfold execDeviceLossNotice at e
  grind [tickFree_sound, setDom_sound, record_sound, abortRound_sound, loseLine_sound, foldl_sound]

/-! ### Predicates (R187) -/

theorem predOp_sound {s : State} {n : Fin 8} {ps : List (Fin 8)} {f : Thread → Bool} (h : s.Sound) :
    (s.predOp n ps f).Sound := runPure_sound h

/-! ### Exchanges (R188 to R190) -/

theorem exchange_sound {s : State} {d : Dst} {srcs : List Src} {pick : LaneIn → Nat} (h : s.Sound) :
    (s.exchange d srcs pick).Sound := by
  unfold State.exchange
  grind [runLanes_sound]

theorem vote_sound {s : State} {d : Dst} {a : Src} {f : LaneIn → LaneIn → Bool} (h : s.Sound) : (s.vote d a f).Sound := by
  unfold State.vote
  grind [runLanes_sound]

/-! ### Reductions and scans (R191, R192) -/

theorem execLred_sound {s u : State} {op : RedOp} {t : Ty} {rc : Rc} {d : Dst} {a : Src} (h : s.Sound)
    (e : execLred op t rc d a s = .next u) : u.Sound := by
  cases e
  refine runLanes_sound (fun u ls hu => ?_) h
  grind

theorem execLscan_sound {s u : State} {op : RedOp} {excl : Bool} {t : Ty} {rc : Rc} {d : Dst} {a : Src} (h : s.Sound)
    (e : execLscan op excl t rc d a s = .next u) : u.Sound := by
  cases e
  refine runLanes_sound (fun u ls hu => ?_) h
  grind

/-! ### Power and temperature (R380, R381, R384) -/

theorem throttle_pwLim (p : Plat) (sum n now : Nat) : (p.throttle sum n now).pwLim = p.pwLim := by
  unfold Plat.throttle
  repeat' split
  all_goals rfl

theorem sampled_pwLim (p : Plat) (w a now : Nat) : (p.sampled w a now).pwLim = p.pwLim := by
  simp only [Plat.sampled]
  split <;> exact throttle_pwLim ..

theorem execPowerSample_sound {s t : State} {w a : Nat} {bad : List (Fin 7)} (h : s.Sound)
    (e : execPowerSample w a bad s = .next t) : t.Sound := by
  cases hoff : s.plat.off with
  | true => exact Host.Outcome.next.inj ((if_pos hoff).symm.trans e) ▸ h
  | false =>
    rw [← Host.Outcome.next.inj ((execPowerSample_samples hoff).symm.trans e)]
    refine foldl_sound (fun u _ hu => tickFree_sound (record_sound hu)) ⟨h.mem, ?_, ?_⟩
    · exact (sampled_pwLim s.plat w a s.now).symm ▸ h.limit
    · exact sampled_pwFrac_range _ _ _ _ h.frac.1 h.frac.2

theorem execTemperatureSample_sound {s t : State} {clusters stks : List Nat} (h : s.Sound)
    (e : execTemperatureSample clusters stks s = .next t) : t.Sound := by
  unfold execTemperatureSample at e
  grind [setPlat_sound, powerOff_sound]

/-! ### Scrubbing (R413, R423, R426, R427) -/

theorem execScrub_sound {s t : State} {pa : Nat} {found : Soundness} (h : s.Sound)
    (e : execScrub pa found s = .next t) : t.Sound := by
  unfold execScrub at e
  grind [setPlat_sound, due_sound, corrected_sound, poisonDetected_sound]

/-! ### Fences (R413 to R415, R470, R487) -/

theorem endCommands_sound {s : State} {cs : List Cmd} (h : s.Sound) : (s.endCommands cs).Sound := due_sound h

theorem fenceRecord_sound {s : State} {kind index : Nat} (h : s.Sound) : (s.fenceRecord kind index).Sound :=
  record_sound h

theorem fenceCore_sound {s : State} {c : Nat} (h : s.Sound) : (s.fenceCore c).Sound := by
  unfold State.fenceCore
  grind [modCore_sound, endTeam_sound, endCommands_sound, fenceRecord_sound, foldl_sound, sound_same]

theorem lastStores_sound {s : State} {p : Nat → Bool} (h : s.Sound) : (s.lastStores p).Sound := performStores_sound h

theorem fenceSlice_sound {s : State} {c : Nat} (h : s.Sound) : (s.fenceSlice c).Sound := by
  unfold State.fenceSlice
  grind [setPlat_sound, fenceRecord_sound, fenceCore_sound, lastStores_sound]

theorem closeFabric_sound {s : State} {f : Nat} (h : s.Sound) : (s.closeFabric f).Sound := by
  unfold State.closeFabric
  grind [setPlat_sound, endCommands_sound, sound_same]

theorem fenceFabric_sound {s : State} {f : Nat} (h : s.Sound) : (s.fenceFabric f).Sound := by
  unfold State.fenceFabric
  grind [fenceRecord_sound, closeFabric_sound]

theorem endWalks_sound {s : State} {p : Nat → Bool} (h : s.Sound) : (s.endWalks p).Sound := by
  unfold State.endWalks
  grind [modBlock_sound, foldl_sound]

theorem fenceWalker_sound {s : State} {w : Nat} (h : s.Sound) : (s.fenceWalker w).Sound := by
  unfold State.fenceWalker
  grind [setPlat_sound, fenceRecord_sound, endWalks_sound]

theorem fenceStack_sound {s : State} {k : Nat} (h : s.Sound) : (s.fenceStack k).Sound := by
  unfold State.fenceStack
  grind [setPlat_sound, endCommands_sound, fenceRecord_sound, lastStores_sound, closeFabric_sound, endWalks_sound,
    foldl_sound]

theorem execUnitFence_sound {s t : State} {u : FenceUnit} (h : s.Sound) (e : execUnitFence u s = .next t) : t.Sound := by
  unfold execUnitFence at e
  grind [fencePort_sound, fenceCore_sound, fenceSlice_sound, fenceFabric_sound, fenceWalker_sound, fenceStack_sound]

theorem execCoreIssueHang_sound {s t : State} {core : Nat} (h : s.Sound) (e : execCoreIssueHang core s = .next t) :
    t.Sound := by
  unfold execCoreIssueHang at e
  grind [fenceCore_sound]

/-! ### The stop of the device (R413, R418, R501) -/

theorem execDeviceStop_sound {s t : State} (h : s.Sound) (e : execDeviceStop s = .next t) : t.Sound := by
  unfold execDeviceStop at e
  grind [tickFree_sound, modCore_sound, setSys_sound, setPlat_sound, record_sound, rollbackRun_sound, foldl_sound]

theorem execDeviceStopLinkDrop_sound {s t : State} (h : s.Sound) (e : execDeviceStopLinkDrop s = .next t) : t.Sound := by
  unfold execDeviceStopLinkDrop at e
  grind [setDom_sound]

end Sys2Proof.Machine
end

section
/-!
Every instruction and every step keeps the state sound (O56).
-/
namespace Sys2Proof.Machine

/-! ### Every instruction -/

theorem exec_sound {s t : State} {i : Instr} (h : s.Sound) (e : exec i s = .next t) : t.Sound := by
  cases i with
  | addI32 | subI32 | mulI32 | mulhI32 | minI32 | maxI32 | and | or | xor | shl | shr | sra | crc | absdI32
  | mulhN32 | pack =>
    cases e
    exact lane2_sound h
  | not | mov | clz | popc | addI32Imm | andImm | orImm | xorImm | shlImm | shrImm | sraImm | movhi | ctz | bitrev
  | bfe =>
    cases e
    exact lane1_sound h
  | movi | movk | rds | pmovFromReg | pmovToReg | switch | trap | brk | barTest | boundGet | chpoll | scalb | cvt
  | unpack | cmp | sel | lea | fsh =>
    cases e
    exact runPure_sound h
  | pmovPred | pnot | pand | por | pxor =>
    cases e
    exact predOp_sound h
  | addF32 | subF32 | mulF32 | divF32 | sqrtF32 | rsqrtF32 | rcpF32 | exp2F32 | log2F32 | sinF32 | cosF32 | tanhF32 =>
    cases e
    exact f32op_sound h
  | minF32 | maxF32 | fclassF32 | absF32 =>
    cases e
    exact f32code_sound h
  | lperm | lrot | lxor | lbcast =>
    cases e
    exact exchange_sound h
  | lballot | lmatch =>
    cases e
    exact vote_sound h
  | sadd | ssub | sand | sor | sxor | sshl | sshr =>
    cases e
    exact scalar2_sound h
  | cardOpenX | cardOpenM =>
    cases e
    exact cardOpen_sound h
  | add | sub | mul | mulh | div | rem | min | max | abs | neg | absd | sqrt | fma | mad | rnd =>
    cases e
    exact elementwise_sound h
  | atomXchg | atomAdd | atomAnd | atomOr | atomXor | atomMin | atomMax | atomLd | atomSt =>
    cases e
    exact atom_sound h
  | keyselLoad | keyselErase =>
    cases e
    exact keysel_sound h
  | scan | cent =>
    cases e
    exact scanStep_sound h
  | gridRecord | gangRecord =>
    cases e
    exact admitLaunch_sound h
  | pcieUnsupportedRequest | pcieError =>
    cases e
    exact record_sound h
  | collectiveTimeout | collectiveAbort =>
    cases e
    exact abortRound_sound h
  | wrs => exact execWrs_sound h e
  | accRead => exact execAccRead_sound h e
  | accWrite => exact execAccWrite_sound h e
  | cardNext => exact execCardNext_sound h e
  | cardFeed => exact execCardFeed_sound h e
  | br => exact execBr_sound h e
  | call => exact execCall_sound h e
  | ret => exact execRet_sound h e
  | jr => exact execJr_sound h e
  | calr => exact execCalr_sound h e
  | converge => exact execConverge_sound h e
  | reform => exact execReform_sound h e
  | spawn => exact execSpawn_sound h e
  | exit => exact execExit_sound h e
  | yield => exact execYield_sound h e
  | sleep => exact execSleep_sound h e
  | gwait => exact execGwait_sound h e
  | gwaitPoll => exact execGwaitPoll_sound h e
  | phase => exact execPhase_sound h e
  | arrive => exact execArrive_sound h e
  | wait => exact execWait_sound h e
  | barOwe => exact execBarOwe_sound h e
  | hankPush => exact execHankPush_sound h e
  | hankPop => exact execHankPop_sound h e
  | hankPopWait => exact execHankPopWait_sound h e
  | hankSteal => exact execHankSteal_sound h e
  | hankSize => exact execHankSize_sound h e
  | boundMin => exact execBoundMin_sound h e
  | boundMinSet a nat => exact execBoundMinSet_sound (nat := nat) h e
  | boundMax => exact execBoundMax_sound h e
  | boundMaxSet a nat => exact execBoundMaxSet_sound (nat := nat) h e
  | regclaim => exact execRegclaim_sound h e
  | regrel => exact execRegrel_sound h e
  | wSend => exact execWSend_sound h e
  | wRecv => exact execWRecv_sound h e
  | smov => exact execSmov_sound h e
  | smovi => exact execSmovi_sound h e
  | smovh => exact execSmovh_sound h e
  | sbr => exact execSbr_sound h e
  | rdsr => exact execRdsr_sound h e
  | wrsr => exact execWrsr_sound h e
  | barInit => exact execBarInit_sound h e
  | hankInit => exact execHankInit_sound h e
  | chbind => exact execChbind_sound h e
  | chfree => exact execChfree_sound h e
  | guardSet => exact execGuardSet_sound h e
  | mxAcquire => exact execMxAcquire_sound h e
  | mxRelease => exact execMxRelease_sound h e
  | mxIssue => exact execMxIssue_sound h e
  | accAlloc => exact execAccAlloc_sound h e
  | accFree => exact execAccFree_sound h e
  | accZero => exact execAccZero_sound h e
  | accDrain => exact execAccDrain_sound h e
  | accPack => exact execAccPack_sound h e
  | xfer => exact execXfer_sound h e
  | xferMc => exact execXferMc_sound h e
  | bufDecl => exact execBufDecl_sound h e
  | bufSet => exact execBufSet_sound h e
  | cardSplit => exact execCardSplit_sound h e
  | cardSave => exact execCardSave_sound h e
  | cardRestore => exact execCardRestore_sound h e
  | cardClose => exact execCardClose_sound h e
  | sfUnbind => exact execSfUnbind_sound h e
  | ctxsave => exact execCtxsave_sound h e
  | ctxload => exact execCtxload_sound h e
  | tsync => exact execTsync_sound h e
  | replay => exact execReplay_sound h e
  | idle => exact execIdle_sound h e
  | halt => exact execHalt_sound h e
  | errack => exact execErrack_sound h e
  | madw => exact execMadw_sound h e
  | bfi => exact execBfi_sound h e
  | lscan => exact execLscan_sound h e
  | lred => exact execLred_sound h e
  | ld => exact execLd_sound h e
  | st => exact execSt_sound h e
  | gld => exact execGld_sound h e
  | gst => exact execGst_sound h e
  | cas => exact execCas_sound h e
  | pfch => exact execPfch_sound h e
  | wHop => exact execWHop_sound h e
  | wEmit => exact execWEmit_sound h e
  | wDist => exact execWDist_sound h e
  | wHeap => exact execWHeap_sound h e
  | wVisit => exact execWVisit_sound h e
  | launch => exact execLaunch_sound h e
  | xferTr => exact execXferTr_sound h e
  | cgLaunch => exact execCgLaunch_sound h e
  | sfLoad => exact execSfLoad_sound h e
  | sfBind => exact execSfBind_sound h e
  | sfRun => exact execSfRun_sound h e
  | srchIssue => exact execSrchIssue_sound h e
  | srchVer => exact execSrchVer_sound h e
  | srchVerRead => exact execSrchVerRead_sound h e
  | collStart => exact execCollStart_sound h e
  | tlbinvAll => exact execTlbinvAll_sound h e
  | tlbinvAsid => exact execTlbinvAsid_sound h e
  | tlbinvVa => exact execTlbinvVa_sound h e
  | dirReclaim => exact execDirReclaim_sound h e
  | draw => exact execDraw_sound h e
  | registerGrant => exact execRegisterGrant_sound h e
  | convergeStarveRelease => exact execConvergeStarveRelease_sound h e
  | forcing => exact execForcing_sound h e
  | starvation => exact execStarvation_sound h e
  | claimDeadlock => exact execClaimDeadlock_sound h e
  | coreRestart => exact execCoreRestart_sound h e
  | implicitRelease => exact execImplicitRelease_sound h e
  | tableWalk => exact execTableWalk_sound h e
  | runAheadRollback => exact execRunAheadRollback_sound h e
  | batchEntryDeferred => exact execBatchEntryDeferred_sound h e
  | gatherAccess => exact execGatherAccess_sound h e
  | accessAtHome => exact execAccessAtHome_sound h e
  | commandHead => exact execCommandHead_sound h e
  | commandComplete => exact execCommandComplete_sound h e
  | commandEnd => exact execCommandEnd_sound h e
  | commandHold => exact execCommandHold_sound h e
  | multicastAbandon => exact execMulticastAbandon_sound h e
  | graphNodeIssue => exact execGraphNodeIssue_sound h e
  | carderDeal => exact execCarderDeal_sound h e
  | streamChunk => exact execStreamChunk_sound h e
  | cycleViolation => exact execCycleViolation_sound h e
  | searchBlockStart => exact execSearchBlockStart_sound h e
  | searchNop => exact execSearchNop_sound h e
  | qload => exact execQload_sound h e
  | hinit => exact execHinit_sound h e
  | hmerge => exact execHmerge_sound h e
  | hout => exact execHout_sound h e
  | vclr => exact execVclr_sound h e
  | walk => exact execWalk_sound h e
  | searchPreempt => exact execSearchPreempt_sound h e
  | searchResume => exact execSearchResume_sound h e
  | walkerThreadStart => exact execWalkerThreadStart_sound h e
  | hopTakeup => exact execHopTakeup_sound h e
  | walkerMessage => exact execWalkerMessage_sound h e
  | exitNotice => exact execExitNotice_sound h e
  | walkStalled => exact execWalkStalled_sound h e
  | lqTailDoorbell => exact execLqTailDoorbell_sound h e
  | lqEnable => exact execLqEnable_sound h e
  | lqDisable => exact execLqDisable_sound h e
  | lqDisableEffect => exact execLqDisableEffect_sound h e
  | recordAdmission => exact execRecordAdmission_sound h e
  | extentTranslation => exact execExtentTranslation_sound h e
  | graphRecord => exact execGraphRecord_sound h e
  | waitOnValue => exact execWaitOnValue_sound h e
  | waitOnValuePoll => exact execWaitOnValuePoll_sound h e
  | signalRecord => exact execSignalRecord_sound h e
  | teamPlacement => exact execTeamPlacement_sound h e
  | teamRetire => exact execTeamRetire_sound h e
  | gridRetire => exact execGridRetire_sound h e
  | phaseComplete => exact execPhaseComplete_sound h e
  | tsyncComplete => exact execTsyncComplete_sound h e
  | tlbinvComplete => exact execTlbinvComplete_sound h e
  | ctxsaveWrite => exact execCtxsaveWrite_sound h e
  | idleTimer => exact execIdleTimer_sound h e
  | hostMemoryWrite => exact execHostMemoryWrite_sound h e
  | hostMemoryRead => exact execHostMemoryRead_sound h e
  | hostLinkDown => exact execHostLinkDown_sound h e
  | supervisorMailbox => exact execSupervisorMailbox_sound h e
  | coldReset => exact execColdReset_sound h e
  | warmReset => exact execWarmReset_sound h e
  | kseedLock => exact execKseedLock_sound h e
  | privLock => exact execPrivLock_sound h e
  | domainJoin => exact execDomainJoin_sound h e
  | attestationStart => exact execAttestationStart_sound h e
  | attestationDone => exact execAttestationDone_sound h e
  | coreResume => exact execCoreResume_sound h e
  | eqHeadWrite => exact execEqHeadWrite_sound h e
  | bqHeadWrite => exact execBqHeadWrite_sound h e
  | registerWrite => exact execRegisterWrite_sound h e
  | powerSample => exact execPowerSample_sound h e
  | temperatureSample => exact execTemperatureSample_sound h e
  | scrub => exact execScrub_sound h e
  | unitFence => exact execUnitFence_sound h e
  | coreIssueHang => exact execCoreIssueHang_sound h e
  | deviceStop => exact execDeviceStop_sound h e
  | deviceStopLinkDrop => exact execDeviceStopLinkDrop_sound h e
  | remoteAccess => exact execRemoteAccess_sound h e
  | directoryRequest => exact execDirectoryRequest_sound h e
  | snoop => exact execSnoop_sound h e
  | snoopReply => exact execSnoopReply_sound h e
  | invalidation => exact execInvalidation_sound h e
  | snoopTimeout => exact execSnoopTimeout_sound h e
  | eorexPortFailure => exact execEorexPortFailure_sound h e
  | deviceLossNotice => exact execDeviceLossNotice_sound h e
  | collectiveDelivery => exact execCollectiveDelivery_sound h e
  | illegalEncoding => exact execIllegalEncoding_sound h e
  | sleepEnd => exact execSleepEnd_sound h e
  | hostLinkRetrained => exact execHostLinkRetrained_sound h e
  | powerDown => exact execPowerDown_sound h e

/-! ### The fetch (R136, R154, R456) -/

theorem fetchUnit_sound {s : State} {ws : List Who} {t : Target} (h : s.Sound) : (s.fetchUnit ws t).1.Sound := by
  unfold State.fetchUnit
  grind [performStores_sound, viewBytes_sound, sawWrite_sound, foldl_sound]

theorem fetchWord_sound {s : State} {ws : List Who} {w : Who} {pc : DWord} (h : s.Sound) :
    (s.fetchWord ws w pc).1.Sound := by
  unfold State.fetchWord
  grind [reach_sound, fetchUnit_sound]

theorem fetchPage_sound {s : State} {va : Nat} (h : s.Sound) : (s.fetchPage va).Sound := by
  unfold State.fetchPage
  grind [parkFetch_sound, stopSets_sound, parkWalker_sound, sound_same]

theorem secondWord_sound {s : State} {w1 w2 : Word} (h : s.Sound) : (s.secondWord w1 w2).1.Sound := by
  unfold State.secondWord
  grind [setSys_sound]

theorem fetchInstr_sound {s : State} (h : s.Sound) : (s.fetchInstr).1.Sound := by
  unfold State.fetchInstr
  grind [setSys_sound, gangGo_sound, gangRaise_sound, fetchWord_sound, fetchPage_sound, secondWord_sound]

/-! ### Run-aheads (R108, R109, R289, R435) -/

theorem countAhead_sound {s : State} {r : Nat} (h : s.Sound) : (s.countAhead r).Sound := sound_same h

theorem endAhead_sound {s : State} {r : Nat} (h : s.Sound) : (s.endAhead r).Sound := by
  unfold State.endAhead
  grind [due_sound]

/-! ### One gang issues -/

theorem andThen_sound {o : Host.Outcome State Fault Refusal} {f : State → State} {t : State}
    (ho : ∀ u, o = .next u → u.Sound) (hf : ∀ u, u.Sound → (f u).Sound) (e : andThen o f = .next t) : t.Sound := by
  cases o with
  | next u => exact Host.Outcome.next.inj e ▸ hf u (ho u rfl)
  | fault | refused => cases e

theorem act_sound {s t : State} {w1 w2 : Word} (h : s.Sound) (e : s.act w1 w2 = .next t) : t.Sound := by
  unfold State.act at e
  grind [execIllegalEncoding_sound, exec_sound]

theorem actAhead_sound {s t : State} {r : Nat} {w1 w2 : Word} (h : s.Sound) (e : s.actAhead r w1 w2 = .next t) :
    t.Sound := by
  unfold State.actAhead at e
  grind [setSys_sound, stopSets_sound, countAhead_sound, act_sound]

theorem keepWaiting_sound {s : State} {old : List (Who × Thread)} (h : s.Sound) : (s.keepWaiting old).Sound := by
  unfold State.keepWaiting
  grind [modThread_sound, foldl_sound]

theorem issueGang_sound {s t : State} {core ctx : Nat} {run : Option Nat} {lanes : List (Nat × Who)} {pc : DWord}
    (h : s.Sound) (e : s.issueGang core ctx run lanes pc = .next t) : t.Sound := by
  unfold State.issueGang at e
  dsimp only at e
  have hi : ∀ y, (lanes.foldl (fun s l => s.modThread l.2 (fun t => t.issued s.now)) (s.setSys y)).Sound := fun y =>
    foldl_sound (fun _ _ hu => modThread_sound hu) (setSys_sound h)
  have hs := fetchInstr_sound (hi { s.sys with issue := { core, ctx, lanes, pc, runAhead := run } })
  split at e
  · next hx =>
    rw [hx] at hs
    grind [endAhead_sound]
  · next hx =>
    rw [hx] at hs
    split at e
    · exact andThen_sound (fun _ hu => actAhead_sound hs hu) (fun _ hu => endAhead_sound hu) e
    · exact andThen_sound (fun _ hu => act_sound hs hu)
        (fun _ hu => foldl_sound (fun _ _ hv => modThread_sound hv) (keepWaiting_sound hu)) e

theorem issueRuns_sound {s t : State} {core ctx : Nat} {gang : List LaneSet} {pc : DWord} {xs : List (Option Nat)}
    (h : s.Sound) (e : s.issueRuns core ctx gang pc xs = .next t) : t.Sound := by
  induction xs generalizing s with
  | nil => grind [State.issueRuns]
  | cons x xs ih =>
    unfold State.issueRuns at e
    grind [issueGang_sound]

/-! ### Selection (R322, R323) -/

theorem noteSelection_sound {s : State} {core pipe : Nat} {ready : List Nat} {chosen : Nat} (h : s.Sound) :
    (s.noteSelection core pipe ready chosen).Sound := sound_same h

theorem passOver_sound {s : State} {sets gang : List LaneSet} (h : s.Sound) : (s.passOver sets gang).Sound := by
  unfold State.passOver
  grind [modThread_sound, foldl_sound]

theorem issueCand_sound {s t : State} {core pipe : Nat} {ready : List Nat} {u : Bool} {k : Cand} (h : s.Sound)
    (e : s.issueCand core pipe ready u k = .next t) : t.Sound := by
  unfold State.issueCand at e
  grind [modCore_sound, issueRuns_sound, noteSelection_sound, passOver_sound]

theorem unselect_sound {s : State} {old : State} {core : Nat} {k : Cand} (h : s.Sound) : (s.unselect old core k).Sound := by
  unfold State.unselect
  grind [modCore_sound, modThread_sound, foldl_sound, sound_same]

theorem issueFirst_sound {s t : State} {core pipe : Nat} {ready : List Nat} {refused : Bool} {xs : List Cand}
    (h : s.Sound) (e : s.issueFirst core pipe ready refused xs = .next t) : t.Sound := by
  induction xs generalizing s ready refused with
  | nil => grind [State.issueFirst]
  | cons x xs ih =>
    unfold State.issueFirst at e
    grind [issueCand_sound, unselect_sound]

theorem issuePipe_sound {s t : State} {core pipe : Nat} (h : s.Sound) (e : s.issuePipe core pipe = .next t) : t.Sound := by
  unfold State.issuePipe at e
  grind [issueFirst_sound]

/-! ### Walker threads (R360, R364) -/

theorem issueWalker_sound {s t : State} {n : Nat} (h : s.Sound) (e : s.issueWalker n = .next t) : t.Sound := by
  unfold State.issueWalker at e
  grind [modBlock_sound, issueGang_sound]

theorem takeTurn_sound {s u : State} {t : Nat × Nat} (h : s.Sound) (e : s.takeTurn t = .next u) : u.Sound := by
  unfold State.takeTurn at e
  grind [issuePipe_sound, issueWalker_sound]

/-! ### The device steps that fall due with the clock -/

theorem runDue_sound {s t : State} {d : Due} (h : s.Sound) (e : runDue d s = .next t) : t.Sound := by
  obtain ⟨i, hi⟩ := runDue_exec d
  exact exec_sound h (hi s ▸ e)

theorem serve_sound {s t : State} {d : Due} (h : s.Sound) (e : s.serve d = .next t) : t.Sound := by
  unfold State.serve at e
  grind [runDue_sound]

/-! ### Stalls that end (R214, R239, R299) -/

theorem unstall_sound {s : State} (h : s.Sound) : s.unstall.Sound := by
  unfold State.unstall
  grind [modThread_sound, wakeCore_sound, foldl_sound]

/-! ### What a clk itself changes -/

theorem clearWaits_sound {s : State} (h : s.Sound) : s.clearWaits.Sound := sound_same h

theorem coreClk_sound {s : State} {c : Nat} (h : s.Sound) : (s.coreClk c).Sound := by
  unfold State.coreClk
  grind [modCore_sound, wakeCore_sound]

/-! ### Steps that fall due -/

theorem nextClk_sound {s : State} (h : s.Sound) : s.nextClk.Sound := by
  unfold State.nextClk
  grind [setSys_sound, due_sound, writeRecords_sound, arriveBufs_sound, unstall_sound, clearWaits_sound, coreClk_sound,
    foldl_sound, sound_same]

/-! ### The step -/

theorem step_sound {s t : State} (h : s.Sound) (e : step s = .next t) : t.Sound := by
  unfold step at e
  split at e
  · exact serve_sound (setSys_sound h) e
  · split at e
    · exact takeTurn_sound (setSys_sound h) e
    · exact Host.Outcome.next.inj e ▸ nextClk_sound h

/-- Settles O56: the lemma of each operation that a step runs, up to the step itself. -/
theorem everyStepKeepsSound : Obligations.EveryStepKeepsSound := fun _ _ => step_sound

end Sys2Proof.Machine
end
